-- ==== Sys2Proof/Word.lean ====
section
/-! DEFINITION. The byte and word types of the CRB-32 (spec 00, Conventions). -/

namespace Sys2Proof

/-- One byte of a frame, of a table entry or of the serial flash. -/
abbrev Byte := BitVec 8

/-- A 32-bit item: an image tag, an image check, an entry word. -/
abbrev Word32 := BitVec 32

end Sys2Proof
end

