-- ==== Sys2Proof/Config.lean ====
section
/-! DEFINITION. What is fixed for the part, and the free values: orders the manual does not give. -/

namespace Sys2Proof.Config

/-- The largest number of entries of the outbound queue (R99). -/
def outboundMax : Nat := 32
/-- The largest number of entries of the trunk transmit queue (R128). -/
def trunkMax : Nat := 48
/-- The largest number of entries of the service transmit queue (R129). -/
def serviceMax : Nat := 4
/-- Buffers held back from received frames (R117). -/
def heldBack : Nat := 8
/-- The largest number of queued fill entries (R75). -/
def fillMax : Nat := 16
/-- The largest number of pinned lines and reserved pins together (R86). -/
def pinMax : Nat := 64
/-- The largest number of attention entries (R183). -/
def attnMax : Nat := 32
/-- The highest record index of the image store (R65). -/
def recordMax : Nat := 119039
/-- The highest image sector number (R65). -/
def imageSectorMax : Nat := 3839
/-- The capacity code of the 16 MiB device the part is fitted with (R189). -/
def capacityCode : Byte := 0x18#8
/-- The store identifier (R177). -/
def storeId : Word32 := 0x43524232#32

/-- FREE VALUE (log entry 6): which of several slots or queues the part takes next where one event concerns several and the
manual gives no order among them (R155: "The part does not fix an order between the REFUSEs of different flushes").
It has no body: a claim holds for every order. It is applied to the counter `State.freeTick`. -/
opaque pick : Nat → Nat

end Sys2Proof.Config
end

