-- ==== Sys2Proof/Syntax.lean ====
section
/-! DEFINITION. The commands of the block: one constructor per row of spec/opcode_table.json.

The part is driven by steps (spec 95): events on its links, pins and timers, ends of flash operations, and the internal
steps that serve requests and place replies. What comes from outside the part is an operand: the bytes of a frame, the slot
whose timer expires, whether a frame began before the ports took frames, and what the flash device got wrong (a disturbance, exclusive-ored onto what a sound device gives). -/

namespace Sys2Proof

/-- The two links whose frames RECEIVE_FRAME judges (R114). The segment has rows of its own. -/
inductive Link where
  | trunk
  | service
deriving DecidableEq, Repr

/-- How a frame that RECEIVE_FRAME judges came in: it began on the link while the port took frames, or `early`, before the end
of the last full reset and its start-up load (R114, R132, log entry 10). -/
inductive Arrival where
  | trunk
  | service
  | early (link : Link)
deriving DecidableEq, Repr

/-- A slot number, 0 to 31. -/
abbrev SlotId := Fin 32

/-- A disturbance of a run of flash bytes: byte `k` is exclusive-ored with entry `k`, absent entries count as 0 (log entry 5). -/
abbrev Disturb := List Byte

/-- The steps of the part, in the order of the table. -/
inductive Instr where
  /-- RECEIVE_FRAME: a link goes idle after a frame of these bytes. -/
  | receiveFrame (arrival : Arrival) (bytes : List Byte)
  /-- FRAME_BEGINS_ON_SEGMENT. -/
  | frameBeginsOnSegment
  /-- SEGMENT_FRAME_END: the segment goes idle after a frame of these bytes. -/
  | segmentFrameEnd (bytes : List Byte)
  | answerTimerExpiry
  | segmentTransmissionEnd
  | trunkTransmissionEnd
  | serviceTransmissionEnd
  | lineFalls
  | lineRises
  | deglitchTimerExpiry
  | settleTimerExpiry
  | retryTimerExpiry (slot : SlotId)
  | stageTimerExpiry (slot : SlotId)
  | resetN
  | powerOn
  /-- START_UP_LOAD_DONE: `left` disturbs what a flash operation cut by the reset leaves, `read` the reading of sector 0. -/
  | startUpLoadDone (left read : Disturb)
  | flashReaderStart
  /-- FILL_READ_END: `read` disturbs the 130 bytes read. -/
  | fillReadEnd (read : Disturb)
  /-- ERASE_SECTOR_DONE: `kept` marks the bits that kept their old value, `read` disturbs the read-back. -/
  | eraseSectorDone (kept read : Disturb)
  /-- WRITE_RECORD_DONE: `blank` disturbs the blank read, `prog` what is programmed, `back` the read-back. -/
  | writeRecordDone (blank prog back : Disturb)
  /-- COMMIT_DONE: `prog` disturbs what sector 0 then holds, `back` the read-back. -/
  | commitDone (prog back : Disturb)
  /-- SCAN_READ_END: `read` disturbs the bytes read. -/
  | scanReadEnd (read : Disturb)
  | placeWaitingReply
  | readRangeFrame
  | pinWaitingPlace
  | readEntry
  | readLink
  | writeEntry
  | writeCond
  | readRange
  | setContext
  | clearContext
  | permit
  | reload
  | clear
  | clearRetries
  | pin
  | unpin
  | prefetch
  | invalidate
  | eraseSector
  | writeRecord
  | readAttn
  | clearAttn
  | commit
  | selfCheck
  | engineReset
  | fullReset
  | badRequest
deriving DecidableEq, Repr

end Sys2Proof
end

