-- ==== Sys2Proof/WellFormed.lean ====
section
/-! DEFINITION. Which commands are well formed: a disturbance is no longer than the run of flash bytes it disturbs. -/

namespace Sys2Proof

/-- The bytes of a flash sector (R65). -/
def sectorBytes : Nat := 4096
/-- The bytes of a block record (R66). -/
def recordBytes : Nat := 130
/-- The bytes of an image sector that its 31 records occupy (R65). -/
def sectorRecordBytes : Nat := 4030
/-- The bytes of the configuration store, its CRC-32 included (R177, R198). -/
def storeBytes : Nat := 2117

/-- A command is well formed when each disturbance fits the flash bytes that the step reads or writes. Every other operand
is well formed by its type; a frame may have any number of bytes, since the port judges its length (R114). -/
def Instr.wellFormed : Instr → Bool
  | .startUpLoadDone left read => decide (left.length ≤ sectorBytes) && decide (read.length ≤ storeBytes)
  | .fillReadEnd read => decide (read.length ≤ recordBytes)
  | .eraseSectorDone kept read => decide (kept.length ≤ sectorBytes) && decide (read.length ≤ sectorRecordBytes)
  | .writeRecordDone blank prog back =>
      decide (blank.length ≤ recordBytes) && decide (prog.length ≤ recordBytes) && decide (back.length ≤ recordBytes)
  | .commitDone prog back => decide (prog.length ≤ sectorBytes) && decide (back.length ≤ storeBytes)
  | .scanReadEnd read => decide (read.length ≤ recordBytes)
  | .receiveFrame _ _ | .frameBeginsOnSegment | .segmentFrameEnd _ | .answerTimerExpiry | .segmentTransmissionEnd
  | .trunkTransmissionEnd | .serviceTransmissionEnd | .lineFalls | .lineRises | .deglitchTimerExpiry
  | .settleTimerExpiry | .retryTimerExpiry _ | .stageTimerExpiry _ | .resetN | .powerOn | .flashReaderStart
  | .placeWaitingReply | .readRangeFrame | .pinWaitingPlace | .readEntry | .readLink | .writeEntry | .writeCond
  | .readRange | .setContext | .clearContext | .permit | .reload | .clear | .clearRetries | .pin | .unpin | .prefetch
  | .invalidate | .eraseSector | .writeRecord | .readAttn | .clearAttn | .commit | .selfCheck | .engineReset
  | .fullReset | .badRequest => true

end Sys2Proof
end

