-- ==== Sys2Proof/Machine/State.lean ====
section
/-! DEFINITION. The state of the CRB-32 as plain data: every table, register, queue, timer, flag and pin the manual gives it,
the serial flash behind it, and the queue of waiting commands. Field by field the list stands in INVENTORY.md, State. -/

namespace Sys2Proof.Machine

abbrev ImageId := Fin 16
abbrev ClassId := Fin 8
abbrev GroupId := Fin 4
abbrev FieldId := Fin 16
/-- A cache line number (R72). -/
abbrev LineId := Fin 96
/-- A pool buffer number (R116). -/
abbrev BufId := Fin 64

/-! ## Frames (11.1, 11.2) -/

inductive Kind where
  | data | status | refuse | turn | empty | bootcall | block | loadack | startimg | started | ctxload | ready | reboot
  | mgmtReq | mgmtReply
deriving DecidableEq, Repr

/-- A Carline frame. Its length field and its check follow from the payload (11.1), so they are not kept beside it. -/
structure Frame where
  dst : Byte
  src : Byte
  kind : Kind
  seq : Byte
  payload : List Byte
deriving DecidableEq, Repr

/-- One pool buffer: the frame it holds, absent on the free list, and its reference count (R116). -/
structure Buffer where
  frame : Option Frame
  refs : Nat
deriving DecidableEq, Repr

/-- An entry of the trunk or service transmit queue. `resets` marks the reply to FULL-RESET, at whose end of transmission
the full reset takes place (R181). -/
structure TxEntry where
  buf : BufId
  resets : Bool
deriving DecidableEq, Repr

/-! ## Configuration: tables 0 to 5 -/

inductive DefaultAction where
  | forward | drop
deriving DecidableEq, Repr

/-- Table 0, the settings entry (R171). The stage timeout is in units of 10 ms, the answer timeout in units of 0.25 ms (R198). -/
structure Settings where
  mgmtAddr : Byte
  classCount : Nat
  downDefault : DefaultAction
  upDefault : DefaultAction
  holdDepth : Nat
  window : Nat
  stageTimeout : Nat
  answerTimeout : Nat
  presenceLimit : Nat
  debtLimit : Nat
  deglitchCode : Nat
  settleCode : Nat
  resendLimit : Nat
deriving DecidableEq, Repr

inductive FailPolicy where
  | retry | latch | report | ignore
deriving DecidableEq, Repr

inductive LossPolicy where
  | keep | clear
deriving DecidableEq, Repr

/-- A class table entry (R9). -/
structure ClassEntry where
  rank : Nat
  selector : Option ImageId
  policy : FailPolicy
  retryTime : Nat
  retryLimit : Nat
  loss : LossPolicy
  holdEnable : Bool
  warmAllowed : Bool
  layout : Vector Nat 16
deriving DecidableEq, Repr

/-- A slot table entry (R1). `expClass` absent is ANY; bit `k` of `groups` is membership of group address 0xF0 + k. -/
structure SlotEntry where
  enabled : Bool
  addr : Byte
  expClass : Option Byte
  override : Option ImageId
  group : Option GroupId
  groups : BitVec 15
deriving DecidableEq, Repr

/-- A window of a catalogue entry (R55, R56). -/
structure Window where
  enable : Bool
  first : Nat
  last : Nat
  base : Nat
deriving DecidableEq, Repr

/-- The configuration part of a catalogue entry (R55). -/
structure CatEntry where
  valid : Bool
  tag : Word32
  length : Nat
  entryWord : Word32
  check : Word32
  minHw : Nat
  minBoot : Nat
  windows : Vector Window 4
deriving DecidableEq, Repr

inductive Direction where
  | down | up
deriving DecidableEq, Repr

inductive RuleKind where
  | data | status
deriving DecidableEq, Repr

inductive FwdAction where
  | forward | forwardNoHold | drop
deriving DecidableEq, Repr

/-- A forwarding rule (R119). -/
structure FwdRule where
  enable : Bool
  dir : Direction
  kind : RuleKind
  dstLow : Byte
  dstHigh : Byte
  srcLow : Byte
  srcHigh : Byte
  typeValue : Byte
  typeMask : Byte
  action : FwdAction
  capture : Bool
deriving DecidableEq, Repr

inductive CapSource where
  | dataDown | dataUp | status
deriving DecidableEq, Repr

inductive TargetMode where
  | addressed | all
deriving DecidableEq, Repr

/-- A capture rule (R138). -/
structure CapRule where
  enable : Bool
  source : CapSource
  typeValue : Byte
  typeMask : Byte
  offset : Nat
  field : FieldId
  classMask : BitVec 8
  mode : TargetMode
deriving DecidableEq, Repr

/-- The configuration tables 0 to 5, which COMMIT saves and the start-up load installs (R177, R179). -/
structure Tables where
  settings : Settings
  classes : Vector ClassEntry 8
  slots : Vector SlotEntry 32
  cat : Vector CatEntry 16
  fwd : Vector FwdRule 48
  cap : Vector CapRule 32
deriving DecidableEq, Repr

/-! ## Slots and sessions -/

inductive SlotState where
  | vacant | absent | dark | loading | starting | context | running | backoff | failed
deriving DecidableEq, Repr

/-- The failure causes (R5). -/
inductive Cause where
  | class | noImage | imageBad | incompatible | stalled | resends | protocol | verify | tag | context | lost
deriving DecidableEq, Repr

inductive RebootReason where
  | retry | clear | reload
deriving DecidableEq, Repr

/-- The session record (R29). `timer` is the stage timer: present while it runs, with its duration in units of 10 ms. -/
structure Session where
  img : ImageId
  tag : Word32
  length : Nat
  check : Word32
  entryWord : Word32
  warm : Bool
  window : Nat
  stageTimeout : Nat
  resendLimit : Nat
  cursor : Nat
  through : Option Nat
  inFlight : List Nat
  resends : Nat
  sent : Bool
  sentMask : Option (BitVec 16)
  timer : Option Nat
deriving DecidableEq, Repr

/-- The slot status (R5), the retry timer (R22: present while it runs, with its duration in ms) and the open session.
`reboot` is REBOOT_PENDING with its reason. -/
structure SlotStatus where
  state : SlotState
  cls : Option ClassId
  expTag : Option Word32
  catInUse : Option ImageId
  retry : Nat
  miss : Nat
  holdMissed : Nat
  stale : Bool
  coldNext : Bool
  reloadExpected : Bool
  reboot : Option RebootReason
  lastCause : Option Cause
  retryTimer : Option Nat
  session : Option Session
deriving DecidableEq, Repr

/-- A context record (R135): the stored value of each field, absent where the field is absent. The presence mask is read off it. -/
abbrev CtxRecord := Vector (Option (List Byte)) 16

/-! ## Catalogue status, block cache, flash -/

/-- The stored items of a catalogue entry's status part (R58). The pinned line count is read off the lines. -/
structure CatStatus where
  bad : Bool
  users : Nat
deriving DecidableEq, Repr

/-- A cache line (R72). The discard mark is present in FILLING and the pinned flag is set only on VALID lines. -/
inductive Line where
  | empty
  | filling (img : ImageId) (blk : Nat) (discard : Bool)
  | valid (img : ImageId) (blk : Nat) (pinned : Bool) (data : List Byte)
deriving DecidableEq, Repr

/-- A fill queue entry (R75); its age is its place in the queue. `avoid` is the line of the marked fill of the same block that
ran when the entry was made: the entry's fill starts in a different line (R85, log entry 33). -/
structure FillEntry where
  img : ImageId
  blk : Nat
  reqs : List SlotId
  pin : Bool
  pre : Bool
  rank : Nat
  avoid : Option LineId
deriving DecidableEq, Repr

/-- The block cache (R72 to R75, R86): the lines, the recency order (least recent first), the fill queue (oldest first) and
the pin reservation. -/
structure Cache where
  lines : Vector Line 96
  recency : List LineId
  fills : List FillEntry
  reservation : Nat
deriving DecidableEq, Repr

/-- The fill in flight (R75, R81): the FILLING line, the block and the record being read, the requesters and flags.
`reread` is set while the second read runs (R83); `orphan` when an engine reset was taken while it was in flight (R93). -/
structure Fill where
  line : LineId
  img : ImageId
  blk : Nat
  record : Nat
  reqs : List SlotId
  pin : Bool
  pre : Bool
  reread : Bool
  orphan : Bool
deriving DecidableEq, Repr

/-- The flash reader (R79): idle, or the operation it runs. A scan read whose data is to be discarded is not `live`. -/
inductive Reader where
  | idle
  | fill (f : Fill)
  | erase (sector : Nat)
  | program (record : Nat) (data : List Byte)
  | commit
  | scan (live : Bool)
deriving DecidableEq, Repr

/-- The serial flash: address and byte pairs, addresses strictly rising, no byte 0xFF listed (an unlisted byte is erased). -/
abbrev Memory := List Host.Cell

/-- A flash operation that was under way when a full reset was taken, and that the device finishes before the start-up load
reads sector 0 (R70, R178). -/
inductive CutOp where
  | erase (sector : Nat)
  | program (record : Nat) (data : List Byte)
  | commit (store : List Byte)
deriving DecidableEq, Repr

/-! ## Segment scheduler -/

/-- What the segment transmitter sends: a frame built in it, or the head of the outbound queue (R98 to R102). -/
inductive SegTx where
  | turn (f : Frame)
  | restore (f : Frame)
  | reboot (f : Frame) (slot : SlotId)
  | outbound
deriving DecidableEq, Repr

/-- The five states of the segment port (R94). A frame being received began inside the answer window or outside any. -/
inductive SegPort where
  | free
  | sending (tx : SegTx)
  | window
  | receiving (inWindow : Bool)
  | silent
deriving DecidableEq, Repr

inductive TurnKind where
  | ring | urgent
deriving DecidableEq, Repr

/-- The turn given: the turned slot and address (R102), the void mark (R105), and the mark that the turn was closed by a gap
confirmation or an engine reset before its answer was judged (R109, R113). -/
structure Turn where
  slot : SlotId
  addr : Byte
  void : Bool
  closed : Bool
deriving DecidableEq, Repr

/-- The segment scheduler (R94 to R102). `answerTimer` is present while the timer runs, in units of 0.25 ms. -/
structure Segment where
  port : SegPort
  silent : Bool
  debt : Nat
  ringCursor : SlotId
  urgentCursor : SlotId
  lastTurn : TurnKind
  turn : Option Turn
  answerTimer : Option Nat
deriving DecidableEq, Repr

/-- The queues whose entries reference pool buffers (R116). -/
structure Queues where
  out : List BufId
  hold : Vector (List BufId) 32
  trunk : List TxEntry
  service : List TxEntry
deriving DecidableEq, Repr

/-! ## Ports, line monitor -/

inductive Port where
  | trunk | segment | service
deriving DecidableEq, Repr

/-- A port's receive staging area and its counters (R114, R115). -/
structure PortState where
  staged : List Byte
  good : Nat
  bad : Nat
  overrun : Nat
  transmitted : Nat
  orphan : Nat
deriving DecidableEq, Repr

structure Ports where
  trunk : PortState
  segment : PortState
  service : PortState
deriving DecidableEq, Repr

inductive LineState where
  | up | dip | gap | settle
deriving DecidableEq, Repr

/-- The line monitor and permit logic (R150 to R161). A timer is present while it runs, with its duration in ms. -/
structure LineMon where
  line : LineState
  deglitch : Option Nat
  settle : Option Nat
  dips : Nat
  gaps : Nat
  requests : Vector Bool 4
  permits : Vector Bool 4
deriving DecidableEq, Repr

/-! ## Management agent -/

inductive Origin where
  | trunk | service
deriving DecidableEq, Repr

inductive OriginState where
  | idle | waiting | running | replying
deriving DecidableEq, Repr

/-- A request record: the request's payload (code and arguments), source address and sequence (R165). -/
structure Request where
  payload : List Byte
  src : Byte
  seq : Byte
deriving DecidableEq, Repr

/-- The table entry a link names (R173). -/
structure EntryName where
  table : Nat
  index : Nat
deriving DecidableEq, Repr

/-- What the agent holds for one origin, but for its waiting replies (R165, R166, R173). -/
structure OriginRec where
  state : OriginState
  req : Option Request
  link : Option EntryName
deriving DecidableEq, Repr

/-- A built reply that waits to be placed (R166). `busy` tells a BUSY reply to a further request from a final reply. -/
structure BuiltReply where
  origin : Origin
  busy : Bool
  resets : Bool
  frame : Frame
deriving DecidableEq, Repr

/-- The progress of SELF-CHECK (R189): the check under way, the position in it, the running CRC-32, whether the store
identifier agreed, and the lowest failed check. -/
structure SelfCheck where
  check : Nat
  pos : Nat
  crc : Word32
  idOk : Bool
  lowest : Option Nat
deriving DecidableEq, Repr

/-- A long operation (R168) and what it holds. `started`: the flash reader has started it; `aborted`: an engine reset has
been taken since (R70). -/
inductive LongJob where
  | readRange (table next last : Nat)
  | commit (started : Bool)
  | pin (img : ImageId) (waiting : List Nat)
  | erase (sector : Nat) (started aborted : Bool)
  | program (record : Nat) (data : List Byte) (started aborted : Bool)
  | selfCheck (c : SelfCheck)
deriving DecidableEq, Repr

structure LongOp where
  origin : Origin
  job : LongJob
deriving DecidableEq, Repr

/-- The management agent (chapter 9). `replies` are the built replies that wait, oldest first; `stopped`: a FULL-RESET has been
served, and no further request is (R181). -/
structure Agent where
  trunk : OriginRec
  service : OriginRec
  long : Option LongOp
  pointer : Origin
  restartMark : Bool
  stopped : Bool
  replies : List BuiltReply
deriving DecidableEq, Repr

/-! ## Attention unit -/

inductive AttnCause where
  | lost | notBack | restarted | restoreFailed | retriesExhausted | stale | imageBad | configBad | overrun
deriving DecidableEq, Repr

inductive Subject where
  | none
  | slot (k : SlotId)
  | image (i : ImageId)
  | port (p : Port)
deriving DecidableEq, Repr

structure AttnEntry where
  cause : AttnCause
  subject : Subject
  detail : Option Cause
  count : Nat
deriving DecidableEq, Repr

/-- The attention unit (R183): the list, oldest first, the overflow flag and the ATTN output (true: asserted, driven low). -/
structure Attention where
  list : List AttnEntry
  overflow : Bool
  out : Bool
deriving DecidableEq, Repr

/-! ## The whole part -/

/-- `starting`: in full reset, the start-up load not finished; `running`: the load has finished (R158, R179). -/
inductive Phase where
  | starting | running
deriving DecidableEq, Repr

/-- The CRB-32, its serial flash, the level of its LINE input, and the commands waiting. -/
structure State where
  phase : Phase
  lineHigh : Bool
  tables : Tables
  slots : Vector SlotStatus 32
  ctx : Vector CtxRecord 32
  catSt : Vector CatStatus 16
  lm : LineMon
  bc : Cache
  reader : Reader
  flash : Memory
  cut : Option CutOp
  seg : Segment
  queues : Queues
  pool : Vector Buffer 64
  ports : Ports
  ma : Agent
  au : Attention
  freeTick : Nat
  pending : List Instr
deriving DecidableEq, Repr

/-- The model faults nowhere: the manual gives every step of the table an effect in every state. -/
inductive Fault where
deriving DecidableEq, Repr

/-- Why a command is refused. -/
inductive Refusal where
  /-- Raised by `exec` for a row of the table that has no meaning yet. Safe: nothing is claimed of it. No arm raises it now. -/
  | notModelled (mnemonic : String)
deriving DecidableEq, Repr

/-! ## Values after reset -/

/-- Factory defaults of the settings (R171). -/
def Settings.factory : Settings where
  mgmtAddr := 0xE0#8
  classCount := 1
  downDefault := .forward
  upDefault := .forward
  holdDepth := 4
  window := 4
  stageTimeout := 40
  answerTimeout := 4
  presenceLimit := 4
  debtLimit := 2
  deglitchCode := 2
  settleCode := 2
  resendLimit := 16

/-- Factory defaults of a class entry (R27). -/
def ClassEntry.factory : ClassEntry where
  rank := 0
  selector := none
  policy := .retry
  retryTime := 1
  retryLimit := 3
  loss := .keep
  holdEnable := true
  warmAllowed := false
  layout := Vector.replicate 16 0

/-- Factory defaults of the entry of slot `k`: disabled, node address 0x01 plus the slot number (R27). -/
def SlotEntry.factory (k : Nat) : SlotEntry where
  enabled := false
  addr := BitVec.ofNat 8 (k + 1)
  expClass := none
  override := none
  group := none
  groups := 0

/-- A window of the factory defaults (R71). -/
def Window.factory : Window where
  enable := false
  first := 0
  last := 0
  base := 0

/-- Factory defaults of a catalogue entry (R71). -/
def CatEntry.factory : CatEntry where
  valid := false
  tag := 0
  length := 1
  entryWord := 0
  check := 0
  minHw := 0
  minBoot := 0
  windows := Vector.replicate 4 Window.factory

/-- Factory defaults of a forwarding rule (R132). -/
def FwdRule.factory : FwdRule where
  enable := false
  dir := .down
  kind := .data
  dstLow := 0x01
  dstHigh := 0x01
  srcLow := 0
  srcHigh := 0
  typeValue := 0
  typeMask := 0
  action := .forward
  capture := false

/-- Factory defaults of a capture rule (R149). -/
def CapRule.factory : CapRule where
  enable := false
  source := .dataDown
  typeValue := 0
  typeMask := 0
  offset := 0
  field := 0
  classMask := 0
  mode := .addressed

/-- The factory defaults of every configuration table (R179). -/
def Tables.factory : Tables where
  settings := .factory
  classes := Vector.replicate 8 .factory
  slots := ⟨⟨(List.range 32).map SlotEntry.factory⟩, by simp⟩
  cat := Vector.replicate 16 .factory
  fwd := Vector.replicate 48 .factory
  cap := Vector.replicate 32 .factory

/-- A VACANT slot (R27). -/
def SlotStatus.vacant : SlotStatus where
  state := .vacant
  cls := none
  expTag := none
  catInUse := none
  retry := 0
  miss := 0
  holdMissed := 0
  stale := false
  coldNext := false
  reloadExpected := false
  reboot := none
  lastCause := none
  retryTimer := none
  session := none

/-- An empty context record (R149). -/
def CtxRecord.empty : CtxRecord := Vector.replicate 16 none

/-- A port's counters and staging area at a full reset (R132). -/
def PortState.reset : PortState where
  staged := []
  good := 0
  bad := 0
  overrun := 0
  transmitted := 0
  orphan := 0

/-- An origin at a full reset (R182). -/
def OriginRec.reset : OriginRec where
  state := .idle
  req := none
  link := none

/-- The part right after a full reset at power-on, its start-up load under way, with an erased flash (log entries 2 to 4).
The tables hold the factory defaults until the load installs what it installs. -/
def State.reset : State where
  phase := .starting
  lineHigh := false
  tables := .factory
  slots := Vector.replicate 32 .vacant
  ctx := Vector.replicate 32 .empty
  catSt := Vector.replicate 16 ⟨false, 0⟩
  lm := ⟨.gap, none, none, 0, 0, Vector.replicate 4 false, Vector.replicate 4 false⟩
  bc := ⟨Vector.replicate 96 .empty, [], [], 0⟩
  reader := .idle
  flash := []
  cut := none
  seg := ⟨.silent, true, 0, 0, 0, .urgent, none, none⟩
  queues := ⟨[], Vector.replicate 32 [], [], []⟩
  pool := Vector.replicate 64 ⟨none, 0⟩
  ports := ⟨.reset, .reset, .reset⟩
  ma := ⟨.reset, .reset, none, .trunk, false, false, []⟩
  au := ⟨[], false, false⟩
  freeTick := 0
  pending := []

end Sys2Proof.Machine
end

