-- ==== Sys2Proof/Machine/Crc.lean ====
section
/-! DEFINITION. The two checks: the CRC-16 of frames and block records (R66, R114) and the CRC-32 of images and of the
configuration store (R57, R177). -/

namespace Sys2Proof.Machine

/-- `n` shifts of the CRC-16 register, generator x^16 + x^12 + x^5 + 1, most significant bit first (R66). -/
def crc16Shift (c : BitVec 16) : Nat → BitVec 16
  | 0 => c
  | n + 1 => crc16Shift (if c.msb then (c <<< 1) ^^^ 0x1021#16 else c <<< 1) n

/-- The CRC-16 register after more bytes (R66). -/
def crc16Step (c : BitVec 16) : List Byte → BitVec 16
  | [] => c
  | b :: bs => crc16Step (crc16Shift (c ^^^ (b.setWidth 16 <<< 8)) 8) bs

/-- The CRC-16 of a run of bytes: initial value all ones, remainder not reflected, no final inversion (R66). -/
def crc16 (bs : List Byte) : BitVec 16 := crc16Step 0xFFFF#16 bs

/-- `n` shifts of the reflected CRC-32 register, generator 0x04C11DB7 (reflected 0xEDB88320), least significant bit first (R57). -/
def crc32Shift (c : Word32) : Nat → Word32
  | 0 => c
  | n + 1 => crc32Shift (if c.getLsbD 0 then (c >>> 1) ^^^ 0xEDB88320#32 else c >>> 1) n

/-- The CRC-32 register after more bytes (R57). -/
def crc32Step (c : Word32) : List Byte → Word32
  | [] => c
  | b :: bs => crc32Step (crc32Shift (c ^^^ b.setWidth 32) 8) bs

/-- The CRC-32 register before the first byte: all ones (R57). -/
def crc32Init : Word32 := 0xFFFFFFFF#32

/-- The CRC-32 of a run of bytes, with the final inversion (R57). -/
def crc32 (bs : List Byte) : Word32 := ~~~ crc32Step crc32Init bs

end Sys2Proof.Machine
end

