-- ==== Sys2Proof/Machine/Operands.lean ====
section
/-! DEFINITION. The forms on the wire: byte order, Carline frames, payload layouts and request forms (chapter 11). -/

namespace Sys2Proof.Machine

/-! ## Byte order: most significant byte first (11, introduction) -/

def be16 (n : Nat) : List Byte := [BitVec.ofNat 8 (n / 256), BitVec.ofNat 8 n]

def be32 (w : Word32) : List Byte :=
  [w.extractLsb' 24 8, w.extractLsb' 16 8, w.extractLsb' 8 8, w.extractLsb' 0 8]

/-- Byte `k` of a payload, read as a number. -/
def rd8 (bs : List Byte) (k : Nat) : Nat := (bs.getD k 0).toNat

/-- The 2-byte number at offset `k`. -/
def rd16 (bs : List Byte) (k : Nat) : Nat := 256 * rd8 bs k + rd8 bs (k + 1)

/-- The 4-byte item at offset `k`. -/
def rd32 (bs : List Byte) (k : Nat) : Word32 :=
  bs.getD k 0 ++ bs.getD (k + 1) 0 ++ bs.getD (k + 2) 0 ++ bs.getD (k + 3) 0

/-- The Bool a byte of value 0 or 1 stands for; any other value is outside its codes (R198). -/
def rdFlag (bs : List Byte) (k : Nat) : Option Bool :=
  match rd8 bs k with
  | 0 => some false
  | 1 => some true
  | _ => none

def flagByte (b : Bool) : Byte := if b then 1 else 0

/-! ## Kinds (11.2) -/

def Kind.code : Kind → Byte
  | .data => 0x01
  | .status => 0x02
  | .refuse => 0x03
  | .turn => 0x10
  | .empty => 0x11
  | .bootcall => 0x20
  | .block => 0x21
  | .loadack => 0x22
  | .startimg => 0x23
  | .started => 0x24
  | .ctxload => 0x25
  | .ready => 0x26
  | .reboot => 0x27
  | .mgmtReq => 0x30
  | .mgmtReply => 0x31

/-- The kind a code stands for; a code not in the table is a kind no port accepts (11.2). -/
def Kind.ofCode (c : Nat) : Option Kind :=
  match c with
  | 0x01 => some .data
  | 0x02 => some .status
  | 0x03 => some .refuse
  | 0x10 => some .turn
  | 0x11 => some .empty
  | 0x20 => some .bootcall
  | 0x21 => some .block
  | 0x22 => some .loadack
  | 0x23 => some .startimg
  | 0x24 => some .started
  | 0x25 => some .ctxload
  | 0x26 => some .ready
  | 0x27 => some .reboot
  | 0x30 => some .mgmtReq
  | 0x31 => some .mgmtReply
  | _ => none

/-! ## Frames (11.1) -/

/-- Bytes 0 to 4 + L of a frame: header and payload. -/
def Frame.body (f : Frame) : List Byte :=
  [f.dst, f.src, f.kind.code, f.seq, BitVec.ofNat 8 f.payload.length] ++ f.payload

/-- The frame on the wire: body and check (R193). -/
def Frame.bytes (f : Frame) : List Byte := f.body ++ be16 (crc16 f.body).toNat

/-- A frame's form as every port tests it (R114): length field at most 240, L + 7 bytes received, the check right, the
destination not 0x00 and the kind code one of the table. -/
def parseFrame (bytes : List Byte) : Option Frame :=
  let len := rd8 bytes 4
  if len ≤ 240 ∧ bytes.length = len + 7 ∧ rd16 bytes (len + 5) = (crc16 (bytes.take (len + 5))).toNat ∧ rd8 bytes 0 ≠ 0 then
    match Kind.ofCode (rd8 bytes 2) with
    | some kind => some ⟨bytes.getD 0 0, bytes.getD 1 0, kind, bytes.getD 3 0, (bytes.drop 5).take len⟩
    | none => none
  else none

/-- A station address, 0x01 to 0xEF (00, Frame summary). -/
def isStation (a : Byte) : Bool := decide (1 ≤ a.toNat) && decide (a.toNat ≤ 0xEF)

/-! ## Received payloads (11.3) -/

/-- The content of a BOOTCALL; the held tag is absent when flag bit 0 is clear (R194). -/
structure BootCall where
  cls : Byte
  hw : Nat
  boot : Nat
  capacity : Nat
  held : Option Word32
deriving DecidableEq, Repr

/-- A BOOTCALL payload; any length but 11 is none (R195). -/
def parseBootCall (p : List Byte) : Option BootCall :=
  if p.length = 11 then
    some ⟨p.getD 0 0, rd8 p 1, rd16 p 2, rd16 p 4, if (p.getD 6 0).getLsbD 0 then some (rd32 p 7) else none⟩
  else none

/-- A LOADACK value: 0xFFFF is absent (R194). -/
def ackValue (n : Nat) : Option Nat := if n = 0xFFFF then none else some n

/-- The request codes (11.4). -/
inductive ReqCode where
  | readEntry | readLink | writeEntry | writeCond | readRange | setContext | clearContext | permit | reload | clear
  | clearRetries | pin | unpin | prefetch | invalidate | eraseSector | writeRecord | readAttn | clearAttn | commit | selfCheck
  | engineReset | fullReset
deriving DecidableEq, Repr

def ReqCode.ofByte (b : Byte) : Option ReqCode :=
  match b.toNat with
  | 0x01 => some .readEntry
  | 0x02 => some .readLink
  | 0x03 => some .writeEntry
  | 0x04 => some .writeCond
  | 0x05 => some .readRange
  | 0x10 => some .setContext
  | 0x11 => some .clearContext
  | 0x20 => some .permit
  | 0x21 => some .reload
  | 0x22 => some .clear
  | 0x23 => some .clearRetries
  | 0x30 => some .pin
  | 0x31 => some .unpin
  | 0x32 => some .prefetch
  | 0x33 => some .invalidate
  | 0x40 => some .eraseSector
  | 0x41 => some .writeRecord
  | 0x50 => some .readAttn
  | 0x51 => some .clearAttn
  | 0x60 => some .commit
  | 0x61 => some .selfCheck
  | 0x70 => some .engineReset
  | 0x71 => some .fullReset
  | _ => none

/-- The entry size of a table in bytes (11.6); none for a number that is no table of R170. -/
def entrySize (table : Nat) : Option Nat :=
  match table with
  | 0 => some 13
  | 1 => some 24
  | 2 => some 8
  | 3 => some 54
  | 4 => some 11
  | 5 => some 8
  | 8 => some 20
  | 9 => some 66
  | 10 => some 7
  | 11 => some 10
  | 12 => some 4
  | 13 => some 3
  | _ => none

/-- How many entries a table has (R170); 0 for a number that is no table. -/
def tableCount (table : Nat) : Nat :=
  match table with
  | 0 => 1
  | 1 => 8
  | 2 => 32
  | 3 => 16
  | 4 => 48
  | 5 => 32
  | 8 => 32
  | 9 => 32
  | 10 => 1
  | 11 => 3
  | 12 => 1
  | 13 => 16
  | _ => 0

/-- A configuration table, 0 to 5 (R170). -/
def isConfig (table : Nat) : Bool := decide (table ≤ 5)

/-- A read-only table, 8 to 13 (R170). -/
def isReadOnly (table : Nat) : Bool := decide (8 ≤ table) && decide (table ≤ 13)

/-- The form test of a write: the two fixed bytes, and the entry size of the table where the number is one of R170 (R196). -/
def writeForm (args : List Byte) : Bool :=
  decide (2 ≤ args.length) &&
    match entrySize (rd8 args 0) with
    | some n => decide (args.length = 2 + n)
    | none => true

/-- The number of argument bytes a request of this code must have (R196). -/
def formOk (c : ReqCode) (args : List Byte) : Bool :=
  match c with
  | .readEntry | .readLink => decide (args.length = 2)
  | .writeEntry | .writeCond => writeForm args
  | .readRange => decide (args.length = 3)
  | .setContext => decide (3 ≤ args.length) && decide (args.length ≤ 10)
  | .clearContext | .reload | .clear | .clearRetries | .invalidate => decide (args.length = 1)
  | .permit => decide (args.length = 2)
  | .pin | .unpin | .prefetch => decide (args.length = 5)
  | .eraseSector => decide (args.length = 2)
  | .writeRecord => decide (args.length = 132)
  | .readAttn | .clearAttn | .commit | .selfCheck | .engineReset | .fullReset => decide (args.length = 0)

/-- The long requests (R168). -/
def ReqCode.isLong : ReqCode → Bool
  | .readRange | .commit | .pin | .eraseSector | .writeRecord | .selfCheck => true
  | .readEntry | .readLink | .writeEntry | .writeCond | .setContext | .clearContext | .permit | .reload | .clear
  | .clearRetries | .unpin | .prefetch | .invalidate | .readAttn | .clearAttn | .engineReset | .fullReset => false

/-! ## Reply statuses (11.5) and attention codes (R197) -/

inductive Status where
  | ok | busy | badRequest | badValue | notAllowed | inUse | noRoom | linkLost | writeFailed | imageBad | restart | empty | aborted
deriving DecidableEq, Repr

def Status.code : Status → Byte
  | .ok => 0x00
  | .busy => 0x01
  | .badRequest => 0x02
  | .badValue => 0x03
  | .notAllowed => 0x04
  | .inUse => 0x05
  | .noRoom => 0x06
  | .linkLost => 0x07
  | .writeFailed => 0x08
  | .imageBad => 0x09
  | .restart => 0x0A
  | .empty => 0x0B
  | .aborted => 0x0C

def AttnCause.code : AttnCause → Byte
  | .lost => 1
  | .notBack => 2
  | .restarted => 3
  | .restoreFailed => 4
  | .retriesExhausted => 5
  | .stale => 6
  | .imageBad => 7
  | .configBad => 8
  | .overrun => 9

def Cause.code : Cause → Byte
  | .class => 1
  | .noImage => 2
  | .imageBad => 3
  | .incompatible => 4
  | .stalled => 5
  | .resends => 6
  | .protocol => 7
  | .verify => 8
  | .tag => 9
  | .context => 10
  | .lost => 11

def Port.code : Port → Byte
  | .trunk => 0
  | .segment => 1
  | .service => 2

/-- The subject byte; 0xFF stands for none (R197). -/
def Subject.code : Subject → Byte
  | .none => 0xFF
  | .slot k => BitVec.ofNat 8 k.val
  | .image i => BitVec.ofNat 8 i.val
  | .port p => p.code

/-- The data of a READ-ATTN reply for an entry (R197): detail 0 stands for absent. -/
def AttnEntry.data (e : AttnEntry) : List Byte :=
  [e.cause.code, e.subject.code, (e.detail.map Cause.code).getD 0, BitVec.ofNat 8 e.count]

def RebootReason.code : RebootReason → Byte
  | .retry => 0
  | .clear => 1
  | .reload => 2

end Sys2Proof.Machine
end

