-- ==== Sys2Proof/Machine/Ops.lean ====
section
/-! DEFINITION. The named operations over the state: table updates, the serial flash, saturating counts, and the free order. -/

namespace Sys2Proof.Machine

/-! ## Tables of fixed size -/

/-- Every entry of a table through `f`. -/
def vmap {α β : Type} {n : Nat} (f : α → β) (v : Vector α n) : Vector β n := ⟨⟨v.toList.map f⟩, by simp⟩

/-- Entry `i` of a table through `f`. -/
def vmod {α : Type} {n : Nat} (v : Vector α n) (i : Fin n) (f : α → α) : Vector α n := v.set i (f v[i])

/-- All slot numbers, ascending. -/
def slotIds : List SlotId := List.finRange 32

/-! ## One named update per part of the state -/

/-- Change slot `k`'s status. -/
def updSlot (k : SlotId) (f : SlotStatus → SlotStatus) (s : State) : State := { s with slots := vmod s.slots k f }

/-- Set slot `k`'s context record. -/
def setCtx (k : SlotId) (r : CtxRecord) (s : State) : State := { s with ctx := s.ctx.set k r }

/-- Change the status part of catalogue entry `i`. -/
def updCat (i : ImageId) (f : CatStatus → CatStatus) (s : State) : State := { s with catSt := vmod s.catSt i f }

/-- Change the block cache. -/
def updBc (f : Cache → Cache) (s : State) : State := { s with bc := f s.bc }

/-- Change the segment scheduler. -/
def updSeg (f : Segment → Segment) (s : State) : State := { s with seg := f s.seg }

/-- Change the queues. -/
def updQueues (f : Queues → Queues) (s : State) : State := { s with queues := f s.queues }

/-- Change the line monitor. -/
def updLm (f : LineMon → LineMon) (s : State) : State := { s with lm := f s.lm }

/-- Change the management agent. -/
def updMa (f : Agent → Agent) (s : State) : State := { s with ma := f s.ma }

/-- Change one port's staging area and counters. -/
def updPort (p : Port) (f : PortState → PortState) (s : State) : State :=
  match p with
  | .trunk => { s with ports := { s.ports with trunk := f s.ports.trunk } }
  | .segment => { s with ports := { s.ports with segment := f s.ports.segment } }
  | .service => { s with ports := { s.ports with service := f s.ports.service } }

def Ports.get (p : Port) (ps : Ports) : PortState :=
  match p with
  | .trunk => ps.trunk
  | .segment => ps.segment
  | .service => ps.service

def Agent.origin (o : Origin) (a : Agent) : OriginRec :=
  match o with
  | .trunk => a.trunk
  | .service => a.service

/-- Change what the agent holds for one origin. -/
def updOrigin (o : Origin) (f : OriginRec → OriginRec) (s : State) : State :=
  updMa (fun a => match o with
    | .trunk => { a with trunk := f a.trunk }
    | .service => { a with service := f a.service }) s

def Origin.other : Origin → Origin
  | .trunk => .service
  | .service => .trunk

def Origin.port : Origin → Port
  | .trunk => .trunk
  | .service => .service

/-- Set the entry under the long-operation slot. -/
def setLong (l : Option LongOp) (s : State) : State := updMa (fun a => { a with long := l }) s

/-- Replace the operation the long-operation slot holds, keeping its origin. -/
def setJob (j : LongJob) (s : State) : State := updMa (fun a => { a with long := a.long.map (fun l => { l with job := j }) }) s

/-! ## Saturating counts (00, Conventions) -/

/-- One more, staying at `top`. -/
def satAdd (top n : Nat) : Nat := if n < top then n + 1 else n

/-! ## The serial flash -/

/-- The canonical form of the flash's contents: addresses rising, no erased byte listed. -/
abbrev Memory.wf (m : Memory) : Prop := m.Pairwise (fun a b => a.1 < b.1) ∧ ∀ c ∈ m, c.2 ≠ 0xFF#8

/-- The byte at an address; a byte not listed is erased, 0xFF (R66, log entry 4). -/
def Memory.read : Memory → Nat → Byte
  | [], _ => 0xFF
  | (k, v) :: m, a => if k = a then v else Memory.read m a

/-- One byte stored; storing 0xFF removes the entry. -/
def Memory.write : Memory → Nat → Byte → Memory
  | [], a, v => if v = 0xFF then [] else [(a, v)]
  | (k, w) :: m, a, v =>
    if a < k then (if v = 0xFF then (k, w) :: m else (a, v) :: (k, w) :: m)
    else if a = k then (if v = 0xFF then m else (a, v) :: m)
    else (k, w) :: Memory.write m a v

/-- A run of bytes stored from address `a` on. -/
def Memory.writeRun : Memory → Nat → List Byte → Memory
  | m, _, [] => m
  | m, a, b :: bs => Memory.writeRun (Memory.write m a b) (a + 1) bs

/-- `n` bytes from address `a` on. -/
def Memory.readRun (m : Memory) (a n : Nat) : List Byte := (List.range n).map (fun k => Memory.read m (a + k))

/-- A disturbance on a run of bytes (log entry 5). -/
def disturb : Disturb → List Byte → List Byte
  | _, [] => []
  | [], b :: bs => b :: bs
  | d :: ds, b :: bs => (b ^^^ d) :: disturb ds bs

/-- What an erase leaves of a run of bytes: 0xFF, but for the bits marked kept, which hold their old value (R68, log entry 5). -/
def erased : Disturb → List Byte → List Byte
  | _, [] => []
  | [], _ :: bs => 0xFF :: erased [] bs
  | k :: ks, b :: bs => (b ||| ~~~k) :: erased ks bs

/-- The first byte address of image sector `s` (R65). -/
def imageSectorAddr (s : Nat) : Nat := 4096 * (256 + s)

/-- The first byte address of record `r` (R65). -/
def recordAddr (r : Nat) : Nat := imageSectorAddr (r / 31) + 130 * (r % 31)

/-- The 130 bytes of a record: 128 data bytes and their CRC-16 (R66). -/
def recordImage (data : List Byte) : List Byte := data ++ be16 (crc16 data).toNat

/-- The read check of the 130 bytes of a record (R66). -/
def recordGood (bs : List Byte) : Bool := decide (bs.drop 128 = be16 (crc16 (bs.take 128)).toNat)

/-- Every byte is 0xFF. -/
def allErased (bs : List Byte) : Bool := bs.all (· == 0xFF)

/-! ## The free order (log entry 6) -/

/-- `xs` in an order the manual does not give, and the counter after the picks made. One element needs no pick. -/
def freeOrder {α : Type} : Nat → Nat → List α → List α × Nat
  | 0, t, xs => (xs, t)
  | n + 1, t, xs =>
    match xs with
    | [] => ([], t)
    | [x] => ([x], t)
    | x :: y :: rest =>
      let i := Config.pick t % (rest.length + 2)
      let r := freeOrder n (t + 1) ((x :: y :: rest).eraseIdx i)
      ((x :: y :: rest).getD i x :: r.1, r.2)

/-- Do `f` for each of `ks`, in a free order. -/
def forFree {α : Type} (ks : List α) (f : α → State → State) (s : State) : State :=
  let o := freeOrder ks.length s.freeTick ks
  o.1.foldl (fun s k => f k s) { s with freeTick := o.2 }

/-- Several queues merged, each kept in its own order; which queue goes next is free. -/
def freeMerge {α : Type} : Nat → Nat → List (List α) → List α × Nat
  | 0, t, _ => ([], t)
  | n + 1, t, qs =>
    match qs.filter (fun q => !q.isEmpty) with
    | [] => ([], t)
    | [q] => (q, t)
    | q :: q' :: rest =>
      let live := q :: q' :: rest
      let i := Config.pick t % live.length
      match live.getD i [] with
      | [] => ([], t)
      | x :: xs =>
        let r := freeMerge n (t + 1) (live.set i xs)
        (x :: r.1, r.2)

end Sys2Proof.Machine
end

