-- ==== Sys2Proof/Machine/Flags.lean ====
section
/-! DEFINITION. Flags and outputs: the attention list and ATTN (R183, R184), the overrun counts (R115), the PERMIT outputs
(R161), and the readings the tables compute from the state. -/

namespace Sys2Proof.Machine

/-! ## Attention (R184) -/

def AttnEntry.isOf (c : AttnCause) (j : Subject) (e : AttnEntry) : Bool := decide (e.cause = c) && decide (e.subject = j)

/-- A report taken by the attention unit: coalesced, entered at the tail, or dropped with the overflow flag set (R184). -/
def Attention.report (c : AttnCause) (j : Subject) (d : Option Cause) (a : Attention) : Attention :=
  if a.list.any (AttnEntry.isOf c j) then
    { a with list := a.list.map (fun e => if e.isOf c j then { e with count := satAdd 255 e.count, detail := d } else e) }
  else if a.list.length < Config.attnMax then { a with list := a.list ++ [⟨c, j, d, 1⟩] }
  else { a with overflow := true }

/-- Report an attention (R184). -/
def raise (c : AttnCause) (j : Subject) (d : Option Cause) (s : State) : State := { s with au := s.au.report c j d }

/-- ATTN is asserted exactly when the list is non-empty or the overflow flag is set (R183). -/
def Attention.asserted (a : Attention) : Bool := !a.list.isEmpty || a.overflow

/-! ## Port counters (R115) -/

def countGood (p : Port) (s : State) : State := updPort p (fun c => { c with good := satAdd 65535 c.good }) s
def countBad (p : Port) (s : State) : State := updPort p (fun c => { c with bad := satAdd 65535 c.bad }) s
def countSent (p : Port) (s : State) : State := updPort p (fun c => { c with transmitted := satAdd 65535 c.transmitted }) s
def countOrphan (s : State) : State := updPort .segment (fun c => { c with orphan := satAdd 65535 c.orphan }) s

/-- Count an overrun, and report OVERRUN with the port as subject, the counter saturated or not (R115, R185). -/
def countOverrun (p : Port) (s : State) : State :=
  raise .overrun (.port p) none (updPort p (fun c => { c with overrun := satAdd 65535 c.overrun }) s)

/-! ## States of slots and line -/

/-- LOADING, STARTING or CONTEXT (00, Terms). -/
def SlotState.restoring : SlotState → Bool
  | .loading | .starting | .context => true
  | .vacant | .absent | .dark | .running | .backoff | .failed => false

/-- The line state is UP or DIP: the segment works, BOOTCALL and STATUS are taken (R8, R95, R150). -/
def LineState.good : LineState → Bool
  | .up | .dip => true
  | .gap | .settle => false

/-! ## Permits (R159, R161) -/

/-- The slots of drive group `g`: enabled, with `g` as drive group (R159). -/
def groupSlots (g : GroupId) (s : State) : List SlotId :=
  slotIds.filter (fun k => s.tables.slots[k].enabled && decide (s.tables.slots[k].group = some g))

/-- The condition of PERMIT output `g` (R161). -/
def permitHolds (g : GroupId) (s : State) : Bool :=
  s.lm.requests[g] && decide (s.lm.line = .up) && !(groupSlots g s).isEmpty
    && (groupSlots g s).all (fun k => decide (s.slots[k].state = .running))

/-- Recompute the PERMIT outputs and ATTN from the state after the event (R162, R183; log entry 13). -/
def settleOutputs (s : State) : State :=
  { s with
    lm := { s.lm with permits := ⟨⟨(List.finRange 4).map (fun g => permitHolds g s)⟩, by simp⟩ }
    au := { s.au with out := s.au.asserted } }

/-! ## Readings of context records and cache -/

/-- The presence mask of a context record: bit f set for a present field (R135). -/
def CtxRecord.mask (r : CtxRecord) : BitVec 16 :=
  (List.finRange 16).foldl (fun m f => if r[f].isSome then m ||| (1#16 <<< f.val) else m) 0

/-- The present values in ascending field order (R146). -/
def CtxRecord.values (r : CtxRecord) : List Byte := r.toList.flatMap (fun v => v.getD [])

def Line.isValid : Line → Bool
  | .valid .. => true
  | .empty | .filling .. => false

def Line.isPinned : Line → Bool
  | .valid _ _ p _ => p
  | .empty | .filling .. => false

/-- VALID and of catalogue index `i`. -/
def Line.isOf (i : ImageId) : Line → Bool
  | .valid j _ _ _ => decide (j = i)
  | .empty | .filling .. => false

/-- The number of VALID lines (R92). -/
def validCount (s : State) : Nat := s.bc.lines.toList.countP Line.isValid

/-- The number of pinned lines (R92). -/
def pinnedCount (s : State) : Nat := s.bc.lines.toList.countP Line.isPinned

/-- The pinned line count of catalogue entry `i` (R58). -/
def pinnedOf (i : ImageId) (s : State) : Nat := s.bc.lines.toList.countP (fun l => l.isPinned && l.isOf i)

end Sys2Proof.Machine
end

