-- ==== Sys2Proof/Machine/Pool.lean ====
section
/-! DEFINITION. The buffer pool, REFUSE, and the transmit queues of trunk and service link (R116 to R118, R127 to R129), with
the building and placing of management replies (R118, R165, R166). -/

namespace Sys2Proof.Machine

/-! ## The pool (R116) -/

/-- The free list: the buffers that hold no frame (R116). -/
def freeBufs (s : State) : List BufId := (List.finRange 64).filter (fun b => s.pool[b].frame.isNone)

/-- A buffer taken from the free list with the frame written into it, its reference count still 0 (R116; the lowest free
buffer, log entry 27). -/
def alloc (f : Frame) (s : State) : Option (BufId × State) :=
  match freeBufs s with
  | [] => none
  | b :: _ => some (b, { s with pool := s.pool.set b ⟨some f, 0⟩ })

/-- One more queue entry references buffer `b` (R116). -/
def addRef (b : BufId) (s : State) : State := { s with pool := vmod s.pool b (fun x => { x with refs := x.refs + 1 }) }

/-- Buffer `b` goes back to the free list if no entry references it (R116). -/
def reclaim (b : BufId) (s : State) : State :=
  { s with pool := vmod s.pool b (fun x => if x.refs = 0 then ⟨none, 0⟩ else x) }

/-- One queue entry less references buffer `b`; at 0 it returns to the free list (R116). -/
def dropRef (b : BufId) (s : State) : State :=
  reclaim b { s with pool := vmod s.pool b (fun x => { x with refs := x.refs - 1 }) }

/-- An entry at the tail of the trunk transmit queue (R128). -/
def pushTrunk (e : TxEntry) (s : State) : State :=
  addRef e.buf (updQueues (fun q => { q with trunk := q.trunk ++ [e] }) s)

/-- An entry at the tail of the service transmit queue (R129). -/
def pushService (e : TxEntry) (s : State) : State :=
  addRef e.buf (updQueues (fun q => { q with service := q.service ++ [e] }) s)

/-- An entry at the tail of the outbound queue (R99). -/
def pushOut (b : BufId) (s : State) : State := addRef b (updQueues (fun q => { q with out := q.out ++ [b] }) s)

/-- An entry at the tail of slot `k`'s hold queue (R124). -/
def pushHold (k : SlotId) (b : BufId) (s : State) : State :=
  addRef b (updQueues (fun q => { q with hold := vmod q.hold k (fun h => h ++ [b]) }) s)

/-! ## Received frames (R117) -/

/-- A good received frame takes a buffer while more than 8 are free, and is counted received good; otherwise it is discarded
and counted as an overrun (R117). -/
def takeIn (p : Port) (f : Frame) (s : State) : Option BufId × State :=
  if Config.heldBack < (freeBufs s).length then
    match alloc f s with
    | some (b, s) => (some b, countGood p s)
    | none => (none, countOverrun p s)
  else (none, countOverrun p s)

/-! ## REFUSE (R127) -/

inductive RefuseReason where
  | notReady | holdFull | partBusy
deriving DecidableEq, Repr

def RefuseReason.code : RefuseReason → Byte
  | .notReady => 1
  | .holdFull => 2
  | .partBusy => 3

/-- The REFUSE that answers frame `f` (R127, R194). -/
def refuseFrame (r : RefuseReason) (f : Frame) (s : State) : Frame :=
  ⟨f.src, s.tables.settings.mgmtAddr, .refuse, f.seq, [r.code, f.kind.code, f.seq, f.dst]⟩

/-- A REFUSE built and placed: not sent when no buffer is free; discarded and counted as a trunk overrun when the trunk
transmit queue is full (R118, R127). -/
def refuse (r : RefuseReason) (f : Frame) (s : State) : State :=
  match alloc (refuseFrame r f s) s with
  | none => s
  | some (b, s) =>
    if s.queues.trunk.length < Config.trunkMax then pushTrunk ⟨b, false⟩ s else countOverrun .trunk (reclaim b s)

/-- A removed queue entry whose frame, if to a station, is answered with REFUSE; then its reference is released (R118, R126). -/
def refuseEntry (r : RefuseReason) (b : BufId) (s : State) : State :=
  match s.pool[b].frame with
  | some f => dropRef b (if isStation f.dst then refuse r f s else s)
  | none => dropRef b s

/-- The entries of a flush, in order (R126, R127). With no buffer free and built replies waiting, the buffer that one entry's release
frees may go to the REFUSE of a later entry: the waiting replies are placed by later commands (log entry 34, DESIGN CHOICE). -/
def refuseAll (r : RefuseReason) (bs : List BufId) (s : State) : State := bs.foldl (fun s b => refuseEntry r b s) s

/-- The entries of a flush without REFUSE frames (R126, R113). -/
def releaseAll (bs : List BufId) (s : State) : State := bs.foldl (fun s b => dropRef b s) s

/-- Slot `k`'s hold queue made empty. -/
def clearHold (k : SlotId) (s : State) : State := updQueues (fun q => { q with hold := q.hold.set k [] }) s

/-- Flush slot `k`'s hold queue with REFUSE(NOT_READY), head to tail (R126). -/
def flushHold (k : SlotId) (s : State) : State := refuseAll .notReady s.queues.hold[k] (clearHold k s)

/-- Release slot `k`'s hold queue to the outbound queue, oldest first; what finds it full is discarded, a station frame
with REFUSE(PART_BUSY) (R125; a buffer freed on the way, log entry 34). -/
def releaseHold (k : SlotId) (s : State) : State :=
  s.queues.hold[k].foldl (fun s b =>
    if s.queues.out.length < Config.outboundMax then updQueues (fun q => { q with out := q.out ++ [b] }) s
    else refuseEntry .partBusy b s) (clearHold k s)

/-! ## Replies (R165, R166) -/

/-- Room in the transmit queue of an origin (R128, R129). -/
def txRoom (o : Origin) (s : State) : Bool :=
  match o with
  | .trunk => decide (s.queues.trunk.length < Config.trunkMax)
  | .service => decide (s.queues.service.length < Config.serviceMax)

/-- An entry at the tail of an origin's transmit queue. -/
def pushTx (o : Origin) (e : TxEntry) (s : State) : State :=
  match o with
  | .trunk => pushTrunk e s
  | .service => pushService e s

/-- The MGMT-REPLY to request `q` (R165, 11.3). -/
def replyFrame (q : Request) (st : Status) (more : Bool) (data : List Byte) (s : State) : Frame :=
  ⟨q.src, s.tables.settings.mgmtAddr, .mgmtReply, q.seq, q.payload.getD 0 0 :: st.code :: flagByte more :: data⟩

/-- The origin after its final reply is placed: IDLE, its record empty (R166). -/
def OriginRec.done (r : OriginRec) : OriginRec := { r with state := .idle, req := none }

/-- A built reply placed in buffer `b` (R166). -/
def placed (r : BuiltReply) (b : BufId) (s : State) : State :=
  let s := pushTx r.origin ⟨b, r.resets⟩ s
  if r.busy then s else updOrigin r.origin OriginRec.done s

/-- The oldest built reply whose transmit queue has room takes a free buffer and is placed (R118, R166); nothing when there
is none or no buffer is free. -/
def placeOne (s : State) : State :=
  match s.ma.replies.find? (fun r => txRoom r.origin s) with
  | none => s
  | some r =>
    match alloc r.frame s with
    | none => s
    | some (b, s) => placed r b (updMa (fun a => { a with replies := a.replies.erase r }) s)

/-- Place built replies, oldest first, while one can be placed. -/
def placeReplies : Nat → State → State
  | 0, s => s
  | n + 1, s => placeReplies n (placeOne s)

/-- A built reply joins those that wait and is placed at once when a buffer and room are available (R166). -/
def queueReply (r : BuiltReply) (s : State) : State :=
  placeReplies (s.ma.replies.length + 1) (updMa (fun a => { a with replies := a.replies ++ [r] }) s)

/-- The final reply to an origin's outstanding request, built and placed or kept waiting (R166, R167). -/
def finalReply (o : Origin) (st : Status) (data : List Byte) (resets : Bool) (s : State) : State :=
  match (s.ma.origin o).req with
  | none => s
  | some q =>
    queueReply ⟨o, false, resets, replyFrame q st false data s⟩ (updOrigin o (fun r => { r with state := .replying }) s)

/-- The long operation ends: its final reply is built and the slot is freed in the same event (R168). -/
def endLong (st : Status) (data : List Byte) (s : State) : State :=
  match s.ma.long with
  | none => s
  | some l => finalReply l.origin st data false (setLong none s)

end Sys2Proof.Machine
end

