-- ==== Sys2Proof/Machine/Cache.lean ====
section
/-! DEFINITION. The block cache: the catalogue's mapping (R56), lines and recency (R72 to R74), the fill queue (R75 to R78), pins
(R86 to R89). -/

namespace Sys2Proof.Machine

/-! ## The catalogue's mapping (R56) -/

/-- Where a block comes from (R56). -/
inductive Supply where
  | outside
  | fill
  | record (r : Nat)
deriving DecidableEq, Repr

def Window.covers (b : Nat) (w : Window) : Bool := w.enable && decide (w.first ≤ b) && decide (b ≤ w.last)

/-- The supply of block `b` of an entry: the first enabled window that covers it, else a fill block (R56). -/
def CatEntry.supply (e : CatEntry) (b : Nat) : Supply :=
  if e.length ≤ b then .outside
  else
    match e.windows.toList.find? (Window.covers b) with
    | some w => .record (w.base + (b - w.first))
    | none => .fill

/-- A fill block of entry `i` (R56). -/
def isFillBlock (i : ImageId) (b : Nat) (s : State) : Bool := decide (s.tables.cat[i].supply b = .fill)

/-- Block `b` is inside the image of entry `i` and is not a fill block. -/
def isWindowed (i : ImageId) (b : Nat) (s : State) : Bool :=
  match s.tables.cat[i].supply b with
  | .record _ => true
  | .outside | .fill => false

/-- 128 zero bytes, the content of a fill block (R56). -/
def zeroBlock : List Byte := List.replicate 128 0

/-! ## Lines (R72) -/

/-- VALID with tag (i, b). -/
def Line.isBlock (i : ImageId) (b : Nat) : Line → Bool
  | .valid j c _ _ => decide (j = i) && decide (c = b)
  | .empty | .filling .. => false

/-- The VALID line that holds block (i, b). -/
def validLine (i : ImageId) (b : Nat) (s : State) : Option LineId :=
  (List.finRange 96).find? (fun l => s.bc.lines[l].isBlock i b)

/-- Block (i, b) is held by the FILLING line: its discard mark is clear and its entry is not marked BAD (R72). -/
def fillingHolds (i : ImageId) (b : Nat) (s : State) : Bool :=
  !s.catSt[i].bad && s.bc.lines.toList.any (fun l => decide (l = .filling i b false))

/-- The data of the VALID line that holds block (i, b). -/
def lineData (i : ImageId) (b : Nat) (s : State) : List Byte :=
  match validLine i b s with
  | none => []
  | some l =>
    match s.bc.lines[l] with
    | .valid _ _ _ d => d
    | .empty | .filling .. => []

/-- Set line `l`. -/
def setLine (l : LineId) (x : Line) (s : State) : State := updBc (fun c => { c with lines := c.lines.set l x }) s

/-- A hit: the line moves to the most recent place (R73). -/
def hit (l : LineId) (s : State) : State := updBc (fun c => { c with recency := c.recency.erase l ++ [l] }) s

/-- Line `l` becomes EMPTY: it loses its pin and leaves the recency order (R72, R73). -/
def emptyLine (l : LineId) (s : State) : State :=
  updBc (fun c => { c with lines := c.lines.set l .empty, recency := c.recency.erase l }) s

/-- Every VALID line of index `i` becomes EMPTY and loses its pin (R61, R84, R91). -/
def dropLines (i : ImageId) (s : State) : State :=
  updBc (fun c => { c with
    lines := vmap (fun x => if x.isOf i then .empty else x) c.lines
    recency := c.recency.filter (fun l => !(c.lines[l].isOf i)) }) s

/-- The victim of a fill start: the lowest EMPTY line, else the least recent unpinned VALID line (R74), the line to avoid being
no candidate (R85). R74 knows no such exception: that R85 makes one is the model's reading (log entry 33, DEDUCED). -/
def victim (avoid : Option LineId) (s : State) : Option LineId :=
  match (List.finRange 96).find? (fun l => decide (s.bc.lines[l] = .empty) && decide (avoid ≠ some l)) with
  | some l => some l
  | none => s.bc.recency.find? (fun l => s.bc.lines[l].isValid && !s.bc.lines[l].isPinned && decide (avoid ≠ some l))

/-! ## Ranks (R77) -/

/-- The rank of a slot: the rank field of its resolved class (R77, R98); behind every rank when it has none. -/
def slotRank (k : SlotId) (s : State) : Nat :=
  match s.slots[k].cls with
  | some c => s.tables.classes[c].rank
  | none => 8

/-- The lowest rank among a fill's requesters; 8 when there is none (R77). -/
def rankOf (reqs : List SlotId) (s : State) : Nat := reqs.foldl (fun r k => min r (slotRank k s)) 8

/-- A slot added to a requester set; one already in it is not added twice (R76). -/
def addReq (k : SlotId) (reqs : List SlotId) : List SlotId := slotIds.filter (fun j => decide (j = k) || reqs.contains j)

/-! ## Requests (R76) -/

/-- The three sources of a fill request (R76). -/
inductive Source where
  | session (k : SlotId)
  | pin
  | prefetch
deriving DecidableEq, Repr

/-- The pin reservation one lower. -/
def spendPin (s : State) : State := updBc (fun c => { c with reservation := c.reservation - 1 }) s

/-- VALID line `l` is pinned and the reservation falls by 1 (R87). -/
def pinLine (l : LineId) (s : State) : State :=
  match s.bc.lines[l] with
  | .valid i b _ d => spendPin (setLine l (.valid i b true d) s)
  | .empty | .filling .. => s

/-- A request merged into the fill in flight (R76). A fill left over from an engine reset stays one (R93, log entry 15). -/
def Fill.join (r : Source) (f : Fill) : Fill :=
  match r with
  | .session k => { f with reqs := addReq k f.reqs }
  | .pin => { f with pin := true }
  | .prefetch => { f with pre := true }

/-- A request merged into a queued entry; a joining slot has the rank computed again (R76, R77). -/
def FillEntry.join (r : Source) (s : State) (e : FillEntry) : FillEntry :=
  match r with
  | .session k => { e with reqs := addReq k e.reqs, rank := rankOf (addReq k e.reqs) s }
  | .pin => { e with pin := true }
  | .prefetch => { e with pre := true }

/-- The line of the fill in flight, where it is a marked fill of block (i, b) (R85). -/
def markedLine (i : ImageId) (b : Nat) (s : State) : Option LineId :=
  match s.reader with
  | .fill f => if s.bc.lines[f.line] = .filling i b true then some f.line else none
  | .idle | .erase _ | .program _ _ | .commit | .scan _ => none

/-- A new entry for a request (R76, R77, R85). -/
def newEntry (r : Source) (i : ImageId) (b : Nat) (s : State) : FillEntry :=
  match r with
  | .session k => ⟨i, b, [k], false, false, rankOf [k] s, markedLine i b s⟩
  | .pin => ⟨i, b, [], true, false, 8, markedLine i b s⟩
  | .prefetch => ⟨i, b, [], false, true, 8, markedLine i b s⟩

def FillEntry.isBlock (i : ImageId) (b : Nat) (e : FillEntry) : Bool := decide (e.img = i) && decide (e.blk = b)

/-- Block (i, b) stands in the fill queue. -/
def isQueued (i : ImageId) (b : Nat) (s : State) : Bool := s.bc.fills.any (FillEntry.isBlock i b)

/-- The fill queue holds 16 entries. -/
def fillsFull (s : State) : Bool := decide (Config.fillMax ≤ s.bc.fills.length)

/-- The reader's fill in flight through `f`. -/
def updFill (f : Fill → Fill) (s : State) : State :=
  match s.reader with
  | .fill x => { s with reader := .fill (f x) }
  | .idle | .erase _ | .program _ _ | .commit | .scan _ => s

/-- A request to fill block (i, b), judged by the block's place (the table of R76). The start of a new entry by an idle reader (R79) is
no part of it but a FLASH_READER_START (log entries 1 and 36). -/
def request (r : Source) (i : ImageId) (b : Nat) (s : State) : State :=
  match validLine i b s with
  | some l => if r = .pin then pinLine l s else s
  | none =>
    if fillingHolds i b s then updFill (Fill.join r) s
    else if isQueued i b s then
      updBc (fun c => { c with fills := c.fills.map (fun e => if e.isBlock i b then e.join r s else e) }) s
    else if fillsFull s then s
    else updBc (fun c => { c with fills := c.fills ++ [newEntry r i b s] }) s

/-! ## Withdrawal (R77, R78) -/

/-- Slot `k` withdrawn from every queued entry, whose rank is computed again, and from the fill in flight (R33, R77). -/
def withdrawSlot (k : SlotId) (s : State) : State :=
  updFill (fun f => { f with reqs := f.reqs.filter (· ≠ k) })
    (updBc (fun c => { c with fills := c.fills.map (fun e =>
      if e.reqs.contains k then { e with reqs := e.reqs.filter (· ≠ k), rank := rankOf (e.reqs.filter (· ≠ k)) s } else e) }) s)

/-- Some queued entry is for index `i`. -/
def hasFills (i : ImageId) (s : State) : Bool := s.bc.fills.any (fun e => decide (e.img = i))

/-- Every queued entry for index `i` withdrawn (R78). -/
def dropFills (i : ImageId) (s : State) : State :=
  updBc (fun c => { c with fills := c.fills.filter (fun e => decide (e.img ≠ i)) }) s

/-- A fill in flight for index `i` takes the discard mark; its requesters and flags are discarded (R85). -/
def discardFill (i : ImageId) (s : State) : State :=
  match s.reader with
  | .fill f =>
    if f.img = i then
      setLine f.line (.filling f.img f.blk true) (updFill (fun f => { f with reqs := [], pin := false, pre := false }) s)
    else s
  | .idle | .erase _ | .program _ _ | .commit | .scan _ => s

/-! ## Pins (R86 to R89) -/

/-- The index of the running PIN. -/
def pinImage (s : State) : Option ImageId :=
  match s.ma.long with
  | some ⟨_, .pin i _⟩ => some i
  | _ => none

/-- A running PIN's waiting list. -/
def pinWaiting (s : State) : List Nat :=
  match s.ma.long with
  | some ⟨_, .pin _ w⟩ => w
  | _ => []

/-- The waiting list of the running PIN, set. -/
def setWaiting (w : List Nat) (s : State) : State :=
  match pinImage s with
  | some i => setJob (.pin i w) s
  | none => s

/-- The running PIN ends with reply OK once its reservation is spent (R87). -/
def pinDone (s : State) : State :=
  if (pinImage s).isSome ∧ s.bc.reservation = 0 then endLong .ok [] s else s

/-- Pin-on-complete cleared on every queued entry and on the fill in flight (R88). -/
def clearPinMarks (s : State) : State :=
  updFill (fun f => { f with pin := false })
    (updBc (fun c => { c with reservation := 0, fills := c.fills.map (fun e => { e with pin := false }) }) s)

/-- A running PIN ends before its reservation is spent (R88). -/
def endPin (st : Status) (s : State) : State :=
  match pinImage s with
  | some _ => endLong st [] (clearPinMarks s)
  | none => s

/-- A running PIN on index `i` ends with IMAGE_BAD (R88). -/
def endPinOn (i : ImageId) (s : State) : State := if pinImage s = some i then endPin .imageBad s else s

/-- Block (i, b) is neither held nor queued, so that a request for it needs room in the queue. -/
def needsRoom (i : ImageId) (b : Nat) (s : State) : Bool :=
  (validLine i b s).isNone && !fillingHolds i b s && !isQueued i b s

/-- The counted blocks at acceptance, in ascending order, as pin requests; from the first that finds no room, the rest is the
waiting list (R87, log entry 25), where an idle reader has started none of them (log entry 36, DESIGN CHOICE). -/
def pinBlocks (i : ImageId) : List Nat → State → State
  | [], s => setWaiting [] s
  | b :: bs, s => if needsRoom i b s && fillsFull s then setWaiting (b :: bs) s else pinBlocks i bs (request .pin i b s)

/-- Blocks at the head of the waiting list as pin requests while the queue has room (R87; log entry 25). -/
def takeWaiting (i : ImageId) : List Nat → State → State
  | [], s => setWaiting [] s
  | b :: bs, s => if fillsFull s then setWaiting (b :: bs) s else takeWaiting i bs (request .pin i b s)

/-- The waiting list takes freed queue room, and the PIN ends if that spends its reservation (R87). -/
def placeWaiting (s : State) : State :=
  match pinImage s with
  | some i => if (pinWaiting s).isEmpty then s else pinDone (takeWaiting i (pinWaiting s) s)
  | none => s

end Sys2Proof.Machine
end

