-- ==== Sys2Proof/Machine/Session.lean ====
section
/-! DEFINITION. The restore engine's record keeping: session opening and end (R29, R30, R48), the ready set (R31), block requests
(R32), the stage timer (R45). The taking of answers stands in Answers.lean, the grants in Segment.lean. -/

namespace Sys2Proof.Machine

/-- Change slot `k`'s session record. -/
def updSession (k : SlotId) (f : Session → Session) (s : State) : State :=
  updSlot k (fun x => { x with session := x.session.map f }) s

/-- The full stage timeout runs again (R45). -/
def Session.restart (x : Session) : Session := { x with timer := some x.stageTimeout }

/-! ## Availability and the ready set (R31) -/

/-- A block is available to a session: a fill block, or held by a VALID line (R31). -/
def available (i : ImageId) (b : Nat) (s : State) : Bool := isFillBlock i b s || (validLine i b s).isSome

/-- The condition by which slot `k` is in the ready set (R31). -/
def inReady (s : State) (k : SlotId) : Bool :=
  match s.slots[k].session with
  | some x =>
    match s.slots[k].state with
    | .loading =>
      decide (x.inFlight.length < x.window) && decide (x.cursor < x.length) && available x.img x.cursor s
    | .starting | .context => !x.sent
    | .vacant | .absent | .dark | .running | .backoff | .failed => false
  | none => s.slots[k].reboot.isSome && decide (s.lm.line = .up)

/-- The ready set (R31). -/
def ready (s : State) : List SlotId := slotIds.filter (inReady s)

/-! ## Block requests (R32) -/

/-- The request range of a session (R32). -/
def Session.range (x : Session) : List Nat :=
  (List.range (min (x.cursor + x.window) x.length - x.cursor)).map (x.cursor + ·)

/-- Slot `k` is a requester of a queued fill of block (i, b). -/
def isRequester (k : SlotId) (i : ImageId) (b : Nat) (s : State) : Bool :=
  s.bc.fills.any (fun e => e.isBlock i b && e.reqs.contains k)

/-- A session's request for one block of its range, where R32 has it made. -/
def requestBlock (k : SlotId) (i : ImageId) (b : Nat) (s : State) : State :=
  if isFillBlock i b s || (validLine i b s).isSome || fillingHolds i b s || isRequester k i b s then s
  else request (.session k) i b s

/-- A session's block requests, in ascending block order (R32). -/
def requestBlocks (k : SlotId) (s : State) : State :=
  match s.slots[k].session with
  | some x => if s.slots[k].state = .loading then x.range.foldl (fun s b => requestBlock k x.img b s) s else s
  | none => s

/-- All slots in ascending rank, and among equal ranks in ascending number (R32). -/
def slotsByRank (s : State) : List SlotId :=
  (List.range 9).flatMap (fun r => slotIds.filter (fun k => decide (slotRank k s = r)))

/-- Every session in LOADING makes its block requests (R32). -/
def requestAll (s : State) : State := (slotsByRank s).foldl (fun s k => requestBlocks k s) s

/-- After entries were withdrawn: the PIN waiting list takes the room, then every session repeats its requests (R78). -/
def afterWithdraw (some : Bool) (s : State) : State := if some then requestAll (placeWaiting s) else s

/-! ## Opening and end -/

/-- The session record at its opening for entry `i` (R29). -/
def newSession (i : ImageId) (warm : Bool) (s : State) : Session :=
  let e := s.tables.cat[i]
  let t := s.tables.settings
  { img := i, tag := e.tag, length := e.length, check := e.check, entryWord := e.entryWord, warm := warm,
    window := t.window, stageTimeout := t.stageTimeout, resendLimit := t.resendLimit,
    cursor := 0, through := none, inFlight := [], resends := 0, sent := false, sentMask := none, timer := some t.stageTimeout }

/-- A session opens for slot `k` on entry `i`: STARTING on the warm path, else LOADING with its first requests made
(R14, R29, R30, R32). -/
def openSession (k : SlotId) (i : ImageId) (warm : Bool) (s : State) : State :=
  requestBlocks k (updCat i (fun c => { c with users := c.users + 1 })
    (updSlot k (fun x => { x with
      state := if warm then .starting else .loading
      catInUse := some i
      session := some (newSession i warm s) }) s))

/-- The end of slot `k`'s session, whatever its cause (R48): requester withdrawal, users count, record discarded; the ready
set and the stage timer go with the record. The catalogue index in use becomes absent (R18, R20). -/
def endSession (k : SlotId) (s : State) : State :=
  match s.slots[k].session with
  | none => s
  | some x =>
    updSlot k (fun y => { y with session := none, catInUse := none })
      (updCat x.img (fun c => { c with users := c.users - 1 }) (withdrawSlot k s))

end Sys2Proof.Machine
end

