-- ==== Sys2Proof/Machine/Lifecycle.lean ====
section
/-! DEFINITION. The slot lifecycle: class lookup (R10), failures and policies (R20, R21), BOOTCALL and STATUS (R8, R12 to R16),
presence loss (R17), gap confirmation on the slots (R18), session success (R19), and BAD marking with what it ends (R50, R63, R84). -/

namespace Sys2Proof.Machine

/-! ## Classes (R10) -/

/-- The class lookup of a class code (R10). -/
def classLookup (code : Nat) (s : State) : ClassId :=
  if h : code < s.tables.settings.classCount ∧ code < 8 then ⟨code, h.2⟩ else 0

/-- The class lookup of an expected class, ANY giving entry 0 (R10). -/
def expectedLookup (e : Option Byte) (s : State) : ClassId :=
  match e with
  | some c => classLookup c.toNat s
  | none => 0

/-- Slot `k`'s resolved class index is set; a different value empties its context record and sets its retry count to 0 (R10). -/
def setClass (k : SlotId) (c : ClassId) (s : State) : State :=
  if s.slots[k].cls = some c then s
  else setCtx k .empty (updSlot k (fun x => { x with cls := some c, retry := 0 }) s)

/-- Slot `k`'s class table entry. -/
def classOf (k : SlotId) (s : State) : Option ClassEntry := s.slots[k].cls.map (fun c => s.tables.classes[c])

/-- The catalogue index of slot `k`'s image: its override, else its class's selector (R13, R62). -/
def imageOf (k : SlotId) (s : State) : Option ImageId :=
  match s.tables.slots[k].override with
  | some i => some i
  | none => (classOf k s).bind ClassEntry.selector

/-! ## Failure (R20, R21) -/

/-- The retry timer's duration in ms (R22). -/
def retryMs (code : Nat) : Nat :=
  match code with
  | 0 => 250
  | 1 => 1000
  | 2 => 3000
  | _ => 8000

/-- The failure policy of class entry `e` applied to slot `k` (R21). -/
def applyPolicy (k : SlotId) (c : Cause) (e : ClassEntry) (s : State) : State :=
  match e.policy with
  | .retry =>
    if s.slots[k].retry + 1 < e.retryLimit then
      raise .restoreFailed (.slot k) (some c)
        (updSlot k (fun x => { x with state := .backoff, retry := x.retry + 1, retryTimer := some (retryMs e.retryTime) }) s)
    else
      raise .retriesExhausted (.slot k) (some c)
        (updSlot k (fun x => { x with state := .failed, retry := x.retry + 1 }) s)
  | .latch => raise .restoreFailed (.slot k) (some c) (updSlot k (fun x => { x with state := .failed }) s)
  | .report => raise .restoreFailed (.slot k) (some c) (updSlot k (fun x => { x with state := .absent }) s)
  | .ignore => updSlot k (fun x => { x with state := .absent }) s

/-- A failure of slot `k` with cause `c`: what it interrupts ends, the cause is recorded, the policy applies (R20, R21). -/
def failSlot (k : SlotId) (c : Cause) (s : State) : State :=
  let s := updSlot k (fun x => { x with lastCause := some c, catInUse := none }) (flushHold k (endSession k s))
  match classOf k s with
  | some e => applyPolicy k c e s
  | none => s

/-! ## Image resolution (R13, R14) -/

/-- Steps 3 to 5 of image resolution and the opening of the session (R13, R14). -/
def resolveImage (k : SlotId) (b : BootCall) (s : State) : State :=
  match imageOf k s with
  | none => failSlot k .noImage s
  | some i =>
    let e := s.tables.cat[i]
    if !e.valid then failSlot k .noImage s
    else if s.catSt[i].bad then failSlot k .imageBad s
    else if b.hw < e.minHw ∨ b.boot < e.minBoot ∨ b.capacity < e.length then failSlot k .incompatible s
    else
      let warm := (classOf k s).any ClassEntry.warmAllowed && !s.slots[k].coldNext && decide (b.held = some e.tag)
      openSession k i warm (updSlot k (fun x => { x with expTag := some e.tag, reboot := none }) s)

/-- Slot `k` expects a class code other than `code` (R13 step 1, R16). -/
def classMismatch (k : SlotId) (code : Byte) (s : State) : Bool :=
  match s.tables.slots[k].expClass with
  | some c => decide (c ≠ code)
  | none => false

/-- Image resolution at a BOOTCALL (R13). -/
def resolve (k : SlotId) (b : BootCall) (s : State) : State :=
  if classMismatch k b.cls s then failSlot k .class s
  else resolveImage k b (setClass k (classLookup b.cls.toNat s) s)

/-- A BOOTCALL from slot `k`'s node while the line is UP or DIP (R12). -/
def takeBootCall (k : SlotId) (b : BootCall) (s : State) : State :=
  match s.slots[k].state with
  | .absent | .dark => resolve k b s
  | .running =>
    resolve k b (if s.slots[k].reloadExpected then updSlot k (fun x => { x with reloadExpected := false }) s
      else raise .restarted (.slot k) none s)
  | .loading | .starting | .context => resolve k b (raise .restarted (.slot k) none (endSession k s))
  | .backoff | .failed | .vacant => s

/-- SL's part of a BOOTCALL answer: presence alone in GAP and SETTLE, and when its length is not that of the layout (R8, R12, R195). -/
def bootCallAnswer (k : SlotId) (p : List Byte) (s : State) : State :=
  match parseBootCall p with
  | some b => if s.lm.line.good then takeBootCall k b s else s
  | none => s

/-! ## STATUS (R15, R16) -/

/-- STALE by the reported tag: cleared when it equals the expected tag; set when it differs, with attention STALE when it
was clear (R15, R16). -/
def judgeStale (k : SlotId) (tag : Word32) (s : State) : State :=
  if s.slots[k].expTag = some tag then updSlot k (fun x => { x with stale := false }) s
  else if s.slots[k].stale then s
  else raise .stale (.slot k) none (updSlot k (fun x => { x with stale := true }) s)

/-- A survivor return once REBOOT_PENDING is cleared and the class is resolved (R16, R19). -/
def survive (k : SlotId) (tag : Word32) (s : State) : State :=
  match imageOf k s with
  | none => failSlot k .noImage s
  | some i =>
    if !s.tables.cat[i].valid then failSlot k .noImage s
    else
      judgeStale k tag (updSlot k (fun x => { x with
        state := .running, expTag := some s.tables.cat[i].tag
        retry := 0, coldNext := false, reloadExpected := false }) s)

/-- A survivor return: REBOOT_PENDING is cleared, whether the return reaches RUNNING or fails (R16, R26). -/
def survivorReturn (k : SlotId) (cls : Byte) (tag : Word32) (s : State) : State :=
  let s := updSlot k (fun x => { x with reboot := none }) s
  if classMismatch k cls s then failSlot k .class s else survive k tag (setClass k (classLookup cls.toNat s) s)

/-- A STATUS from slot `k`'s node while the line is UP or DIP (R15, R16). -/
def takeStatus (k : SlotId) (cls : Byte) (tag : Word32) (s : State) : State :=
  match s.slots[k].state with
  | .running => judgeStale k tag s
  | .dark | .absent => survivorReturn k cls tag s
  | .loading | .starting | .context => failSlot k .protocol s
  | .backoff | .failed | .vacant => s

/-- SL's part of a STATUS answer: presence alone in GAP and SETTLE, and when it is shorter than 6 bytes (R8, R15, R195). -/
def statusAnswer (k : SlotId) (p : List Byte) (s : State) : State :=
  if 6 ≤ p.length ∧ s.lm.line.good = true then takeStatus k (p.getD 0 0) (rd32 p 1) s else s

/-! ## Presence loss (R17) -/

/-- The presence-lost event for slot `k` (R17). -/
def presenceLost (k : SlotId) (s : State) : State :=
  match s.slots[k].state with
  | .running =>
    let s := raise .lost (.slot k) none (updSlot k (fun x => { x with state := .absent }) s)
    if (classOf k s).any (fun e => decide (e.loss = .clear)) then setCtx k .empty s else s
  | .loading | .starting | .context => failSlot k .lost s
  | .dark => raise .notBack (.slot k) none (updSlot k (fun x => { x with state := .absent }) s)
  | .absent | .backoff | .failed | .vacant => s

/-! ## Session success (R19) -/

/-- Slot `k`'s session has ended by an accepted READY (R19, R44, R48). -/
def succeed (k : SlotId) (s : State) : State :=
  releaseHold k (updSlot k (fun x => { x with
    state := .running, retry := 0, coldNext := false, reloadExpected := false, stale := false, reboot := none
    catInUse := none }) (endSession k s))

/-! ## Gap confirmation on the slots (R18) -/

/-- A slot moved to DARK: the session is aborted without failure counting, the retry timer cancelled (R18). -/
def darken (k : SlotId) (s : State) : State :=
  match s.slots[k].state with
  | .vacant | .failed => s
  | .absent | .dark | .loading | .starting | .context | .running | .backoff =>
    updSlot k (fun x => { x with state := .dark, catInUse := none, reboot := none, retryTimer := none }) (endSession k s)

/-- Every slot that is not VACANT and not FAILED to DARK (R18); the hold queues are flushed by `flushGap`. -/
def darkenAll (s : State) : State := slotIds.foldl (fun s k => darken k s) s

/-- The outbound entries a gap confirmation flushes: all but the one under transmission (R110). -/
def outFlushed (s : State) : List BufId :=
  if s.seg.port = .sending .outbound then s.queues.out.drop 1 else s.queues.out

/-- The outbound entry under transmission. -/
def outKept (s : State) : List BufId := if s.seg.port = .sending .outbound then s.queues.out.take 1 else []

/-- The hold queues and the outbound queue flushed at gap confirmation, with REFUSE(NOT_READY) for station frames; each flush
keeps its order, the order between flushes is free (R110, R126, R155; log entry 6). -/
def flushGap (s : State) : State :=
  let all := s.queues.hold.toList ++ [outFlushed s]
  let m := freeMerge (all.map List.length).sum s.freeTick all
  refuseAll .notReady m.1
    { s with freeTick := m.2, queues := { s.queues with hold := Vector.replicate 32 [], out := outKept s } }

/-! ## BAD marking (R50, R63, R84) -/

/-- The slots with an open session on entry `i`. -/
def usersOf (i : ImageId) (s : State) : List SlotId :=
  slotIds.filter (fun k => s.slots[k].session.any (fun x => decide (x.img = i)))

/-- Every open session on entry `i` ends with IMAGE_BAD (R50); the order among slots is free (log entry 6). -/
def failUsers (i : ImageId) (s : State) : State := forFree (usersOf i s) (fun k s => failSlot k .imageBad s) s

/-- A fill in flight for an entry marked BAD by SELF-CHECK runs on with its requesters withdrawn and pin-on-complete cleared (R191). -/
def disownFill (i : ImageId) (s : State) : State :=
  updFill (fun f => if f.img = i then { f with reqs := [], pin := false } else f) s

/-- Entries for index `i` withdrawn, and the room they free taken by the waiting list of a PIN on another index (R78). -/
def withdrawImage (i : ImageId) (s : State) : State :=
  if hasFills i s && decide (pinImage s ≠ some i) then placeWaiting (dropFills i s) else dropFills i s

/-- Catalogue entry `i` is marked BAD: steps 2 to 7 of R84. -/
def markBad (i : ImageId) (s : State) : State :=
  raise .imageBad (.image i) none
    (failUsers i (endPinOn i (disownFill i (dropLines i (withdrawImage i (updCat i (fun c => { c with bad := true }) s))))))

/-- Everything the cache holds for index `i` is dropped, by INVALIDATE or an accepted catalogue write (R61, R91): lines
emptied, entries withdrawn, a fill in flight marked for discard, a PIN on it ended with IMAGE_BAD; then the freed room is
taken and sessions repeat their requests (R78). -/
def dropImage (i : ImageId) (s : State) : State :=
  afterWithdraw (hasFills i s) (endPinOn i (discardFill i (dropFills i (dropLines i s))))

end Sys2Proof.Machine
end

