-- ==== Sys2Proof/Machine/Answers.lean ====
section
/-! DEFINITION. Restore answers as the restore engine takes them: LOADACK (R36 to R39), STARTED (R42), READY (R44), and answers out
of place (R46, R47). -/

namespace Sys2Proof.Machine

/-- The session of slot `k` enters STARTING or CONTEXT: frame sent flag clear, stage timer restarted (R39, R42). -/
def enterStage (k : SlotId) (st : SlotState) (s : State) : State :=
  updSession k (fun x => { x.restart with sent := false }) (updSlot k (fun y => { y with state := st }) s)

/-- The acceptance checks of a LOADACK with values t and m; true when one holds and the session fails PROTOCOL (R36). -/
def ackRefused (x : Session) (t m : Option Nat) : Bool :=
  t.any (fun t => decide (x.cursor ≤ t))
    || m.any (fun m => decide (x.cursor < m))
    || m.any (fun m => x.through.any (fun a => decide (m ≤ a)))
    || m.any (fun m => t.any (fun t => decide (m ≤ t)))

/-- The through value applied (R37). -/
def Session.ackThrough (t : Option Nat) (x : Session) : Session :=
  match t with
  | none => x
  | some t =>
    if x.through.all (fun a => decide (a < t)) then
      { x.restart with through := some t, inFlight := x.inFlight.filter (fun b => decide (t < b)) }
    else x

/-- The resend-from value applied, the limit not reached (R38). -/
def Session.resendFrom (m : Nat) (x : Session) : Session :=
  { x with resends := x.resends + 1, inFlight := x.inFlight.filter (fun b => decide (b < m)), cursor := m }

/-- After an accepted LOADACK: STARTING once the last block is acknowledged (R39). -/
def checkLoaded (k : SlotId) (s : State) : State :=
  match s.slots[k].session with
  | some x => if x.through = some (x.length - 1) then withdrawSlot k (enterStage k .starting s) else s
  | none => s

/-- The resend-from value of an accepted LOADACK, then R39 (R38, R39). -/
def applyResend (k : SlotId) (x : Session) (m : Option Nat) (s : State) : State :=
  match m with
  | none => checkLoaded k s
  | some m =>
    if x.resends = x.resendLimit then failSlot k .resends s
    else checkLoaded k (requestBlocks k (updSession k (Session.resendFrom m) s))

/-- A LOADACK in LOADING (R36 to R39). -/
def takeLoadAck (k : SlotId) (x : Session) (p : List Byte) (s : State) : State :=
  let t := ackValue (rd16 p 0)
  let m := ackValue (rd16 p 2)
  if p.length ≠ 4 ∨ ackRefused x t m = true then failSlot k .protocol s
  else applyResend k x m (updSession k (Session.ackThrough t) s)

/-- A STARTED in STARTING after STARTIMG (R42); VERIFY on the warm path sets COLD_NEXT (R49). -/
def takeStarted (k : SlotId) (x : Session) (p : List Byte) (s : State) : State :=
  if p.length ≠ 5 then failSlot k .protocol s
  else if rd8 p 0 = 0 ∧ rd32 p 1 = x.check then enterStage k .context s
  else failSlot k .verify (if x.warm then updSlot k (fun y => { y with coldNext := true }) s else s)

/-- A READY in CONTEXT after CTXLOAD (R44). -/
def takeReady (k : SlotId) (x : Session) (p : List Byte) (s : State) : State :=
  if p.length ≠ 6 then failSlot k .protocol s
  else if rd32 p 0 ≠ x.tag then failSlot k .tag s
  else if some (BitVec.ofNat 16 (rd16 p 4)) ≠ x.sentMask then failSlot k .context s
  else succeed k s

/-- A LOADACK, STARTED or READY handed to the restore engine: judged when awaited, else ignored (R46, R47). -/
def restoreAnswer (k : SlotId) (kind : Kind) (p : List Byte) (s : State) : State :=
  match s.slots[k].session with
  | none => s
  | some x =>
    match s.slots[k].state, kind with
    | .loading, .loadack => takeLoadAck k x p s
    | .starting, .started => if x.sent then takeStarted k x p s else s
    | .context, .ready => if x.sent then takeReady k x p s else s
    | _, _ => s

end Sys2Proof.Machine
end

