-- ==== Sys2Proof/Machine/Context.lean ====
section
/-! DEFINITION. The context unit: the store step (R136), capture (R139 to R142), the CTXLOAD payload (R146). -/

namespace Sys2Proof.Machine

/-- The layout length of a field in slot `k`'s resolved class entry; 0 where the slot has no class (R134). -/
def fieldLen (k : SlotId) (f : FieldId) (s : State) : Nat :=
  match classOf k s with
  | some e => e.layout[f]
  | none => 0

/-- A value in a field of a record: present when some byte is not zero, else absent (R136). -/
def CtxRecord.store (f : FieldId) (v : List Byte) (r : CtxRecord) : CtxRecord :=
  r.set f (if v.all (· == 0) then none else some v)

/-- Store value `v` into field `f` of slot `k`'s record (R136). -/
def storeField (k : SlotId) (f : FieldId) (v : List Byte) (s : State) : State := setCtx k (s.ctx[k].store f v) s

/-- The slot bound to a station address: the enabled slot that holds it (6.4, R140). -/
def boundSlot (a : Byte) (s : State) : Option SlotId :=
  slotIds.find? (fun k => s.tables.slots[k].enabled && decide (s.tables.slots[k].addr = a))

/-- Slot `k` is an enabled member of group or broadcast address `a` (R123, R140). -/
def isMember (a : Byte) (k : SlotId) (s : State) : Bool :=
  s.tables.slots[k].enabled &&
    (decide (a = 0xFF) || (decide (0xF0 ≤ a.toNat) && s.tables.slots[k].groups.getLsbD (a.toNat - 0xF0)))

/-- The target slots of a rule before the class mask (R140). `node` is the answering slot of an upstream frame. -/
def targets (m : TargetMode) (f : Frame) (node : Option SlotId) (s : State) : List SlotId :=
  match node with
  | some k => [k]
  | none =>
    if isStation f.dst then (boundSlot f.dst s).toList
    else
      match m with
      | .addressed => []
      | .all => slotIds.filter (fun k => isMember f.dst k s)

/-- Slot `k`'s resolved class is set in the mask (R140). -/
def inClassMask (mask : BitVec 8) (k : SlotId) (s : State) : Bool := s.slots[k].cls.any (fun c => mask.getLsbD c.val)

/-- A capture rule matches a frame offered under source kind `src` (R139). -/
def CapRule.covers (src : CapSource) (f : Frame) (r : CapRule) : Bool :=
  r.enable && decide (r.source = src) &&
    match f.payload with
    | [] => decide (r.typeMask = 0)
    | b :: _ => decide (b &&& r.typeMask = r.typeValue &&& r.typeMask)

/-- One target slot of a matching rule (R141). -/
def captureInto (r : CapRule) (f : Frame) (k : SlotId) (s : State) : State :=
  let n := fieldLen k r.field s
  if n = 0 ∨ f.payload.length < r.offset + n then s
  else storeField k r.field ((f.payload.drop r.offset).take n) s

/-- One rule against an offered frame (R139 to R141). -/
def captureRule (src : CapSource) (f : Frame) (node : Option SlotId) (s : State) (r : CapRule) : State :=
  if r.covers src f then
    ((targets r.mode f node s).filter (fun k => inClassMask r.classMask k s)).foldl (fun s k => captureInto r f k s) s
  else s

/-- A frame offered to capture: every rule in ascending order (R139, R142). -/
def capture (src : CapSource) (f : Frame) (node : Option SlotId) (s : State) : State :=
  s.tables.cap.toList.foldl (captureRule src f node) s

/-- The CTXLOAD payload of a record (R146). -/
def CtxRecord.payload (r : CtxRecord) : List Byte := be16 r.mask.toNat ++ r.values

end Sys2Proof.Machine
end

