-- ==== Sys2Proof/Machine/Segment.lean ====
section
/-! DEFINITION. The segment scheduler: choice and grants (R96 to R102), misses (R104), void turns (R105), and `finish`, which ends
every step: the choice where the port stands FREE, then the outputs. -/

namespace Sys2Proof.Machine

/-! ## Frames built for the segment (R193, R194) -/

/-- A frame built into the transmitter for slot `k`'s node (R193). -/
def segFrame (k : SlotId) (kind : Kind) (p : List Byte) (s : State) : Frame :=
  ⟨s.tables.slots[k].addr, s.tables.settings.mgmtAddr, kind, 0, p⟩

/-- The transmitter starts to send. -/
def startTx (tx : SegTx) (s : State) : State := updSeg (fun g => { g with port := .sending tx }) s

/-- One transmission more since the last turn, saturating at 8 (R97). -/
def addDebt (s : State) : State := updSeg (fun g => { g with debt := satAdd 8 g.debt }) s

/-! ## Grants (R34, R41, R43, R98) -/

/-- The 128 data bytes of a session's block: zero for a fill block, else those of the line that holds it (R34). -/
def blockData (i : ImageId) (b : Nat) (s : State) : List Byte :=
  if isFillBlock i b s then zeroBlock else lineData i b s

/-- The use of the line at a BLOCK grant is a hit (R34, R73). -/
def hitBlock (i : ImageId) (b : Nat) (s : State) : State :=
  if isFillBlock i b s then s
  else
    match validLine i b s with
    | some l => hit l s
    | none => s

/-- The session's record at a BLOCK grant (R34). -/
def Session.blockSent (x : Session) : Session :=
  { x.restart with inFlight := x.inFlight ++ [x.cursor], cursor := x.cursor + 1 }

/-- A BLOCK grant to slot `k` (R34). -/
def grantBlock (k : SlotId) (x : Session) (s : State) : State :=
  requestBlocks k (updSession k Session.blockSent (hitBlock x.img x.cursor
    (startTx (.restore (segFrame k .block (be16 x.cursor ++ blockData x.img x.cursor s) s)) s)))

/-- A STARTIMG grant to slot `k` (R41). -/
def grantStart (k : SlotId) (x : Session) (s : State) : State :=
  updSession k (fun x => { x.restart with sent := true })
    (startTx (.restore (segFrame k .startimg
      (be32 x.tag ++ be16 x.length ++ be32 x.check ++ be32 x.entryWord ++ [flagByte x.warm]) s)) s)

/-- A CTXLOAD grant to slot `k` (R43, R146). -/
def grantContext (k : SlotId) (s : State) : State :=
  updSession k (fun x => { x.restart with sent := true, sentMask := some s.ctx[k].mask })
    (startTx (.restore (segFrame k .ctxload s.ctx[k].payload s)) s)

/-- A REBOOT grant to slot `k` (R98). -/
def grantReboot (k : SlotId) (s : State) : State :=
  match s.slots[k].reboot with
  | some r => startTx (.reboot (segFrame k .reboot [r.code] s) k) s
  | none => s

/-- The grant to a ready set member, by its kind (R98). -/
def grant (k : SlotId) (s : State) : State :=
  match s.slots[k].session with
  | some x =>
    match s.slots[k].state with
    | .loading => grantBlock k x s
    | .starting => grantStart k x s
    | .context => grantContext k s
    | .vacant | .absent | .dark | .running | .backoff | .failed => s
  | none => grantReboot k s

/-- The ready set member with the lowest rank, and among equal ranks the lowest slot number (R98). -/
def firstReady (s : State) : Option SlotId := (slotsByRank s).find? (inReady s)

/-! ## Turns (R100 to R102) -/

/-- A slot is turn-eligible while it is not VACANT (R100). -/
def eligible (s : State) (k : SlotId) : Bool := decide (s.slots[k].state ≠ .vacant)

def isRestoring (s : State) (k : SlotId) : Bool := s.slots[k].state.restoring

/-- The first slot with property `p` from `c` upward, wrapping from 31 to 0 (R100). -/
def searchFrom (c : SlotId) (p : SlotId → Bool) : Option SlotId := (slotIds.map (fun i => c + i)).find? p

/-- A TURN to slot `k` (R102). -/
def giveTurn (k : SlotId) (s : State) : State :=
  updSeg (fun g => { g with debt := 0, turn := some ⟨k, s.tables.slots[k].addr, false, false⟩ })
    (startTx (.turn (segFrame k .turn [] s)) s)

/-- A ring turn or an urgent turn (R100, R101). -/
def chooseTurn (s : State) : State :=
  match (if s.seg.lastTurn = .ring then searchFrom s.seg.urgentCursor (isRestoring s) else none) with
  | some k => updSeg (fun g => { g with urgentCursor := k + 1, lastTurn := .urgent }) (giveTurn k s)
  | none =>
    match searchFrom s.seg.ringCursor (eligible s) with
    | some k => updSeg (fun g => { g with ringCursor := k + 1, lastTurn := .ring }) (giveTurn k s)
    | none => s

/-! ## The choice (R96) -/

/-- The debt is below K, or no slot is turn-eligible (R96). -/
def mayPass (s : State) : Bool := decide (s.seg.debt < s.tables.settings.debtLimit) || !(slotIds.any (eligible s))

/-- The choice of the next transmission (R96). -/
def choose (s : State) : State :=
  match (if mayPass s then firstReady s else none) with
  | some k => grant k (addDebt s)
  | none =>
    if mayPass s ∧ s.queues.out ≠ [] then startTx .outbound (addDebt s)
    else chooseTurn s

/-- The end of every step: where the segment port stands FREE a choice is made (R96, log entry 12), and the outputs are
recomputed from the state after the event (R162, R183, log entry 13). -/
def finish (s : State) : State := settleOutputs (if s.seg.port = .free then choose s else s)

/-! ## Misses and voids (R104, R105) -/

/-- A missed turn of slot `k` (R104). -/
def missTurn (k : SlotId) (s : State) : State :=
  if s.tables.settings.presenceLimit ≤ s.slots[k].miss + 1 then
    presenceLost k (updSlot k (fun x => { x with miss := 0 }) s)
  else updSlot k (fun x => { x with miss := x.miss + 1 }) s

/-- The turn of slot `k` becomes void while the port is in WINDOW or RECEIVING for it (R105). -/
def voidTurn (k : SlotId) (s : State) : State :=
  if s.seg.port = .window ∨ s.seg.port = .receiving true then
    updSeg (fun g => { g with turn := g.turn.map (fun t => if t.slot = k then { t with void := true } else t) }) s
  else s

/-- The port leaves SENDING, WINDOW or RECEIVING: FREE, or SILENT with the silent flag set, and no turn is open (R94, R102). -/
def leavePort (s : State) : State :=
  updSeg (fun g => { g with port := if g.silent then .silent else .free, turn := none, answerTimer := none }) s

/-- The turn is closed by a gap confirmation or an engine reset: the TURN under transmission opens no window, a frame being
received adds no miss, an open window closes with no miss (R109, R113). -/
def closeTurn (s : State) : State :=
  match s.seg.port with
  | .sending _ | .receiving _ => updSeg (fun g => { g with turn := g.turn.map (fun t => { t with closed := true }) }) s
  | .window | .free => leavePort s
  | .silent => s

end Sys2Proof.Machine
end

