-- ==== Sys2Proof/Machine/Links.lean ====
section
/-! DEFINITION. The links: reception and forwarding (R114, R117, R120 to R123, R130, R131), answers (R103, R107, R108), ends of
transmission (R94, R128, R129), with the meanings of the rows of the links. -/

namespace Sys2Proof.Machine

/-! ## Lookup (R120) -/

def FwdRule.covers (d : Direction) (kind : RuleKind) (f : Frame) (r : FwdRule) : Bool :=
  r.enable && decide (r.dir = d) && decide (r.kind = kind)
    && decide (r.dstLow.toNat ≤ f.dst.toNat) && decide (f.dst.toNat ≤ r.dstHigh.toNat)
    && decide (r.srcLow.toNat ≤ f.src.toNat) && decide (f.src.toNat ≤ r.srcHigh.toNat)
    && match f.payload with
       | [] => decide (r.typeMask = 0)
       | b :: _ => decide (b &&& r.typeMask = r.typeValue &&& r.typeMask)

def DefaultAction.action : DefaultAction → FwdAction
  | .forward => .forward
  | .drop => .drop

/-- The action and the capture flag of a lookup: the lowest-numbered matching rule, else the direction's default (R120). -/
def lookup (d : Direction) (kind : RuleKind) (f : Frame) (s : State) : FwdAction × Bool :=
  match s.tables.fwd.toList.find? (FwdRule.covers d kind f) with
  | some r => (r.action, r.capture)
  | none =>
    match d with
    | .down => (s.tables.settings.downDefault.action, false)
    | .up => (s.tables.settings.upDefault.action, false)

/-! ## Downstream gating (R121 to R123) -/

/-- The outbound queue holds 32 entries. -/
def outFull (s : State) : Bool := decide (Config.outboundMax ≤ s.queues.out.length)

/-- Slot `k` is restoring, its class holds, and the action lets frames be held (R122, R123). -/
def holds (a : FwdAction) (k : SlotId) (s : State) : Bool :=
  s.slots[k].state.restoring && (classOf k s).any ClassEntry.holdEnable && decide (a = .forward)

/-- Slot `k`'s hold queue holds fewer than H entries. -/
def holdRoom (k : SlotId) (s : State) : Bool := decide (s.queues.hold[k].length < s.tables.settings.holdDepth)

/-- To the outbound queue, or REFUSE(PART_BUSY) when it is full (R122). -/
def toOutbound (b : BufId) (f : Frame) (s : State) : State :=
  if outFull s then refuse .partBusy f s else pushOut b s

/-- A station-addressed frame (R122). -/
def gateStation (a : FwdAction) (b : BufId) (f : Frame) (s : State) : State :=
  if !s.lm.line.good then refuse .notReady f s
  else
    match boundSlot f.dst s with
    | none => toOutbound b f s
    | some k =>
      if s.slots[k].state = .running then toOutbound b f s
      else if holds a k s then
        if holdRoom k s then pushHold k b s else refuse .holdFull f s
      else refuse .notReady f s

/-- The hold copy of a group frame for member slot `k`, or its hold-missed count (R123). -/
def holdCopy (b : BufId) (k : SlotId) (s : State) : State :=
  if holdRoom k s then pushHold k b s else updSlot k (fun x => { x with holdMissed := satAdd 255 x.holdMissed }) s

/-- A group or broadcast frame (R123). -/
def gateGroup (a : FwdAction) (b : BufId) (f : Frame) (s : State) : State :=
  if !s.lm.line.good then s
  else
    (slotIds.filter (fun k => isMember f.dst k s && holds a k s)).foldl (fun s k => holdCopy b k s)
      (if outFull s then countOverrun .segment s else pushOut b s)

/-- A trunk DATA frame in buffer `b`: lookup, capture, gating (R121). -/
def downstream (b : BufId) (f : Frame) (s : State) : State :=
  let r := lookup .down .data f s
  let s := if r.2 then capture .dataDown f none s else s
  match r.1 with
  | .drop => s
  | .forward | .forwardNoHold => if isStation f.dst then gateStation r.1 b f s else gateGroup r.1 b f s

/-! ## Management requests taken (R165, R166) -/

/-- A MGMT-REQ of an origin: into its request record when IDLE; else answered BUSY, or discarded while a BUSY reply of the
origin waits (R166; log entry 17). -/
def takeRequest (o : Origin) (f : Frame) (s : State) : State :=
  let q : Request := ⟨f.payload, f.src, f.seq⟩
  if (s.ma.origin o).state = .idle then updOrigin o (fun r => { r with state := .waiting, req := some q }) s
  else if s.ma.replies.any (fun r => decide (r.origin = o) && r.busy) then s
  else queueReply ⟨o, true, false, replyFrame q .busy false [] s⟩ s

/-! ## RECEIVE_FRAME (R114, R117) -/

/-- A frame good on the trunk: DATA, or MGMT-REQ to the management address (R114). -/
def trunkAccepts (f : Frame) (s : State) : Bool :=
  match f.kind with
  | .data => true
  | .mgmtReq => decide (f.dst = s.tables.settings.mgmtAddr)
  | _ => false

/-- The port accepts the frame's kind, with its further condition (R114). -/
def linkAccepts (l : Link) (f : Frame) (s : State) : Bool :=
  match l with
  | .trunk => trunkAccepts f s
  | .service => decide (f.kind = .mgmtReq)

/-- The port and the origin of a full-duplex link. -/
def Link.origin : Link → Origin
  | .trunk => .trunk
  | .service => .service

/-- A good frame of link `l` in buffer `b` handed to its owner (R117): DATA to the forwarding engine, MGMT-REQ to the agent,
which copies it and frees its buffer. -/
def handOver (l : Link) (b : BufId) (f : Frame) (s : State) : State :=
  if f.kind = .data then reclaim b (downstream b f s) else takeRequest (Link.origin l) f (reclaim b s)

/-- A frame judged good or bad on a full-duplex link, and a good frame taken into a buffer and handed over (R114, R117). -/
def receiveOn (l : Link) (bytes : List Byte) (s : State) : State :=
  match parseFrame bytes with
  | none => countBad (Link.origin l).port s
  | some f =>
    if linkAccepts l f s then
      match takeIn (Link.origin l).port f s with
      | (none, s) => s
      | (some b, s) => handOver l b f s
    else countBad (Link.origin l).port s

/-- The received bytes into the port's staging area (R114). -/
def stage (p : Port) (bytes : List Byte) (s : State) : State := updPort p (fun c => { c with staged := bytes }) s

/-- The end of a frame on link `l` that the port has received; no frame is received before the port takes frames (R114). -/
def frameEnds (l : Link) (bytes : List Byte) (s : State) : Host.Outcome State Fault Refusal :=
  if s.phase = .running then
    let p := (Link.origin l).port
    let s := stage p bytes s
    .next (finish (stage p [] (receiveOn l (s.ports.get p).staged s)))
  else .next s

/-- RECEIVE_FRAME. A frame that began while the port took no frames is not received, though it end later, and one that was being
received at a full reset is discarded (R114, R132, log entry 10). -/
def execReceiveFrame (a : Arrival) (bytes : List Byte) (s : State) : Host.Outcome State Fault Refusal :=
  match a with
  | .trunk => frameEnds .trunk bytes s
  | .service => frameEnds .service bytes s
  | .early _ => .next s

/-! ## Upstream forwarding (R130, R131) -/

/-- To the trunk transmit queue; discarded and counted as a trunk overrun when it holds 48 entries (R130, R131). -/
def toTrunk (b : BufId) (s : State) : State :=
  if s.queues.trunk.length < Config.trunkMax then pushTrunk ⟨b, false⟩ s else countOverrun .trunk s

/-- An upstream DATA answer of slot `k` (R130). -/
def upstreamData (k : SlotId) (b : BufId) (f : Frame) (s : State) : State :=
  if s.slots[k].state = .running then
    let r := lookup .up .data f s
    let s := if r.2 then capture .dataUp f (some k) s else s
    match r.1 with
    | .drop => s
    | .forward | .forwardNoHold => toTrunk b s
  else countOrphan s

/-- An upstream STATUS answer (R131). -/
def upstreamStatus (b : BufId) (f : Frame) (s : State) : State :=
  match (lookup .up .status f s).1 with
  | .drop => s
  | .forward | .forwardNoHold => toTrunk b s

/-! ## Answers (R103, R107, R108) -/

/-- The kinds the segment port accepts (R114). -/
def segmentKind (k : Kind) : Bool :=
  match k with
  | .empty | .data | .status | .bootcall | .loadack | .started | .ready => true
  | .refuse | .turn | .block | .startimg | .ctxload | .reboot | .mgmtReq | .mgmtReply => false

/-- An answer of slot `k`, in buffer `b`, to its owner (R107). -/
def dispatch (k : SlotId) (b : BufId) (f : Frame) (s : State) : State :=
  match f.kind with
  | .bootcall => bootCallAnswer k f.payload s
  | .loadack | .started | .ready => restoreAnswer k f.kind f.payload s
  | .status => upstreamStatus b f (capture .status f (some k) (statusAnswer k f.payload s))
  | .data => upstreamData k b f s
  | .empty | .refuse | .turn | .block | .startimg | .ctxload | .reboot | .mgmtReq | .mgmtReply => s

/-- A frame of the window that passes the port's checks with the turned address as source: an answer, unless the turn is
void (R103, R105, R108; log entry 20). -/
def takeAnswer (t : Turn) (f : Frame) (s : State) : State :=
  let s := if t.void then s else updSlot t.slot (fun x => { x with miss := 0 }) s
  match takeIn .segment f s with
  | (none, s) => s
  | (some b, s) => reclaim b (if t.void then s else dispatch t.slot b f s)

/-- A frame of the window at its end (R103, R104, R109). -/
def judgeAnswer (t : Turn) (bytes : List Byte) (s : State) : State :=
  let miss := fun s => if t.void || t.closed then s else missTurn t.slot s
  match parseFrame bytes with
  | none => miss (countBad .segment s)
  | some f =>
    if segmentKind f.kind && decide (f.src = t.addr) then takeAnswer t f s else miss (countBad .segment s)

/-- SEGMENT_FRAME_END: a frame of the window is judged as an answer (R103), one outside any window is bad (R106); the port leaves
RECEIVING (R94). No frame is being received in another port state. -/
def execSegmentFrameEnd (bytes : List Byte) (s : State) : Host.Outcome State Fault Refusal :=
  match s.seg.port with
  | .receiving inWindow =>
    let s := stage .segment bytes s
    let judged :=
      match inWindow, s.seg.turn with
      | true, some t => judgeAnswer t s.ports.segment.staged s
      | _, _ => countBad .segment s
    .next (finish (leavePort (stage .segment [] judged)))
  | .free | .sending _ | .window | .silent => .next s

/-- FRAME_BEGINS_ON_SEGMENT: the candidate answer in WINDOW, a frame outside any window in FREE and SILENT (R103, R106). The port
does not receive while SENDING, nor before it takes frames. -/
def execFrameBeginsOnSegment (s : State) : Host.Outcome State Fault Refusal :=
  if s.phase = .running then
    match s.seg.port with
    | .window => .next (finish (updSeg (fun g => { g with port := .receiving true, answerTimer := none }) s))
    | .free | .silent => .next (finish (updSeg (fun g => { g with port := .receiving false }) s))
    | .sending _ | .receiving _ => .next s
  else .next s

/-- ANSWER_TIMER_EXPIRY in WINDOW: the turn is missed, unless void, and the window closes (R94, R104, R105). -/
def execAnswerTimerExpiry (s : State) : Host.Outcome State Fault Refusal :=
  if s.seg.port = .window then
    let missed :=
      match s.seg.turn with
      | some t => if t.void then s else missTurn t.slot s
      | none => s
    .next (finish (leavePort missed))
  else .next s

/-! ## Ends of transmission -/

/-- The head of the outbound queue removed at the end of its transmission (R99). -/
def popOut (s : State) : State :=
  match s.queues.out with
  | [] => s
  | b :: bs => dropRef b (updQueues (fun q => { q with out := bs }) s)

/-- The window opens after a TURN and the answer timer starts (R102). -/
def openWindow (s : State) : State :=
  updSeg (fun g => { g with port := .window, answerTimer := some s.tables.settings.answerTimeout }) s

/-- The end of a TURN's transmission: the window opens, unless the turn was closed or the silent flag is set (R94, R109, R113). -/
def turnSent (s : State) : State :=
  if s.seg.silent || s.seg.turn.any Turn.closed then leavePort s else openWindow s

/-- SEGMENT_TRANSMISSION_END (R94, R98, R99, R102). -/
def execSegmentTransmissionEnd (s : State) : Host.Outcome State Fault Refusal :=
  match s.seg.port with
  | .sending tx =>
    let s := countSent .segment s
    .next (finish (match tx with
      | .turn _ => turnSent s
      | .restore _ => leavePort s
      | .reboot _ k => leavePort (updSlot k (fun x => { x with reboot := none }) s)
      | .outbound => leavePort (popOut s)))
  | .free | .window | .receiving _ | .silent => .next s

end Sys2Proof.Machine
end

