-- ==== Sys2Proof/Machine/Layout.lean ====
section
/-! DEFINITION. The table entries as bytes (11.6): every table written out, tables 0 to 5 read back and checked (R198 with the
range and consistency checks of R9, R59, R119, R138, R171), and the configuration store (R177). -/

namespace Sys2Proof.Machine

/-! ## Items -/

/-- A number of one byte. -/
def byte (n : Nat) : Byte := BitVec.ofNat 8 n

/-- A number of four bytes. -/
def be32n (n : Nat) : List Byte := be32 (BitVec.ofNat 32 n)

/-- An item of one byte where 0xFF stands for NONE (R198). -/
def optByte {n : Nat} (o : Option (Fin n)) : Byte := (o.map (fun i => byte i.val)).getD 0xFF

/-- A number inside its range, else none: BAD_VALUE (R198). -/
def rng (lo hi n : Nat) : Option Nat := if lo ≤ n ∧ n ≤ hi then some n else none

/-- A number below `k` as an index. -/
def finAt (k n : Nat) : Option (Fin k) := if h : n < k then some ⟨n, h⟩ else none

/-- NONE at 0xFF, an index below `k`, or outside its codes. -/
def optFin (k n : Nat) : Option (Option (Fin k)) := if n = 0xFF then some none else (finAt k n).map some

/-- Entry `n` of a list of codes. -/
def codeAt {α : Type} (codes : List α) (n : Nat) : Option α := codes[n]?

/-! ## Table 0, settings -/

def DefaultAction.code : DefaultAction → Byte
  | .forward => 0
  | .drop => 1

def Settings.encode (e : Settings) : List Byte :=
  [e.mgmtAddr, byte e.classCount, e.downDefault.code, e.upDefault.code, byte e.holdDepth, byte e.window, byte e.stageTimeout,
    byte e.answerTimeout, byte e.presenceLimit, byte e.debtLimit, byte e.deglitchCode, byte e.settleCode, byte e.resendLimit]

/-- The settings entry read and validated (R171, R198). -/
def Settings.decode (b : List Byte) : Option Settings := do
  let addr ← rng 1 0xEF (rd8 b 0)
  let classes ← rng 1 8 (rd8 b 1)
  let down ← codeAt [DefaultAction.forward, .drop] (rd8 b 2)
  let up ← codeAt [DefaultAction.forward, .drop] (rd8 b 3)
  let h ← rng 0 8 (rd8 b 4)
  let w ← rng 1 8 (rd8 b 5)
  let stage ← rng 5 255 (rd8 b 6)
  let answer ← rng 1 16 (rd8 b 7)
  let presence ← rng 2 15 (rd8 b 8)
  let k ← rng 1 8 (rd8 b 9)
  let deglitch ← rng 0 5 (rd8 b 10)
  let settle ← rng 0 4 (rd8 b 11)
  let resend ← rng 1 63 (rd8 b 12)
  some ⟨byte addr, classes, down, up, h, w, stage, answer, presence, k, deglitch, settle, resend⟩

/-! ## Table 1, classes -/

def FailPolicy.code : FailPolicy → Byte
  | .retry => 0
  | .latch => 1
  | .report => 2
  | .ignore => 3

def LossPolicy.code : LossPolicy → Byte
  | .keep => 0
  | .clear => 1

def ClassEntry.encode (e : ClassEntry) : List Byte :=
  [byte e.rank, optByte e.selector, e.policy.code, byte e.retryTime, byte e.retryLimit, e.loss.code, flagByte e.holdEnable,
    flagByte e.warmAllowed] ++ e.layout.toList.map byte

/-- The sixteen field lengths, each 0 to 8 and together 64 or less (R9, R198). -/
def decodeLayout (b : List Byte) : Option (Vector Nat 16) :=
  let v : Vector Nat 16 := ⟨⟨(List.range 16).map (fun f => rd8 b (8 + f))⟩, by simp⟩
  if v.toList.all (fun n => decide (n ≤ 8)) && decide (v.toList.sum ≤ 64) then some v else none

/-- A class entry read and validated (R9, R198). -/
def ClassEntry.decode (b : List Byte) : Option ClassEntry := do
  let rank ← rng 0 7 (rd8 b 0)
  let selector ← optFin 16 (rd8 b 1)
  let policy ← codeAt [FailPolicy.retry, .latch, .report, .ignore] (rd8 b 2)
  let time ← rng 0 3 (rd8 b 3)
  let limit ← rng 1 15 (rd8 b 4)
  let loss ← codeAt [LossPolicy.keep, .clear] (rd8 b 5)
  let hold ← rdFlag b 6
  let warm ← rdFlag b 7
  let layout ← decodeLayout b
  some ⟨rank, selector, policy, time, limit, loss, hold, warm, layout⟩

/-! ## Table 2, slots -/

def SlotEntry.encode (e : SlotEntry) : List Byte :=
  [flagByte e.enabled, e.addr] ++ (match e.expClass with
    | some c => [0, c]
    | none => [0xFF, 0xFF]) ++ [optByte e.override, optByte e.group] ++ be16 e.groups.toNat

/-- The expected class: 0x0000 to 0x00FF, or 0xFFFF for ANY (R198). -/
def decodeExpClass (n : Nat) : Option (Option Byte) :=
  if n = 0xFFFF then some none else (rng 0 0xFF n).map (fun c => some (byte c))

/-- A slot entry read, each field in its range (R1, R198). -/
def SlotEntry.decode (b : List Byte) : Option SlotEntry := do
  let enabled ← rdFlag b 0
  let addr ← rng 1 0xEF (rd8 b 1)
  let cls ← decodeExpClass (rd16 b 2)
  let override ← optFin 16 (rd8 b 4)
  let group ← optFin 4 (rd8 b 5)
  let groups ← rng 0 0x7FFF (rd16 b 6)
  some ⟨enabled, byte addr, cls, override, group, BitVec.ofNat 15 groups⟩

/-! ## Table 3, catalogue -/

def Window.encode (w : Window) : List Byte := [flagByte w.enable] ++ be16 w.first ++ be16 w.last ++ be32n w.base

def CatEntry.encode (e : CatEntry) : List Byte :=
  [flagByte e.valid] ++ be32 e.tag ++ be16 e.length ++ be32 e.entryWord ++ be32 e.check ++ [byte e.minHw] ++ be16 e.minBoot
    ++ e.windows.toList.flatMap Window.encode

/-- An enabled window passes R59 for an image of `length` blocks; a disabled one is not checked. -/
def Window.good (length : Nat) (w : Window) : Bool :=
  !w.enable || (decide (w.first ≤ w.last) && decide (w.last < length) && decide (w.base ≤ Config.recordMax)
    && decide (w.base + (w.last - w.first) ≤ Config.recordMax))

/-- The window at offset `k` (R198). -/
def Window.decode (b : List Byte) (k : Nat) : Option Window :=
  (rdFlag b k).map (fun enable => ⟨enable, rd16 b (k + 1), rd16 b (k + 3), (rd32 b (k + 5)).toNat⟩)

/-- A catalogue entry read and validated (R59, R198). -/
def CatEntry.decode (b : List Byte) : Option CatEntry := do
  let valid ← rdFlag b 0
  let length ← rng 1 4096 (rd16 b 5)
  let w0 ← Window.decode b 18
  let w1 ← Window.decode b 27
  let w2 ← Window.decode b 36
  let w3 ← Window.decode b 45
  if [w0, w1, w2, w3].all (Window.good length) then
    some ⟨valid, rd32 b 1, length, rd32 b 7, rd32 b 11, rd8 b 15, rd16 b 16, #v[w0, w1, w2, w3]⟩
  else none

/-! ## Table 4, forwarding rules -/

def Direction.code : Direction → Byte
  | .down => 0
  | .up => 1

def RuleKind.code : RuleKind → Byte
  | .data => 0
  | .status => 1

def FwdAction.code : FwdAction → Byte
  | .forward => 0
  | .forwardNoHold => 1
  | .drop => 2

def FwdRule.encode (r : FwdRule) : List Byte :=
  [flagByte r.enable, r.dir.code, r.kind.code, r.dstLow, r.dstHigh, r.srcLow, r.srcHigh, r.typeValue, r.typeMask, r.action.code,
    flagByte r.capture]

/-- The consistency checks of a forwarding rule (R119). -/
def FwdRule.good (r : FwdRule) : Bool :=
  !(decide (r.kind = .status) && decide (r.dir = .down)) && decide (r.dstLow.toNat ≤ r.dstHigh.toNat)
    && decide (r.srcLow.toNat ≤ r.srcHigh.toNat)

/-- A forwarding rule read and validated (R119, R198). -/
def FwdRule.decode (b : List Byte) : Option FwdRule := do
  let enable ← rdFlag b 0
  let dir ← codeAt [Direction.down, .up] (rd8 b 1)
  let kind ← codeAt [RuleKind.data, .status] (rd8 b 2)
  let dl ← rng 1 0xFF (rd8 b 3)
  let dh ← rng 1 0xFF (rd8 b 4)
  let action ← codeAt [FwdAction.forward, .forwardNoHold, .drop] (rd8 b 9)
  let capture ← rdFlag b 10
  let r : FwdRule :=
    ⟨enable, dir, kind, byte dl, byte dh, b.getD 5 0, b.getD 6 0, b.getD 7 0, b.getD 8 0, action, capture⟩
  if r.good then some r else none

/-! ## Table 5, capture rules -/

def CapSource.code : CapSource → Byte
  | .dataDown => 0
  | .dataUp => 1
  | .status => 2

def TargetMode.code : TargetMode → Byte
  | .addressed => 0
  | .all => 1

def CapRule.encode (r : CapRule) : List Byte :=
  [flagByte r.enable, r.source.code, r.typeValue, r.typeMask, byte r.offset, byte r.field.val, r.classMask, r.mode.code]

/-- A capture rule read and validated (R138, R198). -/
def CapRule.decode (b : List Byte) : Option CapRule := do
  let enable ← rdFlag b 0
  let source ← codeAt [CapSource.dataDown, .dataUp, .status] (rd8 b 1)
  let offset ← rng 0 239 (rd8 b 4)
  let field ← finAt 16 (rd8 b 5)
  let mode ← codeAt [TargetMode.addressed, .all] (rd8 b 7)
  some ⟨enable, source, b.getD 2 0, b.getD 3 0, offset, field, b.getD 6 0, mode⟩

/-! ## Tables 8 to 13 (R5, R147, R163, R115, R92, R58) -/

def SlotState.code : SlotState → Byte
  | .vacant => 0
  | .absent => 1
  | .dark => 2
  | .loading => 3
  | .starting => 4
  | .context => 5
  | .running => 6
  | .backoff => 7
  | .failed => 8

/-- The bits of a byte, bit 0 first. -/
def bitsByte (bs : List Bool) : Byte := byte (bs.foldr (fun b n => (if b then 1 else 0) + 2 * n) 0)

/-- The presence byte of a slot status entry: the acknowledged-through bit stands within the session view (R198). -/
def SlotStatus.presence (x : SlotStatus) : Byte :=
  bitsByte [x.cls.isSome, x.expTag.isSome, x.catInUse.isSome, x.lastCause.isSome, x.session.isSome,
    x.session.any (fun y => y.through.isSome)]

/-- The flags of a slot status entry; the reason bits read 0 while REBOOT_PENDING is clear (log entry 22). -/
def SlotStatus.flags (x : SlotStatus) : Byte :=
  bitsByte [x.stale, x.coldNext, x.reloadExpected, x.reboot.isSome] + byte (16 * ((x.reboot.map RebootReason.code).getD 0).toNat)

/-- The session view: cursor, acknowledged-through, in-flight count, resend count; zeros when absent (R53, R198). -/
def Session.view (x : Session) : List Byte :=
  be16 x.cursor ++ be16 (x.through.getD 0) ++ [byte x.inFlight.length] ++ be16 x.resends

def SlotStatus.encode (x : SlotStatus) : List Byte :=
  [x.state.code, x.presence, (x.cls.map (fun c => byte c.val)).getD 0] ++ be32 (x.expTag.getD 0)
    ++ [(x.catInUse.map (fun i => byte i.val)).getD 0, byte x.retry, byte x.miss, byte x.holdMissed, x.flags,
        (x.lastCause.map Cause.code).getD 0]
    ++ (x.session.map Session.view).getD (List.replicate 7 0)

/-- The table 9 entry of a record: mask, present values, zero bytes to 64 value bytes (R147, R198). -/
def CtxRecord.encode (r : CtxRecord) : List Byte :=
  be16 r.mask.toNat ++ r.values ++ List.replicate (64 - r.values.length) 0

def LineState.code : LineState → Byte
  | .up => 0
  | .dip => 1
  | .gap => 2
  | .settle => 3

def LineMon.encode (l : LineMon) : List Byte :=
  [l.line.code] ++ be16 l.dips ++ be16 l.gaps ++ [bitsByte l.requests.toList, bitsByte l.permits.toList]

def PortState.encode (p : PortState) : List Byte :=
  be16 p.good ++ be16 p.bad ++ be16 p.overrun ++ be16 p.transmitted ++ be16 p.orphan

/-- Table 12 (R92). -/
def cacheStatus (s : State) : List Byte :=
  [byte (validCount s), byte (pinnedCount s), byte s.bc.reservation, byte s.bc.fills.length]

/-- Entry `i` of table 13 (R58). -/
def catalogueStatus (i : ImageId) (s : State) : List Byte :=
  [flagByte s.catSt[i].bad, byte s.catSt[i].users, byte (pinnedOf i s)]

/-- Entry `i` of table `t` as it stands (R170, R198); no bytes for a table or an index outside R170. -/
def encodeEntry (t i : Nat) (s : State) : List Byte :=
  match t with
  | 0 => if i = 0 then s.tables.settings.encode else []
  | 1 => ((s.tables.classes[i]?).map ClassEntry.encode).getD []
  | 2 => ((s.tables.slots[i]?).map SlotEntry.encode).getD []
  | 3 => ((s.tables.cat[i]?).map CatEntry.encode).getD []
  | 4 => ((s.tables.fwd[i]?).map FwdRule.encode).getD []
  | 5 => ((s.tables.cap[i]?).map CapRule.encode).getD []
  | 8 => ((s.slots[i]?).map SlotStatus.encode).getD []
  | 9 => ((s.ctx[i]?).map CtxRecord.encode).getD []
  | 10 => if i = 0 then s.lm.encode else []
  | 11 =>
    match i with
    | 0 => s.ports.trunk.encode
    | 1 => s.ports.segment.encode
    | 2 => s.ports.service.encode
    | _ => []
  | 12 => if i = 0 then cacheStatus s else []
  | 13 => ((finAt 16 i).map (fun j => catalogueStatus j s)).getD []
  | _ => []

/-! ## The configuration store (R177, R179) -/

/-- Every part of the store but its CRC-32 (R177). R177 gives the store identifier no byte order: most significant byte first is the
model's choice (log entry 31, DESIGN CHOICE). -/
def Tables.storeBody (t : Tables) : List Byte :=
  be32 Config.storeId ++ t.settings.encode ++ t.classes.toList.flatMap ClassEntry.encode ++ t.slots.toList.flatMap SlotEntry.encode
    ++ t.cat.toList.flatMap CatEntry.encode ++ t.fwd.toList.flatMap FwdRule.encode ++ t.cap.toList.flatMap CapRule.encode

/-- The store as programmed: the body and its CRC-32, most significant byte first (R177). -/
def Tables.store (t : Tables) : List Byte := t.storeBody ++ be32 (crc32 t.storeBody)

/-- The bytes of the store before its CRC-32. -/
def storeBodyBytes : Nat := 2113

/-- The node addresses of enabled slots are unique (R1). -/
def uniqueAddrs (v : Vector SlotEntry 32) : Bool :=
  slotIds.all (fun j => slotIds.all (fun k =>
    decide (j = k) || !v[j].enabled || !v[k].enabled || decide (v[j].addr ≠ v[k].addr)))

/-- Every entry present, or none. -/
def collect {α : Type} : List (Option α) → Option (List α)
  | [] => some []
  | none :: _ => none
  | some x :: xs => (collect xs).map (x :: ·)

/-- `n` entries of `size` bytes from offset `off`, each through `f`. -/
def readEntries {α : Type} (f : List Byte → Option α) (n off size : Nat) (b : List Byte) : Option (Vector α n) :=
  match collect ((List.range n).map (fun i => f ((b.drop (off + size * i)).take size))) with
  | some l => if h : l.length = n then some ⟨⟨l⟩, by simpa using h⟩ else none
  | none => none

/-- The tables of a store, each entry in its layout and valid, with unique node addresses (R177, R179). -/
def readTables (b : List Byte) : Option Tables := do
  let settings ← Settings.decode (b.drop 4)
  let classes ← readEntries ClassEntry.decode 8 17 24 b
  let slots ← readEntries SlotEntry.decode 32 209 8 b
  let cat ← readEntries CatEntry.decode 16 465 54 b
  let fwd ← readEntries FwdRule.decode 48 1329 11 b
  let cap ← readEntries CapRule.decode 32 1857 8 b
  if uniqueAddrs slots then some ⟨settings, classes, slots, cat, fwd, cap⟩ else none

/-- The store read from sector 0, when it is good (R179); the identifier most significant byte first (log entry 31). -/
def readStore (b : List Byte) : Option Tables :=
  if rd32 b 0 = Config.storeId ∧ rd32 b storeBodyBytes = crc32 (b.take storeBodyBytes) then readTables b else none

end Sys2Proof.Machine
end

