-- ==== Sys2Proof/Machine/Agent.lean ====
section
/-! DEFINITION. The management agent's service of requests (R167 to R169): which request is served, the form test, the slot test of
long requests, acceptance, and the alternation pointer. -/

namespace Sys2Proof.Machine

/-! ## Which request is served (R167) -/

def isWaiting (o : Origin) (s : State) : Bool := decide ((s.ma.origin o).state = .waiting)

/-- The origin served next: the waiting one, or the one the pointer names where both wait; none after a FULL-RESET has been
served (R167, R181). -/
def nextOrigin (s : State) : Option Origin :=
  if s.ma.stopped then none
  else if isWaiting .trunk s && isWaiting .service s then some s.ma.pointer
  else if isWaiting .trunk s then some .trunk
  else if isWaiting .service s then some .service
  else none

/-- The request code of a request record; none for an unknown code and for an empty payload (R196). -/
def Request.code (q : Request) : Option ReqCode :=
  match q.payload with
  | [] => none
  | b :: _ => ReqCode.ofByte b

/-- The argument bytes of a request. -/
def Request.args (q : Request) : List Byte := q.payload.drop 1

/-- The request served next, with its origin. -/
def nextRequest (s : State) : Option (Origin × Request) :=
  match nextOrigin s with
  | some o => ((s.ma.origin o).req).map (fun q => (o, q))
  | none => none

/-- After each service the pointer names the other origin (R167). -/
def turnPointer (o : Origin) (s : State) : State := updMa (fun a => { a with pointer := o.other }) s

/-! ## Replies and acceptance -/

/-- A final reply without data. -/
def reply (o : Origin) (st : Status) (s : State) : State := finalReply o st [] false s

/-- The reply OK with data (R169). -/
def replyOk (o : Origin) (data : List Byte) (s : State) : State := finalReply o .ok data false s

/-- A long request takes the long-operation slot and its origin enters RUNNING (R168). -/
def accept (o : Origin) (j : LongJob) (s : State) : State :=
  updOrigin o (fun r => { r with state := .running }) (setLong (some ⟨o, j⟩) s)

/-- COMMIT holds the long-operation slot (R178). -/
def commitRuns (s : State) : Bool :=
  match s.ma.long with
  | some ⟨_, .commit _⟩ => true
  | _ => false

/-! ## Service (R167 to R169) -/

/-- The service of a request whose code has been found to be `c`: form test, slot test for a long request, the request's own
work, then the pointer (R168, R169). -/
def serve (c : ReqCode) (work : Origin → List Byte → State → State) (o : Origin) (q : Request) (s : State) : State :=
  turnPointer o
    (if !formOk c q.args then reply o .badRequest s
     else if c.isLong && s.ma.long.isSome then reply o .busy s
     else work o q.args s)

/-- The row of request code `c`: it is taken when the request served next has that code, and else has no effect (log entry 7). -/
def serveRow (c : ReqCode) (work : Origin → List Byte → State → State) (s : State) : State :=
  match nextRequest s with
  | some (o, q) => if q.code = some c then serve c work o q s else s
  | none => s

end Sys2Proof.Machine
end

