-- ==== Sys2Proof/Machine/Resets.lean ====
section
/-! DEFINITION. The resets: full reset (R27, R54, R70, R71, R93, R112, R132, R149, R158, R164, R178, R182, R188), the start-up load
(R179), and the engine reset (R28, R54, R93, R113, R133, R164, R180, R192), with the ends of transmission of trunk and service link,
where the full reset by request takes place (R181). -/

namespace Sys2Proof.Machine

/-! ## Full reset -/

/-- The 4,096 bytes of sector 0 once a store is programmed: the rest is left erased (R177). -/
def sectorImage (store : List Byte) : List Byte := store ++ List.replicate (sectorBytes - store.length) 0xFF

/-- The flash operation that a full reset cuts: the one the reader runs, else one cut before that still ends (R70, R178). -/
def cutOf (s : State) : Option CutOp :=
  match s.reader with
  | .erase k => some (.erase k)
  | .program r d => some (.program r d)
  | .commit => some (.commit s.tables.store)
  | .idle | .fill _ | .scan _ => s.cut

/-- A full reset: everything as at State.reset, but for the flash, the LINE level, and a flash operation under way in the
device; the waiting commands and the free order are the model's own. -/
def fullReset (s : State) : State :=
  { State.reset with
    flash := s.flash, lineHigh := s.lineHigh, cut := cutOf s, freeTick := s.freeTick, pending := s.pending }

/-- RESET_N: a full reset taken at once (R181). -/
def execResetN (s : State) : Host.Outcome State Fault Refusal := .next (finish (fullReset s))

/-- POWER_ON: a full reset (R181, R188). -/
def execPowerOn (s : State) : Host.Outcome State Fault Refusal :=
  let t := fullReset s
  .next (finish t)

/-! ## The start-up load (R179) -/

/-- The flash once the device has finished the operation that the reset cut; `left` disturbs what it leaves (log entries 5, 29). -/
def finishCut (left : Disturb) (s : State) : Memory :=
  match s.cut with
  | none => s.flash
  | some (.erase k) =>
    s.flash.writeRun (imageSectorAddr k) (erased left (s.flash.readRun (imageSectorAddr k) sectorBytes))
  | some (.program r d) =>
    if allErased (s.flash.readRun (recordAddr r) recordBytes) then
      s.flash.writeRun (recordAddr r) (disturb left (recordImage d))
    else s.flash
  | some (.commit store) => s.flash.writeRun 0 (disturb left (sectorImage store))

/-- A slot as the load begins it: ABSENT when enabled, else VACANT (R27). -/
def bootSlot (t : Tables) (k : SlotId) : SlotStatus :=
  if t.slots[k].enabled then
    { SlotStatus.vacant with
      state := .absent
      cls := some (expectedLookup t.slots[k].expClass { State.reset with tables := t }) }
  else .vacant

/-- The duration of the settle timer in ms (R153). -/
def settleMs (code : Nat) : Nat :=
  match code with
  | 0 => 50
  | 1 => 100
  | 2 => 200
  | 3 => 400
  | _ => 800

/-- The line monitor starts: SETTLE with its timer where LINE is high, else GAP (R158). -/
def startLine (s : State) : State :=
  updLm (fun l =>
    if s.lineHigh then { l with line := .settle, settle := some (settleMs s.tables.settings.settleCode) }
    else { l with line := .gap, settle := none }) s

/-- Configuration tables installed, with the slots as the load begins them (R27, R179). -/
def install (t : Tables) (s : State) : State :=
  { s with tables := t, slots := ⟨⟨slotIds.map (bootSlot t)⟩, by simp [slotIds]⟩ }

/-- The tables that sector 0 gives, or the factory defaults with CONFIG_BAD (R179). -/
def loadTables (stored : Option Tables) (s : State) : State :=
  match stored with
  | some t => install t s
  | none => raise .configBad .none none (install .factory s)

/-- START_UP_LOAD_DONE: sector 0 is read, the tables are installed, the ports take frames, the line monitor starts, and enabled
slots begin in ABSENT (R158, R179). It comes about only in a start-up load. -/
def execStartUpLoadDone (left read : Disturb) (s : State) : Host.Outcome State Fault Refusal :=
  match s.phase with
  | .running => .next s
  | .starting =>
    let s := { s with flash := finishCut left s, cut := none }
    .next (finish (startLine { loadTables (readStore (disturb read (s.flash.readRun 0 storeBytes))) s with phase := .running }))

/-! ## Engine reset -/

/-- A slot at the engine reset: its session ended, its counts, flags, cause, tag and timer gone, its resolved class kept (R28). -/
def SlotStatus.engineReset (enabled : Bool) (x : SlotStatus) : SlotStatus :=
  { SlotStatus.vacant with state := if enabled then .absent else .vacant, cls := x.cls }

/-- The slots and the users counts at the engine reset (R28, R54). -/
def resetSlots (s : State) : State :=
  { s with
    slots := ⟨⟨slotIds.map (fun k => s.slots[k].engineReset s.tables.slots[k].enabled)⟩, by simp [slotIds]⟩
    catSt := vmap (fun c => { c with users := 0 }) s.catSt }

/-- The block cache and the flash reader at the engine reset: the fill queue emptied, a fill in flight left with no requester and no
flag, a scan read's data to be discarded (R93). -/
def resetCache (s : State) : State :=
  let s := updBc (fun c => { c with fills := [] }) s
  match s.reader with
  | .fill f => { s with reader := .fill { f with reqs := [], pin := false, pre := false, orphan := true } }
  | .scan _ => { s with reader := .scan false }
  | .idle | .erase _ | .program _ _ | .commit => s

/-- The frame an entry references is a MGMT-REPLY. -/
def isReply (s : State) (e : TxEntry) : Bool :=
  match s.pool[e.buf].frame with
  | some f => decide (f.kind = .mgmtReply)
  | none => false

/-- The trunk entries that the engine reset keeps: the one under transmission, which is the head, and MGMT-REPLY (R133). -/
def trunkKept (s : State) : List TxEntry :=
  match s.queues.trunk with
  | [] => []
  | e :: es => e :: es.filter (isReply s)

/-- The trunk entries that the engine reset removes (R133). -/
def trunkDropped (s : State) : List TxEntry := s.queues.trunk.tail.filter (fun e => !isReply s e)

/-- The queues at the engine reset, every removed entry releasing its reference, with no REFUSE (R28, R113, R126, R133). -/
def resetQueues (s : State) : State :=
  releaseAll (s.queues.hold.toList.flatten ++ outFlushed s ++ (trunkDropped s).map TxEntry.buf)
    (updQueues (fun q => { q with hold := Vector.replicate 32 [], out := outKept s, trunk := trunkKept s }) s)

/-- The segment scheduler at the engine reset (R113). -/
def resetSegment (s : State) : State :=
  closeTurn (updSeg (fun g => { g with debt := 0, ringCursor := 0, urgentCursor := 0, lastTurn := .urgent }) s)

/-- The permit requests cleared (R160, R164). -/
def clearRequests (s : State) : State := updLm (fun l => { l with requests := Vector.replicate 4 false }) s

/-- Both links absent (R180). -/
def clearLinks (s : State) : State :=
  updMa (fun a => { a with trunk := { a.trunk with link := none }, service := { a.service with link := none } }) s

/-- The long operation at the engine reset: ended with ABORTED, but for a flash operation the reader has started, which keeps
the slot until it completes (R70, R88, R176, R180, R192). A COMMIT answers the request BUSY, so none is met here (R178). A restart
mark that stands when a READ-RANGE ends here stays until the next READ-RANGE is accepted: R176, R180 and R182 do not say (log entry
35, DESIGN CHOICE). -/
def abortLong (s : State) : State :=
  match s.ma.long with
  | none => s
  | some l =>
    match l.job with
    | .readRange .. | .selfCheck _ => endLong .aborted [] s
    | .pin .. => endPin .aborted s
    | .erase k st _ => if st then setJob (.erase k true true) s else endLong .aborted [] s
    | .program r d st _ => if st then setJob (.program r d true true) s else endLong .aborted [] s
    | .commit _ => s

/-- The engine reset on every block (R180). It keeps the alternation pointer; the service it stands in turns it (R167, log entry 18). -/
def engineReset (s : State) : State :=
  abortLong (clearLinks (clearRequests (resetSegment (resetCache (resetQueues (resetSlots s))))))

/-! ## Ends of transmission on trunk and service link -/

/-- The end of the transmission of entry `e` on a port: its reference released, the frame counted, and the full reset taken where
it was the reply to FULL-RESET (R128, R129, R181). -/
def sent (p : Port) (e : TxEntry) (s : State) : State :=
  let s := countSent p (dropRef e.buf s)
  if e.resets then fullReset s else s

/-- TRUNK_TRANSMISSION_END: the head entry leaves; the next one, if any, is then under transmission (R128). -/
def execTrunkTransmissionEnd (s : State) : Host.Outcome State Fault Refusal :=
  match s.queues.trunk with
  | [] => .next s
  | e :: es => .next (finish (sent .trunk e (updQueues (fun q => { q with trunk := es }) s)))

/-- SERVICE_TRANSMISSION_END (R129). -/
def execServiceTransmissionEnd (s : State) : Host.Outcome State Fault Refusal :=
  match s.queues.service with
  | [] => .next s
  | e :: es => .next (finish (sent .service e (updQueues (fun q => { q with service := es }) s)))

end Sys2Proof.Machine
end

