-- ==== Sys2Proof/Machine/Line.lean ====
section
/-! DEFINITION. The line monitor (R151 to R157) and the timers of the slots (R22, R45), with the meanings of their rows. -/

namespace Sys2Proof.Machine

/-- The duration of the deglitch timer in ms (R152). -/
def deglitchMs (code : Nat) : Nat :=
  match code with
  | 0 => 1
  | 1 => 2
  | 2 => 5
  | 3 => 10
  | 4 => 20
  | _ => 50

/-- The level of the LINE pin. -/
def setLinePin (high : Bool) (s : State) : State := { s with lineHigh := high }

/-- A fall of LINE (R151): UP goes to DIP with the deglitch timer started, SETTLE back to GAP with the settle timer cancelled. -/
def lineFell (s : State) : State :=
  match s.lm.line with
  | .up => updLm (fun l => { l with line := .dip, deglitch := some (deglitchMs s.tables.settings.deglitchCode) }) s
  | .settle => updLm (fun l => { l with line := .gap, settle := none }) s
  | .dip | .gap => s

/-- LINE_FALLS. A change of LINE during a full reset and its load is no event; the level at the start decides (R158). -/
def execLineFalls (s : State) : Host.Outcome State Fault Refusal :=
  match s.phase with
  | .starting => .next (setLinePin false s)
  | .running => .next (finish (lineFell (setLinePin false s)))

/-- A rise of LINE (R151): DIP returns to UP and the dip count rises, GAP goes to SETTLE with the settle timer started. -/
def lineRose (s : State) : State :=
  match s.lm.line with
  | .dip => updLm (fun l => { l with line := .up, deglitch := none, dips := satAdd 65535 l.dips }) s
  | .gap => startLine s
  | .up | .settle => s

/-- LINE_RISES. -/
def execLineRises (s : State) : Host.Outcome State Fault Refusal :=
  match s.phase with
  | .starting => .next (setLinePin true s)
  | .running => .next (finish (lineRose (setLinePin true s)))

/-- The segment scheduler at gap confirmation: the silent flag set, the turn closed by the port's state (R95, R109). -/
def silence (s : State) : State := closeTurn (updSeg (fun g => { g with silent := true }) s)

/-- The gap confirmed (R155): the line state and the gap count, the slots to DARK (R18), the flushes (R110, R126), the scheduler
(R109) and the permit requests (R160). -/
def confirmGap (s : State) : State :=
  clearRequests (silence (flushGap (darkenAll
    (updLm (fun l => { l with line := .gap, deglitch := none, gaps := satAdd 65535 l.gaps }) s))))

/-- DEGLITCH_TIMER_EXPIRY: the timer runs in DIP alone (R151, R152). -/
def execDeglitchTimerExpiry (s : State) : Host.Outcome State Fault Refusal :=
  match s.lm.line with
  | .dip => .next (finish (confirmGap s))
  | .up | .gap | .settle => .next s

/-- Line up at the segment scheduler: every miss count 0, the silent flag clear, the port out of SILENT (R94, R111). -/
def lineUp (s : State) : State :=
  updSeg (fun g => { g with silent := false, port := if g.port = .silent then .free else g.port })
    { s with slots := vmap (fun x => { x with miss := 0 }) s.slots }

/-- SETTLE_TIMER_EXPIRY: the timer runs in SETTLE alone (R151, R153, R156). -/
def execSettleTimerExpiry (s : State) : Host.Outcome State Fault Refusal :=
  match s.lm.line with
  | .settle => .next (finish (lineUp (updLm (fun l => { l with line := .up, settle := none }) s)))
  | .up | .dip | .gap => .next s

/-- RETRY_TIMER_EXPIRY of slot `k`: BACKOFF to ABSENT with REBOOT_PENDING, reason retry (R22). -/
def execRetryTimerExpiry (k : SlotId) (s : State) : Host.Outcome State Fault Refusal :=
  if s.slots[k].retryTimer.isSome then
    .next (finish (updSlot k (fun x => { x with state := .absent, reboot := some .retry, retryTimer := none }) s))
  else .next s

/-- STAGE_TIMER_EXPIRY of slot `k`: its session ends with STALLED (R45). -/
def execStageTimerExpiry (k : SlotId) (s : State) : Host.Outcome State Fault Refusal :=
  if s.slots[k].session.any (fun x => x.timer.isSome) then .next (finish (failSlot k .stalled s)) else .next s

end Sys2Proof.Machine
end

