-- ==== Sys2Proof/Machine/FlashReader.lean ====
section
/-! DEFINITION. The flash reader: what it starts next (R79, R81), the end of a fill (R82 to R85, R93), and the ends of the management
flash operations (R68, R69, R70, R178). -/

namespace Sys2Proof.Machine

/-! ## Starting work (R79, R81) -/

/-- The queued fill with the lowest rank, and among equal ranks the oldest (R79). -/
def nextFill : List FillEntry → Option FillEntry
  | [] => none
  | e :: es =>
    match nextFill es with
    | some f => if f.rank < e.rank then some f else some e
    | none => some e

/-- The record that the catalogue's windows give for a block at a fill's start (R56, R81); 0 where the block has none, which no
queued entry meets (log entry 28). -/
def recordOf (i : ImageId) (b : Nat) (s : State) : Nat :=
  match s.tables.cat[i].supply b with
  | .record r => r
  | .outside | .fill => 0

/-- The fill of entry `e` starts in line `l` (R74, R81): the entry leaves the queue, the line is FILLING and out of the recency
order, and the PIN waiting list takes the freed room. -/
def startFill (e : FillEntry) (l : LineId) (s : State) : State :=
  placeWaiting
    { updBc (fun c => { c with
        fills := c.fills.erase e
        lines := c.lines.set l (.filling e.img e.blk false)
        recency := c.recency.erase l }) s with
      reader := .fill ⟨l, e.img, e.blk, recordOf e.img e.blk s, e.reqs, e.pin, e.pre, false, false⟩ }

/-- A management flash operation that waits is started, else the next scan read of a running SELF-CHECK (R79). -/
def startLong (s : State) : State :=
  match s.ma.long with
  | none => s
  | some l =>
    match l.job with
    | .commit false => { setJob (.commit true) s with reader := .commit }
    | .erase k false a => { setJob (.erase k true a) s with reader := .erase k }
    | .program r d false a => { setJob (.program r d true a) s with reader := .program r d }
    | .selfCheck _ => { s with reader := .scan true }
    | .commit true | .erase _ true _ | .program _ _ true _ | .readRange .. | .pin .. => s

/-- The reader, idle, starts its next work by priority (R79). -/
def startWork (s : State) : State :=
  match nextFill s.bc.fills with
  | none => startLong s
  | some e =>
    match victim e.avoid s with
    | some l => startFill e l s
    | none => s

/-- FLASH_READER_START: only an idle reader starts work; a re-read starts in the event of the failed read (R79, R83). -/
def execFlashReaderStart (s : State) : Host.Outcome State Fault Refusal :=
  match s.reader with
  | .idle => .next (finish (startWork s))
  | .fill _ | .erase _ | .program _ _ | .commit | .scan _ => .next s

/-! ## The end of a fill (R82 to R85, R93) -/

/-- The reader becomes idle. -/
def idleReader (s : State) : State := { s with reader := .idle }

/-- The fill ends with its line EMPTY, and its completion is reported (R32, R82, R85, R93). -/
def fillEmpty (f : Fill) (s : State) : State := requestAll (emptyLine f.line (idleReader s))

/-- The recency order with a line just filled: the most recent place where the fill is wanted, else the least recent (R73). -/
def landing (f : Fill) (r : List LineId) : List LineId :=
  if !f.reqs.isEmpty || f.pin || f.pre then r.erase f.line ++ [f.line] else f.line :: r.erase f.line

/-- The fill lands: the line VALID with the data read, pinned where the fill carries pin-on-complete, and the completion
reported (R32, R73, R82, R87). -/
def fillValid (f : Fill) (data : List Byte) (s : State) : State :=
  let s := updBc (fun c => { c with
    lines := c.lines.set f.line (.valid f.img f.blk false data), recency := landing f c.recency }) (idleReader s)
  requestAll (if f.pin then pinDone (pinLine f.line s) else s)

/-- The block of a leftover fill that a running PIN has joined goes back to its waiting list, in ascending order, and takes queue
room if there is some (R87, log entry 15). -/
def returnPin (f : Fill) (s : State) : State :=
  if f.pin then
    placeWaiting (setWaiting ((pinWaiting s).filter (· < f.blk) ++ f.blk :: (pinWaiting s).filter (f.blk < ·)) s)
  else s

/-- A fill left over from an engine reset whose read check fails, first or second: its line EMPTY, no re-read, no BAD marking,
its completion reported (R93, log entries 15 and 16). -/
def leftoverFailed (f : Fill) (s : State) : State := requestAll (returnPin f (emptyLine f.line (idleReader s)))

/-- A second failed read check: steps 1 to 8 of R84. -/
def fillBad (f : Fill) (s : State) : State := requestAll (markBad f.img (emptyLine f.line (idleReader s)))

/-- The FILLING line of a fill carries the discard mark. -/
def isDiscarded (f : Fill) (s : State) : Bool := decide (s.bc.lines[f.line] = .filling f.img f.blk true)

/-- The end of a read of the fill in flight, whose 130 bytes are `bs` (R82 to R85, R93). -/
def judgeFill (f : Fill) (bs : List Byte) (s : State) : State :=
  if isDiscarded f s then fillEmpty f s
  else if recordGood bs then
    if s.catSt[f.img].bad then fillEmpty f s else fillValid f (bs.take 128) s
  else if f.orphan then leftoverFailed f s
  else if f.reread then fillBad f s
  else { s with reader := .fill { f with reread := true } }

/-- FILL_READ_END: the 130 bytes of the record, disturbed by `read`, are judged (R66, R82). -/
def execFillReadEnd (read : Disturb) (s : State) : Host.Outcome State Fault Refusal :=
  match s.reader with
  | .fill f => .next (finish (judgeFill f (disturb read (s.flash.readRun (recordAddr f.record) recordBytes)) s))
  | .idle | .erase _ | .program _ _ | .commit | .scan _ => .next s

/-! ## The ends of the management flash operations -/

/-- The result of a flash operation: ABORTED after an engine reset, else by its read-back (R68, R69, R70). -/
def flashStatus (ok : Bool) (s : State) : Status :=
  match s.ma.long with
  | some ⟨_, .erase _ _ true⟩ | some ⟨_, .program _ _ _ true⟩ => .aborted
  | _ => if ok then .ok else .writeFailed

/-- The operation has ended on the flash: the reader is idle, the reply is built, the slot is free (R168). -/
def flashDone (ok : Bool) (flash : Memory) (s : State) : State :=
  endLong (flashStatus ok s) [] { idleReader s with flash := flash }

/-- Image sector `k` erased, but for the bits marked `kept`; and whether its first 4,030 bytes, disturbed by `read`, are all
0xFF (R68). -/
def eraseSector (kept read : Disturb) (k : Nat) (m : Memory) : Bool × Memory :=
  let m' := m.writeRun (imageSectorAddr k) (erased kept (m.readRun (imageSectorAddr k) sectorBytes))
  (allErased (disturb read (m'.readRun (imageSectorAddr k) sectorRecordBytes)), m')

/-- ERASE_SECTOR_DONE (R68, R70). -/
def execEraseSectorDone (kept read : Disturb) (s : State) : Host.Outcome State Fault Refusal :=
  match s.reader with
  | .erase k => let r := eraseSector kept read k s.flash; .next (finish (flashDone r.1 r.2 s))
  | .idle | .fill _ | .program _ _ | .commit | .scan _ => .next s

/-- Record `r` programmed with `d` where its blank read finds it erased; and whether it was, and reads back as programmed (R69). -/
def programRecord (blank prog back : Disturb) (r : Nat) (d : List Byte) (m : Memory) : Bool × Memory :=
  if allErased (disturb blank (m.readRun (recordAddr r) recordBytes)) then
    let m' := m.writeRun (recordAddr r) (disturb prog (recordImage d))
    (decide (disturb back (m'.readRun (recordAddr r) recordBytes) = recordImage d), m')
  else (false, m)

/-- WRITE_RECORD_DONE (R69, R70). -/
def execWriteRecordDone (blank prog back : Disturb) (s : State) : Host.Outcome State Fault Refusal :=
  match s.reader with
  | .program r d => let x := programRecord blank prog back r d s.flash; .next (finish (flashDone x.1 x.2 s))
  | .idle | .fill _ | .erase _ | .commit | .scan _ => .next s

/-- Sector 0 erased and programmed with a store; and whether it reads back as programmed (R178). -/
def commitStore (prog back : Disturb) (store : List Byte) (m : Memory) : Bool × Memory :=
  let m' := m.writeRun 0 (disturb prog (sectorImage store))
  (decide (disturb back (m'.readRun 0 store.length) = store), m')

/-- COMMIT_DONE (R177, R178). -/
def execCommitDone (prog back : Disturb) (s : State) : Host.Outcome State Fault Refusal :=
  match s.reader with
  | .commit => let r := commitStore prog back s.tables.store s.flash; .next (finish (flashDone r.1 r.2 s))
  | .idle | .fill _ | .erase _ | .program _ _ | .scan _ => .next s

end Sys2Proof.Machine
end

