-- ==== Sys2Proof/Machine/SelfCheck.lean ====
section
/-! DEFINITION. SELF-CHECK (R189 to R192): the checks in ascending order, the scan reads, and the mismatch. -/

namespace Sys2Proof.Machine

/-- SELF-CHECK at its acceptance: check 1, nothing failed (R189). -/
def SelfCheck.start : SelfCheck := ⟨1, 0, crc32Init, false, none⟩

/-- The check that follows, at its start (R189, R190). -/
def SelfCheck.next (c : SelfCheck) : SelfCheck := { c with check := c.check + 1, pos := 0, crc := crc32Init, idOk := false }

/-- The check under way has failed: the lowest failed check is recorded (R189). -/
def SelfCheck.fail (c : SelfCheck) : SelfCheck := { c with lowest := some (c.lowest.getD c.check) }

/-- SELF-CHECK ends: OK with the number of the lowest failed check, or 0 (R192). -/
def endSelfCheck (c : SelfCheck) (s : State) : State := endLong .ok [byte (c.lowest.getD 0)] s

/-- Blocks from the position on that are fill blocks contribute zeros and are not read (R190). -/
def skipFills (e : CatEntry) : Nat → SelfCheck → SelfCheck
  | 0, c => c
  | n + 1, c =>
    if e.supply c.pos = .fill then skipFills e n { c with pos := c.pos + 1, crc := crc32Step c.crc zeroBlock } else c

/-- An image mismatch: entry `i` is marked BAD, steps 2 to 7 of R84, and sessions repeat their requests where entries were
withdrawn (R78, R191). -/
def mismatch (i : ImageId) (s : State) : State := if hasFills i s then requestAll (markBad i s) else markBad i s

/-- The catalogue entry that a check from 3 on concerns (R189). -/
def SelfCheck.image (c : SelfCheck) : ImageId := Fin.ofNat 16 (c.check - 3)

/-- The image checks from the one under way on, as far as they go without a read; `n` counts the checks that remain (R190, R192). -/
def runChecks : Nat → SelfCheck → State → State
  | 0, c, s => endSelfCheck c s
  | n + 1, c, s =>
    let e := s.tables.cat[c.image]
    if e.valid then
      let c := skipFills e (e.length - c.pos) c
      if c.pos < e.length then setJob (.selfCheck c) s
      else if ~~~c.crc = e.check then runChecks n c.next s
      else runChecks n c.fail.next (mismatch c.image s)
    else runChecks n c.next s

/-- The checks that remain, the one under way included. -/
def SelfCheck.left (c : SelfCheck) : Nat := 19 - c.check

/-- The capacity code read (R189). -/
def scanIdentity (read : Disturb) (c : SelfCheck) (s : State) : State :=
  if disturb read [Config.capacityCode] = [Config.capacityCode] then setJob (.selfCheck c.next) s
  else endSelfCheck c.fail s

/-- One read of the store: at most 130 bytes from the position on (R189, log entry 24); the identifier most significant
byte first (log entry 31). -/
def scanStore (read : Disturb) (c : SelfCheck) (s : State) : State :=
  let n := min recordBytes (storeBytes - c.pos)
  let data := disturb read (s.flash.readRun c.pos n)
  let idOk := if c.pos = 0 then decide (rd32 data 0 = Config.storeId) else c.idOk
  let crc := crc32Step c.crc (data.take (storeBodyBytes - c.pos))
  if c.pos + n < storeBytes then setJob (.selfCheck { c with pos := c.pos + n, crc := crc, idOk := idOk }) s
  else
    let passed := idOk && decide (rd32 data (storeBodyBytes - c.pos) = ~~~crc)
    runChecks (c.left - 1) (if passed then c.next else c.fail.next) s

/-- One block of an image: its 128 data bytes as read, the record's own check not judged (R190). -/
def scanBlock (read : Disturb) (c : SelfCheck) (s : State) : State :=
  let data := disturb read (s.flash.readRun (recordAddr (recordOf c.image c.pos s)) recordBytes)
  runChecks c.left { c with pos := c.pos + 1, crc := crc32Step c.crc (data.take 128) } s

/-- The data of a scan read taken by the check under way (R189, R190). -/
def scanned (read : Disturb) (c : SelfCheck) (s : State) : State :=
  match c.check with
  | 1 => scanIdentity read c s
  | 2 => scanStore read c s
  | _ => scanBlock read c s

/-- SCAN_READ_END: the data goes to SELF-CHECK, or is discarded where the check it was read for no longer runs (R93, R192). -/
def execScanReadEnd (read : Disturb) (s : State) : Host.Outcome State Fault Refusal :=
  match s.reader with
  | .scan live =>
    let s := idleReader s
    .next (finish (match live, s.ma.long with
      | true, some ⟨_, .selfCheck c⟩ => scanned read c s
      | _, _ => s))
  | .idle | .fill _ | .erase _ | .program _ _ | .commit => .next s

/-- A scan read in flight is for a check begun again: its data is discarded (R190, log entry 23). -/
def dropScan (s : State) : State :=
  match s.reader with
  | .scan _ => { s with reader := .scan false }
  | .idle | .fill _ | .erase _ | .program _ _ | .commit => s

/-- An accepted write to catalogue entry `i` while its check runs: the check begins again, or passes at once (R190). -/
def restartCheck (i : ImageId) (s : State) : State :=
  match s.ma.long with
  | some ⟨_, .selfCheck c⟩ =>
    if c.check = 3 + i.val then runChecks c.left { c with pos := 0, crc := crc32Init } (dropScan s) else s
  | _ => s

end Sys2Proof.Machine
end

