-- ==== Sys2Proof/Machine/Tables.lean ====
section
/-! DEFINITION. Reads and writes of the management tables (R170 to R174): the validation and the owning effects of each write (R1 to
R4, R9, R11, R59 to R62, R119, R138, R171). -/

namespace Sys2Proof.Machine

/-- The table is one of R170 and the index is in its range. -/
def inTable (t i : Nat) : Bool := (isConfig t || isReadOnly t) && decide (i < tableCount t)

/-! ## Table 0 (R124, R171) -/

/-- One entry trimmed from slot `k`'s hold queue: a station frame is answered HOLD_FULL, a hold copy is released and counted as
hold-missed (R124). -/
def trimEntry (k : SlotId) (b : BufId) (s : State) : State :=
  match s.pool[b].frame with
  | some f =>
    if isStation f.dst then refuseEntry .holdFull b s
    else dropRef b (updSlot k (fun x => { x with holdMissed := satAdd 255 x.holdMissed }) s)
  | none => dropRef b s

/-- Slot `k`'s hold queue trimmed from its tail to `h` entries (R124; a buffer freed on the way, log entry 34). -/
def trimHold (h : Nat) (k : SlotId) (s : State) : State :=
  ((s.queues.hold[k].drop h).reverse).foldl (fun s b => trimEntry k b s)
    (updQueues (fun q => { q with hold := vmod q.hold k (List.take h) }) s)

/-- The slots whose hold queue is longer than `h`. -/
def longHolds (h : Nat) (s : State) : List SlotId := slotIds.filter (fun k => decide (h < s.queues.hold[k].length))

/-- The settings entry replaced; a lower H trims the hold queues at once, in a free order among slots (R124, R171; log entry 6). -/
def setSettings (e : Settings) (s : State) : State :=
  let s := { s with tables := { s.tables with settings := e } }
  forFree (longHolds e.holdDepth s) (trimHold e.holdDepth) s

/-! ## Table 1 (R9, R11) -/

/-- The slots whose resolved class index is `c`. -/
def slotsOfClass (c : ClassId) (s : State) : List SlotId := slotIds.filter (fun k => decide (s.slots[k].cls = some c))

/-- The effects of a class write on a slot of the class (R11). -/
def touchClass (relaid : Bool) (k : SlotId) (s : State) : State :=
  let s := updSlot k (fun x => { x with retry := 0 }) s
  if relaid then setCtx k .empty s else s

/-- A valid write to class entry `c` (R11). -/
def setClassEntry (c : ClassId) (e : ClassEntry) (s : State) : Status × State :=
  if (slotsOfClass c s).any (isRestoring s) then (.inUse, s)
  else
    (.ok, (slotsOfClass c s).foldl (fun s' k => touchClass (decide (e.layout ≠ s.tables.classes[c].layout)) k s')
      { s with tables := { s.tables with classes := s.tables.classes.set c e } })

/-! ## Table 2 (R1 to R4) -/

/-- Another enabled slot holds the address (R1). -/
def addrTaken (k : SlotId) (a : Byte) (s : State) : Bool :=
  slotIds.any (fun j => decide (j ≠ k) && s.tables.slots[j].enabled && decide (s.tables.slots[j].addr = a))

/-- A slot with its counts, flags, cause, tag and timer gone; the hold-missed count is kept (R2, R3, R4). -/
def SlotStatus.cleared (x : SlotStatus) (st : SlotState) (cls : Option ClassId) : SlotStatus :=
  { SlotStatus.vacant with state := st, cls := cls, holdMissed := x.holdMissed }

/-- Slot `k` enters ABSENT anew, by enabling or by a change of its node address (R2, R4). -/
def freshSlot (k : SlotId) (e : SlotEntry) (s : State) : State :=
  setCtx k .empty (updSlot k (fun x => x.cleared .absent (some (expectedLookup e.expClass s))) s)

/-- Slot `k` goes out of service (R3). -/
def retireSlot (k : SlotId) (s : State) : State := setCtx k .empty (updSlot k (fun x => x.cleared .vacant none) s)

/-- The write disables the slot or changes its node address: a turn open for the slot becomes void (R105, log
entry 19). -/
def voids (old e : SlotEntry) : Bool := old.enabled && !e.enabled || decide (old.addr ≠ e.addr)

/-- The effects of a slot write on the slot, by the fields it changes (R2, R3, R4). -/
def slotEffects (k : SlotId) (old e : SlotEntry) (s : State) : State :=
  if e.enabled then
    if !old.enabled || decide (old.addr ≠ e.addr) then freshSlot k e s
    else if decide (old.expClass ≠ e.expClass) && decide (s.slots[k].state ≠ .running) then
      setClass k (expectedLookup e.expClass s) s
    else s
  else if old.enabled then retireSlot k s
  else s

/-- A slot write whose fields are in range (R1). -/
def setSlotEntry (k : SlotId) (e : SlotEntry) (s : State) : Status × State :=
  if e.enabled && addrTaken k e.addr s then (.badValue, s)
  else if isRestoring s k then (.inUse, s)
  else
    let old := s.tables.slots[k]
    let s := slotEffects k old e { s with tables := { s.tables with slots := s.tables.slots.set k e } }
    (.ok, if voids old e then voidTurn k s else s)

/-! ## Table 3 (R59 to R62) -/

/-- An enabled window covers a record of image sector `k` (R60, R67). -/
def Window.meets (k : Nat) (w : Window) : Bool :=
  w.enable && decide (w.base ≤ 31 * k + 30) && decide (31 * k ≤ w.base + (w.last - w.first))

/-- A valid entry covers a record of image sector `k` (R60, R67). -/
def CatEntry.meets (k : Nat) (e : CatEntry) : Bool := e.valid && e.windows.toList.any (Window.meets k)

/-- The image sector of an accepted ERASE-SECTOR or WRITE-RECORD that has not yet replied (R60). -/
def busySector (s : State) : Option Nat :=
  match s.ma.long with
  | some ⟨_, .erase k _ _⟩ => some k
  | some ⟨_, .program r _ _ _⟩ => some (r / 31)
  | _ => none

/-- The RUNNING slots whose image is entry `i` and whose expected tag differs from `tag` (R62). -/
def outdated (i : ImageId) (tag : Word32) (s : State) : List SlotId :=
  slotIds.filter (fun k => decide (s.slots[k].state = .running) && decide (imageOf k s = some i)
    && decide (s.slots[k].expTag ≠ some tag))

/-- A slot runs an image that a catalogue write has replaced (R62). -/
def outdate (tag : Word32) (k : SlotId) (s : State) : State :=
  let t := updSlot k (fun x => { x with expTag := some tag, stale := true }) s
  if s.slots[k].stale then t else raise .stale (.slot k) none t

/-- A valid write to catalogue entry `i` (R60, R61, R62, R190). The order among the slots it makes STALE is free (log entry 6). That the
STALE reports come before what a check begun again does, where that ends at once with a mismatch (R191), is the model's choice (log
entry 32, DESIGN CHOICE). -/
def setCatEntry (i : ImageId) (e : CatEntry) (s : State) : Status × State :=
  if 0 < s.catSt[i].users ∨ (busySector s).any (fun k => e.meets k) = true then (.inUse, s)
  else
    let s := dropImage i (updCat i (fun c => { c with bad := false })
      { s with tables := { s.tables with cat := s.tables.cat.set i e } })
    let s := if e.valid then forFree (outdated i e.tag s) (outdate e.tag) s else s
    (.ok, restartCheck i s)

/-! ## Writes (R172 to R174) -/

/-- A write judged by its owner, with its effects (step 3 of R172). -/
def writeConfig (t i : Nat) (entry : List Byte) (s : State) : Status × State :=
  match t with
  | 0 =>
    match Settings.decode entry with
    | some e => (.ok, setSettings e s)
    | none => (.badValue, s)
  | 1 =>
    match finAt 8 i, ClassEntry.decode entry with
    | some c, some e => setClassEntry c e s
    | _, _ => (.badValue, s)
  | 2 =>
    match finAt 32 i, SlotEntry.decode entry with
    | some k, some e => setSlotEntry k e s
    | _, _ => (.badValue, s)
  | 3 =>
    match finAt 16 i, CatEntry.decode entry with
    | some k, some e => setCatEntry k e s
    | _, _ => (.badValue, s)
  | 4 =>
    match finAt 48 i, FwdRule.decode entry with
    | some k, some e => (.ok, { s with tables := { s.tables with fwd := s.tables.fwd.set k e } })
    | _, _ => (.badValue, s)
  | 5 =>
    match finAt 32 i, CapRule.decode entry with
    | some k, some e => (.ok, { s with tables := { s.tables with cap := s.tables.cap.set k e } })
    | _, _ => (.badValue, s)
  | _ => (.badValue, s)

/-- The links on an entry become absent (R173). -/
def OriginRec.unlink (n : EntryName) (r : OriginRec) : OriginRec := if r.link = some n then { r with link := none } else r

/-- A READ-RANGE runs over table `t` (R176). -/
def readsTable (t : Nat) (s : State) : Bool :=
  match s.ma.long with
  | some ⟨_, .readRange t' _ _⟩ => decide (t' = t)
  | _ => false

/-- The agent's part of an accepted write: links on the entry cleared, the restart mark set (R172, R173, R176). -/
def noteWrite (t i : Nat) (s : State) : State :=
  updMa (fun a => { a with
    trunk := a.trunk.unlink ⟨t, i⟩, service := a.service.unlink ⟨t, i⟩
    restartMark := a.restartMark || readsTable t s }) s

/-- A write carried out once tables, COMMIT and index have been checked (R172, R174). -/
def carryOut (o : Origin) (t i : Nat) (entry : List Byte) (s : State) : State :=
  match writeConfig t i entry s with
  | (.ok, s) => reply o .ok (noteWrite t i s)
  | (st, s) => reply o st s

/-- The checks of R172 and R174 before the owner's or the link test: the status of a refusal. -/
def writeRefusal (t i : Nat) (s : State) : Option Status :=
  if isReadOnly t then some .notAllowed
  else if isConfig t && commitRuns s then some .busy
  else if !inTable t i then some .badValue
  else none

/-- WRITE-ENTRY's work (R172). -/
def doWriteEntry (o : Origin) (a : List Byte) (s : State) : State :=
  match writeRefusal (rd8 a 0) (rd8 a 1) s with
  | some st => reply o st s
  | none => carryOut o (rd8 a 0) (rd8 a 1) (a.drop 2) s

/-- WRITE-COND's work (R174): the link test, which makes the origin's link absent whatever its outcome. -/
def doWriteCond (o : Origin) (a : List Byte) (s : State) : State :=
  match writeRefusal (rd8 a 0) (rd8 a 1) s with
  | some st => reply o st s
  | none =>
    let linked := decide ((s.ma.origin o).link = some ⟨rd8 a 0, rd8 a 1⟩)
    let s := updOrigin o (fun r => { r with link := none }) s
    if linked then carryOut o (rd8 a 0) (rd8 a 1) (a.drop 2) s else reply o .linkLost s

/-! ## Reads (R170, R173, R175) -/

/-- The data of a READ-ENTRY or READ-LINK reply (R197). -/
def entryData (t i : Nat) (s : State) : List Byte := [byte t, byte i] ++ encodeEntry t i s

/-- READ-ENTRY's work (R170). -/
def doReadEntry (o : Origin) (a : List Byte) (s : State) : State :=
  if inTable (rd8 a 0) (rd8 a 1) then replyOk o (entryData (rd8 a 0) (rd8 a 1) s) s else reply o .badValue s

/-- READ-LINK's work (R173). -/
def doReadLink (o : Origin) (a : List Byte) (s : State) : State :=
  if isReadOnly (rd8 a 0) then reply o .notAllowed s
  else if inTable (rd8 a 0) (rd8 a 1) then
    replyOk o (entryData (rd8 a 0) (rd8 a 1) s) (updOrigin o (fun r => { r with link := some ⟨rd8 a 0, rd8 a 1⟩ }) s)
  else reply o .badValue s

/-- READ-RANGE's acceptance (R175). -/
def doReadRange (o : Origin) (a : List Byte) (s : State) : State :=
  if (rd8 a 1 ≤ rd8 a 2) ∧ inTable (rd8 a 0) (rd8 a 2) = true then
    accept o (.readRange (rd8 a 0) (rd8 a 1) (rd8 a 2)) (updMa (fun m => { m with restartMark := false }) s)
  else reply o .badValue s

/-- The number of entries of a full READ-RANGE frame: the largest, at most 8, that fits 237 data bytes (R197). -/
def perFrame (t : Nat) : Nat := min 8 (236 / (1 + (entrySize t).getD 0))

/-- The data of a READ-RANGE frame: the table, then each entry with its index (R197). -/
def rangeData (t next n : Nat) (s : State) : List Byte :=
  byte t :: (List.range n).flatMap (fun k => byte (next + k) :: encodeEntry t (next + k) s)

/-- The next frame of a READ-RANGE (R175, R176): status, more flag, data. -/
def rangeFrame (t next last : Nat) (s : State) : Status × Bool × List Byte :=
  if s.ma.restartMark then (.restart, false, [])
  else
    let n := min (perFrame t) (last + 1 - next)
    (.ok, decide (next + n ≤ last), rangeData t next n s)

/-- After a frame is placed: the read goes on, or has ended, with the slot free, the origin IDLE and the restart mark
clear (R175; the mark after a read, log entry 35). -/
def afterFrame (o : Origin) (t next last : Nat) (more : Bool) (s : State) : State :=
  if more then setJob (.readRange t (next + perFrame t) last) s
  else updOrigin o OriginRec.done (setLong none (updMa (fun a => { a with restartMark := false }) s))

/-- A frame of a READ-RANGE is built and placed when a buffer is free, its queue has room, and no built reply whose queue has room
waits (R118, R175). -/
def sendRange (o : Origin) (t next last : Nat) (s : State) : State :=
  if txRoom o s && !(s.ma.replies.any (fun r => txRoom r.origin s)) then
    match (s.ma.origin o).req with
    | none => s
    | some q =>
      let r := rangeFrame t next last s
      match alloc (replyFrame q r.1 r.2.1 r.2.2 s) s with
      | none => s
      | some (b, s) => afterFrame o t next last r.2.1 (pushTx o ⟨b, false⟩ s)
  else s

end Sys2Proof.Machine
end

