-- ==== Sys2Proof/Machine/Requests.lean ====
section
/-! DEFINITION. The meanings of the rows that the management agent takes: the internal rows that place replies, READ-RANGE frames and
waiting pins, and one row per request (chapter 9, with R23 to R25, R67 to R69, R86 to R91, R144, R145, R160, R186 to R192). -/

namespace Sys2Proof.Machine

/-! ## Rows without a request -/

/-- PLACE_WAITING_REPLY: the oldest built reply whose queue has room takes a free buffer (R118, R166). -/
def execPlaceWaitingReply (s : State) : Host.Outcome State Fault Refusal := .next (finish (placeOne s))

/-- READ_RANGE_FRAME: the next frame of a running READ-RANGE (R175, R176). -/
def execReadRangeFrame (s : State) : Host.Outcome State Fault Refusal :=
  match s.ma.long with
  | none => .next s
  | some l =>
    match l.job with
    | .readRange t next last => .next (finish (sendRange l.origin t next last s))
    | .commit _ | .pin _ _ | .erase _ _ _ | .program _ _ _ _ | .selfCheck _ => .next s

/-- PIN_WAITING_PLACE: a running PIN's waiting list takes freed queue room (R87). -/
def execPinWaitingPlace (s : State) : Host.Outcome State Fault Refusal := .next (finish (placeWaiting s))

/-! ## Tables (R170 to R176) -/

def execReadEntry (s : State) : Host.Outcome State Fault Refusal := .next (finish (serveRow .readEntry doReadEntry s))

def execReadLink (s : State) : Host.Outcome State Fault Refusal := .next (finish (serveRow .readLink doReadLink s))

def execWriteEntry (s : State) : Host.Outcome State Fault Refusal := .next (finish (serveRow .writeEntry doWriteEntry s))

def execWriteCond (s : State) : Host.Outcome State Fault Refusal := .next (finish (serveRow .writeCond doWriteCond s))

def execReadRange (s : State) : Host.Outcome State Fault Refusal := .next (finish (serveRow .readRange doReadRange s))

/-! ## Context (R144, R145) -/

/-- SET-CONTEXT on a slot and a field of the ranges (R144). -/
def setContext (o : Origin) (k : SlotId) (f : FieldId) (v : List Byte) (s : State) : State :=
  if s.slots[k].state = .vacant then reply o .notAllowed s
  else if fieldLen k f s = 0 ∨ v.length ≠ fieldLen k f s then reply o .badValue s
  else reply o .ok (storeField k f v s)

/-- SET-CONTEXT's work (R144). -/
def doSetContext (o : Origin) (a : List Byte) (s : State) : State :=
  match finAt 32 (rd8 a 0), finAt 16 (rd8 a 1) with
  | some k, some f => setContext o k f (a.drop 2) s
  | _, _ => reply o .badValue s

/-- The work of a request that names one slot; a slot above 31 is BAD_VALUE (R196). -/
def onSlot (f : Origin → SlotId → State → State) (o : Origin) (a : List Byte) (s : State) : State :=
  match finAt 32 (rd8 a 0) with
  | some k => f o k s
  | none => reply o .badValue s

/-- CLEAR-CONTEXT (R145). -/
def clearContext (o : Origin) (k : SlotId) (s : State) : State := reply o .ok (setCtx k .empty s)

def execSetContext (s : State) : Host.Outcome State Fault Refusal := .next (finish (serveRow .setContext doSetContext s))

def execClearContext (s : State) : Host.Outcome State Fault Refusal :=
  .next (finish (serveRow .clearContext (onSlot clearContext) s))

/-! ## Permits and slots (R23 to R25, R160) -/

/-- PERMIT's work (R160). -/
def doPermit (o : Origin) (a : List Byte) (s : State) : State :=
  match finAt 4 (rd8 a 0), rdFlag a 1 with
  | some g, some on => reply o .ok (updLm (fun l => { l with requests := l.requests.set g on }) s)
  | _, _ => reply o .badValue s

/-- RELOAD (R25). -/
def reload (o : Origin) (k : SlotId) (s : State) : State :=
  match s.slots[k].state with
  | .running | .absent | .dark =>
    reply o .ok (updSlot k (fun x => { x with reboot := some .reload, reloadExpected := true }) s)
  | .vacant | .loading | .starting | .context | .backoff | .failed => reply o .notAllowed s

/-- CLEAR (R23). -/
def clearSlot (o : Origin) (k : SlotId) (s : State) : State :=
  match s.slots[k].state with
  | .failed => reply o .ok (updSlot k (fun x => { x with state := .absent, retry := 0, reboot := some .clear }) s)
  | .vacant | .absent | .dark | .loading | .starting | .context | .running | .backoff => reply o .notAllowed s

/-- CLEAR-RETRIES (R24). -/
def clearRetries (o : Origin) (k : SlotId) (s : State) : State := reply o .ok (updSlot k (fun x => { x with retry := 0 }) s)

def execPermit (s : State) : Host.Outcome State Fault Refusal := .next (finish (serveRow .permit doPermit s))

def execReload (s : State) : Host.Outcome State Fault Refusal := .next (finish (serveRow .reload (onSlot reload) s))

def execClear (s : State) : Host.Outcome State Fault Refusal := .next (finish (serveRow .clear (onSlot clearSlot) s))

def execClearRetries (s : State) : Host.Outcome State Fault Refusal :=
  .next (finish (serveRow .clearRetries (onSlot clearRetries) s))

/-! ## Pins, prefetch, invalidation (R86 to R91) -/

/-- The block numbers from `first` to `last`. -/
def blockRange (first last : Nat) : List Nat := (List.range (last + 1 - first)).map (first + ·)

/-- A pinned line holds block (i, b). -/
def heldPinned (i : ImageId) (b : Nat) (s : State) : Bool :=
  s.bc.lines.toList.any (fun l => l.isBlock i b && l.isPinned)

/-- The blocks that a PIN counts (R86). -/
def pinCounted (i : ImageId) (first last : Nat) (s : State) : List Nat :=
  (blockRange first last).filter (fun b => isWindowed i b s && !heldPinned i b s)

/-- The range of a PIN or UNPIN: the index at most 15, first at most last, last at most 4095 (R86, R89). -/
def pinRange (a : List Byte) : Option (ImageId × Nat × Nat) :=
  if rd16 a 1 ≤ rd16 a 3 ∧ rd16 a 3 ≤ 4095 then (finAt 16 (rd8 a 0)).map (fun i => (i, rd16 a 1, rd16 a 3)) else none

/-- A PIN in range (R86, R87). -/
def startPin (o : Origin) (i : ImageId) (first last : Nat) (s : State) : State :=
  let bs := pinCounted i first last s
  if !s.tables.cat[i].valid || s.catSt[i].bad then reply o .imageBad s
  else if Config.pinMax < pinnedCount s + s.bc.reservation + bs.length then reply o .noRoom s
  else pinDone (pinBlocks i bs (updBc (fun c => { c with reservation := bs.length }) (accept o (.pin i []) s)))

/-- PIN's work (R86, R87). -/
def doPin (o : Origin) (a : List Byte) (s : State) : State :=
  match pinRange a with
  | some (i, first, last) => startPin o i first last s
  | none => reply o .badValue s

/-- Block number in a range. -/
def within (first last b : Nat) : Bool := decide (first ≤ b) && decide (b ≤ last)

/-- A line after UNPIN: its pin released where it holds a block of the range (R89). -/
def Line.unpin (i : ImageId) (first last : Nat) (l : Line) : Line :=
  match l with
  | .valid j b p d => if j = i ∧ within first last b = true then .valid j b false d else .valid j b p d
  | .empty => .empty
  | .filling j b m => .filling j b m

/-- A queued entry of the range carries pin-on-complete. -/
def FillEntry.pinned (i : ImageId) (first last : Nat) (e : FillEntry) : Bool :=
  e.pin && decide (e.img = i) && within first last e.blk

/-- The fill in flight is of the range and carries pin-on-complete. -/
def inFlightPinned (i : ImageId) (first last : Nat) (s : State) : Bool :=
  match s.reader with
  | .fill f => f.pin && decide (f.img = i) && within first last f.blk
  | .idle | .erase _ | .program _ _ | .commit | .scan _ => false

/-- The blocks that an UNPIN takes back from a running PIN on the index (R89). -/
def takenBack (i : ImageId) (first last : Nat) (s : State) : Nat :=
  (pinWaiting s).countP (within first last) + s.bc.fills.countP (FillEntry.pinned i first last)
    + (if inFlightPinned i first last s then 1 else 0)

/-- An UNPIN takes back from the running PIN the blocks that have not landed, which ends with OK when none is left (R89). -/
def takeBack (i : ImageId) (first last : Nat) (s : State) : State :=
  let n := takenBack i first last s
  let s := if inFlightPinned i first last s then updFill (fun f => { f with pin := false }) s else s
  pinDone (setWaiting ((pinWaiting s).filter (fun b => !within first last b))
    (updBc (fun c => { c with
      reservation := c.reservation - n
      fills := c.fills.map (fun e => if e.pinned i first last then { e with pin := false } else e) }) s))

/-- UNPIN in range (R89). -/
def unpin (i : ImageId) (first last : Nat) (s : State) : State :=
  let s := updBc (fun c => { c with lines := vmap (Line.unpin i first last) c.lines }) s
  if pinImage s = some i then takeBack i first last s else s

/-- UNPIN's work (R89). -/
def doUnpin (o : Origin) (a : List Byte) (s : State) : State :=
  match pinRange a with
  | some (i, first, last) => reply o .ok (unpin i first last s)
  | none => reply o .badValue s

/-- PREFETCH on a catalogue entry: each windowed block of the range as a prefetch request, where the entry is valid and not BAD
(R90). An idle reader starts none of them inside this event but by a FLASH_READER_START after it, so that at most 16 new entries are made
and the rest is dropped: the model's choice (log entry 36, DESIGN CHOICE). A later block that is queued or in flight takes the flag though
the queue is full (R76; log entry 37, DEDUCED). -/
def prefetch (i : ImageId) (first last : Nat) (s : State) : State :=
  if s.tables.cat[i].valid && !s.catSt[i].bad then
    ((blockRange first last).filter (fun b => isWindowed i b s)).foldl (fun s b => request .prefetch i b s) s
  else s

/-- PREFETCH's work: OK in every case (R90). -/
def doPrefetch (o : Origin) (a : List Byte) (s : State) : State :=
  match finAt 16 (rd8 a 0) with
  | some i => reply o .ok (prefetch i (rd16 a 1) (rd16 a 3) s)
  | none => reply o .ok s

/-- INVALIDATE's work (R91). -/
def doInvalidate (o : Origin) (a : List Byte) (s : State) : State :=
  match finAt 16 (rd8 a 0) with
  | some i => if 0 < s.catSt[i].users then reply o .inUse s else reply o .ok (dropImage i s)
  | none => reply o .badValue s

def execPin (s : State) : Host.Outcome State Fault Refusal := .next (finish (serveRow .pin doPin s))

def execUnpin (s : State) : Host.Outcome State Fault Refusal := .next (finish (serveRow .unpin doUnpin s))

def execPrefetch (s : State) : Host.Outcome State Fault Refusal := .next (finish (serveRow .prefetch doPrefetch s))

def execInvalidate (s : State) : Host.Outcome State Fault Refusal := .next (finish (serveRow .invalidate doInvalidate s))

/-! ## Flash requests (R67 to R69) -/

/-- A valid catalogue entry covers a record of image sector `k` (R67). -/
def sectorUsed (k : Nat) (s : State) : Bool := s.tables.cat.toList.any (CatEntry.meets k)

/-- ERASE-SECTOR's work (R67, R68). -/
def doEraseSector (o : Origin) (a : List Byte) (s : State) : State :=
  if Config.imageSectorMax < rd16 a 0 then reply o .badValue s
  else if sectorUsed (rd16 a 0) s then reply o .inUse s
  else accept o (.erase (rd16 a 0) false false) s

/-- WRITE-RECORD's work (R67, R69). -/
def doWriteRecord (o : Origin) (a : List Byte) (s : State) : State :=
  let r := (rd32 a 0).toNat
  if Config.recordMax < r then reply o .badValue s
  else if sectorUsed (r / 31) s then reply o .inUse s
  else accept o (.program r (a.drop 4) false false) s

def execEraseSector (s : State) : Host.Outcome State Fault Refusal := .next (finish (serveRow .eraseSector doEraseSector s))

def execWriteRecord (s : State) : Host.Outcome State Fault Refusal := .next (finish (serveRow .writeRecord doWriteRecord s))

/-! ## Attention (R186, R187) -/

/-- READ-ATTN's work (R186): the head entry with the overflow flag, or EMPTY with the flag. -/
def doReadAttn (o : Origin) (_a : List Byte) (s : State) : State :=
  match s.au.list with
  | [] => finalReply o .empty [flagByte s.au.overflow] false s
  | e :: es => replyOk o (e.data ++ [flagByte s.au.overflow]) { s with au := { s.au with list := es } }

/-- CLEAR-ATTN's work (R187). -/
def doClearAttn (o : Origin) (_a : List Byte) (s : State) : State :=
  reply o .ok { s with au := { s.au with list := [], overflow := false } }

def execReadAttn (s : State) : Host.Outcome State Fault Refusal := .next (finish (serveRow .readAttn doReadAttn s))

def execClearAttn (s : State) : Host.Outcome State Fault Refusal := .next (finish (serveRow .clearAttn doClearAttn s))

/-! ## Store, self-check and resets (R178, R180, R181, R189) -/

/-- COMMIT's acceptance (R178). -/
def doCommit (o : Origin) (_a : List Byte) (s : State) : State := accept o (.commit false) s

/-- SELF-CHECK's acceptance (R189). -/
def doSelfCheck (o : Origin) (_a : List Byte) (s : State) : State := accept o (.selfCheck SelfCheck.start) s

/-- ENGINE-RESET's work (R178, R180): BUSY while COMMIT runs. -/
def doEngineReset (o : Origin) (_a : List Byte) (s : State) : State :=
  if commitRuns s then reply o .busy s else reply o .ok (engineReset s)

/-- FULL-RESET's work (R178, R181): BUSY while COMMIT runs; else the reply that brings the full reset at the end of its
transmission, and no further request is served. -/
def doFullReset (o : Origin) (_a : List Byte) (s : State) : State :=
  if commitRuns s then reply o .busy s
  else finalReply o .ok [] true (updMa (fun a => { a with stopped := true }) s)

def execCommit (s : State) : Host.Outcome State Fault Refusal := .next (finish (serveRow .commit doCommit s))

def execSelfCheck (s : State) : Host.Outcome State Fault Refusal := .next (finish (serveRow .selfCheck doSelfCheck s))

def execEngineReset (s : State) : Host.Outcome State Fault Refusal := .next (finish (serveRow .engineReset doEngineReset s))

def execFullReset (s : State) : Host.Outcome State Fault Refusal := .next (finish (serveRow .fullReset doFullReset s))

/-! ## A request of no code (R196) -/

/-- The service of a request whose code names no request, or that has no code: BAD_REQUEST (R169, R196). -/
def refuseRequest (s : State) : State :=
  match nextRequest s with
  | some (o, q) => if q.code = none then turnPointer o (reply o .badRequest s) else s
  | none => s

/-- BAD_REQUEST. -/
def execBadRequest (s : State) : Host.Outcome State Fault Refusal := .next (finish (refuseRequest s))

end Sys2Proof.Machine
end

