-- ==== Sys2Proof/Machine/Dispatch.lean ====
section
/-! DEFINITION. The meaning of every command, one arm per row of spec/opcode_table.json. -/

namespace Sys2Proof.Machine

/-- The effect of a command on everything but the queue of waiting commands. -/
def exec (i : Instr) (s : State) : Host.Outcome State Fault Refusal :=
  match i with
  | .receiveFrame arrival bytes => Sys2Proof.Machine.execReceiveFrame arrival bytes s
  | .frameBeginsOnSegment => Sys2Proof.Machine.execFrameBeginsOnSegment s
  | .segmentFrameEnd bytes => Sys2Proof.Machine.execSegmentFrameEnd bytes s
  | .answerTimerExpiry => Sys2Proof.Machine.execAnswerTimerExpiry s
  | .segmentTransmissionEnd => Sys2Proof.Machine.execSegmentTransmissionEnd s
  | .trunkTransmissionEnd => Sys2Proof.Machine.execTrunkTransmissionEnd s
  | .serviceTransmissionEnd => Sys2Proof.Machine.execServiceTransmissionEnd s
  | .lineFalls => Sys2Proof.Machine.execLineFalls s
  | .lineRises => Sys2Proof.Machine.execLineRises s
  | .deglitchTimerExpiry => Sys2Proof.Machine.execDeglitchTimerExpiry s
  | .settleTimerExpiry => Sys2Proof.Machine.execSettleTimerExpiry s
  | .retryTimerExpiry slot => Sys2Proof.Machine.execRetryTimerExpiry slot s
  | .stageTimerExpiry slot => Sys2Proof.Machine.execStageTimerExpiry slot s
  | .resetN => Sys2Proof.Machine.execResetN s
  | .powerOn => Sys2Proof.Machine.execPowerOn s
  | .startUpLoadDone left read => Sys2Proof.Machine.execStartUpLoadDone left read s
  | .flashReaderStart => Sys2Proof.Machine.execFlashReaderStart s
  | .fillReadEnd read => Sys2Proof.Machine.execFillReadEnd read s
  | .eraseSectorDone kept read => Sys2Proof.Machine.execEraseSectorDone kept read s
  | .writeRecordDone blank prog back => Sys2Proof.Machine.execWriteRecordDone blank prog back s
  | .commitDone prog back => Sys2Proof.Machine.execCommitDone prog back s
  | .scanReadEnd read => Sys2Proof.Machine.execScanReadEnd read s
  | .placeWaitingReply => Sys2Proof.Machine.execPlaceWaitingReply s
  | .readRangeFrame => Sys2Proof.Machine.execReadRangeFrame s
  | .pinWaitingPlace => Sys2Proof.Machine.execPinWaitingPlace s
  | .readEntry => Sys2Proof.Machine.execReadEntry s
  | .readLink => Sys2Proof.Machine.execReadLink s
  | .writeEntry => Sys2Proof.Machine.execWriteEntry s
  | .writeCond => Sys2Proof.Machine.execWriteCond s
  | .readRange => Sys2Proof.Machine.execReadRange s
  | .setContext => Sys2Proof.Machine.execSetContext s
  | .clearContext => Sys2Proof.Machine.execClearContext s
  | .permit => Sys2Proof.Machine.execPermit s
  | .reload => Sys2Proof.Machine.execReload s
  | .clear => Sys2Proof.Machine.execClear s
  | .clearRetries => Sys2Proof.Machine.execClearRetries s
  | .pin => Sys2Proof.Machine.execPin s
  | .unpin => Sys2Proof.Machine.execUnpin s
  | .prefetch => Sys2Proof.Machine.execPrefetch s
  | .invalidate => Sys2Proof.Machine.execInvalidate s
  | .eraseSector => Sys2Proof.Machine.execEraseSector s
  | .writeRecord => Sys2Proof.Machine.execWriteRecord s
  | .readAttn => Sys2Proof.Machine.execReadAttn s
  | .clearAttn => Sys2Proof.Machine.execClearAttn s
  | .commit => Sys2Proof.Machine.execCommit s
  | .selfCheck => Sys2Proof.Machine.execSelfCheck s
  | .engineReset => Sys2Proof.Machine.execEngineReset s
  | .fullReset => Sys2Proof.Machine.execFullReset s
  | .badRequest => Sys2Proof.Machine.execBadRequest s

end Sys2Proof.Machine
end

