-- ==== Sys2Proof/Safety.lean ====
section
/-! DEFINITION. What a safe run keeps, in the terms the claims use: no step stops, and the laws that the manual gives whole states
(R6, R30, R35, R86, R87, R95, R97, R99, R116, R124, R128, R129, R134, R135, R161, R183, R184) with the canonical form of the flash. -/

namespace Sys2Proof.Safety

open Sys2Proof.Machine

/-- The machine goes on: its next step answers a next state. -/
def Runs (s : State) : Prop := ∃ t, step s = .next t

/-- The outputs follow their conditions: ATTN by R183, each PERMIT output by R161. -/
def OutputsFollow (s : State) : Prop :=
  s.au.out = s.au.asserted ∧
    ∀ g : GroupId, s.lm.permits[g] = true ↔
      s.lm.requests[g] = true ∧ s.lm.line = .up ∧
        (∃ k : SlotId, s.tables.slots[k].enabled = true ∧ s.tables.slots[k].group = some g) ∧
        ∀ k : SlotId, s.tables.slots[k].enabled = true → s.tables.slots[k].group = some g → s.slots[k].state = .running

/-- The segment is silent in GAP and SETTLE (R94, R95): the silent flag stands exactly then, FREE has it clear, SILENT has it set, and
the line state is GAP while the start-up load runs (log entry 11). -/
def SegmentSilent (s : State) : Prop :=
  (s.seg.silent = true ↔ s.lm.line = .gap ∨ s.lm.line = .settle) ∧
    (s.seg.port = .free → s.seg.silent = false) ∧ (s.seg.port = .silent → s.seg.silent = true) ∧
    (s.phase = .starting → s.lm.line = .gap)

/-- The flash contents are in canonical form: addresses rising, no erased byte listed. -/
def FlashCanonical (s : State) : Prop := Memory.wf s.flash

/-- The attention list holds at most 32 entries, no two with the same cause and subject, each counting 1 to 255 (R183). -/
def AttentionLaw (s : State) : Prop :=
  s.au.list.length ≤ 32 ∧ s.au.list.Pairwise (fun e f => ¬ (e.cause = f.cause ∧ e.subject = f.subject)) ∧
    ∀ e ∈ s.au.list, 1 ≤ e.count ∧ e.count ≤ 255

/-- The queues hold no more than their places, and the turn debt is at most 8 (R75, R97, R99, R128, R129). -/
def Bounded (s : State) : Prop :=
  s.queues.out.length ≤ 32 ∧ s.queues.trunk.length ≤ 48 ∧ s.queues.service.length ≤ 4 ∧ s.bc.fills.length ≤ 16 ∧ s.seg.debt ≤ 8

/-- How many queue entries reference buffer `b` (R116). -/
def references (b : BufId) (q : Queues) : Nat :=
  q.out.count b + (q.hold.toList.flatten).count b + (q.trunk.map TxEntry.buf).count b + (q.service.map TxEntry.buf).count b

/-- The pool's law: each count is the number of entries that reference the buffer, and a buffer is in use exactly when some entry
does (R116). -/
def PoolLaw (s : State) : Prop :=
  ∀ b : BufId, s.pool[b].refs = references b s.queues ∧ (s.pool[b].frame = none ↔ s.pool[b].refs = 0)

/-- The laws of slots, sessions and hold queues: a session exactly in a restoring state (R6), a class for every slot in service, a
retry timer in BACKOFF alone (R22), at most H held entries and only while restoring (R124), the in-flight list within its bounds
(R35), each users count the number of open sessions on its entry (R30), and no session while the start-up load runs. -/
def RestoreLaw (s : State) : Prop :=
  (∀ k : SlotId, (s.slots[k].session.isSome = true ↔ s.slots[k].state.restoring = true) ∧
    (s.slots[k].state ≠ .vacant ∨ s.tables.slots[k].enabled = true → s.slots[k].cls ≠ none) ∧
    (s.slots[k].retryTimer ≠ none → s.slots[k].state = .backoff) ∧
    s.queues.hold[k].length ≤ s.tables.settings.holdDepth ∧ (s.queues.hold[k] ≠ [] → s.slots[k].state.restoring = true)) ∧
  (∀ (k : SlotId) (x : Session), s.slots[k].session = some x → x.inFlight.length ≤ x.window ∧ x.inFlight.Pairwise (· < ·) ∧
    (∀ b ∈ x.inFlight, b < x.cursor) ∧ (∀ a, x.through = some a → a < x.cursor ∧ ∀ b ∈ x.inFlight, a < b) ∧ x.cursor ≤ x.length) ∧
  (∀ i : ImageId, s.catSt[i].users = slotIds.countP (fun k => s.slots[k].session.any (fun x => decide (x.img = i)))) ∧
  (s.phase = .starting → s.lm.line = .gap ∧ ∀ k : SlotId, s.slots[k].session = none)

/-- The pins that the fill in flight carries: 1 or 0. -/
def inFlightPins (s : State) : Nat :=
  match s.reader with
  | .fill f => if f.pin then 1 else 0
  | .idle | .erase _ | .program _ _ | .commit | .scan _ => 0

/-- The laws of pins: at most 64 lines pinned or reserved (R86), the reservation covers what has not landed and is 0 without a PIN
(R86, R87), no block queued twice (R75), and a management flash operation on the reader holds the long-operation slot (R79, R168). -/
def PinLaw (s : State) : Prop :=
  pinnedCount s + s.bc.reservation ≤ 64 ∧
    (pinWaiting s).length + s.bc.fills.countP FillEntry.pin + inFlightPins s ≤ s.bc.reservation ∧
    (pinImage s = none → s.bc.reservation = 0) ∧
    s.bc.fills.Pairwise (fun e f => ¬ (e.img = f.img ∧ e.blk = f.blk)) ∧
    (∀ k, s.reader = .erase k → ∃ o a, s.ma.long = some ⟨o, .erase k true a⟩) ∧
    (∀ r d, s.reader = .program r d → ∃ o a, s.ma.long = some ⟨o, .program r d true a⟩) ∧
    (s.reader = .commit → ∃ o, s.ma.long = some ⟨o, .commit true⟩)

/-- Block (i, b) is held by a VALID line (R72). -/
def HeldValid (i : ImageId) (b : Nat) (s : State) : Prop := ∃ (l : LineId) (p : Bool) (d : List Byte), s.bc.lines[l] = .valid i b p d

/-- Block (i, b) is held by the FILLING line: its discard mark is clear and its entry is not marked BAD (R72). -/
def HeldFilling (i : ImageId) (b : Nat) (s : State) : Prop := s.catSt[i].bad = false ∧ ∃ l : LineId, s.bc.lines[l] = .filling i b false

/-- Block (i, b) stands in the fill queue (R75). -/
def InQueue (i : ImageId) (b : Nat) (s : State) : Prop := ∃ e ∈ s.bc.fills, e.img = i ∧ e.blk = b

/-- The balance of a running PIN: its reservation equals its waiting blocks, plus the queued entries with pin-on-complete, plus the fill in
flight that carries it (R87), no block standing in two of these places; its entry is not BAD (R88). Every FILLING line is that of the fill in
flight (R72, R81). -/
def PinBalance (s : State) : Prop :=
  (∀ (l : LineId) (i : ImageId) (b : Nat) (d : Bool), s.bc.lines[l] = .filling i b d →
    ∃ f, s.reader = .fill f ∧ f.line = l ∧ f.img = i ∧ f.blk = b) ∧
  ∀ (o : Origin) (i : ImageId) (w : List Nat), s.ma.long = some ⟨o, .pin i w⟩ →
    w.length + s.bc.fills.countP FillEntry.pin + inFlightPins s = s.bc.reservation ∧ w.Pairwise (· < ·) ∧ s.catSt[i].bad = false ∧
    (∀ e ∈ s.bc.fills, e.pin = true → e.img = i ∧ e.blk ∉ w) ∧
    ∀ f, s.reader = .fill f → f.pin = true → f.img = i ∧ f.blk ∉ w ∧ s.bc.lines[f.line] = .filling i f.blk false ∧
      ∀ e ∈ s.bc.fills, e.pin = true → e.blk ≠ f.blk

/-- The laws of context records: a present value has the length its layout gives the field and some byte that is not zero (R135),
layouts stay within their bounds (R134), and while the start-up load runs nothing stores a value. -/
def RecordLaw (s : State) : Prop :=
  (∀ (k : SlotId) (f : FieldId) (v : List Byte), (s.ctx[k])[f] = some v → v.length = fieldLen k f s ∧ ∃ b ∈ v, b ≠ 0) ∧
    (∀ c : ClassId, (∀ f : FieldId, (s.tables.classes[c]).layout[f] ≤ 8) ∧ (s.tables.classes[c]).layout.toList.sum ≤ 64) ∧
    (s.phase = .starting → s.seg.port = .silent ∧ s.lm.line = .gap ∧ s.ma.trunk.state ≠ .waiting ∧ s.ma.service.state ≠ .waiting ∧
      ∀ (k : SlotId) (f : FieldId), (s.ctx[k])[f] = none)

/-! ## Requests, as the claims speak of them -/

/-- The row of each request code (11.4). -/
def rowOf : ReqCode → Instr
  | .readEntry => .readEntry
  | .readLink => .readLink
  | .writeEntry => .writeEntry
  | .writeCond => .writeCond
  | .readRange => .readRange
  | .setContext => .setContext
  | .clearContext => .clearContext
  | .permit => .permit
  | .reload => .reload
  | .clear => .clear
  | .clearRetries => .clearRetries
  | .pin => .pin
  | .unpin => .unpin
  | .prefetch => .prefetch
  | .invalidate => .invalidate
  | .eraseSector => .eraseSector
  | .writeRecord => .writeRecord
  | .readAttn => .readAttn
  | .clearAttn => .clearAttn
  | .commit => .commit
  | .selfCheck => .selfCheck
  | .engineReset => .engineReset
  | .fullReset => .fullReset

/-- The request served next is of origin `o`, has code `c` and arguments `a` of its form, and finds the long-operation slot free
where it is long: its own checks come next (R168, R169). -/
def Asked (c : ReqCode) (o : Origin) (a : List Byte) (s : State) : Prop :=
  ∃ q b, nextRequest s = some (o, q) ∧ q.payload = b :: a ∧ ReqCode.ofByte b = some c ∧ formOk c a = true ∧
    (c.isLong = true → s.ma.long = none)

/-- The state after a service on `s` that answers with a status and data: the final reply is built, and placed or kept, and the
pointer names the other origin (R166, R167). -/
def answered (o : Origin) (st : Status) (data : List Byte) (s : State) : State := turnPointer o (finalReply o st data false s)

/-- The state after a write to entry `i` of table `t` whose owner has judged it as `r`: OK with the agent's part of an accepted write,
or the refusal (R172). -/
def wrote (o : Origin) (t i : Nat) (r : Status × State) : State :=
  match r with
  | (.ok, n) => answered o .ok [] (noteWrite t i n)
  | (st, n) => answered o st [] n

/-- The state after a long request has been accepted: its origin is RUNNING, it holds the slot, the pointer names the other
origin, and no reply is built (R168). -/
def taken (o : Origin) (j : LongJob) (s : State) : State := turnPointer o (accept o j s)

/-- `t` is `s` but for the slots, ports and segment scheduler given, with the same frames in the pool. -/
def SameBut (sl : Vector SlotStatus 32) (p : Ports) (g : Segment) (s t : State) : Prop :=
  ∃ pl : Vector Buffer 64, (∀ b : BufId, pl[b].frame = s.pool[b].frame) ∧ t = { s with slots := sl, ports := p, seg := g, pool := pl }

/-- `t` is `s` with the ports given and a REFUSE that answers frame `f` at the tail of the trunk transmit queue, in a buffer that was
free; the other buffers hold the same frames (R118, R127, R194). -/
def Refused (r : RefuseReason) (f : Frame) (p : Ports) (s t : State) : Prop :=
  ∃ (b : BufId) (pl : Vector Buffer 64), s.pool[b].frame = none ∧
    pl[b] = ⟨some ⟨f.src, s.tables.settings.mgmtAddr, .refuse, f.seq, [r.code, f.kind.code, f.seq, f.dst]⟩, 1⟩ ∧
    (∀ c : BufId, c ≠ b → pl[c].frame = s.pool[c].frame) ∧
    t = { s with ports := p, pool := pl, queues := { s.queues with trunk := s.queues.trunk ++ [⟨b, false⟩] } }

/-- The REFUSE frames that answer the station frames among the buffers `bs`, in their order (R127, R194). -/
def refusalsOf (r : RefuseReason) (bs : List BufId) (s : State) : List Frame :=
  ((bs.filterMap (fun b => s.pool[b].frame)).filter (fun f => isStation f.dst)).map
    (fun f => ⟨f.src, s.tables.settings.mgmtAddr, .refuse, f.seq, [r.code, f.kind.code, f.seq, f.dst]⟩)

/-- `t` has the cache and the reader of `s` with slot `k` withdrawn from the requesters of the queued fills, whose ranks are computed
again, and from those of the fill in flight; lines, recency order, flags and reservation stand (R33, R77). -/
def Withdrawn (k : SlotId) (s t : State) : Prop :=
  t.bc = { s.bc with fills := s.bc.fills.map (fun e => { e with
      reqs := e.reqs.filter (fun j => decide (j ≠ k))
      rank := if k ∈ e.reqs then rankOf (e.reqs.filter (fun j => decide (j ≠ k))) s else e.rank }) } ∧
    (∀ f, s.reader = .fill f → t.reader = .fill { f with reqs := f.reqs.filter (fun j => decide (j ≠ k)) }) ∧
    ((∀ f, s.reader ≠ .fill f) → t.reader = s.reader)

/-- The transmit queue of an origin has room (R128, R129). -/
def HasRoom (o : Origin) (s : State) : Prop :=
  o = .trunk ∧ s.queues.trunk.length < 48 ∨ o = .service ∧ s.queues.service.length < 4

/-- The queues with a reply in buffer `b` at the tail of an origin's transmit queue; `x` marks the reply to FULL-RESET (R128, R129). -/
def atTail (o : Origin) (b : BufId) (x : Bool) (q : Queues) : Queues :=
  match o with
  | .trunk => { q with trunk := q.trunk ++ [⟨b, x⟩] }
  | .service => { q with service := q.service ++ [⟨b, x⟩] }

/-- The agent with an origin IDLE and its request record empty, as after the placing of its final reply (R166). -/
def atRest (o : Origin) (a : Agent) : Agent :=
  match o with
  | .trunk => { a with trunk := { a.trunk with state := .idle, req := none } }
  | .service => { a with service := { a.service with state := .idle, req := none } }

/-- Every entry of the tables is what a write of some bytes of its layout leaves, and enabled slots have distinct addresses (R1,
R179, R198). -/
def Writable (t : Tables) : Prop :=
  (∃ b, b.length = 13 ∧ Settings.decode b = some t.settings) ∧
    (∀ i : Fin 8, ∃ b, b.length = 24 ∧ ClassEntry.decode b = some t.classes[i]) ∧
    (∀ i : Fin 32, ∃ b, b.length = 8 ∧ SlotEntry.decode b = some t.slots[i]) ∧
    (∀ i : Fin 16, ∃ b, b.length = 54 ∧ CatEntry.decode b = some t.cat[i]) ∧
    (∀ i : Fin 48, ∃ b, b.length = 11 ∧ FwdRule.decode b = some t.fwd[i]) ∧
    (∀ i : Fin 32, ∃ b, b.length = 8 ∧ CapRule.decode b = some t.cap[i]) ∧
    ∀ j k : SlotId, j ≠ k → t.slots[j].enabled = true → t.slots[k].enabled = true → t.slots[j].addr ≠ t.slots[k].addr

end Sys2Proof.Safety
end

