-- ==== Sys2Proof/Certificates/Slice0/Obligations.lean ====
section
/-! DEFINITION. The statements for the provers. Each says in full what a command does to the state, or a law that every step keeps. -/

open Sys2Proof Sys2Proof.Machine Sys2Proof.Safety

/-! ## The queue of commands -/

/-- A step takes the command at the front of the queue and runs it on the state with the queue's rest; on an empty queue the block
idles (95; the idling is the model's choice, log entry 8). -/
def Obligations.StepTakesFront : Prop :=
  (∀ (c : Instr) (s : State) (rest : List Instr), s.pending = c :: rest → step s = exec c { s with pending := rest }) ∧
    ∀ s : State, s.pending = [] → step s = .next s

/-- Every command goes on from every state, and leaves the queue of waiting commands as it stands. That "every state" is so is the
model's: 95 names the states in which a step is taken, a command whose event cannot occur has no effect by log entry 7, and the states
that no run reaches are log entry 28. -/
def Obligations.EveryCommandGoesOn : Prop := ∀ (c : Instr) (s : State), ∃ t, exec c s = .next t ∧ t.pending = s.pending

/-! ## What ends every step -/

/-- The end of a step changes the segment scheduler, sessions of slots, the cache's recency and fill queue, the PERMIT outputs and
ATTN, and nothing else; where the port does not stand FREE it changes the outputs alone (R96, R162, R183). That the choice is made and the
outputs are recomputed at the end of every step is the model's (log entries 12 and 13). -/
def Obligations.FinishFrame : Prop :=
  ∀ s : State,
    ((finish s).phase = s.phase ∧ (finish s).lineHigh = s.lineHigh ∧ (finish s).tables = s.tables ∧ (finish s).ctx = s.ctx ∧
      (finish s).catSt = s.catSt ∧ (finish s).reader = s.reader ∧ (finish s).flash = s.flash ∧ (finish s).cut = s.cut ∧
      (finish s).freeTick = s.freeTick ∧ (finish s).pending = s.pending ∧ (finish s).queues = s.queues ∧ (finish s).pool = s.pool ∧ (finish s).ports = s.ports ∧ (finish s).ma = s.ma ∧ (finish s).au.list = s.au.list ∧
      (finish s).au.overflow = s.au.overflow ∧ { (finish s).lm with permits := s.lm.permits } = s.lm ∧
      (finish s).bc.lines = s.bc.lines ∧ (finish s).bc.reservation = s.bc.reservation ∧
      ∀ k : SlotId, { (finish s).slots[k] with session := s.slots[k].session } = s.slots[k]) ∧
    (s.seg.port ≠ .free → (finish s).slots = s.slots ∧ (finish s).bc = s.bc ∧ (finish s).seg = s.seg)

/-- Where the port stands FREE, the debt is at or above K and some slot is not VACANT, the end of the step gives a turn: a TURN to that
slot's node address is under transmission and the debt is 0 (R96, R97, R100, R102). Where the port stands FREE, nothing is in the ready
set, the outbound queue has an entry, and the debt is below K or no slot is turn-eligible, the head of the outbound queue goes under
transmission and the debt rises by 1, staying at 8 (R96, R97, R99). Which turn: after a ring turn, while a slot restores, an urgent turn
to the first restoring slot from the urgent cursor upward, wrapping; else a ring turn to the first slot that is not VACANT from the ring
cursor upward; the cursor of the kind goes behind that slot, the kind is recorded, the other cursor stands, at debt K as below it with
nothing ready and nothing queued (R100, R101). With no slot in service, nothing ready and nothing queued, nothing is sent (R96). What is
ready: a LOADING session with room in its in-flight list, a cursor inside the image and the block there available, a fill block or one
that a VALID line holds; a STARTING or CONTEXT session whose frame is not sent; a slot without a session with REBOOT_PENDING while the
line is UP (R31). That the choice stands at the end of the step is log entry 12. -/
def Obligations.NextSent : Prop :=
  (∀ s : State, s.seg.port = .free → s.tables.settings.debtLimit ≤ s.seg.debt → (∃ k : SlotId, s.slots[k].state ≠ .vacant) →
    ∃ k : SlotId, s.slots[k].state ≠ .vacant ∧
      (finish s).seg.port = .sending (.turn ⟨s.tables.slots[k].addr, s.tables.settings.mgmtAddr, .turn, 0, []⟩) ∧
      (finish s).seg.turn = some ⟨k, s.tables.slots[k].addr, false, false⟩ ∧ (finish s).seg.debt = 0 ∧
      (finish s).slots = s.slots ∧ (finish s).bc = s.bc) ∧
  (∀ s : State, s.seg.port = .free → (∀ k : SlotId, inReady s k = false) → s.queues.out ≠ [] →
    (s.seg.debt < s.tables.settings.debtLimit ∨ ∀ k : SlotId, s.slots[k].state = .vacant) →
    (finish s).seg = { s.seg with port := .sending .outbound, debt := if s.seg.debt < 8 then s.seg.debt + 1 else s.seg.debt } ∧
      (finish s).slots = s.slots ∧ (finish s).bc = s.bc) ∧
  (∀ (s : State) (k : SlotId) (g : Segment), s.seg.port = .free →
    (s.tables.settings.debtLimit ≤ s.seg.debt ∨ (∀ j : SlotId, inReady s j = false) ∧ s.queues.out = []) →
    g = { s.seg with
      port := .sending (.turn ⟨s.tables.slots[k].addr, s.tables.settings.mgmtAddr, .turn, 0, []⟩)
      turn := some ⟨k, s.tables.slots[k].addr, false, false⟩, debt := 0 } →
    (s.seg.lastTurn = .ring → s.slots[k].state.restoring = true →
      (∀ j : SlotId, s.slots[j].state.restoring = true → (k - s.seg.urgentCursor).val ≤ (j - s.seg.urgentCursor).val) →
      (finish s).seg = { g with urgentCursor := k + 1, lastTurn := .urgent } ∧ (finish s).slots = s.slots ∧ (finish s).bc = s.bc) ∧
    (s.seg.lastTurn = .urgent ∨ (∀ j : SlotId, s.slots[j].state.restoring = false) → s.slots[k].state ≠ .vacant →
      (∀ j : SlotId, s.slots[j].state ≠ .vacant → (k - s.seg.ringCursor).val ≤ (j - s.seg.ringCursor).val) →
      (finish s).seg = { g with ringCursor := k + 1, lastTurn := .ring } ∧ (finish s).slots = s.slots ∧ (finish s).bc = s.bc)) ∧
  (∀ s : State, s.seg.port = .free → (∀ k : SlotId, inReady s k = false) → s.queues.out = [] →
    (∀ k : SlotId, s.slots[k].state = .vacant) →
    (finish s).seg = s.seg ∧ (finish s).slots = s.slots ∧ (finish s).bc = s.bc) ∧
  ∀ (s : State) (k : SlotId), inReady s k = true ↔
    (∃ x, s.slots[k].session = some x ∧
      (s.slots[k].state = .loading ∧ x.inFlight.length < x.window ∧ x.cursor < x.length ∧
          (s.tables.cat[x.img].supply x.cursor = .fill ∨ HeldValid x.img x.cursor s) ∨
        (s.slots[k].state = .starting ∨ s.slots[k].state = .context) ∧ x.sent = false)) ∨
    s.slots[k].session = none ∧ s.slots[k].reboot ≠ none ∧ s.lm.line = .up

/-- Where the port stands FREE and the debt is below K or no slot is turn-eligible, the ready slot of the lowest rank, the lowest number
among equals, has its frame sent and the debt rises by 1: BLOCK with the block at the cursor, STARTIMG, CTXLOAD with the record, or REBOOT
with its reason; the session records what was sent and its stage timer runs anew; no other slot changes (R34, R41, R43, R96, R97, R98).
The bytes of a BLOCK are 128 zeros for a fill block, else those of the VALID line that holds it, and that use of the line is a hit, which
moves it to the most recent place; then the session makes its block requests, those of `Obligations.ColdSessionOpens`, from the advanced
cursor; the other grants leave the cache alone (R32, R34, R73). That two lines never hold one block is not needed: the lowest is meant. -/
def Obligations.GrantsMade : Prop :=
  (∀ (s : State) (i : ImageId) (b : Nat), (s.tables.cat[i].supply b = .fill → blockData i b s = List.replicate 128 0) ∧
    ∀ (l : LineId) (p : Bool) (d : List Byte), s.tables.cat[i].supply b ≠ .fill → s.bc.lines[l] = .valid i b p d →
      (∀ m : LineId, m < l → ∀ q c, s.bc.lines[m] ≠ .valid i b q c) → blockData i b s = d) ∧
  ∀ (s : State) (k : SlotId) (a m : Byte), s.seg.port = .free →
    (s.seg.debt < s.tables.settings.debtLimit ∨ ∀ j : SlotId, s.slots[j].state = .vacant) → inReady s k = true → slotRank k s ≤ 8 →
    (∀ j : SlotId, inReady s j = true → slotRank k s < slotRank j s ∨ slotRank k s = slotRank j s ∧ k ≤ j) →
    a = s.tables.slots[k].addr → m = s.tables.settings.mgmtAddr →
    (∀ x : Session, s.slots[k].session = some x → s.slots[k].state = .loading →
      (finish s).seg.port = .sending (.restore ⟨a, m, .block, 0, be16 x.cursor ++ blockData x.img x.cursor s⟩) ∧
      (finish s).slots[k] = { s.slots[k] with session := some { x with
        inFlight := x.inFlight ++ [x.cursor], cursor := x.cursor + 1, timer := some x.stageTimeout } } ∧
      ∀ (t : State) (order : List LineId), t = { s with
          seg := (finish s).seg, slots := (finish s).slots, bc := { s.bc with recency := order } } →
        (s.tables.cat[x.img].supply x.cursor = .fill → order = s.bc.recency → (finish s).bc = (requestBlocks k t).bc) ∧
        ∀ (l : LineId) (p : Bool) (d : List Byte), s.tables.cat[x.img].supply x.cursor ≠ .fill →
          s.bc.lines[l] = .valid x.img x.cursor p d → (∀ m : LineId, m < l → ∀ q c, s.bc.lines[m] ≠ .valid x.img x.cursor q c) →
          order = s.bc.recency.erase l ++ [l] → (finish s).bc = (requestBlocks k t).bc) ∧
    (∀ x : Session, s.slots[k].session = some x → s.slots[k].state = .starting →
      (finish s).seg.port = .sending (.restore ⟨a, m, .startimg, 0,
        be32 x.tag ++ be16 x.length ++ be32 x.check ++ be32 x.entryWord ++ [if x.warm then 1 else 0]⟩) ∧
      (finish s).slots[k] = { s.slots[k] with session := some { x with sent := true, timer := some x.stageTimeout } }) ∧
    (∀ x : Session, s.slots[k].session = some x → s.slots[k].state = .context →
      (finish s).seg.port = .sending (.restore ⟨a, m, .ctxload, 0, be16 s.ctx[k].mask.toNat ++ s.ctx[k].values⟩) ∧
      (finish s).slots[k] = { s.slots[k] with session := some { x with
        sent := true, sentMask := some s.ctx[k].mask, timer := some x.stageTimeout } }) ∧
    (∀ r : RebootReason, s.slots[k].session = none → s.slots[k].reboot = some r →
      (finish s).seg.port = .sending (.reboot ⟨a, m, .reboot, 0, [r.code]⟩ k) ∧ (finish s).slots[k] = s.slots[k]) ∧
    (s.slots[k].session = none ∨ s.slots[k].state ≠ .loading → (finish s).bc = s.bc) ∧
    (finish s).seg.debt = (if s.seg.debt < 8 then s.seg.debt + 1 else s.seg.debt) ∧
    ∀ j : SlotId, j ≠ k → (finish s).slots[j] = s.slots[j]

/-! ## Resets -/

/-- The values after a full reset (R27, R54, R71, R93, R112, R132, R149, R164, R182, R188), and those of the factory tables (R27, R71, R132,
R149, R171). The LINE level, the erased flash, the line in GAP and the tables' standing at the factory defaults while the load runs are the
model's choice (log entries 2, 3, 4, 11). -/
def Obligations.ResetValues : Prop :=
  State.reset.ma = ⟨⟨.idle, none, none⟩, ⟨.idle, none, none⟩, none, .trunk, false, false, []⟩ ∧
    State.reset.au = ⟨[], false, false⟩ ∧
    State.reset.bc.fills = [] ∧ State.reset.bc.reservation = 0 ∧ State.reset.bc.recency = [] ∧
    (∀ l : LineId, State.reset.bc.lines[l] = .empty) ∧ State.reset.reader = .idle ∧
    State.reset.seg = ⟨.silent, true, 0, 0, 0, .urgent, none, none⟩ ∧
    State.reset.queues.out = [] ∧ State.reset.queues.trunk = [] ∧ State.reset.queues.service = [] ∧
    (∀ k : SlotId, State.reset.queues.hold[k] = [] ∧ State.reset.slots[k] = SlotStatus.vacant ∧
      ∀ f : FieldId, (State.reset.ctx[k])[f] = none) ∧
    (∀ i : ImageId, State.reset.catSt[i] = ⟨false, 0⟩) ∧ (∀ b : BufId, State.reset.pool[b] = ⟨none, 0⟩) ∧
    State.reset.ports = ⟨⟨[], 0, 0, 0, 0, 0⟩, ⟨[], 0, 0, 0, 0, 0⟩, ⟨[], 0, 0, 0, 0, 0⟩⟩ ∧
    State.reset.lm.dips = 0 ∧ State.reset.lm.gaps = 0 ∧
    (∀ g : GroupId, State.reset.lm.requests[g] = false ∧ State.reset.lm.permits[g] = false) ∧ State.reset.pending = [] ∧
    State.reset.tables = Tables.factory ∧
    Tables.factory.settings = ⟨0xE0, 1, .forward, .forward, 4, 4, 40, 4, 4, 2, 2, 2, 16⟩ ∧
    (∀ c : ClassId, Tables.factory.classes[c] = ⟨0, none, .retry, 1, 3, .keep, true, false, Vector.replicate 16 0⟩) ∧
    (∀ k : SlotId, Tables.factory.slots[k] = ⟨false, BitVec.ofNat 8 (k.val + 1), none, none, none, 0⟩) ∧
    (∀ i : ImageId, Tables.factory.cat[i] = ⟨false, 0, 1, 0, 0, 0, 0, Vector.replicate 4 ⟨false, 0, 0, 0⟩⟩) ∧
    (∀ r : Fin 48, Tables.factory.fwd[r] = ⟨false, .down, .data, 0x01, 0x01, 0, 0, 0, 0, .forward, false⟩) ∧
    (∀ r : Fin 32, Tables.factory.cap[r] = ⟨false, .dataDown, 0, 0, 0, 0, 0, .addressed⟩)

/-- RESET_N and power-on set everything to its value at reset, but for the flash contents, the LINE level, the waiting commands and the
model's own counter of free orders (log entry 6); the device finishes an erase, a record write or a COMMIT that was under way, a fill's or
scan's read is cut off and leaves what an earlier reset had cut (R70, R178, R181). The state during the load, with the factory tables and
the line in GAP, is the model's choice (log entries 2 and 11), and so is it that POWER_ON finishes a cut operation as RESET_N does (log
entries 29 and 30). -/
def Obligations.FullResetOnPins : Prop :=
  ∀ s : State, ∃ x,
    exec .resetN s = .next { State.reset with
      flash := s.flash, lineHigh := s.lineHigh, cut := x, freeTick := s.freeTick, pending := s.pending } ∧
    exec .powerOn s = exec .resetN s ∧
    (∀ k, s.reader = .erase k → x = some (.erase k)) ∧ (∀ r d, s.reader = .program r d → x = some (.program r d)) ∧
    (s.reader = .commit → x = some (.commit s.tables.store)) ∧ (s.reader = .idle → x = s.cut) ∧
    (∀ f, s.reader = .fill f → x = s.cut) ∧ (∀ l, s.reader = .scan l → x = s.cut)

/-- The end of the start-up load with nothing left to finish on the device: the tables of a good store, or the factory defaults with
attention CONFIG_BAD; enabled slots ABSENT with the class of their expected class, the others VACANT; the line monitor in SETTLE or GAP by
the LINE level (R27, R153, R158, R179). With an operation that the reset cut, the device first finishes it, and the load is then as with
nothing left (R70, R178): an erased sector reads 0xFF, a record that read erased holds its data and their CRC-16 and another is left,
sector 0 holds the store that COMMIT was programming and is erased behind it, and every other byte stands. What an imperfect device leaves
instead, and that it ends at this event, is the model's (operand `left`, log entries 5 and 29). -/
def Obligations.StartUpLoad : Prop :=
  (∀ (left read : Disturb) (s : State) (stored : Option Tables), s.phase = .starting → s.cut = none → s.seg.port = .silent →
    stored = readStore (disturb read (s.flash.readRun 0 2117)) →
    ∃ t, exec (.startUpLoadDone left read) s = .next t ∧ t.phase = .running ∧ t.tables = stored.getD .factory ∧
      t.au.list = (if stored.isSome then s.au.list else (s.au.report .configBad .none none).list) ∧
      (∀ k : SlotId, t.tables.slots[k].enabled = false → t.slots[k] = SlotStatus.vacant) ∧
      (∀ k : SlotId, t.tables.slots[k].enabled = true →
        t.slots[k] = { SlotStatus.vacant with state := .absent, cls := some (expectedLookup t.tables.slots[k].expClass t) }) ∧
      (s.lineHigh = false → t.lm.line = .gap ∧ t.lm.settle = none) ∧
      (s.lineHigh = true → t.lm.line = .settle ∧
        ∀ c ms, (c, ms) ∈ [(0, 50), (1, 100), (2, 200), (3, 400), (4, 800)] → t.tables.settings.settleCode = c →
          t.lm.settle = some ms) ∧
      t.ctx = s.ctx ∧ t.flash = s.flash ∧ t.queues = s.queues ∧ t.pool = s.pool ∧ t.ports = s.ports ∧ t.ma = s.ma ∧
      t.bc = s.bc ∧ t.seg = s.seg ∧ t.catSt = s.catSt ∧ t.reader = s.reader) ∧
  ∀ (left read : Disturb) (s : State) (x : CutOp), s.phase = .starting → s.cut = some x → Memory.wf s.flash →
    ∃ m : Memory, Memory.wf m ∧
      exec (.startUpLoadDone left read) s = exec (.startUpLoadDone [] read) { s with flash := m, cut := none } ∧
      (∀ k, x = .erase k → (∀ a, a < 4096 * (256 + k) ∨ 4096 * (257 + k) ≤ a → m.read a = s.flash.read a) ∧
        ∀ j, j < 4096 → m.read (4096 * (256 + k) + j) =
          if j < left.length then s.flash.read (4096 * (256 + k) + j) ||| ~~~(left.getD j 0) else 0xFF) ∧
      (∀ r d, x = .program r d → d.length = 128 →
        ((∃ j, j < 130 ∧ s.flash.read (recordAddr r + j) ≠ 0xFF) → m = s.flash) ∧
        ((∀ j, j < 130 → s.flash.read (recordAddr r + j) = 0xFF) →
          (∀ a, a < recordAddr r ∨ recordAddr r + 130 ≤ a → m.read a = s.flash.read a) ∧
          ∀ j, j < 130 → m.read (recordAddr r + j) = (recordImage d).getD j 0 ^^^ left.getD j 0)) ∧
      ∀ store, x = .commit store → store.length ≤ 4096 → (∀ a, 4096 ≤ a → m.read a = s.flash.read a) ∧
        ∀ j, j < 4096 → m.read j = store.getD j 0xFF ^^^ left.getD j 0

/-- What COMMIT programs is what the start-up load installs: a store made of any tables that writes can leave reads back as those
tables (R177, R179, R198). The store is, in this order, the identifier 0x43524232, the settings entry, class entries 0 to 7, slot entries
0 to 31, catalogue entries 0 to 15, forwarding rules 0 to 47, capture rules 0 to 31, each in its layout, and the CRC-32 over all bytes
before it (R177). And bytes read from sector 0 are a good store exactly where three conditions hold: they begin with the identifier, the
CRC-32 behind the capture rules is that of the bytes before it, and every entry is accepted at its place, with unique node addresses among
enabled slots (R179). The CRC-32 starts from all ones and is inverted at its end (R57); its steps stand in `Obligations.ScanIdentity`.
That the identifier lies most significant byte first is the model's choice (log entry 31). -/
def Obligations.StoreReadsBack : Prop :=
  (∀ t : Tables, Writable t → readStore t.store = some t) ∧
  (∀ (t : Tables) (body : List Byte), body = [0x43, 0x52, 0x42, 0x32] ++ t.settings.encode ++
      (t.classes.toList.map ClassEntry.encode).flatten ++ (t.slots.toList.map SlotEntry.encode).flatten ++
      (t.cat.toList.map CatEntry.encode).flatten ++ (t.fwd.toList.map FwdRule.encode).flatten ++
      (t.cap.toList.map CapRule.encode).flatten → t.store = body ++ be32 (crc32 body)) ∧
  (∀ (b : List Byte) (t : Tables), 2117 ≤ b.length → (readStore b = some t ↔
    b.take 4 = [0x43, 0x52, 0x42, 0x32] ∧ (b.drop 2113).take 4 = be32 (crc32 (b.take 2113)) ∧
    Settings.decode ((b.drop 4).take 13) = some t.settings ∧
    (∀ i : ClassId, ClassEntry.decode ((b.drop (17 + 24 * i)).take 24) = some t.classes[i]) ∧
    (∀ i : SlotId, SlotEntry.decode ((b.drop (209 + 8 * i)).take 8) = some t.slots[i]) ∧
    (∀ i : ImageId, CatEntry.decode ((b.drop (465 + 54 * i)).take 54) = some t.cat[i]) ∧
    (∀ i : Fin 48, FwdRule.decode ((b.drop (1329 + 11 * i)).take 11) = some t.fwd[i]) ∧
    (∀ i : Fin 32, CapRule.decode ((b.drop (1857 + 8 * i)).take 8) = some t.cap[i]) ∧
    ∀ j k : SlotId, j ≠ k → t.slots[j].enabled = true → t.slots[k].enabled = true → t.slots[j].addr ≠ t.slots[k].addr)) ∧
  ∀ bs : List Byte, crc32 bs = ~~~ crc32Step 0xFFFFFFFF bs

/-- Each configuration entry is returned in the very bytes in which it was accepted (R170, R198). And the bytes of an entry are accepted
exactly where every field lies in its range: for settings, classes and slots the ranges and codes of the layouts, with NONE and ANY, and
at most 64 context bytes of a class; for a catalogue entry the length 1 to 4096 and each enabled window, first to last block inside the
image and inside the record area; for a forwarding rule the codes, the two address ranges in order and no STATUS rule DOWN; for a capture
rule the codes, the offset and the field (R1, R9, R59, R119, R138, R171, R198). And each field of an accepted entry is that of its place
in the layout: byte `n j` at offset j, or the bytes from there on, most significant first, with the codes of the layout, so that by the
first clause a returned entry shows each field at its place (R198). The unique address of an enabled slot (R1) is judged against the
other slots, in `Obligations.SlotWritten`. -/
def Obligations.EntriesReadBack : Prop :=
  (∀ (b : List Byte) (e : Settings), b.length = 13 → Settings.decode b = some e → e.encode = b) ∧
    (∀ (b : List Byte) (e : ClassEntry), b.length = 24 → ClassEntry.decode b = some e → e.encode = b) ∧
    (∀ (b : List Byte) (e : SlotEntry), b.length = 8 → SlotEntry.decode b = some e → e.encode = b) ∧
    (∀ (b : List Byte) (e : CatEntry), b.length = 54 → CatEntry.decode b = some e → e.encode = b) ∧
    (∀ (b : List Byte) (e : FwdRule), b.length = 11 → FwdRule.decode b = some e → e.encode = b) ∧
    (∀ (b : List Byte) (e : CapRule), b.length = 8 → CapRule.decode b = some e → e.encode = b) ∧
    (∀ (b : List Byte) (n w : Nat → Nat), (∀ j, n j = (b.getD j 0).toNat) → (∀ j, w j = 256 * n j + n (j + 1)) →
      ((Settings.decode b).isSome = true ↔ 1 ≤ n 0 ∧ n 0 ≤ 0xEF ∧ 1 ≤ n 1 ∧ n 1 ≤ 8 ∧ n 2 ≤ 1 ∧ n 3 ≤ 1 ∧ n 4 ≤ 8 ∧ 1 ≤ n 5 ∧ n 5 ≤ 8 ∧
        5 ≤ n 6 ∧ 1 ≤ n 7 ∧ n 7 ≤ 16 ∧ 2 ≤ n 8 ∧ n 8 ≤ 15 ∧ 1 ≤ n 9 ∧ n 9 ≤ 8 ∧ n 10 ≤ 5 ∧ n 11 ≤ 4 ∧ 1 ≤ n 12 ∧ n 12 ≤ 63) ∧
      ((ClassEntry.decode b).isSome = true ↔ n 0 ≤ 7 ∧ (n 1 ≤ 15 ∨ n 1 = 0xFF) ∧ n 2 ≤ 3 ∧ n 3 ≤ 3 ∧ 1 ≤ n 4 ∧ n 4 ≤ 15 ∧ n 5 ≤ 1 ∧
        n 6 ≤ 1 ∧ n 7 ≤ 1 ∧ (∀ f, f < 16 → n (8 + f) ≤ 8) ∧ ((List.range 16).map (fun f => n (8 + f))).sum ≤ 64) ∧
      ((SlotEntry.decode b).isSome = true ↔ n 0 ≤ 1 ∧ 1 ≤ n 1 ∧ n 1 ≤ 0xEF ∧ (w 2 ≤ 0xFF ∨ w 2 = 0xFFFF) ∧ (n 4 ≤ 15 ∨ n 4 = 0xFF) ∧
        (n 5 ≤ 3 ∨ n 5 = 0xFF) ∧ w 6 ≤ 0x7FFF) ∧
      ((CatEntry.decode b).isSome = true ↔ n 0 ≤ 1 ∧ 1 ≤ w 5 ∧ w 5 ≤ 4096 ∧ ∀ k base, k ∈ [18, 27, 36, 45] →
        base = 65536 * w (k + 5) + w (k + 7) → n k ≤ 1 ∧ (n k = 1 → w (k + 1) ≤ w (k + 3) ∧ w (k + 3) < w 5 ∧ base ≤ 119039 ∧
          base + (w (k + 3) - w (k + 1)) ≤ 119039)) ∧
      ((FwdRule.decode b).isSome = true ↔ n 0 ≤ 1 ∧ n 1 ≤ 1 ∧ n 2 ≤ 1 ∧ ¬ (n 2 = 1 ∧ n 1 = 0) ∧ 1 ≤ n 3 ∧ 1 ≤ n 4 ∧ n 3 ≤ n 4 ∧ n 5 ≤ n 6 ∧
        n 9 ≤ 2 ∧ n 10 ≤ 1) ∧
      ((CapRule.decode b).isSome = true ↔ n 0 ≤ 1 ∧ n 1 ≤ 2 ∧ n 4 ≤ 239 ∧ n 5 ≤ 15 ∧ n 7 ≤ 1)) ∧
    ∀ (b : List Byte) (n w : Nat → Nat), (∀ j, n j = (b.getD j 0).toNat) → (∀ j, w j = 256 * n j + n (j + 1)) →
      (∀ e, Settings.decode b = some e → e.mgmtAddr.toNat = n 0 ∧ e.classCount = n 1 ∧
        (n 2, e.downDefault) ∈ [(0, DefaultAction.forward), (1, .drop)] ∧ (n 3, e.upDefault) ∈ [(0, DefaultAction.forward), (1, .drop)] ∧
        e.holdDepth = n 4 ∧ e.window = n 5 ∧ e.stageTimeout = n 6 ∧ e.answerTimeout = n 7 ∧ e.presenceLimit = n 8 ∧ e.debtLimit = n 9 ∧
        e.deglitchCode = n 10 ∧ e.settleCode = n 11 ∧ e.resendLimit = n 12) ∧
      (∀ e, ClassEntry.decode b = some e → e.rank = n 0 ∧ e.selector.elim 0xFF Fin.val = n 1 ∧
        (n 2, e.policy) ∈ [(0, FailPolicy.retry), (1, .latch), (2, .report), (3, .ignore)] ∧ e.retryTime = n 3 ∧ e.retryLimit = n 4 ∧
        (n 5, e.loss) ∈ [(0, LossPolicy.keep), (1, .clear)] ∧ e.holdEnable = decide (n 6 = 1) ∧ e.warmAllowed = decide (n 7 = 1) ∧
        ∀ f : FieldId, e.layout[f] = n (8 + f)) ∧
      (∀ e, SlotEntry.decode b = some e → e.enabled = decide (n 0 = 1) ∧ e.addr.toNat = n 1 ∧ e.expClass.elim 0xFFFF BitVec.toNat = w 2 ∧
        e.override.elim 0xFF Fin.val = n 4 ∧ e.group.elim 0xFF Fin.val = n 5 ∧ e.groups.toNat = w 6) ∧
      (∀ e, CatEntry.decode b = some e → e.valid = decide (n 0 = 1) ∧ e.tag.toNat = 65536 * w 1 + w 3 ∧ e.length = w 5 ∧
        e.entryWord.toNat = 65536 * w 7 + w 9 ∧ e.check.toNat = 65536 * w 11 + w 13 ∧ e.minHw = n 15 ∧ e.minBoot = w 16 ∧
        ∀ (j : Fin 4) (k : Nat), k = 18 + 9 * j →
          e.windows[j] = ⟨decide (n k = 1), w (k + 1), w (k + 3), 65536 * w (k + 5) + w (k + 7)⟩) ∧
      (∀ e, FwdRule.decode b = some e → e.enable = decide (n 0 = 1) ∧ (n 1, e.dir) ∈ [(0, Direction.down), (1, .up)] ∧
        (n 2, e.kind) ∈ [(0, RuleKind.data), (1, .status)] ∧ e.dstLow.toNat = n 3 ∧ e.dstHigh.toNat = n 4 ∧ e.srcLow.toNat = n 5 ∧
        e.srcHigh.toNat = n 6 ∧ e.typeValue.toNat = n 7 ∧ e.typeMask.toNat = n 8 ∧
        (n 9, e.action) ∈ [(0, FwdAction.forward), (1, .forwardNoHold), (2, .drop)] ∧ e.capture = decide (n 10 = 1)) ∧
      ∀ e, CapRule.decode b = some e → e.enable = decide (n 0 = 1) ∧
        (n 1, e.source) ∈ [(0, CapSource.dataDown), (1, .dataUp), (2, .status)] ∧ e.typeValue.toNat = n 2 ∧ e.typeMask.toNat = n 3 ∧
        e.offset = n 4 ∧ e.field.val = n 5 ∧ e.classMask.toNat = n 6 ∧ (n 7, e.mode) ∈ [(0, TargetMode.addressed), (1, .all)]

/-! ## Laws of every step -/

/-- ATTN and the PERMIT outputs follow their conditions, after every step (R161, R183). -/
def Obligations.OutputsFollowAlways : Prop := ∀ s t : State, OutputsFollow s → step s = .next t → OutputsFollow t

/-- The silent flag stands exactly in GAP and SETTLE, after every step; and no transmission begins on the segment in them: what is being
sent then was being sent before (R94, R95). The law's clause that the line is in GAP while the start-up load runs is the model's choice
(log entry 11). -/
def Obligations.SegmentSilentAlways : Prop :=
  ∀ s t : State, SegmentSilent s → step s = .next t →
    SegmentSilent t ∧
      ∀ x, t.lm.line = .gap ∨ t.lm.line = .settle → t.seg.port = .sending x → s.seg.port = .sending x

/-- The flash contents keep their canonical form, after every step. -/
def Obligations.FlashCanonicalAlways : Prop := ∀ s t : State, FlashCanonical s → step s = .next t → FlashCanonical t

/-- The attention list keeps its law, after every step (R183, R184). -/
def Obligations.AttentionLawAlways : Prop := ∀ s t : State, AttentionLaw s → step s = .next t → AttentionLaw t

/-- The queues and the turn debt keep their bounds, after every step (R75, R97, R99, R128, R129); and so does the pool's law that ties every
queue to the pool: each reference count is the number of entries that reference the buffer, and a buffer holds a frame exactly while some
entry does (R116). -/
def Obligations.BoundedAlways : Prop :=
  (∀ s t : State, Bounded s → step s = .next t → Bounded t) ∧ ∀ s t : State, PoolLaw s → step s = .next t → PoolLaw t

/-- The laws hold at reset (R112, R132, R164, R188), and after every step: those of sessions and hold queues (R6, R22, R30, R35, R124), of
pins and the fill queue (R75, R79, R86, R87, R168) and of context records (R134, R135). Their clauses on the start-up load rest on log
entries 2 and 11. And while a PIN runs, its reservation equals its waiting blocks, the queued entries with pin-on-complete and the fill in
flight that carries it (R87), with what that equality needs: each of its blocks is counted in one of these places, its entry is not BAD,
and every FILLING line is that of the fill in flight (R72, R81, R88). -/
def Obligations.LawsAtReset : Prop :=
  OutputsFollow State.reset ∧ SegmentSilent State.reset ∧ FlashCanonical State.reset ∧ AttentionLaw State.reset ∧
    Bounded State.reset ∧ PoolLaw State.reset ∧ RestoreLaw State.reset ∧ PinLaw State.reset ∧ RecordLaw State.reset ∧
    (∀ s t : State, RestoreLaw s → step s = .next t → RestoreLaw t) ∧ (∀ s t : State, PinLaw s → step s = .next t → PinLaw t) ∧
    (∀ s t : State, RecordLaw s → step s = .next t → RecordLaw t) ∧
    PinBalance State.reset ∧ ∀ s t : State, PinLaw s → PinBalance s → step s = .next t → PinBalance t

/-! ## Line and timers -/

/-- A fall of LINE: UP to DIP with the deglitch timer at the duration of its code, SETTLE to GAP with the settle timer cancelled (R151,
R152). A rise of LINE: DIP to UP with the dip count one higher (saturating), GAP to SETTLE with the settle timer at the duration of its
code (R151, R153, R154). Line up: UP, no settle timer, every miss count 0, the silent flag clear, the port out of SILENT (R94, R111,
R151, R156). -/
def Obligations.LineMoves : Prop :=
  ((∀ (s : State) (c ms : Nat), (c, ms) ∈ [(0, 1), (1, 2), (2, 5), (3, 10), (4, 20), (5, 50)] → s.phase = .running →
    s.lm.line = .up → s.tables.settings.deglitchCode = c →
    exec .lineFalls s = .next (finish { s with lineHigh := false, lm := { s.lm with line := .dip, deglitch := some ms } })) ∧
  ∀ s : State, s.phase = .running → s.lm.line = .settle →
    exec .lineFalls s = .next (finish { s with lineHigh := false, lm := { s.lm with line := .gap, settle := none } })) ∧
  ((∀ s : State, s.phase = .running → s.lm.line = .dip →
    exec .lineRises s = .next (finish { s with
      lineHigh := true
      lm := { s.lm with
        line := .up, deglitch := none, dips := if s.lm.dips < 65535 then s.lm.dips + 1 else s.lm.dips } })) ∧
  ∀ (s : State) (c ms : Nat), (c, ms) ∈ [(0, 50), (1, 100), (2, 200), (3, 400), (4, 800)] → s.phase = .running →
    s.lm.line = .gap → s.tables.settings.settleCode = c →
    exec .lineRises s = .next (finish { s with lineHigh := true, lm := { s.lm with line := .settle, settle := some ms } })) ∧
  (∀ s : State, s.lm.line = .settle →
    exec .settleTimerExpiry s = .next (finish { s with
      lm := { s.lm with line := .up, settle := none }
      slots := vmap (fun x => { x with miss := 0 }) s.slots
      seg := { s.seg with silent := false, port := if s.seg.port = .silent then .free else s.seg.port } }))

/-- A confirmed gap: line state GAP, gap count one higher, requests and outputs clear, the segment silent and the turn closed, the hold
queues and the outbound queue flushed but for an entry under transmission, every slot that is not VACANT and not FAILED DARK with no
session, no timer and no REBOOT_PENDING, its other items kept. The sessions ended are withdrawn from the requesters of queued fills, whose
ranks are computed again, and of the fill in flight, and each users count falls by those on its entry. The reader keeps its work, a fill
its line, block, record and marks; configuration, records, cache lines, pins, agent and flash stand (R18, R30, R33, R77, R95, R109, R110,
R151, R155, R160). With room in the trunk queue and the pool, each flushed station frame is answered with REFUSE(NOT_READY) at the tail of
the trunk queue, each flush in its own order, and no counter and no attention entry changes (R110, R126, R127; that the order between
flushes is free is R155 and log entry 6). -/
def Obligations.GapConfirmed : Prop :=
  ∀ (s : State) (gone : SlotId → Bool), s.lm.line = .dip →
    (∀ k : SlotId, gone k = (s.slots[k].session.isSome && decide (s.slots[k].state ≠ .vacant ∧ s.slots[k].state ≠ .failed))) →
    ∃ t, exec .deglitchTimerExpiry s = .next t ∧
    t.lm.line = .gap ∧ t.lm.deglitch = none ∧ t.lm.gaps = (if s.lm.gaps < 65535 then s.lm.gaps + 1 else s.lm.gaps) ∧
    t.lm.dips = s.lm.dips ∧ t.lm.settle = s.lm.settle ∧ (∀ g : GroupId, t.lm.requests[g] = false ∧ t.lm.permits[g] = false) ∧
    t.seg.silent = true ∧ (s.seg.port = .free ∨ s.seg.port = .window → t.seg.port = .silent ∧ t.seg.turn = none) ∧
    (∀ x, s.seg.port = .sending x → t.seg.port = .sending x ∧ t.seg.turn = s.seg.turn.map (fun u => { u with closed := true })) ∧
    (∀ w, s.seg.port = .receiving w →
      t.seg.port = .receiving w ∧ t.seg.turn = s.seg.turn.map (fun u => { u with closed := true })) ∧
    t.seg.debt = s.seg.debt ∧ t.seg.ringCursor = s.seg.ringCursor ∧ t.seg.urgentCursor = s.seg.urgentCursor ∧
    t.seg.lastTurn = s.seg.lastTurn ∧ (∀ k : SlotId, t.queues.hold[k] = []) ∧
    t.queues.out = (if s.seg.port = .sending .outbound then s.queues.out.take 1 else []) ∧ t.queues.service = s.queues.service ∧
    (∀ k : SlotId, s.slots[k].state = .vacant ∨ s.slots[k].state = .failed → t.slots[k] = s.slots[k]) ∧
    (∀ k : SlotId, s.slots[k].state ≠ .vacant → s.slots[k].state ≠ .failed →
      t.slots[k] = { s.slots[k] with state := .dark, session := none, catInUse := none, reboot := none, retryTimer := none }) ∧
    t.bc = { s.bc with fills := s.bc.fills.map (fun e => { e with
      reqs := e.reqs.filter (fun k => !gone k)
      rank := if e.reqs.any gone then rankOf (e.reqs.filter (fun k => !gone k)) s else e.rank }) } ∧
    (∀ f, s.reader = .fill f → t.reader = .fill { f with reqs := f.reqs.filter (fun k => !gone k) }) ∧
    ((∀ f, s.reader ≠ .fill f) → t.reader = s.reader) ∧
    (∀ i : ImageId, t.catSt[i] = ⟨s.catSt[i].bad, s.catSt[i].users -
      slotIds.countP (fun k => gone k && s.slots[k].session.any (fun x => decide (x.img = i)))⟩) ∧
    t.tables = s.tables ∧ t.ctx = s.ctx ∧ t.flash = s.flash ∧ t.ma = s.ma ∧ t.phase = s.phase ∧ t.lineHigh = s.lineHigh ∧
    t.cut = s.cut ∧ t.pending = s.pending ∧
    ∀ out fl : List BufId, out = (if s.seg.port = .sending .outbound then s.queues.out.drop 1 else s.queues.out) →
      fl = s.queues.hold.toList.flatten ++ out → PoolLaw s → s.queues.trunk.length + fl.length ≤ 48 →
      fl.length ≤ (freeBufs s).length →
      t.ports = s.ports ∧ t.au.list = s.au.list ∧ t.au.overflow = s.au.overflow ∧
      ∃ new : List TxEntry, t.queues.trunk = s.queues.trunk ++ new ∧ (∀ e ∈ new, e.resets = false) ∧
        (new.map (fun e => t.pool[e.buf].frame)).Perm ((refusalsOf .notReady fl s).map some) ∧
        ((refusalsOf .notReady out s).map some).Sublist (new.map (fun e => t.pool[e.buf].frame)) ∧
        ∀ k : SlotId, ((refusalsOf .notReady s.queues.hold[k] s).map some).Sublist (new.map (fun e => t.pool[e.buf].frame))

/-- The retry timer's expiry: BACKOFF to ABSENT with REBOOT_PENDING, reason retry (R22). The stage timer's expiry ends the session with
failure STALLED (R45). -/
def Obligations.SlotTimersExpire : Prop :=
  (∀ (s : State) (k : SlotId), s.slots[k].state = .backoff → s.slots[k].retryTimer.isSome = true →
    exec (.retryTimerExpiry k) s = .next (finish { s with
      slots := s.slots.set k { s.slots[k] with state := .absent, reboot := some .retry, retryTimer := none } })) ∧
  (∀ (s : State) (k : SlotId) (x : Session), s.slots[k].session = some x → x.timer.isSome = true →
    exec (.stageTimerExpiry k) s = .next (finish (failSlot k .stalled s)))

/-- A failure: the session ends, its users count falls by one, the slot is withdrawn from the requesters of queued fills, whose ranks are
computed again, and of the fill in flight, while lines, recency order, flags and pin reservation stand, the hold queue is flushed, the
cause is recorded, the expected tag and every flag are kept, and the policy of the resolved class gives state, retry count, timer and
attention: RESTORE_FAILED with the cause as detail under RETRY below the limit, LATCH and REPORT, RETRIES_EXHAUSTED at the limit, none
under IGNORE, after what the flush reports; no other slot, no table, no record, and nothing of line, segment, flash or agent changes (R20,
R21, R22, R30, R33, R48, R77, R126). Of the queues only the slot's hold queue and the trunk queue change: each held station frame is
answered with REFUSE(NOT_READY), in queue order, at the tail of the trunk queue, and each copy is released without one, shown with room in
trunk queue and pool, where no counter and no report of the flush changes anything (R118, R126, R127). -/
def Obligations.FailureByPolicy : Prop :=
  ∀ (s : State) (k : SlotId) (c : ClassId) (e : ClassEntry) (cause : Cause) (u : Attention), s.slots[k].cls = some c →
    s.tables.classes[c] = e → u = (flushHold k (endSession k s)).au →
    (failSlot k cause s).slots[k].session = none ∧ (failSlot k cause s).slots[k].lastCause = some cause ∧
    (failSlot k cause s).slots[k].catInUse = none ∧ (failSlot k cause s).slots[k].expTag = s.slots[k].expTag ∧
    (failSlot k cause s).queues.hold[k] = [] ∧
    (e.policy = .retry → s.slots[k].retry + 1 < e.retryLimit →
      (failSlot k cause s).slots[k].state = .backoff ∧ (failSlot k cause s).slots[k].retry = s.slots[k].retry + 1 ∧
      ∀ ms, (e.retryTime, ms) ∈ [(0, 250), (1, 1000), (2, 3000), (3, 8000)] →
        (failSlot k cause s).slots[k].retryTimer = some ms) ∧
    (e.policy = .retry → e.retryLimit ≤ s.slots[k].retry + 1 →
      (failSlot k cause s).slots[k].state = .failed ∧ (failSlot k cause s).slots[k].retry = s.slots[k].retry + 1) ∧
    (e.policy = .latch → (failSlot k cause s).slots[k].state = .failed ∧ (failSlot k cause s).slots[k].retry = s.slots[k].retry) ∧
    (e.policy = .report ∨ e.policy = .ignore →
      (failSlot k cause s).slots[k].state = .absent ∧ (failSlot k cause s).slots[k].retry = s.slots[k].retry) ∧
    (∀ j : SlotId, j ≠ k → (failSlot k cause s).slots[j] = s.slots[j]) ∧
    (failSlot k cause s).tables = s.tables ∧ (failSlot k cause s).ctx = s.ctx ∧ (failSlot k cause s).lm = s.lm ∧
    (failSlot k cause s).seg = s.seg ∧ (failSlot k cause s).flash = s.flash ∧ (failSlot k cause s).ma = s.ma ∧
    { (failSlot k cause s).slots[k] with
      state := s.slots[k].state, session := s.slots[k].session, lastCause := s.slots[k].lastCause, retry := s.slots[k].retry
      catInUse := s.slots[k].catInUse, retryTimer := s.slots[k].retryTimer } = s.slots[k] ∧
    (failSlot k cause s).au = (if e.policy = .ignore then u
      else if e.policy = .retry ∧ e.retryLimit ≤ s.slots[k].retry + 1 then u.report .retriesExhausted (.slot k) (some cause)
      else u.report .restoreFailed (.slot k) (some cause)) ∧
    (s.queues.hold[k] = [] → u = s.au ∧ (failSlot k cause s).queues = s.queues ∧ (failSlot k cause s).pool = s.pool ∧
      (failSlot k cause s).ports = s.ports) ∧
    (failSlot k cause s).queues =
      { s.queues with hold := s.queues.hold.set k [], trunk := (failSlot k cause s).queues.trunk } ∧
    (PoolLaw s → s.queues.trunk.length + s.queues.hold[k].length ≤ 48 → s.queues.hold[k].length ≤ (freeBufs s).length →
      (failSlot k cause s).ports = s.ports ∧ u = s.au ∧
      ∃ new : List TxEntry, (failSlot k cause s).queues.trunk = s.queues.trunk ++ new ∧ (∀ e ∈ new, e.resets = false) ∧
        new.map (fun e => (failSlot k cause s).pool[e.buf].frame) = (refusalsOf .notReady s.queues.hold[k] s).map some) ∧
    (∀ i : ImageId, (failSlot k cause s).catSt[i] = ⟨s.catSt[i].bad, s.catSt[i].users -
      if s.slots[k].session.any (fun x => decide (x.img = i)) = true then 1 else 0⟩) ∧
    (s.slots[k].session.isSome = true → Withdrawn k s (failSlot k cause s) ∧
      (∀ f ∈ (failSlot k cause s).bc.fills, k ∉ f.reqs) ∧ ∀ f, (failSlot k cause s).reader = .fill f → k ∉ f.reqs) ∧
    (s.slots[k].session = none → (failSlot k cause s).bc = s.bc ∧ (failSlot k cause s).reader = s.reader)

/-! ## Segment -/

/-- A frame begins: in WINDOW the answer timer is cancelled and the frame is the candidate answer, in FREE and SILENT it is outside any
window (R94, R103, R106). The answer timer's expiry: the window closes; a void turn adds no miss, and a miss below the presence limit
counts one (R94, R104, R105). -/
def Obligations.WindowEvents : Prop :=
  (∀ s : State, s.phase = .running →
    (s.seg.port = .window → exec .frameBeginsOnSegment s =
      .next (finish { s with seg := { s.seg with port := .receiving true, answerTimer := none } })) ∧
    (s.seg.port = .free ∨ s.seg.port = .silent → exec .frameBeginsOnSegment s =
      .next (finish { s with seg := { s.seg with port := .receiving false } }))) ∧
  (∀ (s : State) (u : Turn) (g : Segment), s.seg.port = .window → s.seg.turn = some u →
    g = { s.seg with port := if s.seg.silent then .silent else .free, turn := none, answerTimer := none } →
    (u.void = true → exec .answerTimerExpiry s = .next (finish { s with seg := g })) ∧
    (u.void = false → s.slots[u.slot].miss + 1 < s.tables.settings.presenceLimit →
      exec .answerTimerExpiry s = .next (finish { s with
        seg := g, slots := s.slots.set u.slot { s.slots[u.slot] with miss := s.slots[u.slot].miss + 1 } })) ∧
    (u.void = false → s.tables.settings.presenceLimit ≤ s.slots[u.slot].miss + 1 →
      exec .answerTimerExpiry s = .next (finish { presenceLost u.slot { s with
        slots := s.slots.set u.slot { s.slots[u.slot] with miss := 0 } } with seg := g })))

/-- Presence loss by the slot's state: RUNNING to ABSENT with LOST, the record emptied under loss policy CLEAR and kept under KEEP; DARK to
ABSENT with NOT_BACK; a restoring slot fails with LOST; else no change (R17). -/
def Obligations.PresenceLostByState : Prop :=
  ∀ (s : State) (k : SlotId),
    (∀ c : ClassId, s.slots[k].state = .running → s.slots[k].cls = some c →
      presenceLost k s = { s with
        slots := s.slots.set k { s.slots[k] with state := .absent }
        au := s.au.report .lost (.slot k) none
        ctx := if s.tables.classes[c].loss = .clear then s.ctx.set k (Vector.replicate 16 none) else s.ctx }) ∧
    (s.slots[k].state = .dark →
      presenceLost k s = { s with
        slots := s.slots.set k { s.slots[k] with state := .absent }, au := s.au.report .notBack (.slot k) none }) ∧
    (s.slots[k].state.restoring = true → presenceLost k s = failSlot k .lost s) ∧
    (s.slots[k].state = .absent ∨ s.slots[k].state = .backoff ∨ s.slots[k].state = .failed ∨ s.slots[k].state = .vacant →
      presenceLost k s = s)

/-- The end of a frame on the segment. Outside any window it is counted bad, with no miss added and none cleared (R94, R106). In the
window, a frame that is no frame, of a kind not received there, or from another source is counted bad and is a miss (R103, R104, R114). A
good frame from the turned address is an answer, and the miss count becomes 0. With 8 or fewer free buffers it is an overrun with its
report and reaches no owner (R108, R117). Else it is counted good and goes to its owner: EMPTY to none, BOOTCALL to the lifecycle, restore
answers to the restore engine, STATUS to lifecycle, capture and forwarding in that order, DATA to forwarding (R107). A BOOTCALL in GAP or
SETTLE and a restore answer with no session are presence alone (R8, R47). DATA of a RUNNING slot, offered to capture first where its rule
has capture 1, and a STATUS in GAP or SETTLE, always offered, go by their lookup: to the tail of the trunk queue, an overrun of the trunk
where it is full, or dropped; DATA of any other slot is an orphan (R130, R131, R139). A miss that reaches the presence limit sets the
count to 0 and is presence loss (R104). In the window of a void turn a bad frame is no miss, and a good one reaches no owner; that it is
counted good is the model's (log entry 20; R105). -/
def Obligations.SegmentFrameJudged : Prop :=
  (∀ (s : State) (bytes : List Byte), s.seg.port = .receiving false →
    exec (.segmentFrameEnd bytes) s = .next (finish { s with
      ports := { s.ports with segment := { s.ports.segment with
        staged := [], bad := if s.ports.segment.bad < 65535 then s.ports.segment.bad + 1 else s.ports.segment.bad } }
      seg := { s.seg with port := if s.seg.silent then .silent else .free, turn := none, answerTimer := none } })) ∧
  (∀ (s : State) (bytes : List Byte) (u : Turn), s.seg.port = .receiving true → s.seg.turn = some u → u.void = false →
    u.closed = false → (∀ f, parseFrame bytes = some f → f.src ≠ u.addr) →
    s.slots[u.slot].miss + 1 < s.tables.settings.presenceLimit →
    exec (.segmentFrameEnd bytes) s = .next (finish { s with
      slots := s.slots.set u.slot { s.slots[u.slot] with miss := s.slots[u.slot].miss + 1 }
      ports := { s.ports with segment := { s.ports.segment with
        staged := [], bad := if s.ports.segment.bad < 65535 then s.ports.segment.bad + 1 else s.ports.segment.bad } }
      seg := { s.seg with port := if s.seg.silent then .silent else .free, turn := none, answerTimer := none } })) ∧
  (∀ (s : State) (bytes : List Byte) (u : Turn) (f : Frame), s.seg.port = .receiving true → s.seg.turn = some u →
    u.void = false → parseFrame bytes = some f → f.kind = .empty → f.src = u.addr → 8 < (freeBufs s).length →
    ∃ t, exec (.segmentFrameEnd bytes) s = .next (finish t) ∧
      t.slots = s.slots.set u.slot { s.slots[u.slot] with miss := 0 } ∧
      t.ports = { s.ports with segment := { s.ports.segment with
        staged := [], good := if s.ports.segment.good < 65535 then s.ports.segment.good + 1 else s.ports.segment.good } } ∧
      t.seg = { s.seg with port := if s.seg.silent then .silent else .free, turn := none, answerTimer := none } ∧
      t.queues = s.queues ∧ (∀ b : BufId, t.pool[b].frame = s.pool[b].frame) ∧ t.tables = s.tables ∧ t.ctx = s.ctx ∧
      t.catSt = s.catSt ∧ t.bc = s.bc ∧ t.reader = s.reader ∧ t.flash = s.flash ∧ t.ma = s.ma ∧ t.au = s.au ∧ t.lm = s.lm) ∧
  (∀ (s : State) (bytes : List Byte) (u : Turn) (c : PortState) (g : Segment), s.seg.port = .receiving true → s.seg.turn = some u →
    c = { s.ports.segment with staged := [] } →
    g = { s.seg with port := if s.seg.silent then .silent else .free, turn := none, answerTimer := none } →
    ((∀ f, parseFrame bytes = some f → f.src ≠ u.addr ∨ f.kind ∈ [Kind.refuse, .turn, .block, .startimg, .ctxload, .reboot, .mgmtReq,
        .mgmtReply]) → ∀ v : State,
      v = { s with seg := g, ports := { s.ports with segment := { c with bad := if c.bad < 65535 then c.bad + 1 else c.bad } } } →
      (u.void = true ∨ u.closed = true → exec (.segmentFrameEnd bytes) s = .next (finish v)) ∧
      (u.void = false → u.closed = false → s.slots[u.slot].miss + 1 < s.tables.settings.presenceLimit →
        exec (.segmentFrameEnd bytes) s = .next (finish { v with
          slots := s.slots.set u.slot { s.slots[u.slot] with miss := s.slots[u.slot].miss + 1 } })) ∧
      (u.void = false → u.closed = false → s.tables.settings.presenceLimit ≤ s.slots[u.slot].miss + 1 →
        exec (.segmentFrameEnd bytes) s = .next (finish (leavePort (stage .segment [] (presenceLost u.slot { s with
          slots := s.slots.set u.slot { s.slots[u.slot] with miss := 0 }
          ports := { s.ports with segment := { c with
            staged := bytes, bad := if c.bad < 65535 then c.bad + 1 else c.bad } } })))))) ∧
    (∀ (f : Frame) (p : Ports) (sl : Vector SlotStatus 32), parseFrame bytes = some f → f.src = u.addr →
      f.kind ∈ [Kind.empty, .data, .status, .bootcall, .loadack, .started, .ready] →
      sl = (if u.void then s.slots else s.slots.set u.slot { s.slots[u.slot] with miss := 0 }) →
      p = { s.ports with segment := { c with good := if c.good < 65535 then c.good + 1 else c.good } } →
      ((freeBufs s).length ≤ 8 → exec (.segmentFrameEnd bytes) s = .next (finish { s with
        slots := sl, seg := g
        ports := { s.ports with segment := { c with overrun := if c.overrun < 65535 then c.overrun + 1 else c.overrun } }
        au := s.au.report .overrun (.port .segment) none })) ∧
      (8 < (freeBufs s).length → u.void = true →
        ∃ t, exec (.segmentFrameEnd bytes) s = .next (finish t) ∧ SameBut s.slots p g s t) ∧
      (8 < (freeBufs s).length → u.void = false →
        (∃ b : BufId, s.pool[b].frame = none ∧ ∀ v w : State,
          v = { s with
            slots := sl, pool := s.pool.set b ⟨some f, 0⟩, ports := { p with segment := { p.segment with staged := bytes } } } →
          (f.kind = .empty ∧ w = v ∨ f.kind = .bootcall ∧ w = bootCallAnswer u.slot f.payload v ∨
            f.kind ∈ [Kind.loadack, .started, .ready] ∧ w = restoreAnswer u.slot f.kind f.payload v ∨
            f.kind = .status ∧ w = upstreamStatus b f (capture .status f (some u.slot) (statusAnswer u.slot f.payload v)) ∨
            f.kind = .data ∧ w = upstreamData u.slot b f v) →
          exec (.segmentFrameEnd bytes) s = .next (finish (leavePort (stage .segment [] (reclaim b w))))) ∧
        (f.kind = .bootcall ∧ (s.lm.line = .gap ∨ s.lm.line = .settle) ∨
            f.kind ∈ [Kind.loadack, .started, .ready] ∧ s.slots[u.slot].session = none →
          ∃ t, exec (.segmentFrameEnd bytes) s = .next (finish t) ∧ SameBut sl p g s t) ∧
        (f.kind = .data → s.slots[u.slot].state ≠ .running → ∃ t, exec (.segmentFrameEnd bytes) s = .next (finish t) ∧
          SameBut sl { p with segment := { p.segment with
            orphan := if p.segment.orphan < 65535 then p.segment.orphan + 1 else p.segment.orphan } } g s t) ∧
        (∀ (a : FwdAction) (cap : Bool) (w : State),
          f.kind = .data ∧ s.slots[u.slot].state = .running ∧ lookup .up .data f s = (a, cap) ∧
              w = (if cap then capture .dataUp f (some u.slot) s else s) ∨
            f.kind = .status ∧ (s.lm.line = .gap ∨ s.lm.line = .settle) ∧ (lookup .up .status f s).1 = a ∧
              w = capture .status f (some u.slot) s →
          w = { s with ctx := w.ctx } ∧
          (a = .drop → ∃ t, exec (.segmentFrameEnd bytes) s = .next (finish t) ∧ SameBut sl p g w t) ∧
          (a ≠ .drop → s.queues.trunk.length < 48 → ∃ b : BufId, s.pool[b].frame = none ∧
            exec (.segmentFrameEnd bytes) s = .next (finish { w with
              slots := sl, seg := g, ports := p, pool := s.pool.set b ⟨some f, 1⟩
              queues := { s.queues with trunk := s.queues.trunk ++ [⟨b, false⟩] } })) ∧
          (a ≠ .drop → 48 ≤ s.queues.trunk.length → ∃ t, exec (.segmentFrameEnd bytes) s = .next (finish t) ∧
            SameBut sl { p with trunk := { p.trunk with
              overrun := if p.trunk.overrun < 65535 then p.trunk.overrun + 1 else p.trunk.overrun } } g
              { w with au := s.au.report .overrun (.port .trunk) none } t)))))

/-- The end of a transmission on the segment counts the frame; a TURN opens its window with the answer timer at its setting, but with the
silent flag set, or closed meanwhile by a gap or an engine reset, it opens none and leaves the port FREE or SILENT by the flag; a restore
frame leaves the port; a REBOOT also clears REBOOT_PENDING; an outbound entry leaves its queue and releases its buffer (R94, R98, R99, R102,
R109, R113). That a turn closed by a gap stays closed when the line is up again before its end is log entry 21. -/
def Obligations.SegmentTransmissionEnds : Prop :=
  ∀ (s : State) (p : Ports) (g : Segment),
    p = { s.ports with segment := { s.ports.segment with
      transmitted := if s.ports.segment.transmitted < 65535 then s.ports.segment.transmitted + 1 else s.ports.segment.transmitted } } →
    g = { s.seg with port := if s.seg.silent then .silent else .free, turn := none, answerTimer := none } →
    (∀ f u, s.seg.port = .sending (.turn f) → s.seg.turn = some u → u.closed = false → s.seg.silent = false →
      exec .segmentTransmissionEnd s = .next (finish { s with
        ports := p, seg := { s.seg with port := .window, answerTimer := some s.tables.settings.answerTimeout } })) ∧
    (∀ f, s.seg.port = .sending (.turn f) → s.seg.silent = true →
      exec .segmentTransmissionEnd s = .next (finish { s with ports := p, seg := g })) ∧
    (∀ f u, s.seg.port = .sending (.turn f) → s.seg.turn = some u → u.closed = true →
      exec .segmentTransmissionEnd s = .next (finish { s with ports := p, seg := g })) ∧
    (∀ f, s.seg.port = .sending (.restore f) → exec .segmentTransmissionEnd s = .next (finish { s with ports := p, seg := g })) ∧
    (∀ f k, s.seg.port = .sending (.reboot f k) → exec .segmentTransmissionEnd s = .next (finish { s with
      ports := p, seg := g, slots := s.slots.set k { s.slots[k] with reboot := none } })) ∧
    (∀ b bs, s.seg.port = .sending .outbound → s.queues.out = b :: bs → exec .segmentTransmissionEnd s = .next (finish
      { dropRef b { s with queues := { s.queues with out := bs } } with ports := p, seg := g }))

/-! ## Pool, trunk and service link -/

/-- One reference to a buffer released: its count is one lower, and at 0 the buffer is free; no other buffer changes, and nothing but the
pool changes (R116). A REFUSE takes a free buffer and the tail of the trunk transmit queue, addressed and filled by the frame it
refuses; it is not sent when no buffer is free, and is discarded with its buffer, as an overrun of the trunk port with its report, where the
trunk transmit queue holds 48 entries (R118, R127, R128, R185, R194). -/
def Obligations.BuffersReferenced : Prop :=
  (∀ (s : State) (b : BufId), dropRef b s = { s with pool := (dropRef b s).pool } ∧
    (s.pool[b].refs ≤ 1 → (dropRef b s).pool[b] = ⟨none, 0⟩) ∧
    (1 < s.pool[b].refs → (dropRef b s).pool[b] = ⟨s.pool[b].frame, s.pool[b].refs - 1⟩) ∧
    ∀ c : BufId, c ≠ b → (dropRef b s).pool[c] = s.pool[c]) ∧
  (∀ (s : State) (r : RefuseReason) (f : Frame),
    (freeBufs s = [] → refuse r f s = s) ∧
    (freeBufs s ≠ [] → s.queues.trunk.length < 48 → ∃ b : BufId, s.pool[b].frame = none ∧
      refuse r f s = { s with
        pool := s.pool.set b
          ⟨some ⟨f.src, s.tables.settings.mgmtAddr, .refuse, f.seq, [r.code, f.kind.code, f.seq, f.dst]⟩, 1⟩
        queues := { s.queues with trunk := s.queues.trunk ++ [⟨b, false⟩] } }) ∧
    (freeBufs s ≠ [] → 48 ≤ s.queues.trunk.length →
      SameBut s.slots { s.ports with trunk := { s.ports.trunk with
        overrun := if s.ports.trunk.overrun < 65535 then s.ports.trunk.overrun + 1 else s.ports.trunk.overrun } } s.seg
        { s with au := s.au.report .overrun (.port .trunk) none } (refuse r f s)))

/-- The end of a transmission on the trunk or the service link: the head entry leaves, its reference is released, the frame is counted;
after the reply to FULL-RESET the full reset of RESET_N takes place (R115, R128, R129, R181). -/
def Obligations.LinkTransmissionEnds : Prop :=
  ∀ (s : State) (e : TxEntry) (es : List TxEntry),
    (s.queues.trunk = e :: es → e.resets = false → exec .trunkTransmissionEnd s = .next (finish
      { dropRef e.buf { s with queues := { s.queues with trunk := es } } with
        ports := { s.ports with trunk := { s.ports.trunk with
          transmitted := if s.ports.trunk.transmitted < 65535 then s.ports.trunk.transmitted + 1 else s.ports.trunk.transmitted } } })) ∧
    (s.queues.service = e :: es → e.resets = false → exec .serviceTransmissionEnd s = .next (finish
      { dropRef e.buf { s with queues := { s.queues with service := es } } with
        ports := { s.ports with service := { s.ports.service with
          transmitted := if s.ports.service.transmitted < 65535 then s.ports.service.transmitted + 1
            else s.ports.service.transmitted } } })) ∧
    (s.queues.trunk = e :: es → e.resets = true → exec .trunkTransmissionEnd s = exec .resetN s) ∧
    (s.queues.service = e :: es → e.resets = true → exec .serviceTransmissionEnd s = exec .resetN s)

/-- A frame on the trunk or the service link that fails the port's checks is counted bad and changes nothing else: one that is no frame,
one of a kind the port does not accept, on the trunk a MGMT-REQ to another address (R114, R115). A good frame that finds 8 or fewer free
buffers is discarded, counted as an overrun and reported, on either port (R115, R117, R185). A frame that began while the port took no
frames, or was being received at a full reset, and one that ends while the start-up load runs, is not received and is counted nowhere
(R114, R132; that the command says so is the model's, log entry 10). What is a frame: length field L at most 240, L + 7 bytes, the CRC-16
over bytes 0 to 4 + L equal to the last two, most significant first, a destination other than 0x00 and a kind code of the table, with its
fields in their places; the CRC-16 begins with all ones and takes each byte most significant bit first under x^16 + x^12 + x^5 + 1 (R66,
R114, 11.1, 11.2). -/
def Obligations.FrameNotTaken : Prop :=
  (∀ (s : State) (bytes : List Byte), s.phase = .running → parseFrame bytes = none →
    exec (.receiveFrame .trunk bytes) s = .next (finish { s with
      ports := { s.ports with trunk := { s.ports.trunk with
        staged := [], bad := if s.ports.trunk.bad < 65535 then s.ports.trunk.bad + 1 else s.ports.trunk.bad } } }) ∧
    exec (.receiveFrame .service bytes) s = .next (finish { s with
      ports := { s.ports with service := { s.ports.service with
        staged := [], bad := if s.ports.service.bad < 65535 then s.ports.service.bad + 1 else s.ports.service.bad } } })) ∧
  (∀ (s : State) (bytes : List Byte) (f : Frame), s.phase = .running → parseFrame bytes = some f → f.kind = .data →
    (freeBufs s).length ≤ 8 →
    exec (.receiveFrame .trunk bytes) s = .next (finish { s with
      ports := { s.ports with trunk := { s.ports.trunk with
        staged := [], overrun := if s.ports.trunk.overrun < 65535 then s.ports.trunk.overrun + 1 else s.ports.trunk.overrun } }
      au := s.au.report .overrun (.port .trunk) none })) ∧
  (∀ (s : State) (bytes : List Byte) (f : Frame), s.phase = .running → parseFrame bytes = some f →
    (f.kind ≠ .data → f.kind ≠ .mgmtReq ∨ f.dst ≠ s.tables.settings.mgmtAddr →
      exec (.receiveFrame .trunk bytes) s = .next (finish { s with
        ports := { s.ports with trunk := { s.ports.trunk with
          staged := [], bad := if s.ports.trunk.bad < 65535 then s.ports.trunk.bad + 1 else s.ports.trunk.bad } } })) ∧
    (f.kind ≠ .mgmtReq → exec (.receiveFrame .service bytes) s = .next (finish { s with
      ports := { s.ports with service := { s.ports.service with
        staged := [], bad := if s.ports.service.bad < 65535 then s.ports.service.bad + 1 else s.ports.service.bad } } })) ∧
    (f.kind = .mgmtReq → f.dst = s.tables.settings.mgmtAddr → (freeBufs s).length ≤ 8 →
      exec (.receiveFrame .trunk bytes) s = .next (finish { s with
        ports := { s.ports with trunk := { s.ports.trunk with
          staged := [], overrun := if s.ports.trunk.overrun < 65535 then s.ports.trunk.overrun + 1 else s.ports.trunk.overrun } }
        au := s.au.report .overrun (.port .trunk) none })) ∧
    (f.kind = .mgmtReq → (freeBufs s).length ≤ 8 → exec (.receiveFrame .service bytes) s = .next (finish { s with
      ports := { s.ports with service := { s.ports.service with
        staged := []
        overrun := if s.ports.service.overrun < 65535 then s.ports.service.overrun + 1 else s.ports.service.overrun } }
      au := s.au.report .overrun (.port .service) none }))) ∧
  (∀ (s : State) (l : Link) (bytes : List Byte), exec (.receiveFrame (.early l) bytes) s = .next s) ∧
  (∀ (s : State) (a : Arrival) (bytes : List Byte), s.phase = .starting → exec (.receiveFrame a bytes) s = .next s) ∧
  (∀ (bytes : List Byte) (f : Frame) (n : Nat → Nat) (len : Nat), (∀ j, n j = (bytes.getD j 0).toNat) → len = n 4 →
    (parseFrame bytes = some f ↔ len ≤ 240 ∧ bytes.length = len + 7 ∧
      256 * n (len + 5) + n (len + 6) = (crc16 (bytes.take (len + 5))).toNat ∧ n 0 ≠ 0 ∧
      (n 2, f.kind) ∈ [(0x01, Kind.data), (0x02, .status), (0x03, .refuse), (0x10, .turn), (0x11, .empty), (0x20, .bootcall),
        (0x21, .block), (0x22, .loadack), (0x23, .startimg), (0x24, .started), (0x25, .ctxload), (0x26, .ready), (0x27, .reboot),
        (0x30, .mgmtReq), (0x31, .mgmtReply)] ∧
      f.dst = bytes.getD 0 0 ∧ f.src = bytes.getD 1 0 ∧ f.seq = bytes.getD 3 0 ∧ f.payload = (bytes.drop 5).take len)) ∧
  crc16 [] = 0xFFFF ∧ ∀ (bs : List Byte) (b : Byte), crc16 (bs ++ [b]) =
    (List.range 8).foldl (fun c _ => if c.getLsbD 15 then (c <<< 1) ^^^ 0x1021 else c <<< 1) (crc16 bs ^^^ (b ++ (0 : Byte)))

/-- A good trunk DATA frame that finds free buffers. Its lookup, as that of an answer in the UP rules: the lowest-numbered rule that is
enabled, has the direction and the kind, covers destination and source, and matches payload byte 0 under its mask, an empty payload under
mask 0x00 alone, gives action and capture flag; where none matches, the direction's default with capture 0; FORWARD_NOHOLD is taken as
FORWARD in the UP direction (R120). Where its lookup gives capture 1 it is first offered to capture as DATA-DOWN, whatever becomes of it
then; what capture stores is `Obligations.CaptureStored` (R121, R139). To a station, by R122: in GAP or SETTLE REFUSE(NOT_READY); bound to
no slot or to a RUNNING one, with either forwarding action, the tail of the outbound queue, REFUSE(PART_BUSY) where it is full; to a
restoring slot whose class holds, action FORWARD, the tail of its hold queue, REFUSE(HOLD_FULL) where it holds H entries; to a restoring
slot otherwise and to a slot DARK, ABSENT, BACKOFF or FAILED REFUSE(NOT_READY); a REFUSE is shown where the trunk queue has room, and
nothing else changes (R117, R118, R121, R127). Action DROP: it is discarded (R121). To a group or to all: discarded in GAP and SETTLE;
else one outbound entry, or an overrun of the segment port with its report where that queue is full, and a copy for each member slot that
restores and holds, action FORWARD, or one more hold-missed frame of it where its hold queue holds H entries; the buffer is in use while
any entry stands (R116, R123). -/
def Obligations.StationFrameForwarded : Prop :=
  (∀ (s w : State) (bytes : List Byte) (f : Frame) (p : Ports) (a : FwdAction) (cap : Bool), s.phase = .running →
    parseFrame bytes = some f → f.kind = .data → isStation f.dst = true → lookup .down .data f s = (a, cap) → a ≠ .drop →
    s.lm.line = .up ∨ s.lm.line = .dip →
    w = (if cap then capture .dataDown f none s else s) → 8 < (freeBufs s).length →
    p = { s.ports with trunk := { s.ports.trunk with
      staged := [], good := if s.ports.trunk.good < 65535 then s.ports.trunk.good + 1 else s.ports.trunk.good } } →
    ((∀ k : SlotId, s.tables.slots[k].enabled = true → s.tables.slots[k].addr = f.dst → s.slots[k].state = .running) →
      s.queues.out.length < 32 →
      ∃ b : BufId, s.pool[b].frame = none ∧ exec (.receiveFrame .trunk bytes) s = .next (finish { w with
        pool := s.pool.set b ⟨some f, 1⟩, queues := { s.queues with out := s.queues.out ++ [b] }, ports := p })) ∧
    (∀ (k : SlotId) (c : ClassId), a = .forward → s.tables.slots[k].enabled = true → s.tables.slots[k].addr = f.dst →
      (∀ j : SlotId, s.tables.slots[j].enabled = true → s.tables.slots[j].addr = f.dst → j = k) →
      s.slots[k].state.restoring = true → s.slots[k].cls = some c → (s.tables.classes[c]).holdEnable = true →
      s.queues.hold[k].length < s.tables.settings.holdDepth →
      ∃ b : BufId, s.pool[b].frame = none ∧ exec (.receiveFrame .trunk bytes) s = .next (finish { w with
        pool := s.pool.set b ⟨some f, 1⟩
        queues := { s.queues with hold := s.queues.hold.set k (s.queues.hold[k] ++ [b]) }
        ports := p }))) ∧
  (∀ (s w : State) (bytes : List Byte) (f : Frame) (p : Ports) (a : FwdAction) (cap : Bool), s.phase = .running →
    parseFrame bytes = some f → f.kind = .data → lookup .down .data f s = (a, cap) →
    w = (if cap then capture .dataDown f none s else s) → 8 < (freeBufs s).length →
    p = { s.ports with trunk := { s.ports.trunk with
      staged := [], good := if s.ports.trunk.good < 65535 then s.ports.trunk.good + 1 else s.ports.trunk.good } } →
    w = { s with ctx := w.ctx } ∧
    (a = .drop → ∃ t, exec (.receiveFrame .trunk bytes) s = .next (finish t) ∧ SameBut s.slots p s.seg w t) ∧
    (a ≠ .drop → isStation f.dst = true → s.queues.trunk.length < 48 →
      (s.lm.line = .gap ∨ s.lm.line = .settle →
        ∃ t, exec (.receiveFrame .trunk bytes) s = .next (finish t) ∧ Refused .notReady f p w t) ∧
      (s.lm.line = .up ∨ s.lm.line = .dip → 32 ≤ s.queues.out.length →
        (∀ k : SlotId, s.tables.slots[k].enabled = true → s.tables.slots[k].addr = f.dst → s.slots[k].state = .running) →
        ∃ t, exec (.receiveFrame .trunk bytes) s = .next (finish t) ∧ Refused .partBusy f p w t) ∧
      (∀ k : SlotId, s.lm.line = .up ∨ s.lm.line = .dip → s.tables.slots[k].enabled = true → s.tables.slots[k].addr = f.dst →
        (∀ j : SlotId, s.tables.slots[j].enabled = true → s.tables.slots[j].addr = f.dst → j = k) →
        (s.slots[k].state = .dark ∨ s.slots[k].state = .absent ∨ s.slots[k].state = .backoff ∨ s.slots[k].state = .failed →
          ∃ t, exec (.receiveFrame .trunk bytes) s = .next (finish t) ∧ Refused .notReady f p w t) ∧
        (∀ c : ClassId, s.slots[k].state.restoring = true → s.slots[k].cls = some c →
          (a = .forwardNoHold ∨ (s.tables.classes[c]).holdEnable = false →
            ∃ t, exec (.receiveFrame .trunk bytes) s = .next (finish t) ∧ Refused .notReady f p w t) ∧
          (a = .forward → (s.tables.classes[c]).holdEnable = true → s.tables.settings.holdDepth ≤ s.queues.hold[k].length →
            ∃ t, exec (.receiveFrame .trunk bytes) s = .next (finish t) ∧ Refused .holdFull f p w t)))) ∧
    (a ≠ .drop → isStation f.dst = false →
      (s.lm.line = .gap ∨ s.lm.line = .settle →
        ∃ t, exec (.receiveFrame .trunk bytes) s = .next (finish t) ∧ SameBut s.slots p s.seg w t) ∧
      (∀ copies : SlotId → Bool, s.lm.line = .up ∨ s.lm.line = .dip →
        (∀ k : SlotId, copies k = true ↔ a = .forward ∧ s.slots[k].state.restoring = true ∧ s.tables.slots[k].enabled = true ∧
          (f.dst = 0xFF ∨ 0xF0 ≤ f.dst.toNat ∧ (s.tables.slots[k].groups).getLsbD (f.dst.toNat - 0xF0) = true) ∧
          ∃ c, s.slots[k].cls = some c ∧ (s.tables.classes[c]).holdEnable = true) →
        ∃ (b : BufId) (t : State), s.pool[b].frame = none ∧ exec (.receiveFrame .trunk bytes) s = .next (finish t) ∧
          t = { w with slots := t.slots, queues := t.queues, pool := t.pool, ports := t.ports, au := t.au } ∧
          t.queues.trunk = s.queues.trunk ∧ t.queues.service = s.queues.service ∧
          (s.queues.out.length < 32 → t.queues.out = s.queues.out ++ [b] ∧ t.ports = p ∧ t.au = s.au) ∧
          (32 ≤ s.queues.out.length → t.queues.out = s.queues.out ∧ t.au = s.au.report .overrun (.port .segment) none ∧
            t.ports = { p with segment := { p.segment with
              overrun := if p.segment.overrun < 65535 then p.segment.overrun + 1 else p.segment.overrun } }) ∧
          (∀ k : SlotId, copies k = true → s.queues.hold[k].length < s.tables.settings.holdDepth →
            t.queues.hold[k] = s.queues.hold[k] ++ [b] ∧ t.slots[k] = s.slots[k]) ∧
          (∀ k : SlotId, copies k = true → s.tables.settings.holdDepth ≤ s.queues.hold[k].length →
            t.queues.hold[k] = s.queues.hold[k] ∧ t.slots[k] = { s.slots[k] with
              holdMissed := if s.slots[k].holdMissed < 255 then s.slots[k].holdMissed + 1 else s.slots[k].holdMissed }) ∧
          (∀ k : SlotId, copies k = false → t.queues.hold[k] = s.queues.hold[k] ∧ t.slots[k] = s.slots[k]) ∧
          t.pool[b].refs = (if s.queues.out.length < 32 then 1 else 0) +
            slotIds.countP (fun k => copies k && decide (s.queues.hold[k].length < s.tables.settings.holdDepth)) ∧
          t.pool[b].frame = (if t.pool[b].refs = 0 then none else some f) ∧
          ∀ c : BufId, c ≠ b → t.pool[c] = s.pool[c]))) ∧
  (∀ (s : State) (d : Direction) (kind : RuleKind) (f : Frame) (covers : FwdRule → Prop),
    (∀ r : FwdRule, covers r ↔ r.enable = true ∧ r.dir = d ∧ r.kind = kind ∧ r.dstLow.toNat ≤ f.dst.toNat ∧
      f.dst.toNat ≤ r.dstHigh.toNat ∧ r.srcLow.toNat ≤ f.src.toNat ∧ f.src.toNat ≤ r.srcHigh.toNat ∧
      (f.payload = [] ∧ r.typeMask = 0 ∨ ∃ b bs, f.payload = b :: bs ∧ b &&& r.typeMask = r.typeValue &&& r.typeMask)) →
    (∀ n : Fin 48, covers s.tables.fwd[n] → (∀ m : Fin 48, m < n → ¬ covers s.tables.fwd[m]) →
      lookup d kind f s = ((s.tables.fwd[n]).action, (s.tables.fwd[n]).capture)) ∧
    ((∀ n : Fin 48, ¬ covers s.tables.fwd[n]) →
      (d = .down → lookup d kind f s = (if s.tables.settings.downDefault = .forward then .forward else .drop, false)) ∧
      (d = .up → lookup d kind f s = (if s.tables.settings.upDefault = .forward then .forward else .drop, false)))) ∧
  (∀ (s : State) (b : BufId) (f : Frame) (k : SlotId) (a : FwdAction), a = .forward ∨ a = .forwardNoHold →
    (∀ cap : Bool, s.slots[k].state = .running → lookup .up .data f s = (a, cap) →
      upstreamData k b f s = toTrunk b (if cap then capture .dataUp f (some k) s else s)) ∧
    ((lookup .up .status f s).1 = a → upstreamStatus b f s = toTrunk b s)) ∧
  ∀ a : Byte, isStation a = true ↔ 1 ≤ a.toNat ∧ a.toNat ≤ 0xEF

/-- A good MGMT-REQ of an IDLE origin is copied into its request record, and the origin enters WAITING; its buffer is free again, the port
counts one frame more received good, and nothing else changes (R117, R165, R166). That this is so too while a BUSY reply of the origin
still waits, where R166 speaks of a request that is discarded, is the model's reading (log entry 17). A further request of an origin that
is not IDLE, in any of its three states, leaves the outstanding request as it stands. Where a BUSY reply of its origin waits it is
discarded; else a BUSY reply with its own code, source and sequence is built and joins the built replies, as `Obligations.RepliesPlaced`
says: where none of those that wait has room, it is placed at the tail of its origin's queue where that has room, and else waits behind
them (R118, R166). That the port counts the frame good in every case is the model's reading (log entry 17). -/
def Obligations.RequestTaken : Prop :=
  ∀ (s : State) (bytes : List Byte) (f g : Frame) (o : Origin) (a : Arrival) (p : Ports), s.phase = .running →
    parseFrame bytes = some f → f.kind = .mgmtReq → 8 < (freeBufs s).length →
    (o = .trunk ∧ a = .trunk ∧ f.dst = s.tables.settings.mgmtAddr ∧
        p = { s.ports with trunk := { s.ports.trunk with
          staged := [], good := if s.ports.trunk.good < 65535 then s.ports.trunk.good + 1 else s.ports.trunk.good } } ∨
      o = .service ∧ a = .service ∧
        p = { s.ports with service := { s.ports.service with
          staged := [], good := if s.ports.service.good < 65535 then s.ports.service.good + 1 else s.ports.service.good } }) →
    g = ⟨f.src, s.tables.settings.mgmtAddr, .mgmtReply, f.seq, [f.payload.getD 0 0, 1, 0]⟩ →
    ((s.ma.origin o).state = .idle → ∃ t, exec (.receiveFrame a bytes) s = .next (finish t) ∧
      SameBut s.slots p s.seg { s with ma := if o = .trunk
        then { s.ma with trunk := { s.ma.trunk with state := .waiting, req := some ⟨f.payload, f.src, f.seq⟩ } }
        else { s.ma with service := { s.ma.service with state := .waiting, req := some ⟨f.payload, f.src, f.seq⟩ } } } t) ∧
    ((s.ma.origin o).state ≠ .idle →
      ((∃ r ∈ s.ma.replies, r.origin = o ∧ r.busy = true) →
        ∃ t, exec (.receiveFrame a bytes) s = .next (finish t) ∧ SameBut s.slots p s.seg s t) ∧
      ((∀ r ∈ s.ma.replies, r.origin = o → r.busy = false) →
        (∃ t, exec (.receiveFrame a bytes) s = .next (finish (queueReply ⟨o, true, false, g⟩ t)) ∧ SameBut s.slots p s.seg s t) ∧
        ((∀ r ∈ s.ma.replies, ¬ HasRoom r.origin s) → HasRoom o s →
          ∃ (b : BufId) (pl : Vector Buffer 64), s.pool[b].frame = none ∧ pl[b] = ⟨some g, 1⟩ ∧
            (∀ c : BufId, c ≠ b → pl[c].frame = s.pool[c].frame) ∧
            exec (.receiveFrame a bytes) s = .next (finish { s with ports := p, pool := pl, queues := atTail o b false s.queues })) ∧
        ((∀ r ∈ s.ma.replies, ¬ HasRoom r.origin s) → ¬ HasRoom o s → ∃ t, exec (.receiveFrame a bytes) s = .next (finish t) ∧
          SameBut s.slots p s.seg { s with ma := { s.ma with replies := s.ma.replies ++ [⟨o, true, false, g⟩] } } t)))

/-! ## Sessions -/

/-- A BOOTCALL. In GAP and SETTLE, and when its length is not that of the layout, it is presence alone (R8, R195). In ABSENT and DARK
resolution follows; in RUNNING RELOAD_EXPECTED is cleared, or RESTARTED is raised, and resolution follows; in a restoring state the
session is abandoned, with its retry count, cause and hold queue kept, one user less, and the slot withdrawn from the requesters of fills,
whose ranks are computed again (R33, R77), RESTARTED is raised, and resolution follows; BACKOFF, FAILED and VACANT ignore it (R12).
Resolution, by the first check that fails: CLASS; then the resolved class is that of the code, a change of it emptying record and retry
count; NO_IMAGE; NO_IMAGE or IMAGE_BAD; INCOMPATIBLE (R10, R13). When every check passes, the tag and the index are recorded,
REBOOT_PENDING is cleared, the entry has one more user, and a session opens with the values of settings and catalogue: STARTING with no
block requested where the class allows warm, COLD_NEXT is clear and the held tag is the entry's, else LOADING (R14, R29, R30, R32, R40). A
LOADING session's requests are those of its blocks from the cursor to cursor plus window, inside the image, in ascending order; none is
made for a fill block, a block held by a VALID line or by the FILLING line, or one whose queued entry has the slot as requester; another
joins the block's queued entry, whose rank is computed again, or is a new entry at the tail with the slot as requester and the rank of its
class, or changes nothing where the queue is full. An event for all sessions takes them by rank, then by slot (R32, R76, R77). -/
def Obligations.ColdSessionOpens : Prop :=
  (∀ (s : State) (k : SlotId) (b : BootCall) (i : ImageId) (e : CatEntry) (c : ClassId), s.slots[k].state = .absent →
    s.tables.slots[k].expClass = none → c = classLookup b.cls.toNat s → s.slots[k].cls = some c →
    s.tables.slots[k].override = some i → s.tables.cat[i] = e → e.valid = true → s.catSt[i].bad = false →
    e.minHw ≤ b.hw → e.minBoot ≤ b.boot → e.length ≤ b.capacity → b.held = none →
    (takeBootCall k b s).slots[k] = { s.slots[k] with
      state := .loading, expTag := some e.tag, catInUse := some i, reboot := none
      session := some ⟨i, e.tag, e.length, e.check, e.entryWord, false, s.tables.settings.window, s.tables.settings.stageTimeout,
        s.tables.settings.resendLimit, 0, none, [], 0, false, none, some s.tables.settings.stageTimeout⟩ } ∧
    (takeBootCall k b s).catSt[i] = ⟨false, s.catSt[i].users + 1⟩ ∧ (takeBootCall k b s).au = s.au ∧
    (∀ j : SlotId, j ≠ k → (takeBootCall k b s).slots[j] = s.slots[j]) ∧ (takeBootCall k b s).ctx = s.ctx) ∧
  (∀ (s : State) (k : SlotId) (p : List Byte), p.length ≠ 11 ∨ s.lm.line = .gap ∨ s.lm.line = .settle → bootCallAnswer k p s = s) ∧
  (∀ (s : State) (k : SlotId) (b0 b1 b2 b3 b4 b5 b6 b7 b8 b9 b10 : Byte), s.lm.line = .up ∨ s.lm.line = .dip →
    bootCallAnswer k [b0, b1, b2, b3, b4, b5, b6, b7, b8, b9, b10] s = takeBootCall k ⟨b0, b1.toNat, 256 * b2.toNat + b3.toNat,
      256 * b4.toNat + b5.toNat, if b6.getLsbD 0 then some (b7 ++ b8 ++ b9 ++ b10) else none⟩ s) ∧
  (∀ (s : State) (k : SlotId) (b : BootCall),
    (s.slots[k].state = .absent ∨ s.slots[k].state = .dark → takeBootCall k b s = resolve k b s) ∧
    (s.slots[k].state = .running →
      (s.slots[k].reloadExpected = true → takeBootCall k b s =
        resolve k b { s with slots := s.slots.set k { s.slots[k] with reloadExpected := false } }) ∧
      (s.slots[k].reloadExpected = false → takeBootCall k b s =
        resolve k b { s with au := s.au.report .restarted (.slot k) none })) ∧
    (∀ x, s.slots[k].state.restoring = true → s.slots[k].session = some x → ∃ u : State,
      takeBootCall k b s = resolve k b { u with au := s.au.report .restarted (.slot k) none } ∧
      u = { s with
        slots := s.slots.set k { s.slots[k] with session := none, catInUse := none }
        catSt := s.catSt.set x.img ⟨s.catSt[x.img].bad, s.catSt[x.img].users - 1⟩
        bc := u.bc, reader := u.reader } ∧
      Withdrawn k s u ∧ (∀ e ∈ u.bc.fills, k ∉ e.reqs) ∧ ∀ f, u.reader = .fill f → k ∉ f.reqs) ∧
    (s.slots[k].state = .backoff ∨ s.slots[k].state = .failed ∨ s.slots[k].state = .vacant → takeBootCall k b s = s)) ∧
  (∀ (s v : State) (k : SlotId) (b : BootCall) (c : ClassId),
    ((∃ x, s.tables.slots[k].expClass = some x ∧ x ≠ b.cls) → resolve k b s = failSlot k .class s) ∧
    ((∀ x, s.tables.slots[k].expClass = some x → x = b.cls) →
      b.cls.toNat < s.tables.settings.classCount ∧ c.val = b.cls.toNat ∨ s.tables.settings.classCount ≤ b.cls.toNat ∧ c = 0 →
      v = (if s.slots[k].cls = some c then s
        else { s with
          slots := s.slots.set k { s.slots[k] with cls := some c, retry := 0 }, ctx := s.ctx.set k (Vector.replicate 16 none) }) →
      (s.tables.slots[k].override = none → (s.tables.classes[c]).selector = none → resolve k b s = failSlot k .noImage v) ∧
      ∀ (i : ImageId) (e : CatEntry) (warm : Bool),
        s.tables.slots[k].override = some i ∨ s.tables.slots[k].override = none ∧ (s.tables.classes[c]).selector = some i →
        s.tables.cat[i] = e →
        (warm = true ↔ (s.tables.classes[c]).warmAllowed = true ∧ s.slots[k].coldNext = false ∧ b.held = some e.tag) →
        (e.valid = false → resolve k b s = failSlot k .noImage v) ∧
        (e.valid = true → s.catSt[i].bad = true → resolve k b s = failSlot k .imageBad v) ∧
        (e.valid = true → s.catSt[i].bad = false → b.hw < e.minHw ∨ b.boot < e.minBoot ∨ b.capacity < e.length →
          resolve k b s = failSlot k .incompatible v) ∧
        (e.valid = true → s.catSt[i].bad = false → e.minHw ≤ b.hw → e.minBoot ≤ b.boot → e.length ≤ b.capacity →
          ∀ u : State, u = { v with
            slots := v.slots.set k { v.slots[k] with
              state := if warm then .starting else .loading, expTag := some e.tag, catInUse := some i, reboot := none
              session := some ⟨i, e.tag, e.length, e.check, e.entryWord, warm, s.tables.settings.window,
                s.tables.settings.stageTimeout, s.tables.settings.resendLimit, 0, none, [], 0, false, none,
                some s.tables.settings.stageTimeout⟩ }
            catSt := s.catSt.set i ⟨false, s.catSt[i].users + 1⟩ } →
          resolve k b s = (if warm then u else requestBlocks k u) ∧ u.bc = s.bc ∧ u.reader = s.reader))) ∧
  (∀ (s : State) (k : SlotId), (∃ fills, requestBlocks k s = { s with bc := { s.bc with fills := fills } }) ∧
    (s.slots[k].session = none ∨ s.slots[k].state ≠ .loading → requestBlocks k s = s) ∧
    ∀ x, s.slots[k].session = some x → s.slots[k].state = .loading → requestBlocks k s =
      (List.range (min (x.cursor + x.window) x.length - x.cursor)).foldl (fun t j => requestBlock k x.img (x.cursor + j) t) s) ∧
  (∀ s : State, requestAll s = (List.range 9).foldl (fun t r =>
    (slotIds.filter (fun k => decide (slotRank k s = r))).foldl (fun u k => requestBlocks k u) t) s) ∧
  (∀ (s : State) (k : SlotId) (i : ImageId) (b : Nat),
    (s.tables.cat[i].supply b = .fill ∨ HeldValid i b s ∨ HeldFilling i b s ∨
      (∃ e ∈ s.bc.fills, e.img = i ∧ e.blk = b ∧ k ∈ e.reqs) → requestBlock k i b s = s) ∧
    (s.tables.cat[i].supply b ≠ .fill → ¬ HeldValid i b s → ¬ HeldFilling i b s →
      (∀ e ∈ s.bc.fills, e.img = i → e.blk = b → k ∉ e.reqs) →
      (InQueue i b s → requestBlock k i b s = { s with bc := { s.bc with fills := s.bc.fills.map (fun e =>
        if e.img = i ∧ e.blk = b then { e with
          reqs := slotIds.filter (fun j => decide (j = k) || e.reqs.contains j)
          rank := rankOf (slotIds.filter (fun j => decide (j = k) || e.reqs.contains j)) s } else e) } }) ∧
      (¬ InQueue i b s → 16 ≤ s.bc.fills.length → requestBlock k i b s = s) ∧
      (¬ InQueue i b s → s.bc.fills.length < 16 → requestBlock k i b s =
        { s with bc := { s.bc with fills := s.bc.fills ++ [⟨i, b, [k], false, false, rankOf [k] s, markedLine i b s⟩] } }))) ∧
  ∀ (s : State) (ks : List SlotId),
    (∀ (k : SlotId) (c : ClassId), s.slots[k].cls = some c → slotRank k s = (s.tables.classes[c]).rank) ∧ rankOf [] s = 8 ∧
    (∀ k : SlotId, slotRank k s ≤ 8 → rankOf [k] s = slotRank k s) ∧ rankOf ks s ≤ 8 ∧ (∀ k ∈ ks, rankOf ks s ≤ slotRank k s) ∧
    (rankOf ks s = 8 ∨ ∃ k ∈ ks, rankOf ks s = slotRank k s) ∧
    ∀ (i : ImageId) (b : Nat) (l : LineId), markedLine i b s = some l ↔
      ∃ f, s.reader = .fill f ∧ f.line = l ∧ s.bc.lines[l] = .filling i b true

/-- A LOADACK of another length, or that acknowledges a block not yet sent, asks for one not yet reached, or asks again for one
acknowledged, before or in the same frame, ends the session with PROTOCOL (R36). An accepted one: a higher through value is taken, the
entries up to it leave the in-flight list and the stage timer runs anew (R37); a resend-from value ends the session with RESENDS at the
limit, else counts, takes the entries from it on out of the list and sets the cursor, and the requests are made again (R32, R38); with the
last block acknowledged the session enters STARTING, withdrawn from the requesters of fills, whose ranks are computed again, with nothing
else of the cache changed (R33, R39, R77). A STARTED, awaited: PROTOCOL on another length, CONTEXT entered on status 0 and the image's
check, else VERIFY, which sets COLD_NEXT for a warm session (R42, R49). A READY, awaited: PROTOCOL on another length, TAG, CONTEXT on
another mask; accepted: RUNNING, counts and flags clear, no session, the hold queue empty, one user less (R19, R44, R48): the held entries
go behind what the outbound queue holds, oldest first, while it has fewer than 32 entries; of those beyond, each station frame is answered
with REFUSE(PART_BUSY), in their order, shown with room in trunk queue and pool, and a copy with none (R125). An answer that is not
awaited, or finds no session, changes nothing (R46, R47). -/
def Obligations.RestoreAnswersJudged : Prop :=
  (∀ (s : State) (k : SlotId) (x : Session) (hi lo hi' lo' : Byte) (t m : Nat), s.slots[k].session = some x →
    s.slots[k].state = .loading → t = 256 * hi.toNat + lo.toNat → m = 256 * hi'.toNat + lo'.toNat →
    (t ≠ 0xFFFF ∧ x.cursor ≤ t) ∨ (m ≠ 0xFFFF ∧ x.cursor < m) →
    restoreAnswer k .loadack [hi, lo, hi', lo'] s = failSlot k .protocol s) ∧
  (∀ (s : State) (k : SlotId) (x : Session) (p : List Byte), s.slots[k].session = some x → s.slots[k].state = .context →
    x.sent = true → p.length = 6 → rd32 p 0 = x.tag → x.sentMask = some (BitVec.ofNat 16 (rd16 p 4)) →
    (restoreAnswer k .ready p s).slots[k] = { s.slots[k] with
      state := .running, retry := 0, coldNext := false, reloadExpected := false, stale := false, reboot := none, catInUse := none
      session := none } ∧
    (restoreAnswer k .ready p s).queues.hold[k] = [] ∧
    (restoreAnswer k .ready p s).catSt[x.img].users = s.catSt[x.img].users - 1 ∧
    (∀ j : SlotId, j ≠ k → (restoreAnswer k .ready p s).slots[j] = s.slots[j]) ∧ (restoreAnswer k .ready p s).ctx = s.ctx) ∧
  (∀ (s : State) (k : SlotId) (x : Session) (p : List Byte), s.slots[k].session = some x → s.slots[k].state = .loading →
    p.length ≠ 4 → restoreAnswer k .loadack p s = failSlot k .protocol s) ∧
  (∀ (s : State) (k : SlotId) (x y z : Session) (hi lo hi' lo' : Byte) (t m : Nat), s.slots[k].session = some x →
    s.slots[k].state = .loading → t = 256 * hi.toNat + lo.toNat → m = 256 * hi'.toNat + lo'.toNat →
    (m ≠ 0xFFFF → (∃ a, x.through = some a ∧ m ≤ a) ∨ t ≠ 0xFFFF ∧ m ≤ t →
      restoreAnswer k .loadack [hi, lo, hi', lo'] s = failSlot k .protocol s) ∧
    (t = 0xFFFF ∨ t < x.cursor → m = 0xFFFF ∨ m ≤ x.cursor ∧ (∀ a, x.through = some a → a < m) ∧ (t = 0xFFFF ∨ t < m) →
      y = (if t ≠ 0xFFFF ∧ ∀ a ∈ x.through, a < t then
        { x with through := some t, inFlight := x.inFlight.filter (fun b => decide (t < b)), timer := some x.stageTimeout } else x) →
      z = (if m = 0xFFFF then y
        else { y with resends := x.resends + 1, inFlight := y.inFlight.filter (fun b => decide (b < m)), cursor := m }) →
      (m ≠ 0xFFFF → x.resends = x.resendLimit → restoreAnswer k .loadack [hi, lo, hi', lo'] s =
        failSlot k .resends { s with slots := s.slots.set k { s.slots[k] with session := some y } }) ∧
      (m = 0xFFFF ∨ x.resends ≠ x.resendLimit → ∃ cache reader, restoreAnswer k .loadack [hi, lo, hi', lo'] s = { s with
          slots := s.slots.set k (if z.through = some (x.length - 1) then
              { s.slots[k] with state := .starting, session := some { z with sent := false, timer := some x.stageTimeout } }
            else { s.slots[k] with session := some z })
          bc := cache, reader := reader } ∧
        (z.through = some (x.length - 1) → Withdrawn k s { s with bc := cache, reader := reader } ∧
          (∀ e ∈ cache.fills, k ∉ e.reqs) ∧ ∀ f, reader = .fill f → k ∉ f.reqs) ∧
        (z.through ≠ some (x.length - 1) →
          { s with slots := s.slots.set k { s.slots[k] with session := some z }, bc := cache, reader := reader } =
            if m = 0xFFFF then { s with slots := s.slots.set k { s.slots[k] with session := some z } }
            else requestBlocks k { s with slots := s.slots.set k { s.slots[k] with session := some z } })))) ∧
  (∀ (s : State) (k : SlotId) (x : Session) (p : List Byte), s.slots[k].session = some x → x.sent = true →
    (s.slots[k].state = .starting →
      (p.length ≠ 5 → restoreAnswer k .started p s = failSlot k .protocol s) ∧
      (p.length = 5 → rd8 p 0 = 0 ∧ rd32 p 1 = x.check → restoreAnswer k .started p s = { s with
        slots := s.slots.set k { s.slots[k] with
          state := .context, session := some { x with sent := false, timer := some x.stageTimeout } } }) ∧
      (p.length = 5 → ¬ (rd8 p 0 = 0 ∧ rd32 p 1 = x.check) → restoreAnswer k .started p s = failSlot k .verify
        (if x.warm then { s with slots := s.slots.set k { s.slots[k] with coldNext := true } } else s))) ∧
    (s.slots[k].state = .context →
      (p.length ≠ 6 → restoreAnswer k .ready p s = failSlot k .protocol s) ∧
      (p.length = 6 → rd32 p 0 ≠ x.tag → restoreAnswer k .ready p s = failSlot k .tag s) ∧
      (p.length = 6 → rd32 p 0 = x.tag → x.sentMask ≠ some (BitVec.ofNat 16 (rd16 p 4)) →
        restoreAnswer k .ready p s = failSlot k .context s))) ∧
  (∀ (s : State) (k : SlotId) (kind : Kind) (p : List Byte),
    s.slots[k].session = none ∨ (s.slots[k].state = .loading → kind ≠ .loadack) ∧
      (s.slots[k].state = .starting → kind = .started → ∀ x, s.slots[k].session = some x → x.sent = false) ∧
      (s.slots[k].state = .context → kind = .ready → ∀ x, s.slots[k].session = some x → x.sent = false) →
    restoreAnswer k kind p s = s) ∧
  ∀ (s t : State) (k : SlotId) (x : Session) (p : List Byte) (room rest : List BufId), s.slots[k].session = some x →
    s.slots[k].state = .context → x.sent = true → p.length = 6 → rd32 p 0 = x.tag → x.sentMask = some (BitVec.ofNat 16 (rd16 p 4)) →
    t = restoreAnswer k .ready p s → room = s.queues.hold[k].take (32 - s.queues.out.length) →
    rest = s.queues.hold[k].drop (32 - s.queues.out.length) →
    t.queues.out = s.queues.out ++ room ∧ t.queues.hold = s.queues.hold.set k [] ∧ t.queues.service = s.queues.service ∧
    (rest = [] → t.queues.trunk = s.queues.trunk ∧ t.pool = s.pool ∧ t.ports = s.ports ∧ t.au = s.au) ∧
    (PoolLaw s → s.queues.trunk.length + rest.length ≤ 48 → rest.length ≤ (freeBufs s).length →
      t.ports = s.ports ∧ t.au = s.au ∧ ∃ new : List TxEntry, t.queues.trunk = s.queues.trunk ++ new ∧ (∀ e ∈ new, e.resets = false) ∧
        new.map (fun e => t.pool[e.buf].frame) = (refusalsOf .partBusy rest s).map some)

/-- A STATUS. In GAP and SETTLE, when shorter than 6 bytes, and in BACKOFF and FAILED it is presence alone (R8, R15, R195). In RUNNING the
expected tag clears STALE, another tag sets it, with attention STALE where it was clear (R15). In DARK and ABSENT it is a survivor return,
which clears REBOOT_PENDING whether it reaches RUNNING or fails (R16, R26): a class code that the slot forbids is failure CLASS; else the
resolved class is that of the code, a change of it emptying record and retry count; no image, or one not valid, is failure NO_IMAGE; else
the slot is RUNNING again, counts and flags clear, the expected tag that of the entry, a BAD mark or not, its record kept, and STALE
follows the tag as in RUNNING (R10, R16, R19). A restoring slot fails with PROTOCOL (R15). -/
def Obligations.StatusJudged : Prop :=
  (∀ (s : State) (k : SlotId) (p : List Byte), 6 ≤ p.length → s.lm.line = .up ∨ s.lm.line = .dip →
    (s.slots[k].state = .running →
      (s.slots[k].expTag = some (rd32 p 1) →
        statusAnswer k p s = { s with slots := s.slots.set k { s.slots[k] with stale := false } }) ∧
      (s.slots[k].expTag ≠ some (rd32 p 1) → s.slots[k].stale = false →
        statusAnswer k p s = { s with
          slots := s.slots.set k { s.slots[k] with stale := true }, au := s.au.report .stale (.slot k) none }) ∧
      (s.slots[k].expTag ≠ some (rd32 p 1) → s.slots[k].stale = true → statusAnswer k p s = s)) ∧
    (∀ i : ImageId, s.slots[k].state = .dark ∨ s.slots[k].state = .absent →
      s.tables.slots[k].expClass = none ∨ s.tables.slots[k].expClass = some (p.getD 0 0) →
      s.slots[k].cls = some (classLookup (rd8 p 0) s) → s.tables.slots[k].override = some i → s.tables.cat[i].valid = true →
      rd32 p 1 = s.tables.cat[i].tag →
      statusAnswer k p s = { s with slots := s.slots.set k { s.slots[k] with
        state := .running, expTag := some s.tables.cat[i].tag, retry := 0, coldNext := false, reloadExpected := false
        reboot := none, stale := false } }) ∧
    (s.slots[k].state.restoring = true → statusAnswer k p s = failSlot k .protocol s) ∧
    (s.slots[k].state = .backoff ∨ s.slots[k].state = .failed → statusAnswer k p s = s) ∧
    (s.slots[k].state = .dark ∨ s.slots[k].state = .absent → (∃ x, s.tables.slots[k].expClass = some x ∧ x ≠ p.getD 0 0) →
      statusAnswer k p s = failSlot k .class { s with slots := s.slots.set k { s.slots[k] with reboot := none } }) ∧
    ∀ (c : ClassId) (v : State), s.slots[k].state = .dark ∨ s.slots[k].state = .absent →
      (∀ x, s.tables.slots[k].expClass = some x → x = p.getD 0 0) →
      rd8 p 0 < s.tables.settings.classCount ∧ c.val = rd8 p 0 ∨ s.tables.settings.classCount ≤ rd8 p 0 ∧ c = 0 →
      v = (if s.slots[k].cls = some c then { s with slots := s.slots.set k { s.slots[k] with reboot := none } }
        else { s with
          slots := s.slots.set k { s.slots[k] with cls := some c, retry := 0, reboot := none }
          ctx := s.ctx.set k (Vector.replicate 16 none) }) →
      (s.tables.slots[k].override = none → (s.tables.classes[c]).selector = none → statusAnswer k p s = failSlot k .noImage v) ∧
      ∀ (i : ImageId),
        s.tables.slots[k].override = some i ∨ s.tables.slots[k].override = none ∧ (s.tables.classes[c]).selector = some i →
        (s.tables.cat[i].valid = false → statusAnswer k p s = failSlot k .noImage v) ∧
        (s.tables.cat[i].valid = true → statusAnswer k p s = { v with
          slots := v.slots.set k { v.slots[k] with
            state := .running, expTag := some s.tables.cat[i].tag, retry := 0, coldNext := false, reloadExpected := false
            reboot := none, stale := decide (rd32 p 1 ≠ s.tables.cat[i].tag) }
          au := if rd32 p 1 ≠ s.tables.cat[i].tag ∧ s.slots[k].stale = false then s.au.report .stale (.slot k) none else s.au })) ∧
  ∀ (s : State) (k : SlotId) (p : List Byte), p.length < 6 ∨ s.lm.line = .gap ∨ s.lm.line = .settle → statusAnswer k p s = s

/-! ## Flash reader -/

/-- The idle reader starts the queued fill of the lowest rank, the oldest among equals, in the victim line: the lowest EMPTY line, else
the least recent VALID line that is not pinned (R74, R79, R81). A block that was requested while a marked fill of it ran fills a line
other than that fill's (R85); that R85 makes the exception to R74 is the model's reading (log entry 33). The record is the one that the
first enabled window covering the block gives it (R56). In the same event the waiting list of a running PIN takes the freed queue room
(R81, R87). The idle reader with an empty fill queue starts the management flash operation that waits, else the next scan read of
SELF-CHECK (R79). -/
def Obligations.ReaderStarts : Prop :=
  (∀ (s : State) (older younger : List FillEntry) (e : FillEntry) (l : LineId) (r : Nat), s.reader = .idle →
    s.bc.fills = older ++ e :: younger → (∀ f ∈ older, e.rank < f.rank) → (∀ f ∈ younger, e.rank ≤ f.rank) → e.avoid ≠ some l →
    (s.bc.lines[l] = .empty ∧ (∀ m : LineId, m < l → s.bc.lines[m] ≠ .empty ∨ e.avoid = some m) ∨
      (∃ i b d, s.bc.lines[l] = .valid i b false d) ∧ (∀ m : LineId, s.bc.lines[m] ≠ .empty ∨ e.avoid = some m) ∧
        ∃ before after, s.bc.recency = before ++ l :: after ∧
          ∀ m ∈ before, (∀ i b d, s.bc.lines[m] ≠ .valid i b false d) ∨ e.avoid = some m) →
    s.tables.cat[e.img].supply e.blk = .record r → ∀ t : State, t = { s with
      bc := { s.bc with
        fills := older ++ younger, lines := s.bc.lines.set l (.filling e.img e.blk false), recency := s.bc.recency.erase l }
      reader := .fill ⟨l, e.img, e.blk, r, e.reqs, e.pin, e.pre, false, false⟩ } →
    exec .flashReaderStart s = .next (finish (placeWaiting t)) ∧ (pinWaiting s = [] → placeWaiting t = t) ∧
    ∀ (o : Origin) (i : ImageId) (b : Nat) (bs : List Nat), s.ma.long = some ⟨o, .pin i (b :: bs)⟩ → s.bc.reservation ≠ 0 →
      s.bc.fills.length = 16 → ¬ HeldValid i b t → ¬ HeldFilling i b t → ¬ InQueue i b t → placeWaiting t = { t with
        bc := { t.bc with fills := t.bc.fills ++ [⟨i, b, [], true, false, 8, none⟩] }
        ma := { t.ma with long := some ⟨o, .pin i bs⟩ } }) ∧
  (∀ (e : CatEntry) (b : Nat), (e.length ≤ b → e.supply b = .outside) ∧
    (b < e.length → (∀ j : Fin 4, (e.windows[j]).enable = true → b < (e.windows[j]).first ∨ (e.windows[j]).last < b) → e.supply b = .fill) ∧
    ∀ j : Fin 4, b < e.length → (e.windows[j]).enable = true → (e.windows[j]).first ≤ b → b ≤ (e.windows[j]).last →
      (∀ m : Fin 4, m < j → (e.windows[m]).enable = true → b < (e.windows[m]).first ∨ (e.windows[m]).last < b) →
      e.supply b = .record ((e.windows[j]).base + (b - (e.windows[j]).first))) ∧
  (∀ (s : State) (o : Origin), s.reader = .idle → s.bc.fills = [] →
    (s.ma.long = some ⟨o, .commit false⟩ → exec .flashReaderStart s = .next (finish { s with
      reader := .commit, ma := { s.ma with long := some ⟨o, .commit true⟩ } })) ∧
    (∀ k a, s.ma.long = some ⟨o, .erase k false a⟩ → exec .flashReaderStart s = .next (finish { s with
      reader := .erase k, ma := { s.ma with long := some ⟨o, .erase k true a⟩ } })) ∧
    (∀ r d a, s.ma.long = some ⟨o, .program r d false a⟩ → exec .flashReaderStart s = .next (finish { s with
      reader := .program r d, ma := { s.ma with long := some ⟨o, .program r d true a⟩ } })) ∧
    (∀ c, s.ma.long = some ⟨o, .selfCheck c⟩ → exec .flashReaderStart s = .next (finish { s with reader := .scan true })))

/-- The end of a fill's read, which passes where its last two bytes are the CRC-16 of the 128 before them, most significant first (R66).
Passed, on an entry not BAD: the line is VALID with the data read and takes the most recent place where the fill is wanted, else the least
recent; where the fill carries pin-on-complete the line is pinned and the reservation one lower, and the PIN ends with OK where that
spends it. Passed, on an entry marked BAD meanwhile: the line is EMPTY. First failure: the record is read again. Second failure: the line
is EMPTY and the entry is marked BAD. Discarded: the line is EMPTY. Left over from an engine reset, no PIN having joined it, and failed:
the line is EMPTY, with no re-read and no marking; where a PIN has joined it, its block also goes back to its place in the PIN's waiting
list, which takes room. But for the re-read, every session repeats its requests (R32, R73, R82, R83, R84, R85, R87, R93). Of a leftover
fill two things are the model's reading: that it stays one when a request joins it, and gives back a PIN's block (log entry 15), and that
its failed read reports a completion, on which the sessions repeat their requests, though R93 does not say so (log entry 16). -/
def Obligations.FillReadEnds : Prop :=
  (∀ data check : List Byte, data.length = 128 → (recordGood (data ++ check) = true ↔ check = be16 (crc16 data).toNat)) ∧
  ∀ (s : State) (f : Fill) (read : Disturb) (bs : List Byte), s.reader = .fill f →
    bs = disturb read (s.flash.readRun (recordAddr f.record) 130) →
    (s.bc.lines[f.line] = .filling f.img f.blk false → recordGood bs = true → s.catSt[f.img].bad = false → f.pin = false →
      exec (.fillReadEnd read) s = .next (finish (requestAll { s with
        reader := .idle
        bc := { s.bc with
          lines := s.bc.lines.set f.line (.valid f.img f.blk false (bs.take 128))
          recency := if f.reqs = [] ∧ f.pre = false then f.line :: s.bc.recency.erase f.line
            else s.bc.recency.erase f.line ++ [f.line] } }))) ∧
    (s.bc.lines[f.line] = .filling f.img f.blk false → recordGood bs = false → f.reread = false → f.orphan = false →
      exec (.fillReadEnd read) s = .next (finish { s with reader := .fill { f with reread := true } })) ∧
    (s.bc.lines[f.line] = .filling f.img f.blk true →
      exec (.fillReadEnd read) s = .next (finish (requestAll { s with
        reader := .idle
        bc := { s.bc with lines := s.bc.lines.set f.line .empty, recency := s.bc.recency.erase f.line } }))) ∧
    (∀ c : Cache, s.bc.lines[f.line] = .filling f.img f.blk false → recordGood bs = true → s.catSt[f.img].bad = false → f.pin = true →
      c = { s.bc with
        lines := s.bc.lines.set f.line (.valid f.img f.blk true (bs.take 128))
        recency := s.bc.recency.erase f.line ++ [f.line], reservation := s.bc.reservation - 1 } →
      (pinImage s = none ∨ 1 < s.bc.reservation →
        exec (.fillReadEnd read) s = .next (finish (requestAll { s with reader := .idle, bc := c }))) ∧
      ∀ o i w, s.ma.long = some ⟨o, .pin i w⟩ → s.bc.reservation ≤ 1 →
        exec (.fillReadEnd read) s = .next (finish (requestAll (finalReply o .ok [] false
          { s with reader := .idle, bc := c, ma := { s.ma with long := none } })))) ∧
    ∀ t : State,
      t = { s with
        reader := .idle
        bc := { s.bc with lines := s.bc.lines.set f.line .empty, recency := s.bc.recency.erase f.line } } →
      s.bc.lines[f.line] = .filling f.img f.blk false →
      (recordGood bs = true → s.catSt[f.img].bad = true → exec (.fillReadEnd read) s = .next (finish (requestAll t))) ∧
      (recordGood bs = false → f.orphan = false → f.reread = true →
        exec (.fillReadEnd read) s = .next (finish (requestAll (markBad f.img t)))) ∧
      (recordGood bs = false → f.orphan = true → f.pin = false →
        exec (.fillReadEnd read) s = .next (finish (requestAll t))) ∧
      ∀ o i w, recordGood bs = false → f.orphan = true → f.pin = true → s.ma.long = some ⟨o, .pin i w⟩ →
        exec (.fillReadEnd read) s = .next (finish (requestAll (placeWaiting { t with ma := { s.ma with long := some ⟨o, .pin i
          (w.filter (fun b => decide (b < f.blk)) ++ f.blk :: w.filter (fun b => decide (f.blk < b)))⟩ } })))

/-- BAD marking, in its order: the entry is BAD; its queued entries are withdrawn, the room taken by the waiting blocks of a PIN on
another index; its VALID lines are EMPTY and lose their pins; a fill in flight for it runs on with no requester and no pin-on-complete; a
PIN on it ends with IMAGE_BAD, its reservation released and its marks cleared; every open session on it fails with IMAGE_BAD under its own
policy (`Obligations.FailureByPolicy`), in an order that is free (log entry 6), and no other slot changes; IMAGE_BAD is reported with the
entry as subject. No queued fill, no VALID line and no open session of the entry is left. Configuration, records, line, segment, flash and
outbound queue stand (R50, R63, R78, R84, R88, R191). -/
def Obligations.BadMarking : Prop :=
  ∀ (s : State) (i : ImageId), (markBad i s).catSt[i].bad = true ∧ (∀ e ∈ (markBad i s).bc.fills, e.img ≠ i) ∧
    (∀ l : LineId, (markBad i s).bc.lines[l].isOf i = false) ∧
    (∀ (k : SlotId) (x : Session), (markBad i s).slots[k].session = some x → x.img ≠ i) ∧
    ((∃ e ∈ (markBad i s).au.list, e.cause = .imageBad ∧ e.subject = .image i) ∨ (markBad i s).au.overflow = true) ∧
    ∃ (w x y z v : State) (order : List SlotId) (n : Nat),
      w = { s with
        catSt := s.catSt.set i ⟨true, s.catSt[i].users⟩
        bc := { s.bc with fills := s.bc.fills.filter (fun e => decide (e.img ≠ i)) } } ∧
      ((∃ e ∈ s.bc.fills, e.img = i) → pinImage s ≠ some i → x = placeWaiting w) ∧
      ((∀ e ∈ s.bc.fills, e.img ≠ i) ∨ pinImage s = some i → x = w) ∧
      y = { x with
        reader := y.reader
        bc := { x.bc with
          lines := vmap (fun l => if l.isOf i then .empty else l) x.bc.lines
          recency := x.bc.recency.filter (fun l => !(x.bc.lines[l].isOf i)) } } ∧
      (∀ f, s.reader = .fill f → f.img = i → y.reader = .fill { f with reqs := [], pin := false }) ∧
      ((∀ f, s.reader = .fill f → f.img ≠ i) → y.reader = x.reader) ∧
      (pinImage s ≠ some i → z = y) ∧
      (∀ p ws, s.ma.long = some ⟨p, .pin i ws⟩ → ∃ r, z = finalReply p .imageBad [] false { y with
          reader := r
          ma := { s.ma with long := none }
          bc := { y.bc with reservation := 0, fills := y.bc.fills.map (fun e => { e with pin := false }) } } ∧
        (∀ f, y.reader = .fill f → r = .fill { f with pin := false }) ∧ ((∀ f, y.reader ≠ .fill f) → r = y.reader)) ∧
      order.Perm (slotIds.filter (fun k => s.slots[k].session.any (fun q => decide (q.img = i)))) ∧
      (order.length ≤ 1 → n = s.freeTick) ∧ v = order.foldl (fun t k => failSlot k .imageBad t) { z with freeTick := n } ∧
      markBad i s = { v with au := v.au.report .imageBad (.image i) none } ∧
      (∀ k ∈ order, (markBad i s).slots[k] = (failSlot k .imageBad s).slots[k]) ∧
      (∀ k : SlotId, k ∉ order → (markBad i s).slots[k] = s.slots[k]) ∧
      (∀ j : ImageId, j ≠ i → (markBad i s).catSt[j] = s.catSt[j]) ∧
      (markBad i s).catSt[i].users = s.catSt[i].users - order.length ∧
      (markBad i s).tables = s.tables ∧ (markBad i s).ctx = s.ctx ∧ (markBad i s).lm = s.lm ∧ (markBad i s).seg = s.seg ∧
      (markBad i s).flash = s.flash ∧ (markBad i s).queues.out = s.queues.out

/-- The end of an erase: outside the sector every byte stands; inside, bytes are 0xFF but for bits that kept their value; the reader
is idle, the slot free, and the reply OK when every byte of the records reads back 0xFF, else WRITE_FAILED, or ABORTED after an engine reset
(R68, R70). Which bits keep their value and what the read-back disturbs are operands of the model's (log entry 5): R68 leaves what a failed
erase leaves open. -/
def Obligations.EraseEnds : Prop :=
  ∀ (s : State) (k : Nat) (kept read : Disturb) (o : Origin) (aborted : Bool), Memory.wf s.flash → s.reader = .erase k →
    s.ma.long = some ⟨o, .erase k true aborted⟩ →
    ∃ m : Memory, Memory.wf m ∧ (∀ a, a < 4096 * (256 + k) ∨ 4096 * (257 + k) ≤ a → m.read a = s.flash.read a) ∧
      (∀ j, j < 4096 → m.read (4096 * (256 + k) + j) =
        if j < kept.length then s.flash.read (4096 * (256 + k) + j) ||| ~~~(kept.getD j 0) else 0xFF) ∧
      exec (.eraseSectorDone kept read) s = .next (finish (finalReply o
        (if aborted then .aborted
          else if (List.range 4030).all (fun j => decide (m.read (4096 * (256 + k) + j) ^^^ read.getD j 0 = 0xFF)) then .ok
          else .writeFailed) [] false
        { s with reader := .idle, flash := m, ma := { s.ma with long := none } }))

/-- The end of a record write: a record whose blank read gives 0xFF throughout is programmed with its data and their CRC-16, no other byte
changes, and the reply is OK where all 130 bytes read back as programmed, else WRITE_FAILED; a record that does not read blank is left and
answered WRITE_FAILED; after an engine reset the reply is ABORTED in every case, and the flash is as without it (R65, R66, R69, R70). The
end of a COMMIT: sector 0 holds the store of the tables, the rest of it is erased, no other sector changes, and the reply is OK where
every byte of the store reads back as programmed, else WRITE_FAILED (R177, R178). What a device gives or leaves that is not sound are
operands of the model's, empty for a sound device (log entry 5): R69 and R178 leave open what a failed write leaves. -/
def Obligations.FlashWritesEnd : Prop :=
  (∀ (s : State) (r : Nat) (d : List Byte) (o : Origin) (blank prog back : Disturb) (aborted : Bool), Memory.wf s.flash →
    d.length = 128 → s.reader = .program r d → s.ma.long = some ⟨o, .program r d true aborted⟩ →
    ((∀ j, j < 130 → s.flash.read (recordAddr r + j) ^^^ blank.getD j 0 = 0xFF) → ∃ m : Memory, Memory.wf m ∧
      (∀ a, a < recordAddr r ∨ recordAddr r + 130 ≤ a → m.read a = s.flash.read a) ∧
      (∀ j, j < 130 → m.read (recordAddr r + j) = (d ++ be16 (crc16 d).toNat).getD j 0 ^^^ prog.getD j 0) ∧
      exec (.writeRecordDone blank prog back) s = .next (finish (finalReply o
        (if aborted then .aborted
          else if (List.range 130).all (fun j =>
            decide (m.read (recordAddr r + j) ^^^ back.getD j 0 = (d ++ be16 (crc16 d).toNat).getD j 0)) then .ok
          else .writeFailed) [] false
        { s with reader := .idle, flash := m, ma := { s.ma with long := none } }))) ∧
    ((∃ j, j < 130 ∧ s.flash.read (recordAddr r + j) ^^^ blank.getD j 0 ≠ 0xFF) →
      exec (.writeRecordDone blank prog back) s = .next (finish (finalReply o (if aborted then .aborted else .writeFailed) [] false
        { s with reader := .idle, ma := { s.ma with long := none } })))) ∧
  (∀ (s : State) (o : Origin) (prog back : Disturb), Memory.wf s.flash → s.reader = .commit → s.ma.long = some ⟨o, .commit true⟩ →
    ∃ m : Memory, Memory.wf m ∧ (∀ a, 4096 ≤ a → m.read a = s.flash.read a) ∧
      (∀ j, j < 4096 → m.read j = s.tables.store.getD j 0xFF ^^^ prog.getD j 0) ∧
      exec (.commitDone prog back) s = .next (finish (finalReply o
        (if (List.range 2117).all (fun j => decide (m.read j ^^^ back.getD j 0 = s.tables.store.getD j 0)) then .ok
          else .writeFailed) [] false
        { s with reader := .idle, flash := m, ma := { s.ma with long := none } }))) ∧
  ∀ r : Nat, recordAddr r = 4096 * (256 + r / 31) + 130 * (r % 31)

/-- SELF-CHECK. The identity read: capacity code 0x18 leads on to check 2, any other ends the operation with result 1. Check 2 reads the
store in reads of at most 130 bytes and passes on the right identifier and CRC-32. An image check reads one windowed block per read, takes
128 zero bytes for a fill block, passes at once on an invalid entry, and at the last block compares the CRC-32; a mismatch marks the entry
BAD, and sessions repeat their requests where entries were withdrawn. A failed check is recorded where none was before, and the later ones
run. After check 18 the reply is OK with the lowest failed check, or 0. A read whose check no longer runs is discarded; a write to the
entry under check begins it again (R78, R93, R189, R190, R191, R192). That each read of the store but the last takes 130 bytes is the
model's choice, and so is it that the read of a check begun again is discarded (log entries 23 and 24), that the store identifier lies
most significant byte first, as check 2 reads it (log entry 31), and that the sessions repeat their requests after the whole marking (log
entry 26). -/
def Obligations.ScanIdentity : Prop :=
  (∀ (s : State) (o : Origin) (c : SelfCheck), s.reader = .scan true → s.ma.long = some ⟨o, .selfCheck c⟩ → c.check = 1 →
    c.lowest = none →
    (exec (.scanReadEnd []) s = .next (finish { s with
      reader := .idle, ma := { s.ma with long := some ⟨o, .selfCheck ⟨2, 0, 0xFFFFFFFF, false, none⟩⟩ } })) ∧
    ∀ d ds, d ≠ 0 → exec (.scanReadEnd (d :: ds)) s = .next (finish (finalReply o .ok [1] false
      { s with reader := .idle, ma := { s.ma with long := none } }))) ∧
  (∀ (s : State) (o : Origin) (c : SelfCheck) (read : Disturb) (n : Nat) (data : List Byte) (crc : Word32) (ok : Bool),
    s.reader = .scan true → s.ma.long = some ⟨o, .selfCheck c⟩ → c.check = 2 → n = min 130 (2117 - c.pos) →
    data = disturb read (s.flash.readRun c.pos n) → crc = crc32Step c.crc (data.take (2113 - c.pos)) →
    ok = (if c.pos = 0 then decide (rd32 data 0 = 0x43524232) else c.idOk) →
    (c.pos + n < 2117 → exec (.scanReadEnd read) s = .next (finish { s with
      reader := .idle, ma := { s.ma with long := some ⟨o, .selfCheck ⟨2, c.pos + n, crc, ok, c.lowest⟩⟩ } })) ∧
    (2117 ≤ c.pos + n → exec (.scanReadEnd read) s = .next (finish (runChecks 16
      ⟨3, 0, 0xFFFFFFFF, false, if ok = true ∧ rd32 data (2113 - c.pos) = ~~~crc then c.lowest else some (c.lowest.getD 2)⟩
      { s with reader := .idle })))) ∧
  (∀ (s : State) (o : Origin) (c : SelfCheck) (i : ImageId) (read : Disturb) (r : Nat), s.reader = .scan true →
    s.ma.long = some ⟨o, .selfCheck c⟩ → c.check = 3 + i.val → s.tables.cat[i].supply c.pos = .record r →
    exec (.scanReadEnd read) s = .next (finish (runChecks (16 - i.val)
      { c with pos := c.pos + 1, crc := crc32Step c.crc ((disturb read (s.flash.readRun (recordAddr r) 130)).take 128) }
      { s with reader := .idle }))) ∧
  (∀ (s : State) (c : SelfCheck) (i : ImageId) (n : Nat) (e : CatEntry), c.check = 3 + i.val → s.tables.cat[i] = e →
    (e.valid = false → runChecks (n + 1) c s = runChecks n ⟨c.check + 1, 0, 0xFFFFFFFF, false, c.lowest⟩ s) ∧
    (∀ r o j, e.valid = true → e.supply c.pos = .record r → s.ma.long = some ⟨o, j⟩ →
      runChecks (n + 1) c s = { s with ma := { s.ma with long := some ⟨o, .selfCheck c⟩ } }) ∧
    (e.valid = true → e.supply c.pos = .fill →
      runChecks (n + 1) c s = runChecks (n + 1) { c with pos := c.pos + 1, crc := crc32Step c.crc (List.replicate 128 0) } s) ∧
    (e.valid = true → e.length ≤ c.pos → ~~~c.crc = e.check →
      runChecks (n + 1) c s = runChecks n ⟨c.check + 1, 0, 0xFFFFFFFF, false, c.lowest⟩ s) ∧
    (e.valid = true → e.length ≤ c.pos → ~~~c.crc ≠ e.check →
      runChecks (n + 1) c s = runChecks n ⟨c.check + 1, 0, 0xFFFFFFFF, false, some (c.lowest.getD c.check)⟩
        (if ∃ f ∈ s.bc.fills, f.img = i then requestAll (markBad i s) else markBad i s))) ∧
  (∀ (s : State) (o : Origin) (c : SelfCheck) (j : LongJob), s.ma.long = some ⟨o, j⟩ → runChecks 0 c s =
    finalReply o .ok [BitVec.ofNat 8 (c.lowest.getD 0)] false { s with ma := { s.ma with long := none } }) ∧
  (∀ (s : State) (read : Disturb), s.reader = .scan false →
    exec (.scanReadEnd read) s = .next (finish { s with reader := .idle })) ∧
  ∀ (s : State) (o : Origin) (c : SelfCheck) (i : ImageId), s.ma.long = some ⟨o, .selfCheck c⟩ →
    (c.check ≠ 3 + i.val → restartCheck i s = s) ∧
    (c.check = 3 + i.val → ∃ x, restartCheck i s = runChecks (16 - i.val) { c with pos := 0, crc := 0xFFFFFFFF } { s with reader := x } ∧
      (∀ l, s.reader = .scan l → x = .scan false) ∧ ((∀ l, s.reader ≠ .scan l) → x = s.reader)) ∧
    ∀ (r : Word32) (bs : List Byte) (b : Byte), crc32Step r [] = r ∧ crc32Step r (bs ++ [b]) =
      (List.range 8).foldl (fun r _ => if r.getLsbD 0 then (r >>> 1) ^^^ 0xEDB88320 else r >>> 1) (crc32Step r bs ^^^ b.setWidth 32)

/-! ## The management agent -/

/-- A final reply that finds no waiting reply, room in its origin's queue and a free buffer is placed at the tail of the queue, with the
code, the status, the more flag 0 and the data, addressed to the requester; the origin is IDLE, its record empty (R165, R166, R169). With
no buffer free, or no room for it and for any that waits, it is kept behind those that wait, and its origin is REPLYING (R118, R166). A
built reply, final or BUSY, of either origin: kept or placed in the same way, a BUSY reply leaving the origin as it stands; where one that
waits can be placed, the oldest that can is placed before it, and so on (R118, R166). The placing of a waiting reply takes the oldest one
whose queue has room, of either origin, final or BUSY, into a free buffer at the tail of that queue; where no buffer is free or none has
room, nothing happens (R118, R166). -/
def Obligations.RepliesPlaced : Prop :=
  (∀ (s : State) (st : Status) (data : List Byte) (x : Bool) (q : Request), s.ma.replies = [] → freeBufs s ≠ [] →
    (s.ma.trunk.req = some q → s.queues.trunk.length < 48 → ∃ b : BufId, s.pool[b].frame = none ∧
      finalReply .trunk st data x s = { s with
        pool := s.pool.set b
          ⟨some ⟨q.src, s.tables.settings.mgmtAddr, .mgmtReply, q.seq, q.payload.getD 0 0 :: st.code :: 0 :: data⟩, 1⟩
        queues := { s.queues with trunk := s.queues.trunk ++ [⟨b, x⟩] }
        ma := { s.ma with trunk := { s.ma.trunk with state := .idle, req := none } } }) ∧
    (s.ma.service.req = some q → s.queues.service.length < 4 → ∃ b : BufId, s.pool[b].frame = none ∧
      finalReply .service st data x s = { s with
        pool := s.pool.set b
          ⟨some ⟨q.src, s.tables.settings.mgmtAddr, .mgmtReply, q.seq, q.payload.getD 0 0 :: st.code :: 0 :: data⟩, 1⟩
        queues := { s.queues with service := s.queues.service ++ [⟨b, x⟩] }
        ma := { s.ma with service := { s.ma.service with state := .idle, req := none } } })) ∧
  (∀ (s t : State) (o : Origin) (st : Status) (data : List Byte) (x : Bool) (q : Request) (r : BuiltReply),
    (s.ma.origin o).req = some q →
    r = ⟨o, false, x, ⟨q.src, s.tables.settings.mgmtAddr, .mgmtReply, q.seq, q.payload.getD 0 0 :: st.code :: 0 :: data⟩⟩ →
    t = (if o = .trunk then { s with ma := { s.ma with trunk := { s.ma.trunk with state := .replying } } }
      else { s with ma := { s.ma with service := { s.ma.service with state := .replying } } }) →
    finalReply o st data x s = queueReply r t ∧
    (freeBufs s = [] ∨ (∀ y ∈ s.ma.replies, ¬ HasRoom y.origin s) ∧ ¬ HasRoom o s →
      finalReply o st data x s = { t with ma := { t.ma with replies := s.ma.replies ++ [r] } })) ∧
  (∀ (s : State) (r : BuiltReply),
    (freeBufs s = [] ∨ (∀ y ∈ s.ma.replies, ¬ HasRoom y.origin s) ∧ ¬ HasRoom r.origin s →
      queueReply r s = { s with ma := { s.ma with replies := s.ma.replies ++ [r] } }) ∧
    (freeBufs s ≠ [] → (∀ y ∈ s.ma.replies, ¬ HasRoom y.origin s) → HasRoom r.origin s → ∃ b : BufId, s.pool[b].frame = none ∧
      queueReply r s = { s with
        pool := s.pool.set b ⟨some r.frame, 1⟩, queues := atTail r.origin b r.resets s.queues
        ma := if r.busy then s.ma else atRest r.origin s.ma }) ∧
    (freeBufs s ≠ [] → (∃ y ∈ s.ma.replies, HasRoom y.origin s) → queueReply r s = queueReply r (placeOne s))) ∧
  (∀ s : State, exec .placeWaitingReply s = .next (finish (placeOne s)) ∧
    (freeBufs s = [] ∨ (∀ y ∈ s.ma.replies, ¬ HasRoom y.origin s) → placeOne s = s) ∧
    ∀ (older newer : List BuiltReply) (r : BuiltReply) (a : Agent), s.ma.replies = older ++ r :: newer →
      (∀ y ∈ older, ¬ HasRoom y.origin s) → HasRoom r.origin s → freeBufs s ≠ [] → a = { s.ma with replies := older ++ newer } →
      ∃ b : BufId, s.pool[b].frame = none ∧ placeOne s = { s with
        pool := s.pool.set b ⟨some r.frame, 1⟩, queues := atTail r.origin b r.resets s.queues
        ma := if r.busy then a else atRest r.origin a })

/-- The next READ-RANGE frame to the trunk, with nothing in its way: a frame that leaves entries to come is full and carries the more flag
1; the last frame carries what remains with the more flag 0 and ends the read; with the restart mark set, the frame is RESTART with no
entries and ends it too. The same to the service link for a read of the service origin. A full frame holds as many entries, at most 8, as
fit the 237 data bytes behind the table number, each with its index byte and whole (R175, R176, R197). That the restart mark is clear
where the read has ended, by its last frame or by RESTART, is the model's choice (log entry 35). -/
def Obligations.RangeFrameSent : Prop :=
  (∀ (s : State) (t a b : Nat) (q : Request) (n : Nat), s.ma.long = some ⟨.trunk, .readRange t a b⟩ → s.ma.trunk.req = some q →
    s.ma.replies = [] → s.queues.trunk.length < 48 → freeBufs s ≠ [] → n = perFrame t →
    (s.ma.restartMark = false → b < a + n → ∃ c : BufId, s.pool[c].frame = none ∧
      exec .readRangeFrame s = .next (finish { s with
        pool := s.pool.set c ⟨some ⟨q.src, s.tables.settings.mgmtAddr, .mgmtReply, q.seq,
          q.payload.getD 0 0 :: 0 :: 0 :: byte t ::
            (List.range (b + 1 - a)).flatMap (fun j => byte (a + j) :: encodeEntry t (a + j) s)⟩, 1⟩
        queues := { s.queues with trunk := s.queues.trunk ++ [⟨c, false⟩] }
        ma := { s.ma with long := none, restartMark := false, trunk := { s.ma.trunk with state := .idle, req := none } } })) ∧
    (s.ma.restartMark = false → a + n ≤ b → ∃ c : BufId, s.pool[c].frame = none ∧
      exec .readRangeFrame s = .next (finish { s with
        pool := s.pool.set c ⟨some ⟨q.src, s.tables.settings.mgmtAddr, .mgmtReply, q.seq,
          q.payload.getD 0 0 :: 0 :: 1 :: byte t ::
            (List.range n).flatMap (fun j => byte (a + j) :: encodeEntry t (a + j) s)⟩, 1⟩
        queues := { s.queues with trunk := s.queues.trunk ++ [⟨c, false⟩] }
        ma := { s.ma with long := some ⟨.trunk, .readRange t (a + n) b⟩ } })) ∧
    (s.ma.restartMark = true → ∃ c : BufId, s.pool[c].frame = none ∧
      exec .readRangeFrame s = .next (finish { s with
        pool := s.pool.set c ⟨some ⟨q.src, s.tables.settings.mgmtAddr, .mgmtReply, q.seq, [q.payload.getD 0 0, 0x0A, 0]⟩, 1⟩
        queues := { s.queues with trunk := s.queues.trunk ++ [⟨c, false⟩] }
        ma := { s.ma with long := none, restartMark := false, trunk := { s.ma.trunk with state := .idle, req := none } } }))) ∧
  (∀ (s : State) (t a b : Nat) (q : Request) (n : Nat), s.ma.long = some ⟨.service, .readRange t a b⟩ → s.ma.service.req = some q →
    s.ma.replies = [] → s.queues.service.length < 4 → freeBufs s ≠ [] → n = perFrame t →
    (s.ma.restartMark = false → b < a + n → ∃ c : BufId, s.pool[c].frame = none ∧
      exec .readRangeFrame s = .next (finish { s with
        pool := s.pool.set c ⟨some ⟨q.src, s.tables.settings.mgmtAddr, .mgmtReply, q.seq,
          q.payload.getD 0 0 :: 0 :: 0 :: byte t ::
            (List.range (b + 1 - a)).flatMap (fun j => byte (a + j) :: encodeEntry t (a + j) s)⟩, 1⟩
        queues := { s.queues with service := s.queues.service ++ [⟨c, false⟩] }
        ma := { s.ma with long := none, restartMark := false, service := { s.ma.service with state := .idle, req := none } } })) ∧
    (s.ma.restartMark = false → a + n ≤ b → ∃ c : BufId, s.pool[c].frame = none ∧
      exec .readRangeFrame s = .next (finish { s with
        pool := s.pool.set c ⟨some ⟨q.src, s.tables.settings.mgmtAddr, .mgmtReply, q.seq,
          q.payload.getD 0 0 :: 0 :: 1 :: byte t ::
            (List.range n).flatMap (fun j => byte (a + j) :: encodeEntry t (a + j) s)⟩, 1⟩
        queues := { s.queues with service := s.queues.service ++ [⟨c, false⟩] }
        ma := { s.ma with long := some ⟨.service, .readRange t (a + n) b⟩ } })) ∧
    (s.ma.restartMark = true → ∃ c : BufId, s.pool[c].frame = none ∧
      exec .readRangeFrame s = .next (finish { s with
        pool := s.pool.set c ⟨some ⟨q.src, s.tables.settings.mgmtAddr, .mgmtReply, q.seq, [q.payload.getD 0 0, 0x0A, 0]⟩, 1⟩
        queues := { s.queues with service := s.queues.service ++ [⟨c, false⟩] }
        ma := { s.ma with long := none, restartMark := false, service := { s.ma.service with state := .idle, req := none } } }))) ∧
  ∀ t size : Nat, (t, size) ∈ [(0, 13), (1, 24), (2, 8), (3, 54), (4, 11), (5, 8), (8, 20), (9, 66), (10, 7), (11, 10), (12, 4), (13, 3)] →
    perFrame t ≤ 8 ∧ 1 + perFrame t * (1 + size) ≤ 237 ∧ ∀ n, n ≤ 8 → 1 + n * (1 + size) ≤ 237 → n ≤ perFrame t

/-- A PIN's waiting list takes freed queue room. With the queue full nothing is placed, though the head may by then be held or queued and
need no room: that is the model's reading of R87 (log entry 25). With room the head is taken as a pin request by its place: held by a
VALID line, the line is pinned and the reservation falls by 1; held by the FILLING line or queued, its fill takes pin-on-complete; else it
is a new entry at the tail with pin-on-complete and rank 8. Then the next block is taken in the same way, until the list is empty or the
queue is full; where the list is empty and the reservation spent, the PIN ends with OK (R76, R77, R87). -/
def Obligations.WaitingPinPlaced : Prop :=
  (∀ s : State, exec .pinWaitingPlace s = .next (finish (placeWaiting s)) ∧
    ((∀ o i b bs, s.ma.long ≠ some ⟨o, .pin i (b :: bs)⟩) → placeWaiting s = s)) ∧
  (∀ (s u : State) (o : Origin) (i : ImageId) (b : Nat) (bs : List Nat), s.ma.long = some ⟨o, .pin i (b :: bs)⟩ →
    (16 ≤ s.bc.fills.length → s.bc.reservation ≠ 0 → placeWaiting s = s) ∧
    (s.bc.fills.length < 16 → u = request .pin i b s →
      (bs ≠ [] → placeWaiting s = placeWaiting { u with ma := { s.ma with long := some ⟨o, .pin i bs⟩ } }) ∧
      (bs = [] → u.bc.reservation ≠ 0 → placeWaiting s = { u with ma := { s.ma with long := some ⟨o, .pin i []⟩ } }) ∧
      (bs = [] → u.bc.reservation = 0 →
        placeWaiting s = finalReply o .ok [] false { u with ma := { s.ma with long := none } })) ∧
    (s.bc.reservation ≠ 0 → s.bc.fills.length = 15 → bs ≠ [] → needsRoom i b s = true → exec .pinWaitingPlace s = .next (finish { s with
      bc := { s.bc with fills := s.bc.fills ++ [⟨i, b, [], true, false, 8, markedLine i b s⟩] }
      ma := { s.ma with long := some ⟨o, .pin i bs⟩ } }))) ∧
  ∀ (s : State) (i : ImageId) (b : Nat),
    (∀ (l : LineId) (p : Bool) (d : List Byte), s.bc.lines[l] = .valid i b p d →
      (∀ m : LineId, m < l → ∀ q c, s.bc.lines[m] ≠ .valid i b q c) → request .pin i b s = { s with
        bc := { s.bc with lines := s.bc.lines.set l (.valid i b true d), reservation := s.bc.reservation - 1 } }) ∧
    (¬ HeldValid i b s →
      (∀ f, HeldFilling i b s → s.reader = .fill f → request .pin i b s = { s with reader := .fill { f with pin := true } }) ∧
      (¬ HeldFilling i b s →
        (InQueue i b s → request .pin i b s = { s with bc := { s.bc with
          fills := s.bc.fills.map (fun e => if e.img = i ∧ e.blk = b then { e with pin := true } else e) } }) ∧
        (¬ InQueue i b s → s.bc.fills.length < 16 → request .pin i b s = { s with bc := { s.bc with
          fills := s.bc.fills ++ [⟨i, b, [], true, false, 8, markedLine i b s⟩] } })))

/-- READ-ENTRY and READ-LINK: the entry as it stands, with the link set by READ-LINK; a table or index out of range is BAD_VALUE, a link
on a read-only table NOT_ALLOWED (R170, R173, R197). What an entry holds: of tables 0 to 5 the bytes of the entry in force, whose fields `Obligations.EntriesReadBack` names; of table 8 a
slot's state, presence bits, class, tag, index in use, counts, flags, cause and session view, an absent item as 0; of table 9 the mask, the
present values in field order and zeros to 64; of table 10 line state, dip and gap counts, requests and permits; of table 11 a port's
counters; of table 12 VALID lines, pinned lines, reservation and fill queue length; of table 13 BAD, users and pinned lines (R5, R58, R92,
R115, R147, R163, R198). That the reason bits of table 8 read 0 while REBOOT_PENDING is clear is the model's reading (log entry 22). -/
def Obligations.EntriesRead : Prop :=
  (∀ (s : State) (o : Origin) (t i : Byte),
    (Asked .readEntry o [t, i] s → exec .readEntry s = .next (finish (
      if inTable t.toNat i.toNat then answered o .ok (t :: i :: encodeEntry t.toNat i.toNat s) s
      else answered o .badValue [] s))) ∧
    (Asked .readLink o [t, i] s → exec .readLink s = .next (finish (
      if 8 ≤ t.toNat ∧ t.toNat ≤ 13 then answered o .notAllowed [] s
      else if inTable t.toNat i.toNat then
        answered o .ok (t :: i :: encodeEntry t.toNat i.toNat s)
          (updOrigin o (fun r => { r with link := some ⟨t.toNat, i.toNat⟩ }) s)
      else answered o .badValue [] s)))) ∧
  (∀ t i : Nat, inTable t i = true ↔
    ∃ n, (t, n) ∈ [(0, 1), (1, 8), (2, 32), (3, 16), (4, 48), (5, 32), (8, 32), (9, 32), (10, 1), (11, 3), (12, 1), (13, 16)] ∧ i < n) ∧
  ∀ s : State,
    (encodeEntry 0 0 s = s.tables.settings.encode ∧ (∀ i : ClassId, encodeEntry 1 i s = (s.tables.classes[i]).encode) ∧
      (∀ i : SlotId, encodeEntry 2 i s = (s.tables.slots[i]).encode) ∧ (∀ i : ImageId, encodeEntry 3 i s = (s.tables.cat[i]).encode) ∧
      (∀ i : Fin 48, encodeEntry 4 i s = (s.tables.fwd[i]).encode) ∧ ∀ i : Fin 32, encodeEntry 5 i s = (s.tables.cap[i]).encode) ∧
    (∀ (k : SlotId) (x : SlotStatus) (n : Nat) (one : Bool → Nat), s.slots[k] = x → (∀ b, one b = if b then 1 else 0) →
      (x.state, n) ∈ [(SlotState.vacant, 0), (.absent, 1), (.dark, 2), (.loading, 3), (.starting, 4), (.context, 5), (.running, 6),
        (.backoff, 7), (.failed, 8)] →
      encodeEntry 8 k s =
        [byte n, byte (one x.cls.isSome + 2 * one x.expTag.isSome + 4 * one x.catInUse.isSome + 8 * one x.lastCause.isSome +
            16 * one x.session.isSome + 32 * one (x.session.any (fun y => y.through.isSome))),
          byte ((x.cls.map Fin.val).getD 0)] ++ be32 (x.expTag.getD 0) ++
        [byte ((x.catInUse.map Fin.val).getD 0), byte x.retry, byte x.miss, byte x.holdMissed,
          byte (one x.stale + 2 * one x.coldNext + 4 * one x.reloadExpected + 8 * one x.reboot.isSome +
            16 * one (decide (x.reboot = some .clear)) + 32 * one (decide (x.reboot = some .reload))),
          (x.lastCause.map Cause.code).getD 0] ++
        match x.session with
        | some y => be16 y.cursor ++ be16 (y.through.getD 0) ++ [byte y.inFlight.length] ++ be16 y.resends
        | none => [0, 0, 0, 0, 0, 0, 0]) ∧
    (∀ (k : SlotId) (v : List Byte), v = (List.finRange 16).flatMap (fun f => (s.ctx[k])[f].getD []) →
      ∃ m : BitVec 16, (∀ f : Fin 16, m.getLsbD f = (s.ctx[k])[f].isSome) ∧
        encodeEntry 9 k s = be16 m.toNat ++ v ++ List.replicate (64 - v.length) 0) ∧
    (∀ (n : Nat) (one : Bool → Nat), (∀ b, one b = if b then 1 else 0) →
      (s.lm.line, n) ∈ [(LineState.up, 0), (.dip, 1), (.gap, 2), (.settle, 3)] →
      encodeEntry 10 0 s = [byte n] ++ be16 s.lm.dips ++ be16 s.lm.gaps ++
        [byte (one s.lm.requests[0] + 2 * one s.lm.requests[1] + 4 * one s.lm.requests[2] + 8 * one s.lm.requests[3]),
          byte (one s.lm.permits[0] + 2 * one s.lm.permits[1] + 4 * one s.lm.permits[2] + 8 * one s.lm.permits[3])]) ∧
    (∀ i c, (i, c) ∈ [(0, s.ports.trunk), (1, s.ports.segment), (2, s.ports.service)] →
      encodeEntry 11 i s = be16 c.good ++ be16 c.bad ++ be16 c.overrun ++ be16 c.transmitted ++ be16 c.orphan) ∧
    encodeEntry 12 0 s = [byte (s.bc.lines.toList.countP Line.isValid), byte (s.bc.lines.toList.countP Line.isPinned),
      byte s.bc.reservation, byte s.bc.fills.length] ∧
    ∀ i : ImageId, encodeEntry 13 i s = [if s.catSt[i].bad then 1 else 0, byte s.catSt[i].users,
      byte (s.bc.lines.toList.countP (fun l => l.isPinned && l.isOf i))]

/-- WRITE-ENTRY, its refusals in order: NOT_ALLOWED on a read-only table, BUSY while COMMIT runs, BAD_VALUE on no such entry; else it is
carried out: the owner judges the entry, an accepted write is noted and answered OK, a refused one is answered with the owner's status and
changes nothing else. Each owner takes an entry in its layout and checks and answers BAD_VALUE to any other: settings, classes, slots and
catalogue by their own rules, a forwarding or a capture rule replaced (R119, R138, R172, R198). WRITE-COND: the same refusals, which come
before the link test and leave the link; without its link it writes nothing and answers LINK_LOST; with it, it is carried out as
WRITE-ENTRY, accepted or refused; in both cases the origin's link is absent afterwards (R174). -/
def Obligations.Written : Prop :=
  (∀ (s : State) (o : Origin) (t i : Byte) (e : List Byte), Asked .writeEntry o (t :: i :: e) s →
    (8 ≤ t.toNat → t.toNat ≤ 13 → exec .writeEntry s = .next (finish (answered o .notAllowed [] s))) ∧
    (t.toNat ≤ 5 → commitRuns s = true → exec .writeEntry s = .next (finish (answered o .busy [] s))) ∧
    (t.toNat < 8 ∨ 13 < t.toNat → commitRuns s = false → inTable t.toNat i.toNat = false →
      exec .writeEntry s = .next (finish (answered o .badValue [] s))) ∧
    (t.toNat ≤ 5 → commitRuns s = false → inTable t.toNat i.toNat = true →
      exec .writeEntry s = .next (finish (wrote o t.toNat i.toNat (writeConfig t.toNat i.toNat e s)))) ∧
    (∀ (k : Fin 48) (r : FwdRule), t = 4 → i.toNat = k.val → commitRuns s = false → FwdRule.decode e = some r →
      exec .writeEntry s = .next (finish (answered o .ok [] (noteWrite 4 k
        { s with tables := { s.tables with fwd := s.tables.fwd.set k r } })))) ∧
    (∀ (k : Fin 32) (r : CapRule), t = 5 → i.toNat = k.val → commitRuns s = false → CapRule.decode e = some r →
      exec .writeEntry s = .next (finish (answered o .ok [] (noteWrite 5 k
        { s with tables := { s.tables with cap := s.tables.cap.set k r } })))) ∧
    (∀ k : Fin 48, t = 4 → i.toNat = k.val → commitRuns s = false → FwdRule.decode e = none →
      exec .writeEntry s = .next (finish (answered o .badValue [] s))) ∧
    (∀ k : Fin 32, t = 5 → i.toNat = k.val → commitRuns s = false → CapRule.decode e = none →
      exec .writeEntry s = .next (finish (answered o .badValue [] s)))) ∧
  (∀ (s : State) (o : Origin) (t i : Byte) (e : List Byte) (n : State), Asked .writeCond o (t :: i :: e) s → t.toNat ≤ 5 →
    commitRuns s = false → inTable t.toNat i.toNat = true → n = updOrigin o (fun r => { r with link := none }) s →
    ((s.ma.origin o).link ≠ some ⟨t.toNat, i.toNat⟩ → exec .writeCond s = .next (finish (answered o .linkLost [] n))) ∧
    (∀ (k : Fin 48) (r : FwdRule), t = 4 → i.toNat = k.val → (s.ma.origin o).link = some ⟨4, k⟩ → FwdRule.decode e = some r →
      exec .writeCond s = .next (finish (answered o .ok [] (noteWrite 4 k
        { n with tables := { s.tables with fwd := s.tables.fwd.set k r } })))) ∧
    ((s.ma.origin o).link = some ⟨t.toNat, i.toNat⟩ →
      exec .writeCond s = .next (finish (wrote o t.toNat i.toNat (writeConfig t.toNat i.toNat e n)))) ∧
    ∃ x, exec .writeCond s = .next x ∧ (x.ma.origin o).link = none) ∧
  (∀ (s : State) (o : Origin) (t i : Byte) (e : List Byte), Asked .writeCond o (t :: i :: e) s →
    (8 ≤ t.toNat → t.toNat ≤ 13 → exec .writeCond s = .next (finish (answered o .notAllowed [] s))) ∧
    (t.toNat ≤ 5 → commitRuns s = true → exec .writeCond s = .next (finish (answered o .busy [] s))) ∧
    (t.toNat < 8 ∨ 13 < t.toNat → commitRuns s = false → inTable t.toNat i.toNat = false →
      exec .writeCond s = .next (finish (answered o .badValue [] s)))) ∧
  (∀ (s : State) (o p : Origin) (st : Status), ((finish (answered o st [] s)).ma.origin p).link = (s.ma.origin p).link) ∧
  (∀ (s n : State) (t i : Nat) (e : List Byte) (st : Status), writeConfig t i e s = (st, n) → st ≠ .ok → n = s) ∧
  ∀ (s : State) (e : List Byte),
    (Settings.decode e = none → writeConfig 0 0 e s = (.badValue, s)) ∧
    (∀ x, Settings.decode e = some x → writeConfig 0 0 e s = (.ok, setSettings x s)) ∧
    (∀ k : ClassId, (ClassEntry.decode e = none → writeConfig 1 k e s = (.badValue, s)) ∧
      ∀ x, ClassEntry.decode e = some x → writeConfig 1 k e s = setClassEntry k x s) ∧
    (∀ k : SlotId, (SlotEntry.decode e = none → writeConfig 2 k e s = (.badValue, s)) ∧
      ∀ x, SlotEntry.decode e = some x → writeConfig 2 k e s = setSlotEntry k x s) ∧
    (∀ k : ImageId, (CatEntry.decode e = none → writeConfig 3 k e s = (.badValue, s)) ∧
      ∀ x, CatEntry.decode e = some x → writeConfig 3 k e s = setCatEntry k x s) ∧
    (∀ k : Fin 48, (FwdRule.decode e = none → writeConfig 4 k e s = (.badValue, s)) ∧
      ∀ x, FwdRule.decode e = some x → writeConfig 4 k e s = (.ok, { s with tables := { s.tables with fwd := s.tables.fwd.set k x } })) ∧
    (∀ k : Fin 32, (CapRule.decode e = none → writeConfig 5 k e s = (.badValue, s)) ∧
      ∀ x, CapRule.decode e = some x → writeConfig 5 k e s = (.ok, { s with tables := { s.tables with cap := s.tables.cap.set k x } }))

/-- An accepted write clears every link on its entry, keeps every other link, and marks a READ-RANGE over its table, and no other, for
restart (R172, R173, R176). -/
def Obligations.WriteNoted : Prop :=
  ∀ (s : State) (t i : Nat),
    (∀ o : Origin, ((noteWrite t i s).ma.origin o).link =
      if (s.ma.origin o).link = some ⟨t, i⟩ then none else (s.ma.origin o).link) ∧
    (∀ o a b, s.ma.long = some ⟨o, .readRange t a b⟩ → (noteWrite t i s).ma.restartMark = true) ∧
    ((∀ o a b, s.ma.long ≠ some ⟨o, .readRange t a b⟩) → (noteWrite t i s).ma.restartMark = s.ma.restartMark) ∧
    noteWrite t i s = { s with ma := (noteWrite t i s).ma }

/-- What the owner does with a written entry. Slots: BAD_VALUE for an address that another enabled slot holds, then IN_USE for any write
while the slot restores; a slot enabled anew, or whose address changes, is ABSENT with every count and flag clear, its class that of the
expected class and its record empty; one disabled is VACANT with an empty record; a change of the expected class outside RUNNING computes
the class again; other fields change nothing else; disabling, or an address change, voids the turn open for the slot (R1 to R4, R10,
R105). Settings: replaced; hold queues longer than the new H are trimmed at their tails, shown for one entry of one queue: HOLD_FULL for a
station frame, one more hold-missed frame for a copy (R124, R171). A class: IN_USE while a slot of it restores; else replaced, its slots'
retry counts 0, and their records empty where the layout changes (R11). A catalogue entry: IN_USE with users or over a sector being
written; else replaced, BAD cleared, everything held of it dropped as by INVALIDATE, and each RUNNING slot of the image with another tag
takes the new tag and is STALE, with its report where STALE was clear; then a check of the entry begins again (R60, R61, R62, R190; that
the reports come before what that check does is log entry 32). Which turns a write voids is log entry 19. -/
def Obligations.SlotWritten : Prop :=
  (∀ (s : State) (k : SlotId) (e : SlotEntry) (n : State), n = { s with tables := { s.tables with slots := s.tables.slots.set k e } } →
    ((∃ j : SlotId, j ≠ k ∧ s.tables.slots[j].enabled = true ∧ s.tables.slots[j].addr = e.addr) → e.enabled = true →
      setSlotEntry k e s = (.badValue, s)) ∧
    (e.enabled = false → s.slots[k].state.restoring = true → setSlotEntry k e s = (.inUse, s)) ∧
    (s.tables.slots[k].enabled = false → s.slots[k].state = .vacant → e.enabled = true →
      (∀ j : SlotId, j ≠ k → s.tables.slots[j].enabled = true → s.tables.slots[j].addr ≠ e.addr) →
      s.seg.port ≠ .window → s.seg.port ≠ .receiving true →
      setSlotEntry k e s = (.ok, { n with
        slots := s.slots.set k { SlotStatus.vacant with
          state := .absent, cls := some (expectedLookup e.expClass s), holdMissed := s.slots[k].holdMissed }
        ctx := s.ctx.set k (Vector.replicate 16 none) })) ∧
    (s.tables.slots[k].enabled = true → s.slots[k].state.restoring = false → e.enabled = false →
      s.seg.port ≠ .window → s.seg.port ≠ .receiving true →
      setSlotEntry k e s = (.ok, { n with
        slots := s.slots.set k { SlotStatus.vacant with holdMissed := s.slots[k].holdMissed }
        ctx := s.ctx.set k (Vector.replicate 16 none) })) ∧
    ∀ (old : SlotEntry) (g : Segment) (c : ClassId), s.tables.slots[k] = old →
      (e.enabled = true → ∀ j : SlotId, j ≠ k → s.tables.slots[j].enabled = true → s.tables.slots[j].addr ≠ e.addr) →
      g = (if (s.seg.port = .window ∨ s.seg.port = .receiving true) ∧ (old.enabled = true ∧ e.enabled = false ∨ old.addr ≠ e.addr)
        then { s.seg with turn := s.seg.turn.map (fun u => if u.slot = k then { u with void := true } else u) } else s.seg) →
      (e.expClass = none ∧ c = 0 ∨ (∃ x, e.expClass = some x ∧ (x.toNat < s.tables.settings.classCount ∧ c.val = x.toNat ∨
        s.tables.settings.classCount ≤ x.toNat ∧ c = 0))) →
      (s.slots[k].state.restoring = true → setSlotEntry k e s = (.inUse, s)) ∧
      (s.slots[k].state.restoring = false →
        (e.enabled = true → old.enabled = false ∨ old.addr ≠ e.addr → setSlotEntry k e s = (.ok, { n with
          slots := s.slots.set k { SlotStatus.vacant with state := .absent, cls := some c, holdMissed := s.slots[k].holdMissed }
          ctx := s.ctx.set k (Vector.replicate 16 none), seg := g })) ∧
        (e.enabled = false → old.enabled = true → setSlotEntry k e s = (.ok, { n with
          slots := s.slots.set k { SlotStatus.vacant with holdMissed := s.slots[k].holdMissed }
          ctx := s.ctx.set k (Vector.replicate 16 none), seg := g })) ∧
        (e.enabled = false → old.enabled = false → setSlotEntry k e s = (.ok, { n with seg := g })) ∧
        (e.enabled = true → old.enabled = true → old.addr = e.addr →
          (old.expClass = e.expClass ∨ s.slots[k].state = .running ∨ s.slots[k].cls = some c → setSlotEntry k e s = (.ok, n)) ∧
          (old.expClass ≠ e.expClass → s.slots[k].state ≠ .running → s.slots[k].cls ≠ some c → setSlotEntry k e s = (.ok, { n with
            slots := s.slots.set k { s.slots[k] with cls := some c, retry := 0 }
            ctx := s.ctx.set k (Vector.replicate 16 none) }))))) ∧
  (∀ (s : State) (e : Settings),
    (setSettings e s).tables = { s.tables with settings := e } ∧ (setSettings e s).queues.out = s.queues.out ∧
    (∀ k : SlotId, (setSettings e s).queues.hold[k] = s.queues.hold[k].take e.holdDepth) ∧
    ((∀ k : SlotId, s.queues.hold[k].length ≤ e.holdDepth) → setSettings e s = { s with tables := { s.tables with settings := e } }) ∧
    ∀ (k : SlotId) (keep : List BufId) (b : BufId) (f : Frame) (u : State), s.queues.hold[k] = keep ++ [b] →
      keep.length = e.holdDepth → (∀ j : SlotId, j ≠ k → s.queues.hold[j].length ≤ e.holdDepth) → s.pool[b].frame = some f →
      u = { s with
        tables := { s.tables with settings := e }, queues := { s.queues with hold := s.queues.hold.set k keep } } →
      (isStation f.dst = true → setSettings e s = dropRef b (refuse .holdFull f u)) ∧
      (isStation f.dst = false → setSettings e s = dropRef b { u with slots := s.slots.set k { s.slots[k] with
        holdMissed := if s.slots[k].holdMissed < 255 then s.slots[k].holdMissed + 1 else s.slots[k].holdMissed } })) ∧
  (∀ (s : State) (c : ClassId) (e : ClassEntry),
    ((∃ k : SlotId, s.slots[k].cls = some c ∧ s.slots[k].state.restoring = true) → setClassEntry c e s = (.inUse, s)) ∧
    ((∀ k : SlotId, s.slots[k].cls = some c → s.slots[k].state.restoring = false) → ∃ t, setClassEntry c e s = (.ok, t) ∧
      t = { s with tables := { s.tables with classes := s.tables.classes.set c e }, slots := t.slots, ctx := t.ctx } ∧
      ∀ k : SlotId, t.slots[k] = (if s.slots[k].cls = some c then { s.slots[k] with retry := 0 } else s.slots[k]) ∧
        t.ctx[k] = if s.slots[k].cls = some c ∧ e.layout ≠ (s.tables.classes[c]).layout then Vector.replicate 16 none else s.ctx[k])) ∧
  ∀ (s : State) (i : ImageId) (e : CatEntry) (busy : Prop),
    (busy ↔ e.valid = true ∧ ∃ k, ((∃ o st a, s.ma.long = some ⟨o, .erase k st a⟩) ∨
      ∃ o r d st a, s.ma.long = some ⟨o, .program r d st a⟩ ∧ k = r / 31) ∧
      ∃ w : Fin 4, (e.windows[w]).enable = true ∧
        ∃ r, r / 31 = k ∧ (e.windows[w]).base ≤ r ∧ r ≤ (e.windows[w]).base + ((e.windows[w]).last - (e.windows[w]).first)) →
    (0 < s.catSt[i].users ∨ busy → setCatEntry i e s = (.inUse, s)) ∧
    (s.catSt[i].users = 0 → ¬ busy → ∀ old : SlotId → Prop,
      (∀ k : SlotId, old k ↔ e.valid = true ∧ s.slots[k].state = .running ∧ s.slots[k].expTag ≠ some e.tag ∧
        (s.tables.slots[k].override = some i ∨ s.tables.slots[k].override = none ∧
          ∃ c, s.slots[k].cls = some c ∧ (s.tables.classes[c]).selector = some i)) →
      ∃ u v : State, setCatEntry i e s = (.ok, restartCheck i v) ∧
        u = dropImage i { s with tables := { s.tables with cat := s.tables.cat.set i e }, catSt := s.catSt.set i ⟨false, 0⟩ } ∧
        v = { u with slots := v.slots, au := v.au, freeTick := v.freeTick } ∧ u.slots = s.slots ∧ u.au = s.au ∧
        (∀ k : SlotId, (old k → v.slots[k] = { s.slots[k] with expTag := some e.tag, stale := true }) ∧
          (¬ old k → v.slots[k] = s.slots[k])) ∧
        ((∀ k : SlotId, old k → s.slots[k].stale = true) → v.au = s.au) ∧
        ∀ k : SlotId, old k → s.slots[k].stale = false →
          (∃ a ∈ v.au.list, a.cause = .stale ∧ a.subject = .slot k) ∨ v.au.overflow = true)

/-- READ-RANGE is accepted when the range lies in a table of R170, and else BAD_VALUE (R175). COMMIT and SELF-CHECK are accepted and wait
for the flash reader (R178, R189). -/
def Obligations.LongAccepted : Prop :=
  (∀ (s : State) (o : Origin) (t a b : Byte), Asked .readRange o [t, a, b] s →
    exec .readRange s = .next (finish (
      if a.toNat ≤ b.toNat ∧ inTable t.toNat b.toNat = true then
        taken o (.readRange t.toNat a.toNat b.toNat) { s with ma := { s.ma with restartMark := false } }
      else answered o .badValue [] s))) ∧
  (∀ (s : State) (o : Origin),
    (Asked .commit o [] s → exec .commit s = .next (finish (taken o (.commit false) s))) ∧
    (Asked .selfCheck o [] s →
      exec .selfCheck s = .next (finish (taken o (.selfCheck ⟨1, 0, 0xFFFFFFFF, false, none⟩) s))))

/-- SET-CONTEXT: its checks in order, a slot above 31 or a field above 15 being BAD_VALUE, then the value stored, an all-zero value removing
the field; CLEAR-CONTEXT empties the record in every slot state, and a slot above 31 is BAD_VALUE (R136, R144, R145, R196). -/
def Obligations.ContextSet : Prop :=
  (∀ (s : State) (o : Origin) (k f : Byte) (v : List Byte),
    (Asked .setContext o (k :: f :: v) s → 31 < k.toNat ∨ 15 < f.toNat →
      exec .setContext s = .next (finish (answered o .badValue [] s))) ∧
    (Asked .clearContext o [k] s → 31 < k.toNat → exec .clearContext s = .next (finish (answered o .badValue [] s)))) ∧
  ∀ (s : State) (o : Origin) (k : SlotId) (f : FieldId) (v : List Byte),
    (Asked .setContext o (byte k :: byte f :: v) s →
      (s.slots[k].state = .vacant → exec .setContext s = .next (finish (answered o .notAllowed [] s))) ∧
      (s.slots[k].state ≠ .vacant → (fieldLen k f s = 0 ∨ v.length ≠ fieldLen k f s) →
        exec .setContext s = .next (finish (answered o .badValue [] s))) ∧
      (s.slots[k].state ≠ .vacant → fieldLen k f s ≠ 0 → v.length = fieldLen k f s →
        exec .setContext s = .next (finish (answered o .ok []
          { s with ctx := s.ctx.set k (s.ctx[k].set f (if ∀ b ∈ v, b = 0 then none else some v)) })))) ∧
    (Asked .clearContext o [byte k] s → exec .clearContext s =
      .next (finish (answered o .ok [] { s with ctx := s.ctx.set k (Vector.replicate 16 none) })))

/-- One capture rule against a frame of a slot's node: where the rule is enabled, of the source kind and matches the first payload byte,
the slot's class is in the mask and gives the field a length, and the payload reaches to the end of the value, the value is stored, an
all-zero value removing the field; else nothing changes. A rule that matches a downstream frame: its targets are, in either mode, the
enabled slot that holds a station destination; in mode ALL the enabled members of a group destination, and every enabled slot for
broadcast; in mode ADDRESSED none of these; each target is judged by its own class, and nothing but their records changes. A rule matches
where it is enabled, its source kind is that of the offer, and payload byte 0 agrees with its value under its mask; an empty payload is
matched by mask 0x00 alone, and then reaches no field, since every field in a layout has bytes. A rule that does not match, of any source
kind, changes nothing. Every rule is tried, in ascending order (R136, R139, R140, R141, R142). -/
def Obligations.CaptureStored : Prop :=
  (∀ (s : State) (src : CapSource) (f : Frame) (k : SlotId) (r : CapRule) (c : ClassId) (n : Nat) (b : Byte) (bs v : List Byte),
    s.slots[k].cls = some c → n = (s.tables.classes[c]).layout[r.field] → f.payload = b :: bs → v = (f.payload.drop r.offset).take n →
    (r.enable = true → r.source = src → b &&& r.typeMask = r.typeValue &&& r.typeMask → r.classMask.getLsbD c.val = true → n ≠ 0 →
      r.offset + n ≤ f.payload.length → captureRule src f (some k) s r =
        { s with ctx := s.ctx.set k (s.ctx[k].set r.field (if ∀ x ∈ v, x = 0 then none else some v)) }) ∧
    (r.enable = false ∨ r.source ≠ src ∨ b &&& r.typeMask ≠ r.typeValue &&& r.typeMask ∨ r.classMask.getLsbD c.val = false ∨ n = 0 ∨
      f.payload.length < r.offset + n → captureRule src f (some k) s r = s)) ∧
  (∀ (s : State) (src : CapSource) (f : Frame) (node : Option SlotId) (r : CapRule),
    (r.covers src f = true ↔ r.enable = true ∧ r.source = src ∧
      (f.payload = [] ∧ r.typeMask = 0 ∨ ∃ b bs, f.payload = b :: bs ∧ b &&& r.typeMask = r.typeValue &&& r.typeMask)) ∧
    (r.covers src f = false → captureRule src f node s r = s) ∧ (f.payload = [] → captureRule src f node s r = s)) ∧
  (∀ (s : State) (src : CapSource) (f : Frame) (node : Option SlotId),
    capture src f node s = s.tables.cap.toList.foldl (fun t r => captureRule src f node t r) s) ∧
  ∀ (s t : State) (f : Frame) (r : CapRule) (b : Byte) (bs : List Byte) (target : SlotId → Prop), f.payload = b :: bs → r.enable = true →
    r.source = .dataDown → b &&& r.typeMask = r.typeValue &&& r.typeMask →
    (∀ j k : SlotId, s.tables.slots[j].enabled = true → s.tables.slots[k].enabled = true → s.tables.slots[j].addr = f.dst →
      s.tables.slots[k].addr = f.dst → j = k) →
    (∀ k : SlotId, target k ↔ s.tables.slots[k].enabled = true ∧
      (isStation f.dst = true ∧ s.tables.slots[k].addr = f.dst ∨ isStation f.dst = false ∧ r.mode = .all ∧
        (f.dst = 0xFF ∨ 0xF0 ≤ f.dst.toNat ∧ (s.tables.slots[k].groups).getLsbD (f.dst.toNat - 0xF0) = true))) →
    t = captureRule .dataDown f none s r →
    t = { s with ctx := t.ctx } ∧
    (∀ (k : SlotId) (c : ClassId) (n : Nat) (v : List Byte), target k → s.slots[k].cls = some c → r.classMask.getLsbD c.val = true →
      n = (s.tables.classes[c]).layout[r.field] → n ≠ 0 → r.offset + n ≤ f.payload.length → v = (f.payload.drop r.offset).take n →
      t.ctx[k] = s.ctx[k].set r.field (if ∀ x ∈ v, x = 0 then none else some v)) ∧
    (∀ k : SlotId, (target k → ∀ c : ClassId, s.slots[k].cls = some c → r.classMask.getLsbD c.val = false ∨
      (s.tables.classes[c]).layout[r.field] = 0 ∨ f.payload.length < r.offset + (s.tables.classes[c]).layout[r.field]) →
      t.ctx[k] = s.ctx[k])

/-- PERMIT sets or clears the group's request and answers OK; a group above 3 or another setting is BAD_VALUE (R160). -/
def Obligations.PermitSet : Prop :=
  ∀ (s : State) (o : Origin) (a b : Byte), Asked .permit o [a, b] s →
    (∀ (g : GroupId) (on : Bool), a.toNat = g.val → b = (if on then 1 else 0) → exec .permit s =
      .next (finish (answered o .ok [] { s with lm := { s.lm with requests := s.lm.requests.set g on } }))) ∧
    (3 < a.toNat ∨ 1 < b.toNat → exec .permit s = .next (finish (answered o .badValue [] s)))

/-- RELOAD in RUNNING, ABSENT and DARK sets REBOOT_PENDING with reason reload and RELOAD_EXPECTED; in any other state it is NOT_ALLOWED and
nothing changes (R25). CLEAR in FAILED: ABSENT, retry count 0, REBOOT_PENDING with reason clear, the rest kept; in any other state
NOT_ALLOWED and nothing changes (R23). A slot above 31 is BAD_VALUE and nothing changes (R196). -/
def Obligations.ReloadAndClear : Prop :=
  (∀ (s : State) (o : Origin) (k : Byte), 31 < k.toNat →
    (Asked .reload o [k] s → exec .reload s = .next (finish (answered o .badValue [] s))) ∧
    (Asked .clear o [k] s → exec .clear s = .next (finish (answered o .badValue [] s)))) ∧
  (∀ (s : State) (o : Origin) (k : SlotId), Asked .reload o [byte k] s →
    (s.slots[k].state = .running ∨ s.slots[k].state = .absent ∨ s.slots[k].state = .dark → exec .reload s =
      .next (finish (answered o .ok []
        { s with slots := s.slots.set k { s.slots[k] with reboot := some .reload, reloadExpected := true } }))) ∧
    (s.slots[k].state ≠ .running → s.slots[k].state ≠ .absent → s.slots[k].state ≠ .dark →
      exec .reload s = .next (finish (answered o .notAllowed [] s)))) ∧
  (∀ (s : State) (o : Origin) (k : SlotId), Asked .clear o [byte k] s →
    (s.slots[k].state = .failed → exec .clear s = .next (finish (answered o .ok []
      { s with slots := s.slots.set k { s.slots[k] with state := .absent, retry := 0, reboot := some .clear } }))) ∧
    (s.slots[k].state ≠ .failed → exec .clear s = .next (finish (answered o .notAllowed [] s))))

/-- CLEAR-RETRIES in every state: the retry count becomes 0, the reply is OK, and nothing else of the slot changes (R24). A slot above 31
is BAD_VALUE and nothing changes (R196). -/
def Obligations.RetriesCleared : Prop :=
  (∀ (s : State) (o : Origin) (k : Byte), 31 < k.toNat → Asked .clearRetries o [k] s →
    exec .clearRetries s = .next (finish (answered o .badValue [] s))) ∧
  ∀ (s : State) (o : Origin) (k : SlotId), Asked .clearRetries o [byte k] s → exec .clearRetries s =
    .next (finish (answered o .ok [] { s with slots := s.slots.set k { s.slots[k] with retry := 0 } }))

/-- PIN: BAD_VALUE outside its range; IMAGE_BAD on an entry invalid or BAD; NO_ROOM beyond 64, and nothing changes; OK at once when no
block of the range counts, those inside the image that are no fill block and in no pinned line; one block held by an unpinned VALID line
is pinned at once and answered OK (R86, R87). Else the PIN runs on with its count reserved: blocks neither held nor queued are queued in
ascending order with pin-on-complete until the queue is full, the rest waits; a block that is queued or in flight has pin-on-complete set
on its fill, shown for a count of one (R76, R87, R168). And wherever the counted blocks stand: in ascending order each is taken as a pin
request by its place, as `Obligations.WaitingPinPlaced` has it, up to the first that is neither held nor queued and finds the queue full;
that block and every later one wait. With all landed the answer is OK, else the PIN runs on. That with the queue full the taking goes on
over blocks that need no room is log entry 25, and that an idle reader starts none of the new entries inside this event is the model's
choice (log entry 36). -/
def Obligations.PinRequested : Prop :=
  (∀ (s : State) (o : Origin) (a : List Byte), Asked .pin o a s → 15 < rd8 a 0 ∨ rd16 a 3 < rd16 a 1 ∨ 4095 < rd16 a 3 →
    exec .pin s = .next (finish (answered o .badValue [] s))) ∧
  (∀ (s : State) (i : ImageId) (first last : Nat), (pinCounted i first last s).Pairwise (· < ·) ∧
    (∀ b, b ∈ pinCounted i first last s ↔ first ≤ b ∧ b ≤ last ∧ (∃ r, s.tables.cat[i].supply b = .record r) ∧
      ∀ (l : LineId) (d : List Byte), s.bc.lines[l] ≠ .valid i b true d) ∧
    pinnedCount s = (List.finRange 96).countP (fun l => (s.bc.lines[l]).isPinned)) ∧
  ∀ (s : State) (o : Origin) (a : List Byte) (i : ImageId) (first last : Nat), Asked .pin o a s →
    pinRange a = some (i, first, last) →
    (rd8 a 0 = i.val ∧ rd16 a 1 = first ∧ rd16 a 3 = last) ∧
    (s.tables.cat[i].valid = false ∨ s.catSt[i].bad = true → exec .pin s = .next (finish (answered o .imageBad [] s))) ∧
    (s.tables.cat[i].valid = true → s.catSt[i].bad = false →
      64 < pinnedCount s + s.bc.reservation + (pinCounted i first last s).length →
      exec .pin s = .next (finish (answered o .noRoom [] s))) ∧
    (s.tables.cat[i].valid = true → s.catSt[i].bad = false → pinCounted i first last s = [] →
      pinnedCount s + s.bc.reservation ≤ 64 →
      exec .pin s = .next (finish (answered o .ok [] { s with bc := { s.bc with reservation := 0 } }))) ∧
    (∀ (b : Nat) (l : LineId) (d : List Byte), s.tables.cat[i].valid = true → s.catSt[i].bad = false →
      pinCounted i first last s = [b] → pinnedCount s + s.bc.reservation < 64 → validLine i b s = some l →
      s.bc.lines[l] = .valid i b false d → (s.ma.origin o).req.isSome = true →
      exec .pin s = .next (finish (turnPointer o (finalReply o .ok [] false
        { accept o (.pin i []) s with
          bc := { s.bc with lines := s.bc.lines.set l (.valid i b true d), reservation := 0 }
          ma := { (accept o (.pin i []) s).ma with long := none } })))) ∧
    (∀ bs : List Nat, s.tables.cat[i].valid = true → s.catSt[i].bad = false → pinCounted i first last s = bs → bs ≠ [] →
      pinnedCount s + s.bc.reservation + bs.length ≤ 64 →
      ((∀ b ∈ bs, needsRoom i b s = true) → exec .pin s = .next (finish (taken o (.pin i (bs.drop (16 - s.bc.fills.length)))
        { s with bc := { s.bc with
          reservation := bs.length
          fills := s.bc.fills ++
            (bs.take (16 - s.bc.fills.length)).map (fun b => ⟨i, b, [], true, false, 8, markedLine i b s⟩) } }))) ∧
      (∀ b : Nat, bs = [b] → validLine i b s = none → fillingHolds i b s = false → isQueued i b s = true →
        exec .pin s = .next (finish (taken o (.pin i [])
          { s with bc := { s.bc with
            reservation := 1
            fills := s.bc.fills.map (fun e => if e.img = i ∧ e.blk = b then { e with pin := true } else e) } }))) ∧
      (∀ (b : Nat) (f : Fill), bs = [b] → validLine i b s = none → fillingHolds i b s = true → s.reader = .fill f →
        exec .pin s = .next (finish (taken o (.pin i [])
          { s with bc := { s.bc with reservation := 1 }, reader := .fill { f with pin := true } })))) ∧
    ∀ bs : List Nat, s.tables.cat[i].valid = true → s.catSt[i].bad = false → pinCounted i first last s = bs →
      pinnedCount s + s.bc.reservation + bs.length ≤ 64 →
      ∃ (now later : List Nat) (u : Nat → State), bs = now ++ later ∧ u 0 = { s with bc := { s.bc with reservation := bs.length } } ∧
        (∀ n b, now[n]? = some b → u (n + 1) = request .pin i b (u n) ∧
          (¬ HeldValid i b (u n) → ¬ HeldFilling i b (u n) → ¬ InQueue i b (u n) → (u n).bc.fills.length < 16)) ∧
        (∀ b, later.head? = some b → ¬ HeldValid i b (u now.length) ∧ ¬ HeldFilling i b (u now.length) ∧
          ¬ InQueue i b (u now.length) ∧ 16 ≤ (u now.length).bc.fills.length) ∧
        exec .pin s = .next (finish (if (u now.length).bc.reservation = 0 then answered o .ok [] (u now.length)
          else taken o (.pin i later) (u now.length)))

/-- UNPIN without a PIN running on the index unpins the lines of the range and nothing else. With one, it also takes back the blocks of
the range that have not landed: they leave the waiting list, pin-on-complete is cleared on their queued entries and on the fill in flight,
the reservation falls by their number, and at 0 the PIN ends with OK before UNPIN is answered OK. A range out of bounds is BAD_VALUE for
UNPIN. PREFETCH answers OK in every case. With an index above 15, first above last, an entry invalid or BAD nothing is queued. Else each
windowed block of the range is taken in ascending order: one held by a VALID line is left alone, one held by the FILLING line or queued
has the prefetch flag set on its fill, another is a new entry at the tail with the flag, no requester and rank 8 while there is room, and
is dropped where the queue is full (R76, R77, R89, R90). That an idle reader starts none of the blocks inside this event, so that 16 of
a longer range are taken and not 17, is the model's choice (log entry 36); that a block which is queued or in flight takes the flag once
the queue is full is the model's reading (log entry 37). -/
def Obligations.UnpinAndPrefetch : Prop :=
  ∀ (s : State) (o : Origin) (a : List Byte),
    (∀ i first last, Asked .unpin o a s → pinRange a = some (i, first, last) → pinImage s ≠ some i →
      exec .unpin s = .next (finish (answered o .ok []
        { s with bc := { s.bc with lines := vmap (Line.unpin i first last) s.bc.lines } }))) ∧
    (∀ (i : ImageId) (first last n flight : Nat) (p : Origin) (w : List Nat) (inRange : Nat → Bool) (r : Reader) (t : State),
      Asked .unpin o a s → pinRange a = some (i, first, last) → s.ma.long = some ⟨p, .pin i w⟩ →
      (∀ b, inRange b = (decide (first ≤ b) && decide (b ≤ last))) →
      (∀ f, s.reader = .fill f → flight = (if f.pin = true ∧ f.img = i ∧ inRange f.blk = true then 1 else 0) ∧
        r = .fill (if f.img = i ∧ inRange f.blk = true then { f with pin := false } else f)) →
      ((∀ f, s.reader ≠ .fill f) → flight = 0 ∧ r = s.reader) →
      n = w.countP inRange + s.bc.fills.countP (fun e => e.pin && decide (e.img = i) && inRange e.blk) + flight →
      t = { s with
        reader := r
        bc := { s.bc with
          lines := vmap (Line.unpin i first last) s.bc.lines, reservation := s.bc.reservation - n
          fills := s.bc.fills.map (fun e => if e.img = i ∧ inRange e.blk = true then { e with pin := false } else e) }
        ma := { s.ma with long := some ⟨p, .pin i (w.filter (fun b => !inRange b))⟩ } } →
      (n < s.bc.reservation → exec .unpin s = .next (finish (answered o .ok [] t))) ∧
      (s.bc.reservation ≤ n → exec .unpin s = .next (finish (answered o .ok []
        (finalReply p .ok [] false { t with ma := { s.ma with long := none } }))))) ∧
    (Asked .unpin o a s → pinRange a = none → exec .unpin s = .next (finish (answered o .badValue [] s))) ∧
    (∀ i : ImageId, Asked .prefetch o a s → rd8 a 0 = i.val → s.tables.cat[i].valid = false ∨ s.catSt[i].bad = true →
      exec .prefetch s = .next (finish (answered o .ok [] s))) ∧
    (Asked .prefetch o a s → 15 < rd8 a 0 ∨ rd16 a 3 < rd16 a 1 → exec .prefetch s = .next (finish (answered o .ok [] s))) ∧
    (∀ (i : ImageId) (first last : Nat) (windowed : Nat → Bool), Asked .prefetch o a s → rd8 a 0 = i.val → rd16 a 1 = first →
      rd16 a 3 = last → s.tables.cat[i].valid = true → s.catSt[i].bad = false →
      (∀ b, windowed b = true ↔ ∃ r, s.tables.cat[i].supply b = .record r) → exec .prefetch s = .next (finish (answered o .ok []
        ((((List.range (last + 1 - first)).map (fun j => first + j)).filter windowed).foldl (fun t b => request .prefetch i b t) s)))) ∧
    (∀ (i : ImageId) (b : Nat),
      (HeldValid i b s → request .prefetch i b s = s) ∧
      (¬ HeldValid i b s →
        (∀ f, HeldFilling i b s → s.reader = .fill f → request .prefetch i b s = { s with reader := .fill { f with pre := true } }) ∧
        (¬ HeldFilling i b s →
          (InQueue i b s → request .prefetch i b s = { s with bc := { s.bc with
            fills := s.bc.fills.map (fun e => if e.img = i ∧ e.blk = b then { e with pre := true } else e) } }) ∧
          (¬ InQueue i b s → 16 ≤ s.bc.fills.length → request .prefetch i b s = s) ∧
          (¬ InQueue i b s → s.bc.fills.length < 16 → request .prefetch i b s = { s with bc := { s.bc with
            fills := s.bc.fills ++ [⟨i, b, [], false, true, 8, markedLine i b s⟩] } })))) ∧
    (∀ (i : ImageId) (b : Nat), Asked .prefetch o a s → rd8 a 0 = i.val → rd16 a 1 = b → rd16 a 3 = b →
      s.tables.cat[i].valid = true → s.catSt[i].bad = false → isWindowed i b s = true → needsRoom i b s = true →
      s.bc.fills.length < 16 →
      exec .prefetch s = .next (finish (answered o .ok []
        { s with bc := { s.bc with fills := s.bc.fills ++ [⟨i, b, [], false, true, 8, markedLine i b s⟩] } })))

/-- INVALIDATE: BAD_VALUE above 15, IN_USE while the entry has users, and nothing changes; else OK with, in one event, every VALID line of
the index EMPTY, every queued entry of the index withdrawn, a fill in flight for it marked for discard with its requesters and flags gone,
and a PIN on it ended with IMAGE_BAD, its reservation released and its marks cleared; where entries were withdrawn, the waiting blocks of
a PIN on another index take the room and every session repeats its requests. No queued entry and no VALID line of the index is left, where
no session is open on it. Nothing else changes: BAD flag, valid field and configuration stand (R78, R85, R88, R91). -/
def Obligations.ImageInvalidated : Prop :=
  ∀ (s : State) (o : Origin) (a : Byte), Asked .invalidate o [a] s →
    (15 < a.toNat → exec .invalidate s = .next (finish (answered o .badValue [] s))) ∧
    (∀ i : ImageId, a.toNat = i.val → 0 < s.catSt[i].users → exec .invalidate s = .next (finish (answered o .inUse [] s))) ∧
    (∀ i : ImageId, a.toNat = i.val → s.catSt[i].users = 0 → s.reader = .idle → s.ma.long = none →
      (∀ e ∈ s.bc.fills, e.img ≠ i) →
      exec .invalidate s = .next (finish (answered o .ok [] { s with
        bc := { s.bc with
          lines := vmap (fun x => if x.isOf i then .empty else x) s.bc.lines
          recency := s.bc.recency.filter (fun l => !(s.bc.lines[l].isOf i)) } }))) ∧
    (∀ i : ImageId, a.toNat = i.val → s.catSt[i].users = 0 → ∃ u v t : State, exec .invalidate s = .next (finish (answered o .ok [] t)) ∧
      u = { s with
        reader := u.reader
        bc := { s.bc with
          lines := u.bc.lines
          recency := s.bc.recency.filter (fun l => !(s.bc.lines[l].isOf i))
          fills := s.bc.fills.filter (fun e => decide (e.img ≠ i)) } } ∧
      ((∀ f, s.reader = .fill f → f.img ≠ i) → u.reader = s.reader ∧
        ∀ l : LineId, u.bc.lines[l] = if s.bc.lines[l].isOf i then .empty else s.bc.lines[l]) ∧
      (∀ f, s.reader = .fill f → f.img = i → u.reader = .fill { f with reqs := [], pin := false, pre := false } ∧
        u.bc.lines[f.line] = .filling i f.blk true ∧
        ∀ l : LineId, l ≠ f.line → u.bc.lines[l] = if s.bc.lines[l].isOf i then .empty else s.bc.lines[l]) ∧
      (pinImage s ≠ some i → v = u) ∧
      (∀ p w, s.ma.long = some ⟨p, .pin i w⟩ → ∃ r, v = finalReply p .imageBad [] false { u with
          reader := r
          ma := { s.ma with long := none }
          bc := { u.bc with reservation := 0, fills := u.bc.fills.map (fun e => { e with pin := false }) } } ∧
        (∀ f, u.reader = .fill f → r = .fill { f with pin := false }) ∧ ((∀ f, u.reader ≠ .fill f) → r = u.reader)) ∧
      ((∀ e ∈ s.bc.fills, e.img ≠ i) → t = v) ∧ ((∃ e ∈ s.bc.fills, e.img = i) → t = requestAll (placeWaiting v)) ∧
      ((∀ (k : SlotId) (x : Session), s.slots[k].session = some x → x.img ≠ i) → (∀ e ∈ t.bc.fills, e.img ≠ i) ∧
        ∀ l : LineId, t.bc.lines[l].isOf i = false))

/-- ERASE-SECTOR and WRITE-RECORD: BAD_VALUE beyond the image area, IN_USE where an enabled window of a valid entry covers a record of the
sector, else accepted to wait for the flash reader (R67, R68, R69). -/
def Obligations.FlashRequested : Prop :=
  ∀ (s : State) (o : Origin) (a : List Byte) (used : Nat → Prop),
    (∀ k, used k ↔ ∃ (i : ImageId) (w : Fin 4), s.tables.cat[i].valid = true ∧ (s.tables.cat[i].windows[w]).enable = true ∧
      ∃ r, r / 31 = k ∧ (s.tables.cat[i].windows[w]).base ≤ r ∧
        r ≤ (s.tables.cat[i].windows[w]).base + ((s.tables.cat[i].windows[w]).last - (s.tables.cat[i].windows[w]).first)) →
    (Asked .eraseSector o a s →
      (3839 < rd16 a 0 → exec .eraseSector s = .next (finish (answered o .badValue [] s))) ∧
      (rd16 a 0 ≤ 3839 → used (rd16 a 0) → exec .eraseSector s = .next (finish (answered o .inUse [] s))) ∧
      (rd16 a 0 ≤ 3839 → ¬ used (rd16 a 0) →
        exec .eraseSector s = .next (finish (taken o (.erase (rd16 a 0) false false) s)))) ∧
    (Asked .writeRecord o a s →
      (119039 < (rd32 a 0).toNat → exec .writeRecord s = .next (finish (answered o .badValue [] s))) ∧
      ((rd32 a 0).toNat ≤ 119039 → used ((rd32 a 0).toNat / 31) →
        exec .writeRecord s = .next (finish (answered o .inUse [] s))) ∧
      ((rd32 a 0).toNat ≤ 119039 → ¬ used ((rd32 a 0).toNat / 31) →
        exec .writeRecord s = .next (finish (taken o (.program (rd32 a 0).toNat (a.drop 4) false false) s))))

/-- A report taken by the attention unit: coalesced in place with the count one higher (at most 255) and the detail replaced; else a new
entry at the tail while there are fewer than 32; else dropped with the overflow flag set (R184). -/
def Obligations.ReportTaken : Prop :=
  ∀ (c : AttnCause) (j : Subject) (d : Option Cause) (u : Attention),
    (∀ before after e, u.list = before ++ e :: after → e.cause = c → e.subject = j →
      (∀ f ∈ before ++ after, ¬ (f.cause = c ∧ f.subject = j)) →
      u.report c j d = { u with
        list := before ++ { e with count := if e.count < 255 then e.count + 1 else e.count, detail := d } :: after }) ∧
    ((∀ e ∈ u.list, ¬ (e.cause = c ∧ e.subject = j)) → u.list.length < 32 →
      u.report c j d = { u with list := u.list ++ [⟨c, j, d, 1⟩] }) ∧
    ((∀ e ∈ u.list, ¬ (e.cause = c ∧ e.subject = j)) → 32 ≤ u.list.length → u.report c j d = { u with overflow := true })

/-- READ-ATTN removes and returns the head entry with the overflow flag, or answers EMPTY with the flag; it never changes the flag, and ATTN
stands afterwards exactly where the list is not empty or the flag is set (R186).
CLEAR-ATTN empties the list and clears the overflow flag, and ATTN is released in the same event (R187). -/
def Obligations.AttentionServed : Prop :=
  (∀ (s : State) (o : Origin), Asked .readAttn o [] s →
    (s.au.list = [] → ∃ t, exec .readAttn s = .next t ∧
      t = finish (answered o .empty [if s.au.overflow then 1 else 0] s) ∧ t.au = ⟨[], s.au.overflow, s.au.overflow⟩) ∧
    (∀ e es, s.au.list = e :: es → ∃ t, exec .readAttn s = .next t ∧
      t = finish (answered o .ok
        [e.cause.code, e.subject.code, (e.detail.map Cause.code).getD 0, BitVec.ofNat 8 e.count, if s.au.overflow then 1 else 0]
        { s with au := { s.au with list := es } }) ∧
      t.au = ⟨es, s.au.overflow, decide (es ≠ []) || s.au.overflow⟩)) ∧
  (∀ (s : State) (o : Origin), Asked .clearAttn o [] s → ∃ t, exec .clearAttn s = .next t ∧
    t = finish (answered o .ok [] { s with au := { s.au with list := [], overflow := false } }) ∧ t.au = ⟨[], false, false⟩)

/-- ENGINE-RESET, not during COMMIT: the reply OK follows the reset of every block. Configuration, records, BAD flags, cache lines,
counters, flash and line state are kept; enabled slots are ABSENT with their class and nothing else, the others VACANT; users counts are
0; the fill queue and the hold queues are empty and a fill in flight has no requester; requests are clear; cursors, debt and links are as
after a reset; a TURN or frame under way runs on with its turn closed, a window closes, a FREE port stays FREE and chooses anew, a SILENT
one SILENT; the trunk queue keeps its head, which is under transmission, and its MGMT-REPLY entries, the service queue all of its own; a
long operation ends with ABORTED, one the flash reader has started keeps the slot and will; the buffers of the entries kept, MGMT-REPLY
or under transmission, keep their frames, and every other buffer is free (R28, R54, R70, R88, R93, R113, R133, R164, R180). "The alternation pointer is kept" (R180, R182) is said here of `t`, the state that the reset leaves; the service of ENGINE-RESET,
as every service, then names the other origin (R167), within `answered`: that both sentences are met so is the model's reading, log entry
18. That a restart mark stands where a READ-RANGE ended is the model's choice, log entry 35. -/
def Obligations.EngineResetDone : Prop :=
  ∀ (s : State) (o : Origin), Asked .engineReset o [] s →
    (commitRuns s = true → exec .engineReset s = .next (finish (answered o .busy [] s))) ∧
    (commitRuns s = false → ∃ t u l, exec .engineReset s = .next (finish (answered o .ok [] t)) ∧
      t.tables = s.tables ∧ t.ctx = s.ctx ∧ t.bc.lines = s.bc.lines ∧ t.bc.recency = s.bc.recency ∧ t.flash = s.flash ∧
      t.ports = s.ports ∧ t.au = s.au ∧ t.lm = { s.lm with requests := Vector.replicate 4 false } ∧ t.bc.fills = [] ∧
      (∀ k : SlotId, t.slots[k] = { SlotStatus.vacant with
        state := if s.tables.slots[k].enabled then .absent else .vacant, cls := s.slots[k].cls } ∧ t.queues.hold[k] = []) ∧
      (∀ i : ImageId, t.catSt[i] = ⟨s.catSt[i].bad, 0⟩) ∧
      t.queues.out = (if s.seg.port = .sending .outbound then s.queues.out.take 1 else []) ∧
      t.seg.debt = 0 ∧ t.seg.ringCursor = 0 ∧ t.seg.urgentCursor = 0 ∧ t.seg.lastTurn = .urgent ∧
      t.seg.silent = s.seg.silent ∧ t.ma.trunk.link = none ∧ t.ma.service.link = none ∧ t.ma.pointer = s.ma.pointer ∧
      (∀ x, s.seg.port = .sending x → t.seg.port = .sending x ∧ t.seg.turn = s.seg.turn.map (fun v => { v with closed := true })) ∧
      (∀ x, s.seg.port = .receiving x →
        t.seg.port = .receiving x ∧ t.seg.turn = s.seg.turn.map (fun v => { v with closed := true })) ∧
      (s.seg.port = .window ∨ s.seg.port = .free →
        t.seg.port = (if s.seg.silent then .silent else .free) ∧ t.seg.turn = none ∧ t.seg.answerTimer = none) ∧
      (s.seg.port = .silent → t.seg.port = .silent ∧ t.seg.turn = s.seg.turn) ∧
      (∀ f, s.reader = .fill f → t.reader = .fill { f with reqs := [], pin := false, pre := false, orphan := true }) ∧
      (∀ b, s.reader = .scan b → t.reader = .scan false) ∧
      ((∀ f, s.reader ≠ .fill f) → (∀ b, s.reader ≠ .scan b) → t.reader = s.reader) ∧
      t.bc.reservation = (if pinImage s ≠ none then 0 else s.bc.reservation) ∧
      u.queues.service = s.queues.service ∧
      (s.queues.trunk = [] → u.queues.trunk = []) ∧
      (∀ e es, s.queues.trunk = e :: es → ∃ kept, u.queues.trunk = e :: kept ∧ kept.Sublist es ∧ ∀ x ∈ es,
        (x ∈ kept ↔ ∃ f, s.pool[x.buf].frame = some f ∧ f.kind = .mgmtReply)) ∧
      u.queues = { t.queues with trunk := u.queues.trunk, service := u.queues.service } ∧
      (PoolLaw s → PoolLaw u ∧ ∀ b : BufId,
        (b ∈ u.queues.out ++ (u.queues.trunk ++ u.queues.service).map TxEntry.buf → u.pool[b].frame = s.pool[b].frame) ∧
        (b ∉ u.queues.out ++ (u.queues.trunk ++ u.queues.service).map TxEntry.buf → u.pool[b] = ⟨none, 0⟩)) ∧
      u.ma = { s.ma with trunk := { s.ma.trunk with link := none }, service := { s.ma.service with link := none }, long := l } ∧
      (s.ma.long = none → l = none ∧ t = u) ∧
      (∀ p k x, s.ma.long = some ⟨p, .erase k true x⟩ → l = some ⟨p, .erase k true true⟩ ∧ t = u) ∧
      (∀ p r d x, s.ma.long = some ⟨p, .program r d true x⟩ → l = some ⟨p, .program r d true true⟩ ∧ t = u) ∧
      (∀ p j, s.ma.long = some ⟨p, j⟩ → (∀ k x, j ≠ .erase k true x) → (∀ r d x, j ≠ .program r d true x) →
        l = none ∧ t = finalReply p .aborted [] false u))

/-- FULL-RESET: BUSY while COMMIT runs; else the reply OK is built that brings the full reset at the end of its transmission, and from then
on no request is served (R181). -/
def Obligations.FullResetServed : Prop :=
  (∀ (s : State) (o : Origin), Asked .fullReset o [] s →
    (commitRuns s = true → exec .fullReset s = .next (finish (answered o .busy [] s))) ∧
    (commitRuns s = false → exec .fullReset s = .next (finish (turnPointer o (finalReply o .ok [] true
      { s with ma := { s.ma with stopped := true } }))))) ∧
  ∀ s : State, s.ma.stopped = true → nextRequest s = none

/-- The codes of the requests and the number of argument bytes of each: one number, for SET-CONTEXT 3 to 10, and for WRITE-ENTRY and
WRITE-COND 2 and the entry size of the table named, 8 to 13 among them, at least 2 where the number names no table (R169, R196). A request
whose code names no request is answered BAD_REQUEST with its code, an empty request with code 0x00; and a request of any code that does
not match its layout is answered BAD_REQUEST by its own row, before the slot test of a long request and every other check; a long request
in form finds the slot held and is answered BUSY, whichever origin holds it (R168, R169, R196, R197). Only a WAITING origin is served;
where both wait, the one the pointer names; and after every service, whatever its answer, the pointer names the other origin (R167). The
row of a code that is not the next request's takes nothing (the rows' form is the model's, log entry 7). -/
def Obligations.BadRequestAnswered : Prop :=
  (∀ (b : Byte) (c : ReqCode), ReqCode.ofByte b = some c ↔ (b.toNat, c) ∈ [(0x01, ReqCode.readEntry), (0x02, .readLink),
    (0x03, .writeEntry), (0x04, .writeCond), (0x05, .readRange), (0x10, .setContext), (0x11, .clearContext), (0x20, .permit),
    (0x21, .reload), (0x22, .clear), (0x23, .clearRetries), (0x30, .pin), (0x31, .unpin), (0x32, .prefetch), (0x33, .invalidate),
    (0x40, .eraseSector), (0x41, .writeRecord), (0x50, .readAttn), (0x51, .clearAttn), (0x60, .commit), (0x61, .selfCheck),
    (0x70, .engineReset), (0x71, .fullReset)]) ∧
  (∀ (c : ReqCode) (a : List Byte) (n : Nat),
    ((c, n) ∈ [(ReqCode.readEntry, 2), (.readLink, 2), (.readRange, 3), (.clearContext, 1), (.permit, 2), (.reload, 1), (.clear, 1),
      (.clearRetries, 1), (.pin, 5), (.unpin, 5), (.prefetch, 5), (.invalidate, 1), (.eraseSector, 2), (.writeRecord, 132),
      (.readAttn, 0), (.clearAttn, 0), (.commit, 0), (.selfCheck, 0), (.engineReset, 0), (.fullReset, 0)] →
      (formOk c a = true ↔ a.length = n)) ∧
    (formOk .setContext a = true ↔ 3 ≤ a.length ∧ a.length ≤ 10) ∧
    (c = .writeEntry ∨ c = .writeCond → (formOk c a = true ↔ 2 ≤ a.length ∧ ∀ size,
      ((a.getD 0 0).toNat, size) ∈ [(0, 13), (1, 24), (2, 8), (3, 54), (4, 11), (5, 8), (8, 20), (9, 66), (10, 7), (11, 10), (12, 4),
        (13, 3)] → a.length = 2 + size))) ∧
  (∀ c : ReqCode, c.isLong = true ↔ c ∈ [ReqCode.readRange, .commit, .pin, .eraseSector, .writeRecord, .selfCheck]) ∧
  (∀ (s : State) (o : Origin) (q : Request), nextRequest s = some (o, q) →
    (q.payload = [] ∨ ∃ b a, q.payload = b :: a ∧ ReqCode.ofByte b = none) →
    exec .badRequest s = .next (finish (answered o .badRequest [] s))) ∧
  (∀ (s : State) (o : Origin) (q : Request) (b : Byte) (a : List Byte) (c : ReqCode), nextRequest s = some (o, q) →
    q.payload = b :: a → ReqCode.ofByte b = some c →
    (formOk c a = false → exec (rowOf c) s = .next (finish (answered o .badRequest [] s))) ∧
    (formOk c a = true → c.isLong = true → s.ma.long ≠ none → exec (rowOf c) s = .next (finish (answered o .busy [] s)))) ∧
  (∀ (s : State) (o : Origin) (q : Request) (b : Byte), nextRequest s = some (o, q) → q.payload = 0x20 :: b :: [] →
    exec .permit s = .next (finish (answered o .badRequest [] s))) ∧
  (∀ s : State, s.ma.stopped = false →
    (s.ma.trunk.state = .waiting → s.ma.service.state ≠ .waiting ∨ s.ma.pointer = .trunk →
      nextRequest s = s.ma.trunk.req.map (fun q => (.trunk, q))) ∧
    (s.ma.service.state = .waiting → s.ma.trunk.state ≠ .waiting ∨ s.ma.pointer = .service →
      nextRequest s = s.ma.service.req.map (fun q => (.service, q))) ∧
    (s.ma.trunk.state ≠ .waiting → s.ma.service.state ≠ .waiting → nextRequest s = none)) ∧
  ∀ (s : State) (c : ReqCode),
    (∀ (o : Origin) (q : Request) (t : State), nextRequest s = some (o, q) →
      ((∃ b a, q.payload = b :: a ∧ ReqCode.ofByte b = some c) → exec (rowOf c) s = .next t →
        t.ma.pointer = (if o = .trunk then .service else .trunk)) ∧
      (q.payload = [] ∨ (∃ b a, q.payload = b :: a ∧ ReqCode.ofByte b = none) → exec .badRequest s = .next t →
        t.ma.pointer = (if o = .trunk then .service else .trunk)) ∧
      ((∀ b a, q.payload = b :: a → ReqCode.ofByte b ≠ some c) → exec (rowOf c) s = .next (finish s)) ∧
      ((∃ b a, q.payload = b :: a ∧ ReqCode.ofByte b = some c) → exec .badRequest s = .next (finish s))) ∧
    (nextRequest s = none → exec (rowOf c) s = .next (finish s) ∧ exec .badRequest s = .next (finish s))
end

