-- ==== Sys2Proof/Laws/State.lean ====
section
/-! SUPPORT. What each named update of the state sets, and that it leaves every other field: field by field, so that no proof
unfolds a record update. -/

namespace Sys2Proof.Machine

set_option Elab.async false

/-! ## Tables by index -/

/-- The entry that was set. -/
theorem set_same {α : Type} {n : Nat} (v : Vector α n) (i : Fin n) (x : α) : (v.set i x)[i] = x := by simp

/-- Another entry than the one that was set. -/
theorem set_other {α : Type} {n : Nat} (v : Vector α n) {i j : Fin n} (h : j ≠ i) (x : α) : (v.set i x)[j] = v[j] := by
  have : i.val ≠ j.val := fun e => h (Fin.ext e.symm)
  simp [Vector.getElem_set_ne, this]

/-- The entry that was changed. -/
theorem vmod_same {α : Type} {n : Nat} (v : Vector α n) (i : Fin n) (f : α → α) : (vmod v i f)[i] = f v[i] := by simp [vmod]

/-- Another entry than the one that was changed. -/
theorem vmod_other {α : Type} {n : Nat} (v : Vector α n) {i j : Fin n} (h : j ≠ i) (f : α → α) : (vmod v i f)[j] = v[j] :=
  set_other v h _

/-- Every entry through `f`. -/
theorem vmap_get {α β : Type} {n : Nat} (f : α → β) (v : Vector α n) (i : Fin n) : (vmap f v)[i] = f v[i] := by simp [vmap]

/-! ## The named updates -/

@[simp] theorem updSlot_slots (k : SlotId) (g : SlotStatus → SlotStatus) (s : State) : (updSlot k g s).slots = vmod s.slots k g := rfl

/-- `updSlot` leaves every other field. -/
@[simp] theorem updSlot_frame (k : SlotId) (g : SlotStatus → SlotStatus) (s : State) :
    (updSlot k g s).phase = s.phase ∧ (updSlot k g s).lineHigh = s.lineHigh ∧ (updSlot k g s).tables = s.tables
     ∧ (updSlot k g s).ctx = s.ctx ∧ (updSlot k g s).catSt = s.catSt ∧ (updSlot k g s).lm = s.lm
     ∧ (updSlot k g s).bc = s.bc ∧ (updSlot k g s).reader = s.reader ∧ (updSlot k g s).flash = s.flash
     ∧ (updSlot k g s).cut = s.cut ∧ (updSlot k g s).seg = s.seg ∧ (updSlot k g s).queues = s.queues
     ∧ (updSlot k g s).pool = s.pool ∧ (updSlot k g s).ports = s.ports ∧ (updSlot k g s).ma = s.ma
     ∧ (updSlot k g s).au = s.au ∧ (updSlot k g s).freeTick = s.freeTick ∧ (updSlot k g s).pending = s.pending :=
    ⟨rfl, rfl, rfl, rfl, rfl, rfl, rfl, rfl, rfl, rfl, rfl, rfl, rfl, rfl, rfl, rfl, rfl, rfl⟩

@[simp] theorem setCtx_ctx (k : SlotId) (r : CtxRecord) (s : State) : (setCtx k r s).ctx = s.ctx.set k r := rfl

/-- `setCtx` leaves every other field. -/
@[simp] theorem setCtx_frame (k : SlotId) (r : CtxRecord) (s : State) :
    (setCtx k r s).phase = s.phase ∧ (setCtx k r s).lineHigh = s.lineHigh ∧ (setCtx k r s).tables = s.tables
     ∧ (setCtx k r s).slots = s.slots ∧ (setCtx k r s).catSt = s.catSt ∧ (setCtx k r s).lm = s.lm
     ∧ (setCtx k r s).bc = s.bc ∧ (setCtx k r s).reader = s.reader ∧ (setCtx k r s).flash = s.flash
     ∧ (setCtx k r s).cut = s.cut ∧ (setCtx k r s).seg = s.seg ∧ (setCtx k r s).queues = s.queues
     ∧ (setCtx k r s).pool = s.pool ∧ (setCtx k r s).ports = s.ports ∧ (setCtx k r s).ma = s.ma
     ∧ (setCtx k r s).au = s.au ∧ (setCtx k r s).freeTick = s.freeTick ∧ (setCtx k r s).pending = s.pending :=
    ⟨rfl, rfl, rfl, rfl, rfl, rfl, rfl, rfl, rfl, rfl, rfl, rfl, rfl, rfl, rfl, rfl, rfl, rfl⟩

@[simp] theorem updCat_catSt (i : ImageId) (g : CatStatus → CatStatus) (s : State) : (updCat i g s).catSt = vmod s.catSt i g := rfl

/-- `updCat` leaves every other field. -/
@[simp] theorem updCat_frame (i : ImageId) (g : CatStatus → CatStatus) (s : State) :
    (updCat i g s).phase = s.phase ∧ (updCat i g s).lineHigh = s.lineHigh ∧ (updCat i g s).tables = s.tables
     ∧ (updCat i g s).slots = s.slots ∧ (updCat i g s).ctx = s.ctx ∧ (updCat i g s).lm = s.lm
     ∧ (updCat i g s).bc = s.bc ∧ (updCat i g s).reader = s.reader ∧ (updCat i g s).flash = s.flash
     ∧ (updCat i g s).cut = s.cut ∧ (updCat i g s).seg = s.seg ∧ (updCat i g s).queues = s.queues
     ∧ (updCat i g s).pool = s.pool ∧ (updCat i g s).ports = s.ports ∧ (updCat i g s).ma = s.ma
     ∧ (updCat i g s).au = s.au ∧ (updCat i g s).freeTick = s.freeTick ∧ (updCat i g s).pending = s.pending :=
    ⟨rfl, rfl, rfl, rfl, rfl, rfl, rfl, rfl, rfl, rfl, rfl, rfl, rfl, rfl, rfl, rfl, rfl, rfl⟩

@[simp] theorem updBc_bc (g : Cache → Cache) (s : State) : (updBc g s).bc = g s.bc := rfl

/-- `updBc` leaves every other field. -/
@[simp] theorem updBc_frame (g : Cache → Cache) (s : State) :
    (updBc g s).phase = s.phase ∧ (updBc g s).lineHigh = s.lineHigh ∧ (updBc g s).tables = s.tables
     ∧ (updBc g s).slots = s.slots ∧ (updBc g s).ctx = s.ctx ∧ (updBc g s).catSt = s.catSt ∧ (updBc g s).lm = s.lm
     ∧ (updBc g s).reader = s.reader ∧ (updBc g s).flash = s.flash ∧ (updBc g s).cut = s.cut ∧ (updBc g s).seg = s.seg
     ∧ (updBc g s).queues = s.queues ∧ (updBc g s).pool = s.pool ∧ (updBc g s).ports = s.ports ∧ (updBc g s).ma = s.ma
     ∧ (updBc g s).au = s.au ∧ (updBc g s).freeTick = s.freeTick ∧ (updBc g s).pending = s.pending :=
    ⟨rfl, rfl, rfl, rfl, rfl, rfl, rfl, rfl, rfl, rfl, rfl, rfl, rfl, rfl, rfl, rfl, rfl, rfl⟩

@[simp] theorem updSeg_seg (g : Segment → Segment) (s : State) : (updSeg g s).seg = g s.seg := rfl

/-- `updSeg` leaves every other field. -/
@[simp] theorem updSeg_frame (g : Segment → Segment) (s : State) :
    (updSeg g s).phase = s.phase ∧ (updSeg g s).lineHigh = s.lineHigh ∧ (updSeg g s).tables = s.tables
     ∧ (updSeg g s).slots = s.slots ∧ (updSeg g s).ctx = s.ctx ∧ (updSeg g s).catSt = s.catSt ∧ (updSeg g s).lm = s.lm
     ∧ (updSeg g s).bc = s.bc ∧ (updSeg g s).reader = s.reader ∧ (updSeg g s).flash = s.flash
     ∧ (updSeg g s).cut = s.cut ∧ (updSeg g s).queues = s.queues ∧ (updSeg g s).pool = s.pool
     ∧ (updSeg g s).ports = s.ports ∧ (updSeg g s).ma = s.ma ∧ (updSeg g s).au = s.au
     ∧ (updSeg g s).freeTick = s.freeTick ∧ (updSeg g s).pending = s.pending :=
    ⟨rfl, rfl, rfl, rfl, rfl, rfl, rfl, rfl, rfl, rfl, rfl, rfl, rfl, rfl, rfl, rfl, rfl, rfl⟩

@[simp] theorem updQueues_queues (g : Queues → Queues) (s : State) : (updQueues g s).queues = g s.queues := rfl

/-- `updQueues` leaves every other field. -/
@[simp] theorem updQueues_frame (g : Queues → Queues) (s : State) :
    (updQueues g s).phase = s.phase ∧ (updQueues g s).lineHigh = s.lineHigh ∧ (updQueues g s).tables = s.tables
     ∧ (updQueues g s).slots = s.slots ∧ (updQueues g s).ctx = s.ctx ∧ (updQueues g s).catSt = s.catSt
     ∧ (updQueues g s).lm = s.lm ∧ (updQueues g s).bc = s.bc ∧ (updQueues g s).reader = s.reader
     ∧ (updQueues g s).flash = s.flash ∧ (updQueues g s).cut = s.cut ∧ (updQueues g s).seg = s.seg
     ∧ (updQueues g s).pool = s.pool ∧ (updQueues g s).ports = s.ports ∧ (updQueues g s).ma = s.ma
     ∧ (updQueues g s).au = s.au ∧ (updQueues g s).freeTick = s.freeTick ∧ (updQueues g s).pending = s.pending :=
    ⟨rfl, rfl, rfl, rfl, rfl, rfl, rfl, rfl, rfl, rfl, rfl, rfl, rfl, rfl, rfl, rfl, rfl, rfl⟩

@[simp] theorem updLm_lm (g : LineMon → LineMon) (s : State) : (updLm g s).lm = g s.lm := rfl

/-- `updLm` leaves every other field. -/
@[simp] theorem updLm_frame (g : LineMon → LineMon) (s : State) :
    (updLm g s).phase = s.phase ∧ (updLm g s).lineHigh = s.lineHigh ∧ (updLm g s).tables = s.tables
     ∧ (updLm g s).slots = s.slots ∧ (updLm g s).ctx = s.ctx ∧ (updLm g s).catSt = s.catSt ∧ (updLm g s).bc = s.bc
     ∧ (updLm g s).reader = s.reader ∧ (updLm g s).flash = s.flash ∧ (updLm g s).cut = s.cut ∧ (updLm g s).seg = s.seg
     ∧ (updLm g s).queues = s.queues ∧ (updLm g s).pool = s.pool ∧ (updLm g s).ports = s.ports ∧ (updLm g s).ma = s.ma
     ∧ (updLm g s).au = s.au ∧ (updLm g s).freeTick = s.freeTick ∧ (updLm g s).pending = s.pending :=
    ⟨rfl, rfl, rfl, rfl, rfl, rfl, rfl, rfl, rfl, rfl, rfl, rfl, rfl, rfl, rfl, rfl, rfl, rfl⟩

@[simp] theorem updMa_ma (g : Agent → Agent) (s : State) : (updMa g s).ma = g s.ma := rfl

/-- `updMa` leaves every other field. -/
@[simp] theorem updMa_frame (g : Agent → Agent) (s : State) :
    (updMa g s).phase = s.phase ∧ (updMa g s).lineHigh = s.lineHigh ∧ (updMa g s).tables = s.tables
     ∧ (updMa g s).slots = s.slots ∧ (updMa g s).ctx = s.ctx ∧ (updMa g s).catSt = s.catSt ∧ (updMa g s).lm = s.lm
     ∧ (updMa g s).bc = s.bc ∧ (updMa g s).reader = s.reader ∧ (updMa g s).flash = s.flash ∧ (updMa g s).cut = s.cut
     ∧ (updMa g s).seg = s.seg ∧ (updMa g s).queues = s.queues ∧ (updMa g s).pool = s.pool
     ∧ (updMa g s).ports = s.ports ∧ (updMa g s).au = s.au ∧ (updMa g s).freeTick = s.freeTick
     ∧ (updMa g s).pending = s.pending :=
    ⟨rfl, rfl, rfl, rfl, rfl, rfl, rfl, rfl, rfl, rfl, rfl, rfl, rfl, rfl, rfl, rfl, rfl, rfl⟩

/-- `setLong` leaves every other field. -/
@[simp] theorem setLong_frame (l : Option LongOp) (s : State) :
    (setLong l s).phase = s.phase ∧ (setLong l s).lineHigh = s.lineHigh ∧ (setLong l s).tables = s.tables
     ∧ (setLong l s).slots = s.slots ∧ (setLong l s).ctx = s.ctx ∧ (setLong l s).catSt = s.catSt
     ∧ (setLong l s).lm = s.lm ∧ (setLong l s).bc = s.bc ∧ (setLong l s).reader = s.reader
     ∧ (setLong l s).flash = s.flash ∧ (setLong l s).cut = s.cut ∧ (setLong l s).seg = s.seg
     ∧ (setLong l s).queues = s.queues ∧ (setLong l s).pool = s.pool ∧ (setLong l s).ports = s.ports
     ∧ (setLong l s).au = s.au ∧ (setLong l s).freeTick = s.freeTick ∧ (setLong l s).pending = s.pending :=
    ⟨rfl, rfl, rfl, rfl, rfl, rfl, rfl, rfl, rfl, rfl, rfl, rfl, rfl, rfl, rfl, rfl, rfl, rfl⟩

/-- `setJob` leaves every other field. -/
@[simp] theorem setJob_frame (j : LongJob) (s : State) :
    (setJob j s).phase = s.phase ∧ (setJob j s).lineHigh = s.lineHigh ∧ (setJob j s).tables = s.tables
     ∧ (setJob j s).slots = s.slots ∧ (setJob j s).ctx = s.ctx ∧ (setJob j s).catSt = s.catSt ∧ (setJob j s).lm = s.lm
     ∧ (setJob j s).bc = s.bc ∧ (setJob j s).reader = s.reader ∧ (setJob j s).flash = s.flash
     ∧ (setJob j s).cut = s.cut ∧ (setJob j s).seg = s.seg ∧ (setJob j s).queues = s.queues
     ∧ (setJob j s).pool = s.pool ∧ (setJob j s).ports = s.ports ∧ (setJob j s).au = s.au
     ∧ (setJob j s).freeTick = s.freeTick ∧ (setJob j s).pending = s.pending :=
    ⟨rfl, rfl, rfl, rfl, rfl, rfl, rfl, rfl, rfl, rfl, rfl, rfl, rfl, rfl, rfl, rfl, rfl, rfl⟩

/-- `updOrigin` leaves every other field. -/
@[simp] theorem updOrigin_frame (o : Origin) (g : OriginRec → OriginRec) (s : State) :
    (updOrigin o g s).phase = s.phase ∧ (updOrigin o g s).lineHigh = s.lineHigh ∧ (updOrigin o g s).tables = s.tables
     ∧ (updOrigin o g s).slots = s.slots ∧ (updOrigin o g s).ctx = s.ctx ∧ (updOrigin o g s).catSt = s.catSt
     ∧ (updOrigin o g s).lm = s.lm ∧ (updOrigin o g s).bc = s.bc ∧ (updOrigin o g s).reader = s.reader
     ∧ (updOrigin o g s).flash = s.flash ∧ (updOrigin o g s).cut = s.cut ∧ (updOrigin o g s).seg = s.seg
     ∧ (updOrigin o g s).queues = s.queues ∧ (updOrigin o g s).pool = s.pool ∧ (updOrigin o g s).ports = s.ports
     ∧ (updOrigin o g s).au = s.au ∧ (updOrigin o g s).freeTick = s.freeTick ∧ (updOrigin o g s).pending = s.pending :=
    ⟨rfl, rfl, rfl, rfl, rfl, rfl, rfl, rfl, rfl, rfl, rfl, rfl, rfl, rfl, rfl, rfl, rfl, rfl⟩

/-- `updPort` leaves every other field. -/
@[simp] theorem updPort_frame (p : Port) (g : PortState → PortState) (s : State) :
    (updPort p g s).phase = s.phase ∧ (updPort p g s).lineHigh = s.lineHigh ∧ (updPort p g s).tables = s.tables
     ∧ (updPort p g s).slots = s.slots ∧ (updPort p g s).ctx = s.ctx ∧ (updPort p g s).catSt = s.catSt
     ∧ (updPort p g s).lm = s.lm ∧ (updPort p g s).bc = s.bc ∧ (updPort p g s).reader = s.reader
     ∧ (updPort p g s).flash = s.flash ∧ (updPort p g s).cut = s.cut ∧ (updPort p g s).seg = s.seg
     ∧ (updPort p g s).queues = s.queues ∧ (updPort p g s).pool = s.pool ∧ (updPort p g s).ma = s.ma
     ∧ (updPort p g s).au = s.au ∧ (updPort p g s).freeTick = s.freeTick ∧ (updPort p g s).pending = s.pending := by
  cases p <;> exact ⟨rfl, rfl, rfl, rfl, rfl, rfl, rfl, rfl, rfl, rfl, rfl, rfl, rfl, rfl, rfl, rfl, rfl, rfl⟩

@[simp] theorem setLong_long (l : Option LongOp) (s : State) : (setLong l s).ma.long = l := rfl

@[simp] theorem setJob_long (j : LongJob) (s : State) :
    (setJob j s).ma.long = s.ma.long.map (fun l => { l with job := j }) := rfl

/-- One port's counters after `updPort` on it. -/
@[simp] theorem updPort_get (p : Port) (g : PortState → PortState) (s : State) :
    (updPort p g s).ports.get p = g (s.ports.get p) := by cases p <;> rfl

/-- What the agent holds for an origin after `updOrigin` on it. -/
@[simp] theorem updOrigin_origin (o : Origin) (g : OriginRec → OriginRec) (s : State) :
    (updOrigin o g s).ma.origin o = g (s.ma.origin o) := by cases o <;> rfl

/-- Slot `k` after `updSlot` on it. -/
@[simp] theorem updSlot_same (k : SlotId) (g : SlotStatus → SlotStatus) (s : State) :
    (updSlot k g s).slots[k] = g s.slots[k] := by simp [updSlot, vmod]

/-- Another slot after `updSlot`. -/
theorem updSlot_other {j k : SlotId} (h : j ≠ k) (g : SlotStatus → SlotStatus) (s : State) :
    (updSlot k g s).slots[j] = s.slots[j] := by
  have : k.val ≠ j.val := fun e => h (Fin.ext e.symm)
  simp [updSlot, vmod, Vector.getElem_set_ne, this]

end Sys2Proof.Machine
end

