-- ==== Sys2Proof/Laws/Frames.lean ====
section
/-! SUPPORT. What the shared operations leave alone. A mask blanks the parts of a state that a group of operations may change; the frame
of an operation is one equation between masks, and `of_…` reads the fields off it. -/

namespace Sys2Proof.Machine

set_option Elab.async false

/-! ## Masks -/

/-- Blanks what pool operations may change: pool, queues, counters, attention. -/
def State.noLinks (s : State) : State := { s with pool := State.reset.pool, queues := State.reset.queues, ports := State.reset.ports, au := State.reset.au }

/-- Blanks what cache operations may change: cache and reader. -/
def State.noCache (s : State) : State := { s with bc := State.reset.bc, reader := .idle }

/-- Blanks what replies may change: pool, queues, agent. -/
def State.noReply (s : State) : State := { s with pool := State.reset.pool, queues := State.reset.queues, ma := State.reset.ma }

/-- Blanks what an event on slots may change: slots, records, catalogue status, cache, reader, queues, pool, counters, agent,
attention and the free order. Tables, line, segment, flash, phase, pin, cut and the waiting commands stand. -/
def State.noEvent (s : State) : State :=
  { s with slots := State.reset.slots, ctx := State.reset.ctx, catSt := State.reset.catSt, bc := State.reset.bc, reader := .idle, pool := State.reset.pool, queues := State.reset.queues, ports := State.reset.ports, ma := State.reset.ma, au := State.reset.au, freeTick := 0 }

/-! ## Reading fields off a mask -/

theorem of_noLinks {s t : State} (h : t.noLinks = s.noLinks) :
    t.phase = s.phase ∧ t.lineHigh = s.lineHigh ∧ t.tables = s.tables ∧ t.slots = s.slots ∧ t.ctx = s.ctx ∧ t.catSt = s.catSt ∧
      t.lm = s.lm ∧ t.bc = s.bc ∧ t.reader = s.reader ∧ t.flash = s.flash ∧ t.cut = s.cut ∧ t.seg = s.seg ∧ t.ma = s.ma ∧
      t.freeTick = s.freeTick ∧ t.pending = s.pending := by
  simpa [State.noLinks, State.mk.injEq] using h

theorem of_noCache {s t : State} (h : t.noCache = s.noCache) :
    t.phase = s.phase ∧ t.lineHigh = s.lineHigh ∧ t.tables = s.tables ∧ t.slots = s.slots ∧ t.ctx = s.ctx ∧ t.catSt = s.catSt ∧
      t.lm = s.lm ∧ t.flash = s.flash ∧ t.cut = s.cut ∧ t.seg = s.seg ∧ t.queues = s.queues ∧ t.pool = s.pool ∧
      t.ports = s.ports ∧ t.ma = s.ma ∧ t.au = s.au ∧ t.freeTick = s.freeTick ∧ t.pending = s.pending := by
  simpa [State.noCache, State.mk.injEq] using h

theorem of_noReply {s t : State} (h : t.noReply = s.noReply) :
    t.phase = s.phase ∧ t.lineHigh = s.lineHigh ∧ t.tables = s.tables ∧ t.slots = s.slots ∧ t.ctx = s.ctx ∧ t.catSt = s.catSt ∧
      t.lm = s.lm ∧ t.bc = s.bc ∧ t.reader = s.reader ∧ t.flash = s.flash ∧ t.cut = s.cut ∧ t.seg = s.seg ∧
      t.ports = s.ports ∧ t.au = s.au ∧ t.freeTick = s.freeTick ∧ t.pending = s.pending := by
  simpa [State.noReply, State.mk.injEq] using h

theorem of_noEvent {s t : State} (h : t.noEvent = s.noEvent) :
    t.phase = s.phase ∧ t.lineHigh = s.lineHigh ∧ t.tables = s.tables ∧ t.lm = s.lm ∧ t.flash = s.flash ∧ t.cut = s.cut ∧
      t.seg = s.seg ∧ t.pending = s.pending := by
  simpa [State.noEvent, State.mk.injEq] using h

/-- The event mask blanks all that the links mask blanks. -/
theorem event_of_links {s t : State} (h : t.noLinks = s.noLinks) : t.noEvent = s.noEvent := by
  have := of_noLinks h; simp [State.noEvent, this]

/-- The event mask blanks all that the cache mask blanks. -/
theorem event_of_cache {s t : State} (h : t.noCache = s.noCache) : t.noEvent = s.noEvent := by
  have := of_noCache h; simp [State.noEvent, this]

/-- The event mask blanks all that the reply mask blanks. -/
theorem event_of_reply {s t : State} (h : t.noReply = s.noReply) : t.noEvent = s.noEvent := by
  have := of_noReply h; simp [State.noEvent, this]

/-- A reading that every round of a fold keeps, the fold keeps. -/
theorem foldl_keeps {α β : Type} (m : State → β) (f : State → α → State) (h : ∀ s a, m (f s a) = m s) (l : List α) (s : State) :
    m (l.foldl f s) = m s := by
  induction l generalizing s with
  | nil => rfl
  | cons a l ih => rw [List.foldl_cons, ih, h]

/-- A reading that every round keeps and the free order does not move, `forFree` keeps. -/
theorem forFree_keeps {α β : Type} (m : State → β) (f : α → State → State) (h : ∀ s a, m (f a s) = m s)
    (ht : ∀ s n, m { s with freeTick := n } = m s) (l : List α) (s : State) : m (forFree l f s) = m s := by
  unfold forFree
  rw [foldl_keeps m _ (fun s a => h s a), ht]

end Sys2Proof.Machine
end

