-- ==== Sys2Proof/Laws/Pool.lean ====
section
/-! SUPPORT. What the pool and reply operations of Machine/Pool.lean leave alone, and what `alloc` gives. -/

namespace Sys2Proof.Machine

set_option Elab.async false

/-! ## Counters and attention -/

@[simp] theorem updPort_noLinks (p : Port) (g : PortState → PortState) (s : State) : (updPort p g s).noLinks = s.noLinks := by
  cases p <;> rfl

@[simp] theorem updQueues_noLinks (g : Queues → Queues) (s : State) : (updQueues g s).noLinks = s.noLinks := rfl

@[simp] theorem raise_noLinks (c : AttnCause) (j : Subject) (d : Option Cause) (s : State) : (raise c j d s).noLinks = s.noLinks := rfl

@[simp] theorem countOverrun_noLinks (p : Port) (s : State) : (countOverrun p s).noLinks = s.noLinks := by simp [countOverrun]

@[simp] theorem countGood_noLinks (p : Port) (s : State) : (countGood p s).noLinks = s.noLinks := by simp [countGood]

@[simp] theorem countBad_noLinks (p : Port) (s : State) : (countBad p s).noLinks = s.noLinks := by simp [countBad]

@[simp] theorem countSent_noLinks (p : Port) (s : State) : (countSent p s).noLinks = s.noLinks := by simp [countSent]

@[simp] theorem countOrphan_noLinks (s : State) : (countOrphan s).noLinks = s.noLinks := by simp [countOrphan]

/-! ## The pool -/

/-- What `alloc` gives: a free buffer that now holds the frame, everything else as it stood (R116). -/
theorem alloc_spec {f : Frame} {s t : State} {b : BufId} (h : alloc f s = some (b, t)) :
    s.pool[b].frame = none ∧ t = { s with pool := s.pool.set b ⟨some f, 0⟩ } := by
  unfold alloc at h
  split at h
  · simp at h
  · next x xs hx =>
    have hm : x ∈ freeBufs s := by rw [hx]; simp
    simp only [Option.some.injEq, Prod.mk.injEq] at h
    obtain ⟨rfl, rfl⟩ := h
    exact ⟨by simpa [freeBufs] using hm, rfl⟩

theorem alloc_noLinks {f : Frame} {s t : State} {b : BufId} (h : alloc f s = some (b, t)) : t.noLinks = s.noLinks := by
  rw [(alloc_spec h).2]; rfl

theorem alloc_noReply {f : Frame} {s t : State} {b : BufId} (h : alloc f s = some (b, t)) : t.noReply = s.noReply := by
  rw [(alloc_spec h).2]; rfl

@[simp] theorem addRef_noLinks (b : BufId) (s : State) : (addRef b s).noLinks = s.noLinks := rfl

@[simp] theorem reclaim_noLinks (b : BufId) (s : State) : (reclaim b s).noLinks = s.noLinks := rfl

@[simp] theorem dropRef_noLinks (b : BufId) (s : State) : (dropRef b s).noLinks = s.noLinks := rfl

@[simp] theorem pushTrunk_noLinks (e : TxEntry) (s : State) : (pushTrunk e s).noLinks = s.noLinks := rfl

@[simp] theorem pushService_noLinks (e : TxEntry) (s : State) : (pushService e s).noLinks = s.noLinks := rfl

@[simp] theorem pushOut_noLinks (b : BufId) (s : State) : (pushOut b s).noLinks = s.noLinks := rfl

@[simp] theorem pushHold_noLinks (k : SlotId) (b : BufId) (s : State) : (pushHold k b s).noLinks = s.noLinks := rfl

@[simp] theorem pushTx_noReply (o : Origin) (e : TxEntry) (s : State) : (pushTx o e s).noReply = s.noReply := by cases o <;> rfl

/-- A received frame's taking in touches pool, counters and attention alone (R117). -/
@[simp] theorem takeIn_noLinks (p : Port) (f : Frame) (s : State) : (takeIn p f s).2.noLinks = s.noLinks := by
  unfold takeIn
  split
  · split
    · next h => simp [alloc_noLinks h]
    · simp
  · simp

/-! ## REFUSE and flushes -/

@[simp] theorem refuse_noLinks (r : RefuseReason) (f : Frame) (s : State) : (refuse r f s).noLinks = s.noLinks := by
  unfold refuse
  split
  · rfl
  · next h => split <;> simp [alloc_noLinks h]

@[simp] theorem refuseEntry_noLinks (r : RefuseReason) (b : BufId) (s : State) : (refuseEntry r b s).noLinks = s.noLinks := by
  unfold refuseEntry; split
  · split <;> simp
  · simp

@[simp] theorem refuseAll_noLinks (r : RefuseReason) (bs : List BufId) (s : State) : (refuseAll r bs s).noLinks = s.noLinks :=
  foldl_keeps State.noLinks _ (fun s b => refuseEntry_noLinks r b s) bs s

@[simp] theorem releaseAll_noLinks (bs : List BufId) (s : State) : (releaseAll bs s).noLinks = s.noLinks :=
  foldl_keeps State.noLinks _ (fun s b => dropRef_noLinks b s) bs s

@[simp] theorem clearHold_noLinks (k : SlotId) (s : State) : (clearHold k s).noLinks = s.noLinks := rfl

@[simp] theorem flushHold_noLinks (k : SlotId) (s : State) : (flushHold k s).noLinks = s.noLinks := by simp [flushHold]

@[simp] theorem releaseHold_noLinks (k : SlotId) (s : State) : (releaseHold k s).noLinks = s.noLinks := by
  unfold releaseHold
  rw [foldl_keeps State.noLinks, clearHold_noLinks]
  intro s b; split <;> simp

/-! ## Replies -/

@[simp] theorem updMa_noReply (g : Agent → Agent) (s : State) : (updMa g s).noReply = s.noReply := rfl

@[simp] theorem updOrigin_noReply (o : Origin) (g : OriginRec → OriginRec) (s : State) : (updOrigin o g s).noReply = s.noReply := rfl

@[simp] theorem setLong_noReply (l : Option LongOp) (s : State) : (setLong l s).noReply = s.noReply := rfl

@[simp] theorem setJob_noReply (j : LongJob) (s : State) : (setJob j s).noReply = s.noReply := rfl

@[simp] theorem placed_noReply (r : BuiltReply) (b : BufId) (s : State) : (placed r b s).noReply = s.noReply := by
  unfold placed; split <;> simp

@[simp] theorem placeOne_noReply (s : State) : (placeOne s).noReply = s.noReply := by
  unfold placeOne
  split
  · rfl
  · split
    · rfl
    · next h => simp [alloc_noReply h]

@[simp] theorem placeReplies_noReply (n : Nat) (s : State) : (placeReplies n s).noReply = s.noReply := by
  induction n generalizing s with
  | zero => rfl
  | succ n ih => rw [placeReplies, ih, placeOne_noReply]

@[simp] theorem queueReply_noReply (r : BuiltReply) (s : State) : (queueReply r s).noReply = s.noReply := by simp [queueReply]

/-- A final reply touches pool, queues and agent alone (R166). -/
@[simp] theorem finalReply_noReply (o : Origin) (st : Status) (d : List Byte) (x : Bool) (s : State) :
    (finalReply o st d x s).noReply = s.noReply := by
  unfold finalReply; split <;> simp

@[simp] theorem endLong_noReply (st : Status) (d : List Byte) (s : State) : (endLong st d s).noReply = s.noReply := by
  unfold endLong; split <;> simp

@[simp] theorem reply_noReply (o : Origin) (st : Status) (s : State) : (reply o st s).noReply = s.noReply := by simp [reply]

@[simp] theorem replyOk_noReply (o : Origin) (d : List Byte) (s : State) : (replyOk o d s).noReply = s.noReply := by simp [replyOk]

@[simp] theorem accept_noReply (o : Origin) (j : LongJob) (s : State) : (accept o j s).noReply = s.noReply := rfl

@[simp] theorem turnPointer_noReply (o : Origin) (s : State) : (turnPointer o s).noReply = s.noReply := rfl

end Sys2Proof.Machine
end

