-- ==== Sys2Proof/Laws/Cache.lean ====
section
/-! SUPPORT. What the cache operations of Machine/Cache.lean and the block requests of Machine/Session.lean leave alone. -/

namespace Sys2Proof.Machine

set_option Elab.async false

@[simp] theorem updBc_noCache (g : Cache → Cache) (s : State) : (updBc g s).noCache = s.noCache := rfl

@[simp] theorem updFill_noCache (g : Fill → Fill) (s : State) : (updFill g s).noCache = s.noCache := by
  unfold updFill; split <;> rfl

@[simp] theorem setLine_noCache (l : LineId) (x : Line) (s : State) : (setLine l x s).noCache = s.noCache := rfl

@[simp] theorem hit_noCache (l : LineId) (s : State) : (hit l s).noCache = s.noCache := rfl

@[simp] theorem emptyLine_noCache (l : LineId) (s : State) : (emptyLine l s).noCache = s.noCache := rfl

@[simp] theorem dropLines_noCache (i : ImageId) (s : State) : (dropLines i s).noCache = s.noCache := rfl

@[simp] theorem spendPin_noCache (s : State) : (spendPin s).noCache = s.noCache := rfl

@[simp] theorem pinLine_noCache (l : LineId) (s : State) : (pinLine l s).noCache = s.noCache := by
  unfold pinLine; split <;> simp

@[simp] theorem request_noCache (r : Source) (i : ImageId) (b : Nat) (s : State) : (request r i b s).noCache = s.noCache := by
  unfold request; split
  · split <;> simp
  · split
    · simp
    · split
      · simp
      · split <;> simp

@[simp] theorem withdrawSlot_noCache (k : SlotId) (s : State) : (withdrawSlot k s).noCache = s.noCache := by simp [withdrawSlot]

@[simp] theorem dropFills_noCache (i : ImageId) (s : State) : (dropFills i s).noCache = s.noCache := rfl

@[simp] theorem discardFill_noCache (i : ImageId) (s : State) : (discardFill i s).noCache = s.noCache := by
  unfold discardFill; split
  · split <;> simp
  all_goals rfl

@[simp] theorem clearPinMarks_noCache (s : State) : (clearPinMarks s).noCache = s.noCache := by simp [clearPinMarks]

@[simp] theorem disownFill_noCache (i : ImageId) (s : State) : (disownFill i s).noCache = s.noCache := by simp [disownFill]

@[simp] theorem requestBlock_noCache (k : SlotId) (i : ImageId) (b : Nat) (s : State) :
    (requestBlock k i b s).noCache = s.noCache := by unfold requestBlock; split <;> simp

/-- A session's block requests touch the cache alone (R32). -/
@[simp] theorem requestBlocks_noCache (k : SlotId) (s : State) : (requestBlocks k s).noCache = s.noCache := by
  unfold requestBlocks; split
  · split
    · exact foldl_keeps State.noCache _ (fun s b => requestBlock_noCache k _ b s) _ s
    · rfl
  · rfl

@[simp] theorem requestAll_noCache (s : State) : (requestAll s).noCache = s.noCache :=
  foldl_keeps State.noCache _ (fun s k => requestBlocks_noCache k s) _ s

end Sys2Proof.Machine
end

