-- ==== Sys2Proof/Laws/Events.lean ====
section
/-! SUPPORT. What an event on slots, cache, links and agent leaves alone: the tables, the line, the segment scheduler, the flash, the
phase and the waiting commands (the mask `State.noEvent`). One lemma per shared operation. -/

namespace Sys2Proof.Machine

set_option Elab.async false

/-! ## Pool and replies -/

@[simp] theorem updPort_noEvent (p : Port) (g : PortState → PortState) (s : State) : (updPort p g s).noEvent = s.noEvent :=
  event_of_links (updPort_noLinks p g s)

@[simp] theorem updQueues_noEvent (g : Queues → Queues) (s : State) : (updQueues g s).noEvent = s.noEvent :=
  event_of_links (updQueues_noLinks g s)

@[simp] theorem raise_noEvent (c : AttnCause) (j : Subject) (d : Option Cause) (s : State) : (raise c j d s).noEvent = s.noEvent :=
  event_of_links (raise_noLinks c j d s)

@[simp] theorem countOverrun_noEvent (p : Port) (s : State) : (countOverrun p s).noEvent = s.noEvent :=
  event_of_links (countOverrun_noLinks p s)

@[simp] theorem countGood_noEvent (p : Port) (s : State) : (countGood p s).noEvent = s.noEvent :=
  event_of_links (countGood_noLinks p s)

@[simp] theorem countBad_noEvent (p : Port) (s : State) : (countBad p s).noEvent = s.noEvent :=
  event_of_links (countBad_noLinks p s)

@[simp] theorem countSent_noEvent (p : Port) (s : State) : (countSent p s).noEvent = s.noEvent :=
  event_of_links (countSent_noLinks p s)

@[simp] theorem countOrphan_noEvent (s : State) : (countOrphan s).noEvent = s.noEvent :=
  event_of_links (countOrphan_noLinks s)

@[simp] theorem addRef_noEvent (b : BufId) (s : State) : (addRef b s).noEvent = s.noEvent :=
  event_of_links (addRef_noLinks b s)

@[simp] theorem reclaim_noEvent (b : BufId) (s : State) : (reclaim b s).noEvent = s.noEvent :=
  event_of_links (reclaim_noLinks b s)

@[simp] theorem dropRef_noEvent (b : BufId) (s : State) : (dropRef b s).noEvent = s.noEvent :=
  event_of_links (dropRef_noLinks b s)

@[simp] theorem pushTrunk_noEvent (e : TxEntry) (s : State) : (pushTrunk e s).noEvent = s.noEvent :=
  event_of_links (pushTrunk_noLinks e s)

@[simp] theorem pushService_noEvent (e : TxEntry) (s : State) : (pushService e s).noEvent = s.noEvent :=
  event_of_links (pushService_noLinks e s)

@[simp] theorem pushOut_noEvent (b : BufId) (s : State) : (pushOut b s).noEvent = s.noEvent :=
  event_of_links (pushOut_noLinks b s)

@[simp] theorem pushHold_noEvent (k : SlotId) (b : BufId) (s : State) : (pushHold k b s).noEvent = s.noEvent :=
  event_of_links (pushHold_noLinks k b s)

@[simp] theorem pushTx_noEvent (o : Origin) (e : TxEntry) (s : State) : (pushTx o e s).noEvent = s.noEvent :=
  event_of_reply (pushTx_noReply o e s)

@[simp] theorem takeIn_noEvent (p : Port) (f : Frame) (s : State) : (takeIn p f s).2.noEvent = s.noEvent :=
  event_of_links (takeIn_noLinks p f s)

@[simp] theorem refuse_noEvent (r : RefuseReason) (f : Frame) (s : State) : (refuse r f s).noEvent = s.noEvent :=
  event_of_links (refuse_noLinks r f s)

@[simp] theorem refuseEntry_noEvent (r : RefuseReason) (b : BufId) (s : State) : (refuseEntry r b s).noEvent = s.noEvent :=
  event_of_links (refuseEntry_noLinks r b s)

@[simp] theorem refuseAll_noEvent (r : RefuseReason) (bs : List BufId) (s : State) : (refuseAll r bs s).noEvent = s.noEvent :=
  event_of_links (refuseAll_noLinks r bs s)

@[simp] theorem releaseAll_noEvent (bs : List BufId) (s : State) : (releaseAll bs s).noEvent = s.noEvent :=
  event_of_links (releaseAll_noLinks bs s)

@[simp] theorem clearHold_noEvent (k : SlotId) (s : State) : (clearHold k s).noEvent = s.noEvent :=
  event_of_links (clearHold_noLinks k s)

@[simp] theorem flushHold_noEvent (k : SlotId) (s : State) : (flushHold k s).noEvent = s.noEvent :=
  event_of_links (flushHold_noLinks k s)

@[simp] theorem releaseHold_noEvent (k : SlotId) (s : State) : (releaseHold k s).noEvent = s.noEvent :=
  event_of_links (releaseHold_noLinks k s)

@[simp] theorem updMa_noEvent (g : Agent → Agent) (s : State) : (updMa g s).noEvent = s.noEvent :=
  event_of_reply (updMa_noReply g s)

@[simp] theorem updOrigin_noEvent (o : Origin) (g : OriginRec → OriginRec) (s : State) : (updOrigin o g s).noEvent = s.noEvent :=
  event_of_reply (updOrigin_noReply o g s)

@[simp] theorem setLong_noEvent (l : Option LongOp) (s : State) : (setLong l s).noEvent = s.noEvent :=
  event_of_reply (setLong_noReply l s)

@[simp] theorem setJob_noEvent (j : LongJob) (s : State) : (setJob j s).noEvent = s.noEvent :=
  event_of_reply (setJob_noReply j s)

@[simp] theorem placed_noEvent (r : BuiltReply) (b : BufId) (s : State) : (placed r b s).noEvent = s.noEvent :=
  event_of_reply (placed_noReply r b s)

@[simp] theorem placeOne_noEvent (s : State) : (placeOne s).noEvent = s.noEvent :=
  event_of_reply (placeOne_noReply s)

@[simp] theorem placeReplies_noEvent (n : Nat) (s : State) : (placeReplies n s).noEvent = s.noEvent :=
  event_of_reply (placeReplies_noReply n s)

@[simp] theorem queueReply_noEvent (r : BuiltReply) (s : State) : (queueReply r s).noEvent = s.noEvent :=
  event_of_reply (queueReply_noReply r s)

@[simp] theorem finalReply_noEvent (o : Origin) (st : Status) (d : List Byte) (x : Bool) (s : State) : (finalReply o st d x s).noEvent = s.noEvent :=
  event_of_reply (finalReply_noReply o st d x s)

@[simp] theorem endLong_noEvent (st : Status) (d : List Byte) (s : State) : (endLong st d s).noEvent = s.noEvent :=
  event_of_reply (endLong_noReply st d s)

@[simp] theorem reply_noEvent (o : Origin) (st : Status) (s : State) : (reply o st s).noEvent = s.noEvent :=
  event_of_reply (reply_noReply o st s)

@[simp] theorem replyOk_noEvent (o : Origin) (d : List Byte) (s : State) : (replyOk o d s).noEvent = s.noEvent :=
  event_of_reply (replyOk_noReply o d s)

@[simp] theorem accept_noEvent (o : Origin) (j : LongJob) (s : State) : (accept o j s).noEvent = s.noEvent :=
  event_of_reply (accept_noReply o j s)

@[simp] theorem turnPointer_noEvent (o : Origin) (s : State) : (turnPointer o s).noEvent = s.noEvent :=
  event_of_reply (turnPointer_noReply o s)


/-! ## Cache -/

@[simp] theorem updBc_noEvent (g : Cache → Cache) (s : State) : (updBc g s).noEvent = s.noEvent :=
  event_of_cache (updBc_noCache g s)

@[simp] theorem updFill_noEvent (g : Fill → Fill) (s : State) : (updFill g s).noEvent = s.noEvent :=
  event_of_cache (updFill_noCache g s)

@[simp] theorem setLine_noEvent (l : LineId) (x : Line) (s : State) : (setLine l x s).noEvent = s.noEvent :=
  event_of_cache (setLine_noCache l x s)

@[simp] theorem hit_noEvent (l : LineId) (s : State) : (hit l s).noEvent = s.noEvent :=
  event_of_cache (hit_noCache l s)

@[simp] theorem emptyLine_noEvent (l : LineId) (s : State) : (emptyLine l s).noEvent = s.noEvent :=
  event_of_cache (emptyLine_noCache l s)

@[simp] theorem dropLines_noEvent (i : ImageId) (s : State) : (dropLines i s).noEvent = s.noEvent :=
  event_of_cache (dropLines_noCache i s)

@[simp] theorem spendPin_noEvent (s : State) : (spendPin s).noEvent = s.noEvent :=
  event_of_cache (spendPin_noCache s)

@[simp] theorem pinLine_noEvent (l : LineId) (s : State) : (pinLine l s).noEvent = s.noEvent :=
  event_of_cache (pinLine_noCache l s)

@[simp] theorem request_noEvent (r : Source) (i : ImageId) (b : Nat) (s : State) : (request r i b s).noEvent = s.noEvent :=
  event_of_cache (request_noCache r i b s)

@[simp] theorem withdrawSlot_noEvent (k : SlotId) (s : State) : (withdrawSlot k s).noEvent = s.noEvent :=
  event_of_cache (withdrawSlot_noCache k s)

@[simp] theorem dropFills_noEvent (i : ImageId) (s : State) : (dropFills i s).noEvent = s.noEvent :=
  event_of_cache (dropFills_noCache i s)

@[simp] theorem discardFill_noEvent (i : ImageId) (s : State) : (discardFill i s).noEvent = s.noEvent :=
  event_of_cache (discardFill_noCache i s)

@[simp] theorem clearPinMarks_noEvent (s : State) : (clearPinMarks s).noEvent = s.noEvent :=
  event_of_cache (clearPinMarks_noCache s)

@[simp] theorem disownFill_noEvent (i : ImageId) (s : State) : (disownFill i s).noEvent = s.noEvent :=
  event_of_cache (disownFill_noCache i s)

@[simp] theorem requestBlock_noEvent (k : SlotId) (i : ImageId) (b : Nat) (s : State) : (requestBlock k i b s).noEvent = s.noEvent :=
  event_of_cache (requestBlock_noCache k i b s)

@[simp] theorem requestBlocks_noEvent (k : SlotId) (s : State) : (requestBlocks k s).noEvent = s.noEvent :=
  event_of_cache (requestBlocks_noCache k s)

@[simp] theorem requestAll_noEvent (s : State) : (requestAll s).noEvent = s.noEvent :=
  event_of_cache (requestAll_noCache s)

/-! ## Updates -/

@[simp] theorem updSlot_noEvent (k : SlotId) (g : SlotStatus → SlotStatus) (s : State) : (updSlot k g s).noEvent = s.noEvent := rfl

@[simp] theorem setCtx_noEvent (k : SlotId) (r : CtxRecord) (s : State) : (setCtx k r s).noEvent = s.noEvent := rfl

@[simp] theorem updCat_noEvent (i : ImageId) (g : CatStatus → CatStatus) (s : State) : (updCat i g s).noEvent = s.noEvent := rfl

@[simp] theorem updSession_noEvent (k : SlotId) (g : Session → Session) (s : State) : (updSession k g s).noEvent = s.noEvent := rfl

@[simp] theorem stage_noEvent (p : Port) (bs : List Byte) (s : State) : (stage p bs s).noEvent = s.noEvent := by simp [stage]

@[simp] theorem idleReader_noEvent (s : State) : (idleReader s).noEvent = s.noEvent := rfl

/-! ## Pins -/

@[simp] theorem setWaiting_noEvent (w : List Nat) (s : State) : (setWaiting w s).noEvent = s.noEvent := by
  unfold setWaiting; split <;> simp

@[simp] theorem pinDone_noEvent (s : State) : (pinDone s).noEvent = s.noEvent := by unfold pinDone; split <;> simp

@[simp] theorem endPin_noEvent (st : Status) (s : State) : (endPin st s).noEvent = s.noEvent := by unfold endPin; split <;> simp

@[simp] theorem endPinOn_noEvent (i : ImageId) (s : State) : (endPinOn i s).noEvent = s.noEvent := by
  unfold endPinOn; split <;> simp

@[simp] theorem pinBlocks_noEvent (i : ImageId) (bs : List Nat) (s : State) : (pinBlocks i bs s).noEvent = s.noEvent := by
  induction bs generalizing s with
  | nil => simp [pinBlocks]
  | cons b bs ih => unfold pinBlocks; split <;> simp [ih]

@[simp] theorem takeWaiting_noEvent (i : ImageId) (bs : List Nat) (s : State) : (takeWaiting i bs s).noEvent = s.noEvent := by
  induction bs generalizing s with
  | nil => simp [takeWaiting]
  | cons b bs ih => unfold takeWaiting; split <;> simp [ih]

@[simp] theorem placeWaiting_noEvent (s : State) : (placeWaiting s).noEvent = s.noEvent := by
  unfold placeWaiting; split
  · split <;> simp
  · rfl

@[simp] theorem afterWithdraw_noEvent (b : Bool) (s : State) : (afterWithdraw b s).noEvent = s.noEvent := by
  unfold afterWithdraw; split <;> simp

/-! ## Sessions and the slot lifecycle -/

@[simp] theorem openSession_noEvent (k : SlotId) (i : ImageId) (w : Bool) (s : State) : (openSession k i w s).noEvent = s.noEvent := by
  simp [openSession]

@[simp] theorem endSession_noEvent (k : SlotId) (s : State) : (endSession k s).noEvent = s.noEvent := by
  unfold endSession; split <;> simp

@[simp] theorem setClass_noEvent (k : SlotId) (c : ClassId) (s : State) : (setClass k c s).noEvent = s.noEvent := by
  unfold setClass; split <;> simp

@[simp] theorem applyPolicy_noEvent (k : SlotId) (c : Cause) (e : ClassEntry) (s : State) :
    (applyPolicy k c e s).noEvent = s.noEvent := by
  unfold applyPolicy; split
  · split <;> simp
  all_goals simp

/-- A failure stays within the event (R20, R21). -/
@[simp] theorem failSlot_noEvent (k : SlotId) (c : Cause) (s : State) : (failSlot k c s).noEvent = s.noEvent := by
  unfold failSlot; simp only; split <;> simp

@[simp] theorem resolveImage_noEvent (k : SlotId) (b : BootCall) (s : State) : (resolveImage k b s).noEvent = s.noEvent := by
  unfold resolveImage; split
  · simp
  · simp only; repeat' split
    all_goals simp

@[simp] theorem resolve_noEvent (k : SlotId) (b : BootCall) (s : State) : (resolve k b s).noEvent = s.noEvent := by
  unfold resolve; split <;> simp

@[simp] theorem takeBootCall_noEvent (k : SlotId) (b : BootCall) (s : State) : (takeBootCall k b s).noEvent = s.noEvent := by
  unfold takeBootCall; repeat' split
  all_goals simp

@[simp] theorem bootCallAnswer_noEvent (k : SlotId) (p : List Byte) (s : State) : (bootCallAnswer k p s).noEvent = s.noEvent := by
  unfold bootCallAnswer; repeat' split
  all_goals simp

@[simp] theorem judgeStale_noEvent (k : SlotId) (t : Word32) (s : State) : (judgeStale k t s).noEvent = s.noEvent := by
  unfold judgeStale; repeat' split
  all_goals simp

@[simp] theorem survive_noEvent (k : SlotId) (t : Word32) (s : State) : (survive k t s).noEvent = s.noEvent := by
  unfold survive; repeat' split
  all_goals simp

@[simp] theorem survivorReturn_noEvent (k : SlotId) (c : Byte) (t : Word32) (s : State) :
    (survivorReturn k c t s).noEvent = s.noEvent := by
  unfold survivorReturn; dsimp only; split
  all_goals simp

@[simp] theorem takeStatus_noEvent (k : SlotId) (c : Byte) (t : Word32) (s : State) : (takeStatus k c t s).noEvent = s.noEvent := by
  unfold takeStatus; repeat' split
  all_goals simp

@[simp] theorem statusAnswer_noEvent (k : SlotId) (p : List Byte) (s : State) : (statusAnswer k p s).noEvent = s.noEvent := by
  unfold statusAnswer; split <;> simp

@[simp] theorem presenceLost_noEvent (k : SlotId) (s : State) : (presenceLost k s).noEvent = s.noEvent := by
  unfold presenceLost; split
  · simp only; split <;> simp
  all_goals simp

@[simp] theorem succeed_noEvent (k : SlotId) (s : State) : (succeed k s).noEvent = s.noEvent := by simp [succeed]

@[simp] theorem darken_noEvent (k : SlotId) (s : State) : (darken k s).noEvent = s.noEvent := by unfold darken; split <;> simp

@[simp] theorem darkenAll_noEvent (s : State) : (darkenAll s).noEvent = s.noEvent :=
  foldl_keeps State.noEvent _ (fun s k => darken_noEvent k s) _ s

@[simp] theorem flushGap_noEvent (s : State) : (flushGap s).noEvent = s.noEvent := by
  unfold flushGap; simp only [refuseAll_noEvent]; rfl

@[simp] theorem failUsers_noEvent (i : ImageId) (s : State) : (failUsers i s).noEvent = s.noEvent :=
  forFree_keeps State.noEvent _ (fun s k => failSlot_noEvent k _ s) (fun _ _ => rfl) _ s

@[simp] theorem withdrawImage_noEvent (i : ImageId) (s : State) : (withdrawImage i s).noEvent = s.noEvent := by
  unfold withdrawImage; split <;> simp

/-- BAD marking stays within the event (R84). -/
@[simp] theorem markBad_noEvent (i : ImageId) (s : State) : (markBad i s).noEvent = s.noEvent := by simp [markBad]

@[simp] theorem dropImage_noEvent (i : ImageId) (s : State) : (dropImage i s).noEvent = s.noEvent := by simp [dropImage]

/-! ## Restore answers -/

@[simp] theorem enterStage_noEvent (k : SlotId) (st : SlotState) (s : State) : (enterStage k st s).noEvent = s.noEvent := rfl

@[simp] theorem checkLoaded_noEvent (k : SlotId) (s : State) : (checkLoaded k s).noEvent = s.noEvent := by
  unfold checkLoaded; repeat' split
  all_goals simp

@[simp] theorem applyResend_noEvent (k : SlotId) (x : Session) (m : Option Nat) (s : State) :
    (applyResend k x m s).noEvent = s.noEvent := by
  unfold applyResend; repeat' split
  all_goals simp

@[simp] theorem takeLoadAck_noEvent (k : SlotId) (x : Session) (p : List Byte) (s : State) :
    (takeLoadAck k x p s).noEvent = s.noEvent := by
  unfold takeLoadAck; simp only; split <;> simp

@[simp] theorem takeStarted_noEvent (k : SlotId) (x : Session) (p : List Byte) (s : State) :
    (takeStarted k x p s).noEvent = s.noEvent := by
  unfold takeStarted; repeat' split
  all_goals simp

@[simp] theorem takeReady_noEvent (k : SlotId) (x : Session) (p : List Byte) (s : State) :
    (takeReady k x p s).noEvent = s.noEvent := by
  unfold takeReady; repeat' split
  all_goals simp

@[simp] theorem restoreAnswer_noEvent (k : SlotId) (d : Kind) (p : List Byte) (s : State) :
    (restoreAnswer k d p s).noEvent = s.noEvent := by
  unfold restoreAnswer; repeat' split
  all_goals simp

/-! ## Context -/

@[simp] theorem storeField_noEvent (k : SlotId) (f : FieldId) (v : List Byte) (s : State) :
    (storeField k f v s).noEvent = s.noEvent := rfl

@[simp] theorem captureInto_noEvent (r : CapRule) (f : Frame) (k : SlotId) (s : State) :
    (captureInto r f k s).noEvent = s.noEvent := by unfold captureInto; simp only; split <;> simp

@[simp] theorem captureRule_noEvent (c : CapSource) (f : Frame) (n : Option SlotId) (s : State) (r : CapRule) :
    (captureRule c f n s r).noEvent = s.noEvent := by
  unfold captureRule; split
  · exact foldl_keeps State.noEvent _ (fun s k => captureInto_noEvent r f k s) _ s
  · rfl

@[simp] theorem capture_noEvent (c : CapSource) (f : Frame) (n : Option SlotId) (s : State) :
    (capture c f n s).noEvent = s.noEvent :=
  foldl_keeps State.noEvent _ (fun s r => captureRule_noEvent c f n s r) _ s

/-! ## Links -/

@[simp] theorem toOutbound_noEvent (b : BufId) (f : Frame) (s : State) : (toOutbound b f s).noEvent = s.noEvent := by
  unfold toOutbound; split <;> simp

@[simp] theorem gateStation_noEvent (a : FwdAction) (b : BufId) (f : Frame) (s : State) :
    (gateStation a b f s).noEvent = s.noEvent := by
  unfold gateStation; repeat' split
  all_goals simp

@[simp] theorem holdCopy_noEvent (b : BufId) (k : SlotId) (s : State) : (holdCopy b k s).noEvent = s.noEvent := by
  unfold holdCopy; split <;> simp

@[simp] theorem gateGroup_noEvent (a : FwdAction) (b : BufId) (f : Frame) (s : State) :
    (gateGroup a b f s).noEvent = s.noEvent := by
  unfold gateGroup; split
  · rfl
  · rw [foldl_keeps State.noEvent _ (fun s k => holdCopy_noEvent b k s)]
    split <;> simp

@[simp] theorem downstream_noEvent (b : BufId) (f : Frame) (s : State) : (downstream b f s).noEvent = s.noEvent := by
  unfold downstream; simp only; repeat' split
  all_goals simp

@[simp] theorem takeRequest_noEvent (o : Origin) (f : Frame) (s : State) : (takeRequest o f s).noEvent = s.noEvent := by
  unfold takeRequest; simp only; repeat' split
  all_goals simp

@[simp] theorem handOver_noEvent (l : Link) (b : BufId) (f : Frame) (s : State) : (handOver l b f s).noEvent = s.noEvent := by
  unfold handOver; split <;> simp

/-- A frame received on trunk or service link stays within the event (R114, R117). -/
@[simp] theorem receiveOn_noEvent (l : Link) (bs : List Byte) (s : State) : (receiveOn l bs s).noEvent = s.noEvent := by
  unfold receiveOn; split
  · simp
  · next f _ =>
    split
    · have h := takeIn_noEvent (Link.origin l).port f s
      split <;> simp_all
    · simp

@[simp] theorem toTrunk_noEvent (b : BufId) (s : State) : (toTrunk b s).noEvent = s.noEvent := by unfold toTrunk; split <;> simp

@[simp] theorem upstreamData_noEvent (k : SlotId) (b : BufId) (f : Frame) (s : State) :
    (upstreamData k b f s).noEvent = s.noEvent := by
  unfold upstreamData; simp only; repeat' split
  all_goals simp

@[simp] theorem upstreamStatus_noEvent (b : BufId) (f : Frame) (s : State) : (upstreamStatus b f s).noEvent = s.noEvent := by
  unfold upstreamStatus; repeat' split
  all_goals simp

@[simp] theorem dispatch_noEvent (k : SlotId) (b : BufId) (f : Frame) (s : State) : (dispatch k b f s).noEvent = s.noEvent := by
  unfold dispatch; split <;> simp

@[simp] theorem missTurn_noEvent (k : SlotId) (s : State) : (missTurn k s).noEvent = s.noEvent := by
  unfold missTurn; split <;> simp

@[simp] theorem takeAnswer_noEvent (t : Turn) (f : Frame) (s : State) : (takeAnswer t f s).noEvent = s.noEvent := by
  unfold takeAnswer; simp only
  split
  · next s' h => have := takeIn_noEvent .segment f (if t.void then s else updSlot t.slot (fun x => { x with miss := 0 }) s)
                 rw [h] at this; simp only at this; rw [this]; split <;> simp
  · next b s' h => have := takeIn_noEvent .segment f (if t.void then s else updSlot t.slot (fun x => { x with miss := 0 }) s)
                   rw [h] at this; simp only at this; rw [reclaim_noEvent]
                   split <;> simp_all

/-- An answer judged at its end stays within the event (R103, R107). -/
@[simp] theorem judgeAnswer_noEvent (t : Turn) (bs : List Byte) (s : State) : (judgeAnswer t bs s).noEvent = s.noEvent := by
  unfold judgeAnswer; simp only; repeat' split
  all_goals simp

@[simp] theorem popOut_noEvent (s : State) : (popOut s).noEvent = s.noEvent := by unfold popOut; split <;> simp

/-! ## Fills -/

@[simp] theorem fillEmpty_noEvent (f : Fill) (s : State) : (fillEmpty f s).noEvent = s.noEvent := by simp [fillEmpty]

@[simp] theorem fillValid_noEvent (f : Fill) (d : List Byte) (s : State) : (fillValid f d s).noEvent = s.noEvent := by
  unfold fillValid; simp only; rw [requestAll_noEvent]; split <;> simp

@[simp] theorem returnPin_noEvent (f : Fill) (s : State) : (returnPin f s).noEvent = s.noEvent := by
  unfold returnPin; split <;> simp

@[simp] theorem leftoverFailed_noEvent (f : Fill) (s : State) : (leftoverFailed f s).noEvent = s.noEvent := by simp [leftoverFailed]

@[simp] theorem fillBad_noEvent (f : Fill) (s : State) : (fillBad f s).noEvent = s.noEvent := by simp [fillBad]

/-- The end of a fill's read stays within the event (R82 to R85). -/
@[simp] theorem judgeFill_noEvent (f : Fill) (bs : List Byte) (s : State) : (judgeFill f bs s).noEvent = s.noEvent := by
  unfold judgeFill; repeat' split
  all_goals first | simp | rfl

@[simp] theorem startFill_noEvent (e : FillEntry) (l : LineId) (s : State) : (startFill e l s).noEvent = s.noEvent := by
  unfold startFill; rw [placeWaiting_noEvent]; rfl

@[simp] theorem startLong_noEvent (s : State) : (startLong s).noEvent = s.noEvent := by
  unfold startLong; repeat' split
  all_goals rfl

@[simp] theorem startWork_noEvent (s : State) : (startWork s).noEvent = s.noEvent := by
  unfold startWork; repeat' split
  all_goals simp

/-! ## Self-check -/

@[simp] theorem endSelfCheck_noEvent (c : SelfCheck) (s : State) : (endSelfCheck c s).noEvent = s.noEvent := by simp [endSelfCheck]

@[simp] theorem mismatch_noEvent (i : ImageId) (s : State) : (mismatch i s).noEvent = s.noEvent := by
  unfold mismatch; split <;> simp

@[simp] theorem runChecks_noEvent (n : Nat) (c : SelfCheck) (s : State) : (runChecks n c s).noEvent = s.noEvent := by
  induction n generalizing c s with
  | zero => simp [runChecks]
  | succ n ih => unfold runChecks; simp only; repeat' split
                 all_goals simp [ih]

@[simp] theorem scanned_noEvent (d : Disturb) (c : SelfCheck) (s : State) : (scanned d c s).noEvent = s.noEvent := by
  unfold scanned; split
  · unfold scanIdentity; split <;> simp
  · unfold scanStore; simp only; split <;> simp
  · simp [scanBlock]

@[simp] theorem restartCheck_noEvent (i : ImageId) (s : State) : (restartCheck i s).noEvent = s.noEvent := by
  unfold restartCheck; split
  · split
    · rw [runChecks_noEvent]; unfold dropScan; split <;> rfl
    · rfl
  · rfl

/-! ## The queues and slots at an engine reset -/

@[simp] theorem resetSlots_noEvent (s : State) : (resetSlots s).noEvent = s.noEvent := rfl

@[simp] theorem resetQueues_noEvent (s : State) : (resetQueues s).noEvent = s.noEvent := by simp [resetQueues]

@[simp] theorem resetCache_noEvent (s : State) : (resetCache s).noEvent = s.noEvent := by
  unfold resetCache; simp only; split <;> rfl

@[simp] theorem clearLinks_noEvent (s : State) : (clearLinks s).noEvent = s.noEvent := by simp [clearLinks]

@[simp] theorem abortLong_noEvent (s : State) : (abortLong s).noEvent = s.noEvent := by
  unfold abortLong; split
  · rfl
  · split
    all_goals (try split)
    all_goals simp

@[simp] theorem sendRange_noEvent (o : Origin) (t a b : Nat) (s : State) : (sendRange o t a b s).noEvent = s.noEvent := by
  unfold sendRange; split
  · split
    · rfl
    · simp only; split
      · rfl
      · next h =>
        have := event_of_links (alloc_noLinks h)
        unfold afterFrame; split <;> simp [this]
  · rfl

end Sys2Proof.Machine
end

