-- ==== Sys2Proof/Laws/Finish.lean ====
section
/-! SUPPORT. What `finish` may change: the segment scheduler, the session of a granted slot, the cache's recency and fill queue, the
PERMIT outputs and ATTN; and nothing else. -/

namespace Sys2Proof.Machine

set_option Elab.async false

/-- Blanks what a choice may change: slots, cache, segment scheduler. -/
def State.noChoice (s : State) : State := { s with slots := State.reset.slots, bc := State.reset.bc, seg := State.reset.seg }

theorem of_noChoice {s t : State} (h : t.noChoice = s.noChoice) :
    t.phase = s.phase ∧ t.lineHigh = s.lineHigh ∧ t.tables = s.tables ∧ t.ctx = s.ctx ∧ t.catSt = s.catSt ∧ t.lm = s.lm ∧
      t.reader = s.reader ∧ t.flash = s.flash ∧ t.cut = s.cut ∧ t.queues = s.queues ∧ t.pool = s.pool ∧ t.ports = s.ports ∧
      t.ma = s.ma ∧ t.au = s.au ∧ t.freeTick = s.freeTick ∧ t.pending = s.pending := by
  simpa [State.noChoice, State.mk.injEq] using h

@[simp] theorem updSlot_noChoice (k : SlotId) (g : SlotStatus → SlotStatus) (s : State) : (updSlot k g s).noChoice = s.noChoice := rfl

@[simp] theorem updSession_noChoice (k : SlotId) (g : Session → Session) (s : State) : (updSession k g s).noChoice = s.noChoice := rfl

@[simp] theorem updSeg_noChoice (g : Segment → Segment) (s : State) : (updSeg g s).noChoice = s.noChoice := rfl

@[simp] theorem updBc_noChoice (g : Cache → Cache) (s : State) : (updBc g s).noChoice = s.noChoice := rfl

@[simp] theorem startTx_noChoice (x : SegTx) (s : State) : (startTx x s).noChoice = s.noChoice := rfl

@[simp] theorem hitBlock_noChoice (i : ImageId) (b : Nat) (s : State) : (hitBlock i b s).noChoice = s.noChoice := by
  unfold hitBlock; repeat' split
  all_goals rfl

/-- A block request that R32 has made never touches the fill in flight. -/
@[simp] theorem requestBlock_noChoice (k : SlotId) (i : ImageId) (b : Nat) (s : State) :
    (requestBlock k i b s).noChoice = s.noChoice := by
  unfold requestBlock
  split
  · rfl
  · next h =>
    simp only [Bool.or_eq_true, not_or, Bool.not_eq_true] at h
    obtain ⟨⟨⟨_, hv⟩, hf⟩, _⟩ := h
    have hv' : validLine i b s = none := by simpa using hv
    unfold request
    rw [hv']
    simp only [hf]
    repeat' split
    all_goals simp_all

@[simp] theorem requestBlocks_noChoice (k : SlotId) (s : State) : (requestBlocks k s).noChoice = s.noChoice := by
  unfold requestBlocks; split
  · split
    · exact foldl_keeps State.noChoice _ (fun s b => requestBlock_noChoice k _ b s) _ s
    · rfl
  · rfl

@[simp] theorem grant_noChoice (k : SlotId) (s : State) : (grant k s).noChoice = s.noChoice := by
  unfold grant; split
  · split <;> simp [grantBlock, grantStart, grantContext]
  · unfold grantReboot; split <;> simp

@[simp] theorem chooseTurn_noChoice (s : State) : (chooseTurn s).noChoice = s.noChoice := by
  unfold chooseTurn giveTurn; repeat' split
  all_goals simp

/-- A choice changes slots, cache and segment scheduler alone (R96). -/
@[simp] theorem choose_noChoice (s : State) : (choose s).noChoice = s.noChoice := by
  unfold choose addDebt; repeat' split
  all_goals simp

/-! ## The slots and the lines under a choice -/

/-- A reading of a slot that its session does not enter into. -/
def SlotStatus.rest (x : SlotStatus) : SlotStatus := { x with session := none }

/-- The slots but for their sessions. -/
def State.slotRests (s : State) : Vector SlotStatus 32 := vmap SlotStatus.rest s.slots

theorem slotRests_get (s : State) (k : SlotId) : s.slotRests[k] = s.slots[k].rest := by
  simp [State.slotRests, vmap]

@[simp] theorem updSession_slotRests (k : SlotId) (g : Session → Session) (s : State) :
    (updSession k g s).slotRests = s.slotRests := by
  apply Vector.ext; intro j hj
  by_cases h : k.val = j <;>
    simp [State.slotRests, vmap, updSession, updSlot, vmod, SlotStatus.rest, h]

@[simp] theorem requestBlock_slots (k : SlotId) (i : ImageId) (b : Nat) (s : State) : (requestBlock k i b s).slots = s.slots :=
  (of_noCache (requestBlock_noCache k i b s)).2.2.2.1

@[simp] theorem requestBlocks_slots (k : SlotId) (s : State) : (requestBlocks k s).slots = s.slots :=
  (of_noCache (requestBlocks_noCache k s)).2.2.2.1

@[simp] theorem requestBlocks_slotRests (k : SlotId) (s : State) : (requestBlocks k s).slotRests = s.slotRests := by
  simp [State.slotRests]

@[simp] theorem hitBlock_slotRests (i : ImageId) (b : Nat) (s : State) : (hitBlock i b s).slotRests = s.slotRests := by
  unfold hitBlock; repeat' split
  all_goals rfl

@[simp] theorem startTx_slotRests (x : SegTx) (s : State) : (startTx x s).slotRests = s.slotRests := rfl

@[simp] theorem updSeg_slotRests (g : Segment → Segment) (s : State) : (updSeg g s).slotRests = s.slotRests := rfl

/-- A choice changes no slot but for its session (R34, R41, R43). -/
@[simp] theorem choose_slotRests (s : State) : (choose s).slotRests = s.slotRests := by
  unfold choose addDebt; split
  · unfold grant; split
    · split <;> simp [grantBlock, grantStart, grantContext]
    · unfold grantReboot; split <;> simp
  · split
    · simp
    · unfold chooseTurn giveTurn; repeat' split
      all_goals simp

/-! ## `finish` -/

/-- The outputs recomputed: nothing else changes (R162, R183). -/
@[simp] theorem settleOutputs_frame (s : State) :
    (settleOutputs s).phase = s.phase ∧ (settleOutputs s).lineHigh = s.lineHigh ∧ (settleOutputs s).tables = s.tables ∧
      (settleOutputs s).slots = s.slots ∧ (settleOutputs s).ctx = s.ctx ∧ (settleOutputs s).catSt = s.catSt ∧
      (settleOutputs s).bc = s.bc ∧ (settleOutputs s).reader = s.reader ∧ (settleOutputs s).flash = s.flash ∧
      (settleOutputs s).cut = s.cut ∧ (settleOutputs s).seg = s.seg ∧ (settleOutputs s).queues = s.queues ∧
      (settleOutputs s).pool = s.pool ∧ (settleOutputs s).ports = s.ports ∧ (settleOutputs s).ma = s.ma ∧
      (settleOutputs s).freeTick = s.freeTick ∧ (settleOutputs s).pending = s.pending ∧
      (settleOutputs s).lm.line = s.lm.line ∧ (settleOutputs s).lm.deglitch = s.lm.deglitch ∧
      (settleOutputs s).lm.settle = s.lm.settle ∧ (settleOutputs s).lm.dips = s.lm.dips ∧ (settleOutputs s).lm.gaps = s.lm.gaps ∧
      (settleOutputs s).lm.requests = s.lm.requests ∧ (settleOutputs s).au.list = s.au.list ∧
      (settleOutputs s).au.overflow = s.au.overflow := by
  simp [settleOutputs]

/-- Where the port does not stand FREE, `finish` recomputes the outputs alone. -/
theorem finish_busy {s : State} (h : s.seg.port ≠ .free) : finish s = settleOutputs s := by simp [finish, h]

/-- `finish` leaves all but the segment scheduler, the slots' sessions, the cache and the outputs (R96, R162, R183). -/
theorem finish_frame (s : State) :
    (finish s).phase = s.phase ∧ (finish s).lineHigh = s.lineHigh ∧ (finish s).tables = s.tables ∧ (finish s).ctx = s.ctx ∧
      (finish s).catSt = s.catSt ∧ (finish s).reader = s.reader ∧ (finish s).flash = s.flash ∧ (finish s).cut = s.cut ∧
      (finish s).queues = s.queues ∧ (finish s).pool = s.pool ∧ (finish s).ports = s.ports ∧ (finish s).ma = s.ma ∧
      (finish s).freeTick = s.freeTick ∧ (finish s).pending = s.pending ∧ (finish s).lm.line = s.lm.line ∧
      (finish s).lm.deglitch = s.lm.deglitch ∧ (finish s).lm.settle = s.lm.settle ∧ (finish s).lm.dips = s.lm.dips ∧
      (finish s).lm.gaps = s.lm.gaps ∧ (finish s).lm.requests = s.lm.requests ∧ (finish s).au.list = s.au.list ∧
      (finish s).au.overflow = s.au.overflow := by
  unfold finish
  split
  · have h := of_noChoice (choose_noChoice s)
    simp [h]
  · simp

/-- `finish` changes no slot but for its session. -/
theorem finish_slotRests (s : State) : (finish s).slotRests = s.slotRests := by
  unfold finish
  split
  · have h : (settleOutputs (choose s)).slotRests = (choose s).slotRests := rfl
    simp [h]
  · rfl

/-- `finish` changes slot `k` in its session alone. -/
theorem finish_slot (s : State) (k : SlotId) : (finish s).slots[k].rest = s.slots[k].rest := by
  rw [← slotRests_get, ← slotRests_get, finish_slotRests]

end Sys2Proof.Machine
end

