-- ==== Sys2Proof/Laws/Requests.lean ====
section
/-! SUPPORT. What the service of a request comes to, once the request is in form and finds its slot free (R168, R169), and what placing
a reply comes to (R165, R166). -/

namespace Sys2Proof.Machine

set_option Elab.async false

open Sys2Proof.Safety

/-- The row of a request that is asked does the request's own work and turns the pointer. -/
theorem serveRow_asked {c : ReqCode} {o : Origin} {a : List Byte} {s : State} (h : Asked c o a s)
    (work : Origin → List Byte → State → State) : serveRow c work s = turnPointer o (work o a s) := by
  obtain ⟨q, b, hn, hp, hc, hf, hl⟩ := h
  have hq : q.code = some c := by simp [Request.code, hp, hc]
  have ha : q.args = a := by simp [Request.args, hp]
  unfold serveRow
  rw [hn]
  simp only [hq, if_true, serve, ha, hf, Bool.not_true]
  have : (c.isLong && s.ma.long.isSome) = false := by
    cases hlong : c.isLong with
    | false => rfl
    | true => simp [hl hlong]
  simp [this]

/-- The row of a request out of its form (R169, R196). -/
theorem serveRow_badForm {c : ReqCode} {o : Origin} {q : Request} {b : Byte} {a : List Byte} {s : State}
    (hn : nextRequest s = some (o, q)) (hp : q.payload = b :: a) (hc : ReqCode.ofByte b = some c) (hf : formOk c a = false)
    (work : Origin → List Byte → State → State) : serveRow c work s = answered o .badRequest [] s := by
  have hq : q.code = some c := by simp [Request.code, hp, hc]
  have ha : q.args = a := by simp [Request.args, hp]
  unfold serveRow
  rw [hn]
  simp only [hq, if_true, serve, ha, hf, Bool.not_false]
  rfl

/-- The row of a long request that finds the slot held (R168). -/
theorem serveRow_busy {c : ReqCode} {o : Origin} {q : Request} {b : Byte} {a : List Byte} {s : State}
    (hn : nextRequest s = some (o, q)) (hp : q.payload = b :: a) (hc : ReqCode.ofByte b = some c) (hf : formOk c a = true)
    (hl : c.isLong = true) (hs : s.ma.long ≠ none) (work : Origin → List Byte → State → State) :
    serveRow c work s = answered o .busy [] s := by
  have hq : q.code = some c := by simp [Request.code, hp, hc]
  have ha : q.args = a := by simp [Request.args, hp]
  have hi : s.ma.long.isSome = true := by cases h : s.ma.long <;> simp_all
  unfold serveRow
  rw [hn]
  simp only [hq, if_true, serve, ha, hf, hl, hi, Bool.not_true, Bool.and_self]
  rfl

/-- A buffer is found when one is free (R116). -/
theorem alloc_free {f : Frame} {s : State} (h : freeBufs s ≠ []) :
    ∃ b : BufId, s.pool[b].frame = none ∧ alloc f s = some (b, { s with pool := s.pool.set b ⟨some f, 0⟩ }) := by
  obtain ⟨x, xs, hx⟩ : ∃ x xs, freeBufs s = x :: xs := by
    cases hh : freeBufs s with
    | nil => exact absurd hh h
    | cons x xs => exact ⟨x, xs, rfl⟩
  have : alloc f s = some (x, { s with pool := s.pool.set x ⟨some f, 0⟩ }) := by simp [alloc, hx]
  exact ⟨x, (alloc_spec this).1, this⟩

/-- No buffer is found when none is free. -/
theorem alloc_none {f : Frame} {s : State} (h : freeBufs s = []) : alloc f s = none := by simp [alloc, h]

/-- An entry set twice. -/
theorem set_set {α : Type} {n : Nat} (v : Vector α n) (i : Fin n) (x y : α) : (v.set i x).set i y = v.set i y := by
  apply Vector.ext; intro j hj; simp [Vector.getElem_set]

/-- An entry set and then changed. -/
theorem vmod_set {α : Type} {n : Nat} (v : Vector α n) (i : Fin n) (x : α) (f : α → α) : vmod (v.set i x) i f = v.set i (f x) := by
  unfold vmod; rw [set_same, set_set]

/-! ## Operand bytes -/

theorem rd8_0 (a : Byte) (l : List Byte) : rd8 (a :: l) 0 = a.toNat := rfl

theorem rd8_1 (a b : Byte) (l : List Byte) : rd8 (a :: b :: l) 1 = b.toNat := rfl

theorem rd8_2 (a b c : Byte) (l : List Byte) : rd8 (a :: b :: c :: l) 2 = c.toNat := rfl

/-- An index of a table names itself. -/
theorem finAt_val {n : Nat} (k : Fin n) : finAt n k.val = some k := by simp [finAt, k.isLt]

/-- A number at or above the size of a table names no index. -/
theorem finAt_none {n m : Nat} (h : n ≤ m) : finAt n m = none := by simp [finAt]; omega

theorem byte_toNat {n : Nat} (k : Fin n) (h : n ≤ 256) : (byte k.val).toNat = k.val := by simp [byte]; omega

theorem byte_of (t : Byte) : byte t.toNat = t := by simp [byte]

/-! ## Writes -/

/-- A write carried out, with the pointer turned (R172). -/
theorem carryOut_wrote (o : Origin) (t i : Nat) (e : List Byte) (s : State) :
    turnPointer o (carryOut o t i e s) = wrote o t i (writeConfig t i e s) := by
  unfold carryOut wrote
  generalize writeConfig t i e s = w
  obtain ⟨st, n⟩ := w
  cases st <;> rfl

/-- The checks before the owner's, on a configuration table while no COMMIT runs (R172). -/
theorem writeRefusal_config {t i : Nat} {s : State} (ht : t ≤ 5) (hc : commitRuns s = false) :
    writeRefusal t i s = if inTable t i then none else some .badValue := by
  have : ¬ 8 ≤ t := by omega
  cases h : inTable t i <;> simp [writeRefusal, isReadOnly, this, hc, h]

/-- WRITE-COND past its refusals: the link test (R174). -/
theorem doWriteCond_test (o : Origin) (t i : Byte) (e : List Byte) {s : State} (h : writeRefusal t.toNat i.toNat s = none) :
    doWriteCond o (t :: i :: e) s = if (s.ma.origin o).link = some ⟨t.toNat, i.toNat⟩ then
      carryOut o t.toNat i.toNat e (updOrigin o (fun r => { r with link := none }) s)
      else reply o .linkLost (updOrigin o (fun r => { r with link := none }) s) := by
  unfold doWriteCond
  rw [show writeRefusal (rd8 (t :: i :: e) 0) (rd8 (t :: i :: e) 1) s = none from h]
  by_cases hl : (s.ma.origin o).link = some ⟨t.toNat, i.toNat⟩
  · rw [if_pos hl]; exact if_pos (decide_eq_true hl)
  · rw [if_neg hl]; exact if_neg (fun hc => hl (of_decide_eq_true hc))

end Sys2Proof.Machine
end

