-- ==== Sys2Proof/Laws/Slots.lean ====
section
/-! SUPPORT. What the end of a session, a flush of a hold queue, block requests and the choice of a ready slot come to, slot by slot. -/

namespace Sys2Proof.Machine

set_option Elab.async false

/-! ## REFUSE and the hold queues -/

/-- A REFUSE leaves the hold queues, the outbound queue and the service queue (R127). -/
theorem refuse_queues (r : RefuseReason) (f : Frame) (s : State) :
    (refuse r f s).queues.hold = s.queues.hold ∧ (refuse r f s).queues.out = s.queues.out ∧
      (refuse r f s).queues.service = s.queues.service := by
  unfold refuse
  split
  · exact ⟨rfl, rfl, rfl⟩
  · next b u h =>
    have := (alloc_spec h).2
    subst this
    split
    · exact ⟨rfl, rfl, rfl⟩
    · exact ⟨rfl, rfl, rfl⟩

/-- A removed entry leaves the hold queues, the outbound queue and the service queue. -/
theorem refuseEntry_queues (r : RefuseReason) (b : BufId) (s : State) :
    (refuseEntry r b s).queues.hold = s.queues.hold ∧ (refuseEntry r b s).queues.out = s.queues.out ∧
      (refuseEntry r b s).queues.service = s.queues.service := by
  unfold refuseEntry
  split
  · split
    · exact refuse_queues _ _ _
    · exact ⟨rfl, rfl, rfl⟩
  · exact ⟨rfl, rfl, rfl⟩

/-- A flush leaves the hold queues, the outbound queue and the service queue. -/
theorem refuseAll_queues (r : RefuseReason) (bs : List BufId) (s : State) :
    (refuseAll r bs s).queues.hold = s.queues.hold ∧ (refuseAll r bs s).queues.out = s.queues.out ∧
      (refuseAll r bs s).queues.service = s.queues.service :=
  ⟨foldl_keeps (fun t => t.queues.hold) _ (fun t b => (refuseEntry_queues r b t).1) bs s,
    foldl_keeps (fun t => t.queues.out) _ (fun t b => (refuseEntry_queues r b t).2.1) bs s,
    foldl_keeps (fun t => t.queues.service) _ (fun t b => (refuseEntry_queues r b t).2.2) bs s⟩

/-- The hold queues after slot `k`'s has been flushed (R126). -/
theorem flushHold_hold (k : SlotId) (s : State) : (flushHold k s).queues.hold = s.queues.hold.set k [] :=
  (refuseAll_queues .notReady s.queues.hold[k] (clearHold k s)).1

/-- What slot `k`'s release is: its entries go behind the outbound queue while that has room, and those beyond are answered with
REFUSE(PART_BUSY), in their order (R125). -/
theorem releaseHold_spec (k : SlotId) (s : State) : releaseHold k s =
    refuseAll .partBusy (s.queues.hold[k].drop (32 - s.queues.out.length)) { s with
      queues := { s.queues with
        out := s.queues.out ++ s.queues.hold[k].take (32 - s.queues.out.length), hold := s.queues.hold.set k [] } } := by
  have go : ∀ (bs : List BufId) (u : State), bs.foldl (fun s b =>
      if s.queues.out.length < Config.outboundMax then updQueues (fun q => { q with out := q.out ++ [b] }) s
      else refuseEntry .partBusy b s) u =
      refuseAll .partBusy (bs.drop (32 - u.queues.out.length)) { u with
        queues := { u.queues with out := u.queues.out ++ bs.take (32 - u.queues.out.length) } } := by
    intro bs
    induction bs with
    | nil => intro u; simp [refuseAll]
    | cons b bs ih =>
      intro u
      rw [List.foldl_cons, ih]
      by_cases h : u.queues.out.length < 32
      · rw [if_pos (by exact h)]
        have hl : (updQueues (fun q => { q with out := q.out ++ [b] }) u).queues.out.length = u.queues.out.length + 1 := by
          simp [updQueues]
        rw [hl, show 32 - u.queues.out.length = 32 - (u.queues.out.length + 1) + 1 by omega]
        simp [updQueues]
      · rw [if_neg (by exact h)]
        have hq : (refuseEntry .partBusy b u).queues.out = u.queues.out :=
          (refuseEntry_queues .partBusy b u).2.1
        rw [hq, show 32 - u.queues.out.length = 0 by omega]
        simp only [List.drop_zero, List.take_zero, List.append_nil]
        have hs : ({ refuseEntry .partBusy b u with
            queues := { (refuseEntry .partBusy b u).queues with out := u.queues.out } } : State) =
            refuseEntry .partBusy b u := by rw [← hq]
        rw [hs]
        rfl
  exact go _ (clearHold k s)

/-- A flush leaves slots, records and agent. -/
theorem flushHold_rest (k : SlotId) (s : State) :
    (flushHold k s).slots = s.slots ∧ (flushHold k s).ctx = s.ctx ∧ (flushHold k s).ma = s.ma := by
  have h := of_noLinks (flushHold_noLinks k s)
  exact ⟨h.2.2.2.1, h.2.2.2.2.1, h.2.2.2.2.2.2.2.2.2.2.2.2.1⟩

/-! ## The end of a session -/

/-- The slots after the end of slot `k`'s session (R48). -/
theorem endSession_slots (k j : SlotId) (s : State) :
    (endSession k s).slots[j] =
      if j = k ∧ s.slots[k].session.isSome then { s.slots[k] with session := none, catInUse := none } else s.slots[j] := by
  unfold endSession
  split
  · next h => simp only [h]; simp
  · next x h =>
    simp only [h]
    have hw : (withdrawSlot k s).slots = s.slots := (of_noCache (withdrawSlot_noCache k s)).2.2.2.1
    by_cases hj : j = k
    · subst hj; rw [updSlot_same]; simp only [Option.isSome_some, and_true, if_true]
      show ({ (withdrawSlot j s).slots[j] with session := none, catInUse := none } : SlotStatus) = _
      rw [hw]
    · rw [updSlot_other hj, if_neg (by simp [hj])]
      show (withdrawSlot k s).slots[j] = _
      rw [hw]

/-- The end of a session leaves records, agent, queues, attention and pool. -/
theorem endSession_rest (k : SlotId) (s : State) :
    (endSession k s).ctx = s.ctx ∧ (endSession k s).ma = s.ma ∧ (endSession k s).queues = s.queues ∧
      (endSession k s).au = s.au ∧ (endSession k s).pool = s.pool := by
  unfold endSession
  split
  · exact ⟨rfl, rfl, rfl, rfl, rfl⟩
  · have h := of_noCache (withdrawSlot_noCache k s)
    refine ⟨h.2.2.2.2.1, h.2.2.2.2.2.2.2.2.2.2.2.2.2.1, ?_, ?_, ?_⟩
    · exact h.2.2.2.2.2.2.2.2.2.2.1
    · exact h.2.2.2.2.2.2.2.2.2.2.2.2.2.2.1
    · exact h.2.2.2.2.2.2.2.2.2.2.2.1

/-- The users counts after the end of slot `k`'s session (R30). -/
theorem endSession_catSt (k : SlotId) (i : ImageId) (s : State) :
    (endSession k s).catSt[i] = ⟨s.catSt[i].bad, s.catSt[i].users -
      if s.slots[k].session.any (fun x => decide (x.img = i)) = true then 1 else 0⟩ := by
  unfold endSession
  split
  · next h => simp only [h]; rfl
  · next x h =>
    have hw : (withdrawSlot k s).catSt = s.catSt := (of_noCache (withdrawSlot_noCache k s)).2.2.2.2.2.1
    show (vmod (withdrawSlot k s).catSt x.img _)[i] = _
    rw [hw, h]
    by_cases hi : x.img = i
    · subst hi; rw [vmod_same]; simp
    · rw [vmod_other _ (Ne.symm hi)]; simp [hi]

/-- After the end of its session the slot is requester of no fill (R33). -/
theorem endSession_fills (k : SlotId) (s : State) (h : s.slots[k].session.isSome = true) :
    (∀ f ∈ (endSession k s).bc.fills, k ∉ f.reqs) ∧
      ∀ f, (endSession k s).reader = .fill f → k ∉ f.reqs := by
  obtain ⟨x, hx⟩ := Option.isSome_iff_exists.1 h
  unfold endSession; rw [hx]
  refine ⟨?_, ?_⟩
  · intro f hf
    have : (withdrawSlot k s).bc.fills = s.bc.fills.map (fun e =>
      if e.reqs.contains k then { e with reqs := e.reqs.filter (· ≠ k), rank := rankOf (e.reqs.filter (· ≠ k)) s } else e) := by
      unfold withdrawSlot updFill; split <;> rfl
    have hf : f ∈ (withdrawSlot k s).bc.fills := hf
    rw [this, List.mem_map] at hf
    obtain ⟨e, he, rfl⟩ := hf
    split
    · simp
    · next h => simpa using h
  · intro f hf
    have hf : (withdrawSlot k s).reader = .fill f := hf
    unfold withdrawSlot updFill at hf
    split at hf
    · simp at hf; rw [← hf]; simp
    · next h => simp_all
    all_goals simp_all

/-- Block requests leave slots, records, catalogue status, attention and segment scheduler (R32). -/
theorem requestBlocks_rest (k : SlotId) (s : State) :
    (requestBlocks k s).slots = s.slots ∧ (requestBlocks k s).ctx = s.ctx ∧ (requestBlocks k s).catSt = s.catSt ∧
      (requestBlocks k s).au = s.au ∧ (requestBlocks k s).seg = s.seg := by
  have h := of_noCache (requestBlocks_noCache k s)
  exact ⟨h.2.2.2.1, h.2.2.2.2.1, h.2.2.2.2.2.1, h.2.2.2.2.2.2.2.2.2.2.2.2.2.2.1, h.2.2.2.2.2.2.2.2.2.1⟩

/-! ## The choice -/

/-- Slots stand in the order of rank, then number (R32, R98). -/
theorem slotsByRank_sorted (s : State) :
    (slotsByRank s).Pairwise (fun a b => slotRank a s < slotRank b s ∨ slotRank a s = slotRank b s ∧ a < b) := by
  unfold slotsByRank
  rw [List.pairwise_flatMap]
  refine ⟨?_, ?_⟩
  · intro r _
    refine List.Pairwise.imp_of_mem ?_ (List.Pairwise.filter _ (l := slotIds) (R := (· < ·)) (by decide))
    intro a b ha hb hab
    simp only [List.mem_filter, decide_eq_true_eq] at ha hb
    exact .inr ⟨by omega, hab⟩
  · refine List.Pairwise.imp ?_ (List.pairwise_lt_range)
    intro r r' hrr a ha b hb
    simp only [List.mem_filter, decide_eq_true_eq] at ha hb
    left; omega

/-- Every slot stands in it whose rank is at most 8. -/
theorem mem_slotsByRank {k : SlotId} {s : State} (h : slotRank k s ≤ 8) : k ∈ slotsByRank s := by
  simp only [slotsByRank, List.mem_flatMap, List.mem_range, List.mem_filter, decide_eq_true_eq]
  exact ⟨slotRank k s, by omega, by simp [slotIds], rfl⟩

/-- Nothing is ready, nothing is granted. -/
theorem firstReady_none {s : State} (h : ∀ k, inReady s k = false) : firstReady s = none := by
  unfold firstReady
  rw [List.find?_eq_none]; intro x _; simp [h x]

/-- A search that can find a slot finds one with the property (R100). -/
theorem searchFrom_some {c : SlotId} {p : SlotId → Bool} {k : SlotId} (h : p k = true) : ∃ j, searchFrom c p = some j ∧ p j = true := by
  unfold searchFrom
  cases hf : (slotIds.map (fun i => c + i)).find? p with
  | some j => exact ⟨j, rfl, List.find?_some hf⟩
  | none =>
    exfalso
    have := List.find?_eq_none.1 hf k (List.mem_map.2 ⟨k - c, by simp [slotIds], by abel⟩)
    exact this h

/-- A search finds the first with the property from its cursor on, wrapping (R100). -/
theorem searchFrom_first {c k : SlotId} {p : SlotId → Bool} (h : p k = true) (hm : ∀ j, p j = true → (k - c).val ≤ (j - c).val) :
    searchFrom c p = some k := by
  unfold searchFrom
  rw [List.find?_eq_some_iff_append]
  refine ⟨h, ((List.finRange 32).take (k-c).val).map (c + ·), ((List.finRange 32).drop ((k-c).val+1)).map (c + ·), ?_, ?_⟩
  · have key : ∀ x : SlotId, slotIds = (List.finRange 32).take x.val ++ x :: (List.finRange 32).drop (x.val+1) := by decide +kernel
    rw [key (k - c)]; simp
  · intro a ha
    simp only [List.mem_map] at ha
    obtain ⟨i, hi, rfl⟩ := ha
    rw [List.mem_take_iff_getElem] at hi
    obtain ⟨n, hn, hni⟩ := hi
    simp at hni hn
    by_contra hc
    simp at hc
    have := hm _ hc
    have e : c + i - c = i := by abel
    rw [e] at this
    subst hni
    simp at this; omega

/-! ## Failures -/

/-- A policy changes its slot and the attention list alone (R21). -/
theorem applyPolicy_only (k : SlotId) (c : Cause) (e : ClassEntry) (s : State) :
    applyPolicy k c e s = { s with slots := (applyPolicy k c e s).slots, au := (applyPolicy k c e s).au } := by
  unfold applyPolicy
  cases e.policy <;> dsimp only
  · split <;> rfl
  all_goals rfl

theorem applyPolicy_other {j k : SlotId} (h : j ≠ k) (c : Cause) (e : ClassEntry) (s : State) :
    (applyPolicy k c e s).slots[j] = s.slots[j] := by
  unfold applyPolicy
  cases e.policy <;> dsimp only
  · split <;> exact updSlot_other h _ _
  all_goals exact updSlot_other h _ _

/-- What a policy makes of its slot follows from the slot as it stands. -/
theorem applyPolicy_same {k : SlotId} {s t : State} (h : s.slots[k] = t.slots[k]) (c : Cause) (e : ClassEntry) :
    (applyPolicy k c e s).slots[k] = (applyPolicy k c e t).slots[k] := by
  have hu : ∀ f : SlotStatus → SlotStatus, (updSlot k f s).slots[k] = (updSlot k f t).slots[k] := by
    intro f; rw [updSlot_same, updSlot_same, h]
  unfold applyPolicy
  rw [h]
  cases e.policy <;> dsimp only
  · split <;> exact hu _
  all_goals exact hu _

/-- The slot between the end of what a failure interrupts and its policy (R20). -/
theorem failSlot_before (k j : SlotId) (c : Cause) (s : State) :
    (updSlot k (fun x => { x with lastCause := some c, catInUse := none }) (flushHold k (endSession k s))).slots[j] =
      if j = k then { s.slots[k] with session := none, lastCause := some c, catInUse := none } else s.slots[j] := by
  by_cases h : j = k
  · subst h
    rw [if_pos rfl, updSlot_same, (flushHold_rest _ _).1, endSession_slots]
    by_cases h : s.slots[j].session.isSome = true
    · simp only [h, and_true, if_true]
    · have : s.slots[j].session = none := by simpa using h
      simp only [h]
      rw [← this]; rfl
  · rw [if_neg h, updSlot_other h, (flushHold_rest _ _).1, endSession_slots, if_neg (by simp [h])]

theorem failSlot_before_tables (k : SlotId) (c : Cause) (s : State) :
    (updSlot k (fun x => { x with lastCause := some c, catInUse := none }) (flushHold k (endSession k s))).tables = s.tables := by
  show (flushHold k (endSession k s)).tables = _
  rw [(of_noEvent (flushHold_noEvent _ _)).2.2.1, (of_noEvent (endSession_noEvent _ _)).2.2.1]

/-- A failure is the end of the session, the flush of the hold queue, and a change of the slot and of the attention list (R20, R21). -/
theorem failSlot_only (k : SlotId) (c : Cause) (s : State) : failSlot k c s =
    { flushHold k (endSession k s) with slots := (failSlot k c s).slots, au := (failSlot k c s).au } := by
  unfold failSlot; dsimp only
  split
  · next e _ =>
    rw [applyPolicy_only]
    rfl
  · rfl

theorem failSlot_other {j k : SlotId} (h : j ≠ k) (c : Cause) (s : State) : (failSlot k c s).slots[j] = s.slots[j] := by
  have hb := failSlot_before k j c s
  rw [if_neg h] at hb
  unfold failSlot; dsimp only
  split
  · rw [applyPolicy_other h, hb]
  · exact hb

/-- What a failure makes of its slot follows from the slot and the tables. -/
theorem failSlot_same {k : SlotId} {s t : State} (h : s.slots[k] = t.slots[k]) (ht : s.tables = t.tables) (c : Cause) :
    (failSlot k c s).slots[k] = (failSlot k c t).slots[k] := by
  have hb := failSlot_before k k c s
  have hb' := failSlot_before k k c t
  rw [if_pos rfl] at hb hb'
  have hb2 := hb.trans ((congrArg (fun x : SlotStatus => { x with session := none, lastCause := some c, catInUse := none }) h).trans hb'.symm)
  have hcl : classOf k (updSlot k (fun x => { x with lastCause := some c, catInUse := none }) (flushHold k (endSession k s))) =
      classOf k (updSlot k (fun x => { x with lastCause := some c, catInUse := none }) (flushHold k (endSession k t))) := by
    unfold classOf; rw [hb2, failSlot_before_tables, failSlot_before_tables, ht]
  unfold failSlot; dsimp only
  rw [hcl]
  split
  · exact applyPolicy_same hb2 _ _
  · exact hb2

/-! ## Withdrawal of a requester -/

/-- Slot `k` withdrawn, in full (R33, R77). -/
theorem withdrawSlot_withdrawn (k : SlotId) (s : State) : Safety.Withdrawn k s (withdrawSlot k s) := by
  refine ⟨?_, ?_, ?_⟩
  · have h : (withdrawSlot k s).bc = { s.bc with fills := s.bc.fills.map (fun e =>
        if e.reqs.contains k then { e with reqs := e.reqs.filter (· ≠ k), rank := rankOf (e.reqs.filter (· ≠ k)) s } else e) } := by
      unfold withdrawSlot updFill; split <;> rfl
    refine h.trans (congrArg (fun f => { s.bc with fills := f }) (List.map_congr_left fun e _ => ?_))
    by_cases hk : k ∈ e.reqs
    · simp [hk]
    · have : e.reqs.filter (fun j => decide (j ≠ k)) = e.reqs := by
        rw [List.filter_eq_self]; intro j hj; simp; rintro rfl; exact hk hj
      rw [if_neg (by simpa using hk), if_neg hk, this]
  · intro f hf
    unfold withdrawSlot updFill
    rw [show (updBc _ s).reader = s.reader from rfl, hf]
  · intro hf
    unfold withdrawSlot updFill
    rw [show (updBc _ s).reader = s.reader from rfl]
    cases hr : s.reader with
    | fill f => exact absurd hr (hf f)
    | _ => exact hr

/-- The end of a session is a withdrawal in cache and reader (R33, R48). -/
theorem endSession_withdrawn {k : SlotId} {s : State} (h : s.slots[k].session.isSome = true) :
    Safety.Withdrawn k s (endSession k s) := by
  obtain ⟨x, hx⟩ := Option.isSome_iff_exists.1 h
  unfold endSession; rw [hx]
  exact withdrawSlot_withdrawn k s

/-- A withdrawal stands by cache and reader alone. -/
theorem withdrawn_congr {k : SlotId} {s t u : State} (h : Safety.Withdrawn k s t) (hb : u.bc = t.bc) (hr : u.reader = t.reader) :
    Safety.Withdrawn k s u := by
  unfold Safety.Withdrawn; rw [hb, hr]; exact h

/-- A flush leaves cache and reader (R126). -/
theorem flushHold_cache (k : SlotId) (s : State) : (flushHold k s).bc = s.bc ∧ (flushHold k s).reader = s.reader := by
  have := of_noLinks (flushHold_noLinks k s)
  exact ⟨this.2.2.2.2.2.2.2.1, this.2.2.2.2.2.2.2.2.1⟩

end Sys2Proof.Machine
end

