-- ==== Sys2Proof/Laws/Linked.lean ====
section
/-! SUPPORT. The links of the two origins: no reply, no cache operation and no owner of a table touches them (R172, R173, R174). -/

namespace Sys2Proof.Machine

set_option Elab.async false

/-- The links of both origins (R173). -/
def State.links (s : State) : Option EntryName × Option EntryName := (s.ma.trunk.link, s.ma.service.link)

/-- An origin's link, read off the pair. -/
theorem link_of {s t : State} (h : t.links = s.links) (o : Origin) : (t.ma.origin o).link = (s.ma.origin o).link := by
  cases o
  · exact congrArg Prod.fst h
  · exact congrArg Prod.snd h

/-- What leaves the agent leaves the links. -/
theorem links_of_ma {s t : State} (h : t.ma = s.ma) : t.links = s.links := by unfold State.links; rw [h]

theorem links_of_noLinks {s t : State} (h : t.noLinks = s.noLinks) : t.links = s.links :=
  links_of_ma (of_noLinks h).2.2.2.2.2.2.2.2.2.2.2.2.1

theorem links_of_noCache {s t : State} (h : t.noCache = s.noCache) : t.links = s.links :=
  links_of_ma (of_noCache h).2.2.2.2.2.2.2.2.2.2.2.2.2.1

/-! ## Replies -/

@[simp] theorem setLong_links (l : Option LongOp) (s : State) : (setLong l s).links = s.links := rfl

@[simp] theorem setJob_links (j : LongJob) (s : State) : (setJob j s).links = s.links := rfl

@[simp] theorem turnPointer_links (o : Origin) (s : State) : (turnPointer o s).links = s.links := rfl

@[simp] theorem updOrigin_state_links (o : Origin) (f : OriginRec → OriginRec) (h : ∀ r, (f r).link = r.link) (s : State) :
    (updOrigin o f s).links = s.links := by
  cases o
  · exact Prod.ext (h _) rfl
  · exact Prod.ext rfl (h _)

@[simp] theorem accept_links (o : Origin) (j : LongJob) (s : State) : (accept o j s).links = s.links := by
  unfold accept; rw [updOrigin_state_links]; · rfl
  intro r; rfl

@[simp] theorem pushTx_links (o : Origin) (e : TxEntry) (s : State) : (pushTx o e s).links = s.links := by cases o <;> rfl

@[simp] theorem placed_links (r : BuiltReply) (b : BufId) (s : State) : (placed r b s).links = s.links := by
  unfold placed
  dsimp only
  split
  · simp
  · rw [updOrigin_state_links _ OriginRec.done (fun r => rfl)]; simp

@[simp] theorem placeOne_links (s : State) : (placeOne s).links = s.links := by
  unfold placeOne
  split
  · rfl
  · split
    · rfl
    · next h => rw [placed_links]; exact (links_of_noLinks (alloc_noLinks h)).trans rfl

@[simp] theorem placeReplies_links (n : Nat) (s : State) : (placeReplies n s).links = s.links := by
  induction n generalizing s with
  | zero => rfl
  | succ n ih => rw [placeReplies, ih, placeOne_links]

@[simp] theorem queueReply_links (r : BuiltReply) (s : State) : (queueReply r s).links = s.links := by
  unfold queueReply; rw [placeReplies_links]; rfl

@[simp] theorem finalReply_links (o : Origin) (st : Status) (d : List Byte) (x : Bool) (s : State) :
    (finalReply o st d x s).links = s.links := by
  unfold finalReply
  split
  · rfl
  · rw [queueReply_links]; exact updOrigin_state_links o (fun r => { r with state := .replying }) (fun r => rfl) s

@[simp] theorem endLong_links (st : Status) (d : List Byte) (s : State) : (endLong st d s).links = s.links := by
  unfold endLong; split <;> simp

/-! ## Pins, fills and BAD marking -/

@[simp] theorem setWaiting_links (w : List Nat) (s : State) : (setWaiting w s).links = s.links := by
  unfold setWaiting; split <;> simp

@[simp] theorem pinDone_links (s : State) : (pinDone s).links = s.links := by unfold pinDone; split <;> simp

@[simp] theorem clearPinMarks_links (s : State) : (clearPinMarks s).links = s.links := links_of_noCache (clearPinMarks_noCache s)

@[simp] theorem endPin_links (st : Status) (s : State) : (endPin st s).links = s.links := by unfold endPin; split <;> simp

@[simp] theorem endPinOn_links (i : ImageId) (s : State) : (endPinOn i s).links = s.links := by unfold endPinOn; split <;> simp

@[simp] theorem request_links (r : Source) (i : ImageId) (b : Nat) (s : State) : (request r i b s).links = s.links :=
  links_of_noCache (request_noCache r i b s)

@[simp] theorem takeWaiting_links (i : ImageId) (bs : List Nat) (s : State) : (takeWaiting i bs s).links = s.links := by
  induction bs generalizing s with
  | nil => simp [takeWaiting]
  | cons b bs ih => unfold takeWaiting; split <;> simp [ih]

@[simp] theorem placeWaiting_links (s : State) : (placeWaiting s).links = s.links := by
  unfold placeWaiting; split
  · split <;> simp
  · rfl

@[simp] theorem requestAll_links (s : State) : (requestAll s).links = s.links := links_of_noCache (requestAll_noCache s)

@[simp] theorem afterWithdraw_links (b : Bool) (s : State) : (afterWithdraw b s).links = s.links := by
  unfold afterWithdraw; split <;> simp

@[simp] theorem updSlot_links (k : SlotId) (g : SlotStatus → SlotStatus) (s : State) : (updSlot k g s).links = s.links := rfl

@[simp] theorem raise_links (c : AttnCause) (j : Subject) (d : Option Cause) (s : State) : (raise c j d s).links = s.links := rfl

@[simp] theorem endSession_links (k : SlotId) (s : State) : (endSession k s).links = s.links := links_of_ma (endSession_rest k s).2.1

@[simp] theorem flushHold_links (k : SlotId) (s : State) : (flushHold k s).links = s.links := links_of_ma (flushHold_rest k s).2.2

@[simp] theorem applyPolicy_links (k : SlotId) (c : Cause) (e : ClassEntry) (s : State) : (applyPolicy k c e s).links = s.links := by
  unfold applyPolicy; split
  · split <;> simp
  all_goals simp

@[simp] theorem failSlot_links (k : SlotId) (c : Cause) (s : State) : (failSlot k c s).links = s.links := by
  unfold failSlot; dsimp only; split <;> simp

@[simp] theorem failUsers_links (i : ImageId) (s : State) : (failUsers i s).links = s.links := by
  unfold failUsers
  rw [forFree_keeps State.links]
  · intro s k; simp
  · intro s n; rfl

@[simp] theorem dropFills_links (i : ImageId) (s : State) : (dropFills i s).links = s.links := rfl

@[simp] theorem dropLines_links (i : ImageId) (s : State) : (dropLines i s).links = s.links := rfl

@[simp] theorem discardFill_links (i : ImageId) (s : State) : (discardFill i s).links = s.links := links_of_noCache (discardFill_noCache i s)

@[simp] theorem disownFill_links (i : ImageId) (s : State) : (disownFill i s).links = s.links := links_of_noCache (disownFill_noCache i s)

@[simp] theorem withdrawImage_links (i : ImageId) (s : State) : (withdrawImage i s).links = s.links := by
  unfold withdrawImage; split <;> simp

@[simp] theorem updCat_links (i : ImageId) (g : CatStatus → CatStatus) (s : State) : (updCat i g s).links = s.links := rfl

@[simp] theorem markBad_links (i : ImageId) (s : State) : (markBad i s).links = s.links := by simp [markBad]

@[simp] theorem dropImage_links (i : ImageId) (s : State) : (dropImage i s).links = s.links := by simp [dropImage]

@[simp] theorem mismatch_links (i : ImageId) (s : State) : (mismatch i s).links = s.links := by unfold mismatch; split <;> simp

@[simp] theorem endSelfCheck_links (c : SelfCheck) (s : State) : (endSelfCheck c s).links = s.links := by simp [endSelfCheck]

@[simp] theorem runChecks_links (n : Nat) (c : SelfCheck) (s : State) : (runChecks n c s).links = s.links := by
  induction n generalizing c s with
  | zero => simp [runChecks]
  | succ n ih =>
    unfold runChecks; dsimp only
    split
    · split
      · simp
      · split <;> simp [ih]
    · simp [ih]

@[simp] theorem restartCheck_links (i : ImageId) (s : State) : (restartCheck i s).links = s.links := by
  have hd : ∀ s : State, (dropScan s).links = s.links := by intro s; unfold dropScan; split <;> rfl
  unfold restartCheck; split
  · split
    · simp [hd]
    · rfl
  · rfl

/-! ## Writes -/

@[simp] theorem setSettings_links (e : Settings) (s : State) : (setSettings e s).links = s.links := by
  unfold setSettings
  rw [forFree_keeps State.links]
  · rfl
  · intro s k
    unfold trimHold
    rw [foldl_keeps State.links]
    · rfl
    · intro s b; unfold trimEntry; split
      · split
        · exact links_of_noLinks (refuseEntry_noLinks _ _ _)
        · exact (links_of_noLinks (dropRef_noLinks _ _)).trans rfl
      · exact links_of_noLinks (dropRef_noLinks _ _)
  · intro s n; rfl

@[simp] theorem setClassEntry_links (c : ClassId) (e : ClassEntry) (s : State) : (setClassEntry c e s).2.links = s.links := by
  unfold setClassEntry; split
  · rfl
  · dsimp only
    rw [foldl_keeps State.links]
    · rfl
    · intro s k; unfold touchClass; dsimp only; split <;> rfl

@[simp] theorem setSlotEntry_links (k : SlotId) (e : SlotEntry) (s : State) : (setSlotEntry k e s).2.links = s.links := by
  have he : ∀ old s, (slotEffects k old e s).links = s.links := by
    intro old s; unfold slotEffects
    split
    · split
      · rfl
      · split
        · unfold setClass; split <;> rfl
        · rfl
    · split <;> rfl
  have hv : ∀ s : State, (voidTurn k s).links = s.links := by intro s; unfold voidTurn; split <;> rfl
  unfold setSlotEntry; split
  · rfl
  · split
    · rfl
    · dsimp only; split
      · rw [hv, he]; rfl
      · rw [he]; rfl

@[simp] theorem setCatEntry_links (i : ImageId) (e : CatEntry) (s : State) : (setCatEntry i e s).2.links = s.links := by
  have ho : ∀ tag k s, (outdate tag k s).links = s.links := by intro tag k s; unfold outdate; dsimp only; split <;> rfl
  unfold setCatEntry; split
  · rfl
  · dsimp only
    rw [restartCheck_links]
    split
    · rw [forFree_keeps State.links]
      · simp; rfl
      · intro s k; exact ho _ _ _
      · intro s n; rfl
    · simp; rfl

/-- The owner of a table leaves every link (R172). -/
@[simp] theorem writeConfig_links (t i : Nat) (e : List Byte) (s : State) : (writeConfig t i e s).2.links = s.links := by
  unfold writeConfig
  split <;> (try split) <;> simp <;> rfl

end Sys2Proof.Machine
end

