-- ==== Sys2Proof/Laws/Index.lean ====
section
/-! SUPPORT. A catalogue index of which the cache holds nothing: it stays so while sessions repeat their requests and a PIN on another index
takes the room (R61, R78, R84, R91). -/

namespace Sys2Proof.Machine

set_option Elab.async false

/-- No queued entry and no VALID line is of index `i`. -/
def Clear (i : ImageId) (s : State) : Prop := (∀ e ∈ s.bc.fills, e.img ≠ i) ∧ ∀ l : LineId, s.bc.lines[l].isOf i = false

/-- Only fill queue and lines count. -/
theorem Clear.congr {i : ImageId} {s t : State} (h : Clear i s) (hb : t.bc = s.bc) : Clear i t := by unfold Clear; rw [hb]; exact h

theorem Clear.of_noReply {i : ImageId} {s t : State} (h : Clear i s) (hr : t.noReply = s.noReply) : Clear i t :=
  h.congr (Machine.of_noReply hr).2.2.2.2.2.2.2.1

theorem Clear.updFill {i : ImageId} {s : State} (h : Clear i s) (f : Fill → Fill) : Clear i (Machine.updFill f s) :=
  h.congr (by unfold Machine.updFill; split <;> rfl)

/-- Lines of other indexes may be set. -/
theorem Clear.setLine {i : ImageId} {s : State} (h : Clear i s) {l : LineId} {x : Line} (hx : x.isOf i = false) :
    Clear i (Machine.setLine l x s) := by
  refine ⟨h.1, fun j => ?_⟩
  show (s.bc.lines.set l x)[j].isOf i = false
  by_cases hj : j = l
  · subst hj; rw [set_same]; exact hx
  · rw [set_other _ hj]; exact h.2 j

theorem Clear.pinLine {i : ImageId} {s : State} (h : Clear i s) (l : LineId) : Clear i (Machine.pinLine l s) := by
  unfold Machine.pinLine
  split
  · next j b p d hl =>
    have hx : (Line.valid j b true d).isOf i = false := by have := h.2 l; rw [hl] at this; exact this
    have := h.setLine (l := l) hx
    exact ⟨this.1, this.2⟩
  · exact h
  · exact h

/-- A request for a block of another index (R76). -/
theorem Clear.request {i j : ImageId} {s : State} (h : Clear i s) (hj : j ≠ i) (r : Source) (b : Nat) : Clear i (Machine.request r j b s) := by
  unfold Machine.request
  split
  · split
    · exact h.pinLine _
    · exact h
  · split
    · exact h.updFill _
    · split
      · refine ⟨fun e he => ?_, h.2⟩
        simp only [updBc, List.mem_map] at he
        obtain ⟨e', he', rfl⟩ := he
        have := h.1 e' he'
        split
        · cases r <;> exact this
        · exact this
      · split
        · exact h
        · refine ⟨fun e he => ?_, h.2⟩
          simp only [updBc, List.mem_append, List.mem_singleton] at he
          rcases he with he | rfl
          · exact h.1 e he
          · cases r <;> exact hj

/-- No session is open on index `i`. -/
def Unused (i : ImageId) (s : State) : Prop := ∀ (k : SlotId) (x : Session), s.slots[k].session = some x → x.img ≠ i

/-- A session's block requests (R32). -/
theorem Clear.requestBlocks {i : ImageId} {s : State} (h : Clear i s) (hu : Unused i s) (k : SlotId) : Clear i (Machine.requestBlocks k s) := by
  unfold Machine.requestBlocks
  split
  · next x hx =>
    split
    · have hi := hu k x hx
      generalize x.range = bs
      induction bs generalizing s with
      | nil => exact h
      | cons b bs ih =>
        have hb : Clear i (Machine.requestBlock k x.img b s) := by
          unfold Machine.requestBlock; split
          · exact h
          · exact h.request hi _ _
        have hs : (Machine.requestBlock k x.img b s).slots = s.slots := (Machine.of_noCache (requestBlock_noCache k x.img b s)).2.2.2.1
        have hu' : Unused i (Machine.requestBlock k x.img b s) := by unfold Unused; rw [hs]; exact hu
        exact ih hb hu' (by rw [hs]; exact hx) (by rw [hs]; assumption)
    · exact h
  · exact h

/-- Every session's block requests (R32). -/
theorem Clear.requestAll {i : ImageId} {s : State} (h : Clear i s) (hu : Unused i s) : Clear i (Machine.requestAll s) := by
  unfold Machine.requestAll
  generalize slotsByRank s = ks
  induction ks generalizing s with
  | nil => exact h
  | cons k ks ih =>
    have hs : (Machine.requestBlocks k s).slots = s.slots := (requestBlocks_rest k s).1
    exact ih (h.requestBlocks hu k) (by unfold Unused; rw [hs]; exact hu)

/-- The end of a PIN touches pool, queues and agent alone. -/
theorem pinDone_noReply (s : State) : (pinDone s).noReply = s.noReply := by unfold pinDone; split <;> simp

theorem setWaiting_bc (w : List Nat) (s : State) : (setWaiting w s).bc = s.bc := by unfold setWaiting; split <;> rfl

/-- A PIN on another index takes the room (R87). -/
theorem Clear.placeWaiting {i : ImageId} {s : State} (h : Clear i s) (hp : pinImage s ≠ some i) : Clear i (Machine.placeWaiting s) := by
  have ht : ∀ (j : ImageId) (bs : List Nat) (s : State), j ≠ i → Clear i s → Clear i (takeWaiting j bs s) := by
    intro j bs
    induction bs with
    | nil => intro s _ h; exact h.congr (setWaiting_bc _ _)
    | cons b bs ih =>
      intro s hj h
      unfold takeWaiting
      split
      · exact h.congr (setWaiting_bc _ _)
      · exact ih _ hj (h.request hj _ _)
  unfold Machine.placeWaiting
  split
  · next j hj =>
    split
    · exact h
    · exact (ht j _ s (by rintro rfl; exact hp hj) h).of_noReply (pinDone_noReply _)
  · exact h

/-- Placing replies leaves the long operation. -/
theorem placeReplies_long (n : Nat) (s : State) : (placeReplies n s).ma.long = s.ma.long := by
  induction n generalizing s with
  | zero => rfl
  | succ n ih =>
    rw [placeReplies, ih]
    unfold placeOne
    split
    · rfl
    · next r _ =>
      split
      · rfl
      · next b t ht =>
        have := (alloc_spec ht).2
        subst this
        unfold placed; dsimp only
        split <;> (generalize r.origin = o; cases o <;> rfl)

/-- A final reply leaves the long operation. -/
theorem finalReply_long (o : Origin) (st : Status) (d : List Byte) (x : Bool) (s : State) : (finalReply o st d x s).ma.long = s.ma.long := by
  unfold finalReply
  split
  · rfl
  · unfold queueReply; rw [placeReplies_long]; cases o <;> rfl

/-- A reply that is placed leaves the hold queues, the outbound queue and the pointer. -/
theorem placeOne_quiet (s : State) :
    (placeOne s).queues.hold = s.queues.hold ∧ (placeOne s).queues.out = s.queues.out ∧ (placeOne s).ma.pointer = s.ma.pointer := by
  unfold placeOne
  split
  · exact ⟨rfl, rfl, rfl⟩
  · next r _ =>
    split
    · exact ⟨rfl, rfl, rfl⟩
    · next b t h =>
      have hq : t.queues = s.queues ∧ t.ma = s.ma := by
        unfold alloc at h
        split at h
        · cases h
        · injection h with h; injection h with _ h; subst h; exact ⟨rfl, rfl⟩
      rw [← hq.1, ← hq.2]
      unfold placed; dsimp only
      split <;> (generalize r.origin = o; cases o <;> exact ⟨rfl, rfl, rfl⟩)

/-- A final reply leaves the hold queues, the outbound queue and the pointer. -/
theorem finalReply_quiet (o : Origin) (st : Status) (d : List Byte) (x : Bool) (s : State) :
    (finalReply o st d x s).queues.hold = s.queues.hold ∧ (finalReply o st d x s).queues.out = s.queues.out ∧
      (finalReply o st d x s).ma.pointer = s.ma.pointer := by
  have hn : ∀ (n : Nat) (t : State), (placeReplies n t).queues.hold = t.queues.hold ∧ (placeReplies n t).queues.out = t.queues.out ∧
      (placeReplies n t).ma.pointer = t.ma.pointer := by
    intro n
    induction n with
    | zero => intro t; exact ⟨rfl, rfl, rfl⟩
    | succ n ih => intro t; have h := ih (placeOne t); have h' := placeOne_quiet t; rw [placeReplies, h.1, h.2.1, h.2.2]; exact h'
  unfold finalReply
  split
  · exact ⟨rfl, rfl, rfl⟩
  · unfold queueReply
    rw [(hn _ _).1, (hn _ _).2.1, (hn _ _).2.2]
    cases o <;> exact ⟨rfl, rfl, rfl⟩

/-- After its end no long operation holds the slot (R168). -/
theorem endLong_long (st : Status) (d : List Byte) (s : State) : (endLong st d s).ma.long = none := by
  unfold endLong
  split
  · assumption
  · rw [finalReply_long]; rfl

/-- What neither the cache nor a reply touches. -/
def State.quiet (s : State) :
    Vector SlotStatus 32 × Vector CtxRecord 32 × Vector CatStatus 16 × List BufId × Vector (List BufId) 32 × Ports × Attention × Nat :=
  (s.slots, s.ctx, s.catSt, s.queues.out, s.queues.hold, s.ports, s.au, s.freeTick)

theorem quiet_of_noCache {s t : State} (h : t.noCache = s.noCache) : t.quiet = s.quiet := by
  have := of_noCache h; simp_all [State.quiet]

theorem finalReply_quiets (o : Origin) (st : Status) (d : List Byte) (x : Bool) (s : State) :
    (finalReply o st d x s).quiet = s.quiet := by
  have h1 := of_noReply (finalReply_noReply o st d x s)
  have h2 := finalReply_quiet o st d x s
  simp_all [State.quiet]

theorem endLong_quiets (st : Status) (d : List Byte) (s : State) : (endLong st d s).quiet = s.quiet := by
  unfold endLong; split
  · rfl
  · rw [finalReply_quiets]; rfl

/-- The waiting list of a PIN leaves slots, records, catalogue status, hold queues, outbound queue, counters and attention. -/
theorem placeWaiting_quiets (s : State) : (placeWaiting s).quiet = s.quiet := by
  have hw : ∀ (w : List Nat) (s : State), (setWaiting w s).quiet = s.quiet := by intro w s; unfold setWaiting; split <;> rfl
  have ht : ∀ (j : ImageId) (bs : List Nat) (s : State), (takeWaiting j bs s).quiet = s.quiet := by
    intro j bs
    induction bs with
    | nil => intro s; exact hw _ _
    | cons b bs ih =>
      intro s; unfold takeWaiting; split
      · exact hw _ _
      · rw [ih, quiet_of_noCache (request_noCache _ _ _ _)]
  unfold placeWaiting
  split
  · split
    · rfl
    · unfold pinDone; split
      · rw [endLong_quiets, ht]
      · exact ht _ _ _
  · rfl

theorem endPinOn_quiets (i : ImageId) (s : State) : (endPinOn i s).quiet = s.quiet := by
  unfold endPinOn endPin
  split
  · split
    · rw [endLong_quiets, quiet_of_noCache (clearPinMarks_noCache s)]
    · rfl
  · rfl
/-- The waiting list of a PIN leaves the slots. -/
theorem placeWaiting_slots (s : State) : (placeWaiting s).slots = s.slots := congrArg Prod.fst (placeWaiting_quiets s)

end Sys2Proof.Machine
end

