-- ==== Sys2Proof/Laws/Places.lean ====
section
/-! SUPPORT. Where a block stands, as the claims say it and as the cache finds it (R72, R75), and what a request comes to by that place
(the table of R76), with the waiting list of a PIN one block at a time (R87). -/

namespace Sys2Proof.Machine

set_option Elab.async false

open Sys2Proof.Safety

/-! ## The place of a block -/

theorem isBlock_iff {i : ImageId} {b : Nat} {x : Line} : x.isBlock i b = true ↔ ∃ p d, x = .valid i b p d := by
  cases x <;> simp [Line.isBlock]

theorem validLine_none_iff {i : ImageId} {b : Nat} {s : State} : validLine i b s = none ↔ ¬ HeldValid i b s := by
  unfold validLine HeldValid
  rw [List.find?_eq_none]
  constructor
  · rintro h ⟨l, p, d, hl⟩; exact h l (List.mem_finRange l) (isBlock_iff.mpr ⟨p, d, hl⟩)
  · intro h l _ hl; obtain ⟨p, d, hl⟩ := isBlock_iff.mp hl; exact h ⟨l, p, d, hl⟩

theorem validLine_isSome_iff {i : ImageId} {b : Nat} {s : State} : (validLine i b s).isSome = true ↔ HeldValid i b s := by
  rw [← not_iff_not, ← validLine_none_iff]; simp

/-- The lowest VALID line that holds the block is the one found. -/
theorem validLine_lowest {i : ImageId} {b : Nat} {s : State} {l : LineId} {p : Bool} {d : List Byte} (h : s.bc.lines[l] = .valid i b p d)
    (hm : ∀ m : LineId, m < l → ∀ q c, s.bc.lines[m] ≠ .valid i b q c) : validLine i b s = some l := by
  unfold validLine
  rw [List.find?_eq_some_iff_getElem]
  refine ⟨isBlock_iff.mpr ⟨p, d, h⟩, l.val, by simp, by simp, fun j hj => ?_⟩
  have hj' : (List.finRange 96)[j]'(by simp; omega) = (⟨j, by omega⟩ : LineId) := by simp
  rw [hj']
  simp only [Bool.not_eq_true', ← Bool.not_eq_true]
  intro hb
  obtain ⟨q, c, hq⟩ := isBlock_iff.mp hb
  exact hm ⟨j, by omega⟩ hj q c hq

theorem fillingHolds_iff {i : ImageId} {b : Nat} {s : State} : fillingHolds i b s = true ↔ HeldFilling i b s := by
  unfold fillingHolds HeldFilling
  simp only [Bool.and_eq_true, Bool.not_eq_true', List.any_eq_true, decide_eq_true_eq]
  refine and_congr_right fun _ => ⟨?_, ?_⟩
  · rintro ⟨x, hx, rfl⟩
    obtain ⟨j, hj, hx⟩ := List.getElem_of_mem hx
    exact ⟨⟨j, by simpa using hj⟩, by simpa using hx⟩
  · rintro ⟨l, hl⟩; exact ⟨_, by rw [← hl]; simp, rfl⟩

theorem isBlock_entry {i : ImageId} {b : Nat} {e : FillEntry} : e.isBlock i b = true ↔ e.img = i ∧ e.blk = b := by
  simp [FillEntry.isBlock]

theorem isQueued_iff {i : ImageId} {b : Nat} {s : State} : isQueued i b s = true ↔ InQueue i b s := by
  simp [isQueued, InQueue, isBlock_entry]

theorem needsRoom_iff {i : ImageId} {b : Nat} {s : State} :
    needsRoom i b s = true ↔ ¬ HeldValid i b s ∧ ¬ HeldFilling i b s ∧ ¬ InQueue i b s := by
  rw [← validLine_none_iff, ← fillingHolds_iff, ← isQueued_iff]
  simp [needsRoom, and_assoc]

theorem isWindowed_iff {i : ImageId} {b : Nat} {s : State} : isWindowed i b s = true ↔ ∃ r, s.tables.cat[i].supply b = .record r := by
  unfold isWindowed; split <;> simp_all

theorem isFillBlock_iff {i : ImageId} {b : Nat} {s : State} : isFillBlock i b s = true ↔ s.tables.cat[i].supply b = .fill := by
  simp [isFillBlock]

theorem fillsFull_iff {s : State} : fillsFull s = true ↔ 16 ≤ s.bc.fills.length := decide_eq_true_iff

theorem markedLine_iff {i : ImageId} {b : Nat} {s : State} {l : LineId} :
    markedLine i b s = some l ↔ ∃ f, s.reader = .fill f ∧ f.line = l ∧ s.bc.lines[l] = .filling i b true := by
  unfold markedLine
  split
  · next f hf =>
    constructor
    · intro h; split at h
      · next hl => injection h with h; subst h; exact ⟨f, hf, rfl, hl⟩
      · cases h
    · rintro ⟨g, hg, rfl, hl⟩
      rw [hf] at hg; injection hg with hg; subst hg
      rw [if_pos hl]
  all_goals (next hr => constructor <;> [(intro h; cases h); (rintro ⟨f, hf, _⟩; rw [hr] at hf; cases hf)])

/-! ## Requests by place (R76) -/

theorem request_heldValid {i : ImageId} {b : Nat} {s : State} (h : HeldValid i b s) {r : Source} (hr : r ≠ .pin) : request r i b s = s := by
  unfold request
  split
  · rw [if_neg hr]
  · next hv => exact absurd h (validLine_none_iff.mp hv)

theorem request_pin_valid {i : ImageId} {b : Nat} {s : State} {l : LineId} {p : Bool} {d : List Byte} (h : s.bc.lines[l] = .valid i b p d)
    (hm : ∀ m : LineId, m < l → ∀ q c, s.bc.lines[m] ≠ .valid i b q c) : request .pin i b s =
      { s with bc := { s.bc with lines := s.bc.lines.set l (.valid i b true d), reservation := s.bc.reservation - 1 } } := by
  unfold request
  rw [validLine_lowest h hm]
  simp only [if_true, pinLine, h]
  rfl

theorem request_heldFilling {i : ImageId} {b : Nat} {s : State} {f : Fill} (hv : ¬ HeldValid i b s) (hf : HeldFilling i b s)
    (hr : s.reader = .fill f) (r : Source) : request r i b s = { s with reader := .fill (f.join r) } := by
  unfold request
  rw [validLine_none_iff.mpr hv]
  simp only [fillingHolds_iff.mpr hf, if_true, updFill, hr]

theorem request_queued {i : ImageId} {b : Nat} {s : State} (hv : ¬ HeldValid i b s) (hf : ¬ HeldFilling i b s) (hq : InQueue i b s)
    (r : Source) : request r i b s = { s with bc := { s.bc with
      fills := s.bc.fills.map (fun e => if e.img = i ∧ e.blk = b then e.join r s else e) } } := by
  unfold request
  rw [validLine_none_iff.mpr hv]
  simp only [Bool.eq_false_iff.mpr (fun h => hf (fillingHolds_iff.mp h)), isQueued_iff.mpr hq, if_true, isBlock_entry]
  rfl

theorem request_full {i : ImageId} {b : Nat} {s : State} (hv : ¬ HeldValid i b s) (hf : ¬ HeldFilling i b s) (hq : ¬ InQueue i b s)
    (hl : 16 ≤ s.bc.fills.length) (r : Source) : request r i b s = s := by
  unfold request
  rw [validLine_none_iff.mpr hv]
  simp [Bool.eq_false_iff.mpr (fun h => hf (fillingHolds_iff.mp h)), Bool.eq_false_iff.mpr (fun h => hq (isQueued_iff.mp h)), fillsFull_iff.mpr hl]

theorem request_new {i : ImageId} {b : Nat} {s : State} (hv : ¬ HeldValid i b s) (hf : ¬ HeldFilling i b s) (hq : ¬ InQueue i b s)
    (hl : s.bc.fills.length < 16) (r : Source) : request r i b s = { s with bc := { s.bc with fills := s.bc.fills ++ [newEntry r i b s] } } := by
  have hl' : fillsFull s = false := by rw [Bool.eq_false_iff]; intro h; have := fillsFull_iff.mp h; omega
  unfold request
  rw [validLine_none_iff.mpr hv]
  simp only [Bool.eq_false_iff.mpr (fun h => hf (fillingHolds_iff.mp h)), Bool.eq_false_iff.mpr (fun h => hq (isQueued_iff.mp h)), hl']
  rfl

/-! ## The waiting list of a PIN (R87) -/

/-- A request leaves the agent. -/
theorem request_ma (r : Source) (i : ImageId) (b : Nat) (s : State) : (request r i b s).ma = s.ma := by
  have := of_noCache (request_noCache r i b s)
  simp_all

/-- A request does not look at the agent. -/
theorem request_withMa (r : Source) (i : ImageId) (b : Nat) (a : Agent) (s : State) :
    request r i b { s with ma := a } = { request r i b s with ma := a } := by
  have e1 : validLine i b { s with ma := a } = validLine i b s := rfl
  have e2 : fillingHolds i b { s with ma := a } = fillingHolds i b s := rfl
  have e3 : isQueued i b { s with ma := a } = isQueued i b s := rfl
  have e4 : fillsFull { s with ma := a } = fillsFull s := rfl
  unfold request
  rw [e1, e2, e3, e4]
  cases validLine i b s with
  | some l =>
    by_cases hr : r = .pin
    · simp only [if_pos hr]; unfold pinLine; dsimp only; split <;> rfl
    · simp only [if_neg hr]
  | none =>
    cases fillingHolds i b s with
    | true => simp only [if_true]; unfold updFill; dsimp only; split <;> rfl
    | false => cases isQueued i b s <;> cases fillsFull s <;> cases r <;> rfl

/-- The waiting list of the running PIN, set. -/
theorem setWaiting_pin {s : State} {o : Origin} {i : ImageId} {v : List Nat} (h : s.ma.long = some ⟨o, .pin i v⟩) (w : List Nat) :
    setWaiting w s = { s with ma := { s.ma with long := some ⟨o, .pin i w⟩ } } := by
  simp only [setWaiting, pinImage, h, setJob, updMa, Option.map]

/-- With no block waiting nothing is placed. -/
theorem placeWaiting_idle {s : State} (h : ∀ o i b bs, s.ma.long ≠ some ⟨o, .pin i (b :: bs)⟩) : placeWaiting s = s := by
  unfold placeWaiting pinImage
  split
  · next i hi =>
    split at hi
    · next o j w hl =>
      cases w with
      | nil => simp [pinWaiting, hl]
      | cons b bs => exact absurd hl (h o j b bs)
    · cases hi
  · rfl

/-- Taking blocks overwrites the waiting list there was. -/
theorem takeWaiting_list {s : State} {o : Origin} {i : ImageId} {w : List Nat} (h : s.ma.long = some ⟨o, .pin i w⟩) (bs v : List Nat) :
    takeWaiting i bs { s with ma := { s.ma with long := some ⟨o, .pin i v⟩ } } = takeWaiting i bs s := by
  induction bs generalizing s with
  | nil => simp [takeWaiting, setWaiting, pinImage, setJob, updMa, h]
  | cons b bs ih =>
    unfold takeWaiting
    show (if fillsFull s then _ else _) = _
    split
    · simp [setWaiting, pinImage, setJob, updMa, h]
    · rw [request_withMa]
      have := ih (s := request .pin i b s) (by rw [request_ma]; exact h)
      rw [request_ma] at this
      exact this

/-- The waiting list of a PIN, its first block taken where there is room. -/
theorem placeWaiting_cons {s : State} {o : Origin} {i : ImageId} {b : Nat} {bs : List Nat} (h : s.ma.long = some ⟨o, .pin i (b :: bs)⟩) :
    placeWaiting s = pinDone (if 16 ≤ s.bc.fills.length then s else takeWaiting i bs (request .pin i b s)) := by
  have hi : pinImage s = some i := by simp [pinImage, h]
  have hw : pinWaiting s = b :: bs := by simp [pinWaiting, h]
  unfold placeWaiting
  rw [hi]; dsimp only
  rw [hw, takeWaiting]
  simp only [fillsFull_iff]
  by_cases hl : 16 ≤ s.bc.fills.length
  · rw [if_pos hl, if_pos hl]
    have : setWaiting (b :: bs) s = s := by rw [setWaiting_pin h, ← h]
    rw [this]; rfl
  · rw [if_neg hl, if_neg hl]; rfl

/-- The counted blocks of a PIN at its acceptance: those up to the first that needs room and finds none are taken, in their order, and the
rest is the waiting list (R87). -/
theorem pinBlocks_takes (i : ImageId) (a : Agent) (bs : List Nat) (s : State) :
    ∃ (now later : List Nat) (u : Nat → State), bs = now ++ later ∧ u 0 = s ∧
      (∀ n b, now[n]? = some b → u (n + 1) = request .pin i b (u n) ∧
        (¬ HeldValid i b (u n) → ¬ HeldFilling i b (u n) → ¬ InQueue i b (u n) → (u n).bc.fills.length < 16)) ∧
      (∀ b, later.head? = some b → ¬ HeldValid i b (u now.length) ∧ ¬ HeldFilling i b (u now.length) ∧
        ¬ InQueue i b (u now.length) ∧ 16 ≤ (u now.length).bc.fills.length) ∧
      pinBlocks i bs { s with ma := a } = setWaiting later { u now.length with ma := a } := by
  induction bs generalizing s with
  | nil => exact ⟨[], [], fun _ => s, rfl, rfl, by simp, by simp, rfl⟩
  | cons b bs ih =>
    have e1 : needsRoom i b { s with ma := a } = needsRoom i b s := rfl
    have e2 : fillsFull { s with ma := a } = fillsFull s := rfl
    unfold pinBlocks
    rw [e1, e2, request_withMa]
    by_cases hf : (needsRoom i b s && fillsFull s) = true
    · rw [if_pos hf]
      rw [Bool.and_eq_true, needsRoom_iff, fillsFull_iff] at hf
      refine ⟨[], b :: bs, fun _ => s, rfl, rfl, by simp, ?_, rfl⟩
      intro c hc
      cases hc
      exact ⟨hf.1.1, hf.1.2.1, hf.1.2.2, hf.2⟩
    · rw [if_neg hf]
      obtain ⟨now, later, u, hbs, h0, hn, hl, he⟩ := ih (request .pin i b s)
      refine ⟨b :: now, later, fun n => Nat.casesOn n s u, by rw [hbs]; rfl, rfl, ?_, hl, he⟩
      intro n c hc
      cases n with
      | zero =>
        cases hc
        refine ⟨h0, fun h1 h2 h3 => ?_⟩
        change ¬ HeldValid i _ s at h1; change ¬ HeldFilling i _ s at h2; change ¬ InQueue i _ s at h3; show s.bc.fills.length < 16
        by_contra h4
        exact hf (by rw [Bool.and_eq_true, needsRoom_iff, fillsFull_iff]; exact ⟨⟨h1, h2, h3⟩, by omega⟩)
      | succ n => exact hn n c hc

end Sys2Proof.Machine
end

