-- ==== Sys2Proof/Laws/Balance.lean ====
section
/-! SUPPORT. The balance of a running PIN (R87): what it reads of the state, and what requests, the waiting list, the end of a PIN and the
dropping of an image make of it. -/

namespace Sys2Proof.Machine

set_option Elab.async false

open Sys2Proof.Safety

/-- Every FILLING line is that of the fill in flight (R72, R81). -/
def OneFilling (s : State) : Prop :=
  ∀ (l : LineId) (i : ImageId) (b : Nat) (d : Bool), s.bc.lines[l] = .filling i b d →
    ∃ f, s.reader = .fill f ∧ f.line = l ∧ f.img = i ∧ f.blk = b

/-- The balance of a PIN on index `i` whose blocks `w` are still to be taken (R87). -/
def Balance (i : ImageId) (w : List Nat) (s : State) : Prop :=
  w.length + s.bc.fills.countP FillEntry.pin + inFlightPins s = s.bc.reservation ∧ w.Pairwise (· < ·) ∧ s.catSt[i].bad = false ∧
    (∀ e ∈ s.bc.fills, e.pin = true → e.img = i ∧ e.blk ∉ w) ∧
    ∀ f, s.reader = .fill f → f.pin = true → f.img = i ∧ f.blk ∉ w ∧ s.bc.lines[f.line] = .filling i f.blk false ∧
      ∀ e ∈ s.bc.fills, e.pin = true → e.blk ≠ f.blk

/-- No block stands twice in the fill queue (R75). -/
def Distinct (s : State) : Prop := s.bc.fills.Pairwise (fun e f => ¬ (e.img = f.img ∧ e.blk = f.blk))

theorem pinBalance_iff {s : State} : PinBalance s ↔ OneFilling s ∧ ∀ o i w, s.ma.long = some ⟨o, .pin i w⟩ → Balance i w s := Iff.rfl

/-! ## What the balance reads -/

/-- What the balance reads of a queued entry. -/
def FillEntry.mark (e : FillEntry) : ImageId × Nat × Bool := (e.img, e.blk, e.pin)

/-- What the balance reads of the reader. -/
def Reader.mark : Reader → Option (LineId × ImageId × Nat × Bool)
  | .fill f => some (f.line, f.img, f.blk, f.pin)
  | .idle | .erase _ | .program _ _ | .commit | .scan _ => none

/-- What the balance reads of the state but for the PIN itself. -/
def State.marks (s : State) : Vector Line 96 × List (ImageId × Nat × Bool) × Nat × Option (LineId × ImageId × Nat × Bool) × Vector CatStatus 16 :=
  (s.bc.lines, s.bc.fills.map FillEntry.mark, s.bc.reservation, s.reader.mark, vmap (fun c => ⟨c.bad, 0⟩) s.catSt)

theorem mark_fill {r : Reader} {m : LineId × ImageId × Nat × Bool} :
    r.mark = some m ↔ ∃ f, r = .fill f ∧ (f.line, f.img, f.blk, f.pin) = m := by
  cases r <;> simp [Reader.mark]

theorem inFlightPins_mark (s : State) : inFlightPins s = (match s.reader.mark with | some (_, _, _, true) => 1 | _ => 0) := by
  unfold inFlightPins
  cases s.reader with
  | fill f => cases h : f.pin <;> simp [Reader.mark, h]
  | _ => rfl

theorem OneFilling.congr {s t : State} (h : OneFilling s) (hm : t.marks = s.marks) : OneFilling t := by
  simp only [State.marks, Prod.mk.injEq] at hm
  obtain ⟨h1, _, _, h4, _⟩ := hm
  intro l i b d hl
  rw [h1] at hl
  obtain ⟨f, hf, e1, e2, e3⟩ := h l i b d hl
  have : t.reader.mark = some (f.line, f.img, f.blk, f.pin) := by rw [h4, hf]; rfl
  obtain ⟨g, hg, he⟩ := mark_fill.mp this
  simp only [Prod.mk.injEq] at he
  exact ⟨g, hg, he.1.trans e1, he.2.1.trans e2, he.2.2.1.trans e3⟩

theorem Distinct.congr {s t : State} (h : Distinct s) (hm : t.marks = s.marks) : Distinct t := by
  simp only [State.marks, Prod.mk.injEq] at hm
  have key : ∀ l : List FillEntry, l.Pairwise (fun e f => ¬ (e.img = f.img ∧ e.blk = f.blk)) ↔
      (l.map FillEntry.mark).Pairwise (fun e f => ¬ (e.1 = f.1 ∧ e.2.1 = f.2.1)) := by
    intro l; rw [List.pairwise_map]; rfl
  unfold Distinct at *
  rw [key, hm.2.1, ← key]; exact h

theorem Balance.congr {i : ImageId} {w : List Nat} {s t : State} (h : Balance i w s) (hm : t.marks = s.marks) : Balance i w t := by
  simp only [State.marks, Prod.mk.injEq] at hm
  obtain ⟨h1, h2, h3, h4, h5⟩ := hm
  obtain ⟨b1, b2, b3, b4, b5⟩ := h
  have hc : ∀ l : List FillEntry, l.countP FillEntry.pin = (l.map FillEntry.mark).countP (fun m => m.2.2) := by
    intro l; rw [List.countP_map]; rfl
  have hmem : ∀ e ∈ t.bc.fills, ∃ e' ∈ s.bc.fills, e'.img = e.img ∧ e'.blk = e.blk ∧ e'.pin = e.pin := by
    intro e he
    have : e.mark ∈ s.bc.fills.map FillEntry.mark := by rw [← h2]; exact List.mem_map_of_mem he
    obtain ⟨e', he', hx⟩ := List.mem_map.mp this
    simp only [FillEntry.mark, Prod.mk.injEq] at hx
    exact ⟨e', he', hx⟩
  refine ⟨?_, b2, ?_, ?_, ?_⟩
  · rw [inFlightPins_mark, hc, h2, h4, ← hc, ← inFlightPins_mark, h3]; exact b1
  · have := congrArg (fun v : Vector CatStatus 16 => v[i].bad) h5
    simp only [vmap] at this
    have h6 : t.catSt[i].bad = s.catSt[i].bad := by simpa using this
    rw [h6]; exact b3
  · intro e he hp
    obtain ⟨e', he', x1, x2, x3⟩ := hmem e he
    have := b4 e' he' (by rw [x3]; exact hp)
    rw [x1, x2] at this; exact this
  · intro f hf hp
    have : s.reader.mark = some (f.line, f.img, f.blk, f.pin) := by rw [← h4, hf]; rfl
    obtain ⟨g, hg, he⟩ := mark_fill.mp this
    simp only [Prod.mk.injEq] at he
    obtain ⟨x1, x2, x3, x4⟩ := he
    obtain ⟨c1, c2, c3, c4⟩ := b5 g hg (by rw [x4]; exact hp)
    have c3' : t.bc.lines[f.line] = .filling i f.blk false := by
      rw [← x3]; simp only [h1, ← x1]; exact c3
    refine ⟨by rw [← x2]; exact c1, by rw [← x3]; exact c2, c3', ?_⟩
    intro e he hp
    obtain ⟨e', he', y1, y2, y3⟩ := hmem e he
    rw [← y2, ← x3]; exact c4 e' he' (by rw [y3]; exact hp)

/-- Entries without pin-on-complete may join the queue. -/
theorem Balance.append {i : ImageId} {w : List Nat} {s : State} (h : Balance i w s) {e : FillEntry} (he : e.pin = false) :
    Balance i w { s with bc := { s.bc with fills := s.bc.fills ++ [e] } } := by
  obtain ⟨b1, b2, b3, b4, b5⟩ := h
  refine ⟨?_, b2, b3, ?_, ?_⟩
  · show w.length + (s.bc.fills ++ [e]).countP FillEntry.pin + inFlightPins s = _
    rw [List.countP_append]; simp [he]; exact b1
  · intro x hx hp
    rcases List.mem_append.mp hx with hx | hx
    · exact b4 x hx hp
    · simp at hx; subst hx; rw [he] at hp; cases hp
  · intro f hf hp
    obtain ⟨c1, c2, c3, c4⟩ := b5 f hf hp
    refine ⟨c1, c2, c3, ?_⟩
    intro x hx hp
    rcases List.mem_append.mp hx with hx | hx
    · exact c4 x hx hp
    · simp at hx; subst hx; rw [he] at hp; cases hp

/-! ## Requests -/

theorem map_marks {l : List FillEntry} {g : FillEntry → FillEntry} (h : ∀ e, (g e).mark = e.mark) :
    (l.map g).map FillEntry.mark = l.map FillEntry.mark := by
  rw [List.map_map]; exact List.map_congr_left (fun e _ => h e)

/-- A session's or a prefetch request keeps the marks, or adds an entry without pin-on-complete (R76). -/
theorem request_marks {r : Source} (hr : r ≠ .pin) (i : ImageId) (b : Nat) (s : State) : (request r i b s).marks = s.marks ∨
    request r i b s = { s with bc := { s.bc with fills := s.bc.fills ++ [newEntry r i b s] } } ∧ ¬ InQueue i b s := by
  by_cases hv : HeldValid i b s
  · left; rw [request_heldValid hv hr]
  · by_cases hf : HeldFilling i b s
    · left
      unfold request
      rw [validLine_none_iff.mpr hv]
      simp only [fillingHolds_iff.mpr hf, if_true, updFill]
      split
      · next f hrd => simp only [State.marks, hrd]; cases r <;> first | rfl | exact absurd rfl hr
      all_goals rfl
    · by_cases hq : InQueue i b s
      · left; rw [request_queued hv hf hq]
        simp only [State.marks]
        rw [map_marks]
        intro e; split
        · cases r <;> first | rfl | exact absurd rfl hr
        · rfl
      · by_cases hl : 16 ≤ s.bc.fills.length
        · left; rw [request_full hv hf hq hl]
        · right; exact ⟨request_new hv hf hq (by omega) r, hq⟩

theorem newEntry_pin {r : Source} (hr : r ≠ .pin) (i : ImageId) (b : Nat) (s : State) : (newEntry r i b s).pin = false := by
  cases r <;> first | rfl | exact absurd rfl hr

theorem newEntry_block (r : Source) (i : ImageId) (b : Nat) (s : State) : (newEntry r i b s).img = i ∧ (newEntry r i b s).blk = b := by
  cases r <;> exact ⟨rfl, rfl⟩

theorem Distinct.append {s : State} (h : Distinct s) {e : FillEntry} (he : ¬ InQueue e.img e.blk s) :
    Distinct { s with bc := { s.bc with fills := s.bc.fills ++ [e] } } := by
  show (s.bc.fills ++ [e]).Pairwise _
  rw [List.pairwise_append]
  refine ⟨h, by simp, ?_⟩
  intro a ha c hc hx
  simp at hc; subst hc
  exact he ⟨a, ha, hx⟩

/-- What the cache keeps while a PIN's blocks `w` are still to be taken. -/
structure Pins (i : ImageId) (w : List Nat) (s : State) : Prop where
  one : OneFilling s
  distinct : Distinct s
  balance : Balance i w s

theorem Pins.congr {i : ImageId} {w : List Nat} {s t : State} (h : Pins i w s) (hm : t.marks = s.marks) : Pins i w t :=
  ⟨h.one.congr hm, h.distinct.congr hm, h.balance.congr hm⟩

/-- A session's or a prefetch request keeps the balance. -/
theorem Pins.request {i j : ImageId} {w : List Nat} {s : State} (h : Pins i w s) {r : Source} (hr : r ≠ .pin) (b : Nat) :
    Pins i w (Machine.request r j b s) := by
  rcases request_marks hr j b s with hm | ⟨he, hq⟩
  · exact h.congr hm
  · rw [he]
    have hb := newEntry_block r j b s
    exact ⟨h.one, h.distinct.append (by rw [hb.1, hb.2]; exact hq), h.balance.append (newEntry_pin hr j b s)⟩

/-- A pin request for the next block of the PIN (R87): it leaves the blocks still to be taken. -/
theorem Pins.take {i : ImageId} {b : Nat} {bs : List Nat} {s : State} (h : Pins i (b :: bs) s)
    (hroom : needsRoom i b s = true → s.bc.fills.length < 16) : Pins i bs (Machine.request .pin i b s) := by
  obtain ⟨one, dis, b1, b2, b3, b4, b5⟩ := h
  rw [List.pairwise_cons] at b2
  have hbs : b ∉ bs := fun hb => by have := b2.1 b hb; omega
  simp only [List.length_cons] at b1
  by_cases hv : HeldValid i b s
  · obtain ⟨l, hl⟩ := Option.isSome_iff_exists.mp (validLine_isSome_iff.mpr hv)
    have hx : (s.bc.lines[l]).isBlock i b = true := by
      have := List.find?_some hl; exact this
    obtain ⟨p, d, hx⟩ := isBlock_iff.mp hx
    have he : Machine.request .pin i b s = { s with bc := { s.bc with lines := s.bc.lines.set l (.valid i b true d), reservation := s.bc.reservation - 1 } } := by
      unfold Machine.request; rw [hl]; simp only [if_true, pinLine, hx]; rfl
    rw [he]
    refine ⟨?_, dis, ?_, b2.2, b3, ?_, ?_⟩
    · intro m j c q hm
      have hml : m ≠ l := by rintro rfl; simp only [set_same] at hm; cases hm
      simp only [set_other _ hml] at hm
      exact one m j c q hm
    · show bs.length + s.bc.fills.countP FillEntry.pin + inFlightPins s = s.bc.reservation - 1; omega
    · intro e he hp; exact ⟨(b4 e he hp).1, fun hb => (b4 e he hp).2 (by simp [hb])⟩
    · intro f hf hp
      obtain ⟨c1, c2, c3, c4⟩ := b5 f hf hp
      have hfl : f.line ≠ l := by intro e; simp only [e, hx] at c3; cases c3
      refine ⟨c1, fun hb => c2 (by simp [hb]), ?_, c4⟩
      simp only [set_other _ hfl]; exact c3
  · by_cases hf : HeldFilling i b s
    · obtain ⟨l, hl⟩ := hf.2
      obtain ⟨f, hr, f1, f2, f3⟩ := one l i b false hl
      have hp : f.pin = false := by
        rw [← Bool.not_eq_true]; intro hp
        have := (b5 f hr hp).2.1; rw [f3] at this; simp at this
      rw [request_heldFilling hv hf hr]
      have hi0 : inFlightPins s = 0 := by unfold inFlightPins; rw [hr]; simp [hp]
      refine ⟨?_, dis, ?_, b2.2, b3, ?_, ?_⟩
      · intro m j c q hm
        obtain ⟨g, hg, g1, g2, g3⟩ := one m j c q hm
        rw [hr] at hg; injection hg with hg; subst hg
        exact ⟨_, rfl, g1, g2, g3⟩
      · show bs.length + s.bc.fills.countP FillEntry.pin + 1 = s.bc.reservation; omega
      · intro e he hp; exact ⟨(b4 e he hp).1, fun hb => (b4 e he hp).2 (by simp [hb])⟩
      · intro g hg _
        injection hg with hg; subst hg
        refine ⟨f2, by show f.blk ∉ bs; rw [f3]; exact hbs, ?_, ?_⟩
        · show s.bc.lines[f.line] = Line.filling i f.blk false; simp only [f1, hl, f3]
        · intro e he hp hc
          have := (b4 e he hp).2
          have hc' : e.blk = b := hc.trans f3
          rw [hc'] at this; simp at this
    · by_cases hq : InQueue i b s
      · rw [request_queued hv hf hq]
        obtain ⟨e0, he0, q1, q2⟩ := hq
        have hp0 : e0.pin = false := by
          rw [← Bool.not_eq_true]; intro hp
          have := (b4 e0 he0 hp).2; rw [q2] at this; simp at this
        have hcount : ∀ l : List FillEntry, l.Pairwise (fun e f => ¬ (e.img = f.img ∧ e.blk = f.blk)) → e0 ∈ l →
            (∀ e ∈ l, e.img = i → e.blk = b → e.pin = false) →
            (l.map (fun e => if e.img = i ∧ e.blk = b then e.join .pin s else e)).countP FillEntry.pin = l.countP FillEntry.pin + 1 := by
          intro l
          induction l with
          | nil => intro _ h; cases h
          | cons a as ih =>
            intro hd hm hno
            rw [List.pairwise_cons] at hd
            rw [List.map_cons, List.countP_cons, List.countP_cons]
            by_cases ha : a.img = i ∧ a.blk = b
            · have hnone : as.map (fun e => if e.img = i ∧ e.blk = b then e.join .pin s else e) = as := by
                rw [List.map_congr_left (g := id)]
                · simp
                · intro e he
                  rw [if_neg]; · rfl
                  rintro ⟨x1, x2⟩
                  exact hd.1 e he ⟨ha.1.trans x1.symm, ha.2.trans x2.symm⟩
              rw [hnone, if_pos ha, hno a (by simp) ha.1 ha.2]
              simp [FillEntry.join]
            · rw [if_neg ha]
              have : e0 ∈ as := by
                rcases List.mem_cons.mp hm with rfl | h
                · exact absurd ⟨q1, q2⟩ ha
                · exact h
              rw [ih hd.2 this (fun e he => hno e (by simp [he]))]; omega
        have hc := hcount s.bc.fills dis he0 (by
          intro e he x1 x2
          rw [← Bool.not_eq_true]; intro hp
          have := (b4 e he hp).2; rw [x2] at this; simp at this)
        have hmem : ∀ e ∈ s.bc.fills.map (fun e => if e.img = i ∧ e.blk = b then e.join .pin s else e), e.pin = true →
            e.img = i ∧ (e.blk = b ∨ ∃ e' ∈ s.bc.fills, e'.pin = true ∧ e'.blk = e.blk) := by
          intro e he hp
          obtain ⟨e', he', rfl⟩ := List.mem_map.mp he
          by_cases hx : e'.img = i ∧ e'.blk = b
          · rw [if_pos hx]; exact ⟨hx.1, .inl hx.2⟩
          · rw [if_neg hx] at hp ⊢; exact ⟨(b4 e' he' hp).1, .inr ⟨e', he', hp, rfl⟩⟩
        refine ⟨one, ?_, ?_, b2.2, b3, ?_, ?_⟩
        · show (s.bc.fills.map _).Pairwise _
          rw [List.pairwise_map]
          refine dis.imp ?_
          intro x y hxy
          have hk : ∀ e : FillEntry, (if e.img = i ∧ e.blk = b then e.join .pin s else e).img = e.img ∧ (if e.img = i ∧ e.blk = b then e.join .pin s else e).blk = e.blk := by
            intro e; split <;> exact ⟨rfl, rfl⟩
          rw [(hk x).1, (hk x).2, (hk y).1, (hk y).2]; exact hxy
        · show bs.length + (s.bc.fills.map _).countP FillEntry.pin + inFlightPins s = s.bc.reservation
          rw [hc]; omega
        · intro e he hp
          obtain ⟨x1, x2⟩ := hmem e he hp
          refine ⟨x1, ?_⟩
          rcases x2 with x2 | ⟨e', he', p', x2⟩
          · rw [x2]; exact hbs
          · rw [← x2]; intro hb; exact (b4 e' he' p').2 (by simp [hb])
        · intro f hf' hp
          obtain ⟨c1, c2, c3, c4⟩ := b5 f hf' hp
          refine ⟨c1, fun hb => c2 (by simp [hb]), c3, ?_⟩
          intro e he hpe
          obtain ⟨_, x2⟩ := hmem e he hpe
          rcases x2 with x2 | ⟨e', he', p', x2⟩
          · rw [x2]; intro hx; exact c2 (by simp [hx])
          · rw [← x2]; exact c4 e' he' p'
      · have hl := hroom (needsRoom_iff.mpr ⟨hv, hf, hq⟩)
        rw [request_new hv hf hq hl]
        refine ⟨one, dis.append (e := newEntry .pin i b s) hq, ?_, b2.2, b3, ?_, ?_⟩
        · show bs.length + (s.bc.fills ++ [newEntry .pin i b s]).countP FillEntry.pin + inFlightPins s = s.bc.reservation
          rw [List.countP_append]; simp [newEntry]; omega
        · intro e he hp
          rcases List.mem_append.mp he with he | he
          · exact ⟨(b4 e he hp).1, fun hb => (b4 e he hp).2 (by simp [hb])⟩
          · simp at he; subst he; exact ⟨rfl, hbs⟩
        · intro f hf' hp
          obtain ⟨c1, c2, c3, c4⟩ := b5 f hf' hp
          refine ⟨c1, fun hb => c2 (by simp [hb]), c3, ?_⟩
          intro e he hpe
          rcases List.mem_append.mp he with he | he
          · exact c4 e he hpe
          · simp at he; subst he; intro hx
            have hx' : b = f.blk := hx
            exact c2 (by simp [hx'])

/-! ## The state that a running PIN leaves -/

/-- No pin-on-complete and no reservation. -/
def NoPins (s : State) : Prop := s.bc.fills.countP FillEntry.pin = 0 ∧ inFlightPins s = 0 ∧ s.bc.reservation = 0

/-- The running PIN: its index and the blocks that wait. -/
def State.pinOf (s : State) : Option (ImageId × List Nat) :=
  match s.ma.long with
  | some ⟨_, .pin i w⟩ => some (i, w)
  | _ => none

/-- The balance in every state: that of the running PIN, or nothing reserved and no mark where none runs (R86, R87). -/
structure Held (s : State) : Prop where
  one : OneFilling s
  distinct : Distinct s
  runs : ∀ i w, s.pinOf = some (i, w) → Balance i w s
  rests : s.pinOf = none → NoPins s

theorem pinOf_some {s : State} {i : ImageId} {w : List Nat} : s.pinOf = some (i, w) ↔ ∃ o, s.ma.long = some ⟨o, .pin i w⟩ := by
  unfold State.pinOf
  split
  · next o j v h =>
    rw [h]
    constructor
    · intro hx; cases hx; exact ⟨o, rfl⟩
    · rintro ⟨p, hp⟩; cases hp; rfl
  · next h => exact ⟨fun hx => (by cases hx), fun ⟨o, ho⟩ => absurd ho (h _ _ _)⟩

theorem pinImage_pinOf (s : State) : pinImage s = s.pinOf.map Prod.fst := by
  unfold pinImage State.pinOf; split <;> simp_all

theorem pinWaiting_pinOf (s : State) : pinWaiting s = (s.pinOf.map Prod.snd).getD [] := by
  unfold pinWaiting State.pinOf; split <;> simp_all

/-- Under the law of pins, the stated balance gives the form used here. -/
theorem held_of {s : State} (hp : PinLaw s) (hb : PinBalance s) : Held s := by
  refine ⟨hb.1, hp.2.2.2.1, ?_, ?_⟩
  · intro i w h
    obtain ⟨o, ho⟩ := pinOf_some.mp h
    exact hb.2 o i w ho
  · intro h
    have hr := hp.2.2.1 (by rw [pinImage_pinOf, h]; rfl)
    have h2 := hp.2.1
    refine ⟨by omega, by omega, hr⟩

theorem Held.pinBalance {s : State} (h : Held s) : PinBalance s := ⟨h.one, fun o i w hl => h.runs i w (pinOf_some.mpr ⟨o, hl⟩)⟩

/-- All that the balance reads. -/
def State.pinKey (s : State) := (s.marks, s.pinOf)

theorem NoPins.congr {s t : State} (h : NoPins s) (hm : t.marks = s.marks) : NoPins t := by
  simp only [State.marks, Prod.mk.injEq] at hm
  obtain ⟨h1, h2, h3, h4, h5⟩ := hm
  obtain ⟨b1, b2, b3⟩ := h
  have hc : ∀ l : List FillEntry, l.countP FillEntry.pin = (l.map FillEntry.mark).countP (fun m => m.2.2) := by
    intro l; rw [List.countP_map]; rfl
  exact ⟨by rw [hc, h2, ← hc]; exact b1, by rw [inFlightPins_mark, h4, ← inFlightPins_mark]; exact b2, by rw [h3]; exact b3⟩

theorem Held.congr {s t : State} (h : Held s) (hk : t.pinKey = s.pinKey) : Held t := by
  have hm : t.marks = s.marks := congrArg Prod.fst hk
  have hp : t.pinOf = s.pinOf := congrArg Prod.snd hk
  exact ⟨h.one.congr hm, h.distinct.congr hm, fun i w hw => (h.runs i w (hp ▸ hw)).congr hm, fun hn => (h.rests (hp ▸ hn)).congr hm⟩

/-- No PIN runs and nothing is marked. -/
theorem Held.idle {s : State} (h1 : OneFilling s) (h2 : Distinct s) (h3 : NoPins s) (h4 : s.pinOf = none) : Held s :=
  ⟨h1, h2, fun i w h => (by rw [h4] at h; cases h), fun _ => h3⟩

/-- A PIN on index `i` runs with the blocks `w` waiting. -/
theorem Pins.held {i : ImageId} {w : List Nat} {s : State} (h : Pins i w s) (hp : s.pinOf = some (i, w)) : Held s :=
  ⟨h.one, h.distinct, fun j v hv => (by rw [hp] at hv; cases hv; exact h.balance), fun hn => (by rw [hp] at hn; cases hn)⟩

theorem Held.pins {i : ImageId} {w : List Nat} {s : State} (h : Held s) (hp : s.pinOf = some (i, w)) : Pins i w s :=
  ⟨h.one, h.distinct, h.runs i w hp⟩

theorem pinKey_of {s t : State} (h1 : t.bc = s.bc) (h2 : t.reader = s.reader) (h3 : t.catSt = s.catSt) (h4 : t.ma.long = s.ma.long) :
    t.pinKey = s.pinKey := by unfold State.pinKey State.marks State.pinOf; rw [h1, h2, h3, h4]

theorem pinKey_of_noLinks {s t : State} (h : t.noLinks = s.noLinks) : t.pinKey = s.pinKey := by
  have := of_noLinks h; exact pinKey_of this.2.2.2.2.2.2.2.1 this.2.2.2.2.2.2.2.2.1 this.2.2.2.2.2.1 (by rw [this.2.2.2.2.2.2.2.2.2.2.2.2.1])

theorem pinKey_of_noReply {s t : State} (h : t.noReply = s.noReply) (hl : t.ma.long = s.ma.long) : t.pinKey = s.pinKey := by
  have := of_noReply h; exact pinKey_of this.2.2.2.2.2.2.2.1 this.2.2.2.2.2.2.2.2.1 this.2.2.2.2.2.1 hl

theorem marks_of_noReply {s t : State} (h : t.noReply = s.noReply) : t.marks = s.marks := by
  have := of_noReply h; unfold State.marks; rw [this.2.2.2.2.2.2.2.1, this.2.2.2.2.2.2.2.2.1, this.2.2.2.2.2.1]

/-! ## Replies and the end of the long operation -/

@[simp] theorem finalReply_pinKey (o : Origin) (st : Status) (d : List Byte) (x : Bool) (s : State) :
    (finalReply o st d x s).pinKey = s.pinKey := pinKey_of_noReply (finalReply_noReply o st d x s) (finalReply_long o st d x s)

@[simp] theorem placeOne_pinKey (s : State) : (placeOne s).pinKey = s.pinKey :=
  pinKey_of_noReply (placeOne_noReply s) (placeReplies_long 1 s)

@[simp] theorem queueReply_pinKey (r : BuiltReply) (s : State) : (queueReply r s).pinKey = s.pinKey :=
  pinKey_of_noReply (queueReply_noReply r s) (by unfold queueReply; rw [placeReplies_long]; rfl)

@[simp] theorem turnPointer_pinKey (o : Origin) (s : State) : (turnPointer o s).pinKey = s.pinKey := rfl

theorem endLong_pinOf (st : Status) (d : List Byte) (s : State) : (endLong st d s).pinOf = none := by
  unfold State.pinOf; rw [endLong_long]

theorem endLong_marks (st : Status) (d : List Byte) (s : State) : (endLong st d s).marks = s.marks :=
  marks_of_noReply (endLong_noReply st d s)

/-- The end of the long operation where nothing is marked. -/
theorem held_endLong {s : State} (h1 : OneFilling s) (h2 : Distinct s) (h3 : NoPins s) (st : Status) (d : List Byte) :
    Held (endLong st d s) :=
  have hm := endLong_marks st d s
  .idle (h1.congr hm) (h2.congr hm) (h3.congr hm) (endLong_pinOf st d s)

/-- The end of a long operation that is no PIN. -/
theorem Held.endLong {s : State} (h : Held s) (hp : s.pinOf = none) (st : Status) (d : List Byte) : Held (Machine.endLong st d s) :=
  held_endLong h.one h.distinct (h.rests hp) st d

/-- A spent reservation leaves nothing marked. -/
theorem Balance.noPins {i : ImageId} {w : List Nat} {s : State} (h : Balance i w s) (hr : s.bc.reservation = 0) : NoPins s := by
  have := h.1; exact ⟨by omega, by omega, hr⟩

/-- The end of a spent PIN (R87). -/
theorem Pins.done {i : ImageId} {w : List Nat} {s : State} (h : Pins i w s) (hp : s.pinOf = some (i, w)) : Held (pinDone s) := by
  unfold pinDone
  split
  · next hx => exact held_endLong h.one h.distinct (h.balance.noPins hx.2) _ _
  · exact h.held hp

/-- Pin-on-complete cleared everywhere (R88). -/
theorem clearPinMarks_spec {s : State} (h1 : OneFilling s) (h2 : Distinct s) :
    OneFilling (clearPinMarks s) ∧ Distinct (clearPinMarks s) ∧ NoPins (clearPinMarks s) := by
  have hf : (clearPinMarks s).bc.fills = s.bc.fills.map (fun e => { e with pin := false }) := by unfold clearPinMarks updFill; split <;> rfl
  have hl : (clearPinMarks s).bc.lines = s.bc.lines := by unfold clearPinMarks updFill; split <;> rfl
  have hr : (clearPinMarks s).bc.reservation = 0 := by unfold clearPinMarks updFill; split <;> rfl
  refine ⟨?_, ?_, ?_, ?_, hr⟩
  · intro l i b d hx
    rw [hl] at hx
    obtain ⟨f, hf, e⟩ := h1 l i b d hx
    refine ⟨{ f with pin := false }, ?_, e⟩
    unfold clearPinMarks updFill
    simp only [updBc, hf]
  · unfold Distinct; rw [hf, List.pairwise_map]; exact h2
  · rw [hf, List.countP_map, List.countP_eq_zero]; intro e _; simp
  · unfold inFlightPins clearPinMarks updFill
    cases hrd : s.reader <;> simp [updBc, hrd]

/-- A PIN that ends before its reservation is spent leaves nothing marked, whatever was withdrawn before (R88). -/
theorem held_endPin {s : State} (h1 : OneFilling s) (h2 : Distinct s) {i : ImageId} {w : List Nat} (hp : s.pinOf = some (i, w)) (st : Status) :
    Held (endPin st s) := by
  have hi : pinImage s = some i := by rw [pinImage_pinOf, hp]; rfl
  unfold endPin; rw [hi]
  obtain ⟨a, b, c⟩ := clearPinMarks_spec h1 h2
  exact held_endLong a b c _ _

/-! ## The waiting list -/

theorem setWaiting_pinOf {i : ImageId} {v : List Nat} {s : State} (h : s.pinOf = some (i, v)) (w : List Nat) :
    (setWaiting w s).pinOf = some (i, w) := by
  obtain ⟨o, ho⟩ := pinOf_some.mp h
  rw [setWaiting_pin ho]; rfl

theorem setWaiting_marks (w : List Nat) (s : State) : (setWaiting w s).marks = s.marks := by
  unfold setWaiting; split <;> rfl

theorem Pins.setWaiting {i : ImageId} {w v : List Nat} {s : State} (h : Pins i w s) (hp : s.pinOf = some (i, v)) :
    Pins i w (Machine.setWaiting w s) ∧ (Machine.setWaiting w s).pinOf = some (i, w) :=
  ⟨h.congr (setWaiting_marks w s), setWaiting_pinOf hp w⟩

theorem request_pinOf (r : Source) (i : ImageId) (b : Nat) (s : State) : (request r i b s).pinOf = s.pinOf := by
  unfold State.pinOf; rw [request_ma]

/-- Blocks taken from the head of the list (R87). -/
theorem Pins.takeWaiting {i : ImageId} {bs v : List Nat} {s : State} (h : Pins i bs s) (hp : s.pinOf = some (i, v)) :
    ∃ w, Pins i w (Machine.takeWaiting i bs s) ∧ (Machine.takeWaiting i bs s).pinOf = some (i, w) := by
  induction bs generalizing s with
  | nil => exact ⟨[], h.setWaiting hp⟩
  | cons b bs ih =>
    unfold Machine.takeWaiting
    split
    · exact ⟨_, h.setWaiting hp⟩
    · next hf =>
      have hl : s.bc.fills.length < 16 := by
        have : ¬ 16 ≤ s.bc.fills.length := fun hx => hf (fillsFull_iff.mpr hx)
        omega
      exact ih (h.take (fun _ => hl)) (by rw [request_pinOf]; exact hp)

/-- Blocks taken at acceptance (R87). -/
theorem Pins.blocks {i : ImageId} {bs v : List Nat} {s : State} (h : Pins i bs s) (hp : s.pinOf = some (i, v)) :
    ∃ w, Pins i w (pinBlocks i bs s) ∧ (pinBlocks i bs s).pinOf = some (i, w) := by
  induction bs generalizing s with
  | nil => exact ⟨[], h.setWaiting hp⟩
  | cons b bs ih =>
    unfold pinBlocks
    split
    · exact ⟨_, h.setWaiting hp⟩
    · next hf =>
      refine ih (h.take ?_) (by rw [request_pinOf]; exact hp)
      intro hn
      by_contra hx
      exact hf (by simp only [hn, Bool.true_and]; exact fillsFull_iff.mpr (by omega))

/-- The waiting list takes the freed room (R87). -/
theorem Held.placeWaiting {s : State} (h : Held s) : Held (Machine.placeWaiting s) := by
  unfold Machine.placeWaiting
  split
  · next i hi =>
    rw [pinImage_pinOf] at hi
    obtain ⟨⟨j, w⟩, hp, rfl⟩ := Option.map_eq_some_iff.mp hi
    split
    · exact h
    · have hw : pinWaiting s = w := by rw [pinWaiting_pinOf, hp]; rfl
      rw [hw]
      obtain ⟨v, hv, hvp⟩ := (h.pins hp).takeWaiting hp
      exact hv.done hvp
  · exact h

/-! ## Session and prefetch requests -/

theorem Held.request {s : State} (h : Held s) {r : Source} (hr : r ≠ .pin) (i : ImageId) (b : Nat) : Held (Machine.request r i b s) := by
  cases hp : s.pinOf with
  | some p => exact ((h.pins hp).request hr b).held (by rw [request_pinOf]; exact hp)
  | none =>
    rcases request_marks hr i b s with hm | ⟨he, hq⟩
    · exact h.congr (Prod.ext hm (request_pinOf r i b s))
    · have hb := newEntry_block r i b s
      obtain ⟨a, c, d⟩ := h.rests hp
      rw [he]
      refine .idle h.one (h.distinct.append (by rw [hb.1, hb.2]; exact hq)) ⟨?_, c, d⟩ hp
      show (s.bc.fills ++ [newEntry r i b s]).countP FillEntry.pin = 0
      rw [List.countP_append, a]; simp [newEntry_pin hr]

theorem Held.foldl {α : Type} {f : State → α → State} (hf : ∀ s a, Held s → Held (f s a)) {s : State} (h : Held s) (l : List α) :
    Held (l.foldl f s) := by
  induction l generalizing s with
  | nil => exact h
  | cons a l ih => exact ih (hf s a h)

theorem Held.requestBlock {s : State} (h : Held s) (k : SlotId) (i : ImageId) (b : Nat) : Held (Machine.requestBlock k i b s) := by
  unfold Machine.requestBlock; split
  · exact h
  · exact h.request (r := .session k) (by simp) i b

theorem Held.requestBlocks {s : State} (h : Held s) (k : SlotId) : Held (Machine.requestBlocks k s) := by
  unfold Machine.requestBlocks; split
  · split
    · exact h.foldl (fun s b hs => hs.requestBlock k _ b) _
    · exact h
  · exact h

theorem Held.requestAll {s : State} (h : Held s) : Held (Machine.requestAll s) := h.foldl (fun _ k hs => hs.requestBlocks k) _

theorem Held.afterWithdraw {s : State} (h : Held s) (b : Bool) : Held (Machine.afterWithdraw b s) := by
  unfold Machine.afterWithdraw; split
  · exact h.placeWaiting.requestAll
  · exact h

/-! ## Sessions and slots -/

@[simp] theorem updSlot_pinKey (k : SlotId) (g : SlotStatus → SlotStatus) (s : State) : (updSlot k g s).pinKey = s.pinKey := rfl

@[simp] theorem raise_pinKey (c : AttnCause) (j : Subject) (d : Option Cause) (s : State) : (raise c j d s).pinKey = s.pinKey := rfl

theorem updCat_marks {i : ImageId} {g : CatStatus → CatStatus} {s : State} (hg : (g s.catSt[i]).bad = s.catSt[i].bad) :
    (updCat i g s).marks = s.marks := by
  have : vmap (fun c : CatStatus => (⟨c.bad, 0⟩ : CatStatus)) (vmod s.catSt i g) = vmap (fun c => ⟨c.bad, 0⟩) s.catSt := by
    apply Vector.ext
    intro j hj
    show (vmap _ _)[(⟨j, hj⟩ : Fin 16)] = (vmap _ _)[(⟨j, hj⟩ : Fin 16)]
    rw [vmap_get, vmap_get]
    by_cases h : (⟨j, hj⟩ : Fin 16) = i
    · rw [h, vmod_same, hg]
    · rw [vmod_other _ h]
  unfold State.marks; simp only [updCat_frame, updCat_catSt, this]

theorem updCat_pinKey {i : ImageId} {g : CatStatus → CatStatus} {s : State} (hg : (g s.catSt[i]).bad = s.catSt[i].bad) :
    (updCat i g s).pinKey = s.pinKey := Prod.ext (updCat_marks hg) rfl

theorem withdrawSlot_marks (k : SlotId) (s : State) : (withdrawSlot k s).marks = s.marks := by
  have hf : (withdrawSlot k s).bc.fills = s.bc.fills.map (fun e =>
      if e.reqs.contains k then { e with reqs := e.reqs.filter (· ≠ k), rank := rankOf (e.reqs.filter (· ≠ k)) s } else e) := by
    unfold withdrawSlot updFill; split <;> rfl
  have h1 : (withdrawSlot k s).bc.lines = s.bc.lines ∧ (withdrawSlot k s).bc.reservation = s.bc.reservation ∧
      (withdrawSlot k s).catSt = s.catSt ∧ (withdrawSlot k s).reader.mark = s.reader.mark := by
    unfold withdrawSlot updFill; split <;> simp_all [Reader.mark]
  unfold State.marks
  rw [hf, map_marks, h1.1, h1.2.1, h1.2.2.1, h1.2.2.2]
  intro e; split <;> rfl

@[simp] theorem withdrawSlot_pinKey (k : SlotId) (s : State) : (withdrawSlot k s).pinKey = s.pinKey :=
  Prod.ext (withdrawSlot_marks k s) (by show (withdrawSlot k s).pinOf = s.pinOf; unfold State.pinOf; rw [(of_noCache (withdrawSlot_noCache k s)).2.2.2.2.2.2.2.2.2.2.2.2.2.1])

@[simp] theorem endSession_pinKey (k : SlotId) (s : State) : (endSession k s).pinKey = s.pinKey := by
  unfold endSession; split
  · rfl
  · next x _ =>
    show (updCat x.img (fun c => { c with users := c.users - 1 }) (withdrawSlot k s)).pinKey = _
    rw [updCat_pinKey rfl, withdrawSlot_pinKey]

@[simp] theorem flushHold_pinKey (k : SlotId) (s : State) : (flushHold k s).pinKey = s.pinKey := pinKey_of_noLinks (flushHold_noLinks k s)

/-- A failure leaves the marks and the PIN (R20). -/
@[simp] theorem failSlot_pinKey (k : SlotId) (c : Cause) (s : State) : (failSlot k c s).pinKey = s.pinKey := by
  rw [failSlot_only]
  exact (show _ = (flushHold k (endSession k s)).pinKey from rfl).trans (by simp)

@[simp] theorem failUsers_pinKey (i : ImageId) (s : State) : (failUsers i s).pinKey = s.pinKey := by
  unfold failUsers
  rw [forFree_keeps State.pinKey]
  · intro s k; simp
  · intro s n; rfl

theorem Held.openSession {s : State} (h : Held s) (k : SlotId) (i : ImageId) (w : Bool) : Held (Machine.openSession k i w s) := by
  unfold Machine.openSession
  refine Held.requestBlocks ?_ k
  exact (h.congr (updSlot_pinKey k _ s)).congr (updCat_pinKey (i := i) (g := fun c => { c with users := c.users + 1 }) rfl)

/-! ## What drops an image -/

theorem isOf_filling {i j : ImageId} {b : Nat} {d : Bool} : (Line.filling j b d).isOf i = false := rfl

/-- Lines change, but no FILLING line appears or goes. -/
theorem OneFilling.lines {s t : State} (h : OneFilling s) (hr : t.reader.mark = s.reader.mark)
    (hl : ∀ (l : LineId) i b d, t.bc.lines[l] = .filling i b d → s.bc.lines[l] = .filling i b d) : OneFilling t := by
  intro l i b d hx
  obtain ⟨f, hf, e1, e2, e3⟩ := h l i b d (hl l i b d hx)
  have : t.reader.mark = some (f.line, f.img, f.blk, f.pin) := by rw [hr, hf]; rfl
  obtain ⟨g, hg, he⟩ := mark_fill.mp this
  simp only [Prod.mk.injEq] at he
  exact ⟨g, hg, he.1.trans e1, he.2.1.trans e2, he.2.2.1.trans e3⟩

/-- VALID lines change alone. -/
theorem Balance.lines {i : ImageId} {w : List Nat} {s t : State} (h : Balance i w s) (hq : t.bc.fills = s.bc.fills)
    (hv : t.bc.reservation = s.bc.reservation) (hr : t.reader = s.reader) (hc : t.catSt[i].bad = s.catSt[i].bad)
    (hl : ∀ (l : LineId) j b d, s.bc.lines[l] = .filling j b d → t.bc.lines[l] = .filling j b d) : Balance i w t := by
  obtain ⟨b1, b2, b3, b4, b5⟩ := h
  refine ⟨?_, b2, by rw [hc]; exact b3, by rw [hq]; exact b4, ?_⟩
  · unfold inFlightPins; rw [hq, hv, hr]; exact b1
  · intro f hf hp
    rw [hr] at hf
    obtain ⟨c1, c2, c3, c4⟩ := b5 f hf hp
    exact ⟨c1, c2, hl _ _ _ _ c3, by rw [hq]; exact c4⟩

/-- VALID lines change alone. -/
theorem Held.lines {s t : State} (h : Held s) (hq : t.bc.fills = s.bc.fills) (hv : t.bc.reservation = s.bc.reservation)
    (hr : t.reader = s.reader) (hc : t.catSt = s.catSt) (hm : t.pinOf = s.pinOf)
    (hl : ∀ (l : LineId) j b d, s.bc.lines[l] = .filling j b d ↔ t.bc.lines[l] = .filling j b d) : Held t := by
  refine ⟨h.one.lines (by rw [hr]) (fun l i b d => (hl l i b d).mpr), ?_, ?_, ?_⟩
  · unfold Distinct; rw [hq]; exact h.distinct
  · intro i w hw; exact (h.runs i w (hm ▸ hw)).lines hq hv hr (by rw [hc]) (fun l j b d => (hl l j b d).mp)
  · intro hn
    obtain ⟨a, b, c⟩ := h.rests (hm ▸ hn)
    exact ⟨by rw [hq]; exact a, by unfold inFlightPins at *; rw [hr]; exact b, by rw [hv]; exact c⟩

theorem vmap_filling {f : Line → Line} (hf : ∀ x j b d, f x = .filling j b d ↔ x = .filling j b d) (v : Vector Line 96) (l : LineId) (j : ImageId)
    (b : Nat) (d : Bool) : v[l] = .filling j b d ↔ (vmap f v)[l] = .filling j b d := by rw [vmap_get]; exact (hf _ _ _ _).symm

theorem dropped_filling (i : ImageId) (x : Line) (j : ImageId) (b : Nat) (d : Bool) :
    (if x.isOf i then .empty else x) = .filling j b d ↔ x = .filling j b d := by
  cases x with
  | empty => simp [Line.isOf]
  | filling => simp [Line.isOf]
  | valid k c p e => by_cases hk : k = i <;> simp [Line.isOf, hk]

theorem OneFilling.dropLines {s : State} (h : OneFilling s) (i : ImageId) : OneFilling (Machine.dropLines i s) :=
  h.lines rfl (fun l j b d hx => (vmap_filling (dropped_filling i) s.bc.lines l j b d).mpr hx)

/-- Every VALID line of an index emptied (R61, R84, R91). -/
theorem Held.dropLines {s : State} (h : Held s) (i : ImageId) : Held (Machine.dropLines i s) :=
  h.lines rfl rfl rfl rfl rfl (fun l j b d => vmap_filling (dropped_filling i) s.bc.lines l j b d)

/-- Pins of a range released (R89). -/
theorem Held.unpinLines {s : State} (h : Held s) (i : ImageId) (first last : Nat) :
    Held (updBc (fun c => { c with lines := vmap (Line.unpin i first last) c.lines }) s) := by
  refine h.lines rfl rfl rfl rfl rfl (fun l j b d => vmap_filling ?_ s.bc.lines l j b d)
  intro x j b d
  cases x with
  | empty => simp [Line.unpin]
  | filling => simp [Line.unpin]
  | valid k c p e => simp only [Line.unpin]; split <;> simp

/-- Queued entries withdrawn (R78). -/
theorem Distinct.filter {s t : State} (h : Distinct s) {p : FillEntry → Bool} (ht : t.bc.fills = s.bc.fills.filter p) : Distinct t := by
  unfold Distinct; rw [ht]; exact List.Pairwise.filter p h

theorem Balance.dropFills {i j : ImageId} {w : List Nat} {s : State} (h : Balance j w s) (hi : i ≠ j) :
    Balance j w (Machine.dropFills i s) := by
  obtain ⟨b1, b2, b3, b4, b5⟩ := h
  have hc : (s.bc.fills.filter (fun e => decide (e.img ≠ i))).countP FillEntry.pin = s.bc.fills.countP FillEntry.pin := by
    rw [List.countP_filter]
    refine List.countP_congr (fun e he => ?_)
    simp only [Bool.and_eq_true, decide_eq_true_eq, and_iff_left_iff_imp]
    intro hp hx; exact hi ((hx.symm.trans (b4 e he hp).1))
  refine ⟨?_, b2, b3, ?_, ?_⟩
  · show w.length + (s.bc.fills.filter _).countP FillEntry.pin + inFlightPins s = s.bc.reservation
    rw [hc]; exact b1
  · intro e he hp; exact b4 e (List.mem_filter.mp he).1 hp
  · intro f hf hp
    obtain ⟨c1, c2, c3, c4⟩ := b5 f hf hp
    exact ⟨c1, c2, c3, fun e he => c4 e (List.mem_filter.mp he).1⟩

theorem NoPins.filter {s t : State} (h : NoPins s) {p : FillEntry → Bool} (ht : t.bc.fills = s.bc.fills.filter p) (hr : t.reader = s.reader)
    (hv : t.bc.reservation = s.bc.reservation) : NoPins t := by
  obtain ⟨a, b, c⟩ := h
  refine ⟨?_, by unfold inFlightPins at *; rw [hr]; exact b, by rw [hv]; exact c⟩
  rw [ht, List.countP_eq_zero] at *
  intro e he; exact a e (List.mem_filter.mp he).1

/-- Entries of an index without a PIN withdrawn. -/
theorem Held.dropFills {s : State} (h : Held s) {i : ImageId} (hi : pinImage s ≠ some i) : Held (Machine.dropFills i s) := by
  refine ⟨h.one, h.distinct.filter rfl, ?_, fun hn => (h.rests hn).filter rfl rfl rfl⟩
  intro j w hw
  refine (h.runs j w hw).dropFills ?_
  rintro rfl
  exact hi (by rw [pinImage_pinOf]; show s.pinOf.map Prod.fst = _; rw [show s.pinOf = some (i, w) from hw]; rfl)

theorem discardFill_one {s : State} (h : OneFilling s) (i : ImageId) : OneFilling (discardFill i s) := by
  unfold discardFill
  split
  · next f hf =>
    split
    · next hi =>
      intro l j b d hx
      have hr : (setLine f.line (.filling f.img f.blk true) (updFill (fun f => { f with reqs := [], pin := false, pre := false }) s)).reader =
          .fill { f with reqs := [], pin := false, pre := false } := by unfold updFill; rw [hf]; rfl
      have hb : (setLine f.line (.filling f.img f.blk true) (updFill (fun f => { f with reqs := [], pin := false, pre := false }) s)).bc.lines =
          s.bc.lines.set f.line (.filling f.img f.blk true) := by unfold updFill; rw [hf]; rfl
      rw [hb] at hx
      refine ⟨_, hr, ?_⟩
      by_cases hl : l = f.line
      · subst hl
        rw [set_same] at hx; cases hx; exact ⟨rfl, rfl, rfl⟩
      · rw [set_other _ hl] at hx
        obtain ⟨g, hg, e⟩ := h l j b d hx
        rw [hf] at hg; cases hg; exact e
    · exact h
  all_goals exact h

theorem discardFill_bc (i : ImageId) (s : State) :
    (discardFill i s).bc.fills = s.bc.fills ∧ (discardFill i s).bc.reservation = s.bc.reservation ∧ (discardFill i s).catSt = s.catSt ∧
      (discardFill i s).ma = s.ma := by
  have h := of_noCache (discardFill_noCache i s)
  refine ⟨?_, ?_, h.2.2.2.2.2.1, h.2.2.2.2.2.2.2.2.2.2.2.2.2.1⟩ <;>
  · unfold discardFill updFill
    split
    · split <;> rfl
    all_goals rfl

theorem discardFill_same {i : ImageId} {s : State} (h : ∀ f, s.reader = .fill f → f.img ≠ i) : discardFill i s = s := by
  unfold discardFill; split
  · next f hf => rw [if_neg (h f hf)]
  all_goals rfl

theorem discardFill_inFlight {i : ImageId} {s : State} (h : inFlightPins s = 0) : inFlightPins (discardFill i s) = 0 := by
  unfold discardFill updFill; split
  · next f hf =>
    split
    · rfl
    · exact h
  all_goals exact h

/-- A fill in flight of an index without a PIN marked for discard (R85). -/
theorem Held.discardFill {s : State} (h : Held s) {i : ImageId} (hi : pinImage s ≠ some i) : Held (Machine.discardFill i s) := by
  have hb := discardFill_bc i s
  have hp : (Machine.discardFill i s).pinOf = s.pinOf := by unfold State.pinOf; rw [hb.2.2.2]
  refine ⟨discardFill_one h.one i, by unfold Distinct; rw [hb.1]; exact h.distinct, ?_, ?_⟩
  · intro j w hw
    rw [hp] at hw
    have hij : i ≠ j := by rintro rfl; exact hi (by rw [pinImage_pinOf, hw]; rfl)
    obtain ⟨b1, b2, b3, b4, b5⟩ := h.runs j w hw
    by_cases hf : ∃ f, s.reader = .fill f ∧ f.img = i
    · obtain ⟨f, hf, hfi⟩ := hf
      have hnp : f.pin = false := by
        rw [← Bool.not_eq_true]; intro hx; exact hij (hfi ▸ (b5 f hf hx).1)
      have h0 : inFlightPins s = 0 := by unfold inFlightPins; rw [hf]; simp [hnp]
      have h1 := discardFill_inFlight (i := i) h0
      refine ⟨by rw [hb.1, hb.2.1, h1]; rw [h0] at b1; exact b1, b2, by rw [hb.2.2.1]; exact b3, by rw [hb.1]; exact b4, ?_⟩
      intro g hg hgp
      unfold inFlightPins at h1; rw [hg] at h1; simp [hgp] at h1
    · rw [discardFill_same (fun f hx hy => hf ⟨f, hx, hy⟩)]; exact ⟨b1, b2, b3, b4, b5⟩
  · intro hn
    rw [hp] at hn
    obtain ⟨a, b, c⟩ := h.rests hn
    exact ⟨by rw [hb.1]; exact a, discardFill_inFlight b, by rw [hb.2.1]; exact c⟩

theorem disownFill_spec (i : ImageId) (s : State) :
    (disownFill i s).bc = s.bc ∧ (disownFill i s).catSt = s.catSt ∧ (disownFill i s).ma = s.ma := by
  unfold disownFill updFill; split <;> exact ⟨rfl, rfl, rfl⟩

theorem disownFill_one {s : State} (h : OneFilling s) (i : ImageId) : OneFilling (disownFill i s) := by
  intro l j b d hx
  rw [(disownFill_spec i s).1] at hx
  obtain ⟨f, hf, e⟩ := h l j b d hx
  unfold disownFill updFill; rw [hf]
  refine ⟨_, rfl, ?_⟩
  dsimp only
  split <;> exact e

/-- A fill in flight of an index without a PIN loses its requesters (R191). -/
theorem Held.disownFill {s : State} (h : Held s) {i : ImageId} (hi : pinImage s ≠ some i) : Held (Machine.disownFill i s) := by
  refine h.congr (Prod.ext ?_ ?_)
  · have hs := disownFill_spec i s
    have hm : (Machine.disownFill i s).reader.mark = s.reader.mark := by
      unfold Machine.disownFill updFill
      split
      · next f hf =>
        rw [hf]
        dsimp only
        by_cases hfi : f.img = i
        · rw [if_pos hfi]
          have : f.pin = false := by
            rw [← Bool.not_eq_true]; intro hx
            cases hp : s.pinOf with
            | none =>
              have := (h.rests hp).2.1
              unfold inFlightPins at this; rw [hf] at this; simp [hx] at this
            | some p =>
              have := ((h.runs p.1 p.2 hp).2.2.2.2 f hf hx).1
              exact hi (by rw [pinImage_pinOf, hp]; exact congrArg some (this.symm.trans hfi))
          simp [Reader.mark, this]
        · rw [if_neg hfi]
      all_goals rfl
    show (Machine.disownFill i s).marks = s.marks
    unfold State.marks; rw [hs.1, hs.2.1, hm]
  · show (Machine.disownFill i s).pinOf = s.pinOf
    unfold State.pinOf; rw [(disownFill_spec i s).2.2]

/-- The end of a PIN on an index, after its entries, lines and fill were dropped (R88). -/
theorem held_endPinOn {s : State} (h1 : OneFilling s) (h2 : Distinct s) {i : ImageId} (h : pinImage s ≠ some i → Held s) :
    Held (endPinOn i s) := by
  unfold endPinOn
  split
  · next hi =>
    rw [pinImage_pinOf] at hi
    obtain ⟨⟨j, w⟩, hp, rfl⟩ := Option.map_eq_some_iff.mp hi
    exact held_endPin h1 h2 hp _
  · next hi => exact h hi

/-- INVALIDATE and a catalogue write (R61, R91). -/
theorem Held.dropImage {s : State} (h : Held s) (i : ImageId) : Held (Machine.dropImage i s) := by
  unfold Machine.dropImage
  refine Held.afterWithdraw ?_ _
  have hl := h.dropLines i
  refine held_endPinOn (discardFill_one (s := Machine.dropFills i (Machine.dropLines i s)) hl.one i) ?_ ?_
  · unfold Distinct; rw [(discardFill_bc i _).1]; exact hl.distinct.filter rfl
  · intro hx
    have hi : pinImage s ≠ some i := by
      intro hy; apply hx
      rw [pinImage_pinOf] at *
      rw [← hy]; unfold State.pinOf; rw [(discardFill_bc i _).2.2.2]; rfl
    exact (hl.dropFills (i := i) hi).discardFill hi

theorem pinDone_pinImage (s : State) : pinImage (pinDone s) = pinImage s ∨ pinImage (pinDone s) = none := by
  unfold pinDone; split
  · right; rw [pinImage_pinOf, endLong_pinOf]; rfl
  · left; rfl

theorem setWaiting_pinImage (w : List Nat) (s : State) : pinImage (setWaiting w s) = pinImage s := by
  cases hp : s.pinOf with
  | none =>
    have : pinImage s = none := by rw [pinImage_pinOf, hp]; rfl
    unfold setWaiting; rw [this]; exact this
  | some p => rw [pinImage_pinOf, setWaiting_pinOf hp, pinImage_pinOf, hp]; rfl

theorem request_pinImage (r : Source) (i : ImageId) (b : Nat) (s : State) : pinImage (request r i b s) = pinImage s := by
  rw [pinImage_pinOf, pinImage_pinOf, request_pinOf]

theorem placeWaiting_pinImage (s : State) : pinImage (placeWaiting s) = pinImage s ∨ pinImage (placeWaiting s) = none := by
  have ht : ∀ (j : ImageId) (bs : List Nat) (s : State), pinImage (takeWaiting j bs s) = pinImage s := by
    intro j bs
    induction bs with
    | nil => intro s; exact setWaiting_pinImage _ _
    | cons b bs ih => intro s; unfold takeWaiting; split
                      · exact setWaiting_pinImage _ _
                      · rw [ih, request_pinImage]
  unfold placeWaiting; split
  · split
    · exact .inl rfl
    · rw [← ht _ (pinWaiting s) s]; exact pinDone_pinImage _
  · exact .inl rfl

/-- The BAD mark of an index without a PIN. -/
theorem Held.markCat {s : State} (h : Held s) {i : ImageId} (hi : pinImage s ≠ some i) :
    Held (updCat i (fun c => { c with bad := true }) s) := by
  refine ⟨h.one, h.distinct, ?_, h.rests⟩
  intro j w hw
  have hij : j ≠ i := by rintro rfl; exact hi (by rw [pinImage_pinOf]; rw [show s.pinOf = some (j, w) from hw]; rfl)
  refine (h.runs j w hw).lines rfl rfl rfl ?_ (fun _ _ _ _ hx => hx)
  show (vmod s.catSt i _)[j].bad = _
  rw [vmod_other _ hij]

/-- BAD marking (R84), where the fill in flight may have ended and left the balance of a PIN on the index open. -/
theorem held_markBad {s : State} (h1 : OneFilling s) (h2 : Distinct s) {i : ImageId} (h : pinImage s ≠ some i → Held s) :
    Held (Machine.markBad i s) := by
  unfold Machine.markBad
  refine Held.congr ?_ (raise_pinKey _ _ _ _)
  refine Held.congr ?_ (failUsers_pinKey _ _)
  by_cases hi : pinImage s = some i
  · have he : withdrawImage i (updCat i (fun c => { c with bad := true }) s) = Machine.dropFills i (updCat i (fun c => { c with bad := true }) s) := by
      unfold withdrawImage; rw [if_neg]; rw [show pinImage (updCat i (fun c => { c with bad := true }) s) = pinImage s from rfl, hi]; simp
    rw [he]
    have hk := disownFill_spec i (Machine.dropLines i (Machine.dropFills i (updCat i (fun c => { c with bad := true }) s)))
    have h3 : OneFilling (Machine.dropLines i (Machine.dropFills i (updCat i (fun c => { c with bad := true }) s))) := h1.dropLines i
    refine held_endPinOn (disownFill_one h3 i) ?_ ?_
    · unfold Distinct; rw [hk.1]; exact h2.filter rfl
    · intro hx; exfalso; apply hx
      rw [← hi]; unfold pinImage; rw [hk.2.2]; rfl
  · have hm := (h hi).markCat hi
    have hw : Held (withdrawImage i (updCat i (fun c => { c with bad := true }) s)) ∧
        pinImage (withdrawImage i (updCat i (fun c => { c with bad := true }) s)) ≠ some i := by
      unfold withdrawImage
      have hd := hm.dropFills (i := i) hi
      split
      · refine ⟨hd.placeWaiting, ?_⟩
        rcases placeWaiting_pinImage (Machine.dropFills i (updCat i (fun c => { c with bad := true }) s)) with hx | hx
        · rw [hx]; exact hi
        · rw [hx]; simp
      · exact ⟨hd, hi⟩
    have hf := (hw.1.dropLines i).disownFill (i := i) hw.2
    exact held_endPinOn hf.one hf.distinct (fun _ => hf)

theorem Held.markBad {s : State} (h : Held s) (i : ImageId) : Held (Machine.markBad i s) := held_markBad h.one h.distinct (fun _ => h)

theorem Held.updCatClear {s : State} (h : Held s) (i : ImageId) : Held (updCat i (fun c => { c with bad := false }) s) := by
  refine ⟨h.one, h.distinct, ?_, h.rests⟩
  intro j w hw
  have hb := h.runs j w hw
  refine hb.lines rfl rfl rfl ?_ (fun _ _ _ _ hx => hx)
  show (vmod s.catSt i _)[j].bad = _
  by_cases hij : j = i
  · rw [hij, vmod_same, ← hij, hb.2.2.1]
  · rw [vmod_other _ hij]

end Sys2Proof.Machine
end

