-- ==== Sys2Proof/Laws/BalanceEvents.lean ====
section
/-! SUPPORT. The balance of a running PIN (R87) under the flash reader, SELF-CHECK, the pin requests, the resets, the choice, answers and
writes. -/

namespace Sys2Proof.Machine

set_option Elab.async false

open Sys2Proof.Safety

/-! ## The flash reader -/

/-- The idle reader starts the fill of a queued entry in a line that is not FILLING (R81). -/
theorem Held.startFill {s : State} (h : Held s) (hr : s.reader = .idle) {e : FillEntry} (he : e ∈ s.bc.fills) (l : LineId) :
    Held (Machine.startFill e l s) := by
  have hno : ∀ (m : LineId) i b d, s.bc.lines[m] ≠ .filling i b d := by
    intro m i b d hx
    obtain ⟨f, hf, _⟩ := h.one m i b d hx
    rw [hr] at hf; cases hf
  have h0 : inFlightPins s = 0 := by unfold inFlightPins; rw [hr]
  have hc : (s.bc.fills.erase e).countP FillEntry.pin + (if e.pin then 1 else 0) = s.bc.fills.countP FillEntry.pin := by
    have hp := List.perm_cons_erase he
    rw [hp.countP_eq, List.countP_cons]
  have hne : ∀ x ∈ s.bc.fills.erase e, ¬ (x.img = e.img ∧ x.blk = e.blk) := by
    intro x hx
    have hd : (e :: s.bc.fills.erase e).Pairwise (fun e f => ¬ (e.img = f.img ∧ e.blk = f.blk)) :=
      (List.perm_cons_erase he).pairwise h.distinct (fun hx hy => hx ⟨hy.1.symm, hy.2.symm⟩)
    exact fun hy => (List.pairwise_cons.mp hd).1 x hx ⟨hy.1.symm, hy.2.symm⟩
  unfold Machine.startFill
  refine Held.placeWaiting ⟨?_, ?_, ?_, ?_⟩
  · intro m i b d hx
    by_cases hm : m = l
    · subst hm
      simp only [updBc, set_same] at hx
      cases hx
      exact ⟨_, rfl, rfl, rfl, rfl⟩
    · simp only [updBc, set_other _ hm] at hx
      exact absurd hx (hno m i b d)
  · exact List.Pairwise.sublist List.erase_sublist h.distinct
  · intro i w hw
    obtain ⟨b1, b2, b3, b4, b5⟩ := h.runs i w hw
    refine ⟨?_, b2, b3, ?_, ?_⟩
    · show w.length + (s.bc.fills.erase e).countP FillEntry.pin + (if e.pin then 1 else 0) = s.bc.reservation
      omega
    · intro x hx; exact b4 x (List.mem_of_mem_erase hx)
    · intro f hf hp
      cases hf
      obtain ⟨c1, c2⟩ := b4 e he hp
      refine ⟨c1, c2, ?_, ?_⟩
      · simp only [updBc, set_same]; rw [← c1]
      · intro x hx hxp hxe
        exact hne x hx ⟨(b4 x (List.mem_of_mem_erase hx) hxp).1.trans c1.symm, hxe⟩
  · intro hn
    obtain ⟨a, b, c⟩ := h.rests hn
    refine ⟨?_, ?_, c⟩
    · show (s.bc.fills.erase e).countP FillEntry.pin = 0; omega
    · show (if e.pin then 1 else 0) = 0; omega

theorem nextFill_mem {l : List FillEntry} {e : FillEntry} (h : nextFill l = some e) : e ∈ l := by
  induction l generalizing e with
  | nil => cases h
  | cons a as ih =>
    unfold nextFill at h
    split at h
    · next f hf =>
      split at h
      · cases h; exact List.mem_cons_of_mem _ (ih hf)
      · cases h; exact List.mem_cons_self
    · cases h; exact List.mem_cons_self

/-- A reader that runs no fill becomes another that runs none. -/
theorem Held.other {s t : State} (h : Held s) (hs : ∀ f, s.reader ≠ .fill f) (ht : ∀ f, t.reader ≠ .fill f) (hb : t.bc = s.bc)
    (hc : t.catSt = s.catSt) (hp : t.pinOf = s.pinOf) : Held t := by
  refine h.congr (Prod.ext ?_ hp)
  have hn : ∀ r : Reader, (∀ f, r ≠ .fill f) → r.mark = none := by
    intro r hr; cases r with
    | fill f => exact absurd rfl (hr f)
    | _ => rfl
  show t.marks = s.marks
  unfold State.marks; rw [hb, hc, hn _ hs, hn _ ht]

theorem Held.startLong {s : State} (h : Held s) (hr : s.reader = .idle) : Held (Machine.startLong s) := by
  have hs : ∀ f, s.reader ≠ .fill f := by rw [hr]; intro f; simp
  unfold Machine.startLong
  split
  · exact h
  · next l hl =>
    split
    case h_5 => exact h
    case h_6 => exact h
    case h_7 => exact h
    case h_8 => exact h
    case h_9 => exact h
    all_goals
      next hj =>
        refine h.other hs (by intro f; simp) rfl rfl ?_
        obtain ⟨o, j⟩ := l
        cases hj
        simp [State.pinOf, hl]

theorem Held.startWork {s : State} (h : Held s) (hr : s.reader = .idle) : Held (Machine.startWork s) := by
  unfold Machine.startWork
  split
  · exact h.startLong hr
  · next e he =>
    split
    · exact h.startFill hr (nextFill_mem he) _
    · exact h

/-- The fill in flight ends, its line no longer FILLING, where it does not carry pin-on-complete. -/
theorem Held.filled {s t : State} (h : Held s) {f : Fill} (hr : s.reader = .fill f) (hp : f.pin = false) {x : Line}
    (hx : ∀ i b d, x ≠ .filling i b d) (hl : t.bc.lines = s.bc.lines.set f.line x) (hq : t.bc.fills = s.bc.fills)
    (hv : t.bc.reservation = s.bc.reservation) (ht : t.reader = .idle) (hc : t.catSt = s.catSt) (hm : t.pinOf = s.pinOf) : Held t := by
  have h0 : inFlightPins s = 0 := by unfold inFlightPins; rw [hr]; simp [hp]
  have h1 : inFlightPins t = 0 := by unfold inFlightPins; rw [ht]
  refine ⟨?_, by unfold Distinct; rw [hq]; exact h.distinct, ?_, ?_⟩
  · intro l i b d hy
    exfalso
    by_cases hl' : l = f.line
    · subst hl'
      simp only [hl, set_same] at hy; exact hx _ _ _ hy
    · simp only [hl, set_other _ hl'] at hy
      obtain ⟨g, hg, e, _⟩ := h.one l i b d hy
      rw [hr] at hg; cases hg; exact hl' e.symm
  · intro i w hw
    obtain ⟨b1, b2, b3, b4, b5⟩ := h.runs i w (hm ▸ hw)
    refine ⟨by rw [hq, hv, h1]; rw [h0] at b1; exact b1, b2, by rw [hc]; exact b3, by rw [hq]; exact b4, ?_⟩
    intro g hg; rw [ht] at hg; cases hg
  · intro hn
    obtain ⟨a, b, c⟩ := h.rests (hm ▸ hn)
    exact ⟨by rw [hq]; exact a, h1, by rw [hv]; exact c⟩

/-- The fill in flight ends and gives back its block, where it carries the pin of the running PIN. -/
theorem Held.landed {s t : State} (h : Held s) {f : Fill} (hr : s.reader = .fill f) (hp : f.pin = true) {i : ImageId} {w : List Nat}
    (hw : s.pinOf = some (i, w)) {x : Line} (hx : ∀ i b d, x ≠ .filling i b d) (hl : t.bc.lines = s.bc.lines.set f.line x)
    (hq : t.bc.fills = s.bc.fills) (hv : t.bc.reservation + 1 = s.bc.reservation) (ht : t.reader = .idle) (hc : t.catSt = s.catSt) : Pins i w t := by
  have h0 : inFlightPins s = 1 := by unfold inFlightPins; rw [hr]; simp [hp]
  have h1 : inFlightPins t = 0 := by unfold inFlightPins; rw [ht]
  refine ⟨?_, by unfold Distinct; rw [hq]; exact h.distinct, ?_⟩
  · intro l i b d hy
    exfalso
    by_cases hl' : l = f.line
    · subst hl'
      simp only [hl, set_same] at hy; exact hx _ _ _ hy
    · simp only [hl, set_other _ hl'] at hy
      obtain ⟨g, hg, e, _⟩ := h.one l i b d hy
      rw [hr] at hg; cases hg; exact hl' e.symm
  · obtain ⟨b1, b2, b3, b4, b5⟩ := h.runs i w hw
    refine ⟨by rw [hq, h1]; rw [h0] at b1; omega, b2, by rw [hc]; exact b3, by rw [hq]; exact b4, ?_⟩
    intro g hg; rw [ht] at hg; cases hg

theorem requires_pin {s : State} (h : Held s) {f : Fill} (hr : s.reader = .fill f) (hp : f.pin = true) :
    ∃ w, s.pinOf = some (f.img, w) ∧ f.blk ∉ w ∧ 1 ≤ s.bc.reservation ∧ s.catSt[f.img].bad = false ∧ s.bc.lines[f.line] = .filling f.img f.blk false ∧
      ∀ e ∈ s.bc.fills, e.pin = true → e.blk ≠ f.blk := by
  cases hw : s.pinOf with
  | none => have := (h.rests hw).2.1; unfold inFlightPins at this; rw [hr] at this; simp [hp] at this
  | some p =>
    obtain ⟨b1, b2, b3, b4, b5⟩ := h.runs p.1 p.2 hw
    obtain ⟨c1, c2, c3, c4⟩ := b5 f hr hp
    have h0 : inFlightPins s = 1 := by unfold inFlightPins; rw [hr]; simp [hp]
    obtain ⟨j, w⟩ := p
    obtain rfl : f.img = j := c1
    exact ⟨w, rfl, c2, by omega, b3, c3, c4⟩

/-- A fill that ends with its line EMPTY and carries no pin-on-complete (R82, R85). -/
theorem Held.fillEmpty {s : State} (h : Held s) {f : Fill} (hr : s.reader = .fill f) (hp : f.pin = false) :
    Held (Machine.fillEmpty f s) := by
  unfold Machine.fillEmpty
  refine Held.requestAll ?_
  exact h.filled hr hp (x := .empty) (by simp) rfl rfl rfl rfl rfl rfl

/-- A fill that lands (R82, R87). -/
theorem Held.fillValid {s : State} (h : Held s) {f : Fill} (hr : s.reader = .fill f) (d : List Byte) : Held (Machine.fillValid f d s) := by
  unfold Machine.fillValid
  refine Held.requestAll ?_
  cases hp : f.pin with
  | false =>
    rw [if_neg (by simp)]
    exact h.filled hr hp (x := .valid f.img f.blk false d) (by simp) rfl rfl rfl rfl rfl rfl
  | true =>
    rw [if_pos rfl]
    obtain ⟨w, hw, _, hres, _⟩ := requires_pin h hr hp
    have hl : pinLine f.line (updBc (fun c => { c with lines := c.lines.set f.line (.valid f.img f.blk false d), recency := landing f c.recency }) (idleReader s)) =
        { s with reader := .idle, bc := { s.bc with
          lines := s.bc.lines.set f.line (.valid f.img f.blk true d), recency := landing f s.bc.recency, reservation := s.bc.reservation - 1 } } := by
      unfold pinLine
      simp only [updBc, idleReader, set_same, spendPin, setLine, set_set]
    rw [hl]
    refine Pins.done (i := f.img) (w := w) ?_ hw
    exact h.landed hr hp hw (x := .valid f.img f.blk true d) (by simp) rfl rfl (Nat.sub_add_cancel hres) rfl rfl

/-- A failed leftover fill gives the block of a PIN back (R93, log entry 15). -/
theorem Held.leftoverFailed {s : State} (h : Held s) {f : Fill} (hr : s.reader = .fill f) : Held (Machine.leftoverFailed f s) := by
  unfold Machine.leftoverFailed returnPin
  refine Held.requestAll ?_
  cases hp : f.pin with
  | false =>
    rw [if_neg (by simp)]
    exact h.filled hr hp (x := .empty) (by simp) rfl rfl rfl rfl rfl rfl
  | true =>
    rw [if_pos rfl]
    refine Held.placeWaiting ?_
    obtain ⟨w, hw, hbw, hres, hbad, hline, hne⟩ := requires_pin h hr hp
    have hw' : (emptyLine f.line (idleReader s)).pinOf = some (f.img, w) := hw
    have hpw : pinWaiting (emptyLine f.line (idleReader s)) = w := by rw [pinWaiting_pinOf, hw']; rfl
    rw [hpw]
    obtain ⟨b1, b2, b3, b4, b5⟩ := h.runs _ _ hw
    have h0 : inFlightPins s = 1 := by unfold inFlightPins; rw [hr]; simp [hp]
    have hmem : ∀ b, b ∈ w.filter (fun b => decide (b < f.blk)) ++ f.blk :: w.filter (fun b => decide (f.blk < b)) ↔ b ∈ w ∨ b = f.blk := by
      intro b
      simp only [List.mem_append, List.mem_cons, List.mem_filter, decide_eq_true_eq]
      constructor
      · rintro (h | rfl | h)
        · exact .inl h.1
        · exact .inr rfl
        · exact .inl h.1
      · rintro (h | rfl)
        · rcases Nat.lt_trichotomy b f.blk with hb | hb | hb
          · exact .inl ⟨h, hb⟩
          · exact .inr (.inl hb)
          · exact .inr (.inr ⟨h, hb⟩)
        · exact .inr (.inl rfl)
    have hlen : (w.filter (fun b => decide (b < f.blk)) ++ f.blk :: w.filter (fun b => decide (f.blk < b))).length = w.length + 1 := by
      have : ∀ w : List Nat, f.blk ∉ w → (w.filter (fun b => decide (b < f.blk))).length + (w.filter (fun b => decide (f.blk < b))).length = w.length := by
        intro w
        induction w with
        | nil => intro _; rfl
        | cons a w ih =>
          intro hn
          simp only [List.mem_cons, not_or] at hn
          have := ih hn.2
          rcases Nat.lt_or_gt_of_ne hn.1 with hb | hb
          · rw [List.filter_cons_of_neg (by simpa using Nat.le_of_lt hb), List.filter_cons_of_pos (by simpa using hb)]; simp; omega
          · rw [List.filter_cons_of_pos (by simpa using hb), List.filter_cons_of_neg (by simpa using Nat.le_of_lt hb)]; simp; omega
      have := this w hbw
      simp; omega
    refine Pins.held ?_ (setWaiting_pinOf hw' _)
    refine Pins.congr ?_ (setWaiting_marks _ _)
    have hone : OneFilling (emptyLine f.line (idleReader s)) := by
      intro l i b d hy
      exfalso
      by_cases hl' : l = f.line
      · subst hl'; simp only [emptyLine, updBc, idleReader, set_same] at hy; cases hy
      · simp only [emptyLine, updBc, idleReader, set_other _ hl'] at hy
        obtain ⟨g, hg, e, _⟩ := h.one l i b d hy
        rw [hr] at hg; cases hg; exact hl' e.symm
    refine ⟨hone, h.distinct, ?_, ?_, b3, ?_, ?_⟩
    · rw [hlen]
      show w.length + 1 + s.bc.fills.countP FillEntry.pin + 0 = s.bc.reservation
      omega
    · rw [List.pairwise_append, List.pairwise_cons]
      refine ⟨b2.filter _, ⟨?_, b2.filter _⟩, ?_⟩
      · intro b hb; simpa using (List.mem_filter.mp hb).2
      · intro a ha b hb
        have ha' : a < f.blk := by simpa using (List.mem_filter.mp ha).2
        rcases List.mem_cons.mp hb with rfl | hb
        · exact ha'
        · have : f.blk < b := by simpa using (List.mem_filter.mp hb).2
          omega
    · intro e he hpe
      obtain ⟨c1, c2⟩ := b4 e he hpe
      exact ⟨c1, fun hx => ((hmem e.blk).mp hx).elim c2 (hne e he hpe)⟩
    · intro g hg; cases hg

/-- A second failed read (R84). -/
theorem Held.fillBad {s : State} (h : Held s) {f : Fill} (hr : s.reader = .fill f) : Held (Machine.fillBad f s) := by
  unfold Machine.fillBad
  have hd : Distinct (emptyLine f.line (idleReader s)) := h.distinct
  refine Held.requestAll (held_markBad (s := emptyLine f.line (idleReader s)) (i := f.img) ?_ hd ?_)
  · intro l i b d hy
    exfalso
    by_cases hl' : l = f.line
    · subst hl'; simp only [emptyLine, updBc, idleReader, set_same] at hy; cases hy
    · simp only [emptyLine, updBc, idleReader, set_other _ hl'] at hy
      obtain ⟨g, hg, e, _⟩ := h.one l i b d hy
      rw [hr] at hg; cases hg; exact hl' e.symm
  · intro hi
    have hp : f.pin = false := by
      rw [← Bool.not_eq_true]; intro hp
      obtain ⟨w, hw, _⟩ := requires_pin h hr hp
      apply hi
      rw [pinImage_pinOf]; rw [show (emptyLine f.line (idleReader s)).pinOf = some (f.img, w) from hw]; rfl
    exact h.filled hr hp (x := .empty) (by simp) rfl rfl rfl rfl rfl rfl

/-- The end of a fill's read (R82 to R85, R93). -/
theorem Held.judgeFill {s : State} (h : Held s) {f : Fill} (hr : s.reader = .fill f) (bs : List Byte) :
    Held (Machine.judgeFill f bs s) := by
  unfold Machine.judgeFill
  split
  · next hd =>
    refine h.fillEmpty hr ?_
    rw [← Bool.not_eq_true]; intro hp
    obtain ⟨_, _, _, _, _, hl, _⟩ := requires_pin h hr hp
    unfold isDiscarded at hd; rw [hl] at hd; simp at hd
  · split
    · split
      · next hb =>
        refine h.fillEmpty hr ?_
        rw [← Bool.not_eq_true]; intro hp
        obtain ⟨_, _, _, _, hf, _⟩ := requires_pin h hr hp
        rw [hf] at hb; cases hb
      · exact h.fillValid hr _
    · split
      · exact h.leftoverFailed hr
      · split
        · exact h.fillBad hr
        · refine h.congr (Prod.ext ?_ rfl)
          show State.marks _ = s.marks
          simp only [State.marks, hr]; rfl

/-! ## SELF-CHECK -/

theorem Held.mismatch {s : State} (h : Held s) (i : ImageId) : Held (Machine.mismatch i s) := by
  unfold Machine.mismatch; split
  · exact (h.markBad i).requestAll
  · exact h.markBad i

theorem markBad_pinOf {s : State} (h : s.pinOf = none) (i : ImageId) : (Machine.markBad i s).pinOf = none := by
  have hi : ∀ j, pinImage s ≠ some j := by intro j; rw [pinImage_pinOf, h]; simp
  have h0 : pinImage s = none := by rw [pinImage_pinOf, h]; rfl
  have hw : (withdrawImage i (updCat i (fun c => { c with bad := true }) s)).ma = s.ma := by
    unfold withdrawImage; split
    · unfold placeWaiting
      rw [show pinImage (Machine.dropFills i (updCat i (fun c => { c with bad := true }) s)) = none from h0]; rfl
    · rfl
  have hma : (disownFill i (Machine.dropLines i (withdrawImage i (updCat i (fun c => { c with bad := true }) s)))).ma = s.ma :=
    (disownFill_spec i _).2.2.trans hw
  show (failUsers i (endPinOn i _)).pinOf = none
  rw [show (failUsers i (endPinOn i (disownFill i (Machine.dropLines i (withdrawImage i (updCat i (fun c => { c with bad := true }) s)))))).pinOf =
    (endPinOn i (disownFill i (Machine.dropLines i (withdrawImage i (updCat i (fun c => { c with bad := true }) s))))).pinOf from
      congrArg Prod.snd (failUsers_pinKey i _)]
  unfold endPinOn
  rw [if_neg (by unfold pinImage; rw [hma]; exact hi i)]
  unfold State.pinOf at *; rw [hma]; exact h

theorem requestAll_pinOf (s : State) : (Machine.requestAll s).pinOf = s.pinOf := by
  unfold State.pinOf; rw [(of_noCache (requestAll_noCache s)).2.2.2.2.2.2.2.2.2.2.2.2.2.1]

theorem mismatch_pinOf {s : State} (h : s.pinOf = none) (i : ImageId) : (Machine.mismatch i s).pinOf = none := by
  unfold Machine.mismatch; split
  · rw [requestAll_pinOf]; exact markBad_pinOf h i
  · exact markBad_pinOf h i

theorem setJob_pinOf {s : State} {j : LongJob} (hj : ∀ i w, j ≠ .pin i w) : (setJob j s).pinOf = none := by
  unfold State.pinOf
  rw [setJob_long]
  cases s.ma.long with
  | none => rfl
  | some l => cases j <;> first | rfl | exact absurd rfl (hj _ _)

/-- Another job in the slot, where no PIN runs. -/
theorem Held.setJob {s : State} (h : Held s) (hp : s.pinOf = none) {j : LongJob} (hj : ∀ i w, j ≠ .pin i w) : Held (Machine.setJob j s) :=
  h.congr (Prod.ext rfl ((setJob_pinOf hj).trans hp.symm))

/-- The checks of SELF-CHECK (R190 to R192). -/
theorem Held.runChecks {n : Nat} {c : SelfCheck} {s : State} (h : Held s) (hp : s.pinOf = none) : Held (Machine.runChecks n c s) := by
  induction n generalizing c s with
  | zero => exact h.endLong hp _ _
  | succ n ih =>
    unfold Machine.runChecks; dsimp only
    split
    · split
      · exact h.setJob hp (by simp)
      · split
        · exact ih h hp
        · exact ih (h.mismatch _) (mismatch_pinOf hp _)
    · exact ih h hp

theorem Held.scanned {s : State} (h : Held s) (hp : s.pinOf = none) (d : Disturb) (c : SelfCheck) : Held (Machine.scanned d c s) := by
  unfold Machine.scanned; split
  · unfold scanIdentity; split
    · exact h.setJob hp (by simp)
    · exact h.endLong hp _ _
  · unfold scanStore; dsimp only; split
    · exact h.setJob hp (by simp)
    · exact h.runChecks hp
  · exact h.runChecks hp

theorem Held.restartCheck {s : State} (h : Held s) (i : ImageId) : Held (Machine.restartCheck i s) := by
  have hd : Held (dropScan s) := by
    unfold dropScan; split
    · next hr => exact h.other (by intro f; simp [hr]) (by intro f; simp) rfl rfl rfl
    all_goals exact h
  have hm : (dropScan s).ma = s.ma := by unfold dropScan; split <;> rfl
  unfold Machine.restartCheck; split
  · next c hl =>
    split
    · exact hd.runChecks (by unfold State.pinOf; rw [hm, hl])
    · exact h
  · exact h

/-! ## PIN, UNPIN and PREFETCH -/

/-- PIN, where no long operation holds the slot (R86, R87). -/
theorem Held.startPin {s : State} (h : Held s) (hl : s.ma.long = none) (o : Origin) (i : ImageId) (first last : Nat) :
    Held (Machine.startPin o i first last s) := by
  have hp : s.pinOf = none := by unfold State.pinOf; rw [hl]
  obtain ⟨a, b, c⟩ := h.rests hp
  unfold Machine.startPin; dsimp only
  split
  · exact h.congr (finalReply_pinKey _ _ _ _ _)
  · next hv =>
    split
    · exact h.congr (finalReply_pinKey _ _ _ _ _)
    · have hq : (updBc (fun c => { c with reservation := (pinCounted i first last s).length }) (accept o (.pin i []) s)).pinOf = some (i, []) := by
        cases o <;> rfl
      have hP : Pins i (pinCounted i first last s)
          (updBc (fun c => { c with reservation := (pinCounted i first last s).length }) (accept o (.pin i []) s)) := by
        have hb : (accept o (.pin i []) s).bc = s.bc ∧ (accept o (.pin i []) s).reader = s.reader ∧ (accept o (.pin i []) s).catSt = s.catSt := by
          cases o <;> exact ⟨rfl, rfl, rfl⟩
        refine ⟨h.one.lines (by show (accept o (.pin i []) s).reader.mark = _; rw [hb.2.1]) ?_, ?_, ?_, ?_, ?_, ?_, ?_⟩
        · intro l j b d hx
          have hx : (accept o (.pin i []) s).bc.lines[l] = .filling j b d := hx
          rw [hb.1] at hx; exact hx
        · show (accept o (.pin i []) s).bc.fills.Pairwise _; rw [hb.1]; exact h.distinct
        · show _ + (accept o (.pin i []) s).bc.fills.countP FillEntry.pin + inFlightPins (accept o (.pin i []) s) = _
          unfold inFlightPins at *
          rw [hb.1, hb.2.1, a, b]; rfl
        · unfold pinCounted blockRange
          refine List.Pairwise.filter _ ?_
          rw [List.pairwise_map]
          exact List.pairwise_lt_range.imp (fun hx => by omega)
        · show (accept o (.pin i []) s).catSt[i].bad = false
          simp only [hb.2.2]
          have hv' : s.tables.cat[i].valid = true ∧ s.catSt[i].bad = false := by simpa using hv
          exact hv'.2
        · intro e he hpe
          have he : e ∈ (accept o (.pin i []) s).bc.fills := he
          rw [hb.1] at he
          exact absurd hpe (List.countP_eq_zero.mp a e he)
        · intro f hf hpf
          have hf : (accept o (.pin i []) s).reader = .fill f := hf
          rw [hb.2.1] at hf
          unfold inFlightPins at b; rw [hf] at b; simp [hpf] at b
      obtain ⟨w, hw, hwp⟩ := hP.blocks hq
      exact hw.done hwp

theorem countP_split {α : Type} (p q : α → Bool) (l : List α) :
    (l.filter (fun x => !q x)).countP p + l.countP (fun x => p x && q x) = l.countP p := by
  induction l with
  | nil => rfl
  | cons a l ih =>
    cases hq : q a <;> cases hp : p a <;> simp [hq, hp] <;> omega

/-- The entries that UNPIN takes back are those whose mark it clears (R89). -/
theorem unpinned_count (i : ImageId) (first last : Nat) (l : List FillEntry) :
    (l.map (fun e => if e.pinned i first last then { e with pin := false } else e)).countP FillEntry.pin +
      l.countP (FillEntry.pinned i first last) = l.countP FillEntry.pin := by
  induction l with
  | nil => rfl
  | cons a l ih =>
    rw [List.map_cons, List.countP_cons, List.countP_cons, List.countP_cons]
    by_cases hc : a.pinned i first last = true
    · have hpa : a.pin = true := by unfold FillEntry.pinned at hc; simp only [Bool.and_eq_true] at hc; exact hc.1.1
      simp only [hc, hpa, if_true, Bool.false_eq_true, if_false]; omega
    · simp only [hc, Bool.false_eq_true, if_false]; omega

/-- UNPIN (R89). -/
theorem Held.unpin {s : State} (h : Held s) (i : ImageId) (first last : Nat) : Held (Machine.unpin i first last s) := by
  have hL := h.unpinLines i first last
  unfold Machine.unpin; dsimp only
  split
  · next hi =>
    generalize updBc (fun c => { c with lines := vmap (Line.unpin i first last) c.lines }) s = t at hL hi ⊢
    rw [pinImage_pinOf] at hi
    obtain ⟨⟨j, w⟩, hp, rfl⟩ := Option.map_eq_some_iff.mp hi
    have hw : pinWaiting t = w := by rw [pinWaiting_pinOf, hp]; rfl
    obtain ⟨b1, b2, b3, b4, b5⟩ := hL.runs j w hp
    unfold takeBack; dsimp only
    generalize hu : (if inFlightPinned j first last t = true then updFill (fun f => { f with pin := false }) t else t) = u
    have hubc : u.bc = t.bc ∧ u.catSt = t.catSt ∧ u.ma = t.ma := by
      rw [← hu]; split
      · unfold updFill; split <;> exact ⟨rfl, rfl, rfl⟩
      · exact ⟨rfl, rfl, rfl⟩
    have hup : u.pinOf = some (j, w) := by unfold State.pinOf at *; rw [hubc.2.2]; exact hp
    have huw : pinWaiting u = w := by rw [pinWaiting_pinOf, hup]; rfl
    have hflight : inFlightPins u + (if inFlightPinned j first last t = true then 1 else 0) = inFlightPins t := by
      rw [← hu]
      unfold inFlightPinned inFlightPins updFill
      cases hr : t.reader with
      | fill f => by_cases hc : (f.pin && decide (f.img = j) && within first last f.blk) = true
                  · simp only [hc, if_true]; simp only [Bool.and_eq_true] at hc; simp [hc.1.1]
                  · simp only [hc]; simp [hr]
      | _ => simp [hr]
    have hfill : ∀ f, u.reader = .fill f → ∃ g, t.reader = .fill g ∧ f.line = g.line ∧ f.img = g.img ∧ f.blk = g.blk ∧ (f.pin = true → g.pin = true) ∧
        (f.pin = true → within first last f.blk = false ∨ f.img ≠ j) := by
      intro f hf
      rw [← hu] at hf
      split at hf
      · next hc =>
        unfold updFill at hf
        split at hf
        · next g hg => cases hf; exact ⟨g, hg, rfl, rfl, rfl, fun hx => (by cases hx), fun hx => (by cases hx)⟩
        all_goals (next hg => rw [hg] at hf; cases hf)
      · next hc =>
        refine ⟨f, hf, rfl, rfl, rfl, id, fun hx => ?_⟩
        unfold inFlightPinned at hc; rw [hf] at hc
        by_contra hy
        simp only [not_or, Bool.not_eq_false, not_not] at hy
        exact hc (by simp [hx, hy.1, hy.2])
    rw [huw]
    have hcount := unpinned_count j first last t.bc.fills
    have hwl : (w.filter (fun b => !within first last b)).length + w.countP (within first last) = w.length := by
      have := countP_split (fun _ => true) (within first last) w
      simpa using this
    have hmem : ∀ e ∈ t.bc.fills.map (fun e => if e.pinned j first last then { e with pin := false } else e), e.pin = true → e ∈ t.bc.fills := by
      intro e he hpe
      obtain ⟨e', he', rfl⟩ := List.mem_map.mp he
      split at hpe
      · cases hpe
      · next hc => rw [if_neg hc]; exact he'
    refine Pins.done (i := j) (w := w.filter (fun b => !within first last b)) ?_ (setWaiting_pinOf (s := updBc _ u) hup _)
    refine Pins.congr ?_ (setWaiting_marks _ _)
    refine ⟨?_, ?_, ?_, b2.filter _, ?_, ?_, ?_⟩
    · intro l k b d hx
      have hx : u.bc.lines[l] = .filling k b d := hx
      rw [hubc.1] at hx
      obtain ⟨f, hf, e⟩ := hL.one l k b d hx
      show ∃ f, u.reader = .fill f ∧ _
      rw [← hu]
      split
      · unfold updFill; rw [hf]; exact ⟨_, rfl, e⟩
      · exact ⟨f, hf, e⟩
    · show (u.bc.fills.map _).Pairwise _
      rw [hubc.1, List.pairwise_map]
      refine hL.distinct.imp ?_
      intro x y hxy
      have hk : ∀ e : FillEntry, (if e.pinned j first last then { e with pin := false } else e).img = e.img ∧
          (if e.pinned j first last then { e with pin := false } else e).blk = e.blk := by intro e; split <;> exact ⟨rfl, rfl⟩
      rw [(hk x).1, (hk x).2, (hk y).1, (hk y).2]; exact hxy
    · show _ + (u.bc.fills.map _).countP FillEntry.pin + inFlightPins u = u.bc.reservation - takenBack j first last t
      rw [hubc.1]; unfold takenBack; rw [hw]; omega
    · show u.catSt[j].bad = false; simp only [hubc.2.1]; exact b3
    · intro e he hpe
      have he : e ∈ u.bc.fills.map _ := he
      rw [hubc.1] at he
      obtain ⟨c1, c2⟩ := b4 e (hmem e he hpe) hpe
      exact ⟨c1, fun hx => c2 (List.mem_filter.mp hx).1⟩
    · intro f hf hpf
      obtain ⟨g, hg, e1, e2, e3, e4, _⟩ := hfill f hf
      obtain ⟨c1, c2, c3, c4⟩ := b5 g hg (e4 hpf)
      refine ⟨e2.trans c1, fun hx => c2 (by rw [← e3]; exact (List.mem_filter.mp hx).1), ?_, ?_⟩
      · show u.bc.lines[f.line] = _; simp only [hubc.1, e1, e3]; exact c3
      · intro e he hpe
        have he : e ∈ u.bc.fills.map _ := he
        rw [hubc.1] at he
        rw [e3]; exact c4 e (hmem e he hpe) hpe
  · exact hL

/-- PREFETCH (R90). -/
theorem Held.prefetch {s : State} (h : Held s) (i : ImageId) (first last : Nat) : Held (Machine.prefetch i first last s) := by
  unfold Machine.prefetch; split
  · exact h.foldl (fun s b hs => hs.request (by simp) i b) _
  · exact h

/-! ## The engine reset -/

/-- The engine reset leaves no PIN and no mark (R88, R93). -/
theorem Held.engineReset {s : State} (h : Held s) : Held (Machine.engineReset s) := by
  unfold Machine.engineReset
  generalize hu : clearLinks (clearRequests (resetSegment (resetCache (resetQueues (resetSlots s))))) = u
  have hq : (resetQueues (resetSlots s)).bc = s.bc ∧ (resetQueues (resetSlots s)).reader = s.reader ∧ (resetQueues (resetSlots s)).ma = s.ma := by
    have : (resetQueues (resetSlots s)).noLinks = (resetSlots s).noLinks := by simp [resetQueues]
    have h := of_noLinks this
    exact ⟨h.2.2.2.2.2.2.2.1, h.2.2.2.2.2.2.2.2.1, h.2.2.2.2.2.2.2.2.2.2.2.2.1⟩
  have hc : ∀ t : State, (resetCache t).bc = { t.bc with fills := [] } ∧ (resetCache t).ma = t.ma := by
    intro t; unfold resetCache; dsimp only; split <;> exact ⟨rfl, rfl⟩
  have hs : ∀ t : State, (clearLinks (clearRequests (resetSegment t))).bc = t.bc ∧ (clearLinks (clearRequests (resetSegment t))).reader = t.reader ∧
      (clearLinks (clearRequests (resetSegment t))).ma.long = t.ma.long := by
    intro t
    have : (resetSegment t).bc = t.bc ∧ (resetSegment t).reader = t.reader ∧ (resetSegment t).ma = t.ma := by
      unfold resetSegment closeTurn; split <;> exact ⟨rfl, rfl, rfl⟩
    refine ⟨this.1, this.2.1, ?_⟩
    show (resetSegment t).ma.long = _; rw [this.2.2]
  have hub : u.bc = { s.bc with fills := [] } ∧ u.ma.long = s.ma.long := by
    rw [← hu, (hs _).1, (hs _).2.2, (hc _).1, (hc _).2, hq.1, hq.2.2]; exact ⟨rfl, rfl⟩
  have hrf : ∀ f, s.reader = .fill f → u.reader = .fill { f with reqs := [], pin := false, pre := false, orphan := true } := by
    intro f hf
    rw [← hu, (hs _).2.1]
    unfold resetCache; dsimp only
    have : (updBc (fun c => { c with fills := [] }) (resetQueues (resetSlots s))).reader = .fill f := hq.2.1.trans hf
    rw [this]
  have h1 : OneFilling u := by
    intro l i b d hx
    rw [hub.1] at hx
    obtain ⟨f, hf, e⟩ := h.one l i b d hx
    exact ⟨_, hrf f hf, e⟩
  have h2 : Distinct u := by unfold Distinct; rw [hub.1]; exact .nil
  have h3 : u.bc.fills.countP FillEntry.pin = 0 := by rw [hub.1]; rfl
  have h4 : inFlightPins u = 0 := by
    unfold inFlightPins
    cases hr : s.reader with
    | fill f => rw [hrf f hr]; rfl
    | _ =>
      have hn : ∀ f, u.reader ≠ .fill f := by
        intro f
        rw [← hu, (hs _).2.1]
        unfold resetCache; dsimp only
        have : (updBc (fun c => { c with fills := [] }) (resetQueues (resetSlots s))).reader = s.reader := hq.2.1
        rw [this, hr]
        first | (show Reader.scan false ≠ _; simp) | (rw [this, hr]; simp)
      cases hx : u.reader with
      | fill f => exact absurd hx (hn f)
      | _ => rfl
  have hp : u.pinOf = s.pinOf := by unfold State.pinOf; rw [hub.2]
  cases hsp : s.pinOf with
  | some p =>
    obtain ⟨i, w⟩ := p
    rw [hsp] at hp
    obtain ⟨o, ho⟩ := pinOf_some.mp hp
    unfold abortLong; rw [ho]
    exact held_endPin h1 h2 hp _
  | none =>
    rw [hsp] at hp
    have hH : Held u := .idle h1 h2 ⟨h3, h4, by rw [hub.1]; exact (h.rests hsp).2.2⟩ hp
    unfold abortLong
    split
    · exact hH
    · next l hl =>
      split
      · exact hH.endLong hp _ _
      · exact hH.endLong hp _ _
      · next hj => exfalso; unfold State.pinOf at hp; rw [hl] at hp; obtain ⟨o, j⟩ := l; cases hj; cases hp
      · split
        · exact hH.setJob hp (by simp)
        · exact hH.endLong hp _ _
      · split
        · exact hH.setJob hp (by simp)
        · exact hH.endLong hp _ _
      · exact hH

/-! ## The choice -/

theorem settleOutputs_pinKey (s : State) : (settleOutputs s).pinKey = s.pinKey := rfl

@[simp] theorem updSeg_pinKey (g : Segment → Segment) (s : State) : (updSeg g s).pinKey = s.pinKey := rfl

@[simp] theorem hitBlock_pinKey (i : ImageId) (b : Nat) (s : State) : (hitBlock i b s).pinKey = s.pinKey := by
  unfold hitBlock; split
  · rfl
  · split <;> rfl

/-- The choice at the end of a step (R96). -/
theorem Held.finish {s : State} (h : Held s) : Held (Machine.finish s) := by
  unfold Machine.finish
  refine Held.congr ?_ (settleOutputs_pinKey _)
  split
  · unfold choose
    split
    · next k _ =>
      have ha : Held (addDebt s) := h.congr rfl
      unfold grant; split
      · split
        · unfold grantBlock
          refine Held.requestBlocks ?_ _
          refine Held.congr (s := hitBlock _ _ (startTx _ (addDebt s))) ?_ rfl
          exact Held.congr (s := startTx _ (addDebt s)) (ha.congr rfl) (hitBlock_pinKey _ _ _)
        · exact ha.congr rfl
        · exact ha.congr rfl
        all_goals exact ha
      · unfold grantReboot; split
        · exact ha.congr rfl
        · exact ha
    · split
      · exact h.congr rfl
      · unfold chooseTurn; split
        · exact h.congr rfl
        · split
          · exact h.congr rfl
          · exact h
  · exact h

/-! ## Answers, links and segment -/

@[simp] theorem setCtx_pinKey (k : SlotId) (r : CtxRecord) (s : State) : (setCtx k r s).pinKey = s.pinKey := rfl
@[simp] theorem updSession_pinKey (k : SlotId) (g : Session → Session) (s : State) : (updSession k g s).pinKey = s.pinKey := rfl

@[simp] theorem setClass_pinKey (k : SlotId) (c : ClassId) (s : State) : (setClass k c s).pinKey = s.pinKey := by
  unfold setClass; split <;> rfl

/-- A failure (R20). -/
theorem Held.fail {s : State} (h : Held s) (k : SlotId) (c : Cause) : Held (failSlot k c s) := h.congr (failSlot_pinKey k c s)

theorem Held.resolveImage {s : State} (h : Held s) (k : SlotId) (b : BootCall) : Held (Machine.resolveImage k b s) := by
  unfold Machine.resolveImage; split
  · exact h.fail _ _
  · dsimp only
    repeat' split
    · exact h.fail _ _
    · exact h.fail _ _
    · exact h.fail _ _
    · refine Held.openSession ?_ _ _ _; exact h.congr rfl

theorem Held.resolve {s : State} (h : Held s) (k : SlotId) (b : BootCall) : Held (Machine.resolve k b s) := by
  unfold Machine.resolve; split
  · exact h.fail _ _
  · exact (h.congr (setClass_pinKey _ _ _)).resolveImage _ _

theorem Held.takeBootCall {s : State} (h : Held s) (k : SlotId) (b : BootCall) : Held (Machine.takeBootCall k b s) := by
  unfold Machine.takeBootCall; split
  · exact h.resolve _ _
  · exact h.resolve _ _
  · split
    · refine Held.resolve ?_ _ _; exact h.congr rfl
    · refine Held.resolve ?_ _ _; exact h.congr rfl
  · refine Held.resolve ?_ _ _; exact (h.congr (endSession_pinKey k s)).congr rfl
  · refine Held.resolve ?_ _ _; exact (h.congr (endSession_pinKey k s)).congr rfl
  · refine Held.resolve ?_ _ _; exact (h.congr (endSession_pinKey k s)).congr rfl
  all_goals exact h

theorem Held.bootCallAnswer {s : State} (h : Held s) (k : SlotId) (p : List Byte) : Held (Machine.bootCallAnswer k p s) := by
  unfold Machine.bootCallAnswer; split
  · split
    · exact h.takeBootCall _ _
    · exact h
  · exact h

@[simp] theorem judgeStale_pinKey (k : SlotId) (t : Word32) (s : State) : (judgeStale k t s).pinKey = s.pinKey := by
  unfold judgeStale; repeat' split
  all_goals rfl

@[simp] theorem survive_pinKey (k : SlotId) (t : Word32) (s : State) : (survive k t s).pinKey = s.pinKey := by
  unfold survive; repeat' split
  all_goals simp

@[simp] theorem survivorReturn_pinKey (k : SlotId) (c : Byte) (t : Word32) (s : State) :
    (survivorReturn k c t s).pinKey = s.pinKey := by
  unfold survivorReturn; dsimp only; split
  all_goals simp

@[simp] theorem takeStatus_pinKey (k : SlotId) (c : Byte) (t : Word32) (s : State) : (takeStatus k c t s).pinKey = s.pinKey := by
  unfold takeStatus; repeat' split
  all_goals simp

@[simp] theorem statusAnswer_pinKey (k : SlotId) (p : List Byte) (s : State) : (statusAnswer k p s).pinKey = s.pinKey := by
  unfold statusAnswer; split <;> simp

@[simp] theorem presenceLost_pinKey (k : SlotId) (s : State) : (presenceLost k s).pinKey = s.pinKey := by
  unfold presenceLost; split
  · dsimp only; split <;> rfl
  all_goals simp

@[simp] theorem releaseHold_pinKey (k : SlotId) (s : State) : (releaseHold k s).pinKey = s.pinKey :=
  pinKey_of_noLinks (releaseHold_noLinks k s)

@[simp] theorem succeed_pinKey (k : SlotId) (s : State) : (succeed k s).pinKey = s.pinKey := by simp [succeed]

@[simp] theorem darken_pinKey (k : SlotId) (s : State) : (darken k s).pinKey = s.pinKey := by unfold darken; split <;> simp

@[simp] theorem darkenAll_pinKey (s : State) : (darkenAll s).pinKey = s.pinKey :=
  foldl_keeps State.pinKey _ (fun s k => darken_pinKey k s) _ s

@[simp] theorem flushGap_pinKey (s : State) : (flushGap s).pinKey = s.pinKey := by
  unfold flushGap; dsimp only
  exact (pinKey_of_noLinks (refuseAll_noLinks _ _ _)).trans rfl

@[simp] theorem checkLoaded_pinKey (k : SlotId) (s : State) : (checkLoaded k s).pinKey = s.pinKey := by
  unfold checkLoaded; split
  · split
    · rw [withdrawSlot_pinKey]; rfl
    · rfl
  · rfl

theorem Held.takeLoadAck {s : State} (h : Held s) (k : SlotId) (x : Session) (p : List Byte) : Held (Machine.takeLoadAck k x p s) := by
  unfold Machine.takeLoadAck; dsimp only; split
  · exact h.fail _ _
  · have h' : Held (updSession k (Session.ackThrough (ackValue (rd16 p 0))) s) := h.congr rfl
    unfold applyResend; split
    · exact h'.congr (checkLoaded_pinKey _ _)
    · split
      · exact h'.fail _ _
      · refine Held.congr ?_ (checkLoaded_pinKey _ _); refine Held.requestBlocks ?_ _; exact h'.congr rfl

theorem Held.restoreAnswer {s : State} (h : Held s) (k : SlotId) (d : Kind) (p : List Byte) : Held (Machine.restoreAnswer k d p s) := by
  unfold Machine.restoreAnswer; split
  · exact h
  · split
    · exact h.takeLoadAck _ _ _
    · split
      · unfold takeStarted; split
        · exact h.fail _ _
        · split
          · exact h.congr (show (enterStage k .context s).pinKey = s.pinKey from rfl)
          · split
            · refine Held.fail ?_ _ _; exact h.congr rfl
            · exact h.fail _ _
      · exact h
    · split
      · unfold takeReady; repeat' split
        · exact h.fail _ _
        · exact h.fail _ _
        · exact h.fail _ _
        · exact h.congr (succeed_pinKey _ _)
      · exact h
    · exact h

@[simp] theorem captureRule_pinKey (c : CapSource) (f : Frame) (n : Option SlotId) (s : State) (r : CapRule) :
    (captureRule c f n s r).pinKey = s.pinKey := by
  unfold captureRule; split
  · refine foldl_keeps State.pinKey _ (fun s k => ?_) _ s
    unfold captureInto; dsimp only; split <;> rfl
  · rfl

@[simp] theorem capture_pinKey (c : CapSource) (f : Frame) (n : Option SlotId) (s : State) : (capture c f n s).pinKey = s.pinKey :=
  foldl_keeps State.pinKey _ (fun s r => captureRule_pinKey c f n s r) _ s

@[simp] theorem refuse_pinKey (r : RefuseReason) (f : Frame) (s : State) : (refuse r f s).pinKey = s.pinKey :=
  pinKey_of_noLinks (refuse_noLinks r f s)
@[simp] theorem pushOut_pinKey (b : BufId) (s : State) : (pushOut b s).pinKey = s.pinKey := rfl
@[simp] theorem pushHold_pinKey (k : SlotId) (b : BufId) (s : State) : (pushHold k b s).pinKey = s.pinKey := rfl
@[simp] theorem pushTrunk_pinKey (b : TxEntry) (s : State) : (pushTrunk b s).pinKey = s.pinKey := rfl
@[simp] theorem countOverrun_pinKey (p : Port) (s : State) : (countOverrun p s).pinKey = s.pinKey :=
  pinKey_of_noLinks (countOverrun_noLinks p s)
@[simp] theorem countBad_pinKey (p : Port) (s : State) : (countBad p s).pinKey = s.pinKey := pinKey_of_noLinks (countBad_noLinks p s)
@[simp] theorem countSent_pinKey (p : Port) (s : State) : (countSent p s).pinKey = s.pinKey := pinKey_of_noLinks (countSent_noLinks p s)
@[simp] theorem countOrphan_pinKey (s : State) : (countOrphan s).pinKey = s.pinKey := pinKey_of_noLinks (countOrphan_noLinks s)
@[simp] theorem reclaim_pinKey (b : BufId) (s : State) : (reclaim b s).pinKey = s.pinKey := rfl
@[simp] theorem dropRef_pinKey (b : BufId) (s : State) : (dropRef b s).pinKey = s.pinKey := rfl
@[simp] theorem stage_pinKey (p : Port) (bs : List Byte) (s : State) : (stage p bs s).pinKey = s.pinKey :=
  pinKey_of_noLinks (updPort_noLinks p _ s)
@[simp] theorem takeIn_pinKey (p : Port) (f : Frame) (s : State) : (takeIn p f s).2.pinKey = s.pinKey :=
  pinKey_of_noLinks (takeIn_noLinks p f s)

@[simp] theorem toOutbound_pinKey (b : BufId) (f : Frame) (s : State) : (toOutbound b f s).pinKey = s.pinKey :=
  by unfold toOutbound; split <;> simp

@[simp] theorem gateStation_pinKey (a : FwdAction) (b : BufId) (f : Frame) (s : State) : (gateStation a b f s).pinKey = s.pinKey := by
  unfold gateStation; repeat' split
  all_goals simp

@[simp] theorem gateGroup_pinKey (a : FwdAction) (b : BufId) (f : Frame) (s : State) : (gateGroup a b f s).pinKey = s.pinKey := by
  unfold gateGroup; split
  · rfl
  · rw [foldl_keeps State.pinKey _ (fun s k => by unfold holdCopy; split <;> simp)]
    split <;> simp

@[simp] theorem downstream_pinKey (b : BufId) (f : Frame) (s : State) : (downstream b f s).pinKey = s.pinKey := by
  unfold downstream; dsimp only; repeat' split
  all_goals simp

@[simp] theorem updOrigin_pinKey (o : Origin) (g : OriginRec → OriginRec) (s : State) : (updOrigin o g s).pinKey = s.pinKey :=
  by cases o <;> rfl

@[simp] theorem takeRequest_pinKey (o : Origin) (f : Frame) (s : State) : (takeRequest o f s).pinKey = s.pinKey := by
  unfold takeRequest; dsimp only; repeat' split
  all_goals simp

@[simp] theorem handOver_pinKey (l : Link) (b : BufId) (f : Frame) (s : State) : (handOver l b f s).pinKey = s.pinKey := by
  unfold handOver; split <;> simp

@[simp] theorem receiveOn_pinKey (l : Link) (bs : List Byte) (s : State) : (receiveOn l bs s).pinKey = s.pinKey := by
  unfold receiveOn; split
  · simp
  · next f _ =>
    split
    · have h := takeIn_pinKey (Link.origin l).port f s
      split <;> simp_all
    · simp

@[simp] theorem toTrunk_pinKey (b : BufId) (s : State) : (toTrunk b s).pinKey = s.pinKey := by unfold toTrunk; split <;> simp

@[simp] theorem upstreamData_pinKey (k : SlotId) (b : BufId) (f : Frame) (s : State) : (upstreamData k b f s).pinKey = s.pinKey := by
  unfold upstreamData; dsimp only; repeat' split
  all_goals simp

@[simp] theorem upstreamStatus_pinKey (b : BufId) (f : Frame) (s : State) : (upstreamStatus b f s).pinKey = s.pinKey := by
  unfold upstreamStatus; repeat' split
  all_goals simp

theorem Held.dispatch {s : State} (h : Held s) (k : SlotId) (b : BufId) (f : Frame) : Held (Machine.dispatch k b f s) := by
  unfold Machine.dispatch; split
  · exact h.bootCallAnswer _ _
  · exact h.restoreAnswer _ _ _
  · exact h.restoreAnswer _ _ _
  · exact h.restoreAnswer _ _ _
  · exact h.congr (by simp)
  · exact h.congr (by simp)
  all_goals exact h

@[simp] theorem missTurn_pinKey (k : SlotId) (s : State) : (missTurn k s).pinKey = s.pinKey := by
  unfold missTurn; split <;> simp

theorem Held.takeAnswer {s : State} (h : Held s) (t : Turn) (f : Frame) : Held (Machine.takeAnswer t f s) := by
  unfold Machine.takeAnswer; dsimp only
  have hk : ∀ u : State, (takeIn .segment f (if t.void then s else updSlot t.slot (fun x => { x with miss := 0 }) s)).2 = u → Held u := by
    intro u hu; refine h.congr ?_; rw [← hu, takeIn_pinKey]; split <;> simp
  split
  · next s' hx => exact hk _ (by rw [hx])
  · next b s' hx =>
    have := hk s' (by rw [hx])
    refine Held.congr ?_ (reclaim_pinKey _ _)
    split
    · exact this
    · exact this.dispatch _ _ _

/-- An answer judged at its end (R103, R107). -/
theorem Held.judgeAnswer {s : State} (h : Held s) (t : Turn) (bs : List Byte) : Held (Machine.judgeAnswer t bs s) := by
  unfold Machine.judgeAnswer; dsimp only
  repeat' split
  all_goals first | exact h.takeAnswer _ _ | exact h.congr (by simp)

@[simp] theorem leavePort_pinKey (s : State) : (leavePort s).pinKey = s.pinKey := rfl

@[simp] theorem closeTurn_pinKey (s : State) : (closeTurn s).pinKey = s.pinKey := by unfold closeTurn; split <;> rfl

@[simp] theorem voidTurn_pinKey (k : SlotId) (s : State) : (voidTurn k s).pinKey = s.pinKey := by unfold voidTurn; split <;> rfl

theorem clearRequests_pinKey (s : State) : (clearRequests s).pinKey = s.pinKey := rfl
theorem silence_pinKey (s : State) : (silence s).pinKey = s.pinKey := by unfold silence; rw [closeTurn_pinKey]; rfl

/-! ## Tables -/

/-- An accepted or refused write (R172). -/
theorem Held.writeConfig {s : State} (h : Held s) (t i : Nat) (e : List Byte) : Held (Machine.writeConfig t i e s).2 := by
  have h0 : ∀ e : Settings, (setSettings e s).pinKey = s.pinKey := by
    intro e
    unfold setSettings
    dsimp only
    rw [forFree_keeps State.pinKey]
    · rfl
    · intro s k
      unfold trimHold
      rw [foldl_keeps State.pinKey]
      · rfl
      · intro s b; unfold trimEntry; split
        · split
          · exact pinKey_of_noLinks (refuseEntry_noLinks _ _ _)
          · rfl
        · rfl
    · intro s n; rfl
  have h1 : ∀ (c : ClassId) (e : ClassEntry), (setClassEntry c e s).2.pinKey = s.pinKey := by
    intro c e
    unfold setClassEntry; split
    · rfl
    · dsimp only
      rw [foldl_keeps State.pinKey]
      · rfl
      · intro s k; unfold touchClass; dsimp only; split <;> rfl
  have h2 : ∀ (k : SlotId) (e : SlotEntry), (setSlotEntry k e s).2.pinKey = s.pinKey := by
    intro k e
    have he : ∀ old s, (slotEffects k old e s).pinKey = s.pinKey := by
      intro old s; unfold slotEffects
      split
      · split
        · rfl
        · split
          · simp
          · rfl
      · split <;> rfl
    unfold setSlotEntry; split
    · rfl
    · split
      · rfl
      · dsimp only; split
        · rw [voidTurn_pinKey, he]; rfl
        · rw [he]; rfl
  have h3 : ∀ (k : ImageId) (e : CatEntry), Held (setCatEntry k e s).2 := by
    intro k e
    unfold setCatEntry; split
    · exact h
    · dsimp only
      refine Held.restartCheck ?_ _
      have hd : Held (Machine.dropImage k (updCat k (fun c => { c with bad := false }) { s with tables := { s.tables with cat := s.tables.cat.set k e } })) :=
        Held.dropImage (Held.updCatClear (s := { s with tables := { s.tables with cat := s.tables.cat.set k e } }) (h.congr rfl) k) k
      split
      · refine hd.congr ?_
        rw [forFree_keeps State.pinKey]
        · intro s j; unfold outdate; dsimp only; split <;> rfl
        · intro s n; rfl
      · exact hd
  unfold Machine.writeConfig
  split <;> (try split)
  all_goals first | exact h.congr (h0 _) | exact h.congr (h1 _ _) | exact h.congr (h2 _ _) | exact h3 _ _ | exact h | exact h.congr rfl

theorem Held.carryOut {s : State} (h : Held s) (o : Origin) (t i : Nat) (e : List Byte) : Held (Machine.carryOut o t i e s) := by
  have hw := h.writeConfig t i e
  unfold Machine.carryOut
  split
  · next u hx => rw [hx] at hw; exact (hw.congr (rfl : (noteWrite t i u).pinKey = u.pinKey)).congr (finalReply_pinKey _ _ _ _ _)
  · next st u _ hx => rw [hx] at hw; exact hw.congr (finalReply_pinKey _ _ _ _ _)

@[simp] theorem reply_pinKey (o : Origin) (st : Status) (s : State) : (reply o st s).pinKey = s.pinKey := finalReply_pinKey _ _ _ _ _
@[simp] theorem replyOk_pinKey (o : Origin) (d : List Byte) (s : State) : (replyOk o d s).pinKey = s.pinKey := finalReply_pinKey _ _ _ _ _

/-- A long request that is no PIN takes the free slot (R168). -/
theorem Held.accept {s : State} (h : Held s) (hl : s.ma.long = none) (o : Origin) {j : LongJob} (hj : ∀ i w, j ≠ .pin i w) :
    Held (Machine.accept o j s) := by
  have hp : s.pinOf = none := by unfold State.pinOf; rw [hl]
  have hq : (Machine.accept o j s).pinOf = none := by
    unfold State.pinOf
    have : (Machine.accept o j s).ma.long = some ⟨o, j⟩ := by cases o <;> rfl
    rw [this]; cases j <;> first | rfl | exact absurd rfl (hj _ _)
  refine h.congr (Prod.ext ?_ (hq.trans hp.symm))
  cases o <;> rfl

/-- A request's row, where its own work keeps the balance (R168). -/
theorem Held.row {s : State} (h : Held s) (c : ReqCode) (work : Origin → List Byte → State → State)
    (hw : ∀ o a, (c.isLong = true → s.ma.long = none) → Held (work o a s)) : Held (serveRow c work s) := by
  unfold serveRow; split
  · split
    · unfold serve
      refine Held.congr ?_ (turnPointer_pinKey _ _)
      split
      · exact h.congr (by simp)
      · split
        · exact h.congr (by simp)
        · next hx =>
          apply hw
          intro hc
          simpa [hc] using hx
    · exact h
  · exact h

theorem Held.onSlot {s : State} (h : Held s) {f : Origin → SlotId → State → State} (hf : ∀ o k, (f o k s).pinKey = s.pinKey) (o : Origin) (a : List Byte) :
    Held (Machine.onSlot f o a s) := by
  unfold Machine.onSlot; split
  · exact h.congr (hf _ _)
  · exact h.congr (by simp)

theorem startLine_key (s : State) : (startLine s).pinKey = s.pinKey := by unfold startLine updLm; split <;> rfl

/-- After a full reset (R93, R132, R164). -/
theorem held_reset {s : State} (h1 : s.bc = State.reset.bc) (h2 : s.reader = .idle) (h3 : s.ma.long = none) : Held s := by
  refine .idle ?_ ?_ ⟨?_, ?_, ?_⟩ (by unfold State.pinOf; rw [h3])
  · intro l i b d hx
    rw [h1] at hx
    have : ∀ l : LineId, State.reset.bc.lines[l] = .empty := by decide +kernel
    rw [this l] at hx; cases hx
  · unfold Distinct; rw [h1]; exact .nil
  · rw [h1]; rfl
  · unfold inFlightPins; rw [h2]
  · rw [h1]; rfl

end Sys2Proof.Machine
end

