-- ==== Sys2Proof/Laws/Captured.lean ====
section
/-! SUPPORT. Capture changes context records alone, and reads tables, records and the slots' classes alone (R136, R139 to R142). -/

namespace Sys2Proof.Machine

set_option Elab.async false

/-- The same tables, records and classes: what capture reads. -/
def Alike (t s : State) : Prop := t.tables = s.tables ∧ t.ctx = s.ctx ∧ ∀ k : SlotId, t.slots[k].cls = s.slots[k].cls

/-- A step that changes the records alone, and changes them alike in alike states. -/
def RecordsOnly (g : State → State) : Prop :=
  (∀ s : State, g s = { s with ctx := (g s).ctx }) ∧ ∀ t s : State, Alike t s → (g t).ctx = (g s).ctx

theorem RecordsOnly.alike {g : State → State} (hg : RecordsOnly g) {t s : State} (h : Alike t s) : Alike (g t) (g s) := by
  refine ⟨?_, hg.2 t s h, fun k => ?_⟩
  · rw [hg.1 t, hg.1 s]; exact h.1
  · rw [hg.1 t, hg.1 s]; exact h.2.2 k

theorem RecordsOnly.foldl {α : Type} {g : State → α → State} (l : List α) (hg : ∀ a ∈ l, RecordsOnly (fun s => g s a)) :
    RecordsOnly (fun s => l.foldl g s) := by
  induction l with
  | nil => exact ⟨fun _ => rfl, fun _ _ h => h.2.1⟩
  | cons a as ih =>
    have ha := hg a (by simp)
    have has := ih (fun b hb => hg b (by simp [hb]))
    refine ⟨fun s => ?_, fun t s h => ?_⟩
    · have h1 : as.foldl g (g s a) = { g s a with ctx := (as.foldl g (g s a)).ctx } := has.1 (g s a)
      have h2 : g s a = { s with ctx := (g s a).ctx } := ha.1 s
      show as.foldl g (g s a) = { s with ctx := (as.foldl g (g s a)).ctx }
      generalize (as.foldl g (g s a)).ctx = c at h1 ⊢
      rw [h1, h2]
    · exact has.2 _ _ (ha.alike h)

theorem classOf_alike {t s : State} (h : Alike t s) (k : SlotId) : classOf k t = classOf k s := by
  unfold classOf; rw [h.2.2 k, h.1]

theorem captureInto_records (r : CapRule) (f : Frame) (k : SlotId) : RecordsOnly (captureInto r f k) := by
  refine ⟨fun s => ?_, fun t s h => ?_⟩
  · unfold captureInto; dsimp only; split <;> rfl
  · have hl : fieldLen k r.field t = fieldLen k r.field s := by unfold fieldLen; rw [classOf_alike h]
    unfold captureInto; dsimp only; rw [hl]
    split
    · exact h.2.1
    · show t.ctx.set _ _ = s.ctx.set _ _; rw [h.2.1]

theorem captureRule_records (src : CapSource) (f : Frame) (node : Option SlotId) (r : CapRule) :
    RecordsOnly (fun s => captureRule src f node s r) := by
  have htg : ∀ t s : State, Alike t s → (targets r.mode f node t).filter (fun k => inClassMask r.classMask k t) =
      (targets r.mode f node s).filter (fun k => inClassMask r.classMask k s) := by
    intro t s h
    have h1 : targets r.mode f node t = targets r.mode f node s := by unfold targets boundSlot isMember; rw [h.1]
    rw [h1]; congr 1; funext k; unfold inClassMask; rw [h.2.2 k]
  have hf : ∀ l : List SlotId, RecordsOnly (fun s => l.foldl (fun s k => captureInto r f k s) s) :=
    fun l => RecordsOnly.foldl l (fun k _ => captureInto_records r f k)
  refine ⟨fun s => ?_, fun t s h => ?_⟩ <;> dsimp only <;> unfold captureRule
  · split
    · exact (hf _).1 s
    · rfl
  · split
    · rw [htg t s h]; exact (hf _).2 t s h
    · exact h.2.1

/-- Capture changes context records alone. -/
theorem capture_only (src : CapSource) (f : Frame) (node : Option SlotId) (s : State) :
    capture src f node s = { s with ctx := (capture src f node s).ctx } :=
  (RecordsOnly.foldl s.tables.cap.toList (fun r _ => captureRule_records src f node r)).1 s

/-- Capture stores the same in alike states. -/
theorem capture_alike (src : CapSource) (f : Frame) (node : Option SlotId) {t s : State} (h : Alike t s) :
    capture src f node t = { t with ctx := (capture src f node s).ctx } := by
  rw [capture_only src f node t]
  have : (capture src f node t).ctx = (capture src f node s).ctx := by
    unfold capture; rw [h.1]
    exact (RecordsOnly.foldl s.tables.cap.toList (fun r _ => captureRule_records src f node r)).2 t s h
  rw [this]

end Sys2Proof.Machine
end

