-- ==== Sys2Proof/Laws/Queues.lean ====
section
/-! SUPPORT. The pool's law (R116) inside a step: what the operations on queues and buffers do to the reference counts, while entries
already taken from a queue still owe their release (`p`) and buffers just written hold a frame that no entry references yet (`w`). -/

namespace Sys2Proof.Machine

set_option Elab.async false

open Sys2Proof.Safety

/-- The pool's law for buffer `b`, which holds `x`, with releases owed for the entries `p` and with the buffers `w` just written. -/
def OwesAt (p w : List BufId) (q : Queues) (x : Buffer) (b : BufId) : Prop :=
  x.refs = references b q + p.count b ∧ (b ∉ w → (x.frame = none ↔ x.refs = 0)) ∧ (b ∈ w → x.frame ≠ none)

/-- The pool's law with releases owed for the entries `p` and with the buffers `w` just written (R116). -/
def Owes (p w : List BufId) (s : State) : Prop := ∀ b : BufId, OwesAt p w s.queues s.pool[b] b

/-- With nothing owed it is the law. -/
theorem owes_nil {s : State} : Owes [] [] s ↔ PoolLaw s := by
  unfold Owes OwesAt PoolLaw
  simp

/-- It reads pool and queues alone. -/
theorem Owes.congr {p w : List BufId} {s t : State} (h : Owes p w s) (hp : t.pool = s.pool) (hq : t.queues = s.queues) : Owes p w t := by
  unfold Owes at *; rw [hp, hq]; exact h

/-- What is owed may be written in another order. -/
theorem Owes.perm {p q w : List BufId} {s : State} (h : Owes p w s) (hpq : p.Perm q) : Owes q w s := by
  intro b; unfold OwesAt; rw [← hpq.count_eq b]; exact h b

/-- Entries taken from a queue are owed. -/
theorem Owes.taken {p w l : List BufId} {s : State} {q : Queues} (h : Owes p w s)
    (hq : ∀ b, references b s.queues = references b q + l.count b) : Owes (l ++ p) w { s with queues := q } := by
  intro b
  have hb := h b
  unfold OwesAt at hb
  rw [hq b] at hb
  refine ⟨?_, hb.2⟩
  rw [List.count_append]
  show s.pool[b].refs = references b q + _
  omega

/-- A buffer that some entry references holds a frame. -/
theorem Owes.frame {p w : List BufId} {s : State} (h : Owes p w s) {b : BufId} (hb : 0 < references b s.queues + p.count b) :
    s.pool[b].frame ≠ none := by
  by_cases hw : b ∈ w
  · exact (h b).2.2 hw
  · intro hf
    have := ((h b).2.1 hw).1 hf
    have := (h b).1
    omega

/-- A buffer just written, taken from the free list: nothing references it (R116). -/
theorem Owes.alloc {p w : List BufId} {s t : State} {b : BufId} {f : Frame} (h : Owes p w s) (ha : Machine.alloc f s = some (b, t)) :
    Owes p (b :: w) t ∧ t = { s with pool := s.pool.set b ⟨some f, 0⟩ } ∧ s.pool[b].frame = none ∧ b ∉ w ∧
      references b s.queues + p.count b = 0 := by
  obtain ⟨hf, rfl⟩ := alloc_spec ha
  have hw : b ∉ w := fun hw => (h b).2.2 hw hf
  have h0 : references b s.queues + p.count b = 0 := by
    have := ((h b).2.1 hw).1 hf
    have := (h b).1
    omega
  refine ⟨?_, rfl, hf, hw, h0⟩
  intro c
  by_cases hc : c = b
  · subst hc
    rw [set_same]
    exact ⟨h0.symm, fun hn => absurd List.mem_cons_self hn, fun _ => by simp⟩
  · rw [set_other _ hc]
    have := h c
    refine ⟨this.1, fun hn => this.2.1 (fun hm => hn (List.mem_cons_of_mem _ hm)), fun hm => this.2.2 ?_⟩
    rcases List.mem_cons.1 hm with e | e
    · exact absurd e hc
    · exact e

/-- An entry for a buffer that holds a frame, placed in a queue (R116). -/
theorem Owes.placed {p w : List BufId} {s : State} {b : BufId} {q : Queues} (h : Owes p w s) (hf : s.pool[b].frame ≠ none)
    (hq : ∀ c, references c q = references c s.queues + if c = b then 1 else 0) :
    Owes p (w.filter (· ≠ b)) (addRef b { s with queues := q }) := by
  intro c
  show OwesAt _ _ q (vmod s.pool b _)[c] c
  have hc' := h c
  unfold OwesAt at hc' ⊢
  rw [hq c]
  by_cases hc : c = b
  · subst hc
    rw [vmod_same]
    refine ⟨by simp only [if_true]; omega, fun _ => ?_, fun _ => hf⟩
    simp only [Nat.add_eq_zero_iff, one_ne_zero, and_false, iff_false]
    exact hf
  · rw [vmod_other _ hc]
    refine ⟨by simp only [if_neg hc]; omega, fun hn => hc'.2.1 (fun hm => hn ?_), fun hm => hc'.2.2 ?_⟩
    · simp [hm, hc]
    · exact (List.mem_filter.1 hm).1

/-- A buffer just written that no entry took goes back to the free list (R116). -/
theorem Owes.reclaim {p w : List BufId} {s : State} (h : Owes p w s) (b : BufId) :
    Owes p (w.filter (· ≠ b)) (Machine.reclaim b s) := by
  intro c
  show OwesAt _ _ s.queues (vmod s.pool b _)[c] c
  have hc' := h c
  by_cases hc : c = b
  · subst hc
    rw [vmod_same]
    by_cases h0 : s.pool[c].refs = 0
    · rw [if_pos h0]
      refine ⟨by have e := hc'.1; rw [h0] at e; exact e, fun _ => by simp, fun hm => by simp at hm⟩
    · rw [if_neg h0]
      refine ⟨hc'.1, fun _ => ?_, fun hm => by simp at hm⟩
      constructor
      · intro hf; exact absurd hf (h.frame (by rw [← hc'.1]; omega))
      · intro hr; exact absurd hr h0
  · rw [vmod_other _ hc]
    refine ⟨hc'.1, fun hn => hc'.2.1 (fun hm => hn ?_), fun hm => hc'.2.2 (List.mem_filter.1 hm).1⟩
    simp [hm, hc]

/-- A release owed is paid (R116). -/
theorem Owes.dropRef {p w : List BufId} {s : State} {b : BufId} (h : Owes (b :: p) w s) (hw : b ∉ w) : Owes p w (Machine.dropRef b s) := by
  have hb := h b
  unfold OwesAt at hb
  have h1 : Owes p w { s with pool := vmod s.pool b (fun x => ⟨if x.refs = 1 then none else x.frame, x.refs - 1⟩) } := by
    intro c
    show OwesAt _ _ s.queues (vmod s.pool b _)[c] c
    have hc' := h c
    unfold OwesAt at hc' ⊢
    by_cases hc : c = b
    · subst hc
      rw [vmod_same]
      rw [List.count_cons_self] at hc'
      refine ⟨by show s.pool[c].refs - 1 = _; omega, fun _ => ?_, fun hm => absurd hm hw⟩
      show (if s.pool[c].refs = 1 then none else s.pool[c].frame) = none ↔ s.pool[c].refs - 1 = 0
      have hf := h.frame (b := c) (by rw [List.count_cons_self]; omega)
      by_cases h1 : s.pool[c].refs = 1
      · rw [if_pos h1]; simp [h1, -Fin.getElem_fin]
      · rw [if_neg h1]; exact ⟨fun e => absurd e hf, fun e => by omega⟩
    · rw [vmod_other _ hc]
      rw [List.count_cons_of_ne (Ne.symm hc)] at hc'
      exact hc'
  refine h1.congr ?_ rfl
  show vmod (vmod s.pool b _) b _ = _
  rw [vmod, vmod_same, vmod, set_set, vmod]
  congr 1
  rw [List.count_cons_self] at hb
  by_cases h1 : s.pool[b].refs = 1
  · simp [h1, -Fin.getElem_fin]
  · have : s.pool[b].refs - 1 ≠ 0 := by omega
    simp [h1, this, -Fin.getElem_fin]

/-! ## Entries placed -/

/-- References to `c` after an entry for `b` joined a queue. -/
theorem references_out (c b : BufId) (q : Queues) :
    references c { q with out := q.out ++ [b] } = references c q + if c = b then 1 else 0 := by
  unfold references
  simp only [List.count_append, List.count_singleton, beq_iff_eq]
  by_cases h : b = c
  · simp [h]; omega
  · simp [h, Ne.symm h]

theorem references_trunk (c : BufId) (e : TxEntry) (q : Queues) :
    references c { q with trunk := q.trunk ++ [e] } = references c q + if c = e.buf then 1 else 0 := by
  unfold references
  simp only [List.map_append, List.map_cons, List.map_nil, List.count_append, List.count_singleton, beq_iff_eq]
  by_cases h : e.buf = c
  · simp [h]; omega
  · simp [h, Ne.symm h]

theorem references_service (c : BufId) (e : TxEntry) (q : Queues) :
    references c { q with service := q.service ++ [e] } = references c q + if c = e.buf then 1 else 0 := by
  unfold references
  simp only [List.map_append, List.map_cons, List.map_nil, List.count_append, List.count_singleton, beq_iff_eq]
  by_cases h : e.buf = c
  · simp [h]; omega
  · simp [h, Ne.symm h]

/-- The count over all hold queues after one of them is set. -/
theorem count_hold_set (c : BufId) (v : Vector (List BufId) 32) (k : SlotId) (l : List BufId) :
    (v.set k l).toList.flatten.count c + v[k].count c = v.toList.flatten.count c + l.count c := by
  have hv : v.toList = v.toList.take k ++ v[k] :: v.toList.drop (k + 1) := by
    have : v[k] = v.toList[k.val]'(by simp) := by simp
    rw [this, List.getElem_cons_drop, List.take_append_drop]
  have hs : (v.set k l).toList = v.toList.take k ++ l :: v.toList.drop (k + 1) := by
    rw [Vector.toList_set, List.set_eq_take_append_cons_drop, if_pos (by simp)]
  rw [hs]
  conv_rhs => rw [hv]
  simp only [List.flatten_append, List.flatten_cons, List.count_append]
  omega

theorem references_hold (c b : BufId) (k : SlotId) (q : Queues) :
    references c { q with hold := vmod q.hold k (fun h => h ++ [b]) } = references c q + if c = b then 1 else 0 := by
  unfold references vmod
  have h := count_hold_set c q.hold k (q.hold[k] ++ [b])
  simp only [List.count_append, List.count_singleton, beq_iff_eq] at h
  by_cases hb : b = c
  · simp [hb, -Fin.getElem_fin] at h ⊢; omega
  · simp [hb, Ne.symm hb, -Fin.getElem_fin] at h ⊢; omega

/-- References to `c` after slot `k`'s hold queue is emptied. -/
theorem references_clear (c : BufId) (k : SlotId) (q : Queues) :
    references c q = references c { q with hold := q.hold.set k [] } + q.hold[k].count c := by
  unfold references
  have h := count_hold_set c q.hold k []
  simp only [List.count_nil] at h
  simp only
  omega

/-! ## REFUSE and flushes -/

/-- A buffer set aside and dropped from the list of those just written: the list is as it was. -/
theorem filter_fresh {w : List BufId} {b : BufId} (h : b ∉ w) : (b :: w).filter (· ≠ b) = w := by
  simp only [ne_eq, decide_not, List.filter_cons, decide_true, Bool.not_true, Bool.false_eq_true, if_false]
  rw [List.filter_eq_self]
  intro x hx
  simp only [Bool.not_eq_true', decide_eq_false_iff_not]
  rintro rfl
  exact h hx

/-- A frame built into a free buffer that an entry takes (R116, R118). -/
theorem Owes.build {p w : List BufId} {s t : State} {b : BufId} {f : Frame} {q : Queues} (h : Owes p w s)
    (ha : Machine.alloc f s = some (b, t)) (hq : ∀ c, references c q = references c s.queues + if c = b then 1 else 0) :
    Owes p w (addRef b { t with queues := q }) := by
  obtain ⟨h1, rfl, _, hw, _⟩ := h.alloc ha
  have := h1.placed (b := b) (q := q) (by show (s.pool.set b _)[b].frame ≠ none; rw [set_same]; simp) hq
  rwa [filter_fresh hw] at this

/-- A REFUSE keeps the law (R118, R127). -/
theorem Owes.refuse {p w : List BufId} {s : State} (h : Owes p w s) (r : RefuseReason) (f : Frame) : Owes p w (Machine.refuse r f s) := by
  unfold Machine.refuse
  split
  · exact h
  · next b t ha =>
    split
    · have ht := (alloc_spec ha).2
      subst ht
      exact h.build ha (fun c => references_trunk c ⟨b, false⟩ s.queues)
    · obtain ⟨h1, _, _, hw, _⟩ := h.alloc ha
      have h2 := h1.reclaim b
      rw [filter_fresh hw] at h2
      exact h2.congr (by simp [countOverrun, raise]) (by simp [countOverrun, raise])

/-- A removed entry's release is paid, its REFUSE made or not (R118, R126). -/
theorem Owes.refuseEntry {p w : List BufId} {s : State} {b : BufId} (h : Owes (b :: p) w s) (hw : b ∉ w) (r : RefuseReason) :
    Owes p w (Machine.refuseEntry r b s) := by
  unfold Machine.refuseEntry
  split
  · split
    · exact (h.refuse r _).dropRef hw
    · exact h.dropRef hw
  · exact h.dropRef hw

/-- A flush pays what its entries owe (R126). -/
theorem Owes.refuseAll {p w : List BufId} (r : RefuseReason) (bs : List BufId) {s : State} (h : Owes (bs ++ p) w s)
    (hw : ∀ b ∈ bs, b ∉ w) : Owes p w (Machine.refuseAll r bs s) := by
  induction bs generalizing s with
  | nil => exact h
  | cons b bs ih => exact ih (Owes.refuseEntry h (hw b (by simp)) r) (fun c hc => hw c (by simp [hc]))

/-- A flush without REFUSE pays what its entries owe (R113, R126). -/
theorem Owes.releaseAll {p w : List BufId} (bs : List BufId) {s : State} (h : Owes (bs ++ p) w s)
    (hw : ∀ b ∈ bs, b ∉ w) : Owes p w (Machine.releaseAll bs s) := by
  induction bs generalizing s with
  | nil => exact h
  | cons b bs ih => exact ih (Owes.dropRef h (hw b (by simp))) (fun c hc => hw c (by simp [hc]))

/-- Slot `k`'s hold queue flushed keeps the law (R126). -/
theorem Owes.flushHold {p : List BufId} {s : State} (h : Owes p [] s) (k : SlotId) : Owes p [] (Machine.flushHold k s) :=
  Owes.refuseAll _ _ (h.taken (fun b => references_clear b k s.queues)) (by simp)

/-! ## What a flush that finds room comes to -/

/-- A REFUSE that finds a free buffer and room: it stands at the tail of the trunk queue (R118, R127). -/
theorem refuse_placed (r : RefuseReason) (f : Frame) {s : State} (hf : freeBufs s ≠ []) (hl : s.queues.trunk.length < 48) :
    ∃ b : BufId, s.pool[b].frame = none ∧ Machine.refuse r f s = addRef b { s with
      pool := s.pool.set b ⟨some (refuseFrame r f s), 0⟩, queues := { s.queues with trunk := s.queues.trunk ++ [⟨b, false⟩] } } := by
  obtain ⟨b, hb, ha⟩ := alloc_free (f := refuseFrame r f s) hf
  refine ⟨b, hb, ?_⟩
  unfold Machine.refuse
  rw [ha]
  exact if_pos hl

/-- The buffer of a released entry is the only one whose frame can go. -/
theorem dropRef_frame (b c : BufId) (s : State) : (Machine.dropRef b s).pool[c].frame = s.pool[c].frame ∨
    c = b ∧ s.pool[b].refs ≤ 1 := by
  by_cases hc : c = b
  · subst hc
    by_cases h : s.pool[c].refs ≤ 1
    · exact .inr ⟨rfl, h⟩
    · left
      show (vmod (vmod s.pool c _) c _)[c].frame = _
      rw [vmod_same, vmod_same]
      have : s.pool[c].refs - 1 ≠ 0 := by omega
      simp [this, -Fin.getElem_fin]
  · left
    show (vmod (vmod s.pool b _) b _)[c].frame = _
    rw [vmod_other _ hc, vmod_other _ hc]

/-- How many buffers are free after one reference is released: no fewer. -/
theorem dropRef_free (b : BufId) (s : State) : (freeBufs s).length ≤ (freeBufs (Machine.dropRef b s)).length := by
  unfold freeBufs
  rw [← List.countP_eq_length_filter, ← List.countP_eq_length_filter]
  apply List.countP_mono_left
  intro c _ hc
  rcases dropRef_frame b c s with h | ⟨rfl, h⟩
  · rw [h]; exact hc
  · show (vmod (vmod s.pool c _) c _)[c].frame.isNone = true
    rw [vmod_same, vmod_same]
    have : s.pool[c].refs - 1 = 0 := by omega
    simp [this, -Fin.getElem_fin]

/-- How many buffers are free after a frame is built in one: one fewer at most. -/
theorem build_free (b : BufId) (f : Frame) (e : TxEntry) (s : State) :
    (freeBufs s).length ≤ (freeBufs (addRef e.buf { s with
      pool := s.pool.set b ⟨some f, 0⟩, queues := { s.queues with trunk := s.queues.trunk ++ [e] } })).length + 1 := by
  have hsub : (freeBufs s) ⊆ b :: freeBufs (addRef e.buf { s with
      pool := s.pool.set b ⟨some f, 0⟩, queues := { s.queues with trunk := s.queues.trunk ++ [e] } }) := by
    intro c hc
    by_cases hcb : c = b
    · rw [hcb]; exact List.mem_cons_self
    · refine List.mem_cons_of_mem _ ?_
      have hf : s.pool[c].frame.isNone = true := (List.mem_filter.1 hc).2
      refine List.mem_filter.2 ⟨List.mem_finRange c, ?_⟩
      show (vmod (s.pool.set b _) e.buf _)[c].frame.isNone = true
      by_cases hce : c = e.buf
      · subst hce; rw [vmod_same, set_other _ hcb]; exact hf
      · rw [vmod_other _ hce, set_other _ hcb]; exact hf
  have hn : (freeBufs s).Nodup := (List.nodup_finRange 64).filter _
  simpa using hn.subperm hsub |>.length_le

/-- The frames that entries name are read off alike where their buffers hold the same. -/
theorem refusalsOf_congr (r : RefuseReason) (bs : List BufId) {s t : State} (ht : t.tables = s.tables)
    (h : ∀ b ∈ bs, t.pool[b].frame = s.pool[b].frame) : refusalsOf r bs t = refusalsOf r bs s := by
  unfold refusalsOf
  rw [ht, List.filterMap_congr h]

/-- A flush whose entries are answered in their order: with a free buffer and a place in the trunk queue for each, no counter and no
attention entry changes, and the REFUSEs stand at the tail of the trunk queue (R118, R126, R127). -/
theorem refuseAll_room (r : RefuseReason) {p : List BufId} (bs : List BufId) (s : State) (h : Owes (bs ++ p) [] s)
    (hl : s.queues.trunk.length + bs.length ≤ 48) (hf : bs.length ≤ (freeBufs s).length) :
    (Machine.refuseAll r bs s).ports = s.ports ∧ (Machine.refuseAll r bs s).au = s.au ∧
      (∀ c, 0 < references c s.queues + p.count c → (Machine.refuseAll r bs s).pool[c].frame = s.pool[c].frame) ∧
      ∃ new : List TxEntry, (Machine.refuseAll r bs s).queues = { s.queues with trunk := s.queues.trunk ++ new } ∧
        (∀ e ∈ new, e.resets = false) ∧
        new.map (fun e => (Machine.refuseAll r bs s).pool[e.buf].frame) = (refusalsOf r bs s).map some := by
  induction bs generalizing s with
  | nil => exact ⟨rfl, rfl, fun _ _ => rfl, [], by simp [Machine.refuseAll], by simp, rfl⟩
  | cons b bs ih =>
    have hpos : ∀ c, 0 < references c s.queues + (bs ++ p).count c → s.pool[c].frame ≠ none := by
      intro c hc
      refine h.frame ?_
      have : (bs ++ p).count c ≤ ((b :: bs) ++ p).count c := by
        rw [List.cons_append, List.count_cons]; omega
      omega
    have hb2 : 0 < references b s.queues + (bs ++ p).count b → 1 < s.pool[b].refs := by
      intro hc
      have := (h b).1
      rw [List.cons_append, List.count_cons_self] at this
      omega
    obtain ⟨f, hbf⟩ := Option.ne_none_iff_exists'.1
      (h.frame (b := b) (by rw [List.cons_append, List.count_cons_self]; omega))
    have step : Machine.refuseAll r (b :: bs) s = Machine.refuseAll r bs (Machine.refuseEntry r b s) := rfl
    have ho : Owes (bs ++ p) [] (Machine.refuseEntry r b s) := Owes.refuseEntry h (by simp) r
    rw [step]
    simp only [List.length_cons] at hl hf
    by_cases hs : isStation f.dst = true
    · obtain ⟨x, hx, he⟩ := refuse_placed r f (s := s) (by intro e; rw [e] at hf; simp at hf) (by omega)
      have hr : Machine.refuseEntry r b s = Machine.dropRef b (Machine.refuse r f s) := by
        unfold Machine.refuseEntry; rw [hbf]; simp only [hs, if_true]
      have hxb : x ≠ b := by rintro rfl; rw [hx] at hbf; simp at hbf
      have hq : (Machine.refuseEntry r b s).queues = { s.queues with trunk := s.queues.trunk ++ [⟨x, false⟩] } := by rw [hr, he]; rfl
      have hfr : ∀ c, 0 < references c s.queues + (bs ++ p).count c →
          (Machine.refuseEntry r b s).pool[c].frame = s.pool[c].frame := by
        intro c hc
        have hcx : c ≠ x := by rintro rfl; exact hpos c hc hx
        have h1 : (Machine.refuse r f s).pool[c] = s.pool[c] := by
          rw [he]
          show (vmod (s.pool.set x _) x _)[c] = _
          rw [vmod_other _ hcx, set_other _ hcx]
        rw [hr, ← congrArg Buffer.frame h1]
        rcases dropRef_frame b c (Machine.refuse r f s) with e | ⟨rfl, e⟩
        · exact e
        · exfalso
          have := hb2 hc
          have e' : (Machine.refuse r f s).pool[c].refs = s.pool[c].refs := congrArg Buffer.refs h1
          omega
      have hfx : (Machine.refuseEntry r b s).pool[x].frame = some (refuseFrame r f s) := by
        rw [hr]
        have h1 : (Machine.refuse r f s).pool[x].frame = some (refuseFrame r f s) := by
          rw [he]
          show (vmod (s.pool.set x _) x _)[x].frame = _
          rw [vmod_same, set_same]
        rcases dropRef_frame b x (Machine.refuse r f s) with e | ⟨e, _⟩
        · rw [e, h1]
        · exact absurd e hxb
      have hfree : (freeBufs s).length ≤ (freeBufs (Machine.refuseEntry r b s)).length + 1 := by
        rw [hr]
        have h1 := dropRef_free b (Machine.refuse r f s)
        have h2 := build_free x (refuseFrame r f s) ⟨x, false⟩ s
        rw [← he] at h2
        omega
      obtain ⟨h1, h2, h3, new, h4, h5, h6⟩ := ih (Machine.refuseEntry r b s) ho
        (by rw [hq]; simp only [List.length_append, List.length_cons, List.length_nil]; omega) (by omega)
      refine ⟨by rw [h1, hr, he]; rfl, by rw [h2, hr, he]; rfl, ?_, ⟨x, false⟩ :: new, ?_, ?_, ?_⟩
      · intro c hc
        rw [h3 c (by rw [hq, references_trunk]; omega), hfr c (by rw [List.count_append]; omega)]
      · rw [h4, hq]; simp
      · intro e hm
        rcases List.mem_cons.1 hm with rfl | hm
        · rfl
        · exact h5 e hm
      · rw [List.map_cons, h6, h3 x (by rw [hq, references_trunk]; simp), hfx]
        rw [refusalsOf_congr r bs (by rw [hr, he]; rfl) (fun c hc => hfr c (by
          have : 0 < (bs ++ p).count c := List.count_pos_iff.2 (List.mem_append_left _ hc)
          omega))]
        unfold refusalsOf
        rw [List.filterMap_cons, hbf]
        simp only [List.filter_cons, hs, if_true, List.map_cons]
        rfl
    · have hr : Machine.refuseEntry r b s = Machine.dropRef b s := by
        unfold Machine.refuseEntry; rw [hbf]; simp only [hs]; rfl
      have hfr : ∀ c, 0 < references c s.queues + (bs ++ p).count c →
          (Machine.refuseEntry r b s).pool[c].frame = s.pool[c].frame := by
        intro c hc
        rw [hr]
        rcases dropRef_frame b c s with e | ⟨rfl, e⟩
        · exact e
        · have := hb2 hc; omega
      have hq : (Machine.refuseEntry r b s).queues = s.queues := by rw [hr]; rfl
      obtain ⟨h1, h2, h3, new, h4, h5, h6⟩ := ih (Machine.refuseEntry r b s) ho (by rw [hq]; omega)
        (by have := dropRef_free b s; rw [hr]; omega)
      refine ⟨by rw [h1, hr]; rfl, by rw [h2, hr]; rfl, ?_, new, by rw [h4, hq], h5, ?_⟩
      · intro c hc
        rw [h3 c (by rw [hq]; exact hc), hfr c (by rw [List.count_append]; omega)]
      · rw [h6, refusalsOf_congr r bs (by rw [hr]; rfl) (fun c hc => hfr c (by
          have : 0 < (bs ++ p).count c := List.count_pos_iff.2 (List.mem_append_left _ hc)
          omega))]
        unfold refusalsOf
        rw [List.filterMap_cons, hbf]
        simp only [List.filter_cons, hs]
        rfl

/-! ## The queues at the engine reset (R133) -/

/-- A flush without REFUSE leaves a buffer its frame or frees it. -/
theorem releaseAll_frame (bs : List BufId) (b : BufId) (s : State) :
    (releaseAll bs s).pool[b].frame = s.pool[b].frame ∨ (releaseAll bs s).pool[b].frame = none := by
  induction bs generalizing s with
  | nil => exact .inl rfl
  | cons c bs ih =>
    have hd : (dropRef c s).pool[b].frame = s.pool[b].frame ∨ (dropRef c s).pool[b].frame = none := by
      by_cases hb : b = c
      · subst hb
        show (vmod (vmod s.pool b _) b _)[b].frame = _ ∨ (vmod (vmod s.pool b _) b _)[b].frame = _
        rw [vmod_same, vmod_same]
        dsimp only
        split
        · exact .inr rfl
        · exact .inl rfl
      · left
        show (vmod (vmod s.pool c _) c _)[b].frame = _
        rw [vmod_other _ hb, vmod_other _ hb]
    rcases ih (dropRef c s) with h | h
    · rcases hd with h' | h'
      · exact .inl (h.trans h')
      · exact .inr (h.trans h')
    · exact .inr h

theorem releaseAll_queues (bs : List BufId) (s : State) : (releaseAll bs s).queues = s.queues := by
  induction bs generalizing s with
  | nil => rfl
  | cons c bs ih => exact (ih _).trans rfl

theorem resetQueues_queues (s : State) : (resetQueues s).queues =
    { s.queues with hold := Vector.replicate 32 [], out := outKept s, trunk := trunkKept s } := by
  unfold resetQueues; rw [releaseAll_queues]; rfl

/-- The outbound queue is its entry under transmission and the rest (R110). -/
theorem outKept_append (s : State) : s.queues.out = outKept s ++ outFlushed s := by
  unfold outKept outFlushed
  split
  · exact (List.take_append_drop 1 _).symm
  · rfl

/-- The queues at the engine reset keep the pool's law (R116, R133). -/
theorem resetQueues_pool {s : State} (h : PoolLaw s) : PoolLaw (Machine.resetQueues s) := by
  rw [← owes_nil] at h ⊢
  unfold resetQueues
  have hq : ∀ b, references b s.queues = references b { s.queues with hold := Vector.replicate 32 [], out := outKept s, trunk := trunkKept s } +
      (s.queues.hold.toList.flatten ++ outFlushed s ++ (trunkDropped s).map TxEntry.buf).count b := by
    intro b
    have h1 : s.queues.out.count b = (outKept s).count b + (outFlushed s).count b := by
      conv_lhs => rw [outKept_append s]
      exact List.count_append
    have h2 : (s.queues.trunk.map TxEntry.buf).count b = ((trunkKept s).map TxEntry.buf).count b + ((trunkDropped s).map TxEntry.buf).count b := by
      unfold trunkKept trunkDropped
      cases s.queues.trunk with
      | nil => rfl
      | cons e es =>
        have := (List.filter_append_perm (isReply s) es).map TxEntry.buf |>.count_eq b
        simp only [List.map_append, List.count_append] at this
        simp only [List.map_cons, List.count_cons, List.tail_cons]
        omega
    have h3 : ((Vector.replicate 32 ([] : List BufId)).toList.flatten).count b = 0 := by simp
    unfold references
    simp only [List.count_append]
    rw [h3]
    omega
  have := Owes.taken h hq
  exact Owes.releaseAll _ this (by simp)

/-- After it a buffer that an entry kept references holds its frame, and every other is free (R133). -/
theorem resetQueues_frames {s : State} (h : PoolLaw s) (b : BufId) :
   (0 < references b (resetQueues s).queues → (resetQueues s).pool[b].frame = s.pool[b].frame) ∧
   (references b (resetQueues s).queues = 0 → (resetQueues s).pool[b] = ⟨none, 0⟩) := by
  have hu := resetQueues_pool h
  refine ⟨fun hr => ?_, fun hr => ?_⟩
  · have := (releaseAll_frame (s.queues.hold.toList.flatten ++ outFlushed s ++ (trunkDropped s).map TxEntry.buf) b (updQueues (fun q => { q with hold := Vector.replicate 32 [], out := outKept s, trunk := trunkKept s }) s))
    rcases this with h1 | h1
    · exact h1
    · have := (hu b).2.1 h1
      have := (hu b).1
      omega
  · have h1 := (hu b).1
    have h2 := (hu b).2.2 (by omega)
    generalize (resetQueues s).pool[b] = x at *
    cases x; simp_all

end Sys2Proof.Machine
end

