-- ==== Sys2Proof/Laws/Gap.lean ====
section
/-! SUPPORT. What a confirmed gap comes to on queues, slots, fills and users counts (R18, R110, R155). -/

namespace Sys2Proof.Machine

set_option Elab.async false

open Sys2Proof.Safety

/-! ## Queues merged in a free order -/

/-- Queues without their empty members. -/
theorem flatten_live {α : Type} (qs : List (List α)) : (qs.filter (fun q => !q.isEmpty)).flatten = qs.flatten := by
  induction qs with
  | nil => rfl
  | cons q qs ih => cases q <;> simp [ih]

/-- Lengths without the empty members. -/
theorem sum_live {α : Type} (qs : List (List α)) :
    ((qs.filter (fun q => !q.isEmpty)).map List.length).sum = (qs.map List.length).sum := by
  rw [← List.length_flatten, ← List.length_flatten, flatten_live]

/-- A member of the queues stands among the live ones or is empty. -/
theorem mem_live {α : Type} {qs : List (List α)} {q : List α} (h : q ∈ qs) : q = [] ∨ q ∈ qs.filter (fun q => !q.isEmpty) := by
  cases q with
  | nil => exact .inl rfl
  | cons x xs => exact .inr (List.mem_filter.2 ⟨h, rfl⟩)

/-- The first of queue `i` taken out of the queues. -/
theorem flatten_take {α : Type} : ∀ (qs : List (List α)) (i : Nat) (x : α) (xs : List α), qs[i]? = some (x :: xs) →
    qs.flatten.Perm (x :: (qs.set i xs).flatten)
  | [], _, _, _, h => by simp at h
  | q :: qs, 0, x, xs, h => by
    simp only [List.getElem?_cons_zero, Option.some.injEq] at h
    subst h; simp
  | q :: qs, i + 1, x, xs, h => by
    simp only [List.getElem?_cons_succ] at h
    have := flatten_take qs i x xs h
    simp only [List.flatten_cons, List.set_cons_succ]
    exact ((this.append_left q).trans List.perm_middle)

/-- A merge takes every entry once, each queue in its own order, whatever the free order is (R155). -/
theorem freeMerge_spec {α : Type} : ∀ (n t : Nat) (qs : List (List α)), (qs.map List.length).sum ≤ n →
    (freeMerge n t qs).1.Perm qs.flatten ∧ ∀ q ∈ qs, q.Sublist (freeMerge n t qs).1
  | 0, t, qs, h => by
    rw [← List.length_flatten] at h
    have h0 : qs.flatten = [] := List.eq_nil_of_length_eq_zero (by omega)
    refine ⟨by rw [h0]; rfl, fun q hq => ?_⟩
    have : q = [] := List.flatten_eq_nil_iff.1 h0 q hq
    rw [this]; exact List.nil_sublist _
  | n + 1, t, qs, h => by
    have hs := sum_live qs
    have hfl := flatten_live qs
    have hm : ∀ q ∈ qs, q = [] ∨ q ∈ qs.filter (fun q => !q.isEmpty) := fun q hq => mem_live hq
    have hne : ∀ q ∈ qs.filter (fun q => !q.isEmpty), q ≠ [] := by
      intro q hq e; have := (List.mem_filter.1 hq).2; simp [e] at this
    unfold freeMerge
    generalize qs.filter (fun q => !q.isEmpty) = live at *
    match live, hs, hfl, hm, hne with
    | [], hs, hfl, hm, _ =>
      refine ⟨by rw [← hfl]; rfl, fun q hq => ?_⟩
      rcases hm q hq with e | e
      · rw [e]
      · simp at e
    | [q], hs, hfl, hm, _ =>
      refine ⟨by rw [← hfl]; simp, fun q' hq => ?_⟩
      rcases hm q' hq with e | e
      · rw [e]; exact List.nil_sublist _
      · simp only [List.mem_singleton] at e; rw [e]
    | q :: q' :: rest, hs, hfl, hm, hne =>
      dsimp only
      have hi : Config.pick t % (q :: q' :: rest).length < (q :: q' :: rest).length := Nat.mod_lt _ (by simp)
      generalize Config.pick t % (q :: q' :: rest).length = i at *
      rw [List.getD_eq_getElem _ _ hi]
      obtain ⟨x, xs, hx⟩ : ∃ x xs, (q :: q' :: rest)[i] = x :: xs := by
        have := hne _ (List.getElem_mem hi)
        cases hc : (q :: q' :: rest)[i] with
        | nil => exact absurd hc this
        | cons x xs => exact ⟨x, xs, rfl⟩
      rw [hx]
      dsimp only
      have hx? : (q :: q' :: rest)[i]? = some (x :: xs) := by rw [List.getElem?_eq_getElem hi, hx]
      have hp := flatten_take _ i x xs hx?
      have hlen : (((q :: q' :: rest).set i xs).map List.length).sum ≤ n := by
        rw [← List.length_flatten] at hs ⊢
        have := hp.length_eq
        simp only [List.length_cons] at this
        omega
      obtain ⟨h1, h2⟩ := freeMerge_spec n (t + 1) ((q :: q' :: rest).set i xs) hlen
      refine ⟨?_, fun z hz => ?_⟩
      · rw [← hfl]; exact (h1.cons x).trans hp.symm
      · rcases hm z hz with e | e
        · rw [e]; exact List.nil_sublist _
        · obtain ⟨j, hj, hzj⟩ := List.getElem_of_mem e
          by_cases hij : i = j
          · subst hij
            rw [hx] at hzj
            rw [← hzj]
            exact (h2 xs (by rw [List.mem_iff_getElem]; exact ⟨i, by simpa using hj, by simp⟩)).cons_cons x
          · refine (h2 z ?_).cons x
            rw [List.mem_iff_getElem]
            exact ⟨j, by simpa using hj, by rw [List.getElem_set_ne hij]; exact hzj⟩

/-! ## Slots to DARK -/

/-- The slots of `l` whose session a confirmed gap ends (R18). -/
def goneIn (l : List SlotId) (s : State) (k : SlotId) : Bool :=
  l.contains k && (s.slots[k].session.isSome && decide (s.slots[k].state ≠ .vacant ∧ s.slots[k].state ≠ .failed))

/-- A fill entry after the requesters `g` are withdrawn (R77). -/
def FillEntry.without (g : SlotId → Bool) (s : State) (e : FillEntry) : FillEntry :=
  { e with reqs := e.reqs.filter (fun k => !g k), rank := if e.reqs.any g then rankOf (e.reqs.filter (fun k => !g k)) s else e.rank }

/-- Ranks are read off classes and tables. -/
theorem rankOf_congr (l : List SlotId) {s t : State} (ht : t.tables = s.tables) (h : ∀ k : SlotId, t.slots[k].cls = s.slots[k].cls) :
    rankOf l t = rankOf l s := by
  unfold rankOf slotRank
  rw [ht]
  simp only [h]

/-- Requesters withdrawn one after another. -/
theorem without_step (g : SlotId → Bool) (k : SlotId) (hk : g k = false) (e : FillEntry) {s t : State}
    (ht : ∀ l, rankOf l t = rankOf l s) :
    (if (e.without g s).reqs.contains k then
      { e.without g s with
        reqs := (e.without g s).reqs.filter (· ≠ k), rank := rankOf ((e.without g s).reqs.filter (· ≠ k)) t }
     else e.without g s) = e.without (fun j => g j || decide (j = k)) s := by
  have hf : (e.without g s).reqs.filter (· ≠ k) = e.reqs.filter (fun j => !(g j || decide (j = k))) := by
    unfold FillEntry.without
    rw [List.filter_filter]
    congr 1; funext j; simp [Bool.and_comm]
  by_cases hc : k ∈ e.reqs
  · have h1 : (e.without g s).reqs.contains k = true := by
      simp [FillEntry.without, hc, hk]
    rw [if_pos h1, hf, ht]
    have h2 : e.reqs.any (fun j => g j || decide (j = k)) = true := by
      rw [List.any_eq_true]; exact ⟨k, hc, by simp⟩
    unfold FillEntry.without
    rw [h2]; rfl
  · have h1 : (e.without g s).reqs.contains k = false := by
      simp [FillEntry.without, hc]
    rw [h1]
    have h2 : e.reqs.filter (fun j => !(g j || decide (j = k))) = e.reqs.filter (fun j => !g j) := by
      apply List.filter_congr; intro j hj
      have : j ≠ k := by rintro rfl; exact hc hj
      simp [this]
    have h3 : e.reqs.any (fun j => g j || decide (j = k)) = e.reqs.any g := by
      rw [Bool.eq_iff_iff, List.any_eq_true, List.any_eq_true]
      constructor
      · rintro ⟨j, hj, h⟩
        have : j ≠ k := by rintro rfl; exact hc hj
        exact ⟨j, hj, by simpa [this] using h⟩
      · rintro ⟨j, hj, h⟩; exact ⟨j, hj, by simp [h]⟩
    unfold FillEntry.without
    rw [h2, h3]; rfl

/-- What stands after the slots of `l` have gone to DARK, whatever the order (R18, R30, R33, R77). -/
structure Dimmed (l : List SlotId) (s t : State) : Prop where
  slot : ∀ k : SlotId, t.slots[k] =
    if k ∈ l ∧ s.slots[k].state ≠ .vacant ∧ s.slots[k].state ≠ .failed then
      { s.slots[k] with state := .dark, session := none, catInUse := none, reboot := none, retryTimer := none } else s.slots[k]
  cache : t.bc = { s.bc with fills := s.bc.fills.map (FillEntry.without (goneIn l s) s) }
  fill : ∀ f, s.reader = .fill f → t.reader = .fill { f with reqs := f.reqs.filter (fun k => !goneIn l s k) }
  reader : (∀ f, s.reader ≠ .fill f) → t.reader = s.reader
  users : ∀ i : ImageId, t.catSt[i] = ⟨s.catSt[i].bad, s.catSt[i].users -
    l.countP (fun k => goneIn l s k && s.slots[k].session.any (fun x => decide (x.img = i)))⟩
  rest : { t with slots := s.slots, bc := s.bc, reader := s.reader, catSt := s.catSt } = s

/-- Only membership of the slot counts. -/
theorem goneIn_eq {l m : List SlotId} {s : State} {k : SlotId} (h : k ∈ l ↔ k ∈ m) : goneIn l s k = goneIn m s k := by
  unfold goneIn
  have : l.contains k = m.contains k := by rw [Bool.eq_iff_iff]; simpa using h
  rw [this]

/-- Nobody withdrawn, nothing changed. -/
theorem FillEntry.without_none {g : SlotId → Bool} (s : State) (e : FillEntry) (h : ∀ k, g k = false) : e.without g s = e := by
  cases e; simp [FillEntry.without, h]

/-- No slot, nothing changed. -/
theorem Dimmed.nil (s : State) : Dimmed [] s s where
  slot k := by simp
  cache := by
    have h : s.bc.fills.map (FillEntry.without (goneIn [] s) s) = s.bc.fills := by
      rw [List.map_congr_left (g := id), List.map_id]
      intro e _; exact FillEntry.without_none s e (fun k => by simp [goneIn])
    rw [h]
  fill f h := by
    have : f.reqs.filter (fun k => !goneIn [] s k) = f.reqs := List.filter_eq_self.2 (fun k _ => by simp [goneIn])
    rw [this]; exact h
  reader _ := rfl
  users i := by simp
  rest := rfl

/-- A slot that is VACANT or FAILED stays so. -/
theorem Dimmed.keep {l : List SlotId} {s t : State} (h : Dimmed l s t) {k : SlotId} (hk : k ∉ l)
    (hv : s.slots[k].state = .vacant ∨ s.slots[k].state = .failed) : Dimmed (l ++ [k]) s t := by
  have hg : goneIn (l ++ [k]) s = goneIn l s := by
    funext j
    by_cases hj : j = k
    · subst hj
      have : decide (s.slots[j].state ≠ .vacant ∧ s.slots[j].state ≠ .failed) = false := by rcases hv with e | e <;> rw [e] <;> rfl
      unfold goneIn; rw [this]; simp
    · exact goneIn_eq (by simp [hj])
  constructor
  · intro j; rw [h.slot j]
    by_cases hj : j = k
    · subst hj; rcases hv with e | e <;> simp [-Fin.getElem_fin, e]
    · simp [hj]
  · rw [hg]; exact h.cache
  · rw [hg]; exact h.fill
  · exact h.reader
  · intro i; rw [h.users i, hg, List.countP_append]
    have : goneIn l s k = false := by unfold goneIn; simp [hk]
    simp [this]
  · exact h.rest

/-- A slot in service that is not FAILED goes to DARK with its session ended (R18). -/
theorem darken_live (k : SlotId) (s : State) (hv : s.slots[k].state ≠ .vacant) (hf : s.slots[k].state ≠ .failed) :
    darken k s = updSlot k (fun x => { x with state := .dark, catInUse := none, reboot := none, retryTimer := none }) (endSession k s) := by
  unfold darken; split <;> first | contradiction | rfl

/-- One more slot goes to DARK. -/
theorem Dimmed.dark {l : List SlotId} {s t : State} (h : Dimmed l s t) {k : SlotId} (hk : k ∉ l)
    (hv : s.slots[k].state ≠ .vacant) (hf : s.slots[k].state ≠ .failed) : Dimmed (l ++ [k]) s (darken k t) := by
  have hsk : t.slots[k] = s.slots[k] := by rw [h.slot k]; simp [hk]
  have hslots : ∀ j : SlotId, (darken k t).slots[j] =
      if j ∈ l ++ [k] ∧ s.slots[j].state ≠ .vacant ∧ s.slots[j].state ≠ .failed then
        { s.slots[j] with state := .dark, session := none, catInUse := none, reboot := none, retryTimer := none } else s.slots[j] := by
    intro j
    rw [darken_live k t (by rw [hsk]; exact hv) (by rw [hsk]; exact hf)]
    by_cases hj : j = k
    · subst hj
      have hc : j ∈ l ++ [j] ∧ s.slots[j].state ≠ .vacant ∧ s.slots[j].state ≠ .failed := ⟨by simp, hv, hf⟩
      rw [updSlot_same, endSession_slots, if_pos hc]
      by_cases hs : t.slots[j].session.isSome = true
      · rw [if_pos ⟨rfl, hs⟩, hsk]
      · have hn : s.slots[j].session = none := by rw [← hsk]; simpa using hs
        rw [if_neg (fun h => hs h.2), hsk, ← hn]
    · rw [updSlot_other hj, endSession_slots, if_neg (by simp [hj]), h.slot j]; simp [hj]
  by_cases hs : s.slots[k].session = none
  · have hend : endSession k t = t := by unfold endSession; rw [hsk, hs]
    have hd : darken k t = updSlot k (fun x => { x with state := .dark, catInUse := none, reboot := none, retryTimer := none }) t := by
      rw [darken_live k t (by rw [hsk]; exact hv) (by rw [hsk]; exact hf), hend]
    have hg : goneIn (l ++ [k]) s = goneIn l s := by
      funext j
      by_cases hj : j = k
      · subst hj; unfold goneIn; rw [hs]; simp
      · exact goneIn_eq (by simp [hj])
    constructor
    · exact hslots
    · rw [hg, hd]; exact h.cache
    · rw [hg, hd]; exact h.fill
    · rw [hd]; exact h.reader
    · intro i; rw [hd, hg, List.countP_append]
      have : goneIn l s k = false := by unfold goneIn; simp [hk]
      simp only [this, Bool.false_and, List.countP_cons, List.countP_nil]
      exact h.users i
    · rw [hd]; exact h.rest
  · obtain ⟨x, hx⟩ := Option.ne_none_iff_exists'.1 hs
    have hg : goneIn (l ++ [k]) s = fun j => goneIn l s j || decide (j = k) := by
      funext j
      by_cases hj : j = k
      · subst hj; unfold goneIn; rw [hx]; simp only [Option.isSome_some, ne_eq, hv, hf, not_false_eq_true, and_self, decide_true, Bool.and_true, Bool.or_true]; simp
      · rw [goneIn_eq (m := l) (by simp [hj])]; simp [hj]
    have hd : darken k t = updSlot k (fun x => { x with state := .dark, catInUse := none, reboot := none, retryTimer := none })
        (updSlot k (fun y => { y with session := none, catInUse := none })
          (updCat x.img (fun c => { c with users := c.users - 1 }) (withdrawSlot k t))) := by
      rw [darken_live k t (by rw [hsk]; exact hv) (by rw [hsk]; exact hf)]
      unfold endSession; rw [hsk, hx]
    have hgk : goneIn l s k = false := by unfold goneIn; simp [hk]
    have hrank : ∀ m, rankOf m t = rankOf m s := fun m => rankOf_congr m
      (by rw [← h.rest]) (fun j => by rw [h.slot j]; split <;> rfl)
    constructor
    · exact hslots
    · have h1 : (darken k t).bc = (withdrawSlot k t).bc := by rw [hd]; rfl
      have h2 : (withdrawSlot k t).bc = { t.bc with fills := t.bc.fills.map (fun e =>
          if e.reqs.contains k then { e with reqs := e.reqs.filter (· ≠ k), rank := rankOf (e.reqs.filter (· ≠ k)) t } else e) } := by
        unfold withdrawSlot updFill; split <;> rfl
      rw [h1, h2, h.cache, hg, List.map_map]
      dsimp only
      have : ((fun e : FillEntry => if e.reqs.contains k then
          { e with reqs := e.reqs.filter (· ≠ k), rank := rankOf (e.reqs.filter (· ≠ k)) t } else e) ∘ FillEntry.without (goneIn l s) s) =
          FillEntry.without (fun j => goneIn l s j || decide (j = k)) s := by
        funext e; exact without_step (goneIn l s) k hgk e hrank
      rw [this]
    · intro f hfill
      have h1 : (darken k t).reader = (withdrawSlot k t).reader := by rw [hd]; rfl
      have h2 : (withdrawSlot k t).reader = .fill { f with reqs := (f.reqs.filter (fun k => !goneIn l s k)).filter (· ≠ k) } := by
        have : ∀ u : State, u.reader = t.reader → (updFill (fun f => { f with reqs := f.reqs.filter (· ≠ k) }) u).reader =
            .fill { f with reqs := (f.reqs.filter (fun k => !goneIn l s k)).filter (· ≠ k) } := by
          intro u hu; unfold updFill; rw [hu, h.fill f hfill]
        unfold withdrawSlot; exact this _ rfl
      rw [h1, h2, hg, List.filter_filter]
      congr 3; funext j; simp [Bool.and_comm]
    · intro hno
      have h1 : (darken k t).reader = (withdrawSlot k t).reader := by rw [hd]; rfl
      have h0 := h.reader hno
      have : ∀ u : State, u.reader = s.reader → (updFill (fun f => { f with reqs := f.reqs.filter (· ≠ k) }) u).reader = s.reader := by
        intro u hu; unfold updFill; split
        · next y hy => exact absurd (hu ▸ hy) (hno y)
        all_goals exact hu
      rw [h1]; unfold withdrawSlot; exact this _ h0
    · intro i
      have hw : (withdrawSlot k t).catSt = t.catSt := (of_noCache (withdrawSlot_noCache k t)).2.2.2.2.2.1
      have h1 : (darken k t).catSt = vmod t.catSt x.img (fun c => { c with users := c.users - 1 }) := by
        rw [hd, ← hw]; rfl
      have hc : (l ++ [k]).countP (fun j => goneIn (l ++ [k]) s j && s.slots[j].session.any (fun x => decide (x.img = i))) =
          l.countP (fun j => goneIn l s j && s.slots[j].session.any (fun x => decide (x.img = i))) + (if x.img = i then 1 else 0) := by
        rw [List.countP_append]
        congr 1
        · apply List.countP_congr; intro j hj
          have : j ≠ k := by rintro rfl; exact hk hj
          rw [hg]; simp [this]
        · rw [hg]; simp only [List.countP_cons, List.countP_nil, hx, Option.any_some, decide_true, Bool.or_true, Bool.true_and, decide_eq_true_eq]; simp
      rw [hc, h1]
      by_cases hi : x.img = i
      · subst hi; rw [vmod_same, h.users]; simp [Nat.sub_sub]
      · rw [vmod_other _ (Ne.symm hi), h.users]; simp [hi]
    · have hn := withdrawSlot_noCache k t
      have e : { darken k t with slots := s.slots, bc := s.bc, reader := s.reader, catSt := s.catSt } =
          ({ (withdrawSlot k t).noCache with slots := s.slots, bc := s.bc, reader := s.reader, catSt := s.catSt } : State) := by rw [hd]; rfl
      rw [e, hn]; exact h.rest

/-- Every slot of a list without repetition, one after another (R18). -/
theorem Dimmed.foldl {s : State} : ∀ (l pre : List SlotId) (t : State), (pre ++ l).Nodup → Dimmed pre s t →
    Dimmed (pre ++ l) s (l.foldl (fun s k => Machine.darken k s) t)
  | [], pre, t, _, h => by simpa using h
  | k :: l, pre, t, hn, h => by
    have hk : k ∉ pre := by
      intro hm; exact (List.nodup_append.1 hn).2.2 k hm k (by simp) rfl
    have e : pre ++ k :: l = pre ++ [k] ++ l := by simp
    rw [e] at hn ⊢
    refine Dimmed.foldl l (pre ++ [k]) _ hn ?_
    by_cases hv : s.slots[k].state = .vacant ∨ s.slots[k].state = .failed
    · have hsk : t.slots[k] = s.slots[k] := by rw [h.slot k]; simp [hk]
      have : (fun s k => Machine.darken k s) t k = t := by
        show Machine.darken k t = t
        unfold Machine.darken; rw [hsk]; rcases hv with e | e <;> rw [e]
      rw [this]; exact h.keep hk hv
    · have hv := not_or.1 hv
      exact h.dark hk hv.1 hv.2

/-- A confirmed gap on the slots (R18). -/
theorem darkenAll_dimmed (s : State) : Dimmed slotIds s (darkenAll s) := by
  have := Dimmed.foldl slotIds [] s (by simp only [List.nil_append]; decide) (Dimmed.nil s)
  exact this

end Sys2Proof.Machine
end

