-- ==== Sys2Proof/Laws/Memory.lean ====
section
/-! SUPPORT. The serial flash: what a read gives after a write, and that every write keeps the canonical form. -/

namespace Sys2Proof.Machine

set_option Elab.async false

/-! ## One byte -/

/-- A listed byte of a memory in canonical form that lies below every key is not there. -/
theorem Memory.read_below {m : Memory} {a : Nat} (h : ∀ c ∈ m, a < c.1) : Memory.read m a = 0xFF := by
  induction m with
  | nil => rfl
  | cons c m ih =>
    obtain ⟨k, v⟩ := c
    have hk : a < k := h (k, v) (by simp)
    rw [Memory.read, if_neg (by omega), ih (fun c hc => h c (by simp [hc]))]

/-- What an entry of a written memory is: the byte written, or an entry from before. -/
theorem Memory.mem_write {m : Memory} {a : Nat} {v : Byte} {c : Host.Cell} (h : c ∈ Memory.write m a v) :
    (c = (a, v) ∧ v ≠ 0xFF) ∨ c ∈ m := by
  induction m with
  | nil =>
    simp only [Memory.write] at h
    split at h
    · simp at h
    · next hv => left; exact ⟨by simpa using h, hv⟩
  | cons d m ih =>
    obtain ⟨k, w⟩ := d
    simp only [Memory.write] at h
    split at h
    · split at h
      · right; exact h
      · next hv => rcases List.mem_cons.1 h with h | h
                   · left; exact ⟨h, hv⟩
                   · right; exact h
    · split at h
      · split at h
        · right; exact List.mem_cons_of_mem _ h
        · next hv => rcases List.mem_cons.1 h with h | h
                     · left; exact ⟨h, hv⟩
                     · right; exact List.mem_cons_of_mem _ h
      · rcases List.mem_cons.1 h with h | h
        · right; rw [h]; simp
        · rcases ih h with h | h
          · left; exact h
          · right; exact List.mem_cons_of_mem _ h

/-- A write keeps the canonical form. -/
theorem Memory.write_wf {m : Memory} (h : Memory.wf m) (a : Nat) (v : Byte) : Memory.wf (Memory.write m a v) := by
  refine ⟨?_, ?_⟩
  · have hp := h.1
    clear h
    induction m with
    | nil => simp only [Memory.write]; split <;> simp
    | cons d m ih =>
      obtain ⟨k, w⟩ := d
      obtain ⟨hk, hm⟩ := List.pairwise_cons.1 hp
      simp only [Memory.write]
      split
      · next ha =>
        split
        · exact hp
        · refine List.pairwise_cons.2 ⟨?_, hp⟩
          intro c hc
          rcases List.mem_cons.1 hc with rfl | hc
          · exact ha
          · exact lt_trans ha (hk c hc)
      · split
        · next _ hak =>
          split
          · exact hm
          · refine List.pairwise_cons.2 ⟨?_, hm⟩
            intro c hc; have := hk c hc; simp only at this ⊢; omega
        · next h1 h2 =>
          refine List.pairwise_cons.2 ⟨?_, ih hm⟩
          intro c hc
          rcases Memory.mem_write hc with ⟨rfl, _⟩ | hc
          · show k < a
            omega
          · exact hk c hc
  · intro c hc
    rcases Memory.mem_write hc with ⟨rfl, hv⟩ | hc
    · exact hv
    · exact h.2 c hc

/-- A read after a write: the byte written at its address, elsewhere what was there. -/
theorem Memory.read_write {m : Memory} (h : Memory.wf m) (a b : Nat) (v : Byte) :
    Memory.read (Memory.write m a v) b = if b = a then v else Memory.read m b := by
  have hp := h.1
  clear h
  induction m with
  | nil =>
    simp only [Memory.write]
    split
    · next hv => simp [Memory.read, hv]
    · by_cases hb : b = a
      · simp [Memory.read, hb]
      · simp [Memory.read, hb, Ne.symm hb]
  | cons d m ih =>
    obtain ⟨k, w⟩ := d
    obtain ⟨hk, hm⟩ := List.pairwise_cons.1 hp
    simp only [Memory.write]
    split
    · next ha =>
      have hlow : ∀ c ∈ (k, w) :: m, a < c.1 := by
        intro c hc
        rcases List.mem_cons.1 hc with rfl | hc
        · exact ha
        · exact lt_trans ha (hk c hc)
      split
      · next hv =>
        split
        · next hb => rw [hb, Memory.read_below hlow, hv]
        · rfl
      · by_cases hb : b = a
        · simp [Memory.read, hb]
        · rw [Memory.read, if_neg (Ne.symm hb), if_neg hb]
    · split
      · next _ hak =>
        subst hak
        split
        · next hv =>
          by_cases hb : b = a
          · rw [if_pos hb, hb, hv, Memory.read_below hk]
          · rw [if_neg hb, Memory.read, if_neg (Ne.symm hb)]
        · by_cases hb : b = a
          · simp [Memory.read, hb]
          · simp [Memory.read, hb, Ne.symm hb]
      · next h1 h2 =>
        rw [Memory.read, ih hm, Memory.read]
        by_cases hb : b = a
        · rw [if_pos hb, if_neg (by omega), if_pos hb]
        · rw [if_neg hb, if_neg hb]

/-! ## Runs of bytes -/

/-- A run written keeps the canonical form. -/
theorem Memory.writeRun_wf {m : Memory} (h : Memory.wf m) (a : Nat) (bs : List Byte) : Memory.wf (Memory.writeRun m a bs) := by
  induction bs generalizing m a with
  | nil => exact h
  | cons b bs ih => exact ih (Memory.write_wf h a b) (a + 1)

/-- A read after a run is written: its bytes in their places, elsewhere what was there. -/
theorem Memory.read_writeRun {m : Memory} (h : Memory.wf m) (a : Nat) (bs : List Byte) (x : Nat) :
    Memory.read (Memory.writeRun m a bs) x =
      if a ≤ x ∧ x < a + bs.length then bs.getD (x - a) 0 else Memory.read m x := by
  induction bs generalizing m a with
  | nil => simp [Memory.writeRun]
  | cons b bs ih =>
    rw [Memory.writeRun, ih (Memory.write_wf h a b), Memory.read_write h]
    simp only [List.length_cons]
    by_cases hx : x = a
    · subst hx
      rw [if_neg (by omega), if_pos rfl, if_pos (by omega)]
      simp
    · by_cases h1 : a + 1 ≤ x ∧ x < a + 1 + bs.length
      · rw [if_pos h1, if_pos (by omega)]
        obtain ⟨j, rfl⟩ : ∃ j, x = a + 1 + j := ⟨x - (a + 1), by omega⟩
        have e1 : a + 1 + j - (a + 1) = j := by omega
        have e2 : a + 1 + j - a = j + 1 := by omega
        rw [e1, e2, List.getD_cons_succ]
      · rw [if_neg h1, if_neg hx, if_neg (by omega)]

@[simp] theorem Memory.readRun_length (m : Memory) (a n : Nat) : (Memory.readRun m a n).length = n := by simp [Memory.readRun]

/-- Byte `j` of a run read. -/
theorem Memory.readRun_getD {m : Memory} {a n j : Nat} (h : j < n) : (Memory.readRun m a n).getD j 0 = Memory.read m (a + j) := by
  simp [Memory.readRun, List.getD, h]

/-- Two runs of one length with equal bytes are equal. -/
theorem bytes_ext {xs ys : List Byte} (hl : xs.length = ys.length) (h : ∀ j, j < xs.length → xs.getD j 0 = ys.getD j 0) : xs = ys := by
  apply List.ext_getElem hl
  intro j h1 h2
  have := h j h1
  simpa [List.getD, h1, h2] using this

/-- A run written reads back as written. -/
theorem Memory.readRun_writeRun {m : Memory} (h : Memory.wf m) (a : Nat) (bs : List Byte) :
    Memory.readRun (Memory.writeRun m a bs) a bs.length = bs := by
  apply bytes_ext (by simp)
  intro j hj
  have hj' : j < bs.length := by simpa using hj
  have e : a + j - a = j := by omega
  rw [Memory.readRun_getD hj', Memory.read_writeRun h, if_pos (by omega), e]

/-! ## Disturbances -/

@[simp] theorem disturb_nil (bs : List Byte) : disturb [] bs = bs := by cases bs <;> rfl

@[simp] theorem disturb_length (ds : Disturb) (bs : List Byte) : (disturb ds bs).length = bs.length := by
  induction bs generalizing ds with
  | nil => cases ds <;> rfl
  | cons b bs ih => cases ds <;> simp [disturb, ih]

/-- Byte `j` of a disturbed run. -/
theorem disturb_getD {ds : Disturb} {bs : List Byte} {j : Nat} (h : j < bs.length) :
    (disturb ds bs).getD j 0 = bs.getD j 0 ^^^ ds.getD j 0 := by
  induction bs generalizing ds j with
  | nil => simp at h
  | cons b bs ih =>
    cases ds with
    | nil => simp
    | cons d ds =>
      cases j with
      | zero => simp [disturb]
      | succ j => simpa [disturb] using ih (ds := ds) (j := j) (by simpa using h)

@[simp] theorem erased_length (ks : Disturb) (bs : List Byte) : (erased ks bs).length = bs.length := by
  induction bs generalizing ks with
  | nil => cases ks <;> rfl
  | cons b bs ih => cases ks <;> simp [erased, ih]

/-- Byte `j` of what an erase leaves: 0xFF, but for the bits kept. -/
theorem erased_getD {ks : Disturb} {bs : List Byte} {j : Nat} (h : j < bs.length) :
    (erased ks bs).getD j 0 = if j < ks.length then bs.getD j 0 ||| ~~~(ks.getD j 0) else 0xFF := by
  induction bs generalizing ks j with
  | nil => simp at h
  | cons b bs ih =>
    cases ks with
    | nil =>
      cases j with
      | zero => simp [erased]
      | succ j => simpa [erased] using ih (ks := []) (j := j) (by simpa using h)
    | cons k ks =>
      cases j with
      | zero => simp [erased]
      | succ j => simpa [erased] using ih (ks := ks) (j := j) (by simpa using h)

/-- A run is erased when each of its bytes is 0xFF. -/
theorem allErased_iff (bs : List Byte) : allErased bs = true ↔ ∀ j, j < bs.length → bs.getD j 0 = 0xFF := by
  constructor
  · intro h j hj
    have := List.all_eq_true.1 h (bs[j]) (List.getElem_mem hj)
    simpa [List.getD, hj] using this
  · intro h
    apply List.all_eq_true.2
    intro b hb
    obtain ⟨j, hj, rfl⟩ := List.getElem_of_mem hb
    have := h j hj
    simpa [List.getD, hj] using this

/-! ## The flash operations -/

/-- What an erase leaves is one run written. -/
theorem eraseSector_snd (kept read : Disturb) (k : Nat) (m : Memory) : ∃ bs, (eraseSector kept read k m).2 =
    m.writeRun (imageSectorAddr k) bs := by
  refine ⟨erased kept (m.readRun (imageSectorAddr k) sectorBytes), ?_⟩
  simp only [eraseSector]

/-- An erase keeps the canonical form. -/
theorem eraseSector_wf {m : Memory} (h : Memory.wf m) (kept read : Disturb) (k : Nat) : Memory.wf (eraseSector kept read k m).2 := by
  obtain ⟨bs, e⟩ := eraseSector_snd kept read k m
  rw [e]; exact Memory.writeRun_wf h _ _

/-- A record write keeps the canonical form. -/
theorem programRecord_wf {m : Memory} (h : Memory.wf m) (blank prog back : Disturb) (r : Nat) (d : List Byte) :
    Memory.wf (programRecord blank prog back r d m).2 := by
  unfold programRecord
  split
  · exact Memory.writeRun_wf h _ _
  · exact h

/-- The programming of the store keeps the canonical form. -/
theorem commitStore_wf {m : Memory} (h : Memory.wf m) (prog back : Disturb) (store : List Byte) :
    Memory.wf (commitStore prog back store m).2 := by
  unfold commitStore; exact Memory.writeRun_wf h _ _

/-- What the device finishes after a reset is the flash as it was, or one run written. -/
theorem finishCut_flash (left : Disturb) (s : State) :
    finishCut left s = s.flash ∨ ∃ a bs, finishCut left s = s.flash.writeRun a bs := by
  unfold finishCut
  split
  · exact .inl rfl
  · exact .inr ⟨_, _, rfl⟩
  · split
    · exact .inr ⟨_, _, rfl⟩
    · exact .inl rfl
  · exact .inr ⟨_, _, rfl⟩

/-- What the device finishes after a reset keeps the canonical form. -/
theorem finishCut_wf {s : State} (h : Memory.wf s.flash) (left : Disturb) : Memory.wf (finishCut left s) := by
  rcases finishCut_flash left s with e | ⟨a, bs, e⟩
  · rw [e]; exact h
  · rw [e]; exact Memory.writeRun_wf h _ _

/-- The flash at reset is in canonical form. -/
theorem reset_flash_wf : Memory.wf State.reset.flash := by simp [State.reset, Memory.wf]

/-- A disturbed read-back agrees with what was to be read exactly where every byte does. -/
theorem readBack_iff (back : Disturb) (m : Memory) (a : Nat) (xs : List Byte) :
    decide (disturb back (Memory.readRun m a xs.length) = xs) =
      (List.range xs.length).all (fun j => decide (Memory.read m (a + j) ^^^ back.getD j 0 = xs.getD j 0)) := by
  rw [Bool.eq_iff_iff, decide_eq_true_eq, List.all_eq_true]
  simp only [List.mem_range, decide_eq_true_eq]
  constructor
  · intro h j hj
    rw [← Memory.readRun_getD (n := xs.length) hj, ← disturb_getD (by simpa using hj), h]
  · intro h
    refine bytes_ext (by simp) (fun j hj => ?_)
    have hj' : j < xs.length := by simpa using hj
    rw [disturb_getD (by simpa using hj'), Memory.readRun_getD hj', h j hj']

end Sys2Proof.Machine
end

