-- ==== Sys2Proof/Laws/Layout.lean ====
section
/-! SUPPORT. The lengths of the table entries and of the configuration store (11.6, R177), what a decoded item says of its bytes (R198),
and lists of entries read (R177). -/

namespace Sys2Proof.Machine

set_option Elab.async false

theorem Settings.encode_length (e : Settings) : e.encode.length = 13 := rfl

theorem ClassEntry.encode_length (e : ClassEntry) : e.encode.length = 24 := by simp [ClassEntry.encode]

theorem SlotEntry.encode_length (e : SlotEntry) : e.encode.length = 8 := by
  unfold SlotEntry.encode
  cases e.expClass <;> simp [be16]

theorem Window.encode_length (w : Window) : w.encode.length = 9 := rfl

theorem FwdRule.encode_length (r : FwdRule) : r.encode.length = 11 := rfl

theorem CapRule.encode_length (r : CapRule) : r.encode.length = 8 := rfl

/-- A list of entries of one size has that many bytes for each. -/
theorem flatMap_length {α : Type} (f : α → List Byte) (n : Nat) (h : ∀ x, (f x).length = n) (l : List α) :
    (l.flatMap f).length = n * l.length := by
  induction l with
  | nil => rfl
  | cons x l ih => rw [List.flatMap_cons, List.length_append, h, ih, List.length_cons]; ring

theorem CatEntry.encode_length (e : CatEntry) : e.encode.length = 54 := by
  have := flatMap_length Window.encode 9 Window.encode_length e.windows.toList
  simp [CatEntry.encode, be16, be32, this]

/-- The store has 2,113 bytes before its CRC-32 (R177, R198). -/
theorem Tables.storeBody_length (t : Tables) : t.storeBody.length = 2113 := by
  have h1 := flatMap_length ClassEntry.encode 24 ClassEntry.encode_length t.classes.toList
  have h2 := flatMap_length SlotEntry.encode 8 SlotEntry.encode_length t.slots.toList
  have h3 := flatMap_length CatEntry.encode 54 CatEntry.encode_length t.cat.toList
  have h4 := flatMap_length FwdRule.encode 11 FwdRule.encode_length t.fwd.toList
  have h5 := flatMap_length CapRule.encode 8 CapRule.encode_length t.cap.toList
  unfold Tables.storeBody
  simp only [List.length_append, h1, h2, h3, h4, h5, Settings.encode_length, Vector.length_toList]
  rfl

/-- The store has 2,117 bytes (R177, R198). -/
theorem Tables.store_length (t : Tables) : t.store.length = 2117 := by
  unfold Tables.store
  rw [List.length_append, t.storeBody_length]; rfl

/-! ## What a decoded item says of its bytes (R198) -/

theorem rng_some {lo hi n x : Nat} (h : rng lo hi n = some x) : x = n ∧ lo ≤ n ∧ n ≤ hi := by
  unfold rng at h; split at h <;> simp_all

theorem rdFlag_some {b : List Byte} {j : Nat} {x : Bool} (h : rdFlag b j = some x) : x = decide (rd8 b j = 1) := by
  unfold rdFlag at h; split at h <;> simp_all

theorem finAt_some {k n : Nat} {x : Fin k} (h : finAt k n = some x) : x.val = n := by
  unfold finAt at h; split at h <;> simp at h; subst h; rfl

theorem optFin_some {k n : Nat} {o : Option (Fin k)} (h : optFin k n = some o) : o.elim 0xFF Fin.val = n := by
  unfold optFin at h
  split at h
  · cases h; symm; assumption
  · rw [Option.map_eq_some_iff] at h
    obtain ⟨x, hx, rfl⟩ := h
    exact finAt_some hx

/-- A code read by its place in the list of codes. -/
theorem codeAt_some {α : Type} {codes : List α} {n : Nat} {x : α} (h : codeAt codes n = some x) : (x, n) ∈ codes.zipIdx :=
  List.mem_zipIdx_iff_getElem?.mpr h

/-- A step of a decoder that answers an entry has read its item. -/
theorem decode_step {α β : Type} {x : Option α} {f : α → Option β} {e : β} (h : (x >>= f) = some e) : ∃ a, x = some a ∧ f a = some e := by
  cases x with
  | none => cases h
  | some a => exact ⟨a, rfl, h⟩

theorem append_byte_toNat {m : Nat} (x : BitVec m) (y : Byte) : (x ++ y).toNat = 256 * x.toNat + y.toNat := by
  rw [BitVec.toNat_append, ← Nat.shiftLeft_add_eq_or_of_lt y.isLt, Nat.shiftLeft_eq]; omega

/-- A 4-byte item is its two 2-byte numbers, most significant first. -/
theorem rd32_toNat (b : List Byte) (j : Nat) : (rd32 b j).toNat = 65536 * rd16 b j + rd16 b (j + 2) := by
  unfold rd32 rd16 rd8
  rw [append_byte_toNat, append_byte_toNat, append_byte_toNat, show j + 2 + 1 = j + 3 from rfl]
  omega

/-! ## Lists of entries (R177) -/

/-- Every entry of a list is present. -/
theorem collect_some_iff {α : Type} {l : List (Option α)} {xs : List α} : collect l = some xs ↔ l = xs.map some := by
  induction l generalizing xs with
  | nil => cases xs <;> simp [collect]
  | cons o l ih =>
    cases o with
    | none => cases xs <;> simp [collect]
    | some x => cases xs <;> simp [collect, ih, and_comm]

/-- Entries are read exactly where each is accepted at its place. -/
theorem readEntries_some_iff {α : Type} {f : List Byte → Option α} {n off size : Nat} {b : List Byte} {v : Vector α n} :
    readEntries f n off size b = some v ↔ ∀ i : Fin n, f ((b.drop (off + size * i)).take size) = some v[i] := by
  have key : ∀ xs : List α, collect ((List.range n).map (fun i => f ((b.drop (off + size * i)).take size))) = some xs →
      xs.length = n := by
    intro xs h; have := congrArg List.length (collect_some_iff.mp h); simpa using this.symm
  unfold readEntries
  constructor
  · intro h
    split at h
    · next l hl =>
      rw [dif_pos (key l hl)] at h
      injection h with h; subst h
      intro i
      have e := congrArg (fun x => x[i.val]?) (collect_some_iff.mp hl)
      have hi : i.val < l.length := by rw [key l hl]; exact i.isLt
      simp only [List.getElem?_map, List.getElem?_range i.isLt, Option.map_some, List.getElem?_eq_getElem hi] at e
      injection e
    · cases h
  · intro h
    have hc : collect ((List.range n).map (fun i => f ((b.drop (off + size * i)).take size))) = some v.toList := by
      rw [collect_some_iff]
      apply List.ext_getElem
      · simp
      · intro i h1 h2
        have hi : i < n := by simpa using h1
        simpa using h ⟨i, hi⟩
    rw [hc]; simp only; rw [dif_pos (by simp)]; rfl

end Sys2Proof.Machine
end

