-- ==== Sys2Proof/Laws/PerInstr.lean ====
section
/-! SUPPORT. The family Fits: what the well-formedness of a command says, command by command. -/

namespace Sys2Proof.Laws

set_option Elab.async false

/-- The disturbances of a command, each with the number of flash bytes it may disturb (R65, R66, R177). -/
def disturbances : Instr → List (Disturb × Nat)
  | .startUpLoadDone left read => [(left, 4096), (read, 2117)]
  | .fillReadEnd read => [(read, 130)]
  | .eraseSectorDone kept read => [(kept, 4096), (read, 4030)]
  | .writeRecordDone blank prog back => [(blank, 130), (prog, 130), (back, 130)]
  | .commitDone prog back => [(prog, 4096), (back, 2117)]
  | .scanReadEnd read => [(read, 130)]
  | _ => []

/-- A command is well formed exactly when each of its disturbances fits. -/
def Fits.Statement (i : Instr) : Prop := i.wellFormed = true ↔ ∀ d ∈ disturbances i, d.1.length ≤ d.2

/-- A command without disturbances that is well formed. -/
theorem none_disturbed {i : Instr} (hw : i.wellFormed = true) (hd : disturbances i = []) : Fits.Statement i :=
  ⟨fun _ d h => absurd h (by rw [hd]; exact List.not_mem_nil), fun _ => hw⟩

/-- One disturbance fits. -/
theorem fits_one {a : Disturb} {n : Nat} : decide (a.length ≤ n) = true ↔ ∀ d ∈ [(a, n)], d.1.length ≤ d.2 := by simp

/-- Two disturbances fit. -/
theorem fits_two {a b : Disturb} {m n : Nat} : (decide (a.length ≤ m) && decide (b.length ≤ n)) = true ↔
    ∀ d ∈ [(a, m), (b, n)], d.1.length ≤ d.2 := by simp

/-- Three disturbances fit. -/
theorem fits_three {a b c : Disturb} {l m n : Nat} :
    (decide (a.length ≤ l) && decide (b.length ≤ m) && decide (c.length ≤ n)) = true ↔
      ∀ d ∈ [(a, l), (b, m), (c, n)], d.1.length ≤ d.2 := by simp [and_assoc]

theorem Fits.receiveFrame (arrival : Arrival) (bytes : List Byte) : Fits.Statement (.receiveFrame arrival bytes) := none_disturbed rfl rfl

theorem Fits.frameBeginsOnSegment : Fits.Statement .frameBeginsOnSegment := none_disturbed rfl rfl

theorem Fits.segmentFrameEnd (bytes : List Byte) : Fits.Statement (.segmentFrameEnd bytes) := none_disturbed rfl rfl

theorem Fits.answerTimerExpiry : Fits.Statement .answerTimerExpiry := none_disturbed rfl rfl

theorem Fits.segmentTransmissionEnd : Fits.Statement .segmentTransmissionEnd := none_disturbed rfl rfl

theorem Fits.trunkTransmissionEnd : Fits.Statement .trunkTransmissionEnd := none_disturbed rfl rfl

theorem Fits.serviceTransmissionEnd : Fits.Statement .serviceTransmissionEnd := none_disturbed rfl rfl

theorem Fits.lineFalls : Fits.Statement .lineFalls := none_disturbed rfl rfl

theorem Fits.lineRises : Fits.Statement .lineRises := none_disturbed rfl rfl

theorem Fits.deglitchTimerExpiry : Fits.Statement .deglitchTimerExpiry := none_disturbed rfl rfl

theorem Fits.settleTimerExpiry : Fits.Statement .settleTimerExpiry := none_disturbed rfl rfl

theorem Fits.retryTimerExpiry (slot : SlotId) : Fits.Statement (.retryTimerExpiry slot) := none_disturbed rfl rfl

theorem Fits.stageTimerExpiry (slot : SlotId) : Fits.Statement (.stageTimerExpiry slot) := none_disturbed rfl rfl

theorem Fits.resetN : Fits.Statement .resetN := none_disturbed rfl rfl

theorem Fits.powerOn : Fits.Statement .powerOn := none_disturbed rfl rfl

theorem Fits.startUpLoadDone (left read : Disturb) : Fits.Statement (.startUpLoadDone left read) := fits_two

theorem Fits.flashReaderStart : Fits.Statement .flashReaderStart := none_disturbed rfl rfl

theorem Fits.fillReadEnd (read : Disturb) : Fits.Statement (.fillReadEnd read) := fits_one

theorem Fits.eraseSectorDone (kept read : Disturb) : Fits.Statement (.eraseSectorDone kept read) := fits_two

theorem Fits.writeRecordDone (blank prog back : Disturb) : Fits.Statement (.writeRecordDone blank prog back) := fits_three

theorem Fits.commitDone (prog back : Disturb) : Fits.Statement (.commitDone prog back) := fits_two

theorem Fits.scanReadEnd (read : Disturb) : Fits.Statement (.scanReadEnd read) := fits_one

theorem Fits.placeWaitingReply : Fits.Statement .placeWaitingReply := none_disturbed rfl rfl

theorem Fits.readRangeFrame : Fits.Statement .readRangeFrame := none_disturbed rfl rfl

theorem Fits.pinWaitingPlace : Fits.Statement .pinWaitingPlace := none_disturbed rfl rfl

theorem Fits.readEntry : Fits.Statement .readEntry := none_disturbed rfl rfl

theorem Fits.readLink : Fits.Statement .readLink := none_disturbed rfl rfl

theorem Fits.writeEntry : Fits.Statement .writeEntry := none_disturbed rfl rfl

theorem Fits.writeCond : Fits.Statement .writeCond := none_disturbed rfl rfl

theorem Fits.readRange : Fits.Statement .readRange := none_disturbed rfl rfl

theorem Fits.setContext : Fits.Statement .setContext := none_disturbed rfl rfl

theorem Fits.clearContext : Fits.Statement .clearContext := none_disturbed rfl rfl

theorem Fits.permit : Fits.Statement .permit := none_disturbed rfl rfl

theorem Fits.reload : Fits.Statement .reload := none_disturbed rfl rfl

theorem Fits.clear : Fits.Statement .clear := none_disturbed rfl rfl

theorem Fits.clearRetries : Fits.Statement .clearRetries := none_disturbed rfl rfl

theorem Fits.pin : Fits.Statement .pin := none_disturbed rfl rfl

theorem Fits.unpin : Fits.Statement .unpin := none_disturbed rfl rfl

theorem Fits.prefetch : Fits.Statement .prefetch := none_disturbed rfl rfl

theorem Fits.invalidate : Fits.Statement .invalidate := none_disturbed rfl rfl

theorem Fits.eraseSector : Fits.Statement .eraseSector := none_disturbed rfl rfl

theorem Fits.writeRecord : Fits.Statement .writeRecord := none_disturbed rfl rfl

theorem Fits.readAttn : Fits.Statement .readAttn := none_disturbed rfl rfl

theorem Fits.clearAttn : Fits.Statement .clearAttn := none_disturbed rfl rfl

theorem Fits.commit : Fits.Statement .commit := none_disturbed rfl rfl

theorem Fits.selfCheck : Fits.Statement .selfCheck := none_disturbed rfl rfl

theorem Fits.engineReset : Fits.Statement .engineReset := none_disturbed rfl rfl

theorem Fits.fullReset : Fits.Statement .fullReset := none_disturbed rfl rfl

theorem Fits.badRequest : Fits.Statement .badRequest := none_disturbed rfl rfl

end Sys2Proof.Laws
end

