-- ==== Sys2Proof/Laws/Replies.lean ====
section
/-! SUPPORT. How built replies are placed (R118, R165, R166): what placing one of them does, when none can be placed, and what becomes of a
reply when it is built. -/

namespace Sys2Proof.Machine

set_option Elab.async false

open Sys2Proof.Safety

theorem txRoom_iff {o : Origin} {s : State} : txRoom o s = true ↔ HasRoom o s := by
  cases o
  · exact decide_eq_true_iff.trans (by simp [HasRoom, Config.trunkMax])
  · exact decide_eq_true_iff.trans (by simp [HasRoom, Config.serviceMax])

/-- Room stands by the transmit queues alone. -/
theorem HasRoom.congr {o : Origin} {s t : State} (h : t.queues = s.queues) : HasRoom o t ↔ HasRoom o s := by simp [HasRoom, h]

/-- A reply at a tail takes room and gives none. -/
theorem HasRoom.of_atTail {o p : Origin} {b : BufId} {x : Bool} {s t : State} (h : t.queues = atTail p b x s.queues) (hr : HasRoom o t) :
    HasRoom o s := by
  cases p <;> cases o <;> simp_all [HasRoom, atTail] <;> omega

/-- A free buffer, and the state with a frame in it. -/
theorem alloc_buffer (f : Frame) {s : State} (h : freeBufs s ≠ []) :
    ∃ b : BufId, s.pool[b].frame = none ∧ alloc f s = some (b, { s with pool := s.pool.set b ⟨some f, 0⟩ }) := by
  obtain ⟨b, bs, hx⟩ := List.exists_cons_of_ne_nil h
  have : alloc f s = some (b, { s with pool := s.pool.set b ⟨some f, 0⟩ }) := by simp [alloc, hx]
  exact ⟨b, (alloc_spec this).1, this⟩

/-- The placing of reply `r` into a free buffer (R166). -/
theorem placed_alloc (r : BuiltReply) (b : BufId) (a : Agent) (s : State) :
    placed r b (updMa (fun _ => a) { s with pool := s.pool.set b ⟨some r.frame, 0⟩ }) = { s with
      pool := s.pool.set b ⟨some r.frame, 1⟩, queues := atTail r.origin b r.resets s.queues
      ma := if r.busy then a else atRest r.origin a } := by
  have hp : vmod (s.pool.set b ⟨some r.frame, 0⟩) b (fun x => { x with refs := x.refs + 1 }) = s.pool.set b ⟨some r.frame, 1⟩ :=
    vmod_set ..
  obtain ⟨o, busy, x, f⟩ := r
  cases o <;> cases busy <;>
    simp [placed, pushTx, pushTrunk, pushService, addRef, updQueues, updMa, updOrigin, atTail, atRest, OriginRec.done, hp]

/-- Nothing is placed without a free buffer, nor where no waiting reply has room (R118). -/
theorem placeOne_none {s : State} (h : freeBufs s = [] ∨ ∀ y ∈ s.ma.replies, ¬ HasRoom y.origin s) : placeOne s = s := by
  unfold placeOne
  rcases h with h | h
  · split
    · rfl
    · rw [alloc_none h]
  · rw [List.find?_eq_none.mpr (fun y hy => by rw [txRoom_iff]; exact h y hy)]

theorem placeReplies_none {s : State} (h : freeBufs s = [] ∨ ∀ y ∈ s.ma.replies, ¬ HasRoom y.origin s) (n : Nat) :
    placeReplies n s = s := by
  induction n with
  | zero => rfl
  | succ n ih => rw [placeReplies, placeOne_none h, ih]

/-- The search for the oldest waiting reply that has room finds it. -/
theorem find_room {s : State} {older newer : List BuiltReply} {r : BuiltReply} (h : s.ma.replies = older ++ r :: newer)
    (ho : ∀ y ∈ older, ¬ HasRoom y.origin s) (hr : HasRoom r.origin s) : s.ma.replies.find? (fun r => txRoom r.origin s) = some r := by
  rw [h, List.find?_append, List.find?_eq_none.mpr (fun y hy => by rw [txRoom_iff]; exact ho y hy), Option.none_or, List.find?_cons,
    txRoom_iff.mpr hr]

/-- The oldest waiting reply that has room is placed in a free buffer (R118, R166). -/
theorem placeOne_some {s : State} {older newer : List BuiltReply} {r : BuiltReply} (h : s.ma.replies = older ++ r :: newer)
    (ho : ∀ y ∈ older, ¬ HasRoom y.origin s) (hr : HasRoom r.origin s) (hf : freeBufs s ≠ []) :
    ∃ b : BufId, s.pool[b].frame = none ∧ placeOne s = { s with
      pool := s.pool.set b ⟨some r.frame, 1⟩, queues := atTail r.origin b r.resets s.queues
      ma := if r.busy then { s.ma with replies := older ++ newer } else atRest r.origin { s.ma with replies := older ++ newer } } := by
  obtain ⟨b, hb, ha⟩ := alloc_buffer r.frame hf
  refine ⟨b, hb, ?_⟩
  have he : s.ma.replies.erase r = older ++ newer := by
    rw [h, List.erase_append_right _ (fun hm => ho r hm hr), List.erase_cons_head]
  unfold placeOne
  rw [find_room h ho hr]; dsimp only; rw [ha, ← placed_alloc]
  show placed r b { s with pool := _, ma := { s.ma with replies := s.ma.replies.erase r } } = _
  rw [he]; rfl

/-- The first waiting reply that has room. -/
theorem oldest_room {s : State} (h : ∃ y ∈ s.ma.replies, HasRoom y.origin s) : ∃ older r newer, s.ma.replies = older ++ r :: newer ∧
    (∀ y ∈ older, ¬ HasRoom y.origin s) ∧ HasRoom r.origin s := by
  obtain ⟨y, hy, hr⟩ := h
  obtain ⟨r, hx⟩ := Option.isSome_iff_exists.mp
    (List.find?_isSome (p := fun r : BuiltReply => txRoom r.origin s) |>.mpr ⟨y, hy, txRoom_iff.mpr hr⟩)
  obtain ⟨h1, older, newer, h2, h3⟩ := List.find?_eq_some_iff_append.mp hx
  refine ⟨older, r, newer, h2, fun y hy hc => ?_, txRoom_iff.mp h1⟩
  have := h3 y hy
  simp only [txRoom_iff.mpr hc, Bool.not_true, Bool.false_eq_true] at this

/-- A built reply that finds no buffer, or no room for it or for any that waits, waits behind them (R118, R166). -/
theorem queueReply_kept {r : BuiltReply} {s : State}
    (h : freeBufs s = [] ∨ (∀ y ∈ s.ma.replies, ¬ HasRoom y.origin s) ∧ ¬ HasRoom r.origin s) :
    queueReply r s = { s with ma := { s.ma with replies := s.ma.replies ++ [r] } } := by
  refine placeReplies_none (s := updMa (fun a => { a with replies := a.replies ++ [r] }) s) ?_ _
  rcases h with h | h
  · exact .inl h
  · refine .inr (fun y hy => ?_)
    rcases List.mem_append.mp (show y ∈ s.ma.replies ++ [r] from hy) with hm | hm
    · exact h.1 y hm
    · rw [List.mem_singleton.mp hm]; exact h.2

/-- A built reply with room and a free buffer, where no waiting one has room, is placed at once (R118, R166). -/
theorem queueReply_placed {r : BuiltReply} {s : State} (hf : freeBufs s ≠ []) (h : ∀ y ∈ s.ma.replies, ¬ HasRoom y.origin s)
    (hr : HasRoom r.origin s) : ∃ b : BufId, s.pool[b].frame = none ∧ queueReply r s = { s with
      pool := s.pool.set b ⟨some r.frame, 1⟩, queues := atTail r.origin b r.resets s.queues
      ma := if r.busy then s.ma else atRest r.origin s.ma } := by
  obtain ⟨b, hb, he⟩ := placeOne_some (s := updMa (fun a => { a with replies := a.replies ++ [r] }) s) (older := s.ma.replies) (r := r)
    (newer := []) rfl h hr hf
  refine ⟨b, hb, ?_⟩
  have hl : ∀ t : State, t.queues = atTail r.origin b r.resets s.queues → t.ma.replies = s.ma.replies →
      placeReplies s.ma.replies.length t = t :=
    fun t hq hm => placeReplies_none (.inr (fun y hy hc => h y (hm ▸ hy) (HasRoom.of_atTail hq hc))) _
  show placeReplies s.ma.replies.length (placeOne _) = _
  rw [he, List.append_nil]
  refine hl _ rfl ?_
  cases r.busy
  · cases r.origin <;> rfl
  · rfl

/-- Where a waiting reply can be placed, it is placed before a reply just built (R118, R166). -/
theorem queueReply_older {r : BuiltReply} {s : State} (hf : freeBufs s ≠ []) (h : ∃ y ∈ s.ma.replies, HasRoom y.origin s) :
    queueReply r s = queueReply r (placeOne s) := by
  obtain ⟨older, x, newer, h1, h2, h3⟩ := oldest_room h
  have hp : placeOne (updMa (fun a => { a with replies := a.replies ++ [r] }) s) =
      updMa (fun a => { a with replies := a.replies ++ [r] }) (placeOne s) := by
    have hx := find_room h1 h2 h3
    obtain ⟨b, hb, ha⟩ := alloc_buffer x.frame hf
    have hm : x ∈ s.ma.replies := List.mem_of_find?_eq_some hx
    unfold placeOne
    rw [hx, show (updMa (fun a => { a with replies := a.replies ++ [r] }) s).ma.replies.find?
        (fun q => txRoom q.origin (updMa (fun a => { a with replies := a.replies ++ [r] }) s)) = some x by
      show (s.ma.replies ++ [r]).find? (fun q => txRoom q.origin s) = _
      rw [List.find?_append, hx]; rfl]
    dsimp only
    rw [ha, show alloc x.frame (updMa (fun a => { a with replies := a.replies ++ [r] }) s) = some (b,
        { updMa (fun a => { a with replies := a.replies ++ [r] }) s with pool := s.pool.set b ⟨some x.frame, 0⟩ }) by
      unfold alloc at ha ⊢; rw [show freeBufs (updMa _ s) = freeBufs s from rfl]; split at ha <;> simp_all [updMa]]
    dsimp only
    have hl : (s.ma.replies ++ [r]).erase x = s.ma.replies.erase x ++ [r] := List.erase_append_left _ hm
    obtain ⟨o, busy, y, f⟩ := x
    cases o <;> cases busy <;> simp [placed, pushTx, pushTrunk, pushService, addRef, updQueues, updMa, updOrigin, hl]
  have hn : (placeOne s).ma.replies.length + 1 = s.ma.replies.length := by
    obtain ⟨b, hb, he⟩ := placeOne_some h1 h2 h3 hf
    rw [he, h1]
    cases x.busy
    · cases x.origin <;> simp [atRest] <;> omega
    · simp; omega
  show placeReplies s.ma.replies.length (placeOne _) = placeReplies ((placeOne s).ma.replies.length + 1) _
  rw [hp, hn]

/-- The placing of a waiting reply neither reads nor changes a port record. -/
theorem placeOne_withPorts (p : Ports) (s : State) : placeOne { s with ports := p } = { placeOne s with ports := p } := by
  by_cases h : freeBufs s = [] ∨ ∀ y ∈ s.ma.replies, ¬ HasRoom y.origin s
  · rw [placeOne_none h, placeOne_none (s := { s with ports := p }) h]
  · unfold placeOne
    rw [show ({ s with ports := p } : State).ma.replies.find? (fun r => txRoom r.origin { s with ports := p }) =
      s.ma.replies.find? (fun r => txRoom r.origin s) from rfl]
    split
    · rfl
    · next r _ =>
      rw [show alloc r.frame { s with ports := p } = (alloc r.frame s).map (fun x => (x.1, { x.2 with ports := p })) by
        unfold alloc; rw [show freeBufs { s with ports := p } = freeBufs s from rfl]; split <;> rfl]
      cases alloc r.frame s with
      | none => rfl
      | some x =>
        obtain ⟨b, t⟩ := x
        obtain ⟨o, busy, y, f⟩ := r
        cases o <;> cases busy <;> rfl

/-- So too when a reply is built. -/
theorem queueReply_withPorts (r : BuiltReply) (p : Ports) (s : State) :
    queueReply r { s with ports := p } = { queueReply r s with ports := p } := by
  have : ∀ (n : Nat) (t : State), placeReplies n { t with ports := p } = { placeReplies n t with ports := p } := by
    intro n; induction n with
    | zero => intro t; rfl
    | succ n ih => intro t; rw [placeReplies, placeOne_withPorts, ih]; rfl
  exact this _ (updMa (fun a => { a with replies := a.replies ++ [r] }) s)

end Sys2Proof.Machine
end

