-- ==== Sys2Proof/Laws/Writes.lean ====
section
/-! SUPPORT. What the owners of written entries leave: the free order, a trim of the hold queues, a class write, and the slots that a catalogue
write makes STALE. -/

namespace Sys2Proof.Machine

set_option Elab.async false

/-! ## The free order (log entry 6) -/

theorem getD_cons_eraseIdx {α : Type} : ∀ (l : List α) (i : Nat) (d : α), i < l.length → (l.getD i d :: l.eraseIdx i).Perm l := by
  intro l
  induction l with
  | nil => intro i d h; exact absurd h (by simp)
  | cons x xs ih =>
    intro i d h
    cases i with
    | zero => simp
    | succ i =>
      have := ih i d (by simpa using h)
      simp only [List.getD_cons_succ, List.eraseIdx_cons_succ]
      exact (List.Perm.swap _ _ _).trans (this.cons x)

/-- The free order is an order of the same elements. -/
theorem freeOrder_perm {α : Type} : ∀ (n t : Nat) (xs : List α), (freeOrder n t xs).1.Perm xs := by
  intro n
  induction n with
  | zero => intro t xs; exact .refl _
  | succ n ih =>
    intro t xs
    unfold freeOrder
    split
    · exact .refl _
    · exact .refl _
    · next x y rest =>
      simp only
      refine (List.Perm.cons _ (ih _ _)).trans (getD_cons_eraseIdx (x :: y :: rest) _ _ ?_)
      simp only [List.length_cons]; exact Nat.mod_lt _ (by omega)

/-- What each element, taken once, adds to a state and no other element of the list disturbs, the whole list adds. `P done s` is what
holds once the elements of `done` have been taken. -/
theorem foldl_each {α : Type} (P : List α → State → Prop) (f : State → α → State) :
    ∀ (l done : List α) (s : State), (done ++ l).Nodup → P done s →
      (∀ d s x, x ∉ d → P d s → P (d ++ [x]) (f s x)) → P (done ++ l) (l.foldl f s)
  | [], done, s, _, h, _ => by simpa using h
  | x :: xs, done, s, hn, h, hs => by
    have := foldl_each P f xs (done ++ [x]) (f s x) (by simpa using hn)
      (hs done s x (by intro hx; rw [List.nodup_append] at hn; exact hn.2.2 x hx x (by simp) rfl) h) hs
    simpa using this

/-! ## The hold queues after a trim (R124) -/

theorem trimEntry_queues (k : SlotId) (b : BufId) (s : State) :
    (trimEntry k b s).queues.hold = s.queues.hold ∧ (trimEntry k b s).queues.out = s.queues.out := by
  unfold trimEntry
  split
  · split
    · exact ⟨(refuseEntry_queues _ _ _).1, (refuseEntry_queues _ _ _).2.1⟩
    · exact ⟨rfl, rfl⟩
  · exact ⟨rfl, rfl⟩

theorem trimHold_queues (h : Nat) (k : SlotId) (s : State) :
    (trimHold h k s).queues.hold = s.queues.hold.set k (s.queues.hold[k].take h) ∧ (trimHold h k s).queues.out = s.queues.out := by
  unfold trimHold
  refine ⟨?_, ?_⟩
  · rw [foldl_keeps (fun t => t.queues.hold) _ (fun t b => (trimEntry_queues k b t).1)]; rfl
  · rw [foldl_keeps (fun t => t.queues.out) _ (fun t b => (trimEntry_queues k b t).2)]; rfl

theorem mem_longHolds {h : Nat} {s : State} {k : SlotId} : k ∈ longHolds h s ↔ h < s.queues.hold[k].length := by
  simp [-Fin.getElem_fin, longHolds, slotIds]

/-- No hold queue is longer than the new H after a settings write, and each keeps its oldest entries; the outbound queue stands (R124). -/
theorem setSettings_queues (e : Settings) (s : State) :
    (∀ k : SlotId, (setSettings e s).queues.hold[k] = s.queues.hold[k].take e.holdDepth) ∧
      (setSettings e s).queues.out = s.queues.out := by
  show (∀ k : SlotId, (forFree (longHolds e.holdDepth { s with tables := { s.tables with settings := e } }) (trimHold e.holdDepth)
      { s with tables := { s.tables with settings := e } }).queues.hold[k] = s.queues.hold[k].take e.holdDepth) ∧
    (forFree (longHolds e.holdDepth { s with tables := { s.tables with settings := e } }) (trimHold e.holdDepth)
      { s with tables := { s.tables with settings := e } }).queues.out = s.queues.out
  obtain ⟨u, hu⟩ : ∃ u : State, u = { s with tables := { s.tables with settings := e } } := ⟨_, rfl⟩
  rw [← hu]
  have hq : u.queues = s.queues := by rw [hu]
  have hp := freeOrder_perm (longHolds e.holdDepth u).length u.freeTick (longHolds e.holdDepth u)
  obtain ⟨o, ho⟩ : ∃ o, o = freeOrder (longHolds e.holdDepth u).length u.freeTick (longHolds e.holdDepth u) := ⟨_, rfl⟩
  have hf : forFree (longHolds e.holdDepth u) (trimHold e.holdDepth) u =
      o.1.foldl (fun s k => trimHold e.holdDepth k s) { u with freeTick := o.2 } := by rw [ho]; rfl
  rw [hf]
  rw [← ho] at hp
  have hn : (longHolds e.holdDepth u).Nodup := (List.nodup_finRange 32).filter _
  have := foldl_each (fun d t => (∀ k : SlotId, t.queues.hold[k] = if k ∈ d then s.queues.hold[k].take e.holdDepth else s.queues.hold[k]) ∧
      t.queues.out = s.queues.out) (fun s k => trimHold e.holdDepth k s) o.1 [] { u with freeTick := o.2 } (by simpa using hp.nodup_iff.2 hn)
    ⟨fun k => by simp [-Fin.getElem_fin, hq], by simp [hq]⟩
    (by
      rintro d t x hx ⟨h1, h2⟩
      have ht := trimHold_queues e.holdDepth x t
      refine ⟨fun k => ?_, by rw [ht.2, h2]⟩
      rw [ht.1]
      by_cases h : k = x
      · subst h; rw [set_same, h1 k, if_neg hx]; simp
      · rw [set_other _ h, h1 k]; simp [h])
  refine ⟨fun k => ?_, this.2⟩
  rw [this.1 k, List.nil_append]
  split
  · rfl
  · next h =>
    rw [hp.mem_iff, mem_longHolds, hq] at h
    rw [List.take_of_length_le (by omega)]

/-! ## A class write (R11) -/

/-- The slots and records after a class write that is taken. -/
theorem setClassEntry_slots (c : ClassId) (e : ClassEntry) (s : State) :
    ∀ (l : List SlotId) (t : State), l.Nodup → ∃ u, u = l.foldl (fun s' k => touchClass (decide (e.layout ≠ s.tables.classes[c].layout)) k s') t ∧
      u = { t with slots := u.slots, ctx := u.ctx } ∧
      ∀ k : SlotId, u.slots[k] = (if k ∈ l then { t.slots[k] with retry := 0 } else t.slots[k]) ∧
        u.ctx[k] = if k ∈ l ∧ e.layout ≠ s.tables.classes[c].layout then CtxRecord.empty else t.ctx[k] := by
  intro l t hn
  refine ⟨_, rfl, ?_⟩
  have := foldl_each (fun d u => u = { t with slots := u.slots, ctx := u.ctx } ∧
      ∀ k : SlotId, u.slots[k] = (if k ∈ d then { t.slots[k] with retry := 0 } else t.slots[k]) ∧
        u.ctx[k] = if k ∈ d ∧ e.layout ≠ s.tables.classes[c].layout then CtxRecord.empty else t.ctx[k])
    (fun s' k => touchClass (decide (e.layout ≠ s.tables.classes[c].layout)) k s') l [] t (by simpa using hn)
    ⟨rfl, fun k => by simp [-Fin.getElem_fin]⟩
    (by
      rintro d u x hx ⟨h1, h2⟩
      by_cases hl : e.layout ≠ s.tables.classes[c].layout
      · have e1 : touchClass (decide (e.layout ≠ s.tables.classes[c].layout)) x u =
          { u with slots := u.slots.set x { u.slots[x] with retry := 0 }, ctx := u.ctx.set x .empty } := by
          unfold touchClass; rw [decide_eq_true hl]; rfl
        rw [e1]
        refine ⟨by rw [h1], fun k => ?_⟩
        by_cases h : k = x
        · subst h; simp only [set_same, List.mem_append, List.mem_singleton, or_true, if_true, true_and]
          rw [(h2 k).1, if_neg hx, if_pos hl]; exact ⟨rfl, rfl⟩
        · simp only [set_other _ h, List.mem_append, List.mem_singleton, h, or_false]; exact h2 k
      · have e1 : touchClass (decide (e.layout ≠ s.tables.classes[c].layout)) x u =
          { u with slots := u.slots.set x { u.slots[x] with retry := 0 } } := by
          unfold touchClass; rw [decide_eq_false hl]; rfl
        rw [e1]
        refine ⟨by rw [h1], fun k => ?_⟩
        by_cases h : k = x
        · subst h; simp only [set_same, List.mem_append, List.mem_singleton, or_true, if_true, true_and]
          rw [(h2 k).1, (h2 k).2, if_neg hx, if_neg hl, if_neg (by simp [hx])]; exact ⟨rfl, rfl⟩
        · simp only [set_other _ h, List.mem_append, List.mem_singleton, h, or_false]; exact h2 k)
  simpa using this

/-! ## The slots that a catalogue write makes STALE (R62) -/

/-- A report is in the list afterwards, or the list overflowed. -/
theorem report_there (c : AttnCause) (j : Subject) (d : Option Cause) (a : Attention) :
    (∃ e ∈ (a.report c j d).list, e.cause = c ∧ e.subject = j) ∨ (a.report c j d).overflow = true := by
  unfold Attention.report
  split
  · next h =>
    obtain ⟨e, he, hi⟩ := List.any_eq_true.1 h
    have hi' : e.cause = c ∧ e.subject = j := by simpa [AttnEntry.isOf] using hi
    refine .inl ⟨_, List.mem_map.2 ⟨e, he, rfl⟩, ?_⟩
    rw [if_pos hi]; exact hi'
  · split
    · exact .inl ⟨_, List.mem_append_right _ (List.mem_singleton.2 rfl), rfl, rfl⟩
    · exact .inr rfl

/-- A report keeps what is in the list, and an overflow. -/
theorem report_stays (c : AttnCause) (j : Subject) (d : Option Cause) (a : Attention) {b : AttnCause} {i : Subject}
    (h : (∃ e ∈ a.list, e.cause = b ∧ e.subject = i) ∨ a.overflow = true) :
    (∃ e ∈ (a.report c j d).list, e.cause = b ∧ e.subject = i) ∨ (a.report c j d).overflow = true := by
  unfold Attention.report
  split
  · rcases h with ⟨e, he, hb, hi⟩ | h
    · refine .inl ⟨_, List.mem_map.2 ⟨e, he, rfl⟩, ?_⟩
      split <;> exact ⟨hb, hi⟩
    · exact .inr h
  · split
    · rcases h with ⟨e, he, hb⟩ | h
      · exact .inl ⟨e, List.mem_append_left _ he, hb⟩
      · exact .inr h
    · exact .inr rfl

/-- What the reports on the slots `l` leave: each has the new tag and is STALE, and has its report where STALE was clear (R62). -/
theorem outdate_all (tag : Word32) (s : State) (l : List SlotId) (hn : l.Nodup) (x : Nat) :
    ∀ t : State, t = l.foldl (fun s k => outdate tag k s) { s with freeTick := x } →
      t = { s with slots := t.slots, au := t.au, freeTick := x } ∧
      (∀ k : SlotId, t.slots[k] = if k ∈ l then { s.slots[k] with expTag := some tag, stale := true } else s.slots[k]) ∧
      ((∀ k ∈ l, s.slots[k].stale = true) → t.au = s.au) ∧
      ∀ k ∈ l, s.slots[k].stale = false → (∃ a ∈ t.au.list, a.cause = .stale ∧ a.subject = .slot k) ∨ t.au.overflow = true := by
  rintro t rfl
  have := foldl_each (fun d t => t = { s with slots := t.slots, au := t.au, freeTick := x } ∧
      (∀ k : SlotId, t.slots[k] = if k ∈ d then { s.slots[k] with expTag := some tag, stale := true } else s.slots[k]) ∧
      ((∀ k ∈ d, s.slots[k].stale = true) → t.au = s.au) ∧
      ∀ k ∈ d, s.slots[k].stale = false → (∃ a ∈ t.au.list, a.cause = .stale ∧ a.subject = .slot k) ∨ t.au.overflow = true)
    (fun s k => outdate tag k s) l [] { s with freeTick := x } (by simpa using hn)
    ⟨rfl, fun k => by simp [-Fin.getElem_fin], fun _ => rfl, by simp⟩
    (by
      rintro d u y hy ⟨h1, h2, h3, h4⟩
      have hsl : ∀ v : State, v.slots = u.slots.set y { u.slots[y] with expTag := some tag, stale := true } → ∀ k : SlotId,
          v.slots[k] = if k ∈ d ++ [y] then { s.slots[k] with expTag := some tag, stale := true } else s.slots[k] := by
        intro v hv k
        rw [hv]
        by_cases h : k = y
        · subst h; rw [set_same, h2 k, if_neg hy]; simp
        · rw [set_other _ h, h2 k]; simp [h]
      have hst : u.slots[y].stale = s.slots[y].stale := by rw [h2 y, if_neg hy]
      have e1 : outdate tag y u = if u.slots[y].stale then
          { u with slots := u.slots.set y { u.slots[y] with expTag := some tag, stale := true } }
        else { u with slots := u.slots.set y { u.slots[y] with expTag := some tag, stale := true }, au := u.au.report .stale (.slot y) none } := rfl
      by_cases hs : u.slots[y].stale = true
      · rw [e1, if_pos hs]
        refine ⟨by rw [h1], hsl _ rfl, fun h => h3 (fun k hk => h k (by simp [hk])), fun k hk hc => ?_⟩
        rcases List.mem_append.1 hk with hk | hk
        · exact h4 k hk hc
        · rw [List.mem_singleton] at hk; subst hk; rw [hst, hc] at hs; cases hs
      · rw [e1, if_neg hs]
        refine ⟨by rw [h1], hsl _ rfl, fun h => ?_, fun k hk hc => ?_⟩
        · rw [hst, h y (by simp)] at hs; exact absurd rfl hs
        · rcases List.mem_append.1 hk with hk | hk
          · exact report_stays _ _ _ _ (h4 k hk hc)
          · rw [List.mem_singleton] at hk; subst hk; exact report_there _ _ _ _)
  simpa using this

/-- What INVALIDATE and a catalogue write drop leaves slots, tables and attention alone (R61, R91). -/
theorem dropImage_rest (i : ImageId) (s : State) :
    (dropImage i s).slots = s.slots ∧ (dropImage i s).tables = s.tables ∧ (dropImage i s).au = s.au := by
  obtain ⟨u, hu⟩ : ∃ u, u = discardFill i (dropFills i (dropLines i s)) := ⟨_, rfl⟩
  have h0 : u.slots = s.slots ∧ u.tables = s.tables ∧ u.au = s.au := by
    have h := of_noCache (discardFill_noCache i (dropFills i (dropLines i s)))
    rw [hu]
    exact ⟨h.2.2.2.1, h.2.2.1, h.2.2.2.2.2.2.2.2.2.2.2.2.2.2.1⟩
  have he : ∀ (st : Status) (d : List Byte) (v : State), (endLong st d v).slots = v.slots ∧ (endLong st d v).tables = v.tables ∧
      (endLong st d v).au = v.au := by
    intro st d v
    have h := of_noReply (endLong_noReply st d v)
    exact ⟨h.2.2.2.1, h.2.2.1, h.2.2.2.2.2.2.2.2.2.2.2.2.2.1⟩
  have h1 : (endPinOn i u).slots = u.slots ∧ (endPinOn i u).tables = u.tables ∧ (endPinOn i u).au = u.au := by
    unfold endPinOn endPin
    split
    · split
      · have h := of_noCache (clearPinMarks_noCache u)
        rw [(he _ _ _).1, (he _ _ _).2.1, (he _ _ _).2.2]
        exact ⟨h.2.2.2.1, h.2.2.1, h.2.2.2.2.2.2.2.2.2.2.2.2.2.2.1⟩
      · exact ⟨rfl, rfl, rfl⟩
    · exact ⟨rfl, rfl, rfl⟩
  have hp : ∀ v : State, (pinDone v).slots = v.slots ∧ (pinDone v).tables = v.tables ∧ (pinDone v).au = v.au := by
    intro v
    have h := of_noReply (pinDone_noReply v)
    exact ⟨h.2.2.2.1, h.2.2.1, h.2.2.2.2.2.2.2.2.2.2.2.2.2.1⟩
  have hr : ∀ r j b (v : State), (request r j b v).slots = v.slots ∧ (request r j b v).tables = v.tables ∧ (request r j b v).au = v.au := by
    intro r j b v
    have h := of_noCache (request_noCache r j b v)
    exact ⟨h.2.2.2.1, h.2.2.1, h.2.2.2.2.2.2.2.2.2.2.2.2.2.2.1⟩
  have hw : ∀ w (v : State), (setWaiting w v).slots = v.slots ∧ (setWaiting w v).tables = v.tables ∧ (setWaiting w v).au = v.au := by
    intro w v; unfold setWaiting; split <;> exact ⟨rfl, rfl, rfl⟩
  have ht : ∀ j bs (v : State), (takeWaiting j bs v).slots = v.slots ∧ (takeWaiting j bs v).tables = v.tables ∧ (takeWaiting j bs v).au = v.au := by
    intro j bs
    induction bs with
    | nil => intro v; exact hw [] v
    | cons b bs ih =>
      intro v; unfold takeWaiting
      split
      · exact hw _ v
      · have h := ih (request .pin j b v)
        rw [h.1, h.2.1, h.2.2]; exact hr _ _ _ _
  have h2 : ∀ v : State, (placeWaiting v).slots = v.slots ∧ (placeWaiting v).tables = v.tables ∧ (placeWaiting v).au = v.au := by
    intro v; unfold placeWaiting
    split
    · split
      · exact ⟨rfl, rfl, rfl⟩
      · rw [(hp _).1, (hp _).2.1, (hp _).2.2]; exact ht _ _ _
    · exact ⟨rfl, rfl, rfl⟩
  have h3 : ∀ (b : Bool) (v : State), (afterWithdraw b v).slots = v.slots ∧ (afterWithdraw b v).tables = v.tables ∧
      (afterWithdraw b v).au = v.au := by
    intro b v; unfold afterWithdraw
    split
    · have h := of_noCache (requestAll_noCache (placeWaiting v))
      have h' := h2 v
      rw [← h'.1, ← h'.2.1, ← h'.2.2]
      exact ⟨h.2.2.2.1, h.2.2.1, h.2.2.2.2.2.2.2.2.2.2.2.2.2.2.1⟩
    · exact ⟨rfl, rfl, rfl⟩
  unfold dropImage
  rw [← hu]
  have h := h3 (hasFills i s) (endPinOn i u)
  rw [h.1, h.2.1, h.2.2, h1.1, h1.2.1, h1.2.2]
  exact h0

end Sys2Proof.Machine
end

