-- ==== Sys2Proof/Tests/Slice0.lean ====
section
/-! SUPPORT. Tests: well-formedness on ill-formed commands, worked values of the manual on small states, and for each obligation a state and
operands that meet its hypotheses. -/

namespace Sys2Proof.Tests

set_option Elab.async false

open Sys2Proof.Machine Sys2Proof.Safety

/-! ## Well-formedness: one ill-formed command for each check, and the largest well-formed one -/

/-- A disturbance of `n` bytes. -/
def noise (n : Nat) : Disturb := List.replicate n 1

theorem test_load_left_too_long : (Instr.startUpLoadDone (noise 4097) []).wellFormed = false := by decide +kernel
theorem test_load_read_too_long : (Instr.startUpLoadDone [] (noise 2118)).wellFormed = false := by decide +kernel
theorem test_fill_read_too_long : (Instr.fillReadEnd (noise 131)).wellFormed = false := by decide +kernel
theorem test_erase_kept_too_long : (Instr.eraseSectorDone (noise 4097) []).wellFormed = false := by decide +kernel
theorem test_erase_read_too_long : (Instr.eraseSectorDone [] (noise 4031)).wellFormed = false := by decide +kernel
theorem test_write_blank_too_long : (Instr.writeRecordDone (noise 131) [] []).wellFormed = false := by decide +kernel
theorem test_write_prog_too_long : (Instr.writeRecordDone [] (noise 131) []).wellFormed = false := by decide +kernel
theorem test_write_back_too_long : (Instr.writeRecordDone [] [] (noise 131)).wellFormed = false := by decide +kernel
theorem test_commit_prog_too_long : (Instr.commitDone (noise 4097) []).wellFormed = false := by decide +kernel
theorem test_commit_back_too_long : (Instr.commitDone [] (noise 2118)).wellFormed = false := by decide +kernel
theorem test_scan_read_too_long : (Instr.scanReadEnd (noise 131)).wellFormed = false := by decide +kernel
theorem test_longest_well_formed :
    (Instr.startUpLoadDone (noise 4096) (noise 2117)).wellFormed = true ∧
      (Instr.eraseSectorDone (noise 4096) (noise 4030)).wellFormed = true := by decide +kernel

/-! ## States -/

/-- The part in work with one slot: line UP, the port FREE, slot 0 enabled in ABSENT with class 0, image override 0; catalogue entry 0 valid,
two blocks, the first in record 7, the second a fill block. -/
def live : State :=
  { State.reset with
    phase := .running
    lineHigh := true
    tables := { Tables.factory with
      slots := Tables.factory.slots.set 0 { SlotEntry.factory 0 with enabled := true, override := some 0, group := some 0 }
      cat := Tables.factory.cat.set 0 { CatEntry.factory with
        valid := true, length := 2, tag := 0x11223344, windows := CatEntry.factory.windows.set 0 ⟨true, 0, 0, 7⟩ } }
    slots := State.reset.slots.set 0 { SlotStatus.vacant with state := .absent, cls := some 0 }
    lm := { State.reset.lm with line := .up }
    seg := { State.reset.seg with port := .free, silent := false } }

/-- A session on catalogue entry 0 in `live`. -/
def restore : Session :=
  { img := 0, tag := 0x11223344, length := 2, check := 0, entryWord := 0, warm := false, window := 4, stageTimeout := 40,
    resendLimit := 16, cursor := 0, through := none, inFlight := [], resends := 0, sent := false, sentMask := none, timer := some 40 }

/-- Slot 0 as given. -/
def withSlot (x : SlotStatus) (s : State) : State := { s with slots := s.slots.set 0 x }

/-- Slot 0 in a state, with class 0. -/
def slotIn (st : SlotState) : SlotStatus := { SlotStatus.vacant with state := st, cls := some 0 }

/-- The segment port as given. -/
def withPort (p : SegPort) (s : State) : State := { s with seg := { s.seg with port := p } }

/-- A turn given to slot 0, with the port as given. -/
def turned (p : SegPort) (void : Bool) (s : State) : State :=
  { s with seg := { s.seg with port := p, turn := some ⟨0, 1, void, false⟩ } }

/-- The trunk origin waits with a request of payload `p`. -/
def asking (p : List Byte) (s : State) : State := { s with ma := { s.ma with trunk := ⟨.waiting, some ⟨p, 0x55, 9⟩, s.ma.trunk.link⟩ } }

/-- The long-operation slot held for the trunk origin. -/
def withLong (j : LongJob) (s : State) : State :=
  { s with ma := { s.ma with long := some ⟨.trunk, j⟩, trunk := ⟨.running, some ⟨[0x30], 0x55, 9⟩, none⟩ } }

def withReader (r : Reader) (s : State) : State := { s with reader := r }

def withLine (l : LineState) (s : State) : State := { s with lm := { s.lm with line := l } }

/-- Every pool buffer taken but for `n`. -/
def crowded (n : Nat) (s : State) : State :=
  { s with pool := ⟨⟨(List.range 64).map (fun i => if i < n then ⟨none, 0⟩ else ⟨some ⟨1, 2, .data, 0, []⟩, 1⟩)⟩, by simp⟩ }

/-- A frame's bytes as they lie on a wire. -/
def wire (dst src : Byte) (k : Kind) (p : List Byte) : List Byte := Frame.bytes ⟨dst, src, k, 3, p⟩

/-- A request is asked in `asking` when its code and form are right and the slot is free for a long one. -/
theorem asked_asking {c : ReqCode} {b : Byte} {a : List Byte} {s : State} (hc : ReqCode.ofByte b = some c) (hf : formOk c a = true)
    (hl : c.isLong = true → s.ma.long = none) (hs : s.ma.stopped = false) (hv : s.ma.service.state ≠ .waiting) :
    Asked c .trunk a (asking (b :: a) s) := by
  have ht : isWaiting .trunk (asking (b :: a) s) = true := rfl
  have hv' : isWaiting .service (asking (b :: a) s) = false := by
    simp only [isWaiting, decide_eq_false_iff_not]; exact hv
  have hn : nextOrigin (asking (b :: a) s) = some .trunk := by
    unfold nextOrigin
    have : (asking (b :: a) s).ma.stopped = false := hs
    rw [this, ht, hv']; rfl
  refine ⟨⟨b :: a, 0x55, 9⟩, b, ?_, rfl, hc, hf, hl⟩
  unfold nextRequest; rw [hn]; rfl

/-! ## Worked values -/

/-- CRC-16 of the digits 1 to 9 (R66: generator 0x1021, all ones, not reflected). -/
theorem test_crc16 : crc16 [0x31, 0x32, 0x33, 0x34, 0x35, 0x36, 0x37, 0x38, 0x39] = 0x29B1#16 := by decide +kernel

/-- CRC-32 of the digits 1 to 9 (R57). -/
theorem test_crc32 : crc32 [0x31, 0x32, 0x33, 0x34, 0x35, 0x36, 0x37, 0x38, 0x39] = 0xCBF43926#32 := by decide +kernel

/-- Record 31 is the first of image sector 1 (R65). -/
theorem test_record_address : recordAddr 31 = 4096 * 257 ∧ recordAddr 30 = 4096 * 256 + 3900 := by decide

/-- A frame on the wire and its reading (11.1). -/
theorem test_frame :
    (wire 0x12 0xE0 .turn []).take 5 = [0x12, 0xE0, 0x10, 3, 0] ∧ parseFrame (wire 0x12 0xE0 .turn []) = some ⟨0x12, 0xE0, .turn, 3, []⟩ ∧
      parseFrame ((wire 0x12 0xE0 .turn []).set 6 0xEE) = none := by decide +kernel

/-- The supply of the blocks of entry 0 in `live` (R56). -/
theorem test_supply :
    (live.tables.cat[0]).supply 0 = .record 7 ∧ (live.tables.cat[0]).supply 1 = .fill ∧ (live.tables.cat[0]).supply 2 = .outside := by
  decide +kernel

/-- The factory settings entry in its bytes (R171, R198). -/
theorem test_settings_bytes : Settings.factory.encode = [0xE0, 1, 0, 0, 4, 4, 40, 4, 4, 2, 2, 2, 16] := by decide +kernel

/-- A BOOTCALL of 11 bytes is read, one of 10 is none (R194, R195). -/
theorem test_bootcall :
    parseBootCall [2, 1, 0, 3, 0x10, 0, 1, 0xA, 0xB, 0xC, 0xD] = some ⟨2, 1, 3, 4096, some 0x0A0B0C0D⟩ ∧
      parseBootCall [2, 1, 0, 3, 0x10, 0, 0, 0xA, 0xB, 0xC, 0xD] = some ⟨2, 1, 3, 4096, none⟩ ∧
      parseBootCall [2, 1, 0, 3, 0x10, 0, 0, 0, 0, 0] = none := by decide +kernel

/-- Cause, subject none and overflow in the data of READ-ATTN (R197). -/
theorem test_attention_data : (AttnEntry.data ⟨.configBad, .none, none, 1⟩) = [8, 0xFF, 0, 1] := by decide

/-- The number of entries in a full READ-RANGE frame (R197): 8 settings-sized entries fit, 4 of the catalogue, 3 context records. -/
theorem test_per_frame : perFrame 2 = 8 ∧ perFrame 3 = 4 ∧ perFrame 9 = 3 := by decide

/-- The words of the table give no row bits: none spells a command. -/
theorem test_no_word : decodeTableWord 8 0x01 = none ∧ State.reset.withFetchWord 8 1 = State.reset := ⟨rfl, rfl⟩

/-- A byte that a write sets to 0xFF is listed no more. -/
theorem test_flash_erased_byte : Memory.write (Memory.write [] 5 0x12) 5 0xFF = [] ∧ Memory.read (Memory.write [] 5 0x12) 5 = 0x12 := by
  decide

/-- A frame that began before the port took frames has no effect, whatever its bytes (R114, R132). -/
theorem test_early_frame : exec (.receiveFrame (.early .trunk) (wire 0xE0 0x40 .mgmtReq [0x50])) live = .next live := rfl

/-- A disabling write and a change of address void an open turn, a mere enabling does not (R105). -/
theorem test_voids :
    voids { SlotEntry.factory 0 with enabled := true } (SlotEntry.factory 0) = true ∧
      voids (SlotEntry.factory 0) { SlotEntry.factory 0 with enabled := true } = false ∧ voids (SlotEntry.factory 0) (SlotEntry.factory 1) = true := by
  decide

/-- A block asked for again while its marked fill runs in line 0 takes line 1, though line 0 is EMPTY by then (R85, log entry 33). -/
theorem test_other_line :
    markedLine 0 0 (withReader (.fill ⟨0, 0, 0, 7, [], false, true, false, false⟩)
      { live with bc := { live.bc with lines := live.bc.lines.set 0 (.filling 0 0 true) } }) = some 0 ∧
      victim (some 0) live = some 1 ∧ victim none live = some 0 := by decide +kernel

/-! ## Hypotheses met -/

theorem witness_StepTakesFront :
    (∃ (c : Instr) (s : State) (rest : List Instr), s.pending = c :: rest) ∧ ∃ s : State, s.pending = [] :=
  ⟨⟨.permit, { live with pending := [.permit, .clear] }, [.clear], rfl⟩, live, rfl⟩

theorem witness_FinishFrame : ∃ s : State, s.seg.port ≠ .free := ⟨State.reset, by decide⟩

theorem witness_NextSent :
    (∃ s : State, s.seg.port = .free ∧ s.tables.settings.debtLimit ≤ s.seg.debt ∧ ∃ k : SlotId, s.slots[k].state ≠ .vacant) ∧
    (∃ s : State, s.seg.port = .free ∧ (∀ k : SlotId, inReady s k = false) ∧ s.queues.out ≠ [] ∧
      s.seg.debt < s.tables.settings.debtLimit) ∧
    ∃ s : State, s.seg.port = .free ∧ (∀ k : SlotId, inReady s k = false) ∧ s.queues.out ≠ [] ∧ s.seg.debt = 8 ∧
      ∀ k : SlotId, s.slots[k].state = .vacant :=
  ⟨⟨{ live with seg := { live.seg with debt := 2 } }, by decide +kernel⟩,
    ⟨{ live with queues := { live.queues with out := [5] }, seg := { live.seg with debt := 1 } }, by decide +kernel⟩,
    { live with
      queues := { live.queues with out := [5] }, seg := { live.seg with debt := 8 }, slots := State.reset.slots }, by decide +kernel⟩

/-- Slot 0 is the first of the ready set. -/
def firstIn (s : State) : Prop :=
  inReady s 0 = true ∧ slotRank 0 s ≤ 8 ∧
    ∀ j : SlotId, inReady s j = true → slotRank 0 s < slotRank j s ∨ slotRank 0 s = slotRank j s ∧ 0 ≤ j

theorem witness_GrantsMade :
    (∃ s : State, s.seg.port = .free ∧ s.seg.debt < s.tables.settings.debtLimit ∧ firstIn s ∧
      s.slots[0].session = some { restore with cursor := 1, inFlight := [0] } ∧ s.slots[0].state = .loading) ∧
    (∃ s : State, s.seg.port = .free ∧ s.seg.debt < s.tables.settings.debtLimit ∧ firstIn s ∧
      s.slots[0].session = some restore ∧ s.slots[0].state = .starting) ∧
    (∃ s : State, s.seg.port = .free ∧ s.seg.debt < s.tables.settings.debtLimit ∧ firstIn s ∧
      s.slots[0].session = some restore ∧ s.slots[0].state = .context) ∧
    ∃ s : State, s.seg.port = .free ∧ s.seg.debt < s.tables.settings.debtLimit ∧ firstIn s ∧
      s.slots[0].session = none ∧ s.slots[0].reboot = some .reload := by
  unfold firstIn
  exact ⟨⟨withSlot { slotIn .loading with session := some { restore with cursor := 1, inFlight := [0] } } live, by decide +kernel⟩,
    ⟨withSlot { slotIn .starting with session := some restore } live, by decide +kernel⟩,
    ⟨withSlot { slotIn .context with session := some restore } live, by decide +kernel⟩,
    withSlot { slotIn .running with reboot := some .reload } live, by decide +kernel⟩

theorem witness_FullResetOnPins :
    (∃ s : State, s.reader = .erase 3839) ∧ (∃ s : State, s.reader = .program 119039 []) ∧ (∃ s : State, s.reader = .commit) ∧
      ∃ s : State, s.reader = .idle :=
  ⟨⟨withReader (.erase 3839) live, rfl⟩, ⟨withReader (.program 119039 []) live, rfl⟩, ⟨withReader .commit live, rfl⟩, live, rfl⟩

theorem witness_StartUpLoad :
    (∃ s : State, s.phase = .starting ∧ s.cut = none ∧ s.seg.port = .silent ∧ s.lineHigh = false) ∧
      ∃ s : State, s.phase = .starting ∧ s.cut = none ∧ s.seg.port = .silent ∧ s.lineHigh = true :=
  ⟨⟨State.reset, by decide⟩, { State.reset with lineHigh := true }, by decide⟩

theorem witness_StoreReadsBack : Writable Tables.factory := by
  refine ⟨⟨Settings.factory.encode, rfl, by decide +kernel⟩, ?_, ?_, ?_, ?_, ?_, by decide +kernel⟩
  · intro i; exact ⟨ClassEntry.factory.encode, by decide +kernel, by revert i; decide +kernel⟩
  · intro i; refine ⟨(Tables.factory.slots[i]).encode, ?_, ?_⟩ <;> (revert i; decide +kernel)
  · intro i; exact ⟨CatEntry.factory.encode, by decide +kernel, by revert i; decide +kernel⟩
  · intro i; exact ⟨FwdRule.factory.encode, by decide +kernel, by revert i; decide +kernel⟩
  · intro i; exact ⟨CapRule.factory.encode, by decide +kernel, by revert i; decide +kernel⟩

/-- The largest values of each entry's codes, and NONE and ANY. -/
theorem witness_EntriesReadBack :
    (∃ b e, b.length = 13 ∧ Settings.decode b = some e) ∧ (∃ b e, b.length = 24 ∧ ClassEntry.decode b = some e) ∧
      (∃ b e, b.length = 8 ∧ SlotEntry.decode b = some e) ∧ (∃ b e, b.length = 54 ∧ CatEntry.decode b = some e) ∧
      (∃ b e, b.length = 11 ∧ FwdRule.decode b = some e) ∧ ∃ b e, b.length = 8 ∧ CapRule.decode b = some e :=
  ⟨⟨[0xEF, 8, 1, 1, 8, 8, 255, 16, 15, 8, 5, 4, 63], _, rfl, rfl⟩,
    ⟨[7, 15, 3, 3, 15, 1, 1, 1] ++ List.replicate 8 8 ++ List.replicate 8 0, _, rfl, rfl⟩,
    ⟨[1, 0xEF, 0, 0xFF, 15, 3, 0x7F, 0xFF], _, rfl, rfl⟩,
    ⟨CatEntry.factory.encode, CatEntry.factory, by decide +kernel, by decide +kernel⟩,
    ⟨[1, 1, 1, 0xFF, 0xFF, 0xFF, 0xFF, 9, 0xFF, 2, 1], _, rfl, rfl⟩, ⟨[1, 2, 9, 0xFF, 239, 15, 0xFF, 1], _, rfl, rfl⟩⟩

theorem witness_OutputsFollowAlways : ∃ s t : State, OutputsFollow s ∧ step s = .next t :=
  ⟨{ live with pending := [.lineFalls] }, _, ⟨rfl, by decide +kernel⟩, rfl⟩

theorem witness_SegmentSilentAlways :
    ∃ s t : State, SegmentSilent s ∧ step s = .next t ∧ (t.lm.line = .gap ∨ t.lm.line = .settle) ∧ ∃ x, t.seg.port = .sending x :=
  ⟨withPort (.sending .outbound) (withLine .dip { live with pending := [.deglitchTimerExpiry] }), _, by unfold SegmentSilent; decide +kernel, rfl,
    .inl (by decide +kernel), .outbound, by decide +kernel⟩

theorem witness_FlashCanonicalAlways : ∃ s t : State, FlashCanonical s ∧ s.flash ≠ [] ∧ step s = .next t :=
  ⟨{ live with flash := [(4, 7), (9, 1)], pending := [.permit] }, _, by unfold FlashCanonical; decide +kernel, by decide, rfl⟩

theorem witness_AttentionLawAlways : ∃ s t : State, AttentionLaw s ∧ s.au.list ≠ [] ∧ step s = .next t :=
  ⟨{ live with au := ⟨[⟨.lost, .slot 0, none, 255⟩], false, true⟩, pending := [.permit] }, _, by unfold AttentionLaw; decide +kernel,
    by decide, rfl⟩

theorem witness_BoundedAlways : ∃ s t : State, Bounded s ∧ s.queues.out.length = 32 ∧ s.seg.debt = 8 ∧ step s = .next t :=
  ⟨{ live with
      queues := { live.queues with out := List.replicate 32 1 }, seg := { live.seg with debt := 8 }, pending := [.permit] },
    _, by unfold Bounded; decide +kernel, by decide +kernel, rfl, rfl⟩

theorem witness_LineMoves :
    (∃ s : State, s.phase = .running ∧ s.lm.line = .up ∧ s.tables.settings.deglitchCode = 0) ∧
      (∃ s : State, s.phase = .running ∧ s.lm.line = .up ∧ s.tables.settings.deglitchCode = 5) ∧
      (∃ s : State, s.phase = .running ∧ s.lm.line = .settle) ∧
      (∃ s : State, s.phase = .running ∧ s.lm.line = .dip ∧ s.lm.dips = 65535) ∧
      (∃ s : State, s.phase = .running ∧ s.lm.line = .gap ∧ s.tables.settings.settleCode = 0) ∧
      ∃ s : State, s.phase = .running ∧ s.lm.line = .gap ∧ s.tables.settings.settleCode = 4 :=
  ⟨⟨{ live with tables := { live.tables with settings := { Settings.factory with deglitchCode := 0 } } }, rfl, rfl, rfl⟩,
    ⟨{ live with tables := { live.tables with settings := { Settings.factory with deglitchCode := 5 } } }, rfl, rfl, rfl⟩,
    ⟨withLine .settle live, rfl, rfl⟩,
    ⟨{ live with lm := { live.lm with line := .dip, dips := 65535 } }, rfl, rfl, rfl⟩,
    ⟨withLine .gap { live with tables := { live.tables with settings := { Settings.factory with settleCode := 0 } } }, rfl, rfl, rfl⟩,
    withLine .gap { live with tables := { live.tables with settings := { Settings.factory with settleCode := 4 } } }, rfl, rfl, rfl⟩

theorem witness_GapConfirmed :
    (∃ s : State, s.lm.line = .dip ∧ s.seg.port = .window ∧ s.slots[0].state = .failed ∧ s.slots[1].state = .vacant) ∧
      (∃ s : State, s.lm.line = .dip ∧ s.seg.port = .sending .outbound ∧ s.slots[0].state ≠ .vacant ∧ s.slots[0].state ≠ .failed) ∧
      (∃ s : State, s.lm.line = .dip ∧ s.seg.port = .receiving true) ∧ ∃ s : State, s.lm.line = .dip ∧ s.seg.port = .free :=
  ⟨⟨withSlot (slotIn .failed) (withPort .window (withLine .dip live)), by decide +kernel⟩,
    ⟨withPort (.sending .outbound) (withLine .dip live), by decide +kernel⟩,
    ⟨withPort (.receiving true) (withLine .dip live), rfl, rfl⟩, withLine .dip live, rfl, rfl⟩

theorem witness_SlotTimersExpire :
    (∃ s : State, s.slots[0].state = .backoff ∧ s.slots[0].retryTimer.isSome = true) ∧
      ∃ s : State, s.slots[0].session = some restore ∧ restore.timer.isSome = true :=
  ⟨⟨withSlot { slotIn .backoff with retryTimer := some 250 } live, by decide +kernel⟩,
    withSlot { slotIn .loading with session := some restore } live, by decide +kernel⟩

/-- `live` with a policy for class 0 and a retry count for slot 0; the factory retry limit is 3. -/
def failing (p : FailPolicy) (code retry : Nat) : State :=
  { live with
    tables := { live.tables with classes := live.tables.classes.set 0 { ClassEntry.factory with policy := p, retryTime := code } }
    slots := live.slots.set 0 { slotIn .loading with retry := retry, session := some restore } }

theorem witness_FailureByPolicy :
    (∃ (s : State) (e : ClassEntry), s.slots[0].cls = some 0 ∧ s.tables.classes[0] = e ∧ e.policy = .retry ∧ s.slots[0].retry + 1 < e.retryLimit ∧
      (e.retryTime, 8000) ∈ [(0, 250), (1, 1000), (2, 3000), (3, 8000)]) ∧
    (∃ (s : State) (e : ClassEntry), s.slots[0].cls = some 0 ∧ s.tables.classes[0] = e ∧ e.policy = .retry ∧ e.retryLimit ≤ s.slots[0].retry + 1) ∧
    (∃ (s : State) (e : ClassEntry), s.slots[0].cls = some 0 ∧ s.tables.classes[0] = e ∧ e.policy = .latch) ∧
    (∃ (s : State) (e : ClassEntry), s.slots[0].cls = some 0 ∧ s.tables.classes[0] = e ∧ e.policy = .report) ∧
    ∃ (s : State) (e : ClassEntry), s.slots[0].cls = some 0 ∧ s.tables.classes[0] = e ∧ e.policy = .ignore :=
  ⟨⟨failing .retry 3 1, { ClassEntry.factory with retryTime := 3 }, by decide +kernel⟩,
    ⟨failing .retry 3 2, { ClassEntry.factory with retryTime := 3 }, by decide +kernel⟩,
    ⟨failing .latch 0 0, { ClassEntry.factory with policy := .latch, retryTime := 0 }, by decide +kernel⟩,
    ⟨failing .report 0 0, { ClassEntry.factory with policy := .report, retryTime := 0 }, by decide +kernel⟩,
    failing .ignore 0 0, { ClassEntry.factory with policy := .ignore, retryTime := 0 }, by decide +kernel⟩

theorem witness_WindowEvents :
    (∃ s : State, s.phase = .running ∧ s.seg.port = .window) ∧ (∃ s : State, s.phase = .running ∧ s.seg.port = .free) ∧
      (∃ s : State, s.phase = .running ∧ s.seg.port = .silent) ∧
      (∃ (s : State) (u : Turn), s.seg.port = .window ∧ s.seg.turn = some u ∧ u.void = true) ∧
      (∃ (s : State) (u : Turn), s.seg.port = .window ∧ s.seg.turn = some u ∧ u.void = false ∧
        s.slots[u.slot].miss + 1 < s.tables.settings.presenceLimit) ∧
      ∃ (s : State) (u : Turn), s.seg.port = .window ∧ s.seg.turn = some u ∧ u.void = false ∧
        s.tables.settings.presenceLimit ≤ s.slots[u.slot].miss + 1 :=
  ⟨⟨withPort .window live, rfl, rfl⟩, ⟨live, rfl, rfl⟩, ⟨withPort .silent live, rfl, rfl⟩,
    ⟨turned .window true live, ⟨0, 1, true, false⟩, rfl, rfl, rfl⟩,
    ⟨turned .window false (withSlot { slotIn .absent with miss := 2 } live), ⟨0, 1, false, false⟩, by decide +kernel⟩,
    turned .window false (withSlot { slotIn .absent with miss := 3 } live), ⟨0, 1, false, false⟩, by decide +kernel⟩

theorem witness_PresenceLostByState :
    (∃ s : State, s.slots[0].state = .running ∧ s.slots[0].cls = some 0) ∧ (∃ s : State, s.slots[0].state = .dark) ∧
      (∃ s : State, s.slots[0].state.restoring = true) ∧ ∃ s : State, s.slots[0].state = .backoff :=
  ⟨⟨withSlot (slotIn .running) live, by decide +kernel⟩, ⟨withSlot (slotIn .dark) live, by decide +kernel⟩,
    ⟨withSlot (slotIn .context) live, by decide +kernel⟩, withSlot (slotIn .backoff) live, by decide +kernel⟩

theorem witness_SegmentFrameJudged :
    (∃ s : State, s.seg.port = .receiving false) ∧
    (∃ (s : State) (bytes : List Byte) (u : Turn), s.seg.port = .receiving true ∧ s.seg.turn = some u ∧ u.void = false ∧
      u.closed = false ∧ (∀ f, parseFrame bytes = some f → f.src ≠ u.addr) ∧
      s.slots[u.slot].miss + 1 < s.tables.settings.presenceLimit) ∧
    ∃ (s : State) (bytes : List Byte) (u : Turn) (f : Frame), s.seg.port = .receiving true ∧ s.seg.turn = some u ∧ u.void = false ∧
      parseFrame bytes = some f ∧ f.kind = .empty ∧ f.src = u.addr ∧ 8 < (freeBufs s).length := by
  refine ⟨⟨withPort (.receiving false) live, rfl⟩,
    ⟨turned (.receiving true) false live, wire 0xE0 2 .empty [], ⟨0, 1, false, false⟩, rfl, rfl, rfl, rfl, ?_, by decide +kernel⟩,
    crowded 9 (turned (.receiving true) false live), wire 0xE0 1 .empty [], ⟨0, 1, false, false⟩, ⟨0xE0, 1, .empty, 3, []⟩, by decide +kernel⟩
  intro f hf
  have : parseFrame (wire 0xE0 2 .empty []) = some ⟨0xE0, 2, .empty, 3, []⟩ := by decide +kernel
  rw [this] at hf
  obtain rfl := Option.some.inj hf
  decide

theorem witness_SegmentTransmissionEnds :
    (∃ (s : State) (f : Frame) (u : Turn), s.seg.port = .sending (.turn f) ∧ s.seg.turn = some u ∧ u.closed = false ∧ s.seg.silent = false) ∧
      (∃ (s : State) (f : Frame), s.seg.port = .sending (.turn f) ∧ s.seg.silent = true) ∧ (∃ (s : State) (f : Frame), s.seg.port = .sending (.restore f)) ∧
      (∃ (s : State) (f : Frame) (k : SlotId), s.seg.port = .sending (.reboot f k)) ∧ ∃ (s : State) (b : BufId) (bs : List BufId), s.seg.port = .sending .outbound ∧ s.queues.out = b :: bs :=
  ⟨⟨turned (.sending (.turn ⟨1, 0xE0, .turn, 0, []⟩)) false live, ⟨1, 0xE0, .turn, 0, []⟩, ⟨0, 1, false, false⟩, rfl, rfl, rfl, rfl⟩,
    ⟨withPort (.sending (.turn ⟨1, 0xE0, .turn, 0, []⟩)) State.reset, _, rfl, rfl⟩,
    ⟨withPort (.sending (.restore ⟨1, 0xE0, .startimg, 0, []⟩)) live, _, rfl⟩,
    ⟨withPort (.sending (.reboot ⟨1, 0xE0, .reboot, 0, [0]⟩ 0)) live, _, _, rfl⟩,
    { withPort (.sending .outbound) live with queues := { live.queues with out := [4] } }, 4, [], rfl, rfl⟩

theorem witness_BuffersReferenced :
    (∃ (s : State) (b : BufId), s.pool[b].refs ≤ 1) ∧ (∃ (s : State) (b : BufId), 1 < s.pool[b].refs) ∧
      (∃ s : State, freeBufs s = []) ∧ ∃ s : State, freeBufs s ≠ [] ∧ s.queues.trunk.length < 48 :=
  ⟨⟨crowded 0 live, 63, by decide +kernel⟩,
    ⟨{ live with pool := live.pool.set 0 ⟨some ⟨1, 2, .data, 0, []⟩, 2⟩ }, 0, by decide +kernel⟩, ⟨crowded 0 live, by decide +kernel⟩,
    { crowded 1 live with queues := { live.queues with trunk := List.replicate 47 ⟨1, false⟩ } }, by decide +kernel⟩

theorem witness_LinkTransmissionEnds :
    (∃ (s : State) (e : TxEntry) (es : List TxEntry), s.queues.trunk = e :: es ∧ e.resets = false) ∧
      (∃ (s : State) (e : TxEntry) (es : List TxEntry), s.queues.service = e :: es ∧ e.resets = false) ∧
      (∃ (s : State) (e : TxEntry) (es : List TxEntry), s.queues.trunk = e :: es ∧ e.resets = true) ∧
      ∃ (s : State) (e : TxEntry) (es : List TxEntry), s.queues.service = e :: es ∧ e.resets = true :=
  ⟨⟨{ live with queues := { live.queues with trunk := [⟨1, false⟩] } }, _, _, rfl, rfl⟩,
    ⟨{ live with queues := { live.queues with service := [⟨1, false⟩] } }, _, _, rfl, rfl⟩,
    ⟨{ live with queues := { live.queues with trunk := [⟨1, true⟩] } }, _, _, rfl, rfl⟩,
    { live with queues := { live.queues with service := [⟨1, true⟩] } }, _, _, rfl, rfl⟩

theorem witness_FrameNotTaken :
    (∃ (s : State) (bytes : List Byte), s.phase = .running ∧ parseFrame bytes = none) ∧
      ∃ (s : State) (bytes : List Byte) (f : Frame), s.phase = .running ∧ parseFrame bytes = some f ∧ f.kind = .data ∧
        (freeBufs s).length ≤ 8 :=
  ⟨⟨live, [], by decide +kernel⟩, crowded 8 live, wire 1 0x40 .data [9], ⟨1, 0x40, .data, 3, [9]⟩, by decide +kernel⟩

theorem witness_StationFrameForwarded :
    (∃ (s : State) (bytes : List Byte) (f : Frame), s.phase = .running ∧ parseFrame bytes = some f ∧ f.kind = .data ∧
      isStation f.dst = true ∧ lookup .down .data f s = (.forward, false) ∧ s.lm.line = .up ∧ 8 < (freeBufs s).length ∧
      (∀ k : SlotId, s.tables.slots[k].enabled = true → s.tables.slots[k].addr = f.dst → s.slots[k].state = .running) ∧
      s.queues.out.length < 32) ∧
    ∃ (s : State) (bytes : List Byte) (f : Frame), s.phase = .running ∧ parseFrame bytes = some f ∧ f.kind = .data ∧
      isStation f.dst = true ∧ lookup .down .data f s = (.forward, false) ∧ s.lm.line = .dip ∧ 8 < (freeBufs s).length ∧
      (s.tables.slots[0]).enabled = true ∧ (s.tables.slots[0]).addr = f.dst ∧
      (∀ j : SlotId, s.tables.slots[j].enabled = true → s.tables.slots[j].addr = f.dst → j = 0) ∧
      s.slots[0].state.restoring = true ∧ s.slots[0].cls = some 0 ∧ (s.tables.classes[0]).holdEnable = true ∧
      s.queues.hold[0].length < s.tables.settings.holdDepth :=
  ⟨⟨{ crowded 9 (withSlot (slotIn .running) live) with queues := { live.queues with out := List.replicate 31 9 } }, wire 1 0x40 .data [9],
      ⟨1, 0x40, .data, 3, [9]⟩, by decide +kernel⟩,
    { withLine .dip (withSlot { slotIn .loading with session := some restore } live) with
      queues := { live.queues with hold := live.queues.hold.set 0 [1, 2, 3] } }, wire 1 0x40 .data [9], ⟨1, 0x40, .data, 3, [9]⟩,
    by decide +kernel⟩

theorem witness_RequestTaken :
    ∃ (s : State) (bytes : List Byte) (f : Frame), s.phase = .running ∧ parseFrame bytes = some f ∧ f.kind = .mgmtReq ∧
      8 < (freeBufs s).length ∧ f.dst = s.tables.settings.mgmtAddr ∧ s.ma.trunk.state = .idle ∧ s.ma.service.state = .idle :=
  ⟨crowded 9 live, wire 0xE0 0x55 .mgmtReq [0x50], ⟨0xE0, 0x55, .mgmtReq, 3, [0x50]⟩, by decide +kernel⟩

theorem witness_ColdSessionOpens :
    ∃ (s : State) (b : BootCall) (e : CatEntry), s.slots[0].state = .absent ∧ (s.tables.slots[0]).expClass = none ∧
      (0 : ClassId) = classLookup b.cls.toNat s ∧ s.slots[0].cls = some 0 ∧ (s.tables.slots[0]).override = some 0 ∧
      s.tables.cat[0] = e ∧ e.valid = true ∧ (s.catSt[0]).bad = false ∧ e.minHw ≤ b.hw ∧ e.minBoot ≤ b.boot ∧
      e.length ≤ b.capacity ∧ b.held = none :=
  ⟨live, ⟨7, 0, 0, 2, none⟩, live.tables.cat[0], by decide +kernel⟩

theorem witness_RestoreAnswersJudged :
    (∃ (s : State) (x : Session) (t m : Nat), s.slots[0].session = some x ∧ s.slots[0].state = .loading ∧ t = 256 * 0 + 1 ∧
      m = 256 * 255 + 255 ∧ t ≠ 0xFFFF ∧ x.cursor ≤ t) ∧
    (∃ (s : State) (x : Session) (t m : Nat), s.slots[0].session = some x ∧ s.slots[0].state = .loading ∧ t = 256 * 255 + 255 ∧
      m = 256 * 0 + 2 ∧ m ≠ 0xFFFF ∧ x.cursor < m) ∧
    ∃ (s : State) (x : Session) (p : List Byte), s.slots[0].session = some x ∧ s.slots[0].state = .context ∧ x.sent = true ∧
      p.length = 6 ∧ rd32 p 0 = x.tag ∧ x.sentMask = some (BitVec.ofNat 16 (rd16 p 4)) :=
  ⟨⟨withSlot { slotIn .loading with session := some { restore with cursor := 1, inFlight := [0] } } live,
      { restore with cursor := 1, inFlight := [0] }, _, _, by decide +kernel, by decide +kernel, rfl, rfl, by decide⟩,
    ⟨withSlot { slotIn .loading with session := some { restore with cursor := 1, inFlight := [0] } } live,
      { restore with cursor := 1, inFlight := [0] }, _, _, by decide +kernel, by decide +kernel, rfl, rfl, by decide⟩,
    withSlot { slotIn .context with session := some { restore with sent := true, sentMask := some 0x8001 } } live,
    { restore with sent := true, sentMask := some 0x8001 }, [0x11, 0x22, 0x33, 0x44, 0x80, 0x01], by decide +kernel⟩

theorem witness_StatusJudged :
    (∃ (s : State) (p : List Byte), 6 ≤ p.length ∧ s.lm.line = .up ∧ s.slots[0].state = .running ∧
      s.slots[0].expTag = some (rd32 p 1)) ∧
    (∃ (s : State) (p : List Byte), 6 ≤ p.length ∧ s.lm.line = .dip ∧ s.slots[0].state = .running ∧
      s.slots[0].expTag ≠ some (rd32 p 1) ∧ s.slots[0].stale = false) ∧
    (∃ (s : State) (p : List Byte), 6 ≤ p.length ∧ s.lm.line = .up ∧ s.slots[0].state = .running ∧
      s.slots[0].expTag ≠ some (rd32 p 1) ∧ s.slots[0].stale = true) ∧
    (∃ (s : State) (p : List Byte), 6 ≤ p.length ∧ s.lm.line = .up ∧ s.slots[0].state = .dark ∧
      (s.tables.slots[0]).expClass = none ∧ s.slots[0].cls = some (classLookup (rd8 p 0) s) ∧ (s.tables.slots[0]).override = some 0 ∧
      (s.tables.cat[0]).valid = true ∧ rd32 p 1 = (s.tables.cat[0]).tag) ∧
    ∃ (s : State) (p : List Byte), 6 ≤ p.length ∧ s.lm.line = .up ∧ s.slots[0].state.restoring = true :=
  ⟨⟨withSlot { slotIn .running with expTag := some 0x11223344 } live, [0, 0x11, 0x22, 0x33, 0x44, 0], by decide +kernel⟩,
    ⟨withLine .dip (withSlot { slotIn .running with expTag := some 0x11223344 } live), [0, 0x11, 0x22, 0x33, 0x45, 0],
      by decide +kernel⟩,
    ⟨withSlot { slotIn .running with stale := true } live, [0, 0x11, 0x22, 0x33, 0x45, 0], by decide +kernel⟩,
    ⟨withSlot (slotIn .dark) live, [0, 0x11, 0x22, 0x33, 0x44, 0], by decide +kernel⟩,
    withSlot { slotIn .starting with session := some restore } live, [0, 0, 0, 0, 0, 0], by decide +kernel⟩

/-- Two queued fills of entry 0, the second of lower rank, and line 0 filled with another block. -/
def queued : State :=
  { live with bc := { live.bc with
    lines := live.bc.lines.set 0 (.valid 3 0 false []), recency := [0]
    fills := [⟨0, 0, [], false, true, 8, none⟩, ⟨0, 0, [0], false, false, 0, none⟩, ⟨0, 0, [], true, false, 0, none⟩] } }

theorem witness_ReaderStarts :
    (∃ (s : State) (older younger : List FillEntry) (e : FillEntry) (l : LineId), s.reader = .idle ∧
      s.bc.fills = older ++ e :: younger ∧ (∀ f ∈ older, e.rank < f.rank) ∧ (∀ f ∈ younger, e.rank ≤ f.rank) ∧
      s.bc.lines[l] = .empty ∧ (∀ m : LineId, m < l → s.bc.lines[m] ≠ .empty) ∧ s.tables.cat[e.img].supply e.blk = .record 7 ∧
      pinWaiting s = []) ∧
    (∃ s : State, s.reader = .idle ∧ s.bc.fills = [] ∧ s.ma.long = some ⟨.trunk, .commit false⟩) ∧
    (∃ s : State, s.reader = .idle ∧ s.bc.fills = [] ∧ s.ma.long = some ⟨.trunk, .erase 3839 false true⟩) ∧
    (∃ s : State, s.reader = .idle ∧ s.bc.fills = [] ∧ s.ma.long = some ⟨.trunk, .program 119039 [] false false⟩) ∧
    ∃ s : State, s.reader = .idle ∧ s.bc.fills = [] ∧ s.ma.long = some ⟨.trunk, .selfCheck SelfCheck.start⟩ :=
  ⟨⟨queued, [⟨0, 0, [], false, true, 8, none⟩], [⟨0, 0, [], true, false, 0, none⟩], ⟨0, 0, [0], false, false, 0, none⟩, 1, by decide +kernel⟩,
    ⟨withLong (.commit false) live, rfl, rfl, rfl⟩, ⟨withLong (.erase 3839 false true) live, rfl, rfl, rfl⟩,
    ⟨withLong (.program 119039 [] false false) live, rfl, rfl, rfl⟩, withLong (.selfCheck SelfCheck.start) live, rfl, rfl, rfl⟩

/-- A fill of record 7 in line 0, with or without the discard mark. -/
def filling (d : Bool) (f : Memory) : State :=
  withReader (.fill ⟨0, 0, 0, 7, [], false, true, false, false⟩)
    { live with bc := { live.bc with lines := live.bc.lines.set 0 (.filling 0 0 d) }, flash := f }

/-- A flash that holds 130 bytes in record 7 and nothing else. -/
def stored (bs : List Byte) : Memory := Memory.writeRun [] (recordAddr 7) bs

theorem read_stored (bs : List Byte) (h : bs.length = 130) : disturb [] (Memory.readRun (stored bs) (recordAddr 7) 130) = bs := by
  rw [disturb_nil, ← h]; exact Memory.readRun_writeRun (by simp [Memory.wf]) _ _

/-- Data with a check that differs in one bit. -/
def recordWrong (d : List Byte) : List Byte := d ++ [BitVec.ofNat 8 ((crc16 d).toNat / 256) ^^^ 1, BitVec.ofNat 8 (crc16 d).toNat]

theorem record_good (d : List Byte) (h : d.length = 128) : recordGood (recordImage d) = true := by
  simp [recordGood, recordImage, ← h]

theorem record_wrong (d : List Byte) (h : d.length = 128) : recordGood (recordWrong d) = false := by
  have hx : ∀ b : Byte, ¬ b ^^^ 1 = b := by decide
  simp only [recordGood, recordWrong, be16, ← h, List.drop_left, List.take_left, List.cons.injEq, hx, false_and, decide_false]

theorem witness_FillReadEnds :
    (∃ (s : State) (f : Fill) (bs : List Byte), s.reader = .fill f ∧ bs = disturb [] (s.flash.readRun (recordAddr f.record) 130) ∧
      s.bc.lines[f.line] = .filling f.img f.blk false ∧ recordGood bs = true ∧ (s.catSt[f.img]).bad = false ∧ f.pin = false) ∧
    (∃ (s : State) (f : Fill) (bs : List Byte), s.reader = .fill f ∧ bs = disturb [] (s.flash.readRun (recordAddr f.record) 130) ∧
      s.bc.lines[f.line] = .filling f.img f.blk false ∧ recordGood bs = false ∧ f.reread = false ∧ f.orphan = false) ∧
    ∃ (s : State) (f : Fill), s.reader = .fill f ∧ s.bc.lines[f.line] = .filling f.img f.blk true := by
  have good : ∃ d : List Byte, d.length = 128 := ⟨List.replicate 128 0x5A, List.length_replicate⟩
  obtain ⟨d, hd⟩ := good
  exact ⟨⟨filling false (stored (recordImage d)), ⟨0, 0, 0, 7, [], false, true, false, false⟩, recordImage d, rfl,
      (read_stored _ (by simp [recordImage, be16, hd])).symm, rfl, record_good _ hd, rfl, rfl⟩,
    ⟨filling false (stored (recordWrong d)), ⟨0, 0, 0, 7, [], false, true, false, false⟩, recordWrong d, rfl,
      (read_stored _ (by simp [recordWrong, hd])).symm, rfl, record_wrong _ hd, rfl, rfl⟩,
    filling true [], ⟨0, 0, 0, 7, [], false, true, false, false⟩, rfl, rfl⟩

theorem witness_EraseEnds :
    ∃ s : State, Memory.wf s.flash ∧ s.reader = .erase 3839 ∧ s.ma.long = some ⟨.trunk, .erase 3839 true false⟩ :=
  ⟨withReader (.erase 3839) (withLong (.erase 3839 true false) live), by decide +kernel, rfl, rfl⟩

theorem witness_FlashWritesEnd :
    (∃ s : State, Memory.wf s.flash ∧ (List.replicate 128 (0 : Byte)).length = 128 ∧
      s.reader = .program 119039 (List.replicate 128 0) ∧
      s.ma.long = some ⟨.trunk, .program 119039 (List.replicate 128 0) true false⟩ ∧
      ∀ j, j < 130 → s.flash.read (recordAddr 119039 + j) = 0xFF) ∧
    (∃ s : State, Memory.wf s.flash ∧ s.reader = .program 0 (List.replicate 128 0) ∧
      s.ma.long = some ⟨.trunk, .program 0 (List.replicate 128 0) true false⟩ ∧
      ∃ j, j < 130 ∧ s.flash.read (recordAddr 0 + j) ≠ 0xFF) ∧
    ∃ s : State, Memory.wf s.flash ∧ s.reader = .commit ∧ s.ma.long = some ⟨.trunk, .commit true⟩ :=
  ⟨⟨withReader (.program 119039 (List.replicate 128 0)) (withLong (.program 119039 (List.replicate 128 0) true false) live),
      by decide +kernel, List.length_replicate, rfl, rfl, fun _ _ => rfl⟩,
    ⟨{ withReader (.program 0 (List.replicate 128 0)) (withLong (.program 0 (List.replicate 128 0) true false) live) with
        flash := [(1048576 + 129, 0)] }, by decide +kernel, rfl, rfl, 129, by decide +kernel⟩,
    withReader .commit (withLong (.commit true) live), by decide +kernel, rfl, rfl⟩

theorem witness_ScanIdentity :
    ∃ (s : State) (c : SelfCheck), s.reader = .scan true ∧ s.ma.long = some ⟨.trunk, .selfCheck c⟩ ∧ c.check = 1 ∧ c.lowest = none :=
  ⟨withReader (.scan true) (withLong (.selfCheck SelfCheck.start) live), SelfCheck.start, rfl, rfl, rfl, rfl⟩

/-- A reply of an origin that waits to be placed. -/
def kept (o : Origin) (busy : Bool) (s : State) : State :=
  { s with ma := { s.ma with replies := [⟨o, busy, false, ⟨0x55, 0xE0, .mgmtReply, 9, [0x20, 0, 0]⟩⟩] } }

theorem witness_RepliesPlaced :
    (∃ (s : State) (q : Request), s.ma.replies = [] ∧ freeBufs s ≠ [] ∧ s.ma.trunk.req = some q ∧ s.queues.trunk.length < 48) ∧
    (∃ (s : State) (q : Request), s.ma.replies = [] ∧ freeBufs s ≠ [] ∧ s.ma.service.req = some q ∧ s.queues.service.length < 4) ∧
    (∃ (s : State) (r : BuiltReply) (rs : List BuiltReply), s.ma.replies = r :: rs ∧ freeBufs s = []) ∧
    (∃ (s : State) (r : BuiltReply) (rs : List BuiltReply), s.ma.replies = r :: rs ∧ freeBufs s ≠ [] ∧ r.origin = .trunk ∧ s.queues.trunk.length < 48 ∧ r.busy = false) ∧
    ∃ (s : State) (r : BuiltReply) (rs : List BuiltReply), s.ma.replies = r :: rs ∧ freeBufs s ≠ [] ∧ r.origin = .service ∧ s.queues.service.length < 4 ∧ r.busy = true :=
  ⟨⟨{ crowded 1 (asking [0x20, 0, 1] live) with queues := { live.queues with trunk := List.replicate 47 ⟨1, false⟩ } },
      ⟨[0x20, 0, 1], 0x55, 9⟩, by decide +kernel⟩,
    ⟨{ live with
        ma := { live.ma with service := ⟨.waiting, some ⟨[0x50], 0x55, 9⟩, none⟩ }
        queues := { live.queues with service := List.replicate 3 ⟨1, false⟩ } }, ⟨[0x50], 0x55, 9⟩, by decide +kernel⟩,
    ⟨crowded 0 (kept .trunk false live), _, _, rfl, by decide +kernel⟩,
    ⟨crowded 1 (kept .trunk false live), _, _, rfl, by decide +kernel⟩,
    crowded 1 (kept .service true live), _, _, rfl, by decide +kernel⟩

theorem witness_RangeFrameSent :
    (∃ (s : State) (q : Request), s.ma.long = some ⟨.trunk, .readRange 3 12 15⟩ ∧ s.ma.trunk.req = some q ∧ s.ma.replies = [] ∧
      s.queues.trunk.length < 48 ∧ freeBufs s ≠ [] ∧ s.ma.restartMark = false ∧ 15 < 12 + perFrame 3) ∧
    (∃ (s : State) (q : Request), s.ma.long = some ⟨.trunk, .readRange 3 11 15⟩ ∧ s.ma.trunk.req = some q ∧ s.ma.replies = [] ∧
      s.queues.trunk.length < 48 ∧ freeBufs s ≠ [] ∧ s.ma.restartMark = false ∧ 11 + perFrame 3 ≤ 15) ∧
    ∃ (s : State) (q : Request), s.ma.long = some ⟨.trunk, .readRange 3 12 15⟩ ∧ s.ma.trunk.req = some q ∧ s.ma.replies = [] ∧
      s.queues.trunk.length < 48 ∧ freeBufs s ≠ [] ∧ s.ma.restartMark = true :=
  ⟨⟨withLong (.readRange 3 12 15) live, ⟨[0x30], 0x55, 9⟩, by decide +kernel⟩,
    ⟨withLong (.readRange 3 11 15) live, ⟨[0x30], 0x55, 9⟩, by decide +kernel⟩,
    withLong (.readRange 3 12 15) { live with ma := { live.ma with restartMark := true } }, ⟨[0x30], 0x55, 9⟩, by decide +kernel⟩

/-- A running PIN of blocks 0 and 5 of entry 0 that wait, with `n` fills queued. -/
def pinning (n : Nat) : State :=
  withLong (.pin 0 [0, 5]) { live with bc := { live.bc with reservation := 2, fills := List.replicate n ⟨3, 1, [], false, true, 8, none⟩ } }

theorem witness_WaitingPinPlaced :
    (∃ s : State, s.ma.long = some ⟨.trunk, .pin 0 [0, 5]⟩ ∧ s.bc.reservation ≠ 0 ∧ 16 ≤ s.bc.fills.length) ∧
      ∃ s : State, s.ma.long = some ⟨.trunk, .pin 0 [0, 5]⟩ ∧ s.bc.reservation ≠ 0 ∧ s.bc.fills.length = 15 ∧ [5] ≠ ([] : List Nat) ∧
        needsRoom 0 0 s = true :=
  ⟨⟨pinning 16, by decide +kernel⟩, pinning 15, by decide +kernel⟩

theorem witness_EntriesRead :
    (∃ (s : State) (o : Origin) (t i : Byte), Asked .readEntry o [t, i] s) ∧
      ∃ (s : State) (o : Origin) (t i : Byte), Asked .readLink o [t, i] s :=
  ⟨⟨asking [0x01, 13, 15] live, .trunk, 13, 15, asked_asking rfl (by decide) (by decide) rfl (by decide)⟩,
    asking [0x02, 4, 47] live, .trunk, 4, 47, asked_asking rfl (by decide) (by decide) rfl (by decide)⟩

/-- The bytes of a rule that forwards DATA of type 9 downstream. -/
def rule : List Byte := [1, 0, 0, 1, 0xFF, 0, 0xFF, 9, 0xFF, 0, 0]

theorem witness_Written :
    (∃ (s : State) (e : List Byte), Asked .writeEntry .trunk (8 :: 0 :: e) s) ∧
    (∃ (s : State) (e : List Byte), Asked .writeEntry .trunk (4 :: 47 :: e) s ∧ commitRuns s = true) ∧
    (∃ (s : State) (e : List Byte), Asked .writeEntry .trunk (4 :: 48 :: e) s ∧ commitRuns s = false ∧ inTable 4 48 = false) ∧
    (∃ (s : State) (r : FwdRule), Asked .writeEntry .trunk (4 :: 47 :: rule) s ∧ commitRuns s = false ∧ FwdRule.decode rule = some r) ∧
    (∃ (s : State) (e : List Byte) (r : CapRule), Asked .writeEntry .trunk (5 :: 31 :: e) s ∧ commitRuns s = false ∧
      CapRule.decode e = some r) ∧
    (∃ (s : State) (e : List Byte), Asked .writeEntry .trunk (4 :: 0 :: e) s ∧ commitRuns s = false ∧ FwdRule.decode e = none) ∧
    (∃ s : State, Asked .writeCond .trunk (4 :: 47 :: rule) s ∧ commitRuns s = false ∧ inTable 4 47 = true ∧
      (s.ma.origin .trunk).link ≠ some ⟨4, 47⟩) ∧
    ∃ s : State, Asked .writeCond .trunk (4 :: 47 :: rule) s ∧ commitRuns s = false ∧ inTable 4 47 = true ∧
      (s.ma.origin .trunk).link = some ⟨4, 47⟩ :=
  ⟨⟨asking (0x03 :: 8 :: 0 :: List.replicate 20 0) live, _, asked_asking rfl (by decide) (by decide) rfl (by decide)⟩,
    ⟨asking (0x03 :: 4 :: 47 :: rule) { live with ma := { live.ma with long := some ⟨.service, .commit true⟩ } }, _,
      asked_asking rfl (by decide) (by decide) rfl (by decide), rfl⟩,
    ⟨asking (0x03 :: 4 :: 48 :: rule) live, _, asked_asking rfl (by decide) (by decide) rfl (by decide), rfl, by decide⟩,
    ⟨asking (0x03 :: 4 :: 47 :: rule) live, _, asked_asking rfl (by decide) (by decide) rfl (by decide), rfl, rfl⟩,
    ⟨asking (0x03 :: 5 :: 31 :: [1, 0, 9, 0xFF, 1, 0, 1, 0]) live, [1, 0, 9, 0xFF, 1, 0, 1, 0], _,
      asked_asking rfl (by decide) (by decide) rfl (by decide), rfl, rfl⟩,
    ⟨asking (0x03 :: 4 :: 0 :: [1, 0, 1, 1, 1, 0, 0, 0, 0, 0, 0]) live, _, asked_asking rfl (by decide) (by decide) rfl (by decide), rfl,
      by decide +kernel⟩,
    ⟨asking (0x04 :: 4 :: 47 :: rule) live, asked_asking rfl (by decide) (by decide) rfl (by decide), rfl, by decide, by decide⟩,
    asking (0x04 :: 4 :: 47 :: rule) { live with ma := { live.ma with trunk := ⟨.idle, none, some ⟨4, 47⟩⟩ } },
    asked_asking rfl (by decide) (by decide) rfl (by decide), rfl, by decide, rfl⟩

theorem witness_WriteNoted :
    (∃ s : State, s.ma.long = some ⟨.trunk, .readRange 5 0 31⟩) ∧ ∃ s : State, ∀ o a b, s.ma.long ≠ some ⟨o, .readRange 4 a b⟩ :=
  ⟨⟨withLong (.readRange 5 0 31) live, rfl⟩, withLong (.readRange 5 0 31) live, by intro o a b h; simp [withLong] at h⟩

theorem witness_SlotWritten :
    (∃ (s : State) (k : SlotId) (e : SlotEntry), (∃ j : SlotId, j ≠ k ∧ s.tables.slots[j].enabled = true ∧
      s.tables.slots[j].addr = e.addr) ∧ e.enabled = true) ∧
    (∃ (s : State) (k : SlotId) (e : SlotEntry), e.enabled = false ∧ s.slots[k].state.restoring = true) ∧
    (∃ (s : State) (k : SlotId) (e : SlotEntry), s.tables.slots[k].enabled = false ∧ s.slots[k].state = .vacant ∧ e.enabled = true ∧
      (∀ j : SlotId, j ≠ k → s.tables.slots[j].enabled = true → s.tables.slots[j].addr ≠ e.addr) ∧
      s.seg.port ≠ .window ∧ s.seg.port ≠ .receiving true) ∧
    ∃ (s : State) (k : SlotId) (e : SlotEntry), s.tables.slots[k].enabled = true ∧ s.slots[k].state.restoring = false ∧
      e.enabled = false ∧ s.seg.port ≠ .window ∧ s.seg.port ≠ .receiving true :=
  ⟨⟨live, 31, { SlotEntry.factory 0 with enabled := true }, ⟨0, by decide +kernel⟩, rfl⟩,
    ⟨withSlot { slotIn .loading with session := some restore } live, 0, SlotEntry.factory 0, by decide +kernel⟩,
    ⟨live, 31, { SlotEntry.factory 31 with enabled := true }, by decide +kernel⟩,
    live, 0, SlotEntry.factory 0, by decide +kernel⟩

theorem witness_LongAccepted :
    (∃ (s : State) (t a b : Byte), Asked .readRange .trunk [t, a, b] s) ∧ (∃ s : State, Asked .commit .trunk [] s) ∧
      ∃ s : State, Asked .selfCheck .trunk [] s :=
  ⟨⟨asking [0x05, 3, 0, 15] live, 3, 0, 15, asked_asking rfl (by decide) (fun _ => rfl) rfl (by decide)⟩,
    ⟨asking [0x60] live, asked_asking rfl (by decide) (fun _ => rfl) rfl (by decide)⟩,
    asking [0x61] live, asked_asking rfl (by decide) (fun _ => rfl) rfl (by decide)⟩

/-- `live` with a field of 2 bytes in class 0. -/
def fielded : State :=
  { live with tables := { live.tables with
    classes := live.tables.classes.set 0 { ClassEntry.factory with layout := ClassEntry.factory.layout.set 15 2 } } }

theorem witness_ContextSet :
    (∃ s : State, Asked .setContext .trunk (byte 31 :: byte 15 :: [1, 2]) s ∧ s.slots[31].state = .vacant) ∧
      (∃ s : State, Asked .setContext .trunk (byte 0 :: byte 15 :: [1]) s ∧ s.slots[0].state ≠ .vacant ∧ ([1] : List Byte).length ≠ fieldLen 0 15 s) ∧
      (∃ s : State, Asked .setContext .trunk (byte 0 :: byte 15 :: [1, 2]) s ∧ s.slots[0].state ≠ .vacant ∧ fieldLen 0 15 s ≠ 0 ∧
        ([1, 2] : List Byte).length = fieldLen 0 15 s) ∧
      ∃ s : State, Asked .clearContext .trunk [byte 31] s :=
  ⟨⟨asking [0x10, 31, 15, 1, 2] live, asked_asking rfl (by decide) (by decide) rfl (by decide), by decide +kernel⟩,
    ⟨asking [0x10, 0, 15, 1] fielded, asked_asking rfl (by decide) (by decide) rfl (by decide), by decide +kernel⟩,
    ⟨asking [0x10, 0, 15, 1, 2] fielded, asked_asking rfl (by decide) (by decide) rfl (by decide), by decide +kernel⟩,
    asking [0x11, 31] live, asked_asking rfl (by decide) (by decide) rfl (by decide)⟩

/-- A capture rule that stores two bytes from offset 1 into field 15. -/
def taking : CapRule := { CapRule.factory with enable := true, typeValue := 9, typeMask := 0xFF, offset := 1, field := 15, classMask := 1 }

theorem witness_CaptureStored :
    (∃ (s : State) (f : Frame) (r : CapRule) (n : Nat) (b : Byte) (bs : List Byte), s.slots[0].cls = some 0 ∧
      n = (s.tables.classes[0]).layout[r.field] ∧ f.payload = b :: bs ∧ r.enable = true ∧ r.source = .dataDown ∧
      b &&& r.typeMask = r.typeValue &&& r.typeMask ∧ r.classMask.getLsbD 0 = true ∧ n ≠ 0 ∧ r.offset + n ≤ f.payload.length) ∧
    ∃ (s : State) (f : Frame) (r : CapRule) (n : Nat) (b : Byte) (bs : List Byte), s.slots[0].cls = some 0 ∧
      n = (s.tables.classes[0]).layout[r.field] ∧ f.payload = b :: bs ∧ f.payload.length < r.offset + n :=
  ⟨⟨fielded, ⟨1, 0x40, .data, 3, [9, 5, 6]⟩, taking, 2, 9, [5, 6], by decide +kernel⟩,
    fielded, ⟨1, 0x40, .data, 3, [9, 5]⟩, taking, 2, 9, [5], by decide +kernel⟩

theorem witness_PermitSet :
    (∃ s : State, Asked .permit .trunk [3, 1] s) ∧ (∃ s : State, Asked .permit .trunk [4, 1] s) ∧ ∃ s : State, Asked .permit .trunk [0, 2] s :=
  ⟨⟨asking [0x20, 3, 1] live, asked_asking rfl (by decide) (by decide) rfl (by decide)⟩,
    ⟨asking [0x20, 4, 1] live, asked_asking rfl (by decide) (by decide) rfl (by decide)⟩,
    asking [0x20, 0, 2] live, asked_asking rfl (by decide) (by decide) rfl (by decide)⟩

theorem witness_ReloadAndClear :
    (∃ s : State, Asked .reload .trunk [byte 0] s ∧ s.slots[0].state = .absent) ∧
      (∃ s : State, Asked .reload .trunk [byte 31] s ∧ s.slots[31].state = .vacant) ∧
      (∃ s : State, Asked .clear .trunk [byte 0] s ∧ s.slots[0].state = .failed) ∧
      ∃ s : State, Asked .clear .trunk [byte 0] s ∧ s.slots[0].state = .absent :=
  ⟨⟨asking [0x21, 0] live, asked_asking rfl (by decide) (by decide) rfl (by decide), by decide +kernel⟩,
    ⟨asking [0x21, 31] live, asked_asking rfl (by decide) (by decide) rfl (by decide), by decide +kernel⟩,
    ⟨asking [0x22, 0] (withSlot (slotIn .failed) live), asked_asking rfl (by decide) (by decide) rfl (by decide), by decide +kernel⟩,
    asking [0x22, 0] live, asked_asking rfl (by decide) (by decide) rfl (by decide), by decide +kernel⟩

theorem witness_RetriesCleared : ∃ s : State, Asked .clearRetries .trunk [byte 31] s :=
  ⟨asking [0x23, 31] live, asked_asking rfl (by decide) (by decide) rfl (by decide)⟩

/-- `live` with block 0 of entry 0 in line 95, and another block pinned in lines 0 to `n` - 1. -/
def loaded (n : Nat) : State :=
  { live with bc := { live.bc with
    lines := ⟨⟨(List.range 96).map (fun l => if l = 95 then Line.valid 0 0 false [] else if l < n then .valid 3 l true [] else .empty)⟩,
      by simp⟩ } }

theorem witness_PinRequested :
    (∃ s : State, Asked .pin .trunk [1, 0, 0, 0, 0] s ∧ pinRange [1, 0, 0, 0, 0] = some (1, 0, 0) ∧ (s.tables.cat[1]).valid = false) ∧
    (∃ s : State, Asked .pin .trunk [0, 0, 0, 0, 1] s ∧ pinRange [0, 0, 0, 0, 1] = some (0, 0, 1) ∧ (s.tables.cat[0]).valid = true ∧
      (s.catSt[0]).bad = false ∧ 64 < pinnedCount s + s.bc.reservation + (pinCounted 0 0 1 s).length) ∧
    ∃ s : State, Asked .pin .trunk [0, 0, 0, 0, 1] s ∧ pinRange [0, 0, 0, 0, 1] = some (0, 0, 1) ∧ (s.tables.cat[0]).valid = true ∧
      (s.catSt[0]).bad = false ∧ pinCounted 0 0 1 s = [0] ∧ pinnedCount s + s.bc.reservation < 64 ∧ validLine 0 0 s = some 95 ∧
      s.bc.lines[95] = .valid 0 0 false [] ∧ (s.ma.origin .trunk).req.isSome = true :=
  ⟨⟨asking [0x30, 1, 0, 0, 0, 0] live, asked_asking rfl (by decide) (fun _ => rfl) rfl (by decide), by decide +kernel⟩,
    ⟨asking [0x30, 0, 0, 0, 0, 1] (loaded 64), asked_asking rfl (by decide) (fun _ => rfl) rfl (by decide), by decide +kernel⟩,
    asking [0x30, 0, 0, 0, 0, 1] (loaded 63), asked_asking rfl (by decide) (fun _ => rfl) rfl (by decide), by decide +kernel⟩

theorem witness_UnpinAndPrefetch :
    (∃ s : State, Asked .unpin .trunk [3, 0, 0, 15, 255] s ∧ pinRange [3, 0, 0, 15, 255] = some (3, 0, 4095) ∧ pinImage s ≠ some 3) ∧
    (∃ s : State, Asked .unpin .trunk [3, 0, 0, 16, 0] s ∧ pinRange [3, 0, 0, 16, 0] = none) ∧
    (∃ s : State, Asked .prefetch .trunk [1, 0, 0, 0, 0] s ∧ rd8 [1, 0, 0, 0, 0] 0 = 1 ∧ (s.tables.cat[1]).valid = false) ∧
    ∃ s : State, Asked .prefetch .trunk [0, 0, 0, 0, 0] s ∧ rd16 [0, 0, 0, 0, 0] 1 = 0 ∧ rd16 [0, 0, 0, 0, 0] 3 = 0 ∧
      (s.tables.cat[0]).valid = true ∧ (s.catSt[0]).bad = false ∧ isWindowed 0 0 s = true ∧ needsRoom 0 0 s = true ∧
      s.bc.fills.length < 16 :=
  ⟨⟨asking [0x31, 3, 0, 0, 15, 255] (loaded 63), asked_asking rfl (by decide) (by decide) rfl (by decide), by decide +kernel⟩,
    ⟨asking [0x31, 3, 0, 0, 16, 0] live, asked_asking rfl (by decide) (by decide) rfl (by decide), by decide +kernel⟩,
    ⟨asking [0x32, 1, 0, 0, 0, 0] live, asked_asking rfl (by decide) (by decide) rfl (by decide), by decide +kernel⟩,
    asking [0x32, 0, 0, 0, 0, 0] { live with bc := { live.bc with fills := List.replicate 15 ⟨3, 1, [], false, true, 8, none⟩ } },
    asked_asking rfl (by decide) (by decide) rfl (by decide), by decide +kernel⟩

theorem witness_ImageInvalidated :
    (∃ s : State, Asked .invalidate .trunk [16] s) ∧
    (∃ s : State, Asked .invalidate .trunk [15] s ∧ 0 < (s.catSt[15]).users) ∧
    ∃ s : State, Asked .invalidate .trunk [0] s ∧ (s.catSt[0]).users = 0 ∧ s.reader = .idle ∧ s.ma.long = none ∧
      ∀ e ∈ s.bc.fills, e.img ≠ 0 :=
  ⟨⟨asking [0x33, 16] live, asked_asking rfl (by decide) (by decide) rfl (by decide)⟩,
    ⟨asking [0x33, 15] { live with catSt := live.catSt.set 15 ⟨false, 1⟩ }, asked_asking rfl (by decide) (by decide) rfl (by decide),
      by decide +kernel⟩,
    asking [0x33, 0] (loaded 1), asked_asking rfl (by decide) (by decide) rfl (by decide), by decide +kernel⟩

/-- The sectors that windows of valid entries cover, as the statement on flash requests names them. -/
def usedIn (s : State) (k : Nat) : Prop :=
  ∃ (i : ImageId) (w : Fin 4), s.tables.cat[i].valid = true ∧ (s.tables.cat[i].windows[w]).enable = true ∧
    ∃ r, r / 31 = k ∧ (s.tables.cat[i].windows[w]).base ≤ r ∧
      r ≤ (s.tables.cat[i].windows[w]).base + ((s.tables.cat[i].windows[w]).last - (s.tables.cat[i].windows[w]).first)

/-- With no entry valid, no sector is in use. -/
theorem unused_reset (k : Nat) : ¬ usedIn State.reset k := by
  rintro ⟨i, w, h, _⟩
  simp [State.reset, Tables.factory, CatEntry.factory] at h

theorem witness_FlashRequested :
    (∃ s : State, Asked .eraseSector .trunk [0x0F, 0x00] s ∧ 3839 < rd16 [0x0F, 0x00] 0) ∧
    (∃ s : State, Asked .eraseSector .trunk [0, 0] s ∧ usedIn s (rd16 [0, 0] 0)) ∧
    (∃ s : State, Asked .eraseSector .trunk [0x0E, 0xFF] s ∧ rd16 [0x0E, 0xFF] 0 ≤ 3839 ∧ ¬ usedIn s (rd16 [0x0E, 0xFF] 0)) ∧
    (∃ (s : State) (a : List Byte), Asked .writeRecord .trunk a s ∧ 119039 < (rd32 a 0).toNat) ∧
    (∃ (s : State) (a : List Byte), Asked .writeRecord .trunk a s ∧ (rd32 a 0).toNat ≤ 119039 ∧ usedIn s ((rd32 a 0).toNat / 31)) ∧
    ∃ (s : State) (a : List Byte), Asked .writeRecord .trunk a s ∧ (rd32 a 0).toNat = 119039 ∧ ¬ usedIn s ((rd32 a 0).toNat / 31) := by
  obtain ⟨z, hz⟩ : ∃ z : List Byte, z.length = 128 := ⟨List.replicate 128 0, List.length_replicate⟩
  have number : ∀ a b c d : Byte, rd32 (a :: b :: c :: d :: z) 0 = rd32 [a, b, c, d] 0 := fun _ _ _ _ => rfl
  have used : usedIn live 0 := ⟨0, 0, by decide +kernel, by decide +kernel, 7, by decide +kernel⟩
  refine ⟨⟨asking [0x40, 0x0F, 0x00] live, asked_asking rfl (by decide) (fun _ => rfl) rfl (by decide), by decide⟩,
    ⟨asking [0x40, 0, 0] live, asked_asking rfl (by decide) (fun _ => rfl) rfl (by decide), used⟩,
    ⟨asking [0x40, 0x0E, 0xFF] State.reset, asked_asking rfl (by decide) (fun _ => rfl) rfl (by decide), by decide, unused_reset _⟩,
    ⟨asking (0x41 :: 0 :: 1 :: 0xD1 :: 0 :: z) live, 0 :: 1 :: 0xD1 :: 0 :: z,
      asked_asking rfl (by simp [formOk, hz]) (fun _ => rfl) rfl (by decide), ?_⟩,
    ⟨asking (0x41 :: 0 :: 0 :: 0 :: 30 :: z) live, 0 :: 0 :: 0 :: 30 :: z,
      asked_asking rfl (by simp [formOk, hz]) (fun _ => rfl) rfl (by decide), ?_, ?_⟩,
    asking (0x41 :: 0 :: 1 :: 0xD0 :: 0xFF :: z) State.reset, 0 :: 1 :: 0xD0 :: 0xFF :: z,
    asked_asking rfl (by simp [formOk, hz]) (fun _ => rfl) rfl (by decide), ?_, unused_reset _⟩
  · rw [number]; decide +kernel
  · rw [number]; decide +kernel
  · rw [number]; exact used
  · rw [number]; decide +kernel

theorem witness_ReportTaken :
    (∃ (u : Attention) (before after : List AttnEntry) (e : AttnEntry), u.list = before ++ e :: after ∧ e.cause = .lost ∧
      e.subject = .slot 0 ∧ e.count = 255 ∧ ∀ f ∈ before ++ after, ¬ (f.cause = .lost ∧ f.subject = .slot 0)) ∧
    (∃ u : Attention, (∀ e ∈ u.list, ¬ (e.cause = .lost ∧ e.subject = .slot 0)) ∧ u.list.length < 32) ∧
    ∃ u : Attention, (∀ e ∈ u.list, ¬ (e.cause = .lost ∧ e.subject = .slot 0)) ∧ 32 ≤ u.list.length :=
  ⟨⟨⟨[⟨.stale, .slot 0, none, 1⟩, ⟨.lost, .slot 0, none, 255⟩], false, true⟩, [⟨.stale, .slot 0, none, 1⟩], [], ⟨.lost, .slot 0, none, 255⟩,
      by decide⟩,
    ⟨⟨List.replicate 31 ⟨.lost, .slot 1, none, 1⟩, false, true⟩, by decide⟩,
    ⟨List.replicate 32 ⟨.lost, .slot 1, none, 1⟩, false, true⟩, by decide⟩

theorem witness_AttentionServed :
    (∃ s : State, Asked .readAttn .trunk [] s ∧ s.au.list = []) ∧
      (∃ (s : State) (e : AttnEntry) (es : List AttnEntry), Asked .readAttn .trunk [] s ∧ s.au.list = e :: es) ∧ ∃ s : State, Asked .clearAttn .trunk [] s :=
  ⟨⟨asking [0x50] live, asked_asking rfl (by decide) (by decide) rfl (by decide), rfl⟩,
    ⟨asking [0x50] { live with au := ⟨[⟨.configBad, .none, none, 1⟩], true, true⟩ }, _, _,
      asked_asking rfl (by decide) (by decide) rfl (by decide), rfl⟩,
    asking [0x51] live, asked_asking rfl (by decide) (by decide) rfl (by decide)⟩

theorem witness_EngineResetDone :
    (∃ s : State, Asked .engineReset .trunk [] s ∧ commitRuns s = true) ∧ ∃ s : State, Asked .engineReset .trunk [] s ∧ commitRuns s = false :=
  ⟨⟨asking [0x70] { live with ma := { live.ma with long := some ⟨.service, .commit true⟩ } },
      asked_asking rfl (by decide) (by decide) rfl (by decide), rfl⟩,
    asking [0x70] live, asked_asking rfl (by decide) (by decide) rfl (by decide), rfl⟩

theorem witness_FullResetServed :
    (∃ s : State, Asked .fullReset .trunk [] s ∧ commitRuns s = true) ∧ (∃ s : State, Asked .fullReset .trunk [] s ∧ commitRuns s = false) ∧
      ∃ s : State, s.ma.stopped = true :=
  ⟨⟨asking [0x71] { live with ma := { live.ma with long := some ⟨.service, .commit false⟩ } },
      asked_asking rfl (by decide) (by decide) rfl (by decide), rfl⟩,
    ⟨asking [0x71] live, asked_asking rfl (by decide) (by decide) rfl (by decide), rfl⟩,
    { live with ma := { live.ma with stopped := true } }, rfl⟩

theorem witness_BadRequestAnswered :
    (∃ (s : State) (q : Request), nextRequest s = some (.trunk, q) ∧ q.payload = []) ∧
      (∃ (s : State) (q : Request), nextRequest s = some (.trunk, q) ∧ ∃ b a, q.payload = b :: a ∧ ReqCode.ofByte b = none) ∧
      ∃ (s : State) (q : Request), nextRequest s = some (.trunk, q) ∧ q.payload = [0x20, 3] :=
  ⟨⟨asking [] live, _, rfl, rfl⟩, ⟨asking [0x06, 1] live, _, rfl, 0x06, [1], rfl, rfl⟩, asking [0x20, 3] live, _, rfl, rfl⟩

/-! ## Hypotheses met, clause by clause: choices, resets and laws -/

/-- The port FREE with the given debt and last turn, cursors at 1 and 31. -/
def choosing (debt : Nat) (last : TurnKind) (s : State) : State :=
  { s with seg := { s.seg with port := .free, silent := false, debt := debt, lastTurn := last, urgentCursor := 1, ringCursor := 31 } }

theorem witness_NextSent_turns :
    (∃ s : State, s.seg.port = .free ∧ s.tables.settings.debtLimit ≤ s.seg.debt ∧ s.seg.lastTurn = .ring ∧
      s.slots[0].state.restoring = true ∧
      ∀ j : SlotId, s.slots[j].state.restoring = true → (0 - s.seg.urgentCursor).val ≤ (j - s.seg.urgentCursor).val) ∧
    (∃ s : State, s.seg.port = .free ∧ (∀ j : SlotId, inReady s j = false) ∧ s.queues.out = [] ∧ s.seg.lastTurn = .urgent ∧
      s.slots[0].state ≠ .vacant ∧
      ∀ j : SlotId, s.slots[j].state ≠ .vacant → (0 - s.seg.ringCursor).val ≤ (j - s.seg.ringCursor).val) ∧
    (∃ s : State, s.seg.port = .free ∧ s.seg.lastTurn = .ring ∧ (∀ j : SlotId, s.slots[j].state.restoring = false) ∧
      s.slots[0].state ≠ .vacant) ∧
    ∃ s : State, s.seg.port = .free ∧ (∀ k : SlotId, inReady s k = false) ∧ s.queues.out = [] ∧ ∀ k : SlotId, s.slots[k].state = .vacant :=
  ⟨⟨choosing 2 .ring (withSlot { slotIn .loading with session := some restore } live), by decide +kernel⟩,
    ⟨choosing 1 .urgent live, by decide +kernel⟩, ⟨choosing 1 .ring live, by decide +kernel⟩,
    { live with slots := State.reset.slots }, by decide +kernel⟩

theorem witness_FullResetOnPins_reads :
    (∃ (s : State) (f : Fill), s.reader = .fill f) ∧ ∃ s : State, s.reader = .scan true :=
  ⟨⟨withReader (.fill ⟨0, 0, 0, 7, [], false, true, false, false⟩) live, _, rfl⟩, withReader (.scan true) live, rfl⟩

/-- Tables that writes have changed: slot 0 enabled, catalogue entry 0 valid with one window. -/
theorem witness_StoreReadsBack_written : Writable live.tables ∧ live.tables ≠ Tables.factory := by
  refine ⟨⟨⟨Settings.factory.encode, rfl, by decide +kernel⟩, ?_, ?_, ?_, ?_, ?_, by decide +kernel⟩, by decide +kernel⟩
  · intro i; exact ⟨ClassEntry.factory.encode, by decide +kernel, by revert i; decide +kernel⟩
  · intro i; refine ⟨(live.tables.slots[i]).encode, ?_, ?_⟩ <;> (revert i; decide +kernel)
  · intro i; refine ⟨(live.tables.cat[i]).encode, ?_, ?_⟩ <;> (revert i; decide +kernel)
  · intro i; exact ⟨FwdRule.factory.encode, by decide +kernel, by revert i; decide +kernel⟩
  · intro i; exact ⟨CapRule.factory.encode, by decide +kernel, by revert i; decide +kernel⟩

/-- Slot 0 restores with one frame held in buffer 0, another frame in buffer 1 at the head of the outbound queue. -/
def carrying : State :=
  { withSlot { slotIn .loading with session := some restore } live with
    catSt := live.catSt.set 0 ⟨false, 1⟩
    pool := (live.pool.set 0 ⟨some ⟨1, 0x40, .data, 3, [9]⟩, 1⟩).set 1 ⟨some ⟨2, 0x40, .data, 3, [9]⟩, 1⟩
    queues := { live.queues with out := [1], hold := live.queues.hold.set 0 [0] } }

theorem carrying_pool : PoolLaw carrying := by unfold PoolLaw; decide +kernel

theorem witness_BoundedAlways_pool : ∃ s t : State, PoolLaw s ∧ s.queues.out ≠ [] ∧ step s = .next t :=
  ⟨{ carrying with pending := [.lineFalls] }, _, carrying_pool, by decide, rfl⟩

theorem witness_LawsAtReset_steps :
    (∃ s t : State, RestoreLaw s ∧ s.slots[0].session = some restore ∧ s.queues.hold[0] ≠ [] ∧ step s = .next t) ∧
    (∃ s t : State, PinLaw s ∧ s.bc.reservation = 64 ∧ step s = .next t) ∧
    ∃ s t : State, RecordLaw s ∧ (s.ctx[0])[15] = some [0, 7] ∧ step s = .next t := by
  refine ⟨⟨{ carrying with pending := [.lineFalls] }, _, ?_, by decide +kernel, by decide +kernel, rfl⟩,
    ⟨{ withLong (.pin 0 (List.range 64)) live with bc := { live.bc with reservation := 64 }, pending := [.lineFalls] }, _, ?_, rfl, rfl⟩,
    { fielded with ctx := fielded.ctx.set 0 ((fielded.ctx[0]).set 15 (some [0, 7])), pending := [.lineFalls] }, _, ?_, by decide +kernel, rfl⟩
  · refine ⟨by decide +kernel, ?_, by decide +kernel, by decide +kernel⟩
    intro k x hx
    have hk : ∀ k : SlotId, ∀ x ∈ ({ carrying with pending := [.lineFalls] } : State).slots[k].session, x = restore := by decide +kernel
    rw [hk k x hx]; decide +kernel
  · unfold PinLaw; refine ⟨by decide +kernel, by decide +kernel, by decide +kernel, by decide +kernel, ?_, ?_, ?_⟩
    · intro k h; cases h
    · intro r d h; cases h
    · intro h; cases h
  · refine ⟨?_, by decide +kernel, by decide +kernel⟩
    intro k f v h
    have : ∀ (k : SlotId) (f : FieldId), ∀ v ∈ (({ fielded with ctx := fielded.ctx.set 0 ((fielded.ctx[0]).set 15 (some [0, 7])), pending := [.lineFalls] } : State).ctx[k])[f],
        v.length = fieldLen k f fielded ∧ ∃ b ∈ v, b ≠ 0 := by decide +kernel
    exact this k f v h

theorem witness_GapConfirmed_refusals :
    ∃ (s : State) (gone : SlotId → Bool) (out fl : List BufId), s.lm.line = .dip ∧
      (∀ k : SlotId, gone k = (s.slots[k].session.isSome && decide (s.slots[k].state ≠ .vacant ∧ s.slots[k].state ≠ .failed))) ∧
      gone 0 = true ∧ s.reader = .fill ⟨0, 0, 0, 7, [0], false, false, false, false⟩ ∧
      out = (if s.seg.port = .sending .outbound then s.queues.out.drop 1 else s.queues.out) ∧
      fl = s.queues.hold.toList.flatten ++ out ∧ fl = [0, 1] ∧ PoolLaw s ∧ s.queues.trunk.length + fl.length ≤ 48 ∧
      fl.length ≤ (freeBufs s).length :=
  ⟨withReader (.fill ⟨0, 0, 0, 7, [0], false, false, false, false⟩) (withLine .dip carrying), fun k => decide (k = 0), [1], [0, 1],
    by decide +kernel, by decide +kernel, rfl, rfl, by decide +kernel, by decide +kernel, rfl, carrying_pool, by decide +kernel,
    by decide +kernel⟩

theorem witness_FailureByPolicy_rest :
    ∃ (s : State) (e : ClassEntry), s.slots[0].cls = some 0 ∧ s.tables.classes[0] = e ∧ s.queues.hold[0] = [] ∧
      s.slots[0].session.isSome = true :=
  ⟨failing .retry 3 1, { ClassEntry.factory with retryTime := 3 }, by decide +kernel⟩

theorem witness_EraseEnds_aborted :
    ∃ s : State, Memory.wf s.flash ∧ s.reader = .erase 0 ∧ s.ma.long = some ⟨.trunk, .erase 0 true true⟩ :=
  ⟨withReader (.erase 0) (withLong (.erase 0 true true) live), by decide +kernel, rfl, rfl⟩

/-! ## Hypotheses met, clause by clause: flash reader -/

theorem witness_ReaderStarts_victims :
    (∃ (s : State) (e : FillEntry), s.reader = .idle ∧ s.bc.fills = [] ++ e :: [] ∧ e.avoid = some 1 ∧ s.bc.lines[1] = .empty ∧
      s.bc.lines[2] = .empty ∧ (∀ m : LineId, m < 2 → s.bc.lines[m] ≠ .empty ∨ e.avoid = some m) ∧
      s.tables.cat[e.img].supply e.blk = .record 7 ∧ pinWaiting s = []) ∧
    ∃ (s : State) (e : FillEntry) (before : List LineId), s.reader = .idle ∧ s.bc.fills = [] ++ e :: [] ∧ e.avoid ≠ some 95 ∧
      (∃ i b d, s.bc.lines[95] = .valid i b false d) ∧ (∀ m : LineId, s.bc.lines[m] ≠ .empty ∨ e.avoid = some m) ∧
      s.bc.recency = before ++ 95 :: [] ∧ before.length = 95 ∧
      (∀ m ∈ before, (s.bc.lines[m]).isPinned = true) ∧ s.tables.cat[e.img].supply e.blk = .record 7 ∧ pinWaiting s = [] :=
  ⟨⟨{ loaded 1 with bc := { (loaded 1).bc with fills := [⟨0, 0, [], false, true, 8, some 1⟩] } }, ⟨0, 0, [], false, true, 8, some 1⟩,
      by decide +kernel⟩,
    { loaded 95 with bc := { (loaded 95).bc with
      fills := [⟨0, 0, [], false, true, 8, none⟩], recency := (List.finRange 95).map (Fin.castLE (by decide)) ++ [95] } },
    ⟨0, 0, [], false, true, 8, none⟩, (List.finRange 95).map (Fin.castLE (by decide)), rfl, rfl, by decide, ⟨_, _, _, rfl⟩,
    by decide +kernel, rfl, by decide +kernel, by decide +kernel, by decide +kernel, rfl⟩

/-- The fill `f` of record 7 in line 0, not discarded, with the flash and the BAD mark of entry 0 as given. -/
def fillingAs (f : Fill) (bad : Bool) (m : Memory) (s : State) : State :=
  withReader (.fill f) { s with
    bc := { s.bc with lines := s.bc.lines.set 0 (.filling 0 0 false) }, flash := m, catSt := s.catSt.set 0 ⟨bad, 0⟩ }

theorem witness_FillReadEnds_ends (good wrong : List Byte) (hg : good = recordImage (List.replicate 128 0x5A))
    (hw : wrong = recordWrong (List.replicate 128 0x5A)) :
    (∃ (s : State) (f : Fill), s.reader = .fill f ∧ good = disturb [] (s.flash.readRun (recordAddr f.record) 130) ∧
      s.bc.lines[f.line] = .filling f.img f.blk false ∧ recordGood good = true ∧ (s.catSt[f.img]).bad = false ∧ f.pin = true ∧
      s.ma.long = some ⟨.trunk, .pin 0 []⟩ ∧ s.bc.reservation = 1) ∧
    (∃ (s : State) (f : Fill), s.reader = .fill f ∧ good = disturb [] (s.flash.readRun (recordAddr f.record) 130) ∧
      s.bc.lines[f.line] = .filling f.img f.blk false ∧ recordGood good = true ∧ (s.catSt[f.img]).bad = false ∧ f.pin = true ∧
      1 < s.bc.reservation) ∧
    (∃ (s : State) (f : Fill), s.reader = .fill f ∧ good = disturb [] (s.flash.readRun (recordAddr f.record) 130) ∧
      s.bc.lines[f.line] = .filling f.img f.blk false ∧ recordGood good = true ∧ (s.catSt[f.img]).bad = true) ∧
    (∃ (s : State) (f : Fill), s.reader = .fill f ∧ wrong = disturb [] (s.flash.readRun (recordAddr f.record) 130) ∧
      s.bc.lines[f.line] = .filling f.img f.blk false ∧ recordGood wrong = false ∧ f.orphan = false ∧ f.reread = true) ∧
    ∃ (s : State) (f : Fill), s.reader = .fill f ∧ wrong = disturb [] (s.flash.readRun (recordAddr f.record) 130) ∧
      s.bc.lines[f.line] = .filling f.img f.blk false ∧ recordGood wrong = false ∧ f.orphan = true ∧ f.pin = false := by
  have hd : (List.replicate 128 (0x5A : Byte)).length = 128 := List.length_replicate
  have h1 : good.length = 130 := by rw [hg]; rfl
  have h2 : wrong.length = 130 := by rw [hw]; rfl
  have g1 : recordGood good = true := by rw [hg]; exact record_good _ hd
  have g2 : recordGood wrong = false := by rw [hw]; exact record_wrong _ hd
  exact ⟨⟨fillingAs ⟨0, 0, 0, 7, [], true, false, false, false⟩ false (stored good)
        (withLong (.pin 0 []) { live with bc := { live.bc with reservation := 1 } }),
      _, rfl, (read_stored _ h1).symm, rfl, g1, rfl, rfl, rfl, rfl⟩,
    ⟨fillingAs ⟨0, 0, 0, 7, [], true, false, false, false⟩ false (stored good) { live with bc := { live.bc with reservation := 2 } },
      _, rfl, (read_stored _ h1).symm, rfl, g1, rfl, rfl, (by decide : 1 < 2)⟩,
    ⟨fillingAs ⟨0, 0, 0, 7, [], false, true, false, false⟩ true (stored good) live, _, rfl, (read_stored _ h1).symm, rfl, g1, rfl⟩,
    ⟨fillingAs ⟨0, 0, 0, 7, [], false, true, true, false⟩ false (stored wrong) live, _, rfl, (read_stored _ h2).symm, rfl, g2, rfl, rfl⟩,
    fillingAs ⟨0, 0, 0, 7, [], false, true, false, true⟩ false (stored wrong) live, _, rfl, (read_stored _ h2).symm, rfl, g2, rfl, rfl⟩

/-- SELF-CHECK runs, with check `n` under way at position `pos`. -/
def checking (n pos : Nat) (s : State) : State := withReader (.scan true) (withLong (.selfCheck ⟨n, pos, 0xFFFFFFFF, true, none⟩) s)

theorem witness_ScanIdentity_reads :
    (∃ (s : State) (c : SelfCheck), s.reader = .scan true ∧ s.ma.long = some ⟨.trunk, .selfCheck c⟩ ∧ c.check = 2 ∧
      min 130 (2117 - c.pos) = 130 ∧ c.pos + 130 < 2117) ∧
    (∃ (s : State) (c : SelfCheck), s.reader = .scan true ∧ s.ma.long = some ⟨.trunk, .selfCheck c⟩ ∧ c.check = 2 ∧
      min 130 (2117 - c.pos) = 37 ∧ 2117 ≤ c.pos + 37) ∧
    (∃ (s : State) (c : SelfCheck), s.reader = .scan true ∧ s.ma.long = some ⟨.trunk, .selfCheck c⟩ ∧ c.check = 3 + (0 : ImageId).val ∧
      (s.tables.cat[0]).supply c.pos = .record 7) ∧
    (∃ s : State, s.reader = .scan false) ∧
    (∃ (s : State) (c : SelfCheck), s.ma.long = some ⟨.trunk, .selfCheck c⟩ ∧ c.check ≠ 3 + (15 : ImageId).val) ∧
    ∃ (s : State) (c : SelfCheck), s.ma.long = some ⟨.trunk, .selfCheck c⟩ ∧ c.check = 3 + (15 : ImageId).val ∧ s.reader = .idle :=
  ⟨⟨checking 2 0 live, _, rfl, rfl, rfl, rfl, by decide⟩, ⟨checking 2 2080 live, _, rfl, rfl, rfl, rfl, by decide⟩,
    ⟨checking 3 0 live, _, rfl, rfl, rfl, by decide +kernel⟩, ⟨withReader (.scan false) live, rfl⟩,
    ⟨checking 2 0 live, _, rfl, by decide⟩, withReader .idle (checking 18 0 live), _, rfl, rfl, rfl⟩

theorem witness_ScanIdentity_checks :
    (∃ (s : State) (c : SelfCheck), c.check = 3 + (15 : ImageId).val ∧ (s.tables.cat[15]).valid = false) ∧
    (∃ (s : State) (c : SelfCheck) (j : LongJob), c.check = 3 + (0 : ImageId).val ∧ (s.tables.cat[0]).valid = true ∧
      (s.tables.cat[0]).supply c.pos = .record 7 ∧ s.ma.long = some ⟨.trunk, j⟩) ∧
    (∃ (s : State) (c : SelfCheck), c.check = 3 + (0 : ImageId).val ∧ (s.tables.cat[0]).valid = true ∧
      (s.tables.cat[0]).supply c.pos = .fill) ∧
    (∃ (s : State) (c : SelfCheck), c.check = 3 + (0 : ImageId).val ∧ (s.tables.cat[0]).valid = true ∧
      (s.tables.cat[0]).length ≤ c.pos ∧ ~~~c.crc = (s.tables.cat[0]).check) ∧
    ∃ (s : State) (c : SelfCheck), c.check = 3 + (0 : ImageId).val ∧ (s.tables.cat[0]).valid = true ∧
      (s.tables.cat[0]).length ≤ c.pos ∧ ~~~c.crc ≠ (s.tables.cat[0]).check ∧ ∃ f ∈ s.bc.fills, f.img = 0 :=
  ⟨⟨live, ⟨18, 0, 0xFFFFFFFF, false, none⟩, rfl, rfl⟩,
    ⟨checking 3 0 live, ⟨3, 0, 0xFFFFFFFF, false, none⟩, .selfCheck ⟨3, 0, 0xFFFFFFFF, true, none⟩, rfl, rfl, by decide +kernel, rfl⟩,
    ⟨live, ⟨3, 1, 0xFFFFFFFF, false, none⟩, rfl, rfl, by decide +kernel⟩,
    ⟨live, ⟨3, 2, 0xFFFFFFFF, false, none⟩, rfl, rfl, by decide +kernel, by decide +kernel⟩,
    queued, ⟨3, 2, 0, false, some 2⟩, rfl, rfl, by decide +kernel, by decide +kernel, by decide +kernel⟩

/-! ## Hypotheses met, clause by clause: frames -/

/-- What one reading of the bytes has, every reading has. -/
theorem only {bytes : List Byte} {f : Frame} {P : Frame → Prop} (h : parseFrame bytes = some f) (hp : P f) :
    ∀ g, parseFrame bytes = some g → P g := by
  intro g hg; rw [h] at hg; obtain rfl := Option.some.inj hg; exact hp

/-- A settings entry that drops what no rule matches. -/
def dropping (s : State) : State :=
  { s with tables := { s.tables with settings := { s.tables.settings with downDefault := .drop, upDefault := .drop } } }

/-- The trunk queue with `n` entries. -/
def trunked (n : Nat) (s : State) : State := { s with queues := { s.queues with trunk := List.replicate n ⟨63, false⟩ } }

/-- The bytes of a frame of kind `k` from node 1. -/
def up (k : Kind) (p : List Byte) : List Byte := wire 0xE0 1 k p

theorem witness_SegmentFrameJudged_bad :
    (∃ (s : State) (u : Turn), s.seg.port = .receiving true ∧ s.seg.turn = some u ∧ u.void = true ∧
      ∀ f, parseFrame (up .refuse []) = some f → f.src ≠ u.addr ∨ f.kind ∈ [Kind.refuse, .turn, .block, .startimg, .ctxload, .reboot,
        .mgmtReq, .mgmtReply]) ∧
    (∃ (s : State) (u : Turn), s.seg.port = .receiving true ∧ s.seg.turn = some u ∧ u.void = false ∧ u.closed = false ∧
      s.slots[u.slot].miss + 1 < s.tables.settings.presenceLimit ∧
      ∀ f, parseFrame (up .mgmtReply []) = some f → f.src ≠ u.addr ∨ f.kind ∈ [Kind.refuse, .turn, .block, .startimg, .ctxload, .reboot,
        .mgmtReq, .mgmtReply]) ∧
    (∃ (s : State) (u : Turn) (f : Frame), s.seg.port = .receiving true ∧ s.seg.turn = some u ∧ parseFrame (up .ready []) = some f ∧
      f.src = u.addr ∧ f.kind ∈ [Kind.empty, .data, .status, .bootcall, .loadack, .started, .ready] ∧ (freeBufs s).length ≤ 8) ∧
    ∃ (s : State) (u : Turn) (f : Frame), s.seg.port = .receiving true ∧ s.seg.turn = some u ∧ parseFrame (up .status []) = some f ∧
      f.src = u.addr ∧ f.kind ∈ [Kind.empty, .data, .status, .bootcall, .loadack, .started, .ready] ∧ 8 < (freeBufs s).length ∧
      u.void = true :=
  ⟨⟨turned (.receiving true) true live, _, rfl, rfl, rfl,
      only (f := ⟨0xE0, 1, .refuse, 3, []⟩) (by decide +kernel) (.inr (by decide))⟩,
    ⟨turned (.receiving true) false live, _, rfl, rfl, rfl, rfl, by decide +kernel,
      only (f := ⟨0xE0, 1, .mgmtReply, 3, []⟩) (by decide +kernel) (.inr (by decide))⟩,
    ⟨crowded 8 (turned (.receiving true) false live), ⟨0, 1, false, false⟩, ⟨0xE0, 1, .ready, 3, []⟩, by decide +kernel⟩,
    crowded 9 (turned (.receiving true) true live), ⟨0, 1, true, false⟩, ⟨0xE0, 1, .status, 3, []⟩, by decide +kernel⟩

/-- A good frame of kind `k` with payload `p` answers the turn given to slot 0 in `s`. -/
def answering (k : Kind) (p : List Byte) (s : State) : Prop :=
  ∃ u : Turn, s.seg.port = .receiving true ∧ s.seg.turn = some u ∧ u.void = false ∧ u.slot = 0 ∧ u.addr = 1 ∧
    parseFrame (up k p) = some ⟨0xE0, 1, k, 3, p⟩ ∧ 8 < (freeBufs s).length

/-- Slot 0 in a state, its turn's answer being received, with 9 buffers free. -/
def hearing (x : SlotStatus) (s : State) : State := crowded 9 (turned (.receiving true) false (withSlot x s))

theorem witness_SegmentFrameJudged_owners :
    (∃ s : State, answering .bootcall [] s ∧ s.lm.line = .gap) ∧ (∃ s : State, answering .started [] s ∧ s.slots[0].session = none) ∧
    (∃ s : State, answering .data [9] s ∧ s.slots[0].state ≠ .running) ∧
    (∃ s : State, answering .data [9] s ∧ s.slots[0].state = .running ∧
      lookup .up .data ⟨0xE0, 1, .data, 3, [9]⟩ s = (.forward, false) ∧ s.queues.trunk.length = 47) ∧
    (∃ s : State, answering .data [9] s ∧ s.slots[0].state = .running ∧
      lookup .up .data ⟨0xE0, 1, .data, 3, [9]⟩ s = (.forward, false) ∧ s.queues.trunk.length = 48) ∧
    (∃ s : State, answering .data [9] s ∧ s.slots[0].state = .running ∧
      lookup .up .data ⟨0xE0, 1, .data, 3, [9]⟩ s = (.drop, false)) ∧
    ∃ s : State, answering .status [9] s ∧ s.lm.line = .settle ∧
      (lookup .up .status ⟨0xE0, 1, .status, 3, [9]⟩ s).1 = .forward ∧
      ∀ r : Fin 32, (s.tables.cap[r]).covers .status ⟨0xE0, 1, .status, 3, [9]⟩ = false := by
  have ok : ∀ (k : Kind) (p : List Byte) (s : State), parseFrame (up k p) = some ⟨0xE0, 1, k, 3, p⟩ → s.seg.port = .receiving true →
      s.seg.turn = some ⟨0, 1, false, false⟩ → 8 < (freeBufs s).length → answering k p s :=
    fun _ _ _ h1 h2 h3 h4 => ⟨⟨0, 1, false, false⟩, h2, h3, rfl, rfl, rfl, h1, h4⟩
  exact ⟨⟨withLine .gap (hearing (slotIn .absent) live), ok _ _ _ (by decide +kernel) rfl rfl (by decide +kernel), rfl⟩,
    ⟨hearing (slotIn .absent) live, ok _ _ _ (by decide +kernel) rfl rfl (by decide +kernel), rfl⟩,
    ⟨hearing (slotIn .dark) live, ok _ _ _ (by decide +kernel) rfl rfl (by decide +kernel), by decide +kernel⟩,
    ⟨trunked 47 (hearing (slotIn .running) live), ok _ _ _ (by decide +kernel) rfl rfl (by decide +kernel), by decide +kernel⟩,
    ⟨trunked 48 (hearing (slotIn .running) live), ok _ _ _ (by decide +kernel) rfl rfl (by decide +kernel), by decide +kernel⟩,
    ⟨dropping (hearing (slotIn .running) live), ok _ _ _ (by decide +kernel) rfl rfl (by decide +kernel), by decide +kernel⟩,
    withLine .settle (hearing (slotIn .dark) live), ok _ _ _ (by decide +kernel) rfl rfl (by decide +kernel), by decide +kernel⟩

theorem witness_FrameNotTaken_kinds :
    (∃ (s : State) (bytes : List Byte) (f : Frame), s.phase = .running ∧ parseFrame bytes = some f ∧ f.kind = .status) ∧
    (∃ (s : State) (bytes : List Byte) (f : Frame), s.phase = .running ∧ parseFrame bytes = some f ∧ f.kind = .mgmtReq ∧
      f.dst ≠ s.tables.settings.mgmtAddr) ∧
    (∃ (s : State) (bytes : List Byte) (f : Frame), s.phase = .running ∧ parseFrame bytes = some f ∧ f.kind = .mgmtReq ∧
      f.dst = s.tables.settings.mgmtAddr ∧ (freeBufs s).length ≤ 8) ∧ ∃ s : State, s.phase = .starting :=
  ⟨⟨live, wire 1 0x40 .status [], ⟨1, 0x40, .status, 3, []⟩, by decide +kernel⟩,
    ⟨live, wire 0xE1 0x40 .mgmtReq [], ⟨0xE1, 0x40, .mgmtReq, 3, []⟩, by decide +kernel⟩,
    ⟨crowded 8 live, wire 0xE0 0x40 .mgmtReq [], ⟨0xE0, 0x40, .mgmtReq, 3, []⟩, by decide +kernel⟩, State.reset, rfl⟩

/-- DATA to `dst` that the default action takes in `s`, with nine buffers free. -/
def arriving (dst : Byte) (a : FwdAction) (s : State) : Prop :=
  s.phase = .running ∧ parseFrame (wire dst 0x40 .data [9]) = some ⟨dst, 0x40, .data, 3, [9]⟩ ∧
    lookup .down .data ⟨dst, 0x40, .data, 3, [9]⟩ s = (a, false) ∧ 8 < (freeBufs s).length

/-- Slot 0 alone has the address 1. -/
def alone (s : State) : Prop :=
  (s.tables.slots[0]).enabled = true ∧ (s.tables.slots[0]).addr = 1 ∧
    ∀ j : SlotId, s.tables.slots[j].enabled = true → s.tables.slots[j].addr = 1 → j = 0

/-- Slot 0 restores with a class that holds, or not; its hold queue has `n` entries. -/
def holding (n : Nat) (on : Bool) : State :=
  { crowded 9 (withSlot { slotIn .loading with session := some restore } live) with
    tables := { live.tables with classes := live.tables.classes.set 0 { ClassEntry.factory with holdEnable := on } }
    queues := { live.queues with hold := live.queues.hold.set 0 (List.replicate n 63) } }

theorem witness_StationFrameForwarded_refused :
    (∃ s : State, arriving 1 .drop s) ∧
    (∃ s : State, arriving 1 .forward s ∧ isStation 1 = true ∧ s.queues.trunk.length = 47 ∧ s.lm.line = .gap) ∧
    (∃ s : State, arriving 1 .forward s ∧ s.queues.trunk.length = 47 ∧ s.lm.line = .dip ∧ s.queues.out.length = 32 ∧
      ∀ k : SlotId, s.tables.slots[k].enabled = true → s.tables.slots[k].addr = 1 → s.slots[k].state = .running) ∧
    (∃ s : State, arriving 1 .forward s ∧ s.queues.trunk.length < 48 ∧ s.lm.line = .up ∧ alone s ∧ s.slots[0].state = .backoff) ∧
    (∃ s : State, arriving 1 .forward s ∧ s.queues.trunk.length < 48 ∧ s.lm.line = .up ∧ alone s ∧ s.slots[0].state.restoring = true ∧
      s.slots[0].cls = some 0 ∧ (s.tables.classes[0]).holdEnable = false) ∧
    ∃ s : State, arriving 1 .forward s ∧ s.queues.trunk.length < 48 ∧ s.lm.line = .up ∧ alone s ∧ s.slots[0].state.restoring = true ∧
      s.slots[0].cls = some 0 ∧ (s.tables.classes[0]).holdEnable = true ∧ s.tables.settings.holdDepth ≤ s.queues.hold[0].length := by
  unfold arriving alone
  exact ⟨⟨crowded 9 (dropping live), by decide +kernel⟩, ⟨trunked 47 (withLine .gap (crowded 9 live)), by decide +kernel⟩,
    ⟨{ trunked 47 (withLine .dip (crowded 9 (withSlot (slotIn .running) live))) with
      queues := { (trunked 47 live).queues with out := List.replicate 32 63 } }, by decide +kernel⟩,
    ⟨crowded 9 (withSlot (slotIn .backoff) live), by decide +kernel⟩, ⟨holding 0 false, by decide +kernel⟩, holding 4 true, by decide +kernel⟩

/-- Every slot's copy of a broadcast frame, as the statement names it. -/
def copied (a : FwdAction) (s : State) (k : SlotId) : Prop :=
  a = .forward ∧ s.slots[k].state.restoring = true ∧ s.tables.slots[k].enabled = true ∧
    ((0xFF : Byte) = 0xFF ∨ 0xF0 ≤ (0xFF : Byte).toNat ∧ (s.tables.slots[k].groups).getLsbD ((0xFF : Byte).toNat - 0xF0) = true) ∧
    ∃ c, s.slots[k].cls = some c ∧ (s.tables.classes[c]).holdEnable = true

theorem witness_StationFrameForwarded_all :
    (∃ s : State, arriving 0xFF .forward s ∧ isStation 0xFF = false ∧ s.lm.line = .settle) ∧
    (∃ (s : State) (copies : SlotId → Bool), arriving 0xFF .forward s ∧ s.lm.line = .up ∧
      (∀ k : SlotId, copies k = true ↔ copied .forward s k) ∧ copies 0 = true ∧ s.queues.out.length < 32 ∧ s.queues.hold[0].length = 3) ∧
    ∃ (s : State) (copies : SlotId → Bool), arriving 0xFF .forward s ∧ s.lm.line = .up ∧
      (∀ k : SlotId, copies k = true ↔ copied .forward s k) ∧ copies 0 = true ∧ s.queues.out.length = 32 ∧ s.queues.hold[0].length = 4 := by
  unfold arriving copied
  exact ⟨⟨withLine .settle (crowded 9 live), by decide +kernel⟩, ⟨holding 3 true, fun k => decide (k = 0), by decide +kernel⟩,
    { holding 4 true with queues := { (holding 4 true).queues with out := List.replicate 32 63 } }, fun k => decide (k = 0), by decide +kernel⟩

/-! ## Hypotheses met, clause by clause: sessions -/

/-- Slot 0's entry, class 0 and catalogue entry 0 as given. -/
def configured (e : SlotEntry) (c : ClassEntry) (x : CatEntry) (s : State) : State :=
  { s with tables := { s.tables with slots := s.tables.slots.set 0 e, classes := s.tables.classes.set 0 c, cat := s.tables.cat.set 0 x } }

theorem witness_ColdSessionOpens_states :
    (∃ s : State, s.lm.line = .settle) ∧ (∃ s : State, s.lm.line = .dip) ∧ (∃ s : State, s.slots[0].state = .dark) ∧
    (∃ s : State, s.slots[0].state = .running ∧ s.slots[0].reloadExpected = true) ∧
    (∃ s : State, s.slots[0].state = .running ∧ s.slots[0].reloadExpected = false) ∧
    (∃ (s : State) (x : Session), s.slots[0].state.restoring = true ∧ s.slots[0].session = some x) ∧
    ∃ s : State, s.slots[0].state = .failed :=
  ⟨⟨withLine .settle live, rfl⟩, ⟨withLine .dip live, rfl⟩, ⟨withSlot (slotIn .dark) live, by decide +kernel⟩,
    ⟨withSlot { slotIn .running with reloadExpected := true } live, by decide +kernel⟩,
    ⟨withSlot (slotIn .running) live, by decide +kernel⟩,
    ⟨withSlot { slotIn .context with session := some restore } live, restore, by decide +kernel⟩,
    withSlot (slotIn .failed) live, by decide +kernel⟩

/-- A resolution of slot 0 in `s` that reaches the image: the class code is allowed and resolves to class `c`. -/
def allowed (b : BootCall) (c : ClassId) (s : State) : Prop :=
  (∀ x ∈ (s.tables.slots[0]).expClass, x = b.cls) ∧
    (b.cls.toNat < s.tables.settings.classCount ∧ c.val = b.cls.toNat ∨ s.tables.settings.classCount ≤ b.cls.toNat ∧ c = 0)

theorem witness_ColdSessionOpens_resolution :
    (∃ (s : State) (b : BootCall) (x : Byte), (s.tables.slots[0]).expClass = some x ∧ x ≠ b.cls) ∧
    (∃ (s : State) (b : BootCall) (c : ClassId), allowed b c s ∧ (s.tables.slots[0]).override = none ∧
      (s.tables.classes[c]).selector = none ∧ s.slots[0].cls ≠ some c) ∧
    (∃ (s : State) (b : BootCall) (c : ClassId), allowed b c s ∧ (s.tables.slots[0]).override = none ∧
      (s.tables.classes[c]).selector = some 15 ∧ (s.tables.cat[15]).valid = false) ∧
    (∃ (s : State) (b : BootCall) (c : ClassId), allowed b c s ∧ (s.tables.slots[0]).override = some 0 ∧ (s.tables.cat[0]).valid = true ∧
      (s.catSt[0]).bad = true) ∧
    (∃ (s : State) (b : BootCall) (c : ClassId), allowed b c s ∧ (s.tables.slots[0]).override = some 0 ∧ (s.tables.cat[0]).valid = true ∧
      (s.catSt[0]).bad = false ∧ b.capacity + 1 = (s.tables.cat[0]).length) ∧
    ∃ (s : State) (b : BootCall) (c : ClassId), allowed b c s ∧ (s.tables.slots[0]).override = some 0 ∧ (s.tables.cat[0]).valid = true ∧
      (s.catSt[0]).bad = false ∧ (s.tables.cat[0]).minHw ≤ b.hw ∧ (s.tables.cat[0]).minBoot ≤ b.boot ∧
      (s.tables.cat[0]).length ≤ b.capacity ∧
      ((s.tables.classes[c]).warmAllowed = true ∧ s.slots[0].coldNext = false ∧ b.held = some (s.tables.cat[0]).tag) := by
  unfold allowed
  exact ⟨⟨configured { SlotEntry.factory 0 with expClass := some 1 } ClassEntry.factory (live.tables.cat[0]) live, ⟨0, 0, 0, 2, none⟩, 1,
      by decide +kernel⟩,
    ⟨configured (SlotEntry.factory 0) ClassEntry.factory (live.tables.cat[0]) (withSlot { slotIn .absent with cls := some 1 } live),
      ⟨7, 0, 0, 2, none⟩, 0, by decide +kernel⟩,
    ⟨configured (SlotEntry.factory 0) { ClassEntry.factory with selector := some 15 } (live.tables.cat[0]) live, ⟨0, 0, 0, 2, none⟩, 0,
      by decide +kernel⟩,
    ⟨{ live with catSt := live.catSt.set 0 ⟨true, 0⟩ }, ⟨0, 0, 0, 2, none⟩, 0, by decide +kernel⟩,
    ⟨live, ⟨0, 0, 0, 1, none⟩, 0, by decide +kernel⟩,
    configured (live.tables.slots[0]) { ClassEntry.factory with warmAllowed := true } (live.tables.cat[0]) live,
    ⟨0, 0, 0, 2, some 0x11223344⟩, 0, by decide +kernel⟩

/-- Slot 0 restores with the session `x`. -/
def restoring (st : SlotState) (x : Session) : State := withSlot { slotIn st with session := some x } live

/-- Block 0 acknowledged, blocks 1 and 2 of four in flight. -/
def underway : Session := { restore with length := 4, cursor := 3, through := some 0, inFlight := [1, 2] }

/-- The two fields of a LOADACK in `s`, with the session of slot 0. -/
def acked (s : State) (x : Session) (hi lo hi' lo' : Byte) (t m : Nat) : Prop :=
  s.slots[0].session = some x ∧ s.slots[0].state = .loading ∧ t = 256 * hi.toNat + lo.toNat ∧ m = 256 * hi'.toNat + lo'.toNat

theorem witness_RestoreAnswersJudged_loadack :
    (∃ (s : State) (x : Session) (p : List Byte), s.slots[0].session = some x ∧ s.slots[0].state = .loading ∧ p.length ≠ 4) ∧
    (∃ (s : State) (x : Session) (t m : Nat), acked s x 255 255 0 0 t m ∧ m ≠ 0xFFFF ∧ ∃ a, x.through = some a ∧ m ≤ a) ∧
    (∃ (s : State) (x : Session) (t m : Nat), acked s x 0 2 0 2 t m ∧ m ≠ 0xFFFF ∧ t ≠ 0xFFFF ∧ m ≤ t) ∧
    (∃ (s : State) (x : Session) (t m : Nat), acked s x 0 1 0 2 t m ∧ t < x.cursor ∧ m ≤ x.cursor ∧ (∀ a ∈ x.through, a < m) ∧ t < m ∧
      m ≠ 0xFFFF ∧ x.resends ≠ x.resendLimit) ∧
    (∃ (s : State) (x : Session) (t m : Nat), acked s x 255 255 0 3 t m ∧ t = 0xFFFF ∧ m ≤ x.cursor ∧ (∀ a ∈ x.through, a < m) ∧
      m ≠ 0xFFFF ∧ x.resends = x.resendLimit) ∧
    ∃ (s : State) (x : Session) (t m : Nat), acked s x 0 1 255 255 t m ∧ t < x.cursor ∧ m = 0xFFFF ∧ t + 1 = x.length ∧
      ∀ a ∈ x.through, a < t := by
  unfold acked
  exact ⟨⟨restoring .loading underway, underway, [0, 1, 255], by decide +kernel⟩,
    ⟨restoring .loading underway, underway, _, _, ⟨by decide +kernel, by decide +kernel, rfl, rfl⟩, by decide, 0, rfl, by decide⟩,
    ⟨restoring .loading underway, underway, _, _, ⟨by decide +kernel, by decide +kernel, rfl, rfl⟩, by decide⟩,
    ⟨restoring .loading underway, underway, _, _, ⟨by decide +kernel, by decide +kernel, rfl, rfl⟩, by decide⟩,
    ⟨restoring .loading { underway with resends := 16 }, { underway with resends := 16 }, _, _,
      ⟨by decide +kernel, by decide +kernel, rfl, rfl⟩, by decide⟩,
    restoring .loading { restore with cursor := 2, through := some 0, inFlight := [1] },
    { restore with cursor := 2, through := some 0, inFlight := [1] }, _, _, ⟨by decide +kernel, by decide +kernel, rfl, rfl⟩, by decide⟩

/-- A session whose frame of the stage has been sent, the record with field 0 present. -/
def awaited : Session := { restore with sent := true, sentMask := some 1 }

theorem witness_RestoreAnswersJudged_stages :
    (∃ (s : State) (x : Session) (p : List Byte), s.slots[0].session = some x ∧ x.sent = true ∧ s.slots[0].state = .starting ∧ p.length ≠ 5) ∧
    (∃ (s : State) (x : Session) (p : List Byte), s.slots[0].session = some x ∧ x.sent = true ∧ s.slots[0].state = .starting ∧ p.length = 5 ∧
      rd8 p 0 = 0 ∧ rd32 p 1 = x.check) ∧
    (∃ (s : State) (x : Session) (p : List Byte), s.slots[0].session = some x ∧ x.sent = true ∧ s.slots[0].state = .starting ∧ p.length = 5 ∧
      x.warm = true ∧ ¬ (rd8 p 0 = 0 ∧ rd32 p 1 = x.check)) ∧
    (∃ (s : State) (x : Session) (p : List Byte), s.slots[0].session = some x ∧ x.sent = true ∧ s.slots[0].state = .context ∧ p.length ≠ 6) ∧
    (∃ (s : State) (x : Session) (p : List Byte), s.slots[0].session = some x ∧ x.sent = true ∧ s.slots[0].state = .context ∧ p.length = 6 ∧
      rd32 p 0 ≠ x.tag) ∧
    (∃ (s : State) (x : Session) (p : List Byte), s.slots[0].session = some x ∧ x.sent = true ∧ s.slots[0].state = .context ∧ p.length = 6 ∧
      rd32 p 0 = x.tag ∧ x.sentMask ≠ some (BitVec.ofNat 16 (rd16 p 4))) ∧
    (∃ s : State, s.slots[0].session = none) ∧ ∃ s : State, s.slots[0].session = some restore ∧ s.slots[0].state = .starting ∧
      restore.sent = false :=
  ⟨⟨restoring .starting awaited, awaited, [0, 0, 0, 0], by decide +kernel⟩,
    ⟨restoring .starting awaited, awaited, [0, 0, 0, 0, 0], by decide +kernel⟩,
    ⟨restoring .starting { awaited with warm := true }, { awaited with warm := true }, [1, 0, 0, 0, 0], by decide +kernel⟩,
    ⟨restoring .context awaited, awaited, [0, 0, 0, 0], by decide +kernel⟩,
    ⟨restoring .context awaited, awaited, [0x11, 0x22, 0x33, 0x45, 0, 1], by decide +kernel⟩,
    ⟨restoring .context awaited, awaited, [0x11, 0x22, 0x33, 0x44, 0x80, 1], by decide +kernel⟩,
    ⟨live, by decide +kernel⟩, restoring .starting restore, by decide +kernel⟩

/-- A STATUS of class code `cls` and tag `tag` to slot 0 with the line UP, where the slot allows it as class 0. -/
def returning (p : List Byte) (s : State) : Prop :=
  6 ≤ p.length ∧ s.lm.line = .up ∧ s.slots[0].state = .absent ∧ (∀ x ∈ (s.tables.slots[0]).expClass, x = p.getD 0 0) ∧
    (rd8 p 0 < s.tables.settings.classCount ∧ (0 : ClassId).val = rd8 p 0 ∨ s.tables.settings.classCount ≤ rd8 p 0 ∧ (0 : ClassId) = 0)

theorem witness_StatusJudged_returns :
    (∃ (s : State) (p : List Byte), 6 ≤ p.length ∧ s.lm.line = .up ∧ s.slots[0].state = .backoff) ∧
    (∃ (s : State) (p : List Byte) (x : Byte), 6 ≤ p.length ∧ s.lm.line = .up ∧ s.slots[0].state = .absent ∧
      (s.tables.slots[0]).expClass = some x ∧ x ≠ p.getD 0 0) ∧
    (∃ (s : State) (p : List Byte), returning p s ∧ (s.tables.slots[0]).override = none ∧ (s.tables.classes[0]).selector = none) ∧
    (∃ (s : State) (p : List Byte), returning p s ∧ (s.tables.slots[0]).override = some 1 ∧ (s.tables.cat[1]).valid = false) ∧
    (∃ (s : State) (p : List Byte), returning p s ∧ (s.tables.slots[0]).override = some 0 ∧ (s.tables.cat[0]).valid = true ∧
      rd32 p 1 ≠ (s.tables.cat[0]).tag ∧ (s.catSt[0]).bad = true ∧ s.slots[0].cls ≠ some 0) ∧
    (∃ p : List Byte, p.length < 6) ∧ ∃ s : State, s.lm.line = .settle := by
  unfold returning
  exact ⟨⟨withSlot (slotIn .backoff) live, [0, 0, 0, 0, 0, 0], by decide +kernel⟩,
    ⟨configured { SlotEntry.factory 0 with expClass := some 1 } ClassEntry.factory (live.tables.cat[0]) live, [0, 0, 0, 0, 0, 0], 1,
      by decide +kernel⟩,
    ⟨configured (SlotEntry.factory 0) ClassEntry.factory (live.tables.cat[0]) live, [255, 0, 0, 0, 0, 0], by decide +kernel⟩,
    ⟨configured { SlotEntry.factory 0 with override := some 1 } ClassEntry.factory (live.tables.cat[0]) live, [0, 0, 0, 0, 0, 0],
      by decide +kernel⟩,
    ⟨withSlot { slotIn .absent with cls := some 1 } { live with catSt := live.catSt.set 0 ⟨true, 0⟩ }, [0, 0x11, 0x22, 0x33, 0x45, 0],
      by decide +kernel⟩,
    ⟨[0, 0, 0, 0, 0], by decide⟩, withLine .settle live, rfl⟩

/-! ## Hypotheses met, clause by clause: the management agent -/

theorem witness_EntriesRead_bytes :
    (∃ (s : State) (x : SlotStatus) (n : Nat) (one : Bool → Nat), s.slots[0] = x ∧ (∀ b, one b = if b then 1 else 0) ∧
      (x.state, n) ∈ [(SlotState.vacant, 0), (.absent, 1), (.dark, 2), (.loading, 3), (.starting, 4), (.context, 5), (.running, 6),
        (.backoff, 7), (.failed, 8)] ∧ x.session = some underway) ∧
    ∃ (s : State) (n : Nat), (s.lm.line, n) ∈ [(LineState.up, 0), (.dip, 1), (.gap, 2), (.settle, 3)] ∧ n = 3 :=
  ⟨⟨restoring .loading underway, { slotIn .loading with session := some underway }, 3, fun b => if b then 1 else 0, by decide +kernel,
      fun _ => rfl, by decide, rfl⟩,
    withLine .settle live, 3, by decide, rfl⟩

/-- The trunk origin holds a link on an entry. -/
def linked (t i : Nat) (s : State) : State := { s with ma := { s.ma with trunk := { s.ma.trunk with link := some ⟨t, i⟩ } } }

/-- COMMIT runs for the service origin. -/
def committing (s : State) : State := { s with ma := { s.ma with long := some ⟨.service, .commit true⟩ } }

theorem witness_Written_refused :
    (∃ s : State, Asked .writeEntry .trunk (5 :: 31 :: [1, 3, 9, 0xFF, 1, 0, 1, 0]) s ∧ commitRuns s = false ∧
      CapRule.decode [1, 3, 9, 0xFF, 1, 0, 1, 0] = none) ∧
    (∃ s : State, Asked .writeEntry .trunk (3 :: 15 :: CatEntry.factory.encode) s ∧ commitRuns s = false ∧ inTable 3 15 = true) ∧
    (∃ s : State, Asked .writeCond .trunk (13 :: 0 :: [0, 0, 0]) s) ∧
    (∃ s : State, Asked .writeCond .trunk (0 :: 0 :: Settings.factory.encode) s ∧ commitRuns s = true) ∧
    (∃ s : State, Asked .writeCond .trunk (5 :: 32 :: [0, 0, 0, 0, 0, 0, 0, 0]) s ∧ commitRuns s = false ∧ inTable 5 32 = false) ∧
    (∃ s : State, Asked .writeCond .trunk (5 :: 31 :: [1, 3, 9, 0xFF, 1, 0, 1, 0]) s ∧ commitRuns s = false ∧ inTable 5 31 = true ∧
      (s.ma.origin .trunk).link = some ⟨5, 31⟩) ∧
    (∃ s : State, writeConfig 5 31 [1, 3, 9, 0xFF, 1, 0, 1, 0] s = (.badValue, s)) ∧
    (Settings.decode (0xF0 :: Settings.factory.encode.tail) = none ∧ Settings.decode Settings.factory.encode = some Settings.factory) ∧
    (ClassEntry.decode (8 :: ClassEntry.factory.encode.tail) = none ∧ ClassEntry.decode ClassEntry.factory.encode = some ClassEntry.factory) ∧
    (SlotEntry.decode (2 :: (SlotEntry.factory 0).encode.tail) = none ∧
      SlotEntry.decode (SlotEntry.factory 0).encode = some (SlotEntry.factory 0)) ∧
    CatEntry.decode (2 :: CatEntry.factory.encode.tail) = none ∧ CatEntry.decode CatEntry.factory.encode = some CatEntry.factory :=
  ⟨⟨asking (0x03 :: 5 :: 31 :: [1, 3, 9, 0xFF, 1, 0, 1, 0]) live, asked_asking rfl (by decide) (by decide) rfl (by decide), rfl,
      by decide +kernel⟩,
    ⟨asking (0x03 :: 3 :: 15 :: CatEntry.factory.encode) live, asked_asking rfl (by decide +kernel) (by decide) rfl (by decide), rfl, by decide⟩,
    ⟨asking (0x04 :: 13 :: 0 :: [0, 0, 0]) live, asked_asking rfl (by decide) (by decide) rfl (by decide)⟩,
    ⟨asking (0x04 :: 0 :: 0 :: Settings.factory.encode) (committing live), asked_asking rfl (by decide +kernel) (by decide) rfl (by decide), rfl⟩,
    ⟨asking (0x04 :: 5 :: 32 :: [0, 0, 0, 0, 0, 0, 0, 0]) live, asked_asking rfl (by decide) (by decide) rfl (by decide), rfl, by decide⟩,
    ⟨asking (0x04 :: 5 :: 31 :: [1, 3, 9, 0xFF, 1, 0, 1, 0]) (linked 5 31 live), asked_asking rfl (by decide) (by decide) rfl (by decide), rfl,
      by decide, rfl⟩,
    ⟨live, rfl⟩, ⟨by decide +kernel, by decide +kernel⟩, ⟨by decide +kernel, by decide +kernel⟩, ⟨by decide +kernel, by decide +kernel⟩,
    by decide +kernel, by decide +kernel⟩

/-- No other enabled slot of `s` has the address of `e`, slot 0's new entry; its expected class resolves to class `c`. -/
def fits (e : SlotEntry) (c : ClassId) (s : State) : Prop :=
  (e.enabled = true → ∀ j : SlotId, j ≠ 0 → s.tables.slots[j].enabled = true → s.tables.slots[j].addr ≠ e.addr) ∧
    (e.expClass = none ∧ c = 0 ∨ (∃ x ∈ e.expClass, x.toNat < s.tables.settings.classCount ∧ c.val = x.toNat ∨
      s.tables.settings.classCount ≤ x.toNat ∧ c = 0))

theorem witness_SlotWritten_slots :
    (∃ (s : State) (e : SlotEntry), fits e 0 s ∧ e.enabled = true ∧ s.slots[0].state.restoring = true) ∧
    (∃ (s : State) (e : SlotEntry), fits e 0 s ∧ s.slots[0].state.restoring = false ∧ e.enabled = true ∧
      s.tables.slots[0].addr ≠ e.addr ∧ s.seg.port = .window) ∧
    (∃ (s : State) (e : SlotEntry), fits e 0 s ∧ s.slots[0].state.restoring = false ∧ e.enabled = false ∧
      s.tables.slots[0].enabled = true ∧ s.seg.port = .receiving true) ∧
    (∃ (s : State) (e : SlotEntry), fits e 0 s ∧ s.slots[0].state.restoring = false ∧ e.enabled = false ∧
      s.tables.slots[0].enabled = false ∧ s.tables.slots[0].addr ≠ e.addr ∧ s.seg.port = .window) ∧
    (∃ (s : State) (e : SlotEntry), fits e 0 s ∧ s.slots[0].state = .running ∧ e.enabled = true ∧ s.tables.slots[0].enabled = true ∧
      s.tables.slots[0].addr = e.addr ∧ s.tables.slots[0].expClass ≠ e.expClass) ∧
    ∃ (s : State) (e : SlotEntry), fits e 0 s ∧ s.slots[0].state = .dark ∧ e.enabled = true ∧ s.tables.slots[0].enabled = true ∧
      s.tables.slots[0].addr = e.addr ∧ s.tables.slots[0].expClass ≠ e.expClass ∧ s.slots[0].cls ≠ some 0 := by
  unfold fits
  exact ⟨⟨restoring .loading restore, live.tables.slots[0], by decide +kernel⟩,
    ⟨turned .window false live, { SlotEntry.factory 0 with enabled := true, addr := 0xEF }, by decide +kernel⟩,
    ⟨turned (.receiving true) false live, SlotEntry.factory 0, by decide +kernel⟩,
    ⟨configured (SlotEntry.factory 0) ClassEntry.factory CatEntry.factory (turned .window false live), SlotEntry.factory 9, by decide +kernel⟩,
    ⟨withSlot (slotIn .running) live, { SlotEntry.factory 0 with enabled := true, expClass := some 1 }, by decide +kernel⟩,
    withSlot { slotIn .dark with cls := some 7 } live, { SlotEntry.factory 0 with enabled := true, expClass := some 8 }, by decide +kernel⟩

theorem witness_SlotWritten_owners :
    (∃ (s : State) (e : Settings) (f : Frame), s.queues.hold[0] = [] ++ [0] ∧ ([] : List BufId).length = e.holdDepth ∧
      (∀ j : SlotId, j ≠ 0 → s.queues.hold[j].length ≤ e.holdDepth) ∧ s.pool[0].frame = some f ∧ isStation f.dst = true) ∧
    (∃ (s : State) (e : Settings), ∀ k : SlotId, s.queues.hold[k].length ≤ e.holdDepth) ∧
    (∃ s : State, s.slots[0].cls = some 0 ∧ s.slots[0].state.restoring = true) ∧
    (∃ (s : State) (e : ClassEntry), (∀ k : SlotId, s.slots[k].cls = some 0 → s.slots[k].state.restoring = false) ∧
      s.slots[0].cls = some 0 ∧ e.layout ≠ (s.tables.classes[0]).layout) ∧
    (∃ s : State, 0 < s.catSt[0].users) ∧
    (∃ s : State, s.ma.long = some ⟨.trunk, .program 30 [] false false⟩ ∧ (live.tables.cat[0]).valid = true ∧
      ((live.tables.cat[0]).windows[(0 : Fin 4)]).enable = true ∧ ((live.tables.cat[0]).windows[(0 : Fin 4)]).base / 31 = 30 / 31) ∧
    ∃ (s : State) (e : CatEntry), s.catSt[0].users = 0 ∧ s.ma.long = none ∧ e.valid = true ∧ s.slots[0].state = .running ∧
      s.slots[0].expTag ≠ some e.tag ∧ s.tables.slots[0].override = some 0 ∧ s.slots[0].stale = false :=
  ⟨⟨carrying, { Settings.factory with holdDepth := 0 }, ⟨1, 0x40, .data, 3, [9]⟩, by decide +kernel⟩,
    ⟨carrying, { Settings.factory with holdDepth := 1 }, by decide +kernel⟩, ⟨carrying, by decide +kernel⟩,
    ⟨live, { ClassEntry.factory with layout := ClassEntry.factory.layout.set 15 2 }, by decide +kernel⟩,
    ⟨carrying, by decide +kernel⟩, ⟨withLong (.program 30 [] false false) live, by decide +kernel⟩,
    withSlot { slotIn .running with expTag := some 5 } live, live.tables.cat[0], by decide +kernel⟩

theorem witness_PinRequested_runs :
    (∃ s : State, Asked .pin .trunk [0, 0, 0, 16, 0] s ∧ 4095 < rd16 [0, 0, 0, 16, 0] 3) ∧
    (∃ s : State, Asked .pin .trunk [0, 0, 1, 0, 1] s ∧ pinRange [0, 0, 1, 0, 1] = some (0, 1, 1) ∧ (s.tables.cat[0]).valid = true ∧
      (s.catSt[0]).bad = false ∧ pinCounted 0 1 1 s = [] ∧ pinnedCount s + s.bc.reservation ≤ 64) ∧
    (∃ s : State, Asked .pin .trunk [0, 0, 0, 0, 1] s ∧ pinCounted 0 0 1 s = [0] ∧ pinnedCount s + s.bc.reservation + 1 = 64 ∧
      needsRoom 0 0 s = true ∧ s.bc.fills.length = 16) ∧
    (∃ s : State, Asked .pin .trunk [0, 0, 0, 0, 1] s ∧ pinCounted 0 0 1 s = [0] ∧ validLine 0 0 s = none ∧ fillingHolds 0 0 s = false ∧
      isQueued 0 0 s = true) ∧
    ∃ (s : State) (f : Fill), Asked .pin .trunk [0, 0, 0, 0, 1] s ∧ pinCounted 0 0 1 s = [0] ∧ validLine 0 0 s = none ∧
      fillingHolds 0 0 s = true ∧ s.reader = .fill f :=
  ⟨⟨asking [0x30, 0, 0, 0, 16, 0] live, asked_asking rfl (by decide) (fun _ => rfl) rfl (by decide), by decide +kernel⟩,
    ⟨asking [0x30, 0, 0, 1, 0, 1] live, asked_asking rfl (by decide) (fun _ => rfl) rfl (by decide), by decide +kernel⟩,
    ⟨asking [0x30, 0, 0, 0, 0, 1] { loaded 63 with bc := { (loaded 63).bc with
        lines := ((loaded 63).bc.lines).set 95 .empty, fills := List.replicate 16 ⟨3, 1, [], false, true, 8, none⟩ } },
      asked_asking rfl (by decide) (fun _ => rfl) rfl (by decide), by decide +kernel⟩,
    ⟨asking [0x30, 0, 0, 0, 0, 1] { live with bc := { live.bc with fills := [⟨0, 0, [], false, true, 8, none⟩] } },
      asked_asking rfl (by decide) (fun _ => rfl) rfl (by decide), by decide +kernel⟩,
    asking [0x30, 0, 0, 0, 0, 1] (fillingAs ⟨0, 0, 0, 7, [], false, true, false, false⟩ false [] live), _,
    asked_asking rfl (by decide) (fun _ => rfl) rfl (by decide), by decide +kernel, by decide +kernel, by decide +kernel, rfl⟩

theorem witness_ImageInvalidated_drops :
    (∃ (s : State) (f : Fill), Asked .invalidate .trunk [0] s ∧ s.catSt[0].users = 0 ∧ s.reader = .fill f ∧ f.img = 0 ∧
      s.ma.long = some ⟨.service, .pin 0 [1]⟩ ∧ ∃ e ∈ s.bc.fills, e.img = 0) ∧
    ∃ (s : State) (f : Fill), Asked .invalidate .trunk [3] s ∧ s.catSt[3].users = 0 ∧ s.reader = .fill f ∧ f.img ≠ 3 ∧
      pinImage s ≠ some 3 ∧ ∀ e ∈ s.bc.fills, e.img ≠ 3 :=
  ⟨⟨asking [0x33, 0] { fillingAs ⟨0, 0, 0, 7, [], true, false, false, false⟩ false [] queued with
        ma := { live.ma with long := some ⟨.service, .pin 0 [1]⟩ } }, _, asked_asking rfl (by decide) (by decide) rfl (by decide),
      by decide +kernel, rfl, rfl, rfl, by decide +kernel⟩,
    asking [0x33, 3] (fillingAs ⟨0, 0, 0, 7, [], true, false, false, false⟩ false [] queued), _,
    asked_asking rfl (by decide) (by decide) rfl (by decide), by decide +kernel, rfl, by decide, by decide +kernel, by decide +kernel⟩

/-- The service origin's long operation. -/
def withOther (j : LongJob) (s : State) : State :=
  { s with ma := { s.ma with long := some ⟨.service, j⟩, service := ⟨.running, some ⟨[0x30], 0x55, 9⟩, none⟩ } }

/-- ENGINE-RESET is asked in `s`, and COMMIT does not run. -/
def resetting (s : State) : Prop := Asked .engineReset .trunk [] s ∧ commitRuns s = false

theorem witness_EngineResetDone_blocks :
    (∃ s : State, resetting s ∧ s.seg.port = .sending .outbound ∧ s.queues.out = [1] ∧ s.queues.trunk = [⟨63, false⟩, ⟨63, false⟩]) ∧
    (∃ s : State, resetting s ∧ s.seg.port = .receiving true) ∧ (∃ s : State, resetting s ∧ s.seg.port = .window ∧ s.seg.silent = true) ∧
    (∃ (s : State) (f : Fill), resetting s ∧ s.reader = .fill f) ∧ (∃ s : State, resetting s ∧ s.reader = .scan true) ∧
    (∃ s : State, resetting s ∧ s.ma.long = none ∧ s.reader = .idle) ∧
    (∃ s : State, resetting s ∧ s.ma.long = some ⟨.service, .erase 0 true false⟩) ∧
    (∃ s : State, resetting s ∧ s.ma.long = some ⟨.service, .program 0 [] true false⟩) ∧
    (∃ s : State, resetting s ∧ s.ma.long = some ⟨.service, .erase 0 false false⟩) ∧
    ∃ s : State, resetting s ∧ s.ma.long = some ⟨.service, .pin 0 [1]⟩ ∧ pinImage s ≠ none := by
  have ok : ∀ s : State, commitRuns s = false → s.ma.stopped = false → s.ma.service.state ≠ .waiting → resetting (asking [0x70] s) :=
    fun s h1 h2 h3 => ⟨asked_asking rfl (by decide) (fun h => absurd h (by decide)) h2 h3, h1⟩
  exact ⟨⟨_, ok (withPort (.sending .outbound) { carrying with queues := { carrying.queues with trunk := List.replicate 2 ⟨63, false⟩ } })
        rfl rfl (by decide), rfl, rfl, rfl⟩,
    ⟨_, ok (withPort (.receiving true) live) rfl rfl (by decide), rfl⟩,
    ⟨_, ok { live with seg := { live.seg with port := .window, silent := true } } rfl rfl (by decide), rfl, rfl⟩,
    ⟨_, _, ok (withReader (.fill ⟨0, 0, 0, 7, [], false, true, false, false⟩) live) rfl rfl (by decide), rfl⟩,
    ⟨_, ok (withReader (.scan true) live) rfl rfl (by decide), rfl⟩, ⟨_, ok live rfl rfl (by decide), rfl, rfl⟩,
    ⟨_, ok (withOther (.erase 0 true false) live) rfl rfl (by decide), rfl⟩,
    ⟨_, ok (withOther (.program 0 [] true false) live) rfl rfl (by decide), rfl⟩,
    ⟨_, ok (withOther (.erase 0 false false) live) rfl rfl (by decide), rfl⟩,
    _, ok (withOther (.pin 0 [1]) live) rfl rfl (by decide), rfl, by decide⟩

theorem witness_BadRequestAnswered_forms :
    (∃ (s : State) (q : Request) (b : Byte) (a : List Byte) (c : ReqCode), nextRequest s = some (.trunk, q) ∧ q.payload = b :: a ∧
      ReqCode.ofByte b = some c ∧ c = .commit ∧ formOk c a = false) ∧
    ∃ (s : State) (q : Request) (b : Byte) (a : List Byte) (c : ReqCode), nextRequest s = some (.trunk, q) ∧ q.payload = b :: a ∧
      ReqCode.ofByte b = some c ∧ formOk c a = true ∧ c.isLong = true ∧ s.ma.long ≠ none :=
  ⟨⟨asking [0x60, 0] live, _, 0x60, [0], .commit, rfl, rfl, rfl, rfl, by decide⟩,
    asking [0x60] (committing live), _, 0x60, [], .commit, rfl, rfl, rfl, by decide, rfl, by decide⟩

/-- An operation that the reset cut, in the state of the reset. -/
def cutting (c : CutOp) (m : Memory) : State := { State.reset with cut := some c, flash := m }

theorem witness_StartUpLoad_cut :
    (∃ s : State, s.phase = .starting ∧ s.cut = some (.erase 3839) ∧ Memory.wf s.flash ∧ ∃ left : Disturb, 0 < left.length ∧ left.length ≤ 4096) ∧
    (∃ (s : State) (d : List Byte), s.phase = .starting ∧ s.cut = some (.program 7 d) ∧ Memory.wf s.flash ∧ d.length = 128 ∧
      ∀ j, j < 130 → s.flash.read (recordAddr 7 + j) = 0xFF) ∧
    (∃ (s : State) (d : List Byte), s.phase = .starting ∧ s.cut = some (.program 7 d) ∧ Memory.wf s.flash ∧ d.length = 128 ∧
      ∃ j, j < 130 ∧ s.flash.read (recordAddr 7 + j) ≠ 0xFF) ∧
    ∃ (s : State) (store : List Byte), s.phase = .starting ∧ s.cut = some (.commit store) ∧ Memory.wf s.flash ∧ store.length = 2117 :=
  ⟨⟨cutting (.erase 3839) [], rfl, rfl, by decide, noise 1, by decide⟩,
    ⟨cutting (.program 7 (noise 128)) [], noise 128, rfl, rfl, by decide, by decide +kernel, fun _ _ => rfl⟩,
    ⟨cutting (.program 7 (noise 128)) (stored [1, 2]), noise 128, rfl, rfl, by decide +kernel, by decide +kernel, 1, by decide, by decide +kernel⟩,
    cutting (.commit (noise 2117)) [], noise 2117, rfl, rfl, by decide, by decide +kernel⟩

theorem witness_BuffersReferenced_overrun : ∃ s : State, freeBufs s ≠ [] ∧ s.queues.trunk.length = 48 :=
  ⟨trunked 48 (crowded 1 live), by decide +kernel⟩

/-- Both origins have a request under service. -/
def occupied (s : State) : State :=
  { s with ma := { s.ma with
    trunk := ⟨.replying, some ⟨[0x50], 0x55, 9⟩, none⟩, service := ⟨.running, some ⟨[0x30], 0x55, 9⟩, none⟩ } }

/-- The service queue with `n` entries. -/
def serviced (n : Nat) (s : State) : State := { s with queues := { s.queues with service := List.replicate n ⟨63, false⟩ } }

/-- A good MGMT-REQ to the management address in `s`, where no origin is IDLE. -/
def pressing (s : State) : Prop :=
  s.phase = .running ∧ parseFrame (wire 0xE0 0x55 .mgmtReq [0x50]) = some ⟨0xE0, 0x55, .mgmtReq, 3, [0x50]⟩ ∧ 8 < (freeBufs s).length ∧
    s.tables.settings.mgmtAddr = 0xE0 ∧ s.ma.trunk.state ≠ .idle ∧ s.ma.service.state ≠ .idle

theorem witness_RequestTaken_busy :
    (∃ s : State, pressing s ∧ ∃ r ∈ s.ma.replies, r.origin = .trunk ∧ r.busy = true) ∧
    (∃ s : State, pressing s ∧ ∃ r ∈ s.ma.replies, r.origin = .service ∧ r.busy = true) ∧
    (∃ s : State, pressing s ∧ s.ma.replies = [] ∧ s.queues.trunk.length = 47) ∧
    (∃ s : State, pressing s ∧ s.ma.replies = [] ∧ s.queues.service.length = 3) ∧
    (∃ s : State, pressing s ∧ s.ma.replies ≠ [] ∧ (∀ r ∈ s.ma.replies, r.origin = .trunk ∧ r.busy = false) ∧ s.queues.trunk.length = 48) ∧
    ∃ s : State, pressing s ∧ (∀ r ∈ s.ma.replies, r.origin = .service ∧ r.busy = false) ∧ s.queues.service.length = 4 := by
  unfold pressing
  exact ⟨⟨kept .trunk true (occupied (crowded 9 live)), by decide +kernel⟩, ⟨kept .service true (occupied (crowded 9 live)), by decide +kernel⟩,
    ⟨trunked 47 (occupied (crowded 9 live)), by decide +kernel⟩, ⟨serviced 3 (occupied (crowded 9 live)), by decide +kernel⟩,
    ⟨trunked 48 (kept .trunk false (occupied (crowded 9 live))), by decide +kernel⟩,
    serviced 4 (occupied (crowded 9 live)), by decide +kernel⟩

/-- Slot 0 in CONTEXT after CTXLOAD with two frames held, and `n` frames in the outbound queue. -/
def releasing (n : Nat) : State :=
  { restoring .context awaited with
    pool := ⟨⟨(List.range 64).map (fun i => if i < n + 2 then ⟨some ⟨1, 0x40, .data, 3, [9]⟩, 1⟩ else ⟨none, 0⟩)⟩, by simp⟩
    queues := { live.queues with
      out := (List.finRange 64).filter (fun b => decide (2 ≤ b.val ∧ b.val < n + 2)), hold := live.queues.hold.set 0 [0, 1] } }

theorem releasing_pool : PoolLaw (releasing 30) ∧ PoolLaw (releasing 31) := by unfold PoolLaw; decide +kernel

theorem witness_RestoreAnswersJudged_release :
    (∃ (s : State) (p : List Byte), s.slots[0].session = some awaited ∧ s.slots[0].state = .context ∧ p.length = 6 ∧
      rd32 p 0 = awaited.tag ∧ awaited.sentMask = some (BitVec.ofNat 16 (rd16 p 4)) ∧ s.queues.hold[0] = [0, 1] ∧
      s.queues.hold[0].drop (32 - s.queues.out.length) = []) ∧
    ∃ (s : State) (p : List Byte), s.slots[0].session = some awaited ∧ s.slots[0].state = .context ∧ p.length = 6 ∧
      rd32 p 0 = awaited.tag ∧ awaited.sentMask = some (BitVec.ofNat 16 (rd16 p 4)) ∧
      s.queues.hold[0].drop (32 - s.queues.out.length) = [1] ∧ PoolLaw s ∧ s.queues.trunk.length + 1 ≤ 48 ∧ 1 ≤ (freeBufs s).length ∧
      refusalsOf .partBusy [1] s = [⟨0x40, 0xE0, .refuse, 3, [3, 1, 3, 1]⟩] :=
  ⟨⟨releasing 30, [0x11, 0x22, 0x33, 0x44, 0, 1], by decide +kernel⟩,
    releasing 31, [0x11, 0x22, 0x33, 0x44, 0, 1], by decide +kernel, by decide +kernel, by decide, by decide, by decide,
    by decide +kernel, releasing_pool.2, by decide +kernel, by decide +kernel, by decide +kernel⟩

theorem witness_RangeFrameSent_service :
    (∃ (s : State) (q : Request), s.ma.long = some ⟨.service, .readRange 3 12 15⟩ ∧ s.ma.service.req = some q ∧ s.ma.replies = [] ∧
      s.queues.service.length < 4 ∧ freeBufs s ≠ [] ∧ s.ma.restartMark = false ∧ 15 < 12 + perFrame 3) ∧
    (∃ (s : State) (q : Request), s.ma.long = some ⟨.service, .readRange 3 11 15⟩ ∧ s.ma.service.req = some q ∧ s.ma.replies = [] ∧
      s.queues.service.length < 4 ∧ freeBufs s ≠ [] ∧ s.ma.restartMark = false ∧ 11 + perFrame 3 ≤ 15) ∧
    ∃ (s : State) (q : Request), s.ma.long = some ⟨.service, .readRange 3 12 15⟩ ∧ s.ma.service.req = some q ∧ s.ma.replies = [] ∧
      s.queues.service.length < 4 ∧ freeBufs s ≠ [] ∧ s.ma.restartMark = true :=
  ⟨⟨serviced 3 (withOther (.readRange 3 12 15) (crowded 1 live)), ⟨[0x30], 0x55, 9⟩, by decide +kernel⟩,
    ⟨serviced 3 (withOther (.readRange 3 11 15) (crowded 1 live)), ⟨[0x30], 0x55, 9⟩, by decide +kernel⟩,
    serviced 3 (withOther (.readRange 3 12 15) { crowded 1 live with ma := { live.ma with restartMark := true } }), ⟨[0x30], 0x55, 9⟩,
    by decide +kernel⟩

/-- A downstream frame to `dst` that `r` matches in `s`, with one slot at most bound to its destination. -/
def matched (dst : Byte) (r : CapRule) (s : State) : Prop :=
  r.enable = true ∧ r.source = .dataDown ∧ (9 : Byte) &&& r.typeMask = r.typeValue &&& r.typeMask ∧
    ∀ j k : SlotId, s.tables.slots[j].enabled = true → s.tables.slots[k].enabled = true → s.tables.slots[j].addr = dst →
      s.tables.slots[k].addr = dst → j = k

/-- The field of rule `r` for slot 0, its length and the reach of a payload of `m` bytes. -/
def reached (r : CapRule) (m : Nat) (s : State) : Prop :=
  s.slots[0].cls = some 0 ∧ r.classMask.getLsbD 0 = true ∧ (s.tables.classes[0]).layout[r.field] = 2 ∧ r.offset + 2 = m

theorem witness_CaptureStored_targets :
    (∃ (s : State) (r : CapRule), matched 1 r s ∧ isStation 1 = true ∧ (s.tables.slots[0]).enabled = true ∧ (s.tables.slots[0]).addr = 1 ∧
      reached r 3 s) ∧
    (∃ (s : State) (r : CapRule), matched 0xF6 r s ∧ isStation 0xF6 = false ∧ r.mode = .all ∧ (s.tables.slots[0]).enabled = true ∧
      (s.tables.slots[0]).groups.getLsbD 6 = true ∧ reached r 3 s) ∧
    (∃ (s : State) (r : CapRule), matched 0xFF r s ∧ isStation 0xFF = false ∧ r.mode = .all ∧ (s.tables.slots[0]).enabled = true ∧
      reached r 3 s) ∧
    (∃ (s : State) (r : CapRule), matched 0xFF r s ∧ r.mode = .addressed ∧ (s.tables.slots[0]).enabled = true ∧ reached r 3 s) ∧
    ∃ (s : State) (r : CapRule), matched 1 r s ∧ (s.tables.slots[0]).enabled = true ∧ (s.tables.slots[0]).addr = 1 ∧
      s.slots[0].cls = some 0 ∧ (s.tables.classes[0]).layout[r.field] = 0 := by
  unfold matched reached
  exact ⟨⟨fielded, { taking with mode := .addressed }, by decide +kernel⟩,
    ⟨{ fielded with tables := { fielded.tables with slots := fielded.tables.slots.set 0 { fielded.tables.slots[0] with groups := 0x40 } } },
      { taking with mode := .all }, by decide +kernel⟩,
    ⟨fielded, { taking with mode := .all }, by decide +kernel⟩, ⟨fielded, { taking with mode := .addressed }, by decide +kernel⟩,
    live, taking, by decide +kernel⟩

/-- A PIN on entry 0 runs for the service origin: block 0 queued, block 1 in flight, the blocks `w` waiting. -/
def pinRunning (w : List Nat) (r : Reader) : State :=
  { withOther (.pin 0 w) (withReader r live) with bc := { live.bc with
    fills := [⟨0, 0, [], true, false, 8, none⟩], reservation := w.length + 2 } }

theorem witness_UnpinAndPrefetch_running :
    (∃ (s : State) (f : Fill), Asked .unpin .trunk [0, 0, 0, 0, 1] s ∧ pinRange [0, 0, 0, 0, 1] = some (0, 0, 1) ∧
      s.ma.long = some ⟨.service, .pin 0 [5]⟩ ∧ s.reader = .fill f ∧ f.pin = true ∧ f.img = 0 ∧ f.blk = 1 ∧ s.bc.reservation = 3) ∧
    (∃ s : State, Asked .unpin .trunk [0, 0, 0, 0, 1] s ∧ pinRange [0, 0, 0, 0, 1] = some (0, 0, 1) ∧
      s.ma.long = some ⟨.service, .pin 0 []⟩ ∧ (∃ f, s.reader = .fill f ∧ f.pin = true ∧ f.img = 0 ∧ f.blk = 1) ∧ s.bc.reservation = 2) ∧
    ∃ s : State, Asked .unpin .trunk [0, 0, 5, 0, 6] s ∧ pinRange [0, 0, 5, 0, 6] = some (0, 5, 6) ∧
      s.ma.long = some ⟨.service, .pin 0 [5]⟩ ∧ (∀ f, s.reader ≠ .fill f) ∧ s.bc.reservation = 3 :=
  ⟨⟨asking [0x31, 0, 0, 0, 0, 1] (pinRunning [5] (.fill ⟨0, 0, 1, 8, [], true, false, false, false⟩)), _,
      asked_asking rfl (by decide) (by decide) rfl (by decide), by decide +kernel, rfl, rfl, by decide⟩,
    ⟨asking [0x31, 0, 0, 0, 0, 1] (pinRunning [] (.fill ⟨0, 0, 1, 8, [], true, false, false, false⟩)),
      asked_asking rfl (by decide) (by decide) rfl (by decide), by decide +kernel, rfl, ⟨_, rfl, by decide⟩, rfl⟩,
    asking [0x31, 0, 0, 5, 0, 6] (pinRunning [5] .idle), asked_asking rfl (by decide) (by decide) rfl (by decide), by decide +kernel, rfl,
    fun _ => nofun, rfl⟩

/-! ## Hypotheses met, clause by clause: bytes accepted, places of a block, a running PIN -/

/-- Each range of the six layouts at its last accepted and its first refused value. -/
theorem witness_EntriesReadBack_ranges :
    (∀ c ∈ [(0, 1, 0xEF), (1, 1, 8), (2, 0, 1), (3, 0, 1), (4, 0, 8), (5, 1, 8), (6, 5, 255), (7, 1, 16), (8, 2, 15), (9, 1, 8), (10, 0, 5),
        (11, 0, 4), (12, 1, 63)], ∀ v ∈ [0, c.2.1 - 1, c.2.1, c.2.2, (c.2.2 + 1) % 256],
      (Settings.decode (Settings.factory.encode.set c.1 (byte v))).isSome = decide (c.2.1 ≤ v ∧ v ≤ c.2.2)) ∧
    (∀ c ∈ [(0, 7), (1, 15), (2, 3), (3, 3), (4, 15), (5, 1), (6, 1), (7, 1), (8, 8), (23, 8)],
      (ClassEntry.decode (ClassEntry.factory.encode.set c.1 (byte c.2))).isSome = true ∧
        (ClassEntry.decode (ClassEntry.factory.encode.set c.1 (byte (c.2 + 1)))).isSome = false) ∧
    (ClassEntry.decode (ClassEntry.factory.encode.take 8 ++ List.replicate 8 8 ++ List.replicate 8 0)).isSome = true ∧
    (ClassEntry.decode (ClassEntry.factory.encode.take 8 ++ List.replicate 8 8 ++ List.replicate 8 1)).isSome = false ∧
    (∀ c ∈ [(0, 1), (1, 0xEF), (4, 15), (5, 3), (6, 0x7F)],
      (SlotEntry.decode ((SlotEntry.factory 0).encode.set c.1 (byte c.2))).isSome = true ∧
        (SlotEntry.decode ((SlotEntry.factory 0).encode.set c.1 (byte (c.2 + 1)))).isSome = false) ∧
    (∀ w ∈ [[0, 0xFF], [0xFF, 0xFF]], (SlotEntry.decode ([1, 1] ++ w ++ [0xFF, 0xFF, 0, 0])).isSome = true) ∧
    (SlotEntry.decode [1, 1, 1, 0, 0xFF, 0xFF, 0, 0]).isSome = false ∧
    (FwdRule.decode [1, 1, 1, 1, 0xFF, 0, 0xFF, 9, 0xFF, 2, 1]).isSome = true ∧
    (FwdRule.decode [1, 0, 1, 1, 0xFF, 0, 0xFF, 9, 0xFF, 2, 1]).isSome = false ∧
    (FwdRule.decode [1, 1, 0, 2, 1, 0, 0xFF, 9, 0xFF, 2, 1]).isSome = false ∧
    (FwdRule.decode [1, 1, 0, 0, 1, 0, 0xFF, 9, 0xFF, 2, 1]).isSome = false ∧
    (FwdRule.decode [1, 1, 0, 1, 1, 3, 2, 9, 0xFF, 2, 1]).isSome = false ∧
    (CapRule.decode [1, 2, 9, 0xFF, 239, 15, 1, 1]).isSome = true ∧ (CapRule.decode [1, 2, 9, 0xFF, 240, 15, 1, 1]).isSome = false ∧
    (CapRule.decode [1, 2, 9, 0xFF, 239, 16, 1, 1]).isSome = false ∧ (CapRule.decode [1, 3, 9, 0xFF, 239, 15, 1, 1]).isSome = false := by
  decide +kernel

/-- The bytes of a valid catalogue entry of `len` blocks whose last window takes blocks `first` to `last` from record `base` on. -/
def imageBytes (len first last base : Nat) : List Byte :=
  CatEntry.encode { CatEntry.factory with valid := true, length := len, windows := CatEntry.factory.windows.set 3 ⟨true, first, last, base⟩ }

theorem witness_EntriesReadBack_windows :
    (CatEntry.decode (imageBytes 4096 0 4095 (119039 - 4095))).isSome = true ∧ (CatEntry.decode (imageBytes 4096 0 4095 (119040 - 4095))).isSome = false ∧
    (CatEntry.decode (imageBytes 4097 0 0 0)).isSome = false ∧ (CatEntry.decode (imageBytes 0 0 0 0)).isSome = false ∧
    (CatEntry.decode (imageBytes 2 1 1 119039)).isSome = true ∧ (CatEntry.decode (imageBytes 2 1 1 119040)).isSome = false ∧
    (CatEntry.decode (imageBytes 2 1 2 0)).isSome = false ∧ (CatEntry.decode (imageBytes 2 1 0 0)).isSome = false := by decide +kernel

/-- A PIN on entry 0 for the trunk origin: block 0 queued, block 1 in flight in line 0, block 5 waiting. -/
def pinAtWork : State :=
  { withLong (.pin 0 [5]) live with
    reader := .fill ⟨0, 0, 1, 8, [], true, false, false, false⟩
    bc := { live.bc with
      lines := live.bc.lines.set 0 (.filling 0 1 false), fills := [⟨0, 0, [], true, false, 8, none⟩], reservation := 3 }
    pending := [.lineFalls] }

theorem witness_LawsAtReset_balance :
    ∃ s t : State, PinLaw s ∧ PinBalance s ∧ s.ma.long = some ⟨.trunk, .pin 0 [5]⟩ ∧ s.bc.reservation = 3 ∧ inFlightPins s = 1 ∧
      step s = .next t := by
  refine ⟨pinAtWork, _, ?_, ⟨?_, ?_⟩, rfl, rfl, rfl, rfl⟩
  · refine ⟨by decide +kernel, by decide +kernel, by decide +kernel, by decide +kernel, ?_, ?_, ?_⟩
    · intro k h; cases h
    · intro r d h; cases h
    · intro h; cases h
  · intro l i b d h
    have hl : ∀ l : LineId, l = 0 ∨ pinAtWork.bc.lines[l] = .empty := by decide +kernel
    rcases hl l with rfl | h0
    · exact ⟨_, rfl, rfl, by cases h; exact ⟨rfl, rfl⟩⟩
    · rw [h0] at h; cases h
  · intro o i w h
    obtain ⟨rfl, rfl, rfl⟩ : o = .trunk ∧ i = 0 ∧ w = [5] := by cases h; exact ⟨rfl, rfl, rfl⟩
    refine ⟨rfl, by decide, rfl, by decide +kernel, ?_⟩
    intro f hf _
    obtain rfl : f = ⟨0, 0, 1, 8, [], true, false, false, false⟩ := by cases hf; rfl
    exact ⟨rfl, by decide, rfl, by decide +kernel⟩

theorem witness_FailureByPolicy_refusals :
    ∃ s : State, s.slots[0].cls = some 0 ∧ PoolLaw s ∧ s.queues.hold[0] = [0] ∧ s.queues.trunk.length + s.queues.hold[0].length ≤ 48 ∧
      s.queues.hold[0].length ≤ (freeBufs s).length ∧ refusalsOf .notReady s.queues.hold[0] s = [⟨0x40, 0xE0, .refuse, 3, [1, 1, 3, 1]⟩] :=
  ⟨carrying, by decide +kernel, carrying_pool, by decide +kernel, by decide +kernel, by decide +kernel, by decide +kernel⟩

/-- A rule that forwards what goes in direction `d` and offers it to capture. -/
def capturing (d : Direction) (s : State) : State :=
  { s with tables := { s.tables with
    fwd := s.tables.fwd.set 0 { FwdRule.factory with
      enable := true, dir := d, dstLow := 1, dstHigh := 0xFF, srcLow := 0, srcHigh := 0xFF, capture := true }
    cap := s.tables.cap.set 0 { taking with source := .dataUp } } }

theorem witness_SegmentFrameJudged_limit :
    (∃ (s : State) (u : Turn), s.seg.port = .receiving true ∧ s.seg.turn = some u ∧ u.void = false ∧ u.closed = false ∧
      s.slots[u.slot].state = .running ∧ s.slots[u.slot].miss + 1 = s.tables.settings.presenceLimit ∧ parseFrame [] = none) ∧
    ∃ s : State, answering .data [9] s ∧ s.slots[0].state = .running ∧
      lookup .up .data ⟨0xE0, 1, .data, 3, [9]⟩ s = (.forward, true) ∧ s.queues.trunk.length < 48 :=
  ⟨⟨turned (.receiving true) false (withSlot { slotIn .running with miss := 3 } live), ⟨0, 1, false, false⟩, by decide +kernel⟩,
    capturing .up (hearing (slotIn .running) live),
    ⟨⟨0, 1, false, false⟩, rfl, rfl, rfl, rfl, rfl, by decide +kernel, by decide +kernel⟩, by decide +kernel⟩

theorem witness_SegmentTransmissionEnds_closed :
    ∃ (s : State) (f : Frame) (u : Turn), s.seg.port = .sending (.turn f) ∧ s.seg.turn = some u ∧ u.closed = true ∧ s.seg.silent = false :=
  ⟨{ live with seg := { live.seg with port := .sending (.turn ⟨1, 0xE0, .turn, 0, []⟩), turn := some ⟨0, 1, false, true⟩ } }, _, _,
    rfl, rfl, rfl, rfl⟩

theorem witness_StationFrameForwarded_capture :
    ∃ s : State, s.phase = .running ∧ parseFrame (wire 1 0x40 .data [9]) = some ⟨1, 0x40, .data, 3, [9]⟩ ∧
      lookup .down .data ⟨1, 0x40, .data, 3, [9]⟩ s = (.forward, true) ∧ 8 < (freeBufs s).length ∧ s.lm.line = .up ∧ alone s ∧
      s.slots[0].state = .running ∧ s.queues.out.length < 32 := by
  unfold alone
  exact ⟨capturing .down (crowded 9 (withSlot (slotIn .running) live)), by decide +kernel⟩

/-- Block `b` of entry 0 is held by no line and is not queued. -/
def nowhere (b : Nat) (s : State) : Prop := ¬ HeldValid 0 b s ∧ ¬ HeldFilling 0 b s ∧ ¬ InQueue 0 b s

theorem nowhere_of {b : Nat} {s : State} (h1 : validLine 0 b s = none) (h2 : fillingHolds 0 b s = false) (h3 : isQueued 0 b s = false) :
    nowhere b s := by
  refine ⟨validLine_none_iff.mp h1, fun h => ?_, fun h => ?_⟩
  · rw [fillingHolds_iff.mpr h] at h2; cases h2
  · rw [isQueued_iff.mpr h] at h3; cases h3

/-- `live` with the fill queue as given. -/
def filled (q : List FillEntry) : State := { live with bc := { live.bc with fills := q } }

/-- A fill that a prefetch asked for, of another image. -/
def other : FillEntry := ⟨3, 1, [], false, true, 8, none⟩

/-- Block 0 of entry 0 fills line 0. -/
def inFlight : State := fillingAs ⟨0, 0, 0, 7, [], false, true, false, false⟩ false [] live

/-- Block 0 of entry 0 is queued, with slot 3 as its requester. -/
def entry0 : FillEntry := ⟨0, 0, [3], false, false, 8, none⟩

theorem valid_loaded (n : Nat) : HeldValid 0 0 (loaded n) := ⟨95, false, [], by simp [loaded, live]⟩

theorem filling_inFlight : HeldFilling 0 0 inFlight ∧ ¬ HeldValid 0 0 inFlight :=
  ⟨fillingHolds_iff.mp (by decide +kernel), validLine_none_iff.mp (by decide +kernel)⟩

theorem queued_entry0 (q : List FillEntry) : InQueue 0 0 (filled (entry0 :: q)) := ⟨entry0, by simp [filled], rfl, rfl⟩

theorem witness_ColdSessionOpens_requests :
    (∃ s : State, (s.tables.cat[0]).supply 1 = .fill) ∧ (∃ s : State, HeldValid 0 0 s) ∧ (∃ s : State, HeldFilling 0 0 s) ∧
    (∃ s : State, ∃ e ∈ s.bc.fills, e.img = 0 ∧ e.blk = 0 ∧ (3 : SlotId) ∈ e.reqs) ∧
    (∃ s : State, (s.tables.cat[0]).supply 0 ≠ .fill ∧ ¬ HeldValid 0 0 s ∧ ¬ HeldFilling 0 0 s ∧ InQueue 0 0 s ∧
      ∀ e ∈ s.bc.fills, e.img = 0 → e.blk = 0 → (0 : SlotId) ∉ e.reqs) ∧
    (∃ s : State, nowhere 0 s ∧ s.bc.fills.length = 16) ∧ ∃ s : State, nowhere 0 s ∧ s.bc.fills.length = 15 :=
  ⟨⟨live, by decide +kernel⟩, ⟨_, valid_loaded 0⟩, ⟨_, filling_inFlight.1⟩, ⟨filled [entry0], by decide +kernel⟩,
    ⟨filled [entry0], by decide +kernel, validLine_none_iff.mp (by decide +kernel),
      fun h => absurd (fillingHolds_iff.mpr h) (by decide +kernel), queued_entry0 [], by decide +kernel⟩,
    ⟨filled (List.replicate 16 other), nowhere_of (by decide +kernel) (by decide +kernel) (by decide +kernel), rfl⟩,
    filled (List.replicate 15 other), nowhere_of (by decide +kernel) (by decide +kernel) (by decide +kernel), rfl⟩

theorem witness_ColdSessionOpens_rank :
    (∃ (s : State) (x : Session), s.slots[0].session = some x ∧ s.slots[0].state = .loading ∧
      min (x.cursor + x.window) x.length - x.cursor = 2) ∧
    (∃ s : State, s.slots[0].session = none) ∧ (∃ s : State, s.slots[0].state ≠ .loading ∧ s.slots[0].session.isSome = true) ∧
    (∃ s : State, slotRank 0 s = 0 ∧ rankOf [0, 3] s = 0 ∧ slotRank 3 s = 8) ∧
    ∃ (s : State) (f : Fill), s.reader = .fill f ∧ f.line = 0 ∧ s.bc.lines[0] = .filling 0 0 true :=
  ⟨⟨restoring .loading restore, restore, by decide +kernel⟩, ⟨live, by decide +kernel⟩, ⟨restoring .starting restore, by decide +kernel⟩,
    ⟨live, by decide +kernel⟩, filling true [], _, rfl, rfl, by decide +kernel⟩

/-- A PIN on entry 0 with the blocks `w` waiting and `n` reserved, in the state `s`. -/
def pinOn (w : List Nat) (n : Nat) (s : State) : State :=
  { withLong (.pin 0 w) s with bc := { s.bc with reservation := n } }

theorem witness_ReaderStarts_room :
    (∃ (s t : State) (e : FillEntry), s.reader = .idle ∧ s.bc.fills = [] ++ e :: List.replicate 15 other ∧
      (∀ f ∈ List.replicate 15 other, e.rank ≤ f.rank) ∧ s.bc.lines[0] = .empty ∧ s.tables.cat[e.img].supply e.blk = .record 7 ∧
      s.ma.long = some ⟨.trunk, .pin 0 [1]⟩ ∧ s.bc.reservation ≠ 0 ∧ s.bc.fills.length = 16 ∧
      t = { s with
        bc := { s.bc with fills := List.replicate 15 other, lines := s.bc.lines.set 0 (.filling 0 0 false), recency := [] }
        reader := .fill ⟨0, 0, 0, 7, e.reqs, e.pin, e.pre, false, false⟩ } ∧ nowhere 1 t) ∧
    (∃ (e : CatEntry) (b : Nat), e.length = b) ∧
    (∃ (e : CatEntry) (b : Nat), b < e.length ∧
      ∀ j : Fin 4, (e.windows[j]).enable = true → b < (e.windows[j]).first ∨ (e.windows[j]).last < b) ∧
    ∃ (e : CatEntry) (b : Nat), b < e.length ∧ (e.windows[0]).enable = true ∧ (e.windows[0]).first ≤ b ∧ b ≤ (e.windows[0]).last :=
  ⟨⟨pinOn [1] 1 (filled (entry0 :: List.replicate 15 other)), _, entry0, rfl, rfl, by decide +kernel, by decide +kernel, by decide +kernel,
      rfl, by decide, rfl, rfl, nowhere_of (by decide +kernel) (by decide +kernel) (by decide +kernel)⟩,
    ⟨live.tables.cat[0], 2, by decide +kernel⟩, ⟨live.tables.cat[0], 1, by decide +kernel⟩, live.tables.cat[0], 0, by decide +kernel⟩

theorem witness_FillReadEnds_returns (wrong : List Byte) (hw : wrong = recordWrong (List.replicate 128 0x5A)) :
    ∃ (s : State) (f : Fill), s.reader = .fill f ∧ wrong = disturb [] (s.flash.readRun (recordAddr f.record) 130) ∧
      s.bc.lines[f.line] = .filling f.img f.blk false ∧ recordGood wrong = false ∧ f.orphan = true ∧ f.pin = true ∧
      s.ma.long = some ⟨.trunk, .pin 0 [5]⟩ := by
  have h2 : wrong.length = 130 := by rw [hw]; rfl
  have g2 : recordGood wrong = false := by rw [hw]; exact record_wrong _ List.length_replicate
  exact ⟨fillingAs ⟨0, 0, 0, 7, [], true, false, false, true⟩ false (stored wrong) (pinOn [5] 2 live), _, rfl, (read_stored _ h2).symm, rfl, g2,
    rfl, rfl, rfl⟩

theorem witness_BadMarking_places :
    (∃ (s : State) (f : Fill), s.reader = .fill f ∧ f.img = 0 ∧ s.ma.long = some ⟨.trunk, .pin 0 [5]⟩ ∧ (∀ e ∈ s.bc.fills, e.img ≠ 0) ∧
      s.slots[0].session = some restore) ∧
    (∃ s : State, (∃ e ∈ s.bc.fills, e.img = 3) ∧ pinImage s ≠ some 3 ∧ pinImage s = some 0 ∧ ∀ f, s.reader ≠ .fill f) ∧
    ∃ s : State, (∃ e ∈ s.bc.fills, e.img = 3) ∧ pinImage s = none ∧ s.reader = .fill ⟨0, 0, 0, 7, [], false, true, false, false⟩ :=
  ⟨⟨fillingAs ⟨0, 0, 0, 7, [], true, false, false, false⟩ false [] (pinOn [5] 2 (restoring .loading restore)), _, rfl, rfl, rfl,
      by decide +kernel, by decide +kernel⟩,
    ⟨pinOn [5] 1 (filled [other]), ⟨other, by decide +kernel, rfl⟩, by decide, rfl, fun _ => nofun⟩,
    withReader (.fill ⟨0, 0, 0, 7, [], false, true, false, false⟩) (filled [other]), ⟨other, by decide +kernel, rfl⟩, rfl, rfl⟩

theorem loaded_lowest (m : LineId) (h : m < 95) (q : Bool) (c : List Byte) : (loaded 0).bc.lines[m] ≠ .valid 0 0 q c := by
  have : ∀ m : LineId, m < 95 → (loaded 0).bc.lines[m] = .empty := by decide +kernel
  rw [this m h]; nofun

theorem witness_WaitingPinPlaced_places :
    (∃ s : State, ∀ o i b bs, s.ma.long ≠ some ⟨o, .pin i (b :: bs)⟩) ∧
    (∃ s : State, s.ma.long = some ⟨.trunk, .pin 0 [0]⟩ ∧ HeldValid 0 0 s ∧ s.bc.lines[95] = .valid 0 0 false [] ∧
      (∀ m : LineId, m < 95 → ∀ q c, s.bc.lines[m] ≠ .valid 0 0 q c) ∧ s.bc.fills.length < 16 ∧ (request .pin 0 0 s).bc.reservation = 0) ∧
    (∃ (s : State) (f : Fill), s.ma.long = some ⟨.trunk, .pin 0 [0]⟩ ∧ ¬ HeldValid 0 0 s ∧ HeldFilling 0 0 s ∧ s.reader = .fill f ∧
      s.bc.fills.length = 15 ∧ (request .pin 0 0 s).bc.reservation ≠ 0) ∧
    (∃ s : State, s.ma.long = some ⟨.trunk, .pin 0 [0, 1]⟩ ∧ ¬ HeldValid 0 0 s ∧ ¬ HeldFilling 0 0 s ∧ InQueue 0 0 s ∧ s.bc.fills.length = 15) ∧
    ∃ s : State, s.ma.long = some ⟨.trunk, .pin 0 [0, 1]⟩ ∧ nowhere 0 s ∧ s.bc.fills.length = 15 :=
  ⟨⟨live, fun _ _ _ _ => nofun⟩,
    ⟨pinOn [0] 1 (loaded 0), rfl, valid_loaded 0, by decide +kernel, loaded_lowest, by decide +kernel, by decide +kernel⟩,
    ⟨fillingAs ⟨0, 0, 0, 7, [], false, true, false, false⟩ false [] (pinOn [0] 1 (filled (List.replicate 15 other))), _, rfl,
      validLine_none_iff.mp (by decide +kernel), fillingHolds_iff.mp (by decide +kernel), rfl, rfl, by decide +kernel⟩,
    ⟨pinOn [0, 1] 2 (filled (entry0 :: List.replicate 14 other)), rfl, validLine_none_iff.mp (by decide +kernel),
      fun h => absurd (fillingHolds_iff.mpr h) (by decide +kernel), isQueued_iff.mp (by decide +kernel), rfl⟩,
    pinOn [0, 1] 2 (filled (List.replicate 15 other)), rfl, nowhere_of (by decide +kernel) (by decide +kernel) (by decide +kernel), rfl⟩

theorem witness_BadValues :
    (∃ s : State, Asked .setContext .trunk (32 :: 0 :: [1]) s) ∧ (∃ s : State, Asked .setContext .trunk (0 :: 16 :: [1]) s) ∧
    (∃ s : State, Asked .clearContext .trunk [32] s) ∧ (∃ s : State, Asked .reload .trunk [32] s) ∧
    (∃ s : State, Asked .clear .trunk [32] s) ∧ ∃ s : State, Asked .clearRetries .trunk [32] s :=
  ⟨⟨asking [0x10, 32, 0, 1] live, asked_asking rfl (by decide) (by decide) rfl (by decide)⟩,
    ⟨asking [0x10, 0, 16, 1] live, asked_asking rfl (by decide) (by decide) rfl (by decide)⟩,
    ⟨asking [0x11, 32] live, asked_asking rfl (by decide) (by decide) rfl (by decide)⟩,
    ⟨asking [0x21, 32] live, asked_asking rfl (by decide) (by decide) rfl (by decide)⟩,
    ⟨asking [0x22, 32] live, asked_asking rfl (by decide) (by decide) rfl (by decide)⟩,
    asking [0x23, 32] live, asked_asking rfl (by decide) (by decide) rfl (by decide)⟩

theorem witness_UnpinAndPrefetch_range :
    (∃ s : State, Asked .prefetch .trunk [16, 0, 0, 0, 0] s ∧ 15 < rd8 [16, 0, 0, 0, 0] 0) ∧
    (∃ s : State, Asked .prefetch .trunk [0, 0, 1, 0, 0] s ∧ rd16 [0, 0, 1, 0, 0] 3 < rd16 [0, 0, 1, 0, 0] 1) ∧
    (∃ (s : State) (windowed : Nat → Bool), Asked .prefetch .trunk [0, 0, 0, 255, 255] s ∧ (s.tables.cat[0]).valid = true ∧
      (s.catSt[0]).bad = false ∧ ∀ b, windowed b = true ↔ ∃ r, s.tables.cat[(0 : ImageId)].supply b = .record r) ∧
    (∃ s : State, HeldValid 0 0 s) ∧ (∃ (s : State) (f : Fill), HeldFilling 0 0 s ∧ ¬ HeldValid 0 0 s ∧ s.reader = .fill f) ∧
    (∃ s : State, InQueue 0 0 s ∧ ¬ HeldValid 0 0 s ∧ ¬ HeldFilling 0 0 s) ∧ (∃ s : State, nowhere 0 s ∧ s.bc.fills.length = 16) ∧
    ∃ s : State, nowhere 0 s ∧ s.bc.fills.length = 15 :=
  ⟨⟨asking [0x32, 16, 0, 0, 0, 0] live, asked_asking rfl (by decide) (by decide) rfl (by decide), by decide⟩,
    ⟨asking [0x32, 0, 0, 1, 0, 0] live, asked_asking rfl (by decide) (by decide) rfl (by decide), by decide⟩,
    ⟨asking [0x32, 0, 0, 0, 255, 255] live, fun b => isWindowed 0 b live, asked_asking rfl (by decide) (by decide) rfl (by decide),
      by decide +kernel, by decide +kernel, fun _ => isWindowed_iff⟩,
    ⟨_, valid_loaded 0⟩, ⟨_, _, filling_inFlight.1, filling_inFlight.2, rfl⟩,
    ⟨filled [entry0], queued_entry0 [], validLine_none_iff.mp (by decide +kernel),
      fun h => absurd (fillingHolds_iff.mpr h) (by decide +kernel)⟩,
    ⟨filled (List.replicate 16 other), nowhere_of (by decide +kernel) (by decide +kernel) (by decide +kernel), rfl⟩,
    filled (List.replicate 15 other), nowhere_of (by decide +kernel) (by decide +kernel) (by decide +kernel), rfl⟩

theorem witness_EngineResetDone_ports :
    (∃ s : State, resetting s ∧ s.seg.port = .free ∧ s.seg.silent = false) ∧
    ∃ s : State, resetting s ∧ s.seg.port = .silent ∧ s.seg.silent = true := by
  have ok : ∀ s : State, commitRuns s = false → s.ma.stopped = false → s.ma.service.state ≠ .waiting → resetting (asking [0x70] s) :=
    fun s h1 h2 h3 => ⟨asked_asking rfl (by decide) (fun h => absurd h (by decide)) h2 h3, h1⟩
  exact ⟨⟨_, ok live rfl rfl (by decide), rfl, rfl⟩,
    _, ok { live with seg := { live.seg with port := .silent, silent := true } } rfl rfl (by decide), rfl, rfl⟩

/-- The two origins in the given states, each with a request, and the pointer as given. -/
def origins (x y : OriginState) (p : Origin) : State :=
  { live with ma := { live.ma with
    trunk := ⟨x, some ⟨[0x20, 3, 1], 0x55, 9⟩, none⟩, service := ⟨y, some ⟨[0x50], 0x56, 9⟩, none⟩, pointer := p } }

theorem witness_BadRequestAnswered_service :
    (∃ s : State, s.ma.stopped = false ∧ s.ma.trunk.state = .waiting ∧ s.ma.service.state = .waiting ∧ s.ma.pointer = .trunk) ∧
    (∃ s : State, s.ma.stopped = false ∧ s.ma.trunk.state = .waiting ∧ s.ma.service.state = .waiting ∧ s.ma.pointer = .service) ∧
    (∃ s : State, s.ma.stopped = false ∧ s.ma.trunk.state = .waiting ∧ s.ma.service.state ≠ .waiting ∧ s.ma.pointer = .service) ∧
    (∃ s : State, s.ma.stopped = false ∧ s.ma.trunk.state ≠ .waiting ∧ s.ma.service.state = .waiting ∧ s.ma.pointer = .trunk) ∧
    (∃ s : State, s.ma.stopped = false ∧ s.ma.trunk.state ≠ .waiting ∧ s.ma.service.state ≠ .waiting ∧ nextRequest s = none) ∧
    (∃ (s t : State) (q : Request) (b : Byte) (a : List Byte), nextRequest s = some (.service, q) ∧ q.payload = b :: a ∧
      ReqCode.ofByte b = some .readAttn ∧ exec (Safety.rowOf .readAttn) s = .next t) ∧
    (∃ (s : State) (q : Request), nextRequest s = some (.trunk, q) ∧ ∀ b a, q.payload = b :: a → ReqCode.ofByte b ≠ some .readAttn) ∧
    ∃ (s : State) (q : Request) (b : Byte) (a : List Byte), nextRequest s = some (.trunk, q) ∧ q.payload = b :: a ∧
      ReqCode.ofByte b = some .permit :=
  ⟨⟨origins .waiting .waiting .trunk, rfl, rfl, rfl, rfl⟩, ⟨origins .waiting .waiting .service, rfl, rfl, rfl, rfl⟩,
    ⟨origins .waiting .running .service, rfl, rfl, by decide, rfl⟩, ⟨origins .idle .waiting .trunk, rfl, by decide, rfl, rfl⟩,
    ⟨origins .replying .idle .trunk, rfl, by decide, by decide, rfl⟩,
    ⟨origins .waiting .waiting .service, _, _, 0x50, [], rfl, rfl, rfl, rfl⟩,
    ⟨origins .waiting .waiting .trunk, _, rfl, fun b a h => by cases h; decide⟩,
    origins .waiting .idle .service, _, 0x20, [3, 1], rfl, rfl, rfl⟩

/-! ## Hypotheses met, clause by clause: cache and requesters -/

theorem witness_GrantsMade_cache :
    (∃ (s : State) (x : Session), s.seg.port = .free ∧ s.seg.debt < s.tables.settings.debtLimit ∧ firstIn s ∧ s.slots[0].session = some x ∧
      s.slots[0].state = .loading ∧ (s.tables.cat[x.img]).supply x.cursor = .fill) ∧
    ∃ (s : State) (x : Session), s.seg.port = .free ∧ s.seg.debt < s.tables.settings.debtLimit ∧ firstIn s ∧ s.slots[0].session = some x ∧
      s.slots[0].state = .loading ∧ (s.tables.cat[x.img]).supply x.cursor ≠ .fill ∧ s.bc.lines[95] = .valid x.img x.cursor false [] ∧
      ∀ m : LineId, m < 95 → ∀ q c, s.bc.lines[m] ≠ .valid x.img x.cursor q c := by
  unfold firstIn
  exact ⟨⟨restoring .loading { restore with cursor := 1, inFlight := [0] }, { restore with cursor := 1, inFlight := [0] }, by decide +kernel⟩,
    withSlot { slotIn .loading with session := some restore } (loaded 0), restore, by decide +kernel, by decide +kernel, by decide +kernel,
    by decide +kernel, by decide +kernel, by decide +kernel, by decide +kernel, loaded_lowest⟩

/-- Slots 0 and 3 have asked for block 0 of entry 0, queued, and for the fill in flight. -/
def requesting (x : SlotStatus) : State :=
  withReader (.fill ⟨0, 1, 0, 7, [0, 3], false, false, false, false⟩)
    { live with slots := live.slots.set 0 x, bc := { live.bc with fills := [⟨0, 0, [0, 3], false, false, 0, none⟩, other] } }

/-- Slot 0 is a requester of a queued fill and of the fill in flight. -/
def isAsking (s : State) : Prop := (∃ e ∈ s.bc.fills, (0 : SlotId) ∈ e.reqs) ∧ ∃ f, s.reader = .fill f ∧ (0 : SlotId) ∈ f.reqs

theorem asking_requesting (x : SlotStatus) : isAsking (requesting x) :=
  ⟨⟨_, .head _, by decide⟩, _, rfl, by decide⟩

theorem witness_Withdrawals :
    (∃ s : State, isAsking s ∧ s.slots[0].cls = some 0 ∧ s.slots[0].session.isSome = true) ∧
    (∃ s : State, s.slots[0].cls = some 0 ∧ s.slots[0].session = none ∧ ∃ e ∈ s.bc.fills, (3 : SlotId) ∈ e.reqs) ∧
    (∃ (s : State) (x : Session), isAsking s ∧ s.slots[0].state.restoring = true ∧ s.slots[0].session = some x) ∧
    ∃ (s : State) (x : Session) (t m : Nat), isAsking s ∧ acked s x 0 1 255 255 t m ∧ t < x.cursor ∧ m = 0xFFFF ∧ t + 1 = x.length :=
  ⟨⟨requesting { slotIn .loading with session := some restore }, asking_requesting _, rfl, rfl⟩,
    ⟨requesting (slotIn .absent), rfl, rfl, _, .head _, by decide⟩,
    ⟨requesting { slotIn .loading with session := some restore }, restore, asking_requesting _, rfl, rfl⟩,
    requesting { slotIn .loading with session := some { restore with cursor := 2, through := some 0, inFlight := [1] } },
    { restore with cursor := 2, through := some 0, inFlight := [1] }, _, _, asking_requesting _,
    ⟨by decide +kernel, by decide +kernel, rfl, rfl⟩, by decide⟩

theorem witness_StatusJudged_reboot :
    (∃ (s : State) (p : List Byte) (x : Byte), 6 ≤ p.length ∧ s.lm.line = .up ∧ s.slots[0].state = .absent ∧
      s.slots[0].reboot = some .reload ∧ (s.tables.slots[0]).expClass = some x ∧ x ≠ p.getD 0 0) ∧
    ∃ (s : State) (p : List Byte), returning p s ∧ s.slots[0].reboot = some .reload ∧ (s.tables.slots[0]).override = none ∧
      (s.tables.classes[0]).selector = none := by
  unfold returning
  exact ⟨⟨withSlot { slotIn .absent with reboot := some .reload }
      (configured { SlotEntry.factory 0 with expClass := some 1 } ClassEntry.factory (live.tables.cat[0]) live), [0, 0, 0, 0, 0, 0], 1,
      by decide +kernel⟩,
    withSlot { slotIn .absent with reboot := some .reload }
      (configured (SlotEntry.factory 0) ClassEntry.factory (live.tables.cat[0]) live), [255, 0, 0, 0, 0, 0], by decide +kernel⟩

/-! ## Hypotheses met, clause by clause: ports and rules -/

theorem witness_FrameNotTaken_frame :
    (∃ (bytes : List Byte) (f : Frame) (n : Nat → Nat) (len : Nat), (∀ j, n j = (bytes.getD j 0).toNat) ∧ len = n 4 ∧ len = 0 ∧
      parseFrame bytes = some f) ∧
    ∃ (bytes : List Byte) (n : Nat → Nat) (len : Nat), (∀ j, n j = (bytes.getD j 0).toNat) ∧ len = n 4 ∧ len = 241 ∧
      bytes.length = len + 7 ∧ parseFrame bytes = none :=
  ⟨⟨wire 0xFF 0x40 .mgmtReply [], ⟨0xFF, 0x40, .mgmtReply, 3, []⟩, _, _, fun _ => rfl, rfl, by decide +kernel, by decide +kernel⟩,
    [1, 0x40, 1, 3, 241] ++ List.replicate 243 0, _, _, fun _ => rfl, rfl, by decide +kernel, by decide +kernel, by decide +kernel⟩

/-- The last forwarding rule forwards all DATA of one direction without hold. -/
def passing (d : Direction) (s : State) : State :=
  { s with tables := { s.tables with
    fwd := s.tables.fwd.set 47 { FwdRule.factory with
      enable := true, dir := d, dstLow := 1, dstHigh := 0xFF, srcLow := 0, srcHigh := 0xFF, action := .forwardNoHold } } }

/-- The condition under which a rule matches, as the statement names it. -/
def covers (d : Direction) (kind : RuleKind) (f : Frame) (r : FwdRule) : Prop :=
  r.enable = true ∧ r.dir = d ∧ r.kind = kind ∧ r.dstLow.toNat ≤ f.dst.toNat ∧ f.dst.toNat ≤ r.dstHigh.toNat ∧
    r.srcLow.toNat ≤ f.src.toNat ∧ f.src.toNat ≤ r.srcHigh.toNat ∧
    (f.payload = [] ∧ r.typeMask = 0 ∨ ∃ b bs, f.payload = b :: bs ∧ b &&& r.typeMask = r.typeValue &&& r.typeMask)

theorem witness_StationFrameForwarded_rules :
    (∃ s : State, arriving 1 .forwardNoHold s ∧ s.lm.line = .up ∧ alone s ∧ s.slots[0].state = .running ∧ s.queues.out.length < 32) ∧
    (∃ s : State, arriving 9 .forwardNoHold s ∧ s.lm.line = .dip ∧
      (∀ k : SlotId, s.tables.slots[k].enabled = true → s.tables.slots[k].addr ≠ 9) ∧ s.queues.out.length < 32) ∧
    (∃ s : State, covers .down .data ⟨1, 0x40, .data, 3, []⟩ s.tables.fwd[47] ∧
      ∀ m : Fin 48, m < 47 → ¬ covers .down .data ⟨1, 0x40, .data, 3, []⟩ s.tables.fwd[m]) ∧
    (∃ s : State, ∀ m : Fin 48, ¬ covers .up .status ⟨1, 0x40, .status, 3, [9]⟩ s.tables.fwd[m]) ∧
    ∃ s : State, s.slots[0].state = .running ∧ lookup .up .data ⟨0xE0, 1, .data, 3, [9]⟩ s = (.forwardNoHold, false) := by
  unfold arriving alone
  have off : ∀ m : Fin 48, m < 47 → ((passing .down live).tables.fwd[m]).enable = false := by decide +kernel
  have none : ∀ m : Fin 48, (live.tables.fwd[m]).enable = false := by decide +kernel
  refine ⟨⟨passing .down (crowded 9 (withSlot (slotIn .running) live)), by decide +kernel⟩,
    ⟨passing .down (withLine .dip (crowded 9 live)), by decide +kernel⟩, ⟨passing .down live, ?_, fun m h hc => ?_⟩,
    ⟨live, fun m hc => ?_⟩, passing .up (withSlot (slotIn .running) live), by decide +kernel⟩
  · unfold covers
    exact ⟨by decide +kernel, by decide +kernel, by decide +kernel, by decide +kernel, by decide +kernel, by decide +kernel,
      by decide +kernel, .inl (by decide +kernel)⟩
  · exact Bool.noConfusion ((off m h).symm.trans hc.1)
  · exact Bool.noConfusion ((none m).symm.trans hc.1)

theorem witness_CaptureStored_unmatched :
    (∃ (f : Frame) (r : CapRule), r.covers .dataDown f = false ∧ r.enable = true ∧ r.source = .dataDown ∧ f.payload ≠ []) ∧
    ∃ (f : Frame) (r : CapRule), f.payload = [] ∧ r.covers .dataDown f = true :=
  ⟨⟨⟨1, 0x40, .data, 3, [8, 5, 6]⟩, taking, by decide +kernel⟩, ⟨1, 0x40, .data, 3, []⟩, { taking with typeMask := 0 }, by decide +kernel⟩

/-! ## Hypotheses met, clause by clause: built replies and record writes -/

/-- A reply of an origin with its queue full, behind it one of another that has room. -/
def waiting (o : Origin) (busy : Bool) : State :=
  match o with
  | .trunk => serviced 4 { kept .service true (crowded 1 live) with
      ma := { live.ma with replies := (kept .service true live).ma.replies ++ (kept .trunk busy live).ma.replies } }
  | .service => trunked 48 { kept .trunk true (crowded 1 live) with
      ma := { live.ma with replies := (kept .trunk true live).ma.replies ++ (kept .service busy live).ma.replies } }

theorem witness_RepliesPlaced_waiting :
    (∃ (s : State) (q : Request), (s.ma.origin .trunk).req = some q ∧ freeBufs s = []) ∧
    (∃ (s : State) (q : Request), (s.ma.origin .service).req = some q ∧ freeBufs s = []) ∧
    (∃ (s : State) (q : Request), (s.ma.origin .trunk).req = some q ∧ freeBufs s ≠ [] ∧ (∀ y ∈ s.ma.replies, ¬ HasRoom y.origin s) ∧
      ¬ HasRoom .trunk s) ∧
    (∃ (s : State) (q : Request), (s.ma.origin .service).req = some q ∧ freeBufs s ≠ [] ∧ (∀ y ∈ s.ma.replies, ¬ HasRoom y.origin s) ∧
      ¬ HasRoom .service s) ∧
    (∃ s : State, freeBufs s ≠ [] ∧ s.ma.replies ≠ [] ∧ (∀ y ∈ s.ma.replies, ¬ HasRoom y.origin s) ∧ HasRoom .trunk s) ∧
    (∃ s : State, freeBufs s ≠ [] ∧ s.ma.replies ≠ [] ∧ (∀ y ∈ s.ma.replies, ¬ HasRoom y.origin s) ∧ HasRoom .service s) ∧
    (∃ s : State, freeBufs s ≠ [] ∧ ∃ y ∈ s.ma.replies, HasRoom y.origin s) ∧
    ∀ (o : Origin) (busy : Bool), ∃ (s : State) (x r : BuiltReply), s.ma.replies = [x] ++ r :: [] ∧ r.origin = o ∧ r.busy = busy ∧
      (∀ y ∈ [x], ¬ HasRoom y.origin s) ∧ HasRoom r.origin s ∧ freeBufs s ≠ [] := by
  unfold HasRoom
  exact ⟨⟨crowded 0 (occupied live), _, rfl, by decide +kernel⟩, ⟨crowded 0 (occupied live), _, rfl, by decide +kernel⟩,
    ⟨trunked 48 (occupied (crowded 1 live)), _, rfl, by decide +kernel⟩, ⟨serviced 4 (occupied (crowded 1 live)), _, rfl, by decide +kernel⟩,
    ⟨serviced 4 (kept .service false (crowded 1 live)), by decide +kernel⟩, ⟨trunked 48 (kept .trunk false (crowded 1 live)), by decide +kernel⟩,
    ⟨kept .trunk true (crowded 1 live), by decide +kernel⟩,
    fun o busy => ⟨waiting o busy, by cases o <;> cases busy <;> exact ⟨_, _, rfl, rfl, rfl, by decide +kernel⟩⟩⟩

theorem witness_RequestTaken_waiting :
    (∃ s : State, pressing s ∧ s.ma.replies ≠ [] ∧ (∀ r ∈ s.ma.replies, ¬ HasRoom r.origin s) ∧ HasRoom .trunk s) ∧
    (∃ s : State, pressing s ∧ s.ma.replies ≠ [] ∧ (∀ r ∈ s.ma.replies, ¬ HasRoom r.origin s) ∧ HasRoom .service s) ∧
    ∃ s : State, pressing s ∧ s.ma.replies ≠ [] ∧ (∀ r ∈ s.ma.replies, ¬ HasRoom r.origin s) ∧ ¬ HasRoom .trunk s ∧ ¬ HasRoom .service s := by
  unfold pressing HasRoom
  exact ⟨⟨serviced 4 (kept .service false (occupied (crowded 9 live))), by decide +kernel⟩,
    ⟨trunked 48 (kept .trunk false (occupied (crowded 9 live))), by decide +kernel⟩,
    trunked 48 { serviced 4 (kept .trunk false (occupied (crowded 9 live))) with
      queues := { (serviced 4 live).queues with trunk := List.replicate 48 ⟨63, false⟩ } }, by decide +kernel⟩

theorem witness_FlashWritesEnd_judged :
    (∃ (s : State) (back : Disturb), s.reader = .program 0 (List.replicate 128 0) ∧
      s.ma.long = some ⟨.trunk, .program 0 (List.replicate 128 0) true true⟩ ∧ (∃ j, j < 130 ∧ back.getD j 0 ≠ 0) ∧
      ∀ j, j < 130 → s.flash.read (recordAddr 0 + j) ^^^ ([] : Disturb).getD j 0 = 0xFF) ∧
    (∃ (s : State) (blank : Disturb), s.reader = .program 0 (List.replicate 128 0) ∧
      s.ma.long = some ⟨.service, .program 0 (List.replicate 128 0) true false⟩ ∧
      ∃ j, j < 130 ∧ s.flash.read (recordAddr 0 + j) ^^^ blank.getD j 0 ≠ 0xFF) ∧
    ∃ (s : State) (back : Disturb), Memory.wf s.flash ∧ s.reader = .commit ∧ s.ma.long = some ⟨.service, .commit true⟩ ∧
      ∃ j, j < 2117 ∧ back.getD j 0 ≠ 0 :=
  ⟨⟨withReader (.program 0 (List.replicate 128 0)) (withLong (.program 0 (List.replicate 128 0) true true) live), [1], rfl, rfl,
      ⟨0, by decide⟩, fun j _ => by
        rw [show ([] : Disturb).getD j 0 = 0 from by simp]; exact BitVec.xor_zero⟩,
    ⟨withReader (.program 0 (List.replicate 128 0)) (withOther (.program 0 (List.replicate 128 0) true false) live), [1], rfl, rfl, 0,
      by decide +kernel⟩,
    withReader .commit (withOther (.commit true) live), [1], by decide +kernel, rfl, rfl, 0, by decide⟩

/-! ## Entries field by field, the store, a PIN over blocks in every place, and the pool at an engine reset -/

/-- Entries in the bytes of 11.6, with neighbouring fields told apart (R198). -/
theorem witness_EntriesReadBack_fields :
    Settings.decode [0xE1, 2, 1, 0, 5, 6, 70, 8, 9, 3, 4, 1, 33] = some ⟨0xE1, 2, .drop, .forward, 5, 6, 70, 8, 9, 3, 4, 1, 33⟩ ∧
    (ClassEntry.decode ([3, 5, 2, 1, 7, 1, 0, 1] ++ (List.range 16).map (fun f => byte (f % 8)))).map
      (fun e => ({ e with layout := Vector.replicate 16 0 }, e.layout[3])) =
        some (⟨3, some 5, .report, 1, 7, .clear, false, true, Vector.replicate 16 0⟩, 3) ∧
    SlotEntry.decode [1, 9, 0, 7, 0xFF, 2, 0x12, 0x34] = some ⟨true, 9, some 7, none, some 2, 0x1234⟩ ∧
    (CatEntry.decode ([1, 1, 2, 3, 4, 0, 9, 5, 6, 7, 8, 9, 10, 11, 12, 13, 14, 15] ++ [1, 0, 1, 0, 2, 0, 0, 1, 0] ++ List.replicate 27 0)) =
      some ⟨true, 0x01020304, 9, 0x05060708, 0x090A0B0C, 13, 0x0E0F,
        #v[⟨true, 1, 2, 256⟩, ⟨false, 0, 0, 0⟩, ⟨false, 0, 0, 0⟩, ⟨false, 0, 0, 0⟩]⟩ ∧
    FwdRule.decode [1, 1, 0, 2, 3, 4, 5, 6, 7, 1, 0] = some ⟨true, .up, .data, 2, 3, 4, 5, 6, 7, .forwardNoHold, false⟩ ∧
    CapRule.decode [1, 1, 2, 3, 4, 5, 6, 1] = some ⟨true, .dataUp, 2, 3, 4, 5, 6, .all⟩ := by decide +kernel

/-- A store of written tables has the length and the identifier of a good one, an erased sector 0 has no good store (R177, R179). -/
theorem witness_StoreReadsBack_conditions :
    (∃ b : List Byte, 2117 ≤ b.length ∧ b.take 4 = [0x43, 0x52, 0x42, 0x32] ∧ b = live.tables.store) ∧
      ∃ b : List Byte, 2117 ≤ b.length ∧ readStore b = none :=
  ⟨⟨_, Nat.le_of_eq (Tables.store_length _).symm, rfl, rfl⟩, List.replicate 2117 0xFF, Nat.le_of_eq List.length_replicate.symm,
    if_neg (fun h => absurd h.1 (by decide))⟩

/-- The state of worked example 4.9 before its PIN: blocks 0 to 2 of entry 5 in unpinned VALID lines, block 3 in flight on a prefetch
fill, 52 pinned lines and 13 queued fills of entry 1. -/
def example49 : State :=
  { live with
    tables := { live.tables with cat := live.tables.cat.set 5 { CatEntry.factory with
      valid := true, length := 300, windows := CatEntry.factory.windows.set 0 ⟨true, 0, 199, 0⟩ } }
    reader := .fill ⟨55, 5, 3, 3, [], false, true, false, false⟩
    bc := { live.bc with
      lines := ⟨⟨(List.range 96).map (fun l => if l < 52 then Line.valid 1 l true []
        else if l < 55 then .valid 5 (l - 52) false [] else if l = 55 then .filling 5 3 false else .empty)⟩, by simp⟩
      fills := (List.range 13).map (fun j => ⟨1, 100 + j, [0], false, false, 1, none⟩) } }

/-- The PIN's arguments in worked example 4.9: entry 5, blocks 0 to 9. -/
def pin49 : List Byte := [5, 0, 0, 0, 9]

theorem witness_PinRequested_places :
    ∃ s : State, Asked .pin .trunk pin49 s ∧ pinRange pin49 = some (5, 0, 9) ∧ (s.tables.cat[5]).valid = true ∧
      (s.catSt[5]).bad = false ∧ pinCounted 5 0 9 s = List.range 10 ∧ pinnedCount s + s.bc.reservation + 10 ≤ 64 :=
  ⟨asking (0x30 :: pin49) example49, asked_asking rfl (by decide) (fun _ => rfl) rfl (by decide), by decide +kernel⟩

/-- What worked example 4.9 has after that PIN: 55 lines pinned, 7 reserved, 16 queued, block 3 with pin-on-complete, 7, 8, 9 waiting. -/
theorem test_pin_worked_example :
    (match exec .pin (asking (0x30 :: pin49) example49) with
      | .next t => some (pinnedCount t, t.bc.reservation, t.bc.fills.length, inFlightPinned 5 3 3 t, pinWaiting t)
      | _ => none) = some (55, 7, 16, true, [7, 8, 9]) := by decide +kernel

/-- `carrying` with three trunk entries: DATA in buffer 2 under transmission, DATA in buffer 3, a MGMT-REPLY in buffer 4. -/
def loadedTrunk : State :=
  { carrying with
    pool := ((carrying.pool.set 2 ⟨some ⟨0x40, 1, .data, 3, []⟩, 1⟩).set 3 ⟨some ⟨0x40, 1, .data, 4, []⟩, 1⟩).set 4
      ⟨some ⟨0x55, 0xE0, .mgmtReply, 5, [0, 0, 0]⟩, 1⟩
    queues := { carrying.queues with trunk := [⟨2, false⟩, ⟨3, false⟩, ⟨4, false⟩] } }

theorem loadedTrunk_pool : PoolLaw loadedTrunk := by unfold PoolLaw; decide +kernel

theorem witness_EngineResetDone_pool :
    ∃ s : State, resetting s ∧ PoolLaw s ∧ s.queues.out ≠ [] ∧ s.queues.hold[0] ≠ [] ∧ s.queues.trunk.length = 3 :=
  ⟨asking [0x70] loadedTrunk, ⟨asked_asking rfl (by decide) (fun h => absurd h (by decide)) rfl (by decide), rfl⟩, loadedTrunk_pool,
    by decide, by decide, rfl⟩

/-- The buffers in use after that reset are those of the entry under transmission and of the MGMT-REPLY (R133). -/
theorem test_engine_reset_pool :
    (List.finRange 64).filter (fun b => (engineReset loadedTrunk).pool[b].frame.isSome) = [2, 4] := by decide +kernel

end Sys2Proof.Tests
end

section
/-! PROOFS. The attention unit: where a report goes (R184), what READ-ATTN and CLEAR-ATTN do (R186, R187), and ATTN after the event (R183). -/

namespace Sys2Proof.Machine

open Sys2Proof.Safety

/-! ## Where a report goes (R184) -/

theorem AttnEntry.isOf_iff {c : AttnCause} {j : Subject} {e : AttnEntry} : e.isOf c j = true ↔ e.cause = c ∧ e.subject = j := by
  simp [AttnEntry.isOf]

/-- Coalescing leaves the entries of another cause or subject. -/
theorem coalesce_others {c : AttnCause} {j : Subject} {l : List AttnEntry} (h : ∀ e ∈ l, ¬ (e.cause = c ∧ e.subject = j))
    (g : AttnEntry → AttnEntry) : l.map (fun e => if e.isOf c j then g e else e) = l :=
  (List.map_congr_left fun e he => if_neg fun hi => h e he (AttnEntry.isOf_iff.1 hi)).trans (List.map_id l)

/-- A report whose cause and subject one entry has coalesces with that entry, in its place. -/
theorem report_coalesces {c : AttnCause} {j : Subject} (d : Option Cause) {u : Attention} {before after : List AttnEntry}
    {e : AttnEntry} (hl : u.list = before ++ e :: after) (he : e.cause = c ∧ e.subject = j)
    (hb : ∀ f ∈ before, ¬ (f.cause = c ∧ f.subject = j)) (ha : ∀ f ∈ after, ¬ (f.cause = c ∧ f.subject = j)) :
    u.report c j d = { u with list := before ++ { e with count := satAdd 255 e.count, detail := d } :: after } := by
  have hi : e.isOf c j = true := AttnEntry.isOf_iff.2 he
  have hany : u.list.any (AttnEntry.isOf c j) = true := List.any_eq_true.2 ⟨e, by simp [hl], hi⟩
  unfold Attention.report
  rw [if_pos hany, hl, List.map_append, List.map_cons, coalesce_others hb, coalesce_others ha, if_pos hi]

/-- A report whose cause and subject no entry has is entered at the tail, or lost under the overflow flag where the list is full. -/
theorem report_of_absent {c : AttnCause} {j : Subject} (d : Option Cause) {u : Attention}
    (h : ∀ e ∈ u.list, ¬ (e.cause = c ∧ e.subject = j)) :
    u.report c j d = if u.list.length < 32 then { u with list := u.list ++ [⟨c, j, d, 1⟩] } else { u with overflow := true } := by
  have hany : ¬ u.list.any (AttnEntry.isOf c j) = true := fun ha => by
    obtain ⟨e, he, hi⟩ := List.any_eq_true.1 ha
    exact h e he (AttnEntry.isOf_iff.1 hi)
  exact if_neg hany

/-- Settles O56, by the two lemmas on where a report goes: to the one entry of its cause and subject, or, where there is none, to the tail
or under the flag. -/
theorem reportTaken : Obligations.ReportTaken := by
  unfold Obligations.ReportTaken
  intro c j d u
  refine ⟨fun before after e hl hc hj ho => ?coalesced, fun habs hroom => ?entered, fun habs hfull => ?lost⟩
  case coalesced =>
    have hb : ∀ f ∈ before, ¬ (f.cause = c ∧ f.subject = j) := fun f hf => ho f (List.mem_append_left _ hf)
    have ha : ∀ f ∈ after, ¬ (f.cause = c ∧ f.subject = j) := fun f hf => ho f (List.mem_append_right _ hf)
    exact report_coalesces d hl ⟨hc, hj⟩ hb ha
  case entered => rw [report_of_absent d habs, if_pos hroom]
  case lost => rw [report_of_absent d habs, if_neg (Nat.not_lt.2 hfull)]

/-! ## The attention unit after a service (R183) -/

/-- ATTN by the list and the flag (R183). -/
theorem Attention.asserted_eq (a : Attention) : a.asserted = (decide (a.list ≠ []) || a.overflow) := by
  unfold Attention.asserted
  cases a.list <;> simp

/-- The end of a step leaves list and flag and has ATTN follow them (R183). -/
theorem finish_au (s : State) : (finish s).au = ⟨s.au.list, s.au.overflow, s.au.asserted⟩ := by
  unfold finish
  split
  · have hau : (choose s).au = s.au := by simp [of_noChoice (choose_noChoice s)]
    simp [settleOutputs, hau]
  · rfl

/-- An answer leaves the attention unit (R166, R167). -/
theorem answered_au (o : Origin) (st : Status) (data : List Byte) (s : State) : (answered o st data s).au = s.au := by
  have h : (answered o st data s).noReply = s.noReply := by simp [answered]
  simp [of_noReply h]

/-- The attention unit at the end of a step that answers from `s`: list and flag of `s`, and ATTN by them. -/
theorem finish_answered_au (o : Origin) (st : Status) (data : List Byte) (s : State) :
    (finish (answered o st data s)).au = ⟨s.au.list, s.au.overflow, decide (s.au.list ≠ []) || s.au.overflow⟩ := by
  rw [finish_au, answered_au, Attention.asserted_eq]

/-! ## READ-ATTN and CLEAR-ATTN (R186, R187) -/

/-- READ-ATTN on an empty list answers EMPTY with the flag (R186). -/
theorem exec_readAttn_empty {o : Origin} {s : State} (h : Asked .readAttn o [] s) (hl : s.au.list = []) :
    exec .readAttn s = .next (finish (answered o .empty [flagByte s.au.overflow] s)) := by
  show Host.Outcome.next (finish (serveRow .readAttn doReadAttn s)) = _
  rw [serveRow_asked h, doReadAttn, hl]
  rfl

/-- READ-ATTN on a list that holds an entry removes the head and returns it with the flag (R186). -/
theorem exec_readAttn_head {o : Origin} {s : State} {e : AttnEntry} {es : List AttnEntry} (h : Asked .readAttn o [] s)
    (hl : s.au.list = e :: es) :
    exec .readAttn s =
      .next (finish (answered o .ok (e.data ++ [flagByte s.au.overflow]) { s with au := { s.au with list := es } })) := by
  show Host.Outcome.next (finish (serveRow .readAttn doReadAttn s)) = _
  rw [serveRow_asked h, doReadAttn, hl]
  rfl

/-- CLEAR-ATTN empties the list, clears the flag and answers OK (R187). -/
theorem exec_clearAttn {o : Origin} {s : State} (h : Asked .clearAttn o [] s) :
    exec .clearAttn s = .next (finish (answered o .ok [] { s with au := { s.au with list := [], overflow := false } })) := by
  show Host.Outcome.next (finish (serveRow .clearAttn doClearAttn s)) = _
  rw [serveRow_asked h]
  rfl

/-- Settles O57, by what each command comes to and what the end of an answering step leaves of the attention unit. -/
theorem attentionServed : Obligations.AttentionServed := by
  unfold Obligations.AttentionServed
  refine ⟨fun s o h => ⟨fun hl => ?empty, fun e es hl => ?head⟩, fun s o h => ?clear⟩
  case empty =>
    refine ⟨_, exec_readAttn_empty h hl, rfl, ?_⟩
    rw [finish_answered_au, hl]
    simp
  case head => exact ⟨_, exec_readAttn_head h hl, rfl, finish_answered_au ..⟩
  case clear => exact ⟨_, exec_clearAttn h, rfl, finish_answered_au ..⟩

end Sys2Proof.Machine
end

section
/-! PROOFS. What a command can do, said once: it has no effect, or it is an event and the end of the step follows it. The queue of
commands (O1, O2) and the laws that need only this form: the outputs (O11), the silent segment (O12), the flash (O13). -/

namespace Sys2Proof.Machine

open Sys2Proof.Safety

/-! ## The events -/

/-- The work of the row of a request code. -/
def workOf : ReqCode → Origin → List Byte → State → State
  | .readEntry => doReadEntry
  | .readLink => doReadLink
  | .writeEntry => doWriteEntry
  | .writeCond => doWriteCond
  | .readRange => doReadRange
  | .setContext => doSetContext
  | .clearContext => onSlot clearContext
  | .permit => doPermit
  | .reload => onSlot reload
  | .clear => onSlot clearSlot
  | .clearRetries => onSlot clearRetries
  | .pin => doPin
  | .unpin => doUnpin
  | .prefetch => doPrefetch
  | .invalidate => doInvalidate
  | .eraseSector => doEraseSector
  | .writeRecord => doWriteRecord
  | .readAttn => doReadAttn
  | .clearAttn => doClearAttn
  | .commit => doCommit
  | .selfCheck => doSelfCheck
  | .engineReset => doEngineReset
  | .fullReset => doFullReset

/-- The row of a request code serves its work and ends the step. -/
theorem exec_rowOf (c : ReqCode) (s : State) : exec (rowOf c) s = .next (finish (serveRow c (workOf c) s)) := by
  cases c <;> rfl

/-- The frame of a window, or one outside any, judged at its end. -/
def segmentJudged (inWindow : Bool) (s : State) : State :=
  match inWindow, s.seg.turn with
  | true, some t => judgeAnswer t s.ports.segment.staged s
  | _, _ => countBad .segment s

/-- What the end of a segment transmission does by its kind. -/
def txEnded (tx : SegTx) (s : State) : State :=
  match tx with
  | .turn _ => turnSent s
  | .restore _ => leavePort s
  | .reboot _ k => leavePort (updSlot k (fun x => { x with reboot := none }) s)
  | .outbound => leavePort (popOut s)

/-- The miss that an expired answer timer is, unless the turn is void. -/
def windowMissed (s : State) : State :=
  match s.seg.turn with
  | some t => if t.void then s else missTurn t.slot s
  | none => s

/-- A scan read's data taken by the check it was read for, or discarded. -/
def scanTaken (live : Bool) (read : Disturb) (s : State) : State :=
  match live, s.ma.long with
  | true, some ⟨_, .selfCheck c⟩ => scanned read c s
  | _, _ => s

/-- `Event s u`: an event takes the part from `s` to `u`, where the end of the step begins. One constructor per event that has an effect,
with the state in which it occurs. -/
inductive Event (s : State) : State → Prop
  | frame (l : Link) (bytes : List Byte) (h : s.phase = .running) :
      Event s (stage (Link.origin l).port [] (receiveOn l ((stage (Link.origin l).port bytes s).ports.get (Link.origin l).port).staged
        (stage (Link.origin l).port bytes s)))
  | answerBegins (hr : s.phase = .running) (h : s.seg.port = .window) :
      Event s (updSeg (fun g => { g with port := .receiving true, answerTimer := none }) s)
  | strayBegins (hr : s.phase = .running) (h : s.seg.port = .free ∨ s.seg.port = .silent) :
      Event s (updSeg (fun g => { g with port := .receiving false }) s)
  | segmentFrame (w : Bool) (bytes : List Byte) (h : s.seg.port = .receiving w) :
      Event s (leavePort (stage .segment [] (segmentJudged w (stage .segment bytes s))))
  | windowExpires (h : s.seg.port = .window) : Event s (leavePort (windowMissed s))
  | segmentSent (tx : SegTx) (h : s.seg.port = .sending tx) : Event s (txEnded tx (countSent .segment s))
  | trunkSent (e : TxEntry) (es : List TxEntry) (h : s.queues.trunk = e :: es) :
      Event s (sent .trunk e (updQueues (fun q => { q with trunk := es }) s))
  | serviceSent (e : TxEntry) (es : List TxEntry) (h : s.queues.service = e :: es) :
      Event s (sent .service e (updQueues (fun q => { q with service := es }) s))
  | lineFalls (h : s.phase = .running) : Event s (lineFell (setLinePin false s))
  | lineRises (h : s.phase = .running) : Event s (lineRose (setLinePin true s))
  | gap (h : s.lm.line = .dip) : Event s (confirmGap s)
  | lineUp (h : s.lm.line = .settle) : Event s (lineUp (updLm (fun l => { l with line := .up, settle := none }) s))
  | retry (k : SlotId) (h : s.slots[k].retryTimer.isSome = true) :
      Event s (updSlot k (fun x => { x with state := .absent, reboot := some .retry, retryTimer := none }) s)
  | stalled (k : SlotId) (h : s.slots[k].session.any (fun x => x.timer.isSome) = true) : Event s (failSlot k .stalled s)
  | reset : Event s (fullReset s)
  | loaded (left read : Disturb) (h : s.phase = .starting) :
      Event s (startLine { loadTables (readStore (disturb read ((finishCut left s).readRun 0 storeBytes)))
        { s with flash := finishCut left s, cut := none } with phase := .running })
  | readerStarts (h : s.reader = .idle) : Event s (startWork s)
  | fillRead (f : Fill) (bs : List Byte) (h : s.reader = .fill f) : Event s (judgeFill f bs s)
  | erased (kept read : Disturb) (k : Nat) (h : s.reader = .erase k) :
      Event s (flashDone (eraseSector kept read k s.flash).1 (eraseSector kept read k s.flash).2 s)
  | programmed (blank prog back : Disturb) (r : Nat) (d : List Byte) (h : s.reader = .program r d) :
      Event s (flashDone (programRecord blank prog back r d s.flash).1 (programRecord blank prog back r d s.flash).2 s)
  | committed (prog back : Disturb) (h : s.reader = .commit) :
      Event s (flashDone (commitStore prog back s.tables.store s.flash).1 (commitStore prog back s.tables.store s.flash).2 s)
  | scanRead (live : Bool) (read : Disturb) (h : s.reader = .scan live) : Event s (scanTaken live read (idleReader s))
  | replyPlaced : Event s (placeOne s)
  | rangeFrame (l : LongOp) (t a b : Nat) (h : s.ma.long = some l) (hj : l.job = .readRange t a b) :
      Event s (sendRange l.origin t a b s)
  | pinPlaced : Event s (placeWaiting s)
  | row (c : ReqCode) : Event s (serveRow c (workOf c) s)
  | noCode : Event s (refuseRequest s)

/-- How a command comes out: with no effect, with the level of LINE alone (during a full reset and its load), or as an event that the end
of the step follows. -/
inductive Outcome (s : State) : State → Prop
  | none : Outcome s s
  | level (high : Bool) (h : s.phase = .starting) : Outcome s (setLinePin high s)
  | event {u : State} (h : Event s u) : Outcome s (finish u)

theorem Event.outcome {s u : State} (h : Event s u) : ∃ t, (.next (finish u) : Host.Outcome State Fault Refusal) = .next t ∧ Outcome s t :=
  ⟨_, rfl, .event h⟩

theorem noEffect (s : State) : ∃ t, (.next s : Host.Outcome State Fault Refusal) = .next t ∧ Outcome s t := ⟨_, rfl, .none⟩

theorem frameEnds_outcome (l : Link) (bytes : List Byte) (s : State) : ∃ t, frameEnds l bytes s = .next t ∧ Outcome s t := by
  unfold frameEnds
  split
  next h => exact (Event.frame l bytes h).outcome
  next => exact noEffect s

/-- The inversion lemma of `exec`: every command goes on, in one of the three ways. -/
theorem exec_outcome (c : Instr) (s : State) : ∃ t, exec c s = .next t ∧ Outcome s t := by
  cases c with
  | receiveFrame a bytes =>
    cases a with
    | trunk => exact frameEnds_outcome .trunk bytes s
    | service => exact frameEnds_outcome .service bytes s
    | early l => exact noEffect s
  | frameBeginsOnSegment =>
    show ∃ t, execFrameBeginsOnSegment s = .next t ∧ _
    unfold execFrameBeginsOnSegment
    split
    next hr =>
      split
      next h => exact (Event.answerBegins hr h).outcome
      next h => exact (Event.strayBegins hr (.inl h)).outcome
      next h => exact (Event.strayBegins hr (.inr h)).outcome
      next => exact noEffect s
      next => exact noEffect s
    next => exact noEffect s
  | segmentFrameEnd bytes =>
    show ∃ t, execSegmentFrameEnd bytes s = .next t ∧ _
    unfold execSegmentFrameEnd
    split
    next w h => exact (Event.segmentFrame w bytes h).outcome
    all_goals exact noEffect s
  | answerTimerExpiry =>
    show ∃ t, execAnswerTimerExpiry s = .next t ∧ _
    unfold execAnswerTimerExpiry
    split
    next h => exact (Event.windowExpires h).outcome
    next => exact noEffect s
  | segmentTransmissionEnd =>
    show ∃ t, execSegmentTransmissionEnd s = .next t ∧ _
    unfold execSegmentTransmissionEnd
    split
    next tx h => exact (Event.segmentSent tx h).outcome
    all_goals exact noEffect s
  | trunkTransmissionEnd =>
    show ∃ t, execTrunkTransmissionEnd s = .next t ∧ _
    unfold execTrunkTransmissionEnd
    split
    next => exact noEffect s
    next e es h => exact (Event.trunkSent e es h).outcome
  | serviceTransmissionEnd =>
    show ∃ t, execServiceTransmissionEnd s = .next t ∧ _
    unfold execServiceTransmissionEnd
    split
    next => exact noEffect s
    next e es h => exact (Event.serviceSent e es h).outcome
  | lineFalls =>
    show ∃ t, execLineFalls s = .next t ∧ _
    unfold execLineFalls
    split
    next h => exact ⟨_, rfl, .level false h⟩
    next h => exact (Event.lineFalls h).outcome
  | lineRises =>
    show ∃ t, execLineRises s = .next t ∧ _
    unfold execLineRises
    split
    next h => exact ⟨_, rfl, .level true h⟩
    next h => exact (Event.lineRises h).outcome
  | deglitchTimerExpiry =>
    show ∃ t, execDeglitchTimerExpiry s = .next t ∧ _
    unfold execDeglitchTimerExpiry
    split
    next h => exact (Event.gap h).outcome
    all_goals exact noEffect s
  | settleTimerExpiry =>
    show ∃ t, execSettleTimerExpiry s = .next t ∧ _
    unfold execSettleTimerExpiry
    split
    next h => exact (Event.lineUp h).outcome
    all_goals exact noEffect s
  | retryTimerExpiry k =>
    show ∃ t, execRetryTimerExpiry k s = .next t ∧ _
    unfold execRetryTimerExpiry
    split
    next h => exact (Event.retry k h).outcome
    next => exact noEffect s
  | stageTimerExpiry k =>
    show ∃ t, execStageTimerExpiry k s = .next t ∧ _
    unfold execStageTimerExpiry
    split
    next h => exact (Event.stalled k h).outcome
    next => exact noEffect s
  | resetN => exact Event.reset.outcome
  | powerOn => exact Event.reset.outcome
  | startUpLoadDone left read =>
    show ∃ t, execStartUpLoadDone left read s = .next t ∧ _
    unfold execStartUpLoadDone
    split
    next => exact noEffect s
    next h => exact (Event.loaded left read h).outcome
  | flashReaderStart =>
    show ∃ t, execFlashReaderStart s = .next t ∧ _
    unfold execFlashReaderStart
    split
    next h => exact (Event.readerStarts h).outcome
    all_goals exact noEffect s
  | fillReadEnd read =>
    show ∃ t, execFillReadEnd read s = .next t ∧ _
    unfold execFillReadEnd
    split
    next f h => exact (Event.fillRead f _ h).outcome
    all_goals exact noEffect s
  | eraseSectorDone kept read =>
    show ∃ t, execEraseSectorDone kept read s = .next t ∧ _
    unfold execEraseSectorDone
    split
    next k h => exact (Event.erased kept read k h).outcome
    all_goals exact noEffect s
  | writeRecordDone blank prog back =>
    show ∃ t, execWriteRecordDone blank prog back s = .next t ∧ _
    unfold execWriteRecordDone
    split
    next r d h => exact (Event.programmed blank prog back r d h).outcome
    all_goals exact noEffect s
  | commitDone prog back =>
    show ∃ t, execCommitDone prog back s = .next t ∧ _
    unfold execCommitDone
    split
    next h => exact (Event.committed prog back h).outcome
    all_goals exact noEffect s
  | scanReadEnd read =>
    show ∃ t, execScanReadEnd read s = .next t ∧ _
    unfold execScanReadEnd
    split
    next live h => exact (Event.scanRead live read h).outcome
    all_goals exact noEffect s
  | placeWaitingReply => exact Event.replyPlaced.outcome
  | readRangeFrame =>
    show ∃ t, execReadRangeFrame s = .next t ∧ _
    unfold execReadRangeFrame
    split
    next => exact noEffect s
    next l h =>
      split
      next t a b hj => exact (Event.rangeFrame l t a b h hj).outcome
      all_goals exact noEffect s
  | pinWaitingPlace => exact Event.pinPlaced.outcome
  | badRequest => exact Event.noCode.outcome
  | readEntry => exact (Event.row .readEntry).outcome
  | readLink => exact (Event.row .readLink).outcome
  | writeEntry => exact (Event.row .writeEntry).outcome
  | writeCond => exact (Event.row .writeCond).outcome
  | readRange => exact (Event.row .readRange).outcome
  | setContext => exact (Event.row .setContext).outcome
  | clearContext => exact (Event.row .clearContext).outcome
  | permit => exact (Event.row .permit).outcome
  | reload => exact (Event.row .reload).outcome
  | clear => exact (Event.row .clear).outcome
  | clearRetries => exact (Event.row .clearRetries).outcome
  | pin => exact (Event.row .pin).outcome
  | unpin => exact (Event.row .unpin).outcome
  | prefetch => exact (Event.row .prefetch).outcome
  | invalidate => exact (Event.row .invalidate).outcome
  | eraseSector => exact (Event.row .eraseSector).outcome
  | writeRecord => exact (Event.row .writeRecord).outcome
  | readAttn => exact (Event.row .readAttn).outcome
  | clearAttn => exact (Event.row .clearAttn).outcome
  | commit => exact (Event.row .commit).outcome
  | selfCheck => exact (Event.row .selfCheck).outcome
  | engineReset => exact (Event.row .engineReset).outcome
  | fullReset => exact (Event.row .fullReset).outcome

/-- The command of a step comes out in one of the three ways, from the state with the queue's rest. -/
theorem step_outcome {s t : State} (h : step s = .next t) : t = s ∨ ∃ rest, Outcome { s with pending := rest } t := by
  unfold step at h
  split at h
  next => exact .inl (Host.Outcome.next.inj h).symm
  next c rest _ =>
    obtain ⟨u, hu, ho⟩ := exec_outcome c { s with pending := rest }
    rw [hu] at h
    exact .inr ⟨rest, Host.Outcome.next.inj h ▸ ho⟩

/-- A law is kept by every step that reads neither the LINE pin nor the waiting commands, is kept by every event and by the end of a
step. -/
theorem law_of_events {P : State → Prop} (hq : ∀ s rest, P s → P { s with pending := rest }) (hl : ∀ s b, P s → P (setLinePin b s))
    (he : ∀ s u, P s → Event s u → P u) (hf : ∀ s, P s → P (finish s)) (s t : State) (h : P s) (ht : step s = .next t) : P t := by
  rcases step_outcome ht with rfl | ⟨rest, ho⟩
  · exact h
  · cases ho with
    | none => exact hq s rest h
    | level b => exact hl _ b (hq s rest h)
    | event hu => exact hf _ (he _ _ (hq s rest h) hu)

end Sys2Proof.Machine
end

section
/-! PROOFS. The queue of commands (O1, O2), and the laws that the form of an outcome gives: the outputs (O11), the silent segment (O12),
the flash (O13); with the frame of the end of a step (O3) and the values at reset (O6). -/

namespace Sys2Proof.Machine

open Sys2Proof.Safety

/-! ## The end of a step (O3) -/

@[simp] theorem hitBlock_kept (i : ImageId) (b : Nat) (s : State) :
    (hitBlock i b s).bc.lines = s.bc.lines ∧ (hitBlock i b s).bc.reservation = s.bc.reservation := by
  unfold hitBlock
  split
  · exact ⟨rfl, rfl⟩
  · split <;> exact ⟨rfl, rfl⟩

/-- A session's request leaves lines and reservation. -/
theorem request_session_kept (k : SlotId) (i : ImageId) (b : Nat) (s : State) :
    (request (.session k) i b s).bc.lines = s.bc.lines ∧ (request (.session k) i b s).bc.reservation = s.bc.reservation ∧
      (request (.session k) i b s).catSt = s.catSt := by
  have hu : ∀ g, (updFill g s).bc = s.bc ∧ (updFill g s).catSt = s.catSt := fun g => by unfold updFill; split <;> exact ⟨rfl, rfl⟩
  unfold request
  split
  · exact ⟨rfl, rfl, rfl⟩
  · split
    · simp [hu]
    · split
      · exact ⟨rfl, rfl, rfl⟩
      · split <;> exact ⟨rfl, rfl, rfl⟩

theorem requestBlocks_kept (k : SlotId) (s : State) :
    (requestBlocks k s).bc.lines = s.bc.lines ∧ (requestBlocks k s).bc.reservation = s.bc.reservation := by
  have hb : ∀ (t : State) i b, ((requestBlock k i b t).bc.lines, (requestBlock k i b t).bc.reservation) = (t.bc.lines, t.bc.reservation) := by
    intro t i b
    unfold requestBlock
    split
    · rfl
    · simp [request_session_kept]
  have hf : ((requestBlocks k s).bc.lines, (requestBlocks k s).bc.reservation) = (s.bc.lines, s.bc.reservation) := by
    unfold requestBlocks
    split
    · split
      · exact foldl_keeps (fun t => (t.bc.lines, t.bc.reservation)) _ (fun t b => hb t _ b) _ s
      · rfl
    · rfl
  exact ⟨congrArg Prod.fst hf, congrArg Prod.snd hf⟩

theorem chooseTurn_bc (s : State) : (chooseTurn s).bc = s.bc := by
  unfold chooseTurn
  split
  · rfl
  · split <;> rfl

theorem chooseTurn_slots (s : State) : (chooseTurn s).slots = s.slots := by
  unfold chooseTurn
  split
  · rfl
  · split <;> rfl

theorem grant_kept (k : SlotId) (s : State) :
    (grant k s).bc.lines = s.bc.lines ∧ (grant k s).bc.reservation = s.bc.reservation := by
  unfold grant
  split
  · split
    · simp [grantBlock, requestBlocks_kept, updSession, startTx]
    all_goals exact ⟨rfl, rfl⟩
  · unfold grantReboot
    split <;> exact ⟨rfl, rfl⟩

theorem choose_kept (s : State) : (choose s).bc.lines = s.bc.lines ∧ (choose s).bc.reservation = s.bc.reservation := by
  unfold choose
  split
  · simp [grant_kept, addDebt]
  · split
    · exact ⟨rfl, rfl⟩
    · simp [chooseTurn_bc]

theorem finish_lines (s : State) : (finish s).bc.lines = s.bc.lines ∧ (finish s).bc.reservation = s.bc.reservation := by
  unfold finish
  split
  · simp [choose_kept]
  · simp

/-- Two line monitors that agree but for the PERMIT outputs. -/
theorem LineMon.of_rest {a b : LineMon} (hl : a.line = b.line) (hd : a.deglitch = b.deglitch) (hs : a.settle = b.settle)
    (hi : a.dips = b.dips) (hg : a.gaps = b.gaps) (hr : a.requests = b.requests) : { a with permits := b.permits } = b := by
  cases a
  cases b
  simp_all

/-- The end of a step leaves the line monitor but for the PERMIT outputs. -/
theorem finish_lm (s : State) : { (finish s).lm with permits := s.lm.permits } = s.lm := by
  obtain ⟨-, -, -, -, -, -, -, -, -, -, -, -, -, -, hl, hd, hs, hi, hg, hr, -⟩ := finish_frame s
  exact LineMon.of_rest hl hd hs hi hg hr

/-- Two slots with the same rest differ in their session alone. -/
theorem SlotStatus.of_rest {x y : SlotStatus} (h : x.rest = y.rest) : { x with session := y.session } = y := by
  obtain ⟨⟩ := x
  obtain ⟨⟩ := y
  simp_all [SlotStatus.rest]

/-- Settles O3: the frame of `finish`, with what a choice leaves of cache and slots. -/
theorem finishFrame : Obligations.FinishFrame := by
  unfold Obligations.FinishFrame
  intro s
  refine ⟨?_, fun h => ?busy⟩
  · obtain ⟨h1, h2, h3, h4, h5, h6, h7, h8, h9, h10, h11, h12, h13, h14, -, -, -, -, -, -, ha, ho⟩ := finish_frame s
    exact ⟨h1, h2, h3, h4, h5, h6, h7, h8, h13, h14, h9, h10, h11, h12, ha, ho, finish_lm s, (finish_lines s).1, (finish_lines s).2,
      fun k => SlotStatus.of_rest (finish_slot s k)⟩
  case busy =>
    rw [finish_busy h]
    exact ⟨rfl, rfl, rfl⟩

/-! ## The queue of commands (O1, O2) -/

/-- Settles O1, by the definition of a step. -/
theorem stepTakesFront : Obligations.StepTakesFront := by
  unfold Obligations.StepTakesFront
  refine ⟨fun c s rest h => ?front, fun s h => ?idle⟩
  case front => simp only [step, h]
  case idle => simp only [step, h]

/-! ## What the events leave: phase, pins, flash, waiting commands, and the silence of the segment -/

/-- The items that few events change: phase, LINE level, flash, cut operation, waiting commands, and what the silence of the segment reads. -/
def State.outer (s : State) :=
  (s.phase, s.lineHigh, s.flash, s.cut, s.pending, s.seg.silent, s.seg.port, s.lm.line)

theorem outer_of_noEvent {s t : State} (h : t.noEvent = s.noEvent) : t.outer = s.outer := by
  obtain ⟨h1, h2, -, h4, h5, h6, h7, h8⟩ := of_noEvent h
  simp [State.outer, *]

theorem trimEntry_noEvent (k : SlotId) (b : BufId) (s : State) : (trimEntry k b s).noEvent = s.noEvent := by
  unfold trimEntry
  split
  · split <;> simp
  · simp

theorem trimHold_noEvent (h : Nat) (k : SlotId) (s : State) : (trimHold h k s).noEvent = s.noEvent := by
  unfold trimHold
  rw [foldl_keeps State.noEvent _ (fun s b => trimEntry_noEvent k b s)]
  simp

theorem touchClass_noEvent (r : Bool) (k : SlotId) (s : State) : (touchClass r k s).noEvent = s.noEvent := by
  unfold touchClass
  split <;> simp

theorem outdate_noEvent (tag : Word32) (k : SlotId) (s : State) : (outdate tag k s).noEvent = s.noEvent := by
  unfold outdate
  split <;> simp

theorem forFree_noEvent {α : Type} (f : α → State → State) (h : ∀ s a, (f a s).noEvent = s.noEvent) (l : List α) (s : State) :
    (forFree l f s).noEvent = s.noEvent := forFree_keeps State.noEvent f h (fun _ _ => rfl) l s

theorem voidTurn_outer (k : SlotId) (s : State) : (voidTurn k s).outer = s.outer := by
  unfold voidTurn
  split <;> rfl

theorem slotEffects_noEvent (k : SlotId) (old e : SlotEntry) (s : State) : (slotEffects k old e s).noEvent = s.noEvent := by
  unfold slotEffects
  split
  · split
    · simp [freshSlot]
    · split <;> simp
  · split <;> simp [retireSlot]

/-- A write changes the tables, with events of its owner, and voids a turn. -/
theorem writeConfig_outer (t i : Nat) (e : List Byte) (s : State) : (writeConfig t i e s).2.outer = s.outer := by
  unfold writeConfig
  split
  · split
    · exact (outer_of_noEvent (forFree_noEvent _ (fun s k => trimHold_noEvent _ k s) _ _)).trans rfl
    · rfl
  · split
    · unfold setClassEntry
      split
      · rfl
      · exact (outer_of_noEvent (foldl_keeps State.noEvent _ (fun s k => touchClass_noEvent _ k s) _ _)).trans rfl
    · rfl
  · split
    · unfold setSlotEntry
      split
      · rfl
      · split
        · rfl
        · simp only
          split
          · exact (voidTurn_outer _ _).trans ((outer_of_noEvent (slotEffects_noEvent ..)).trans rfl)
          · exact (outer_of_noEvent (slotEffects_noEvent ..)).trans rfl
    · rfl
  · split
    · next i' e' _ _ =>
      unfold setCatEntry
      split
      · rfl
      · simp only
        refine (outer_of_noEvent (restartCheck_noEvent _ _)).trans ?_
        split
        · refine (outer_of_noEvent (forFree_noEvent _ (fun s k => outdate_noEvent _ k s) _ _)).trans ?_
          exact (outer_of_noEvent ((dropImage_noEvent _ _).trans (updCat_noEvent _ _ _))).trans rfl
        · exact (outer_of_noEvent ((dropImage_noEvent _ _).trans (updCat_noEvent _ _ _))).trans rfl
    · rfl
  · split <;> rfl
  · split <;> rfl
  · rfl

theorem carryOut_outer (o : Origin) (t i : Nat) (e : List Byte) (s : State) : (carryOut o t i e s).outer = s.outer := by
  have h := writeConfig_outer t i e s
  unfold carryOut
  split
  · next _ hw =>
    rw [hw] at h
    exact (outer_of_noEvent (reply_noEvent ..)).trans h
  · next _ hw =>
    rw [hw] at h
    exact (outer_of_noEvent (reply_noEvent ..)).trans h

/-- The work of every request but ENGINE-RESET leaves the outer items. -/
theorem workOf_outer (c : ReqCode) (hc : c ≠ .engineReset) (o : Origin) (a : List Byte) (s : State) :
    (workOf c o a s).outer = s.outer := by
  have hr : ∀ st t, (reply o st t).outer = t.outer := fun st t => outer_of_noEvent (reply_noEvent ..)
  have hk : ∀ d t, (replyOk o d t).outer = t.outer := fun d t => outer_of_noEvent (replyOk_noEvent ..)
  have ha : ∀ j t, (accept o j t).outer = t.outer := fun j t => outer_of_noEvent (accept_noEvent ..)
  have hs : ∀ f : Origin → SlotId → State → State, (∀ k, (f o k s).outer = s.outer) → (onSlot f o a s).outer = s.outer := by
    intro f hf
    unfold onSlot
    split
    · exact hf _
    · exact hr _ _
  cases c
  case readEntry => show (doReadEntry o a s).outer = _; unfold doReadEntry; split <;> simp only [hk, hr]
  case readLink =>
    show (doReadLink o a s).outer = _
    unfold doReadLink
    split
    · exact hr _ _
    · split
      · exact (hk _ _).trans (outer_of_noEvent (updOrigin_noEvent ..))
      · exact hr _ _
  case writeEntry =>
    show (doWriteEntry o a s).outer = _
    unfold doWriteEntry
    split
    · exact hr _ _
    · exact carryOut_outer ..
  case writeCond =>
    show (doWriteCond o a s).outer = _
    have hu : ∀ g, (updOrigin o g s).outer = s.outer := fun g => outer_of_noEvent (updOrigin_noEvent ..)
    unfold doWriteCond
    split
    · exact hr _ _
    · simp only
      split
      · exact (carryOut_outer ..).trans (hu _)
      · exact (hr _ _).trans (hu _)
  case readRange =>
    show (doReadRange o a s).outer = _
    unfold doReadRange
    split
    · exact (ha _ _).trans (outer_of_noEvent (updMa_noEvent ..))
    · exact hr _ _
  case setContext =>
    show (doSetContext o a s).outer = _
    unfold doSetContext
    split
    · unfold setContext
      split
      · exact hr _ _
      · split
        · exact hr _ _
        · exact (hr _ _).trans (outer_of_noEvent (storeField_noEvent ..))
    · exact hr _ _
  case clearContext => exact hs _ fun k => (hr _ _).trans (outer_of_noEvent (setCtx_noEvent ..))
  case permit => show (doPermit o a s).outer = _; unfold doPermit; split <;> exact (hr _ _).trans rfl
  case reload => exact hs _ fun k => by unfold reload; split <;> exact (hr _ _).trans rfl
  case clear => exact hs _ fun k => by unfold clearSlot; split <;> exact (hr _ _).trans rfl
  case clearRetries => exact hs _ fun k => (hr _ _).trans rfl
  case pin =>
    show (doPin o a s).outer = _
    unfold doPin
    split
    · unfold startPin
      simp only
      split
      · exact hr _ _
      · split
        · exact hr _ _
        · exact (outer_of_noEvent ((pinDone_noEvent _).trans (pinBlocks_noEvent ..))).trans
            ((outer_of_noEvent (updBc_noEvent ..)).trans (ha _ _))
    · exact hr _ _
  case unpin =>
    show (doUnpin o a s).outer = _
    unfold doUnpin
    split
    · refine (hr _ _).trans ?_
      unfold unpin takeBack
      simp only
      split
      · refine outer_of_noEvent ?_
        split <;> simp
      · rfl
    · exact hr _ _
  case prefetch =>
    show (doPrefetch o a s).outer = _
    unfold doPrefetch
    split
    · refine (hr _ _).trans ?_
      unfold prefetch
      split
      · exact outer_of_noEvent (foldl_keeps State.noEvent _ (fun s b => request_noEvent ..) _ _)
      · rfl
    · exact hr _ _
  case invalidate =>
    show (doInvalidate o a s).outer = _
    unfold doInvalidate
    split
    · split
      · exact hr _ _
      · exact (hr _ _).trans (outer_of_noEvent (dropImage_noEvent ..))
    · exact hr _ _
  case eraseSector =>
    show (doEraseSector o a s).outer = _
    unfold doEraseSector
    split
    · exact hr _ _
    · split
      · exact hr _ _
      · exact ha _ _
  case writeRecord =>
    show (doWriteRecord o a s).outer = _
    unfold doWriteRecord
    simp only
    split
    · exact hr _ _
    · split
      · exact hr _ _
      · exact ha _ _
  case readAttn =>
    show (doReadAttn o a s).outer = _
    unfold doReadAttn
    split
    · exact outer_of_noEvent (finalReply_noEvent ..)
    · exact (hk _ _).trans rfl
  case clearAttn => exact (hr _ _).trans rfl
  case commit => exact ha _ _
  case selfCheck => exact ha _ _
  case engineReset => exact absurd rfl hc
  case fullReset =>
    show (doFullReset o a s).outer = _
    unfold doFullReset
    split
    · exact hr _ _
    · exact (outer_of_noEvent (finalReply_noEvent ..)).trans rfl

/-- The port and the silent flag once a turn is closed: the port as it stood, or, out of WINDOW and FREE, by the flag. -/
theorem closeTurn_outer (s : State) : (closeTurn s).outer = s.outer ∨
    (s.seg.port = .window ∨ s.seg.port = .free) ∧
      (closeTurn s).outer = { s with seg := { s.seg with port := if s.seg.silent then .silent else .free } }.outer := by
  unfold closeTurn
  split
  next h => exact .inl rfl
  next h => exact .inl rfl
  next h => exact .inr ⟨.inl h, rfl⟩
  next h => exact .inr ⟨.inr h, rfl⟩
  next h => exact .inl rfl

/-- The engine reset's closing of the turn stands on the segment of `s`. -/
theorem engineReset_outer (s : State) : (engineReset s).outer = (closeTurn s).outer := by
  have h1 : (engineReset s).outer = (resetSegment (resetCache (resetQueues (resetSlots s)))).outer := by
    refine (outer_of_noEvent ((abortLong_noEvent _).trans (clearLinks_noEvent _))).trans ?_
    rfl
  have h2 : (resetCache (resetQueues (resetSlots s))).seg = s.seg ∧ (resetCache (resetQueues (resetSlots s))).outer = s.outer := by
    have h : (resetCache (resetQueues (resetSlots s))).noEvent = s.noEvent := by simp
    exact ⟨(of_noEvent h).2.2.2.2.2.2.1, outer_of_noEvent h⟩
  rw [h1]
  generalize resetCache (resetQueues (resetSlots s)) = t at h2 ⊢
  obtain ⟨hg, ho⟩ := h2
  simp only [State.outer, Prod.mk.injEq] at ho
  obtain ⟨o1, o2, o3, o4, o5, -, -, o8⟩ := ho
  cases hp : s.seg.port <;>
    simp [resetSegment, closeTurn, leavePort, updSeg, State.outer, *]

/-- A row leaves what its work leaves. -/
theorem serveRow_keeps {β : Type} (m : State → β) (hm : ∀ s t : State, t.noReply = s.noReply → m t = m s) (c : ReqCode)
    (work : Origin → List Byte → State → State) (s : State) (hw : ∀ o a, m (work o a s) = m s) : m (serveRow c work s) = m s := by
  unfold serveRow
  split
  · split
    · unfold serve
      refine (hm _ _ (turnPointer_noReply ..)).trans ?_
      split
      · exact hm _ _ (reply_noReply ..)
      · split
        · exact hm _ _ (reply_noReply ..)
        · exact hw _ _
    · rfl
  · rfl

theorem row_outer (c : ReqCode) (hc : c ≠ .engineReset) (s : State) : (serveRow c (workOf c) s).outer = s.outer :=
  serveRow_keeps State.outer (fun _ _ h => outer_of_noEvent (event_of_reply h)) c _ s fun o a => workOf_outer c hc o a s

theorem refuseRequest_noEvent (s : State) : (refuseRequest s).noEvent = s.noEvent := by
  unfold refuseRequest
  split
  · split <;> simp
  · rfl

/-- The service of ENGINE-RESET leaves the outer items as the closing of the turn does, or as they stand. -/
theorem engineReset_row_outer (s : State) :
    (serveRow .engineReset (workOf .engineReset) s).outer = s.outer ∨
      (serveRow .engineReset (workOf .engineReset) s).outer = (closeTurn s).outer := by
  have hr : ∀ o st t, (turnPointer o (reply o st t)).outer = t.outer := fun o st t => outer_of_noEvent (by simp)
  unfold serveRow
  split
  next o q _ =>
    split
    · unfold serve
      split
      · exact .inl (hr ..)
      · split
        · exact .inl (hr ..)
        · show (turnPointer o (doEngineReset o q.args s)).outer = _ ∨ (turnPointer o (doEngineReset o q.args s)).outer = _
          unfold doEngineReset
          split
          · exact .inl (hr ..)
          · exact .inr ((hr ..).trans (engineReset_outer s))
    · exact .inl rfl
  next => exact .inl rfl

/-- What an event does to the outer items. -/
inductive Shift (s u : State) : Prop
  | none (h : u.outer = s.outer)
  | left (h : u.outer = (leavePort s).outer)
  | port (p : SegPort) (hf : p ≠ .free) (hs : p ≠ .silent) (hx : ∀ x, p ≠ .sending x)
      (h : u.outer = { s with seg := { s.seg with port := p } }.outer)
  | line (l : LineState) (b : Bool) (hr : s.phase = .running) (hl : l.good = s.lm.line.good)
      (h : u.outer = { s with lineHigh := b, lm := { s.lm with line := l } }.outer)
  | gap (h : u.outer = (closeTurn { s with seg := { s.seg with silent := true }, lm := { s.lm with line := .gap } }).outer)
  | lineUp (hs : s.lm.line = .settle) (h : u.outer = { s with
      lm := { s.lm with line := .up }
      seg := { s.seg with silent := false, port := if s.seg.port = SegPort.silent then SegPort.free else s.seg.port } }.outer)
  | reset (v : State) (hv : v.outer = s.outer) (h : u = fullReset v)
  | loaded (m : Memory) (hm : Memory.wf s.flash → Memory.wf m) (hs : s.phase = .starting) (l : LineState) (hl : l.good = false)
      (h : u.outer = { s with phase := .running, flash := m, cut := none, lm := { s.lm with line := l } }.outer)
  | flash (m : Memory) (hm : Memory.wf s.flash → Memory.wf m) (h : u.outer = { s with flash := m }.outer)
  | closed (h : u.outer = (closeTurn s).outer)

theorem leavePort_outer {s t : State} (h : t.outer = s.outer) : (leavePort t).outer = (leavePort s).outer := by
  simp only [State.outer, Prod.mk.injEq] at h
  obtain ⟨h1, h2, h3, h4, h5, h6, h7, h8⟩ := h
  simp [leavePort, State.outer, *]

theorem closeTurn_congr {s t : State} (h : t.outer = s.outer) : (closeTurn t).outer = (closeTurn s).outer := by
  simp only [State.outer, Prod.mk.injEq] at h
  obtain ⟨h1, h2, h3, h4, h5, h6, h7, h8⟩ := h
  cases hp : s.seg.port <;> simp [closeTurn, leavePort, State.outer, *]

theorem sent_shift (p : Port) (e : TxEntry) {s t : State} (h : t.outer = s.outer) : Shift s (sent p e t) := by
  have hn : (countSent p (dropRef e.buf t)).outer = s.outer := (outer_of_noEvent (by simp)).trans h
  unfold sent
  simp only
  split
  · exact .reset _ hn rfl
  · exact .none hn

theorem flashDone_shift (ok : Bool) {m : Memory} {s : State} (hm : Memory.wf s.flash → Memory.wf m) : Shift s (flashDone ok m s) :=
  .flash m hm ((outer_of_noEvent (endLong_noEvent ..)).trans rfl)

theorem scanTaken_noEvent (live : Bool) (read : Disturb) (s : State) : (scanTaken live read s).noEvent = s.noEvent := by
  unfold scanTaken
  split <;> simp

theorem windowMissed_noEvent (s : State) : (windowMissed s).noEvent = s.noEvent := by
  unfold windowMissed
  split
  · split <;> simp
  · rfl

theorem segmentJudged_noEvent (w : Bool) (s : State) : (segmentJudged w s).noEvent = s.noEvent := by
  unfold segmentJudged
  split <;> simp

theorem loadTables_outer (stored : Option Tables) (s : State) : (loadTables stored s).outer = s.outer := by
  unfold loadTables
  split
  · rfl
  · exact (outer_of_noEvent (raise_noEvent ..)).trans rfl

theorem startLine_outer (s : State) :
    (startLine s).outer = { s with lm := { s.lm with line := if s.lineHigh then .settle else .gap } }.outer := by
  unfold startLine
  cases h : s.lineHigh <;> simp [State.outer, h]

theorem clearRequests_outer (s : State) : (clearRequests s).outer = s.outer := rfl

/-- Every event shifts the outer items in one of these ways. -/
theorem Event.shift {s u : State} (h : Event s u) : Shift s u := by
  have hcount : ∀ p, (countSent p s).outer = s.outer := fun p => outer_of_noEvent (countSent_noEvent ..)
  cases h
  case frame l bytes h => exact .none (outer_of_noEvent (by simp))
  case answerBegins hr h => exact .port (.receiving true) (by simp) (by simp) (by simp) rfl
  case strayBegins hr h => exact .port (.receiving false) (by simp) (by simp) (by simp) rfl
  case segmentFrame w bytes h =>
    exact .left (leavePort_outer (outer_of_noEvent (by simp [segmentJudged_noEvent])))
  case windowExpires h => exact .left (leavePort_outer (outer_of_noEvent (windowMissed_noEvent s)))
  case segmentSent tx h =>
    cases tx with
    | turn f =>
      show Shift s (turnSent (countSent .segment s))
      unfold turnSent
      split
      · exact .left (leavePort_outer (hcount _))
      · refine .port .window (by simp) (by simp) (by simp) ?_
        have := hcount .segment
        simp only [State.outer, Prod.mk.injEq] at this
        obtain ⟨h1, h2, h3, h4, h5, h6, -, h8⟩ := this
        simp [openWindow, State.outer, *]
    | restore f => exact .left (leavePort_outer (hcount _))
    | reboot f k => exact .left (leavePort_outer ((outer_of_noEvent (updSlot_noEvent ..)).trans (hcount _)))
    | outbound => exact .left (leavePort_outer ((outer_of_noEvent (popOut_noEvent _)).trans (hcount _)))
  case trunkSent e es h => exact sent_shift .trunk e rfl
  case serviceSent e es h => exact sent_shift .service e rfl
  case lineFalls h =>
    unfold lineFell setLinePin
    split
    next hl => exact .line .dip false h (by simp_all [LineState.good]) rfl
    next hl => exact .line .gap false h (by simp_all [LineState.good]) rfl
    all_goals exact .line s.lm.line false h rfl rfl
  case lineRises h =>
    unfold lineRose setLinePin
    split
    next hl => exact .line .up true h (by simp_all [LineState.good]) rfl
    next hl => exact .line .settle true h (by simp_all [LineState.good]) (startLine_outer _)
    all_goals exact .line s.lm.line true h rfl rfl
  case gap h =>
    have hn := outer_of_noEvent ((flushGap_noEvent _).trans (darkenAll_noEvent (updLm (fun l =>
      { l with line := .gap, deglitch := none, gaps := satAdd 65535 l.gaps }) s)))
    unfold confirmGap silence
    refine .gap ((clearRequests_outer _).trans (closeTurn_congr ?_))
    generalize flushGap _ = v at hn ⊢
    simp only [State.outer, Prod.mk.injEq] at hn
    obtain ⟨h1, h2, h3, h4, h5, h6, h7, h8⟩ := hn
    simp [State.outer, *]
  case lineUp h => exact .lineUp h rfl
  case retry k h => exact .none rfl
  case stalled k h => exact .none (outer_of_noEvent (failSlot_noEvent ..))
  case reset => exact .reset s rfl rfl
  case loaded left read h =>
    have ho := loadTables_outer (readStore (disturb read ((finishCut left s).readRun 0 storeBytes)))
      { s with flash := finishCut left s, cut := none }
    refine .loaded (finishCut left s) (fun hw => finishCut_wf hw left) h (if s.lineHigh then .settle else .gap) (by split <;> rfl) ?_
    rw [startLine_outer]
    generalize loadTables _ _ = v at ho ⊢
    simp only [State.outer, Prod.mk.injEq] at ho
    obtain ⟨h1, h2, h3, h4, h5, h6, h7, h8⟩ := ho
    simp [State.outer, *]
  case readerStarts h => exact .none (outer_of_noEvent (startWork_noEvent s))
  case fillRead f bs h => exact .none (outer_of_noEvent (judgeFill_noEvent ..))
  case erased kept read k h => exact flashDone_shift _ fun hw => eraseSector_wf hw kept read k
  case programmed blank prog back r d h => exact flashDone_shift _ fun hw => programRecord_wf hw blank prog back r d
  case committed prog back h => exact flashDone_shift _ fun hw => commitStore_wf hw prog back _
  case scanRead live read h => exact .none (outer_of_noEvent (by simp [scanTaken_noEvent]))
  case replyPlaced => exact .none (outer_of_noEvent (placeOne_noEvent s))
  case rangeFrame l t a b h hj => exact .none (outer_of_noEvent (sendRange_noEvent ..))
  case pinPlaced => exact .none (outer_of_noEvent (placeWaiting_noEvent s))
  case row c =>
    by_cases hc : c = .engineReset
    · subst hc
      rcases engineReset_row_outer s with h | h
      · exact .none h
      · exact .closed h
    · exact .none (row_outer c hc s)
  case noCode => exact .none (outer_of_noEvent (refuseRequest_noEvent s))

/-- The flash and the waiting commands once a turn is closed: as they stood. -/
theorem closeTurn_keeps (s : State) : (closeTurn s).flash = s.flash ∧ (closeTurn s).pending = s.pending := by
  unfold closeTurn
  split <;> exact ⟨rfl, rfl⟩

theorem Shift.pending {s u : State} (h : Shift s u) : u.pending = s.pending := by
  have hp : ∀ {a b : State}, a.outer = b.outer → a.pending = b.pending := fun h => congrArg (fun x => x.2.2.2.2.1) h
  cases h with
  | none h | left h | port p _ _ _ h | line l b _ _ h | lineUp _ h | loaded m _ _ l _ h | flash m _ h => exact (hp h).trans rfl
  | gap h | closed h => exact (hp h).trans (closeTurn_keeps _).2
  | reset v hv h => exact (congrArg State.pending h).trans (hp (a := v) hv)

/-- Settles O2: a command goes on in one of three ways, and neither an event nor the end of the step touches the queue. -/
theorem everyCommandGoesOn : Obligations.EveryCommandGoesOn := by
  unfold Obligations.EveryCommandGoesOn
  intro c s
  obtain ⟨t, ht, ho⟩ := exec_outcome c s
  refine ⟨t, ht, ?_⟩
  cases ho with
  | none => rfl
  | level => rfl
  | @event u h =>
    obtain ⟨-, -, -, -, -, -, -, -, -, -, -, -, -, hp, -⟩ := finish_frame u
    exact hp.trans h.shift.pending

/-! ## The flash keeps its form (O13) -/

theorem Shift.flashCanonical {s u : State} (hs : FlashCanonical s) (h : Shift s u) : FlashCanonical u := by
  have hf : ∀ {a b : State}, a.outer = b.outer → Memory.wf b.flash → Memory.wf a.flash := fun {a b} h hb => by
    have he : a.flash = b.flash := congrArg (fun x => x.2.2.1) h
    exact he ▸ hb
  cases h with
  | none h | left h | port p _ _ _ h | line l b _ _ h | lineUp _ h => exact hf h hs
  | gap h | closed h => exact hf h ((closeTurn_keeps _).1.symm ▸ hs)
  | loaded m hm _ l _ h | flash m hm h => exact hf h (hm hs)
  | reset v hv h => exact h ▸ hf (a := v) hv hs

/-- Settles O13: only the ends of flash operations write the flash, and they keep its form. -/
theorem flashCanonicalAlways : Obligations.FlashCanonicalAlways := by
  unfold Obligations.FlashCanonicalAlways
  refine law_of_events (fun _ _ h => h) (fun _ _ h => h) (fun s u h hu => hu.shift.flashCanonical h) fun s h => ?_
  obtain ⟨-, -, -, -, -, -, hf, -⟩ := finish_frame s
  show Memory.wf (finish s).flash
  rw [hf]
  exact h

/-! ## The silent segment (O12) -/

theorem startTx_port (x : SegTx) (s : State) : (startTx x s).seg = { s.seg with port := .sending x } := rfl

/-- The segment once a transmission has been chosen: the silent flag stands, and the port is FREE or SENDING. -/
theorem choose_port {s : State} (h : s.seg.port = .free) :
    (choose s).seg.silent = s.seg.silent ∧ ((choose s).seg.port = .free ∨ ∃ x, (choose s).seg.port = .sending x) := by
  have hb : ∀ k (t : State), (requestBlocks k t).seg = t.seg := fun k t => (requestBlocks_rest k t).2.2.2.2
  have hh : ∀ i b (t : State), (hitBlock i b t).seg = t.seg := by
    intro i b t
    unfold hitBlock
    split
    · rfl
    · split <;> rfl
  have hg : ∀ k (t : State), t.seg.port = .free →
      (grant k t).seg.silent = t.seg.silent ∧ ((grant k t).seg.port = .free ∨ ∃ x, (grant k t).seg.port = .sending x) := by
    intro k t ht
    unfold grant
    split
    · split
      · simp [grantBlock, hb, hh, updSession, startTx_port]
      · exact ⟨rfl, .inr ⟨_, rfl⟩⟩
      · exact ⟨rfl, .inr ⟨_, rfl⟩⟩
      all_goals exact ⟨rfl, .inl ht⟩
    · unfold grantReboot
      split
      · exact ⟨rfl, .inr ⟨_, rfl⟩⟩
      · exact ⟨rfl, .inl ht⟩
  unfold choose
  split
  · exact hg _ _ h
  · split
    · exact ⟨rfl, .inr ⟨_, rfl⟩⟩
    · unfold chooseTurn
      split
      · exact ⟨rfl, .inr ⟨_, rfl⟩⟩
      · split
        · exact ⟨rfl, .inr ⟨_, rfl⟩⟩
        · exact ⟨rfl, .inl h⟩

/-- The law of the silent segment reads the outer items alone. -/
theorem segmentSilent_congr {s t : State} (h : SegmentSilent s) (ho : t.outer = s.outer) : SegmentSilent t := by
  simp only [State.outer, Prod.mk.injEq] at ho
  obtain ⟨h1, -, -, -, -, h6, h7, h8⟩ := ho
  unfold SegmentSilent
  rw [h1, h6, h7, h8]
  exact h

theorem segmentSilent_leavePort {s : State} (h : SegmentSilent s) : SegmentSilent (leavePort s) := by
  obtain ⟨h1, h2, h3, h4⟩ := h
  unfold leavePort SegmentSilent
  cases hs : s.seg.silent <;> simp_all

theorem good_eq_false {l : LineState} : l.good = false ↔ l = .gap ∨ l = .settle := by cases l <;> simp [LineState.good]

/-- A closed turn: nothing begins to be sent, and the law needs only its first and last clause. -/
theorem closeTurn_silent {s : State} (hs : s.seg.silent = true ↔ s.lm.line = .gap ∨ s.lm.line = .settle)
    (hp : s.seg.port = .silent → s.seg.silent = true) (hx : s.phase = .starting → s.lm.line = .gap) : SegmentSilent (closeTurn s) := by
  rcases closeTurn_outer s with h | ⟨hw, h⟩
  · by_cases hf : s.seg.port = .free
    · unfold closeTurn
      rw [hf]
      unfold leavePort SegmentSilent
      cases hl : s.seg.silent <;> simp_all
    · exact segmentSilent_congr (s := s) ⟨hs, fun h => absurd h hf, hp, hx⟩ h
  · refine segmentSilent_congr ?_ h
    unfold SegmentSilent
    cases hl : s.seg.silent <;> simp_all

theorem port_of_outer {a b : State} (h : a.outer = b.outer) : a.seg.port = b.seg.port := congrArg (fun x => x.2.2.2.2.2.2.1) h

theorem leavePort_sends {s : State} {x : SegTx} (h : (leavePort s).seg.port = .sending x) : False := by
  unfold leavePort at h
  cases hs : s.seg.silent <;> simp [hs] at h

theorem closeTurn_sends {s : State} {x : SegTx} (h : (closeTurn s).seg.port = .sending x) : s.seg.port = .sending x := by
  rcases closeTurn_outer s with ho | ⟨-, ho⟩
  · exact (port_of_outer ho).symm.trans h
  · have := (port_of_outer ho).symm.trans h
    cases hs : s.seg.silent <;> simp [hs] at this

/-- An event keeps the law, and begins no transmission. -/
theorem Shift.segmentSilent {s u : State} (hs : SegmentSilent s) (h : Shift s u) :
    SegmentSilent u ∧ ∀ x, u.seg.port = .sending x → s.seg.port = .sending x := by
  have hs' := hs
  obtain ⟨h1, h2, h3, h4⟩ := hs
  cases h with
  | none h => exact ⟨segmentSilent_congr hs' h, fun x hx => (port_of_outer h).symm.trans hx⟩
  | left h => exact ⟨segmentSilent_congr (segmentSilent_leavePort hs') h, fun x hx => (leavePort_sends ((port_of_outer h).symm.trans hx)).elim⟩
  | port p hf hp hx h =>
    refine ⟨segmentSilent_congr ?_ h, fun x hu => absurd ((port_of_outer h).symm.trans hu) (hx x)⟩
    exact ⟨h1, fun h => absurd h hf, fun h => absurd h hp, h4⟩
  | line l b hr hl h =>
    refine ⟨segmentSilent_congr ?_ h, fun x hu => (port_of_outer h).symm.trans hu⟩
    refine ⟨?_, h2, h3, fun hx => absurd (hx.symm.trans hr) (by simp)⟩
    show s.seg.silent = true ↔ l = .gap ∨ l = .settle
    rw [← good_eq_false, hl, good_eq_false]
    exact h1
  | gap h =>
    exact ⟨segmentSilent_congr (closeTurn_silent (iff_of_true rfl (.inl rfl)) (fun _ => rfl) fun _ => rfl) h, fun x hu =>
      (closeTurn_sends (s := { s with seg := { s.seg with silent := true }, lm := { s.lm with line := .gap } })
        ((port_of_outer h).symm.trans hu) :)⟩
  | lineUp hl h =>
    have hp : s.phase ≠ .starting := fun hp => absurd ((h4 hp).symm.trans hl) (by simp)
    refine ⟨segmentSilent_congr ?_ h, fun x hu => ?_⟩
    · refine ⟨by simp, by simp, ?_, fun h => absurd h hp⟩
      intro hx
      by_cases hq : s.seg.port = .silent <;> simp [hq] at hx
    · have := (port_of_outer h).symm.trans hu
      by_cases hq : s.seg.port = .silent <;> simp_all
  | reset v hv h =>
    subst h
    exact ⟨⟨by simp [fullReset, State.reset], by simp [fullReset, State.reset], by simp [fullReset, State.reset], fun _ => rfl⟩,
      fun x hx => by simp [fullReset, State.reset] at hx⟩
  | loaded m hm hp l hl h =>
    refine ⟨segmentSilent_congr ?_ h, fun x hu => (port_of_outer h).symm.trans hu⟩
    have hg := good_eq_false.1 hl
    have hs : s.seg.silent = true := h1.2 (.inl (h4 hp))
    exact ⟨iff_of_true hs hg, h2, h3, by simp⟩
  | flash m _ h => exact ⟨segmentSilent_congr (s := { s with flash := m }) hs' h, fun x hu => (port_of_outer h).symm.trans hu⟩
  | closed h =>
    exact ⟨segmentSilent_congr (closeTurn_silent h1 h3 h4) h, fun x hu => closeTurn_sends ((port_of_outer h).symm.trans hu)⟩

/-- The end of a step keeps the law, and begins no transmission while the line is not good. -/
theorem segmentSilent_finish {s : State} (h : SegmentSilent s) : SegmentSilent (finish s) ∧
    ∀ x, s.lm.line = .gap ∨ s.lm.line = .settle → (finish s).seg.port = .sending x → s.seg.port = .sending x := by
  have hf := finish_frame s
  by_cases hp : s.seg.port = .free
  · obtain ⟨h1, h2, h3, h4⟩ := h
    have hseg : (finish s).seg = (choose s).seg := by
      unfold finish
      rw [if_pos hp]
      rfl
    obtain ⟨hs, hc⟩ := choose_port hp
    have hsil := h2 hp
    refine ⟨?_, fun x hl => absurd (h1.2 hl) (by simp [hsil])⟩
    unfold SegmentSilent
    rw [hseg, hs, hf.1, hf.2.2.2.2.2.2.2.2.2.2.2.2.2.2.1]
    refine ⟨h1, fun _ => hsil, fun h => ?_, h4⟩
    rcases hc with hc | ⟨x, hc⟩ <;> rw [hc] at h <;> simp at h
  · rw [finish_busy hp]
    exact ⟨segmentSilent_congr h rfl, fun x _ hx => hx⟩

/-- Settles O12: the law by event and end of step; in GAP and SETTLE neither begins a transmission. -/
theorem segmentSilentAlways : Obligations.SegmentSilentAlways := by
  unfold Obligations.SegmentSilentAlways
  intro s t h ht
  rcases step_outcome ht with rfl | ⟨rest, ho⟩
  · exact ⟨h, fun _ _ hx => hx⟩
  · cases ho with
    | none => exact ⟨h, fun _ _ hx => hx⟩
    | level b => exact ⟨h, fun _ _ hx => hx⟩
    | @event u hu =>
      obtain ⟨hk, hx⟩ := hu.shift.segmentSilent (s := { s with pending := rest }) h
      obtain ⟨hf, hn⟩ := segmentSilent_finish hk
      refine ⟨hf, fun x hl hp => hx x (hn x ?_ hp)⟩
      obtain ⟨-, -, -, -, -, -, -, -, -, -, -, -, -, -, hline, -⟩ := finish_frame u
      exact hline ▸ hl

/-! ## The outputs (O11) -/

theorem mem_slotIds (k : SlotId) : k ∈ slotIds := List.mem_finRange k

theorem mem_groupSlots {g : GroupId} {s : State} {k : SlotId} :
    k ∈ groupSlots g s ↔ s.tables.slots[k].enabled = true ∧ s.tables.slots[k].group = some g := by
  simp [groupSlots, mem_slotIds]

/-- The condition of a PERMIT output in the words of R161. -/
theorem permitHolds_iff {g : GroupId} {s : State} : permitHolds g s = true ↔
    s.lm.requests[g] = true ∧ s.lm.line = .up ∧
      (∃ k : SlotId, s.tables.slots[k].enabled = true ∧ s.tables.slots[k].group = some g) ∧
      ∀ k : SlotId, s.tables.slots[k].enabled = true → s.tables.slots[k].group = some g → s.slots[k].state = .running := by
  have he : (!(groupSlots g s).isEmpty) = true ↔ ∃ k, k ∈ groupSlots g s := by
    rw [Bool.not_eq_true', List.isEmpty_eq_false_iff_exists_mem]
  have ha : (groupSlots g s).all (fun k => decide (s.slots[k].state = .running)) = true ↔
      ∀ k ∈ groupSlots g s, s.slots[k].state = .running := by simp
  unfold permitHolds
  rw [Bool.and_eq_true, Bool.and_eq_true, Bool.and_eq_true, he, ha, decide_eq_true_iff]
  simp only [mem_groupSlots, and_imp, and_assoc]

/-- The end of a step sets every output by its condition. -/
theorem finish_outputsFollow (s : State) : OutputsFollow (finish s) := by
  unfold finish
  generalize (if s.seg.port = .free then choose s else s) = t
  refine ⟨rfl, fun g => ?_⟩
  have hg : (settleOutputs t).lm.permits[g] = permitHolds g t := by simp [settleOutputs]
  rw [hg, permitHolds_iff]
  rfl

/-- Settles O11: an event is followed by the end of its step, and the rest touches no output and no condition. -/
theorem outputsFollowAlways : Obligations.OutputsFollowAlways := by
  unfold Obligations.OutputsFollowAlways
  intro s t h ht
  rcases step_outcome ht with rfl | ⟨rest, ho⟩
  · exact h
  · cases ho with
    | none => exact h
    | level b => exact h
    | event _ => exact finish_outputsFollow _

/-! ## The values at reset (O6) -/

/-- Settles O6, each value by the definition of the reset state and of the factory tables. -/
theorem resetValues : Obligations.ResetValues := by
  unfold Obligations.ResetValues
  have hr : ∀ {α : Type} {n : Nat} (x : α) (i : Fin n), (Vector.replicate n x)[i] = x := fun x i => by simp
  refine ⟨rfl, rfl, rfl, rfl, rfl, fun l => hr .., rfl, rfl, rfl, rfl, rfl, fun k => ⟨hr .., hr .., fun f => ?_⟩, fun i => hr .., fun b => hr ..,
    rfl, rfl, rfl, fun g => ⟨hr .., hr ..⟩, rfl, rfl, rfl, fun c => hr .., fun k => ?_, fun i => hr .., fun r => hr .., fun r => hr ..⟩
  · show ((Vector.replicate 32 CtxRecord.empty)[k])[f] = none
    rw [hr]
    exact hr ..
  · simp [Tables.factory, SlotEntry.factory]

end Sys2Proof.Machine
end

section
/-! PROOFS. One walk over the operations for the laws of links: what a law on attention list, queues, pool, fill queue and turn debt has to
meet (`LinkLaw`), and that every event then keeps it. -/

namespace Sys2Proof.Machine

open Sys2Proof.Safety

/-! ## What a law of links has to meet -/

/-- What the laws of links read. -/
def State.body (s : State) := (s.au.list, s.queues, s.pool, s.bc.fills.length, s.seg.debt)

/-- The entries `bs`, taken out of their queues, are released in order, each with a REFUSE or without one. -/
inductive Flushes : List BufId → State → State → Prop
  | nil (s : State) : Flushes [] s s
  | refuse (r : RefuseReason) {b : BufId} {bs : List BufId} {s t : State} (h : Flushes bs (refuseEntry r b s) t) : Flushes (b :: bs) s t
  | drop {b : BufId} {bs : List BufId} {s t : State} (h : Flushes bs (dropRef b s) t) : Flushes (b :: bs) s t
  | same {bs : List BufId} {s u t : State} (hu : u.body = s.body) (h : Flushes bs u t) : Flushes bs s t

/-- A law of links: `P none` on a state with no buffer in hand, `P (some b)` with the fresh buffer `b` in hand, referenced by no queue yet,
and `Q b` once some entry may reference it. -/
structure LinkLaw (P : Option BufId → State → Prop) (Q : BufId → State → Prop) : Prop where
  congr {h : Option BufId} {s t : State} : P h s → t.au.list = s.au.list → t.queues = s.queues → t.pool = s.pool →
    t.bc.fills.length ≤ max s.bc.fills.length 16 → t.seg.debt ≤ max s.seg.debt 8 → P h t
  raised {h : Option BufId} {s : State} (c : AttnCause) (j : Subject) (d : Option Cause) : P h s → P h (raise c j d s)
  forget {h : Option BufId} {s : State} {l : List AttnEntry} (v : Bool) : P h s → l = [] ∨ l = s.au.list.tail →
    P h { s with au := { s.au with list := l, overflow := v } }
  build {h : Option BufId} {s t : State} {f : Frame} {b : BufId} (o : Origin) (x : Bool) : P h s → alloc f s = some (b, t) → HasRoom o s →
    P h (pushTx o ⟨b, x⟩ t)
  discard {h : Option BufId} {s t : State} {f : Frame} {b : BufId} : P h s → alloc f s = some (b, t) → P h (reclaim b t)
  flush {h : Option BufId} {s t : State} {bs : List BufId} {q : Queues} : P h s →
    (∀ b, references b s.queues = references b q + bs.count b) → q.out.length ≤ max s.queues.out.length 32 →
    q.trunk.length ≤ s.queues.trunk.length → q.service.length ≤ s.queues.service.length → Flushes bs { s with queues := q } t → P h t
  take {s t : State} {f : Frame} {b : BufId} : P none s → alloc f s = some (b, t) → P (some b) t
  pushOut {b : BufId} {s : State} : P (some b) s → s.queues.out.length < 32 → Q b (pushOut b s)
  pushTrunk {b : BufId} {s : State} : P (some b) s → s.queues.trunk.length < 48 → Q b (pushTrunk ⟨b, false⟩ s)
  pushHold {b : BufId} {s : State} (k : SlotId) : P (some b) s ∨ Q b s → Q b (pushHold k b s)
  kept {b : BufId} {s t : State} : Q b s → t.body = s.body → Q b t
  done {b : BufId} {s : State} : P (some b) s ∨ Q b s → P none (reclaim b s)
  reset {s : State} : s.au = State.reset.au → s.queues = State.reset.queues → s.pool = State.reset.pool → s.bc = State.reset.bc →
    s.seg = State.reset.seg → P none s

section Walk

variable {P : Option BufId → State → Prop} {Q : BufId → State → Prop} {h : Option BufId} {s t : State}

namespace LinkLaw

theorem same (L : LinkLaw P Q) (hs : P h s) (ht : t.body = s.body) : P h t := by
  simp only [State.body, Prod.mk.injEq] at ht
  obtain ⟨ha, hq, hp, hf, hd⟩ := ht
  exact L.congr hs ha hq hp (by omega) (by omega)

/-! ## Counters, REFUSE and flushes -/

theorem port (L : LinkLaw P Q) (hs : P h s) (p : Port) (g : PortState → PortState) : P h (updPort p g s) :=
  L.same hs (by simp [State.body])

theorem countOverrun (L : LinkLaw P Q) (hs : P h s) (p : Port) : P h (Machine.countOverrun p s) := L.raised _ _ _ (L.port hs p _)

theorem refuse (L : LinkLaw P Q) (hs : P h s) (r : RefuseReason) (f : Frame) : P h (Machine.refuse r f s) := by
  unfold Machine.refuse
  split
  next => exact hs
  next b t ha =>
    obtain ⟨-, rfl⟩ := alloc_spec ha
    split
    next hl => exact L.build .trunk false hs ha (.inl ⟨rfl, hl⟩)
    next => exact L.countOverrun (L.discard hs ha) _

theorem refuseAll_flushes (r : RefuseReason) (bs : List BufId) (s : State) : Flushes bs s (refuseAll r bs s) := by
  induction bs generalizing s with
  | nil => exact .nil s
  | cons b bs ih => exact .refuse r (ih _)

theorem releaseAll_flushes (bs : List BufId) (s : State) : Flushes bs s (releaseAll bs s) := by
  induction bs generalizing s with
  | nil => exact .nil s
  | cons b bs ih => exact .drop (ih _)

theorem flushHold (L : LinkLaw P Q) (hs : P h s) (k : SlotId) : P h (Machine.flushHold k s) :=
  L.flush (q := { s.queues with hold := s.queues.hold.set k [] }) hs (fun b => references_clear b k s.queues) (by simp) le_rfl le_rfl
    (refuseAll_flushes ..)

/-- A released hold queue is split between the outbound queue and a flush. -/
theorem references_release (b : BufId) (k : SlotId) (n : Nat) (q : Queues) : references b q =
    references b { q with out := q.out ++ q.hold[k].take n, hold := q.hold.set k [] } + (q.hold[k].drop n).count b := by
  have hc := references_clear b k q
  have hsplit : q.hold[k].count b = (q.hold[k].take n).count b + (q.hold[k].drop n).count b := by
    rw [← List.count_append, List.take_append_drop]
  unfold references at hc ⊢
  rw [List.count_append]
  simp only at hc ⊢
  omega

theorem releaseHold (L : LinkLaw P Q) (hs : P h s) (k : SlotId) : P h (Machine.releaseHold k s) := by
  rw [releaseHold_spec]
  refine L.flush hs (fun b => references_release b k _ s.queues) ?_ le_rfl le_rfl (refuseAll_flushes ..)
  rw [List.length_append, List.length_take]
  omega

/-! ## Replies -/

theorem placeOne (L : LinkLaw P Q) (hs : P h s) : P h (Machine.placeOne s) := by
  unfold Machine.placeOne
  split
  next => exact hs
  next r hr =>
    have hroom : HasRoom r.origin s := txRoom_iff.1 (by simpa using List.find?_some hr)
    split
    next => exact hs
    next b t ha =>
      obtain ⟨hb, rfl⟩ := alloc_spec ha
      have hbuild := L.build r.origin r.resets hs ha hroom
      unfold Machine.placed
      simp only
      split
      · refine L.same hbuild ?_
        cases hr : r.origin <;> rfl
      · refine L.same hbuild ?_
        cases hr : r.origin <;> rfl

theorem placeReplies (L : LinkLaw P Q) (n : Nat) (hs : P h s) : P h (Machine.placeReplies n s) := by
  induction n generalizing s with
  | zero => exact hs
  | succ n ih => exact ih (L.placeOne hs)

theorem queueReply (L : LinkLaw P Q) (hs : P h s) (r : BuiltReply) : P h (Machine.queueReply r s) := L.placeReplies _ (L.same hs rfl)

theorem updOrigin (L : LinkLaw P Q) (hs : P h s) (o : Origin) (g : OriginRec → OriginRec) : P h (Machine.updOrigin o g s) :=
  L.same hs rfl

theorem finalReply (L : LinkLaw P Q) (hs : P h s) (o : Origin) (st : Status) (d : List Byte) (x : Bool) :
    P h (Machine.finalReply o st d x s) := by
  unfold Machine.finalReply
  split
  · exact hs
  · exact L.queueReply (L.updOrigin hs _ _) _

theorem endLong (L : LinkLaw P Q) (hs : P h s) (st : Status) (d : List Byte) : P h (Machine.endLong st d s) := by
  unfold Machine.endLong
  split
  · exact hs
  · exact L.finalReply (s := setLong none s) (L.same hs rfl) ..

/-! ## Cache, requests and pins -/

end LinkLaw

/-- A change of cache and reader that lets the fill queue grow up to its places alone. -/
def Grows (s t : State) : Prop := t.noCache = s.noCache ∧ t.bc.fills.length ≤ max s.bc.fills.length 16

theorem Grows.refl (s : State) : Grows s s := ⟨rfl, by omega⟩

theorem Grows.trans {s t u : State} (h : Grows s t) (g : Grows t u) : Grows s u := by
  obtain ⟨h1, h2⟩ := h
  obtain ⟨g1, g2⟩ := g
  exact ⟨g1.trans h1, by omega⟩

theorem Grows.foldl {α : Type} {f : State → α → State} (hf : ∀ s a, Grows s (f s a)) (l : List α) (s : State) : Grows s (l.foldl f s) := by
  induction l generalizing s with
  | nil => exact .refl s
  | cons a l ih => exact (hf s a).trans (ih _)

theorem updFill_bc (g : Fill → Fill) (s : State) : (updFill g s).bc = s.bc := by
  unfold updFill
  split <;> rfl

theorem request_grows (r : Source) (i : ImageId) (b : Nat) (s : State) : Grows s (request r i b s) := by
  refine ⟨request_noCache r i b s, ?_⟩
  have hp : ∀ l, (pinLine l s).bc.fills = s.bc.fills := fun l => by unfold pinLine; split <;> rfl
  unfold request
  split
  · split
    · rw [hp]; omega
    · omega
  · split
    · rw [updFill_bc]; omega
    · split
      · simp
      · split
        · omega
        next hf =>
          simp only [fillsFull_iff, not_le] at hf
          simp only [updBc_bc, List.length_append, List.length_singleton]
          omega

theorem requestBlock_grows (k : SlotId) (i : ImageId) (b : Nat) (s : State) : Grows s (requestBlock k i b s) := by
  unfold requestBlock
  split
  · exact .refl s
  · exact request_grows ..

theorem requestBlocks_grows (k : SlotId) (s : State) : Grows s (requestBlocks k s) := by
  unfold requestBlocks
  split
  · split
    · exact .foldl (fun s b => requestBlock_grows ..) _ s
    · exact .refl s
  · exact .refl s

theorem requestAll_grows (s : State) : Grows s (requestAll s) := .foldl (fun s k => requestBlocks_grows k s) _ s

theorem withdrawSlot_grows (k : SlotId) (s : State) : Grows s (withdrawSlot k s) := by
  refine ⟨withdrawSlot_noCache k s, ?_⟩
  unfold withdrawSlot
  rw [updFill_bc]
  simp

theorem dropFills_grows (i : ImageId) (s : State) : Grows s (dropFills i s) :=
  ⟨dropFills_noCache i s, (List.length_filter_le _ _).trans (by omega)⟩

theorem dropLines_grows (i : ImageId) (s : State) : Grows s (dropLines i s) := ⟨dropLines_noCache i s, by simp [dropLines]⟩

theorem discardFill_grows (i : ImageId) (s : State) : Grows s (discardFill i s) :=
  ⟨discardFill_noCache i s, by rw [(discardFill_bc i s).1]; omega⟩

theorem disownFill_grows (i : ImageId) (s : State) : Grows s (disownFill i s) :=
  ⟨disownFill_noCache i s, by rw [(disownFill_spec i s).1]; omega⟩

theorem clearPinMarks_grows (s : State) : Grows s (clearPinMarks s) := by
  refine ⟨clearPinMarks_noCache s, ?_⟩
  unfold clearPinMarks
  rw [updFill_bc]
  simp

theorem emptyLine_grows (l : LineId) (s : State) : Grows s (emptyLine l s) := ⟨emptyLine_noCache l s, by simp [emptyLine]⟩

theorem hitBlock_grows (i : ImageId) (b : Nat) (s : State) : Grows s (hitBlock i b s) := by
  unfold hitBlock
  split
  · exact .refl s
  · split
    · exact ⟨hit_noCache _ s, by simp [hit]⟩
    · exact .refl s

namespace LinkLaw

theorem grows (L : LinkLaw P Q) (hs : P h s) (hg : Grows s t) : P h t := by
  obtain ⟨-, -, -, -, -, -, -, -, -, hseg, hq, hp, -, -, ha, -⟩ := of_noCache hg.1
  exact L.congr hs (congrArg Attention.list ha) hq hp hg.2 (by rw [hseg]; omega)

theorem setWaiting (L : LinkLaw P Q) (hs : P h s) (w : List Nat) : P h (Machine.setWaiting w s) := by
  unfold Machine.setWaiting
  split
  · exact L.same hs rfl
  · exact hs

theorem pinDone (L : LinkLaw P Q) (hs : P h s) : P h (Machine.pinDone s) := by
  unfold Machine.pinDone
  split
  · exact L.endLong hs ..
  · exact hs

theorem endPin (L : LinkLaw P Q) (hs : P h s) (st : Status) : P h (Machine.endPin st s) := by
  unfold Machine.endPin
  split
  · exact L.endLong (L.grows hs (clearPinMarks_grows s)) ..
  · exact hs

theorem endPinOn (L : LinkLaw P Q) (hs : P h s) (i : ImageId) : P h (Machine.endPinOn i s) := by
  unfold Machine.endPinOn
  split
  · exact L.endPin hs _
  · exact hs

theorem request (L : LinkLaw P Q) (hs : P h s) (r : Source) (i : ImageId) (b : Nat) : P h (Machine.request r i b s) :=
  L.grows hs (request_grows ..)

theorem takeWaiting (L : LinkLaw P Q) (i : ImageId) (bs : List Nat) (hs : P h s) : P h (Machine.takeWaiting i bs s) := by
  induction bs generalizing s with
  | nil => exact L.setWaiting hs _
  | cons b bs ih =>
    unfold Machine.takeWaiting
    split
    · exact L.setWaiting hs _
    · exact ih (L.request hs ..)

theorem pinBlocks (L : LinkLaw P Q) (i : ImageId) (bs : List Nat) (hs : P h s) : P h (Machine.pinBlocks i bs s) := by
  induction bs generalizing s with
  | nil => exact L.setWaiting hs _
  | cons b bs ih =>
    unfold Machine.pinBlocks
    split
    · exact L.setWaiting hs _
    · exact ih (L.request hs ..)

theorem placeWaiting (L : LinkLaw P Q) (hs : P h s) : P h (Machine.placeWaiting s) := by
  unfold Machine.placeWaiting
  split
  · split
    · exact hs
    · exact L.pinDone (L.takeWaiting _ _ hs)
  · exact hs

theorem requestAll (L : LinkLaw P Q) (hs : P h s) : P h (Machine.requestAll s) := L.grows hs (requestAll_grows s)

theorem afterWithdraw (L : LinkLaw P Q) (hs : P h s) (b : Bool) : P h (Machine.afterWithdraw b s) := by
  unfold Machine.afterWithdraw
  split
  · exact L.requestAll (L.placeWaiting hs)
  · exact hs

/-! ## Sessions and slots -/

theorem updSlot (L : LinkLaw P Q) (hs : P h s) (k : SlotId) (g : SlotStatus → SlotStatus) : P h (Machine.updSlot k g s) := L.same hs rfl

theorem setCtx (L : LinkLaw P Q) (hs : P h s) (k : SlotId) (r : CtxRecord) : P h (Machine.setCtx k r s) := L.same hs rfl

theorem updCat (L : LinkLaw P Q) (hs : P h s) (i : ImageId) (g : CatStatus → CatStatus) : P h (Machine.updCat i g s) := L.same hs rfl

theorem requestBlocks (L : LinkLaw P Q) (hs : P h s) (k : SlotId) : P h (Machine.requestBlocks k s) := L.grows hs (requestBlocks_grows k s)

theorem openSession (L : LinkLaw P Q) (hs : P h s) (k : SlotId) (i : ImageId) (w : Bool) : P h (Machine.openSession k i w s) :=
  L.requestBlocks (L.updCat (L.updSlot hs _ _) _ _) _

theorem endSession (L : LinkLaw P Q) (hs : P h s) (k : SlotId) : P h (Machine.endSession k s) := by
  unfold Machine.endSession
  split
  · exact hs
  · exact L.updSlot (L.updCat (L.grows hs (withdrawSlot_grows k s)) _ _) _ _

theorem setClass (L : LinkLaw P Q) (hs : P h s) (k : SlotId) (c : ClassId) : P h (Machine.setClass k c s) := by
  unfold Machine.setClass
  split
  · exact hs
  · exact L.setCtx (L.updSlot hs _ _) _ _

theorem applyPolicy (L : LinkLaw P Q) (hs : P h s) (k : SlotId) (c : Cause) (e : ClassEntry) : P h (Machine.applyPolicy k c e s) := by
  unfold Machine.applyPolicy
  split
  · split <;> exact L.raised _ _ _ (L.updSlot hs _ _)
  · exact L.raised _ _ _ (L.updSlot hs _ _)
  · exact L.raised _ _ _ (L.updSlot hs _ _)
  · exact L.updSlot hs _ _

theorem failSlot (L : LinkLaw P Q) (hs : P h s) (k : SlotId) (c : Cause) : P h (Machine.failSlot k c s) := by
  have hb := L.updSlot (L.flushHold (L.endSession hs k) k) k (fun x => { x with lastCause := some c, catInUse := none })
  unfold Machine.failSlot
  simp only
  split
  · exact L.applyPolicy hb ..
  · exact hb

theorem resolveImage (L : LinkLaw P Q) (hs : P h s) (k : SlotId) (b : BootCall) : P h (Machine.resolveImage k b s) := by
  unfold Machine.resolveImage
  split
  · exact L.failSlot hs ..
  · simp only
    split
    · exact L.failSlot hs ..
    · split
      · exact L.failSlot hs ..
      · split
        · exact L.failSlot hs ..
        · exact L.openSession (L.updSlot hs _ _) ..

theorem resolve (L : LinkLaw P Q) (hs : P h s) (k : SlotId) (b : BootCall) : P h (Machine.resolve k b s) := by
  unfold Machine.resolve
  split
  · exact L.failSlot hs ..
  · exact L.resolveImage (L.setClass hs ..) ..

theorem takeBootCall (L : LinkLaw P Q) (hs : P h s) (k : SlotId) (b : BootCall) : P h (Machine.takeBootCall k b s) := by
  unfold Machine.takeBootCall
  split
  · exact L.resolve hs ..
  · exact L.resolve hs ..
  · refine L.resolve ?_ ..
    split
    · exact L.updSlot hs _ _
    · exact L.raised _ _ _ hs
  all_goals first
    | exact hs
    | exact L.resolve (L.raised _ _ _ (L.endSession hs k)) ..

theorem bootCallAnswer (L : LinkLaw P Q) (hs : P h s) (k : SlotId) (p : List Byte) : P h (Machine.bootCallAnswer k p s) := by
  unfold Machine.bootCallAnswer
  split
  · split
    · exact L.takeBootCall hs ..
    · exact hs
  · exact hs

theorem judgeStale (L : LinkLaw P Q) (hs : P h s) (k : SlotId) (tag : Word32) : P h (Machine.judgeStale k tag s) := by
  unfold Machine.judgeStale
  split
  · exact L.updSlot hs _ _
  · split
    · exact hs
    · exact L.raised _ _ _ (L.updSlot hs _ _)

theorem survive (L : LinkLaw P Q) (hs : P h s) (k : SlotId) (tag : Word32) : P h (Machine.survive k tag s) := by
  unfold Machine.survive
  split
  · exact L.failSlot hs ..
  · split
    · exact L.failSlot hs ..
    · exact L.judgeStale (L.updSlot hs _ _) ..

theorem survivorReturn (L : LinkLaw P Q) (hs : P h s) (k : SlotId) (c : Byte) (tag : Word32) : P h (Machine.survivorReturn k c tag s) := by
  have hb := L.updSlot hs k (fun x => { x with reboot := none })
  unfold Machine.survivorReturn
  simp only
  split
  · exact L.failSlot hb ..
  · exact L.survive (L.setClass hb ..) ..

theorem statusAnswer (L : LinkLaw P Q) (hs : P h s) (k : SlotId) (p : List Byte) : P h (Machine.statusAnswer k p s) := by
  unfold Machine.statusAnswer
  split
  · unfold takeStatus
    split
    · exact L.judgeStale hs ..
    · exact L.survivorReturn hs ..
    · exact L.survivorReturn hs ..
    · exact L.failSlot hs ..
    · exact L.failSlot hs ..
    · exact L.failSlot hs ..
    all_goals exact hs
  · exact hs

theorem presenceLost (L : LinkLaw P Q) (hs : P h s) (k : SlotId) : P h (Machine.presenceLost k s) := by
  unfold Machine.presenceLost
  split
  · have hb := L.raised .lost (.slot k) none (L.updSlot hs k (fun x => { x with state := .absent }))
    simp only
    split
    · exact L.setCtx hb ..
    · exact hb
  · exact L.failSlot hs ..
  · exact L.failSlot hs ..
  · exact L.failSlot hs ..
  · exact L.raised _ _ _ (L.updSlot hs _ _)
  all_goals exact hs

theorem missTurn (L : LinkLaw P Q) (hs : P h s) (k : SlotId) : P h (Machine.missTurn k s) := by
  unfold Machine.missTurn
  split
  · exact L.presenceLost (L.updSlot hs _ _) _
  · exact L.updSlot hs _ _

theorem succeed (L : LinkLaw P Q) (hs : P h s) (k : SlotId) : P h (Machine.succeed k s) :=
  L.releaseHold (L.updSlot (L.endSession hs k) _ _) k

theorem darkenAll (L : LinkLaw P Q) (hs : P h s) : P h (Machine.darkenAll s) := by
  have hd : ∀ (t : State) k, P h t → P h (darken k t) := by
    intro t k ht
    unfold darken
    split
    · exact ht
    · exact ht
    all_goals exact L.updSlot (L.endSession ht k) _ _
  unfold Machine.darkenAll
  generalize slotIds = l
  induction l generalizing s with
  | nil => exact hs
  | cons k l ih => exact ih (hd _ k hs)

theorem foldl {α : Type} {f : State → α → State} (hf : ∀ s a, P h s → P h (f s a)) (l : List α) (hs : P h s) : P h (l.foldl f s) := by
  induction l generalizing s with
  | nil => exact hs
  | cons a l ih => exact ih (hf _ a hs)

theorem forFree (L : LinkLaw P Q) {α : Type} {f : α → State → State} (hf : ∀ s a, P h s → P h (f a s)) (l : List α) (hs : P h s) :
    P h (Machine.forFree l f s) := foldl (fun s a => hf s a) _ (L.same hs rfl)

/-- The queues at a confirmed gap, and the entries that are flushed. -/
theorem references_gap (b : BufId) (s : State) (l : List BufId) (hl : l.Perm (s.queues.hold.toList ++ [outFlushed s]).flatten) :
    references b s.queues = references b { s.queues with hold := Vector.replicate 32 [], out := outKept s } + l.count b := by
  have h0 : (Vector.replicate 32 ([] : List BufId)).toList.flatten = [] := by simp
  rw [hl.count_eq, List.flatten_append]
  unfold references
  simp only [h0, List.count_nil, List.count_append, List.flatten_singleton]
  conv_lhs => rw [outKept_append s, List.count_append]
  omega

theorem outKept_length (s : State) : (outKept s).length ≤ s.queues.out.length := by
  unfold outKept
  split <;> simp

theorem flushGap (L : LinkLaw P Q) (hs : P h s) : P h (Machine.flushGap s) := by
  have hm := (freeMerge_spec _ s.freeTick (s.queues.hold.toList ++ [outFlushed s]) le_rfl).1
  unfold Machine.flushGap
  refine L.flush (s := { s with freeTick := (freeMerge ((s.queues.hold.toList ++ [outFlushed s]).map List.length).sum s.freeTick
    (s.queues.hold.toList ++ [outFlushed s])).2 }) (L.same hs rfl) (fun b => references_gap b s _ hm) ?_ le_rfl le_rfl (refuseAll_flushes ..)
  have := outKept_length s
  simp only
  omega

theorem markBad (L : LinkLaw P Q) (hs : P h s) (i : ImageId) : P h (Machine.markBad i s) := by
  have hw : ∀ t, P h t → P h (withdrawImage i t) := by
    intro t ht
    unfold withdrawImage
    split
    · exact L.placeWaiting (L.grows ht (dropFills_grows i t))
    · exact L.grows ht (dropFills_grows i t)
  exact L.raised _ _ _ (L.forFree (fun s k hs => L.failSlot hs k _) _ (L.endPinOn (L.grows (L.grows (hw _ (L.updCat hs _ _))
    (dropLines_grows i _)) (disownFill_grows i _)) i))

theorem dropImage (L : LinkLaw P Q) (hs : P h s) (i : ImageId) : P h (Machine.dropImage i s) :=
  L.afterWithdraw (L.endPinOn (L.grows (L.grows (L.grows hs (dropLines_grows i _)) (dropFills_grows i _)) (discardFill_grows i _)) i) _

/-! ## Restore answers and capture -/

theorem updSession (L : LinkLaw P Q) (hs : P h s) (k : SlotId) (g : Session → Session) : P h (Machine.updSession k g s) := L.same hs rfl

theorem enterStage (L : LinkLaw P Q) (hs : P h s) (k : SlotId) (st : SlotState) : P h (Machine.enterStage k st s) := L.same hs rfl

theorem checkLoaded (L : LinkLaw P Q) (hs : P h s) (k : SlotId) : P h (Machine.checkLoaded k s) := by
  unfold Machine.checkLoaded
  split
  · split
    · exact L.grows (L.enterStage hs k _) (withdrawSlot_grows k _)
    · exact hs
  · exact hs

theorem takeLoadAck (L : LinkLaw P Q) (hs : P h s) (k : SlotId) (x : Session) (p : List Byte) : P h (Machine.takeLoadAck k x p s) := by
  unfold Machine.takeLoadAck
  simp only
  split
  · exact L.failSlot hs ..
  · unfold applyResend
    split
    · exact L.checkLoaded (L.updSession hs _ _) k
    · split
      · exact L.failSlot (L.updSession hs _ _) ..
      · exact L.checkLoaded (L.requestBlocks (L.updSession (L.updSession hs _ _) _ _) k) k

theorem restoreAnswer (L : LinkLaw P Q) (hs : P h s) (k : SlotId) (d : Kind) (p : List Byte) : P h (Machine.restoreAnswer k d p s) := by
  unfold Machine.restoreAnswer
  split
  · exact hs
  · split
    · exact L.takeLoadAck hs ..
    · split
      · unfold takeStarted
        split
        · exact L.failSlot hs ..
        · split
          · exact L.enterStage hs ..
          · refine L.failSlot ?_ ..
            split
            · exact L.updSlot hs _ _
            · exact hs
      · exact hs
    · split
      · unfold takeReady
        split
        · exact L.failSlot hs ..
        · split
          · exact L.failSlot hs ..
          · split
            · exact L.failSlot hs ..
            · exact L.succeed hs k
      · exact hs
    · exact hs

theorem capture (L : LinkLaw P Q) (hs : P h s) (c : CapSource) (f : Frame) (n : Option SlotId) : P h (Machine.capture c f n s) := by
  rw [capture_only]
  exact L.same hs rfl

/-! ## Frames received -/

theorem room_of_not_outFull (hf : ¬ outFull s = true) : s.queues.out.length < 32 :=
  Nat.not_le.1 fun hl => hf (decide_eq_true hl)

theorem gateStation (L : LinkLaw P Q) {b : BufId} (hs : P (some b) s) (a : FwdAction) (f : Frame) :
    P (some b) (Machine.gateStation a b f s) ∨ Q b (Machine.gateStation a b f s) := by
  have ho : P (some b) (toOutbound b f s) ∨ Q b (toOutbound b f s) := by
    unfold toOutbound
    split
    · exact .inl (L.refuse hs ..)
    next hf =>
      exact .inr (L.pushOut hs (room_of_not_outFull hf))
  unfold Machine.gateStation
  split
  · exact .inl (L.refuse hs ..)
  · split
    · exact ho
    · split
      · exact ho
      · split
        · split
          · exact .inr (L.pushHold _ (.inl hs))
          · exact .inl (L.refuse hs ..)
        · exact .inl (L.refuse hs ..)

theorem holdCopy (L : LinkLaw P Q) {b : BufId} (hs : P (some b) s ∨ Q b s) (k : SlotId) :
    P (some b) (Machine.holdCopy b k s) ∨ Q b (Machine.holdCopy b k s) := by
  unfold Machine.holdCopy
  split
  · exact .inr (L.pushHold k hs)
  · rcases hs with hs | hs
    · exact .inl (L.updSlot hs _ _)
    · exact .inr (L.kept hs rfl)

theorem gateGroup (L : LinkLaw P Q) {b : BufId} (hs : P (some b) s) (a : FwdAction) (f : Frame) :
    P (some b) (Machine.gateGroup a b f s) ∨ Q b (Machine.gateGroup a b f s) := by
  unfold Machine.gateGroup
  split
  · exact .inl hs
  · have ho : P (some b) (if outFull s then Machine.countOverrun .segment s else Machine.pushOut b s) ∨
        Q b (if outFull s then Machine.countOverrun .segment s else Machine.pushOut b s) := by
      split
      · exact .inl (L.countOverrun hs _)
      next hf =>
        exact .inr (L.pushOut hs (room_of_not_outFull hf))
    generalize (if outFull s then _ else _) = t at ho ⊢
    generalize slotIds.filter _ = l
    induction l generalizing t with
    | nil => exact ho
    | cons k l ih => exact ih _ (L.holdCopy ho k)

theorem downstream (L : LinkLaw P Q) {b : BufId} (hs : P (some b) s) (f : Frame) :
    P (some b) (Machine.downstream b f s) ∨ Q b (Machine.downstream b f s) := by
  have hc : P (some b) (if (lookup .down .data f s).2 then Machine.capture .dataDown f none s else s) := by
    split
    · exact L.capture hs ..
    · exact hs
  unfold Machine.downstream
  simp only
  split
  · exact .inl hc
  all_goals
    split
    · exact L.gateStation hc _ f
    · exact L.gateGroup hc _ f

/-- A frame taken in is in hand, or counted as an overrun. -/
theorem takeIn (L : LinkLaw P Q) (hs : P none s) (p : Port) (f : Frame) :
    (∀ b t, Machine.takeIn p f s = (some b, t) → P (some b) t) ∧ ∀ t, Machine.takeIn p f s = (none, t) → P none t := by
  unfold Machine.takeIn
  split
  · split
    next b t ha => exact ⟨fun _ _ h => by cases h; exact L.port (L.take hs ha) p _, fun _ h => by cases h⟩
    next => exact ⟨fun _ _ h => by (cases h), fun _ h => by cases h; exact L.countOverrun hs p⟩
  · exact ⟨fun _ _ h => by (cases h), fun _ h => by cases h; exact L.countOverrun hs p⟩

theorem takeRequest (L : LinkLaw P Q) (hs : P h s) (o : Origin) (f : Frame) : P h (Machine.takeRequest o f s) := by
  unfold Machine.takeRequest
  simp only
  split
  · exact L.updOrigin hs _ _
  · split
    · exact hs
    · exact L.queueReply hs _

theorem receiveOn (L : LinkLaw P Q) (hs : P none s) (l : Link) (bytes : List Byte) : P none (Machine.receiveOn l bytes s) := by
  unfold Machine.receiveOn
  split
  · exact L.port hs _ _
  next f _ =>
    split
    · obtain ⟨hsome, hnone⟩ := L.takeIn hs (Link.origin l).port f
      split
      next t ht => exact hnone t ht
      next b t ht =>
        have hb := hsome b t ht
        unfold handOver
        split
        · exact L.done (L.downstream hb f)
        · exact L.takeRequest (L.done (.inl hb)) ..
    · exact L.port hs _ _

theorem toTrunk (L : LinkLaw P Q) {b : BufId} (hs : P (some b) s) : P (some b) (Machine.toTrunk b s) ∨ Q b (Machine.toTrunk b s) := by
  unfold Machine.toTrunk
  split
  next hl => exact .inr (L.pushTrunk hs hl)
  next => exact .inl (L.countOverrun hs _)

theorem dispatch (L : LinkLaw P Q) {b : BufId} (hs : P (some b) s) (k : SlotId) (f : Frame) :
    P (some b) (Machine.dispatch k b f s) ∨ Q b (Machine.dispatch k b f s) := by
  unfold Machine.dispatch
  split
  · exact .inl (L.bootCallAnswer hs ..)
  · exact .inl (L.restoreAnswer hs ..)
  · exact .inl (L.restoreAnswer hs ..)
  · exact .inl (L.restoreAnswer hs ..)
  · have hb := L.capture (L.statusAnswer hs k f.payload) .status f (some k)
    unfold upstreamStatus
    split
    · exact .inl hb
    · exact L.toTrunk hb
    · exact L.toTrunk hb
  · unfold upstreamData
    split
    · have hc : P (some b) (if (lookup .up .data f s).2 then Machine.capture .dataUp f (some k) s else s) := by
        split
        · exact L.capture hs ..
        · exact hs
      simp only
      split
      · exact .inl hc
      · exact L.toTrunk hc
      · exact L.toTrunk hc
    · exact .inl (L.port hs _ _)
  all_goals exact .inl hs

theorem takeAnswer (L : LinkLaw P Q) (hs : P none s) (u : Turn) (f : Frame) : P none (Machine.takeAnswer u f s) := by
  unfold Machine.takeAnswer
  simp only
  have hb : P none (if u.void then s else Machine.updSlot u.slot (fun x => { x with miss := 0 }) s) := by
    split
    · exact hs
    · exact L.updSlot hs _ _
  obtain ⟨hsome, hnone⟩ := L.takeIn hb .segment f
  split
  next t ht => exact hnone t ht
  next b t ht =>
    refine L.done ?_
    split
    · exact .inl (hsome b t ht)
    · exact L.dispatch (hsome b t ht) _ _

theorem segmentJudged (L : LinkLaw P Q) (hs : P none s) (w : Bool) : P none (Machine.segmentJudged w s) := by
  unfold Machine.segmentJudged
  split
  next t _ =>
    have hm : ∀ v, P none v → P none (if t.void || t.closed then v else Machine.missTurn t.slot v) := by
      intro v hv
      split
      · exact hv
      · exact L.missTurn hv _
    unfold judgeAnswer
    simp only
    split
    · exact hm _ (L.port hs _ _)
    · split
      · exact L.takeAnswer hs ..
      · exact hm _ (L.port hs _ _)
  · exact L.port hs _ _

/-! ## Segment and links -/

theorem leavePort (L : LinkLaw P Q) (hs : P h s) : P h (Machine.leavePort s) := L.same hs rfl

theorem closeTurn (L : LinkLaw P Q) (hs : P h s) : P h (Machine.closeTurn s) := by
  unfold Machine.closeTurn
  split <;> exact L.same hs rfl

theorem popOut (L : LinkLaw P Q) (hs : P h s) : P h (Machine.popOut s) := by
  unfold Machine.popOut
  split
  · exact hs
  next b bs ho =>
    refine L.flush (bs := [b]) (q := { s.queues with out := bs }) hs (fun c => ?_) ?_ le_rfl le_rfl (.drop (.nil _))
    · unfold references
      rw [ho, List.count_cons, List.count_singleton]
      simp only
      omega
    · rw [ho, List.length_cons]
      simp only
      omega

theorem txEnded (L : LinkLaw P Q) (hs : P h s) (tx : SegTx) : P h (Machine.txEnded tx s) := by
  cases tx with
  | turn f =>
    show P h (turnSent s)
    unfold turnSent
    split
    · exact L.leavePort hs
    · exact L.same hs rfl
  | restore f => exact L.leavePort hs
  | reboot f k => exact L.leavePort (L.updSlot hs _ _)
  | outbound => exact L.leavePort (L.popOut hs)

theorem sent (L : LinkLaw P Q) {q : Queues} {e : TxEntry} (p : Port) (hs : P none s)
    (hr : ∀ b, references b s.queues = references b q + [e.buf].count b) (ho : q.out = s.queues.out)
    (ht : q.trunk.length ≤ s.queues.trunk.length) (hv : q.service.length ≤ s.queues.service.length) :
    P none (Machine.sent p e { s with queues := q }) := by
  unfold Machine.sent
  simp only
  split
  · exact L.reset rfl rfl rfl rfl rfl
  · exact L.port (L.flush (bs := [e.buf]) hs hr (by rw [ho]; omega) ht hv (.drop (.nil _))) _ _

/-! ## Fills -/

theorem fillEmpty (L : LinkLaw P Q) (hs : P h s) (f : Fill) : P h (Machine.fillEmpty f s) :=
  L.requestAll (L.grows (L.same hs rfl) (emptyLine_grows _ (idleReader s)))

theorem judgeFill (L : LinkLaw P Q) (hs : P h s) (f : Fill) (bs : List Byte) : P h (Machine.judgeFill f bs s) := by
  have he : P h (emptyLine f.line (idleReader s)) := L.grows (L.same hs rfl) (emptyLine_grows _ (idleReader s))
  unfold Machine.judgeFill
  split
  · exact L.fillEmpty hs f
  · split
    · split
      · exact L.fillEmpty hs f
      · unfold fillValid
        refine L.requestAll ?_
        split
        · refine L.pinDone ?_
          unfold pinLine
          split <;> exact L.same hs rfl
        · exact L.same hs rfl
    · split
      · unfold leftoverFailed returnPin
        refine L.requestAll ?_
        split
        · exact L.placeWaiting (L.setWaiting he _)
        · exact he
      · split
        · exact L.requestAll (L.markBad he _)
        · exact L.same hs rfl

theorem startWork (L : LinkLaw P Q) (hs : P h s) : P h (Machine.startWork s) := by
  unfold Machine.startWork
  split
  · unfold startLong
    split
    · exact hs
    · split <;> exact L.same hs rfl
  · split
    next e _ l _ =>
      unfold startFill
      refine L.placeWaiting (L.congr hs rfl rfl rfl ?_ (by simp))
      exact (List.length_erase_le).trans (le_max_left ..)
    next => exact hs

/-! ## SELF-CHECK -/

theorem endSelfCheck (L : LinkLaw P Q) (hs : P h s) (c : SelfCheck) : P h (Machine.endSelfCheck c s) := L.endLong hs ..

theorem mismatch (L : LinkLaw P Q) (hs : P h s) (i : ImageId) : P h (Machine.mismatch i s) := by
  unfold Machine.mismatch
  split
  · exact L.requestAll (L.markBad hs i)
  · exact L.markBad hs i

theorem setJob (L : LinkLaw P Q) (hs : P h s) (j : LongJob) : P h (Machine.setJob j s) := L.same hs rfl

theorem runChecks (L : LinkLaw P Q) (n : Nat) (c : SelfCheck) (hs : P h s) : P h (Machine.runChecks n c s) := by
  induction n generalizing c s with
  | zero => exact L.endSelfCheck hs c
  | succ n ih =>
    unfold Machine.runChecks
    simp only
    split
    · split
      · exact L.setJob hs _
      · split
        · exact ih _ hs
        · exact ih _ (L.mismatch hs _)
    · exact ih _ hs

theorem scanTaken (L : LinkLaw P Q) (hs : P h s) (live : Bool) (read : Disturb) : P h (Machine.scanTaken live read s) := by
  unfold Machine.scanTaken
  split
  · unfold scanned
    split
    · unfold scanIdentity
      split
      · exact L.setJob hs _
      · exact L.endSelfCheck hs _
    · unfold scanStore
      simp only
      split
      · exact L.setJob hs _
      · exact L.runChecks _ _ hs
    · exact L.runChecks _ _ hs
  · exact hs

theorem restartCheck (L : LinkLaw P Q) (hs : P h s) (i : ImageId) : P h (Machine.restartCheck i s) := by
  unfold Machine.restartCheck
  split
  · split
    · refine L.runChecks _ _ ?_
      unfold dropScan
      split <;> exact L.same hs rfl
    · exact hs
  · exact hs

/-! ## Tables -/

theorem trimHold_flushes (k : SlotId) (l : List BufId) (s : State) : Flushes l s (l.foldl (fun s b => trimEntry k b s) s) := by
  induction l generalizing s with
  | nil => exact .nil s
  | cons b l ih =>
    show Flushes _ _ (l.foldl _ (trimEntry k b s))
    have hi := ih (trimEntry k b s)
    generalize l.foldl _ (trimEntry k b s) = t at hi ⊢
    unfold trimEntry at hi
    split at hi
    · split at hi
      · exact .refuse _ hi
      · exact .same (u := Machine.updSlot k (fun x => { x with holdMissed := satAdd 255 x.holdMissed }) s) rfl (.drop hi)
    · exact .drop hi

theorem trimHold (L : LinkLaw P Q) (hs : P h s) (n : Nat) (k : SlotId) : P h (Machine.trimHold n k s) := by
  refine L.flush (q := { s.queues with hold := vmod s.queues.hold k (List.take n) }) hs (fun b => ?_) (by simp) le_rfl le_rfl
    (trimHold_flushes k _ _)
  have hc := count_hold_set b s.queues.hold k (s.queues.hold[k].take n)
  have hsplit : s.queues.hold[k].count b = (s.queues.hold[k].take n).count b + (s.queues.hold[k].drop n).count b := by
    rw [← List.count_append, List.take_append_drop]
  unfold references vmod
  rw [List.count_reverse]
  simp only
  omega

theorem writeConfig (L : LinkLaw P Q) (hs : P h s) (t i : Nat) (e : List Byte) : P h (Machine.writeConfig t i e s).2 := by
  unfold Machine.writeConfig
  split
  · split
    · exact L.forFree (fun s k hs => L.trimHold hs _ k) _ (L.same hs rfl)
    · exact hs
  · split
    · unfold setClassEntry
      split
      · exact hs
      · refine foldl (fun t k ht => ?_) _ (L.same hs rfl)
        unfold touchClass
        simp only
        split
        · exact L.setCtx (L.updSlot ht _ _) _ _
        · exact L.updSlot ht _ _
    · exact hs
  · split
    next k e' _ _ =>
      have hn : P h (slotEffects k s.tables.slots[k] e' { s with tables := { s.tables with slots := s.tables.slots.set k e' } }) := by
        unfold slotEffects
        split
        · split
          · exact L.same hs rfl
          · split
            · refine L.setClass ?_ ..
              exact L.same hs rfl
            · exact L.same hs rfl
        · split <;> exact L.same hs rfl
      unfold setSlotEntry
      split
      · exact hs
      · split
        · exact hs
        · simp only
          split
          · unfold voidTurn
            split
            · exact L.same hn rfl
            · exact hn
          · exact hn
    next => exact hs
  · split
    next k e _ _ =>
      unfold setCatEntry
      split
      · exact hs
      · have hd : P h (Machine.dropImage k (Machine.updCat k (fun c => { c with bad := false })
            { s with tables := { s.tables with cat := s.tables.cat.set k e } })) := by
          refine L.dropImage ?_ _
          exact L.same hs rfl
        simp only
        refine L.restartCheck ?_ _
        split
        · refine L.forFree (fun t k ht => ?_) _ hd
          unfold outdate
          simp only
          split
          · exact L.updSlot ht _ _
          · exact L.raised _ _ _ (L.updSlot ht _ _)
        · exact hd
    · exact hs
  · split
    · exact L.same hs rfl
    · exact hs
  · split
    · exact L.same hs rfl
    · exact hs
  · exact hs

theorem carryOut (L : LinkLaw P Q) (hs : P h s) (o : Origin) (t i : Nat) (e : List Byte) : P h (Machine.carryOut o t i e s) := by
  have hw := L.writeConfig hs t i e
  unfold Machine.carryOut
  split
  next _ he =>
    rw [he] at hw
    exact L.finalReply (s := noteWrite t i _) (L.same hw rfl) ..
  next _ he =>
    rw [he] at hw
    exact L.finalReply hw ..

/-! ## The engine reset -/

theorem resetQueues (L : LinkLaw P Q) (hs : P h s) : P h (Machine.resetQueues s) := by
  have hk : (trunkKept s).length ≤ s.queues.trunk.length := by
    unfold trunkKept
    split
    next hq => simp
    next e es hq =>
      rw [hq, List.length_cons, List.length_cons]
      exact Nat.succ_le_succ (List.length_filter_le ..)
  have ht : ∀ b, (s.queues.trunk.map TxEntry.buf).count b =
      ((trunkKept s).map TxEntry.buf).count b + ((trunkDropped s).map TxEntry.buf).count b := by
    intro b
    unfold trunkKept trunkDropped
    split
    next hq => simp [hq]
    next e es hq =>
      have hp := List.countP_eq_countP_filter_add es (fun e => e.buf == b) (isReply s)
      rw [hq, List.tail_cons]
      simp only [List.count, List.map_cons, List.countP_cons, List.countP_map] at hp ⊢
      simp only [Function.comp_def] at hp ⊢
      omega
  unfold Machine.resetQueues
  refine L.flush (q := { s.queues with hold := Vector.replicate 32 [], out := outKept s, trunk := trunkKept s }) hs (fun b => ?_) ?_ hk
    le_rfl (releaseAll_flushes ..)
  · have h0 : (Vector.replicate 32 ([] : List BufId)).toList.flatten = [] := by simp
    have ho : s.queues.out.count b = (outKept s).count b + (outFlushed s).count b := by
      conv_lhs => rw [outKept_append s, List.count_append]
    have htb := ht b
    unfold references
    simp only [h0, List.count_nil, List.count_append]
    omega
  · have := outKept_length s
    simp only
    omega

theorem abortLong (L : LinkLaw P Q) (hs : P h s) : P h (Machine.abortLong s) := by
  unfold Machine.abortLong
  split
  · exact hs
  · split
    · exact L.endLong hs ..
    · exact L.endLong hs ..
    · exact L.endPin hs _
    · split
      · exact L.setJob hs _
      · exact L.endLong hs ..
    · split
      · exact L.setJob hs _
      · exact L.endLong hs ..
    · exact hs

theorem engineReset (L : LinkLaw P Q) (hs : P h s) : P h (Machine.engineReset s) := by
  have hc : ∀ t, P h t → P h (resetCache t) := by
    intro t ht
    have h0 : P h (updBc (fun c => { c with fills := [] }) t) := L.congr ht rfl rfl rfl (by simp) (by simp)
    unfold resetCache
    simp only
    split <;> exact L.same h0 rfl
  have h1 := hc _ (L.resetQueues (L.same (t := resetSlots s) hs rfl))
  have h2 : P h (resetSegment (resetCache (Machine.resetQueues (resetSlots s)))) :=
    L.closeTurn (L.congr h1 rfl rfl rfl (by simp) (by simp))
  exact L.abortLong (s := clearLinks (clearRequests _)) (L.same h2 rfl)

/-! ## Requests -/

theorem accept (L : LinkLaw P Q) (hs : P h s) (o : Origin) (j : LongJob) : P h (Machine.accept o j s) := L.same hs rfl

theorem unpin (L : LinkLaw P Q) (hs : P h s) (i : ImageId) (first last : Nat) : P h (Machine.unpin i first last s) := by
  have hb : P h (updBc (fun c => { c with lines := vmap (Line.unpin i first last) c.lines }) s) := L.same hs rfl
  unfold Machine.unpin
  simp only
  split
  · unfold takeBack
    refine L.pinDone (L.setWaiting ?_ _)
    have hf : ∀ (b : Prop) [Decidable b] (g : Fill → Fill) t, P h t → P h (if b then updFill g t else t) := by
      intro b _ g t ht
      split
      · unfold updFill
        split <;> exact L.same ht rfl
      · exact ht
    refine L.congr (hf _ _ _ hb) rfl rfl rfl ?_ (by simp)
    simp
  · exact hb

theorem workOf (L : LinkLaw P Q) (hs : P h s) (c : ReqCode) (o : Origin) (a : List Byte) :
    P h (Machine.workOf c o a s) := by
  have hr : ∀ st t, P h t → P h (reply o st t) := fun st t ht => L.finalReply ht ..
  have hk : ∀ d t, P h t → P h (replyOk o d t) := fun d t ht => L.finalReply ht ..
  have hslot : ∀ f : Origin → SlotId → State → State, (∀ k, P h (f o k s)) → P h (onSlot f o a s) := by
    intro f hf
    unfold onSlot
    split
    · exact hf _
    · exact hr _ _ hs
  cases c
  case readEntry =>
    show P h (doReadEntry o a s)
    unfold doReadEntry
    split
    · exact hk _ _ hs
    · exact hr _ _ hs
  case readLink =>
    show P h (doReadLink o a s)
    unfold doReadLink
    split
    · exact hr _ _ hs
    · split
      · exact hk _ _ (L.updOrigin hs _ _)
      · exact hr _ _ hs
  case writeEntry =>
    show P h (doWriteEntry o a s)
    unfold doWriteEntry
    split
    · exact hr _ _ hs
    · exact L.carryOut hs ..
  case writeCond =>
    show P h (doWriteCond o a s)
    unfold doWriteCond
    split
    · exact hr _ _ hs
    · simp only
      split
      · exact L.carryOut (L.updOrigin hs _ _) ..
      · exact hr _ _ (L.updOrigin hs _ _)
  case readRange =>
    show P h (doReadRange o a s)
    unfold doReadRange
    split
    · exact L.same hs rfl
    · exact hr _ _ hs
  case setContext =>
    show P h (doSetContext o a s)
    unfold doSetContext
    split
    · unfold setContext
      split
      · exact hr _ _ hs
      · split
        · exact hr _ _ hs
        · exact hr _ _ (L.setCtx hs _ _)
    · exact hr _ _ hs
  case clearContext => exact hslot _ fun k => hr _ _ (L.setCtx hs _ _)
  case permit =>
    show P h (doPermit o a s)
    unfold doPermit
    split
    · exact hr _ _ (L.same hs rfl)
    · exact hr _ _ hs
  case reload =>
    refine hslot _ fun k => ?_
    unfold reload
    split
    iterate 3 exact hr _ _ (L.updSlot hs _ _)
    all_goals exact hr _ _ hs
  case clear =>
    refine hslot _ fun k => ?_
    unfold clearSlot
    split
    · exact hr _ _ (L.updSlot hs _ _)
    all_goals exact hr _ _ hs
  case clearRetries => exact hslot _ fun k => hr _ _ (L.updSlot hs _ _)
  case pin =>
    show P h (doPin o a s)
    unfold doPin
    split
    · unfold startPin
      simp only
      split
      · exact hr _ _ hs
      · split
        · exact hr _ _ hs
        · exact L.pinDone (L.pinBlocks _ _ (L.same hs rfl))
    · exact hr _ _ hs
  case unpin =>
    show P h (doUnpin o a s)
    unfold doUnpin
    split
    · exact hr _ _ (L.unpin hs ..)
    · exact hr _ _ hs
  case prefetch =>
    show P h (doPrefetch o a s)
    unfold doPrefetch
    split
    · refine hr _ _ ?_
      unfold prefetch
      split
      · exact foldl (fun s b hs => L.request hs ..) _ hs
      · exact hs
    · exact hr _ _ hs
  case invalidate =>
    show P h (doInvalidate o a s)
    unfold doInvalidate
    split
    · split
      · exact hr _ _ hs
      · exact hr _ _ (L.dropImage hs _)
    · exact hr _ _ hs
  case eraseSector =>
    show P h (doEraseSector o a s)
    unfold doEraseSector
    split
    · exact hr _ _ hs
    · split
      · exact hr _ _ hs
      · exact L.accept hs ..
  case writeRecord =>
    show P h (doWriteRecord o a s)
    unfold doWriteRecord
    simp only
    split
    · exact hr _ _ hs
    · split
      · exact hr _ _ hs
      · exact L.accept hs ..
  case readAttn =>
    show P h (doReadAttn o a s)
    unfold doReadAttn
    split
    · exact L.finalReply hs ..
    next e es he =>
      exact hk _ _ (L.forget s.au.overflow hs (.inr (by rw [he, List.tail_cons])))
  case clearAttn =>
    exact hr _ _ (L.forget false hs (.inl rfl))
  case commit => exact L.accept hs ..
  case selfCheck => exact L.accept hs ..
  case engineReset =>
    show P h (doEngineReset o a s)
    unfold doEngineReset
    split
    · exact hr _ _ hs
    · exact hr _ _ (L.engineReset hs)
  case fullReset =>
    show P h (doFullReset o a s)
    unfold doFullReset
    split
    · exact hr _ _ hs
    · refine L.finalReply ?_ ..
      exact L.same hs rfl

end LinkLaw
end Walk
end Sys2Proof.Machine
end

section
/-! PROOFS. Every event and the end of a step keep a law of links, and the laws that are of that form: the attention list (O14), the bounds
of queues and turn debt, and the pool's law (O15). -/

namespace Sys2Proof.Machine

open Sys2Proof.Safety

/-- A saturating count stays under what it was or under its bound. -/
theorem satAdd_le_max (m n : Nat) : satAdd m n ≤ max n m := by
  unfold satAdd
  split <;> omega

theorem le_satAdd (m n : Nat) : n ≤ satAdd m n := by
  unfold satAdd
  split <;> omega

section Walk

variable {P : Option BufId → State → Prop} {Q : BufId → State → Prop} {h : Option BufId} {s t : State}

namespace LinkLaw

/-! ## Rows and flash operations -/

theorem reply (L : LinkLaw P Q) (hs : P h s) (o : Origin) (st : Status) : P h (Machine.reply o st s) := L.finalReply hs ..

theorem turnPointer (L : LinkLaw P Q) (hs : P h s) (o : Origin) : P h (Machine.turnPointer o s) := L.same hs rfl

theorem serveRow (L : LinkLaw P Q) (hs : P h s) (c : ReqCode) : P h (Machine.serveRow c (Machine.workOf c) s) := by
  unfold Machine.serveRow
  split
  · split
    · unfold serve
      refine L.turnPointer ?_ _
      split
      · exact L.reply hs ..
      · split
        · exact L.reply hs ..
        · exact L.workOf hs ..
    · exact hs
  · exact hs

theorem refuseRequest (L : LinkLaw P Q) (hs : P h s) : P h (Machine.refuseRequest s) := by
  unfold Machine.refuseRequest
  split
  · split
    · exact L.turnPointer (L.reply hs ..) _
    · exact hs
  · exact hs

theorem sendRange (L : LinkLaw P Q) (hs : P h s) (o : Origin) (t next last : Nat) : P h (Machine.sendRange o t next last s) := by
  unfold Machine.sendRange
  split
  next hroom =>
    split
    · exact hs
    · simp only
      split
      · exact hs
      next b u ha =>
        rw [Bool.and_eq_true] at hroom
        have hb := L.build o false hs ha (txRoom_iff.1 hroom.1)
        unfold afterFrame
        split <;> exact L.same hb rfl
  · exact hs

theorem flashDone (L : LinkLaw P Q) (hs : P h s) (ok : Bool) (m : Memory) : P h (Machine.flashDone ok m s) := by
  refine L.endLong ?_ ..
  exact L.same hs rfl

/-! ## LINE and the start-up load -/

theorem startLine (L : LinkLaw P Q) (hs : P h s) : P h (Machine.startLine s) := L.same hs rfl

theorem lineFell (L : LinkLaw P Q) (hs : P h s) : P h (Machine.lineFell s) := by
  unfold Machine.lineFell
  split
  · exact L.same hs rfl
  · exact L.same hs rfl
  · exact hs
  · exact hs

theorem lineRose (L : LinkLaw P Q) (hs : P h s) : P h (Machine.lineRose s) := by
  unfold Machine.lineRose
  split
  · exact L.same hs rfl
  · exact L.startLine hs
  · exact hs
  · exact hs

theorem confirmGap (L : LinkLaw P Q) (hs : P h s) : P h (Machine.confirmGap s) := by
  have hd := L.flushGap (L.darkenAll
    (L.same (t := updLm (fun l => { l with line := .gap, deglitch := none, gaps := satAdd 65535 l.gaps }) s) hs rfl))
  unfold Machine.confirmGap silence
  generalize Machine.flushGap _ = v at hd ⊢
  have hc := L.closeTurn (s := updSeg (fun g => { g with silent := true }) v) (L.same hd rfl)
  exact L.same hc rfl

theorem loadTables (L : LinkLaw P Q) (hs : P h s) (stored : Option Tables) : P h (Machine.loadTables stored s) := by
  unfold Machine.loadTables
  split
  · exact L.same hs rfl
  · exact L.raised _ _ _ (L.same hs rfl)

/-! ## Every event -/

theorem windowMissed (L : LinkLaw P Q) (hs : P h s) : P h (Machine.windowMissed s) := by
  unfold Machine.windowMissed
  split
  · split
    · exact hs
    · exact L.missTurn hs _
  · exact hs

theorem event (L : LinkLaw P Q) (hs : P none s) (hu : Event s t) : P none t := by
  cases hu with
  | frame l bytes _ => exact L.port (L.receiveOn (L.port hs _ _) l _) _ _
  | answerBegins _ _ => exact L.same hs rfl
  | strayBegins _ _ => exact L.same hs rfl
  | segmentFrame w bytes _ => exact L.leavePort (L.port (L.segmentJudged (L.port hs _ _) w) _ _)
  | windowExpires _ => exact L.leavePort (L.windowMissed hs)
  | segmentSent tx _ => exact L.txEnded (L.port hs _ _) tx
  | trunkSent e es he =>
    refine L.sent (q := { s.queues with trunk := es }) .trunk hs (fun b => ?_) rfl ?_ le_rfl
    · unfold references
      rw [he, List.map_cons, List.count_cons, List.count_singleton]
      simp only
      omega
    · rw [he, List.length_cons]
      exact Nat.le_succ _
  | serviceSent e es he =>
    refine L.sent (q := { s.queues with service := es }) .service hs (fun b => ?_) rfl le_rfl ?_
    · unfold references
      rw [he, List.map_cons, List.count_cons, List.count_singleton]
      simp only
      omega
    · rw [he, List.length_cons]
      exact Nat.le_succ _
  | lineFalls _ => exact L.lineFell (s := setLinePin false s) (L.same hs rfl)
  | lineRises _ => exact L.lineRose (s := setLinePin true s) (L.same hs rfl)
  | gap _ => exact L.confirmGap hs
  | lineUp _ => exact L.congr hs rfl rfl rfl (le_max_left ..) (le_max_left ..)
  | retry k _ => exact L.updSlot hs _ _
  | stalled k _ => exact L.failSlot hs ..
  | reset => exact L.reset rfl rfl rfl rfl rfl
  | loaded left read _ =>
    have hl := L.loadTables (s := { s with flash := finishCut left s, cut := none }) (L.same hs rfl)
      (readStore (disturb read ((finishCut left s).readRun 0 storeBytes)))
    generalize Machine.loadTables _ _ = v at hl ⊢
    exact L.startLine (s := { v with phase := .running }) (L.same hl rfl)
  | readerStarts _ => exact L.startWork hs
  | fillRead f bs _ => exact L.judgeFill hs f bs
  | erased | programmed | committed => exact L.flashDone hs ..
  | scanRead live read _ => exact L.scanTaken (s := idleReader s) (L.same hs rfl) ..
  | replyPlaced => exact L.placeOne hs
  | rangeFrame l t a b _ _ => exact L.sendRange hs ..
  | pinPlaced => exact L.placeWaiting hs
  | row c => exact L.serveRow hs c
  | noCode => exact L.refuseRequest hs

/-! ## The end of a step -/

theorem grant (L : LinkLaw P Q) (hs : P h s) (k : SlotId) : P h (Machine.grant k s) := by
  unfold Machine.grant
  split
  · split
    · unfold grantBlock
      refine L.requestBlocks (L.updSession (L.grows ?_ (hitBlock_grows ..)) _ _) k
      exact L.same hs rfl
    · exact L.same hs rfl
    · exact L.same hs rfl
    all_goals exact hs
  · unfold grantReboot
    split
    · exact L.same hs rfl
    · exact hs

theorem choose (L : LinkLaw P Q) (hs : P h s) : P h (Machine.choose s) := by
  have hd : P h (addDebt s) := L.congr hs rfl rfl rfl (by simp [addDebt]) (satAdd_le_max ..)
  have ht : ∀ k, P h (giveTurn k s) := fun k => L.congr hs rfl rfl rfl (le_max_left ..) (Nat.zero_le _)
  unfold Machine.choose
  split
  · exact L.grant hd _
  · split
    · exact L.same hd rfl
    · unfold chooseTurn
      split
      next k _ => exact L.same (ht k) rfl
      · split
        next k _ => exact L.same (ht k) rfl
        · exact hs

theorem finish (L : LinkLaw P Q) (hs : P h s) : P h (Machine.finish s) := by
  unfold Machine.finish
  split
  · exact L.same (L.choose hs) rfl
  · exact L.same hs rfl

/-- Every step keeps a law of links. -/
theorem step (L : LinkLaw P Q) (s t : State) (hs : P none s) (ht : Machine.step s = .next t) : P none t :=
  law_of_events (fun _ _ h => L.same h rfl) (fun _ _ h => L.same h rfl) (fun _ _ h hu => L.event h hu) (fun _ h => L.finish h) s t hs ht

end LinkLaw

end Walk

/-! ## The attention list (O14) -/

/-- Coalescing changes neither cause nor subject of an entry. -/
theorem coalesced_pairwise {l : List AttnEntry} (c : AttnCause) (j : Subject) (d : Option Cause)
    (h : l.Pairwise (fun e f => ¬ (e.cause = f.cause ∧ e.subject = f.subject))) :
    (l.map (fun e => if e.isOf c j then { e with count := satAdd 255 e.count, detail := d } else e)).Pairwise
      (fun e f => ¬ (e.cause = f.cause ∧ e.subject = f.subject)) := by
  refine List.pairwise_map.2 (h.imp fun {e f} hef => ?_)
  split <;> split <;> exact hef

theorem report_attention {s : State} (c : AttnCause) (j : Subject) (d : Option Cause) (hs : AttentionLaw s) :
    AttentionLaw (raise c j d s) := by
  obtain ⟨hl, hp, hn⟩ := hs
  by_cases hc : s.au.list.any (AttnEntry.isOf c j) = true
  · have he : (raise c j d s).au.list =
        s.au.list.map (fun e => if e.isOf c j then { e with count := satAdd 255 e.count, detail := d } else e) := by
      simp [raise, Attention.report, hc]
    refine ⟨by rw [he, List.length_map]; exact hl, he ▸ coalesced_pairwise c j d hp, fun e hm => ?_⟩
    rw [he] at hm
    obtain ⟨f, hf, rfl⟩ := List.mem_map.1 hm
    have hcount := hn f hf
    split
    · have := satAdd_le_max 255 f.count
      have := le_satAdd 255 f.count
      simp only
      omega
    · exact hcount
  · have habs : ∀ e ∈ s.au.list, ¬ (e.cause = c ∧ e.subject = j) := fun e he hi =>
      hc (List.any_eq_true.2 ⟨e, he, AttnEntry.isOf_iff.2 hi⟩)
    have hr := report_of_absent d habs
    have he : (raise c j d s).au.list = if s.au.list.length < 32 then s.au.list ++ [⟨c, j, d, 1⟩] else s.au.list := by
      show (s.au.report c j d).list = _
      rw [hr]
      split <;> rfl
    unfold AttentionLaw
    rw [he]
    split
    next hroom =>
      refine ⟨by simp only [List.length_append, List.length_singleton]; omega, List.pairwise_append.2 ⟨hp, List.pairwise_singleton .., fun e hm f hf => ?_⟩, fun e hm => ?_⟩
      · rw [List.mem_singleton.1 hf]
        exact habs e hm
      · rcases List.mem_append.1 hm with hm | hm
        · exact hn e hm
        · rw [List.mem_singleton.1 hm]
          exact ⟨le_rfl, by simp⟩
    next => exact ⟨hl, hp, hn⟩

theorem attention_of_list {s t : State} (hs : AttentionLaw s) (h : t.au.list = s.au.list) : AttentionLaw t := by
  unfold AttentionLaw
  rw [h]
  exact hs

/-- A REFUSE keeps the law: a lost one is an overrun. -/
theorem refuse_attention {s : State} (r : RefuseReason) (f : Frame) (hs : AttentionLaw s) : AttentionLaw (refuse r f s) := by
  unfold refuse
  split
  · exact hs
  next b t ha =>
    obtain ⟨-, rfl⟩ := alloc_spec ha
    split
    · exact attention_of_list hs rfl
    · exact report_attention _ _ _ (attention_of_list hs rfl)

theorem flushes_attention {bs : List BufId} {s t : State} (h : Flushes bs s t) (hs : AttentionLaw s) : AttentionLaw t := by
  induction h with
  | nil => exact hs
  | @refuse r b _ s _ _ ih =>
    refine ih ?_
    unfold refuseEntry
    split
    · split
      · exact attention_of_list (refuse_attention r _ hs) rfl
      · exact attention_of_list hs rfl
    · exact attention_of_list hs rfl
  | drop _ ih => exact ih (attention_of_list hs rfl)
  | same hu _ ih => exact ih (attention_of_list hs (congrArg Prod.fst hu))

theorem attention_linkLaw : LinkLaw (fun _ => AttentionLaw) (fun _ => AttentionLaw) where
  congr hs ha _ _ _ _ := attention_of_list hs ha
  raised c j d hs := report_attention c j d hs
  forget {_ s l} v hs hl := by
    obtain ⟨h1, h2, h3⟩ := hs
    rcases hl with rfl | rfl
    · exact ⟨Nat.zero_le _, .nil, fun e he => absurd he List.not_mem_nil⟩
    · exact ⟨(List.tail_sublist _).length_le.trans h1, h2.sublist (List.tail_sublist _), fun e he => h3 e (List.mem_of_mem_tail he)⟩
  build o x hs ha _ := by
    obtain ⟨-, rfl⟩ := alloc_spec ha
    cases o <;> exact attention_of_list hs rfl
  discard hs ha := by
    obtain ⟨-, rfl⟩ := alloc_spec ha
    exact attention_of_list hs rfl
  flush hs _ _ _ _ hf := flushes_attention hf (attention_of_list hs rfl)
  take hs ha := by
    obtain ⟨-, rfl⟩ := alloc_spec ha
    exact attention_of_list hs rfl
  pushOut hs _ := attention_of_list hs rfl
  pushTrunk hs _ := attention_of_list hs rfl
  pushHold k hs := attention_of_list (hs.elim id id) rfl
  kept hs hb := attention_of_list hs (congrArg Prod.fst hb)
  done hs := attention_of_list (hs.elim id id) rfl
  reset ha _ _ _ _ := by
    refine ⟨?_, ?_, ?_⟩ <;> rw [ha] <;> simp [State.reset]

/-- Settles O14: the attention list's law is a law of links. -/
theorem attentionLawAlways : Obligations.AttentionLawAlways := by
  unfold Obligations.AttentionLawAlways
  exact attention_linkLaw.step

/-! ## The bounds of queues and turn debt (O15) -/

theorem bounded_of_smaller {s t : State} (hs : Bounded s) (ho : t.queues.out.length ≤ max s.queues.out.length 32)
    (ht : t.queues.trunk.length ≤ max s.queues.trunk.length 48) (hv : t.queues.service.length ≤ max s.queues.service.length 4)
    (hf : t.bc.fills.length ≤ max s.bc.fills.length 16) (hd : t.seg.debt ≤ max s.seg.debt 8) : Bounded t := by
  obtain ⟨h1, h2, h3, h4, h5⟩ := hs
  exact ⟨by omega, by omega, by omega, by omega, by omega⟩

theorem bounded_of_same {s t : State} (hs : Bounded s) (hq : t.queues = s.queues) (hf : t.bc.fills = s.bc.fills)
    (hd : t.seg.debt = s.seg.debt) : Bounded t := by
  unfold Bounded
  rw [hq, hf, hd]
  exact hs

theorem refuse_bounded {s : State} (r : RefuseReason) (f : Frame) (hs : Bounded s) : Bounded (refuse r f s) := by
  unfold refuse
  split
  · exact hs
  next b t ha =>
    obtain ⟨-, rfl⟩ := alloc_spec ha
    split
    next hroom =>
      simp only [Config.trunkMax] at hroom
      refine bounded_of_smaller hs ?_ ?_ ?_ ?_ ?_ <;> simp [pushTrunk, addRef]
      omega
    · exact bounded_of_same hs rfl rfl rfl

theorem flushes_bounded {bs : List BufId} {s t : State} (h : Flushes bs s t) (hs : Bounded s) : Bounded t := by
  induction h with
  | nil => exact hs
  | @refuse r b _ s _ _ ih =>
    refine ih ?_
    unfold refuseEntry
    split
    · split
      · exact bounded_of_same (refuse_bounded r _ hs) rfl rfl rfl
      · exact bounded_of_same hs rfl rfl rfl
    · exact bounded_of_same hs rfl rfl rfl
  | drop _ ih => exact ih (bounded_of_same hs rfl rfl rfl)
  | same hu _ ih =>
    simp only [State.body, Prod.mk.injEq] at hu
    obtain ⟨-, hq, -, hf, hd⟩ := hu
    exact ih (bounded_of_smaller hs (by rw [hq]; omega) (by rw [hq]; omega) (by rw [hq]; omega) (by omega) (by omega))

theorem bounded_linkLaw : LinkLaw (fun _ => Bounded) (fun _ => Bounded) where
  congr hs _ hq _ hf hd := bounded_of_smaller hs (by rw [hq]; omega) (by rw [hq]; omega) (by rw [hq]; omega) hf hd
  raised c j d hs := bounded_of_same hs rfl rfl rfl
  forget _ hs _ := bounded_of_same hs rfl rfl rfl
  build {_ s _ _ _} o x hs ha hr := by
    obtain ⟨-, rfl⟩ := alloc_spec ha
    cases o with
    | trunk =>
      have hl : s.queues.trunk.length < 48 := by simpa [HasRoom] using hr
      refine bounded_of_smaller hs ?_ ?_ ?_ ?_ ?_ <;> simp [pushTx, pushTrunk, addRef]
      omega
    | service =>
      have hl : s.queues.service.length < 4 := by simpa [HasRoom] using hr
      refine bounded_of_smaller hs ?_ ?_ ?_ ?_ ?_ <;> simp [pushTx, pushService, addRef]
      omega
  discard hs ha := by
    obtain ⟨-, rfl⟩ := alloc_spec ha
    exact bounded_of_same hs rfl rfl rfl
  flush hs _ ho ht hv hf := flushes_bounded hf (bounded_of_smaller hs ho (ht.trans (le_max_left ..)) (hv.trans (le_max_left ..))
    (le_max_left ..) (le_max_left ..))
  take hs ha := by
    obtain ⟨-, rfl⟩ := alloc_spec ha
    exact bounded_of_same hs rfl rfl rfl
  pushOut hs hl := by
    refine bounded_of_smaller hs ?_ ?_ ?_ ?_ ?_ <;> simp [Machine.pushOut, addRef]
    omega
  pushTrunk hs hl := by
    refine bounded_of_smaller hs ?_ ?_ ?_ ?_ ?_ <;> simp [Machine.pushTrunk, addRef]
    omega
  pushHold k hs := bounded_of_smaller (hs.elim id id) (le_max_left ..) (le_max_left ..) (le_max_left ..) (le_max_left ..) (le_max_left ..)
  kept hs hb := by
    simp only [State.body, Prod.mk.injEq] at hb
    obtain ⟨-, hq, -, hf, hd⟩ := hb
    exact bounded_of_smaller hs (by rw [hq]; omega) (by rw [hq]; omega) (by rw [hq]; omega) (by omega) (by omega)
  done hs := bounded_of_same (hs.elim id id) rfl rfl rfl
  reset _ hq _ hc hg := by
    unfold Bounded
    rw [hq, hc, hg]
    exact ⟨Nat.zero_le _, Nat.zero_le _, Nat.zero_le _, Nat.zero_le _, Nat.zero_le _⟩

/-! ## The pool's law (O15) -/

/-- The pool's law with the fresh buffer in hand, which no entry references yet. -/
def PoolLawWith (h : Option BufId) (s : State) : Prop :=
  match h with
  | none => PoolLaw s
  | some b => Owes [] [b] s ∧ references b s.queues = 0

/-- The pool's law with a buffer in hand that some entry may reference. -/
def PoolLawAfter (b : BufId) (s : State) : Prop := Owes [] [] s ∧ s.pool[b].frame ≠ none

/-- The pool's law reads pool and queues alone, with or without a buffer in hand. -/
theorem PoolLawWith.congr {h : Option BufId} {s t : State} (hs : PoolLawWith h s) (hp : t.pool = s.pool) (hq : t.queues = s.queues) :
    PoolLawWith h t := by
  cases h with
  | none => exact owes_nil.1 ((owes_nil.2 hs).congr hp hq)
  | some b =>
    obtain ⟨ho, hr⟩ := hs
    exact ⟨ho.congr hp hq, by rw [hq]; exact hr⟩

/-- What is owed with `h` in hand. -/
def inHand : Option BufId → List BufId
  | none => []
  | some b => [b]

theorem poolLawWith_iff {h : Option BufId} {s : State} :
    PoolLawWith h s ↔ Owes [] (inHand h) s ∧ ∀ b ∈ inHand h, references b s.queues = 0 := by
  cases h with
  | none => simp [PoolLawWith, inHand, owes_nil]
  | some b => simp [PoolLawWith, inHand]

/-- A REFUSE leaves the references to a buffer just written. -/
theorem refuse_references {p w : List BufId} {s : State} (hs : Owes p w s) (r : RefuseReason) (f : Frame) {c : BufId} (hc : c ∈ w) :
    references c (refuse r f s).queues = references c s.queues := by
  unfold refuse
  split
  · rfl
  next b t ha =>
    obtain ⟨-, rfl, -, hb, -⟩ := hs.alloc ha
    split
    · exact (references_trunk c ⟨b, false⟩ s.queues).trans (by rw [if_neg fun he : c = b => hb (he ▸ hc), Nat.add_zero])
    · rfl

theorem flushes_owes {bs w : List BufId} {s t : State} (h : Flushes bs s t) (hs : Owes bs w s) (hw : ∀ b ∈ bs, b ∉ w) :
    Owes [] w t ∧ ∀ c ∈ w, references c t.queues = references c s.queues := by
  induction h with
  | nil => exact ⟨hs, fun _ _ => rfl⟩
  | @refuse r b _ s _ _ ih =>
    obtain ⟨ho, hr⟩ := ih (hs.refuseEntry (hw b List.mem_cons_self) r) fun c hc => hw c (List.mem_cons_of_mem _ hc)
    refine ⟨ho, fun c hc => (hr c hc).trans ?_⟩
    unfold refuseEntry
    split
    · split
      · exact refuse_references hs r _ hc
      · rfl
    · rfl
  | @drop b _ s _ _ ih =>
    obtain ⟨ho, hr⟩ := ih (hs.dropRef (hw b List.mem_cons_self)) fun c hc => hw c (List.mem_cons_of_mem _ hc)
    exact ⟨ho, fun c hc => (hr c hc).trans rfl⟩
  | same hu _ ih =>
    simp only [State.body, Prod.mk.injEq] at hu
    obtain ⟨-, hq, hp, -⟩ := hu
    obtain ⟨ho, hr⟩ := ih (hs.congr hp hq) hw
    exact ⟨ho, fun c hc => (hr c hc).trans (by rw [hq])⟩

/-- The buffer in hand once an entry references it. -/
theorem placed_after {b : BufId} {w : List BufId} {s : State} {q : Queues} (hs : Owes [] w s) (hw : ∀ c ∈ w, c = b)
    (hf : s.pool[b].frame ≠ none) (hq : ∀ c, references c q = references c s.queues + if c = b then 1 else 0) :
    PoolLawAfter b (addRef b { s with queues := q }) := by
  have hn : w.filter (· ≠ b) = [] := List.filter_eq_nil_iff.2 fun c hc => by simpa using hw c hc
  have hp := hs.placed hf hq
  rw [hn] at hp
  refine ⟨hp, ?_⟩
  show (vmod s.pool b _)[b].frame ≠ none
  rw [vmod_same]
  exact hf

/-- A buffer in hand goes to an entry. -/
theorem PoolLawWith.placed {b : BufId} {s : State} {q : Queues} (hs : PoolLawWith (some b) s)
    (hq : ∀ c, references c q = references c s.queues + if c = b then 1 else 0) : PoolLawAfter b (addRef b { s with queues := q }) :=
  placed_after hs.1 (fun _ => List.mem_singleton.1) ((hs.1 b).2.2 (List.mem_singleton_self b)) hq

theorem pool_linkLaw : LinkLaw PoolLawWith PoolLawAfter where
  congr hs _ hq hp _ _ := hs.congr hp hq
  raised c j d hs := hs.congr rfl rfl
  forget _ hs _ := hs.congr rfl rfl
  build {h s _ _ b} o x hs ha _ := by
    obtain ⟨ho, hr⟩ := poolLawWith_iff.1 hs
    obtain ⟨-, ht, -, hb, -⟩ := ho.alloc ha
    have hne : ∀ c ∈ inHand h, c ≠ b := fun c hc he => hb (he ▸ hc)
    cases o with
    | trunk =>
      have hq := fun c => references_trunk c ⟨b, x⟩ s.queues
      refine poolLawWith_iff.2 ⟨?_, fun c hc => ?_⟩
      · have := ho.build ha hq
        subst ht
        exact this
      · subst ht
        exact (hq c).trans (by rw [hr c hc, if_neg (hne c hc)])
    | service =>
      have hq := fun c => references_service c ⟨b, x⟩ s.queues
      refine poolLawWith_iff.2 ⟨?_, fun c hc => ?_⟩
      · have := ho.build ha hq
        subst ht
        exact this
      · subst ht
        exact (hq c).trans (by rw [hr c hc, if_neg (hne c hc)])
  discard {h s _ _ b} hs ha := by
    obtain ⟨ho, hr⟩ := poolLawWith_iff.1 hs
    obtain ⟨h1, rfl, -, hb, -⟩ := ho.alloc ha
    refine poolLawWith_iff.2 ⟨?_, hr⟩
    have h2 := h1.reclaim b
    rwa [filter_fresh hb] at h2
  flush {h s _ bs q} hs hr _ _ _ hf := by
    obtain ⟨ho, h0⟩ := poolLawWith_iff.1 hs
    have hz : ∀ c ∈ inHand h, references c q = 0 ∧ bs.count c = 0 := fun c hc => by
      have := h0 c hc
      have := hr c
      omega
    have ht := ho.taken hr
    rw [List.append_nil] at ht
    obtain ⟨h1, h2⟩ := flushes_owes hf ht fun c hc hw => List.count_eq_zero.1 (hz c hw).2 hc
    exact poolLawWith_iff.2 ⟨h1, fun c hc => (h2 c hc).trans (hz c hc).1⟩
  take {s _ _ b} hs ha := by
    obtain ⟨h1, rfl, -, -, h0⟩ := (owes_nil.2 hs).alloc ha
    exact ⟨h1, h0⟩
  pushOut {b s} hs _ := hs.placed fun c => references_out c b s.queues
  pushTrunk {b s} hs _ := hs.placed fun c => references_trunk c ⟨b, false⟩ s.queues
  pushHold {b s} k hs := by
    have hq := fun c => references_hold c b k s.queues
    rcases hs with hs | ⟨ho, hf⟩
    · exact hs.placed hq
    · exact placed_after ho (fun c hc => absurd hc List.not_mem_nil) hf hq
  kept {b s t} hs hb := by
    simp only [State.body, Prod.mk.injEq] at hb
    obtain ⟨-, hq, hp, -⟩ := hb
    obtain ⟨ho, hf⟩ := hs
    exact ⟨ho.congr hp hq, by rw [hp]; exact hf⟩
  done {b s} hs := by
    rcases hs with ⟨ho, -⟩ | ⟨ho, -⟩
    · have h1 := ho.reclaim b
      rw [filter_fresh List.not_mem_nil] at h1
      exact owes_nil.1 h1
    · exact owes_nil.1 (ho.reclaim b)
  reset {s} _ hq hp _ _ := by
    intro b
    have hb : (Vector.replicate 64 (⟨none, 0⟩ : Buffer))[b] = ⟨none, 0⟩ := by simp
    have hr : references b State.reset.queues = 0 := by simp [references, State.reset]
    rw [hp, hq, hr]
    show (Vector.replicate 64 (⟨none, 0⟩ : Buffer))[b].refs = 0 ∧ _
    have hb' : State.reset.pool[b] = ⟨none, 0⟩ := hb
    rw [hb, hb']
    exact ⟨rfl, iff_of_true rfl rfl⟩

/-- Settles O15: bounds and pool's law are laws of links. -/
theorem boundedAlways : Obligations.BoundedAlways := by
  unfold Obligations.BoundedAlways
  exact ⟨bounded_linkLaw.step, pool_linkLaw.step⟩

end Sys2Proof.Machine
end

section
/-! PROOFS. The requests that are one case split: what the row of a request that has been asked does (O46, O47, O49, O50, O51, O55, O59), the
note of a write (O44), and the request codes, their forms and the order of service (O60). -/

namespace Sys2Proof.Machine

open Sys2Proof.Safety

/-! ## A row that is asked -/

theorem exec_asked {c : ReqCode} {o : Origin} {a : List Byte} {s : State} (h : Asked c o a s) :
    exec (rowOf c) s = .next (finish (turnPointer o (workOf c o a s))) := by
  rw [exec_rowOf, serveRow_asked h]

/-- A row whose work is a final reply to `t` answers from `t`. -/
theorem exec_answers {c : ReqCode} {o : Origin} {a : List Byte} {s t : State} {st : Status} {d : List Byte} (h : Asked c o a s)
    (hw : workOf c o a s = finalReply o st d false t) : exec (rowOf c) s = .next (finish (answered o st d t)) := by
  rw [exec_asked h, hw, answered]

/-- A row whose work accepts a long operation. -/
theorem exec_takes {c : ReqCode} {o : Origin} {a : List Byte} {s t : State} {j : LongJob} (h : Asked c o a s)
    (hw : workOf c o a s = accept o j t) : exec (rowOf c) s = .next (finish (taken o j t)) := by
  rw [exec_asked h, hw, taken]

/-! ## Operands that name a slot -/

theorem finAt_byte {n : Nat} (k : Fin n) (hn : n ≤ 256) (l : List Byte) : finAt n (rd8 (byte k :: l) 0) = some k := by
  rw [rd8_0, byte_toNat k hn, finAt_val]

theorem onSlot_slot (f : Origin → SlotId → State → State) (o : Origin) (k : SlotId) (l : List Byte) (s : State) :
    onSlot f o (byte k :: l) s = f o k s := by
  unfold onSlot
  rw [finAt_byte k (by decide)]

theorem onSlot_beyond (f : Origin → SlotId → State → State) (o : Origin) {k : Byte} (hk : 31 < k.toNat) (l : List Byte) (s : State) :
    onSlot f o (k :: l) s = reply o .badValue s := by
  unfold onSlot
  rw [rd8_0, finAt_none hk]

/-! ## READ-RANGE, COMMIT and SELF-CHECK (O46) -/

/-- Settles O46: each row's work is an acceptance, or READ-RANGE's refusal. -/
theorem longAccepted : Obligations.LongAccepted := by
  unfold Obligations.LongAccepted
  refine ⟨fun s o t a b h => ?range, fun s o => ⟨fun h => exec_takes h rfl, fun h => exec_takes h rfl⟩⟩
  case range =>
    split
    next hr => exact exec_takes h (if_pos hr)
    next hr => exact exec_answers h (if_neg hr)

/-! ## SET-CONTEXT and CLEAR-CONTEXT (O47) -/

theorem doSetContext_field (o : Origin) (k : SlotId) (f : FieldId) (v : List Byte) (s : State) :
    doSetContext o (byte k :: byte f :: v) s = setContext o k f v s := by
  unfold doSetContext
  rw [finAt_byte k (by decide), rd8_1, byte_toNat f (by decide), finAt_val]
  rfl

theorem doSetContext_beyond (o : Origin) {k f : Byte} (v : List Byte) (s : State) (h : 31 < k.toNat ∨ 15 < f.toNat) :
    doSetContext o (k :: f :: v) s = reply o .badValue s := by
  unfold doSetContext
  rw [rd8_0, rd8_1]
  rcases h with h | h
  · rw [finAt_none h]
  · rw [finAt_none (n := 16) h]
    split
    next hn => cases hn
    next => rfl

theorem storeField_eq (k : SlotId) (f : FieldId) (v : List Byte) (s : State) :
    storeField k f v s = { s with ctx := s.ctx.set k (s.ctx[k].set f (if ∀ b ∈ v, b = 0 then none else some v)) } := by
  have hz : v.all (· == 0) = true ↔ ∀ b ∈ v, b = 0 := by simp
  unfold storeField setCtx CtxRecord.store
  simp only [hz]

/-- Settles O47: SET-CONTEXT by its checks in order, CLEAR-CONTEXT in every state. -/
theorem contextSet : Obligations.ContextSet := by
  unfold Obligations.ContextSet
  refine ⟨fun s o k f v => ⟨fun h hb => exec_answers h (doSetContext_beyond o v s hb), fun h hb => exec_answers h
    (onSlot_beyond clearContext o hb [] s)⟩, fun s o k f v => ⟨fun h => ⟨fun hv => ?vacant, fun hv hl => ?length, fun hv h0 hl => ?stored⟩,
      fun h => ?cleared⟩⟩
  case vacant => exact exec_answers h ((doSetContext_field o k f v s).trans (if_pos hv))
  case length => exact exec_answers h ((doSetContext_field o k f v s).trans ((if_neg hv).trans (if_pos hl)))
  case stored =>
    refine exec_answers h ((doSetContext_field o k f v s).trans ?_)
    unfold setContext
    rw [if_neg hv, if_neg (by simp [h0, hl]), storeField_eq]
    rfl
  case cleared => exact exec_answers h (onSlot_slot clearContext o k [] s)

/-! ## PERMIT (O49) -/

/-- Settles O49: the group and the setting are read, and one request bit is written. -/
theorem permitSet : Obligations.PermitSet := by
  unfold Obligations.PermitSet
  refine fun s o a b h => ⟨fun g on ha hb => exec_answers h ?set, fun hb => exec_answers h ?beyond⟩
  case set =>
    have hg : finAt 4 (rd8 [a, b] 0) = some g := by rw [rd8_0, ha, finAt_val]
    have hon : rdFlag [a, b] 1 = some on := by
      subst hb
      cases on <;> rfl
    show doPermit o [a, b] s = _
    unfold doPermit
    rw [hg, hon]
    rfl
  case beyond =>
    show doPermit o [a, b] s = reply o .badValue s
    unfold doPermit
    rcases hb with hb | hb
    · rw [rd8_0, finAt_none hb]
    · have hn : rdFlag [a, b] 1 = none := by
        unfold rdFlag
        rw [rd8_1]
        split
        · omega
        · omega
        · rfl
      rw [hn]
      split
      next hx => cases hx
      next => rfl

/-! ## RELOAD, CLEAR and CLEAR-RETRIES (O50, O51) -/

/-- Settles O50: RELOAD and CLEAR by the state of the slot. -/
theorem reloadAndClear : Obligations.ReloadAndClear := by
  unfold Obligations.ReloadAndClear
  refine ⟨fun s o k hk => ⟨fun h => exec_answers h (onSlot_beyond reload o hk [] s), fun h => exec_answers h
    (onSlot_beyond clearSlot o hk [] s)⟩, fun s o k h => ⟨fun hs => ?reload, fun h1 h2 h3 => ?noReload⟩,
      fun s o k h => ⟨fun hs => ?clear, fun hs => ?noClear⟩⟩
  case reload =>
    refine exec_answers h ((onSlot_slot reload o k [] s).trans ?_)
    unfold reload
    rcases hs with hs | hs | hs <;> rw [hs] <;> rfl
  case noReload =>
    refine exec_answers h ((onSlot_slot reload o k [] s).trans ?_)
    unfold reload
    cases hs : s.slots[k].state
    case running => exact absurd hs h1
    case absent => exact absurd hs h2
    case dark => exact absurd hs h3
    all_goals rfl
  case clear =>
    refine exec_answers h ((onSlot_slot clearSlot o k [] s).trans ?_)
    unfold clearSlot
    rw [hs]
    rfl
  case noClear =>
    refine exec_answers h ((onSlot_slot clearSlot o k [] s).trans ?_)
    unfold clearSlot
    cases hf : s.slots[k].state
    case failed => exact absurd hf hs
    all_goals rfl

/-- Settles O51: CLEAR-RETRIES writes one field of the slot. -/
theorem retriesCleared : Obligations.RetriesCleared := by
  unfold Obligations.RetriesCleared
  exact ⟨fun s o k hk h => exec_answers h (onSlot_beyond clearRetries o hk [] s),
    fun s o k h => exec_answers h (onSlot_slot clearRetries o k [] s)⟩

/-! ## ERASE-SECTOR and WRITE-RECORD (O55) -/

theorem any_toList_iff {α : Type} {n : Nat} (v : Vector α n) (p : α → Bool) : v.toList.any p = true ↔ ∃ i : Fin n, p v[i] = true := by
  rw [List.any_eq_true]
  constructor
  · rintro ⟨x, hx, hp⟩
    obtain ⟨i, hi, rfl⟩ := Vector.mem_iff_getElem.1 (Vector.mem_toList_iff.1 hx)
    exact ⟨⟨i, hi⟩, hp⟩
  · rintro ⟨i, hp⟩
    exact ⟨v[i], Vector.mem_toList_iff.2 (Vector.getElem_mem i.2), hp⟩

/-- A window meets an image sector when a record of the sector is one of its records. -/
theorem Window.meets_iff {k : Nat} {w : Window} :
    w.meets k = true ↔ w.enable = true ∧ ∃ r, r / 31 = k ∧ w.base ≤ r ∧ r ≤ w.base + (w.last - w.first) := by
  unfold Window.meets
  rw [Bool.and_eq_true, Bool.and_eq_true, decide_eq_true_iff, decide_eq_true_iff, and_assoc]
  refine and_congr_right fun _ => ⟨fun ⟨h1, h2⟩ => ⟨max w.base (31 * k), ?_, ?_, ?_⟩, fun ⟨r, hr, h1, h2⟩ => ?_⟩ <;> omega

theorem sectorUsed_iff {k : Nat} {s : State} : sectorUsed k s = true ↔ ∃ (i : ImageId) (w : Fin 4), s.tables.cat[i].valid = true ∧
    (s.tables.cat[i].windows[w]).enable = true ∧ ∃ r, r / 31 = k ∧ (s.tables.cat[i].windows[w]).base ≤ r ∧
      r ≤ (s.tables.cat[i].windows[w]).base + ((s.tables.cat[i].windows[w]).last - (s.tables.cat[i].windows[w]).first) := by
  unfold sectorUsed
  rw [any_toList_iff]
  refine exists_congr fun i => ?_
  unfold CatEntry.meets
  rw [Bool.and_eq_true, any_toList_iff]
  simp only [Window.meets_iff, exists_and_left]

/-- Settles O55: both rows test their bound, then the sector's use. -/
theorem flashRequested : Obligations.FlashRequested := by
  unfold Obligations.FlashRequested
  intro s o a used hu
  have hs : ∀ k, sectorUsed k s = true ↔ used k := fun k => sectorUsed_iff.trans (hu k).symm
  refine ⟨fun h => ⟨fun hb => exec_answers h (if_pos hb), fun hb hk => exec_answers h ((if_neg (Nat.not_lt.2 hb)).trans
    (if_pos ((hs _).2 hk))), fun hb hk => exec_takes h ((if_neg (Nat.not_lt.2 hb)).trans (if_neg fun hx => hk ((hs _).1 hx)))⟩,
    fun h => ⟨fun hb => exec_answers h (if_pos hb), fun hb hk => exec_answers h ((if_neg (Nat.not_lt.2 hb)).trans
    (if_pos ((hs _).2 hk))), fun hb hk => exec_takes h ((if_neg (Nat.not_lt.2 hb)).trans (if_neg fun hx => hk ((hs _).1 hx)))⟩⟩

/-! ## FULL-RESET (O59) -/

/-- Settles O59: FULL-RESET by the running COMMIT; a stopped agent has no next request. -/
theorem fullResetServed : Obligations.FullResetServed := by
  unfold Obligations.FullResetServed
  refine ⟨fun s o h => ⟨fun hc => exec_answers h (if_pos hc), fun hc => ?_⟩, fun s hs => ?_⟩
  · refine (exec_asked (c := .fullReset) h).trans ?_
    show Host.Outcome.next (finish (turnPointer o (doFullReset o [] s))) = _
    unfold doFullReset
    rw [hc]
    rfl
  · unfold nextRequest nextOrigin
    rw [if_pos hs]

/-! ## The note of a write (O44) -/

theorem unlink_link (n : EntryName) (r : OriginRec) : (r.unlink n).link = if r.link = some n then none else r.link := by
  unfold OriginRec.unlink
  split <;> rfl

theorem noteWrite_origin (o : Origin) (t i : Nat) (s : State) : (noteWrite t i s).ma.origin o = (s.ma.origin o).unlink ⟨t, i⟩ := by
  cases o <;> rfl

theorem readsTable_iff {t : Nat} {s : State} : readsTable t s = true ↔ ∃ o a b, s.ma.long = some ⟨o, .readRange t a b⟩ := by
  unfold readsTable
  split
  next o t' a b h =>
    rw [decide_eq_true_iff]
    constructor
    · rintro rfl
      exact ⟨o, a, b, h⟩
    · rintro ⟨p, x, y, hx⟩
      rw [h] at hx
      injection hx with hx
      injection hx with _ hj
      injection hj
  next hn => exact iff_of_false (by simp) fun ⟨o, a, b, h⟩ => hn o t a b h

/-- Settles O44: the two links are cleared where they name the entry, and the mark follows the table that READ-RANGE reads. -/
theorem writeNoted : Obligations.WriteNoted := by
  unfold Obligations.WriteNoted
  refine fun s t i => ⟨fun o => ?_, fun o a b h => ?_, fun h => ?_, rfl⟩
  · rw [noteWrite_origin, unlink_link]
  · show (s.ma.restartMark || readsTable t s) = true
    rw [readsTable_iff.2 ⟨o, a, b, h⟩, Bool.or_true]
  · have hn : readsTable t s = false := Bool.eq_false_iff.2 fun hr => by
      obtain ⟨o, a, b, hr⟩ := readsTable_iff.1 hr
      exact h o a b hr
    show (s.ma.restartMark || readsTable t s) = _
    rw [hn, Bool.or_false]

end Sys2Proof.Machine
end

section
/-! PROOFS. The request codes, the forms of the requests, and which request is served (O60). -/

namespace Sys2Proof.Machine

open Sys2Proof.Safety

/-! ## Codes and forms -/

/-- The codes of the requests (11.4). -/
def codeTable : List (Nat × ReqCode) :=
  [(0x01, ReqCode.readEntry), (0x02, .readLink), (0x03, .writeEntry), (0x04, .writeCond), (0x05, .readRange), (0x10, .setContext),
    (0x11, .clearContext), (0x20, .permit), (0x21, .reload), (0x22, .clear), (0x23, .clearRetries), (0x30, .pin), (0x31, .unpin),
    (0x32, .prefetch), (0x33, .invalidate), (0x40, .eraseSector), (0x41, .writeRecord), (0x50, .readAttn), (0x51, .clearAttn),
    (0x60, .commit), (0x61, .selfCheck), (0x70, .engineReset), (0x71, .fullReset)]

theorem ofByte_of_table : ∀ p ∈ codeTable, ReqCode.ofByte (byte p.1) = some p.2 := by decide

theorem ofByte_iff {b : Byte} {c : ReqCode} : ReqCode.ofByte b = some c ↔ (b.toNat, c) ∈ codeTable := by
  constructor
  · intro h
    unfold ReqCode.ofByte at h
    split at h
    case h_24 => cases h
    all_goals
      next hb =>
        cases h
        rw [hb]
        decide
  · intro h
    have hb := ofByte_of_table _ h
    rwa [byte_of] at hb

/-- The tables and their entry sizes (11.6). -/
def sizeTable : List (Nat × Nat) :=
  [(0, 13), (1, 24), (2, 8), (3, 54), (4, 11), (5, 8), (8, 20), (9, 66), (10, 7), (11, 10), (12, 4), (13, 3)]

theorem entrySize_iff {t n : Nat} : entrySize t = some n ↔ (t, n) ∈ sizeTable := by
  constructor
  · intro h
    unfold entrySize at h
    split at h
    case h_13 => cases h
    all_goals
      cases h
      decide
  · exact (by decide : ∀ p ∈ sizeTable, entrySize p.1 = some p.2) (t, n)

theorem writeForm_iff {a : List Byte} : writeForm a = true ↔
    2 ≤ a.length ∧ ∀ n, ((a.getD 0 0).toNat, n) ∈ sizeTable → a.length = 2 + n := by
  have he : (match entrySize (rd8 a 0) with | some n => decide (a.length = 2 + n) | none => true) = true ↔
      ∀ n, entrySize (rd8 a 0) = some n → a.length = 2 + n := by
    split
    next n h => simp [h]
    next h => simp [h]
  unfold writeForm
  rw [Bool.and_eq_true, decide_eq_true_iff]
  refine and_congr_right fun _ => he.trans (forall_congr' fun n => imp_congr entrySize_iff Iff.rfl)

/-! ## Which request is served -/

/-- The row of a code that is not the next request's leaves the state. -/
theorem serveRow_other {c : ReqCode} {s : State} (h : ∀ o q, nextRequest s = some (o, q) → q.code ≠ some c)
    (work : Origin → List Byte → State → State) : serveRow c work s = s := by
  unfold serveRow
  split
  next o q hn => rw [if_neg (h o q hn)]
  next => rfl

theorem code_eq_some {q : Request} {c : ReqCode} : q.code = some c ↔ ∃ b a, q.payload = b :: a ∧ ReqCode.ofByte b = some c := by
  unfold Request.code
  cases hp : q.payload <;> simp

theorem code_eq_none {q : Request} : q.code = none ↔ q.payload = [] ∨ ∃ b a, q.payload = b :: a ∧ ReqCode.ofByte b = none := by
  unfold Request.code
  cases hp : q.payload <;> simp

theorem exec_badRequest (s : State) : exec .badRequest s = .next (finish (refuseRequest s)) := rfl

theorem refuseRequest_noCode {s : State} {o : Origin} {q : Request} (hn : nextRequest s = some (o, q)) (hc : q.code = none) :
    refuseRequest s = answered o .badRequest [] s := by
  unfold refuseRequest
  rw [hn]
  exact if_pos hc

theorem refuseRequest_other {s : State} (h : ∀ o q, nextRequest s = some (o, q) → q.code ≠ none) : refuseRequest s = s := by
  unfold refuseRequest
  split
  next o q hn => rw [if_neg (h o q hn)]
  next => rfl

/-- A service turns the pointer to the other origin. -/
theorem serveRow_pointer {c : ReqCode} {s : State} {o : Origin} {q : Request} (hn : nextRequest s = some (o, q)) (hc : q.code = some c)
    (work : Origin → List Byte → State → State) : (serveRow c work s).ma.pointer = o.other := by
  unfold serveRow
  rw [hn]
  simp only
  rw [if_pos hc]
  rfl

theorem finish_pointer (s : State) : (finish s).ma.pointer = s.ma.pointer := by
  obtain ⟨-, -, -, -, -, -, -, -, -, -, -, hm, -⟩ := finish_frame s
  exact congrArg Agent.pointer hm

theorem other_eq (o : Origin) : o.other = if o = .trunk then .service else .trunk := by cases o <;> rfl

/-- Which origin is served, by the WAITING origins and the pointer (R167). -/
theorem nextRequest_of_waiting {s : State} (hs : s.ma.stopped = false) :
    (s.ma.trunk.state = .waiting → s.ma.service.state ≠ .waiting ∨ s.ma.pointer = .trunk →
      nextRequest s = s.ma.trunk.req.map (fun q => (.trunk, q))) ∧
    (s.ma.service.state = .waiting → s.ma.trunk.state ≠ .waiting ∨ s.ma.pointer = .service →
      nextRequest s = s.ma.service.req.map (fun q => (.service, q))) ∧
    (s.ma.trunk.state ≠ .waiting → s.ma.service.state ≠ .waiting → nextRequest s = none) := by
  have ht : isWaiting .trunk s = decide (s.ma.trunk.state = .waiting) := rfl
  have hv : isWaiting .service s = decide (s.ma.service.state = .waiting) := rfl
  unfold nextRequest nextOrigin
  rw [hs, ht, hv]
  refine ⟨fun h1 h2 => ?_, fun h1 h2 => ?_, fun h1 h2 => by simp [h1, h2]⟩
  · rcases h2 with h2 | h2
    · simp only [h1, h2, decide_true, decide_false, Bool.and_false, Bool.false_eq_true, if_false, if_true]
      rfl
    · by_cases h3 : s.ma.service.state = .waiting
      · simp only [h1, h2, h3, decide_true, Bool.and_true, Bool.false_eq_true, if_false, if_true]
        rfl
      · simp only [h1, h3, decide_true, decide_false, Bool.and_false, Bool.false_eq_true, if_false, if_true]
        rfl
  · rcases h2 with h2 | h2
    · simp only [h1, h2, decide_true, decide_false, Bool.false_and, Bool.false_eq_true, if_false, if_true]
      rfl
    · by_cases h3 : s.ma.trunk.state = .waiting
      · simp only [h1, h2, h3, decide_true, Bool.and_true, Bool.false_eq_true, if_false, if_true]
        rfl
      · simp only [h1, h3, decide_true, decide_false, Bool.false_and, Bool.false_eq_true, if_false, if_true]
        rfl

/-- Settles O60: codes and forms by their tables; a request in no row's form, or whose slot is held, by the row's own checks; and the
pointer by the end of every service. -/
theorem badRequestAnswered : Obligations.BadRequestAnswered := by
  unfold Obligations.BadRequestAnswered
  refine ⟨fun b c => ofByte_iff, fun c a n => ⟨fun h => ?length, ?context, fun h => ?write⟩, fun c => ?long, fun s o q hn h => ?noCode,
    fun s o q b a c hn hp hc => ⟨fun hf => ?badForm, fun hf hl hs => ?busy⟩, fun s o q b hn hp => ?permit,
    fun s hs => nextRequest_of_waiting hs, fun s c => ⟨fun o q t hn => ⟨fun h ht => ?turned, fun h ht => ?turnedBad, fun h => ?otherRow,
      fun h => ?otherBad⟩, fun hn => ⟨?idleRow, ?idleBad⟩⟩⟩
  case length =>
    have hall : ∀ p ∈ [(ReqCode.readEntry, 2), (.readLink, 2), (.readRange, 3), (.clearContext, 1), (.permit, 2), (.reload, 1), (.clear, 1),
        (.clearRetries, 1), (.pin, 5), (.unpin, 5), (.prefetch, 5), (.invalidate, 1), (.eraseSector, 2), (.writeRecord, 132),
        (.readAttn, 0), (.clearAttn, 0), (.commit, 0), (.selfCheck, 0), (.engineReset, 0), (.fullReset, 0)],
        formOk p.1 a = decide (a.length = p.2) := by
      simp only [List.forall_mem_cons, formOk, List.not_mem_nil, false_implies, implies_true, and_self]
    rw [hall (c, n) h, decide_eq_true_iff]
  case context =>
    show (decide (3 ≤ a.length) && decide (a.length ≤ 10)) = true ↔ _
    rw [Bool.and_eq_true, decide_eq_true_iff, decide_eq_true_iff]
  case write =>
    rcases h with rfl | rfl
    · exact writeForm_iff
    · exact writeForm_iff
  case long => cases c <;> decide
  case noCode => rw [exec_badRequest, refuseRequest_noCode hn (code_eq_none.2 h)]
  case badForm => rw [exec_rowOf, serveRow_badForm hn hp hc hf]
  case busy => rw [exec_rowOf, serveRow_busy hn hp hc hf hl hs]
  case permit => exact (exec_rowOf .permit s).trans (by rw [serveRow_badForm hn hp rfl rfl])
  case turned =>
    rw [exec_rowOf] at ht
    cases ht
    rw [finish_pointer, serveRow_pointer hn (code_eq_some.2 h), other_eq]
  case turnedBad =>
    rw [exec_badRequest, refuseRequest_noCode hn (code_eq_none.2 h)] at ht
    cases ht
    rw [finish_pointer, ← other_eq]
    rfl
  case otherRow =>
    rw [exec_rowOf, serveRow_other]
    intro o' q' hn' hc
    rw [hn] at hn'
    cases hn'
    obtain ⟨b, a, hp, hb⟩ := code_eq_some.1 hc
    exact h b a hp hb
  case otherBad =>
    rw [exec_badRequest, refuseRequest_other]
    intro o' q' hn' hc
    rw [hn] at hn'
    cases hn'
    rw [code_eq_some.2 h] at hc
    cases hc
  case idleRow =>
    rw [exec_rowOf, serveRow_other]
    intro o q hq
    rw [hn] at hq
    cases hq
  case idleBad =>
    rw [exec_badRequest, refuseRequest_other]
    intro o q hq
    rw [hn] at hq
    cases hq

end Sys2Proof.Machine
end

section
/-! PROOFS. Line and timers (O17, O19), failure by policy and presence loss (O20, O22), the events of a window (O21), and the full reset (O7). -/

namespace Sys2Proof.Machine

open Sys2Proof.Safety

/-! ## The line (O17) -/

theorem exec_lineFalls {s : State} (h : s.phase = .running) : exec .lineFalls s = .next (finish (lineFell (setLinePin false s))) := by
  show execLineFalls s = _
  unfold execLineFalls
  rw [h]

theorem exec_lineRises {s : State} (h : s.phase = .running) : exec .lineRises s = .next (finish (lineRose (setLinePin true s))) := by
  show execLineRises s = _
  unfold execLineRises
  rw [h]

theorem exec_settleTimerExpiry {s : State} (h : s.lm.line = .settle) :
    exec .settleTimerExpiry s = .next (finish (lineUp (updLm (fun l => { l with line := .up, settle := none }) s))) := by
  show execSettleTimerExpiry s = _
  unfold execSettleTimerExpiry
  rw [h]

theorem deglitchMs_of_table : ∀ p ∈ [(0, 1), (1, 2), (2, 5), (3, 10), (4, 20), (5, 50)], deglitchMs p.1 = p.2 := by decide

theorem settleMs_of_table : ∀ p ∈ [(0, 50), (1, 100), (2, 200), (3, 400), (4, 800)], settleMs p.1 = p.2 := by decide

/-- Settles O17: the line monitor's moves, by its state. -/
theorem lineMoves : Obligations.LineMoves := by
  unfold Obligations.LineMoves
  refine ⟨⟨fun s c ms hm hr hl hc => ?fallsUp, fun s hr hl => ?fallsSettle⟩,
    ⟨fun s hr hl => ?risesDip, fun s c ms hm hr hl hc => ?risesGap⟩, fun s hl => ?up⟩
  case fallsUp =>
    have hms : ms = deglitchMs s.tables.settings.deglitchCode := by
      rw [hc]
      exact (deglitchMs_of_table _ hm).symm
    rw [exec_lineFalls hr, hms]
    unfold lineFell setLinePin
    simp only [hl]
    rfl
  case fallsSettle =>
    rw [exec_lineFalls hr]
    unfold lineFell setLinePin
    simp only [hl]
    rfl
  case risesDip =>
    rw [exec_lineRises hr]
    unfold lineRose setLinePin
    simp only [hl]
    rfl
  case risesGap =>
    have hms : ms = settleMs s.tables.settings.settleCode := by
      rw [hc]
      exact (settleMs_of_table _ hm).symm
    rw [exec_lineRises hr, hms]
    unfold lineRose setLinePin
    simp only [hl]
    rfl
  case up => exact exec_settleTimerExpiry hl

/-! ## The timers of a slot (O19) -/

theorem exec_retryTimerExpiry {k : SlotId} {s : State} (h : s.slots[k].retryTimer.isSome = true) : exec (.retryTimerExpiry k) s =
    .next (finish (updSlot k (fun x => { x with state := .absent, reboot := some .retry, retryTimer := none }) s)) := by
  show execRetryTimerExpiry k s = _
  unfold execRetryTimerExpiry
  rw [if_pos h]

theorem exec_stageTimerExpiry {k : SlotId} {s : State} (h : s.slots[k].session.any (fun x => x.timer.isSome) = true) :
    exec (.stageTimerExpiry k) s = .next (finish (failSlot k .stalled s)) := by
  show execStageTimerExpiry k s = _
  unfold execStageTimerExpiry
  rw [if_pos h]

/-- Settles O19: each expiry finds its timer running. -/
theorem slotTimersExpire : Obligations.SlotTimersExpire := by
  unfold Obligations.SlotTimersExpire
  refine ⟨fun s k _ hr => exec_retryTimerExpiry hr, fun s k x hx ht => exec_stageTimerExpiry ?_⟩
  rw [hx]
  exact ht

/-! ## Failures (O20) -/

/-- The slot in failure before its policy: the session ended, the hold queue flushed, the cause recorded. -/
def failBase (k : SlotId) (c : Cause) (s : State) : State :=
  updSlot k (fun x => { x with lastCause := some c, catInUse := none }) (flushHold k (endSession k s))

theorem failBase_slot (k : SlotId) (c : Cause) (s : State) :
    (failBase k c s).slots[k] = { s.slots[k] with session := none, lastCause := some c, catInUse := none } :=
  (failSlot_before k k c s).trans (if_pos rfl)

theorem failSlot_policy {k : SlotId} {c : ClassId} {s : State} (h : s.slots[k].cls = some c) (cause : Cause) :
    failSlot k cause s = applyPolicy k cause s.tables.classes[c] (failBase k cause s) := by
  have hb : classOf k (failBase k cause s) = some s.tables.classes[c] := by
    have ht : (failBase k cause s).tables = s.tables := failSlot_before_tables k cause s
    unfold classOf
    rw [failBase_slot, ht]
    simp only [h, Option.map_some]
  show (match classOf k (failBase k cause s) with
    | some e => applyPolicy k cause e (failBase k cause s)
    | none => failBase k cause s) = _
  rw [hb]

/-- The slot that a policy leaves. -/
def policySlot (e : ClassEntry) (x : SlotStatus) : SlotStatus :=
  match e.policy with
  | .retry =>
    if x.retry + 1 < e.retryLimit then { x with state := .backoff, retry := x.retry + 1, retryTimer := some (retryMs e.retryTime) }
    else { x with state := .failed, retry := x.retry + 1 }
  | .latch => { x with state := .failed }
  | .report | .ignore => { x with state := .absent }

theorem applyPolicy_slot (k : SlotId) (c : Cause) (e : ClassEntry) (s : State) :
    (applyPolicy k c e s).slots[k] = policySlot e s.slots[k] := by
  unfold applyPolicy policySlot
  cases e.policy
  case retry =>
    dsimp only
    split
    · exact updSlot_same ..
    · exact updSlot_same ..
  all_goals exact updSlot_same ..

theorem applyPolicy_au (k : SlotId) (c : Cause) (e : ClassEntry) (s : State) : (applyPolicy k c e s).au =
    if e.policy = .ignore then s.au
    else if e.policy = .retry ∧ e.retryLimit ≤ s.slots[k].retry + 1 then s.au.report .retriesExhausted (.slot k) (some c)
    else s.au.report .restoreFailed (.slot k) (some c) := by
  unfold applyPolicy
  cases he : e.policy
  case retry =>
    dsimp only
    rw [if_neg (c := FailPolicy.retry = FailPolicy.ignore) (by decide)]
    by_cases hl : s.slots[k].retry + 1 < e.retryLimit
    · rw [if_pos hl, if_neg fun h => absurd h.2 (Nat.not_le.2 hl)]
      rfl
    · rw [if_neg hl, if_pos ⟨rfl, Nat.not_lt.1 hl⟩]
      rfl
  case ignore => exact (if_pos rfl).symm
  all_goals exact ((if_neg (by decide)).trans (if_neg fun h => absurd h.1 (by decide))).symm

/-- The end of a session leaves what no cache operation and no users count is. -/
theorem endSession_frame (k : SlotId) (s : State) : (endSession k s).tables = s.tables ∧ (endSession k s).lm = s.lm ∧
    (endSession k s).seg = s.seg ∧ (endSession k s).flash = s.flash ∧ (endSession k s).ports = s.ports ∧ (endSession k s).phase = s.phase := by
  have he : (endSession k s).noEvent = s.noEvent := endSession_noEvent k s
  obtain ⟨h1, -, h3, h4, h5, -, h7, -⟩ := of_noEvent he
  refine ⟨h3, h4, h7, h5, ?_, h1⟩
  unfold endSession
  split
  · rfl
  · obtain ⟨-, -, -, -, -, -, -, -, -, -, -, -, hp, -⟩ := of_noCache (withdrawSlot_noCache k s)
    exact hp

theorem flushHold_empty {k : SlotId} {s : State} (h : s.queues.hold[k] = []) : flushHold k s = s := by
  have hset : s.queues.hold.set k [] = s.queues.hold := by
    rw [← h]
    exact Vector.set_getElem_self k.2
  unfold flushHold
  rw [h]
  show clearHold k s = s
  unfold clearHold updQueues
  dsimp only
  rw [hset]

/-- The trunk queue alone takes the REFUSE frames of a flush. -/
theorem flushHold_queues (k : SlotId) (s : State) :
    (flushHold k s).queues = { s.queues with hold := s.queues.hold.set k [], trunk := (flushHold k s).queues.trunk } := by
  obtain ⟨hh, ho, hv⟩ := refuseAll_queues .notReady s.queues.hold[k] (clearHold k s)
  show (refuseAll _ _ _).queues = _
  generalize hq : (refuseAll .notReady s.queues.hold[k] (clearHold k s)).queues = q at hh ho hv
  have : (flushHold k s).queues = q := hq
  rw [this]
  obtain ⟨out, hold, trunk, service⟩ := q
  simp only at hh ho hv
  subst hh
  subst ho
  subst hv
  rfl

/-- With room in trunk queue and pool a flush answers each held station frame in order, and reports nothing. -/
theorem flushHold_room {k : SlotId} {s : State} (hp : PoolLaw s) (hl : s.queues.trunk.length + s.queues.hold[k].length ≤ 48)
    (hf : s.queues.hold[k].length ≤ (freeBufs s).length) : (flushHold k s).ports = s.ports ∧ (flushHold k s).au = s.au ∧
      ∃ new : List TxEntry, (flushHold k s).queues.trunk = s.queues.trunk ++ new ∧ (∀ e ∈ new, e.resets = false) ∧
        new.map (fun e => (flushHold k s).pool[e.buf].frame) = (refusalsOf .notReady s.queues.hold[k] s).map some := by
  have ho : Owes (s.queues.hold[k] ++ []) [] (clearHold k s) := (owes_nil.2 hp).taken fun b => references_clear b k s.queues
  obtain ⟨h1, h2, -, new, h4, h5, h6⟩ := refuseAll_room .notReady s.queues.hold[k] (clearHold k s) ho hl hf
  exact ⟨h1, h2, new, congrArg Queues.trunk h4, h5, h6⟩

theorem freeBufs_congr {s t : State} (hp : t.pool = s.pool) : freeBufs t = freeBufs s := by
  unfold freeBufs
  rw [hp]

theorem poolLaw_congr {s t : State} (h : PoolLaw s) (hp : t.pool = s.pool) (hq : t.queues = s.queues) : PoolLaw t :=
  owes_nil.1 ((owes_nil.2 h).congr hp hq)

theorem retryMs_of_table : ∀ p ∈ [(0, 250), (1, 1000), (2, 3000), (3, 8000)], retryMs p.1 = p.2 := by decide

/-- A policy writes state, retry count and retry timer of its slot. -/
theorem policySlot_eq (e : ClassEntry) (x : SlotStatus) : policySlot e x = { x with
    state := (policySlot e x).state, retry := (policySlot e x).retry, retryTimer := (policySlot e x).retryTimer } := by
  unfold policySlot
  cases e.policy
  case retry => dsimp only; split <;> rfl
  all_goals rfl

/-- Two slots that differ in what a failure writes. -/
theorem SlotStatus.with_back {x y : SlotStatus} {c : Option Cause} {st : SlotState} {n : Nat} {m : Option Nat}
    (h : y = { x with session := none, lastCause := c, catInUse := none, state := st, retry := n, retryTimer := m }) :
    { y with
      state := x.state, session := x.session, lastCause := x.lastCause, retry := x.retry
      catInUse := x.catInUse, retryTimer := x.retryTimer } = x := by
  rw [h]

/-- Settles O20: the end of the session, the flush, and the policy, each by its own lemma. -/
theorem failureByPolicy : Obligations.FailureByPolicy := by
  unfold Obligations.FailureByPolicy
  intro s k c e cause u hc he hu
  obtain ⟨f1, f2, f3, f4, f5, -⟩ := endSession_frame k s
  obtain ⟨r1, r2, r3, r4, r5⟩ := endSession_rest k s
  obtain ⟨n1, n2, n3, n4, n5, n6, n7, n8, n9, n10, n11, n12, n13, n14⟩ := of_noLinks (flushHold_noLinks k (endSession k s))
  have honly := failSlot_only k cause s
  have hpol : failSlot k cause s = applyPolicy k cause e (failBase k cause s) := he ▸ failSlot_policy hc cause
  have hslot : (failSlot k cause s).slots[k] =
      policySlot e { s.slots[k] with session := none, lastCause := some cause, catInUse := none } := by
    rw [hpol, applyPolicy_slot, failBase_slot]
  have hrest := hslot.trans (policySlot_eq e _)
  have hq : (failSlot k cause s).queues = (flushHold k (endSession k s)).queues := by rw [honly]
  have hqs : (failSlot k cause s).queues =
      { s.queues with hold := s.queues.hold.set k [], trunk := (failSlot k cause s).queues.trunk } := by
    rw [hq, flushHold_queues, r3]
  have hbc : (failSlot k cause s).bc = (endSession k s).bc ∧ (failSlot k cause s).reader = (endSession k s).reader := by
    rw [honly]
    exact flushHold_cache k (endSession k s)
  refine ⟨by rw [hrest], by rw [hrest], by rw [hrest], by rw [hrest], ?hold, fun hp hl => ?retry, fun hp hl => ?exhausted, fun hp => ?latch, fun hp => ?report,
    fun j hj => failSlot_other hj cause s, ?_, ?_, ?_, ?_, ?_, ?_, ?frame, ?au, fun hh => ?noHold, hqs, fun hp hl hf => ?room,
    fun i => ?users, fun hs => ⟨?withdrawn, ?_, ?_⟩, fun hs => ?noSession⟩
  case hold =>
    rw [hqs]
    exact set_same ..
  case retry =>
    have hx : (failSlot k cause s).slots[k] = { s.slots[k] with
        session := none, lastCause := some cause, catInUse := none, state := .backoff, retry := s.slots[k].retry + 1
        retryTimer := some (retryMs e.retryTime) } := by
      rw [hslot]
      unfold policySlot
      rw [hp]
      exact if_pos hl
    rw [hx]
    exact ⟨rfl, rfl, fun ms hm => congrArg some (retryMs_of_table _ hm)⟩
  case exhausted =>
    have hx : (failSlot k cause s).slots[k] = { s.slots[k] with
        session := none, lastCause := some cause, catInUse := none, state := .failed, retry := s.slots[k].retry + 1 } := by
      rw [hslot]
      unfold policySlot
      rw [hp]
      exact if_neg (Nat.not_lt.2 hl)
    rw [hx]
    exact ⟨rfl, rfl⟩
  case latch =>
    rw [hslot]
    unfold policySlot
    rw [hp]
    exact ⟨rfl, rfl⟩
  case report =>
    rw [hslot]
    unfold policySlot
    rcases hp with hp | hp <;> rw [hp] <;> exact ⟨rfl, rfl⟩
  case frame => exact SlotStatus.with_back hrest
  case au =>
    rw [hpol, applyPolicy_au, failBase_slot, hu]
    rfl
  case noHold =>
    have hfl : flushHold k (endSession k s) = endSession k s := flushHold_empty (by rw [r3]; exact hh)
    rw [hu, honly, hfl]
    exact ⟨r4, r3, r5, f5⟩
  case room =>
    obtain ⟨h1, h2, new, h3, h4, h5⟩ := flushHold_room (k := k) (poolLaw_congr hp r5 r3) (by rw [r3]; exact hl)
      (by rw [r3, freeBufs_congr r5]; exact hf)
    rw [refusalsOf_congr _ _ f1 fun b _ => by rw [r5], r3] at h5
    rw [r3] at h3
    refine ⟨?_, (hu.trans h2).trans r4, new, by rw [hq]; exact h3, h4, ?_⟩
    · rw [honly]
      exact h1.trans f5
    · rw [honly]
      exact h5
  case users =>
    have hcat : (failSlot k cause s).catSt = (endSession k s).catSt := by
      rw [honly]
      exact n6
    rw [hcat]
    exact endSession_catSt k i s
  case withdrawn => exact withdrawn_congr (endSession_withdrawn hs) hbc.1 hbc.2
  case noSession =>
    have hne : endSession k s = s := by
      unfold endSession
      rw [hs]
    rw [hbc.1, hbc.2, hne]
    exact ⟨rfl, rfl⟩
  case refine_7 =>
    rw [hbc.1]
    exact (endSession_fills k s hs).1
  case refine_8 =>
    rw [hbc.2]
    exact (endSession_fills k s hs).2
  all_goals
    rw [honly]
    simp only [*]

/-! ## Presence loss (O22) -/

/-- Settles O22: the state of the slot decides. -/
theorem presenceLostByState : Obligations.PresenceLostByState := by
  unfold Obligations.PresenceLostByState
  refine fun s k => ⟨fun c hs hc => ?running, fun hs => ?dark, fun hs => ?restoring, fun hs => ?_⟩
  case running =>
    have hcls : classOf k (raise .lost (.slot k) none (updSlot k (fun x => { x with state := .absent }) s)) = some s.tables.classes[c] := by
      show ((updSlot k (fun x => { x with state := .absent }) s).slots[k].cls).map _ = _
      rw [updSlot_same, hc]
      rfl
    unfold presenceLost
    rw [hs]
    simp only [hcls, Option.any_some, decide_eq_true_eq]
    split <;> rfl
  case dark =>
    unfold presenceLost
    rw [hs]
    rfl
  case restoring =>
    unfold presenceLost
    split
    next hx => exact absurd hs (by rw [hx]; decide)
    next => rfl
    next => rfl
    next => rfl
    all_goals
      next hx => exact absurd hs (by rw [hx]; decide)
  · unfold presenceLost
    rcases hs with hs | hs | hs | hs <;> rw [hs]

/-! ## The window (O21) -/

theorem exec_frameBeginsOnSegment {s : State} (hr : s.phase = .running) :
    (s.seg.port = .window → exec .frameBeginsOnSegment s =
      .next (finish (updSeg (fun g => { g with port := .receiving true, answerTimer := none }) s))) ∧
    (s.seg.port = .free ∨ s.seg.port = .silent → exec .frameBeginsOnSegment s =
      .next (finish (updSeg (fun g => { g with port := .receiving false }) s))) := by
  have he : exec .frameBeginsOnSegment s = execFrameBeginsOnSegment s := rfl
  rw [he]
  unfold execFrameBeginsOnSegment
  rw [if_pos hr]
  refine ⟨fun h => by rw [h], fun h => ?_⟩
  rcases h with h | h <;> rw [h]

theorem exec_answerTimerExpiry {s : State} (h : s.seg.port = .window) :
    exec .answerTimerExpiry s = .next (finish (leavePort (windowMissed s))) := by
  show execAnswerTimerExpiry s = _
  unfold execAnswerTimerExpiry
  rw [h]
  rfl

/-- What leaving the port writes of the segment scheduler. -/
def Segment.left (g : Segment) : Segment := { g with port := if g.silent then .silent else .free, turn := none, answerTimer := none }

theorem leavePort_eq (s : State) : leavePort s = { s with seg := s.seg.left } := rfl

theorem presenceLost_seg (k : SlotId) (s : State) : (presenceLost k s).seg = s.seg := by
  obtain ⟨-, -, -, -, -, -, h, -⟩ := of_noEvent (presenceLost_noEvent k s)
  exact h

/-- Settles O21: the port decides; the window's miss is that of its turn. -/
theorem windowEvents : Obligations.WindowEvents := by
  unfold Obligations.WindowEvents
  refine ⟨fun s hr => exec_frameBeginsOnSegment hr, fun s u g hp ht hg => ?_⟩
  have hm : windowMissed s = if u.void then s else missTurn u.slot s := by
    unfold windowMissed
    rw [ht]
  have hl : s.seg.left = g := hg.symm
  rw [exec_answerTimerExpiry hp, hm, leavePort_eq]
  refine ⟨fun hv => ?void, fun hv hs => ?below, fun hv hs => ?lost⟩
  case void =>
    rw [if_pos hv, hl]
  case below =>
    rw [hv, if_neg Bool.false_ne_true]
    unfold missTurn
    rw [if_neg (Nat.not_le.2 hs)]
    show Host.Outcome.next (finish { s with slots := _, seg := s.seg.left }) = _
    rw [hl]
    rfl
  case lost =>
    rw [hv, if_neg Bool.false_ne_true]
    unfold missTurn
    rw [if_pos hs, presenceLost_seg]
    show Host.Outcome.next (finish { presenceLost u.slot _ with seg := s.seg.left }) = _
    rw [hl]
    rfl

/-! ## The full reset (O7) -/

theorem finish_fullReset (s : State) : finish (fullReset s) = fullReset s := by
  have hp : (settleOutputs (fullReset s)).lm.permits = (fullReset s).lm.permits := by
    refine Vector.ext fun i hi => ?_
    have hr : permitHolds ⟨i, hi⟩ (fullReset s) = false := by
      simp [permitHolds, fullReset, State.reset]
    have hv : (settleOutputs (fullReset s)).lm.permits[i] = permitHolds ⟨i, hi⟩ (fullReset s) := by simp [settleOutputs]
    rw [hv, hr]
    simp [fullReset, State.reset]
  rw [finish_busy (by simp [fullReset, State.reset])]
  have hl : (settleOutputs (fullReset s)).lm = (fullReset s).lm :=
    congrArg (fun p => { (fullReset s).lm with permits := p }) hp
  have he : settleOutputs (fullReset s) = { fullReset s with lm := (settleOutputs (fullReset s)).lm, au := (fullReset s).au } := rfl
  rw [he, hl]

/-- Settles O7: the reset state with what a reset keeps, the cut by the reader's work. -/
theorem fullResetOnPins : Obligations.FullResetOnPins := by
  unfold Obligations.FullResetOnPins
  refine fun s => ⟨cutOf s, ?_, rfl, fun k h => ?_, fun r d h => ?_, fun h => ?_, fun h => ?_, fun f h => ?_, fun l h => ?_⟩
  · exact congrArg Host.Outcome.next (finish_fullReset s)
  all_goals
    unfold cutOf
    rw [h]

end Sys2Proof.Machine
end

section
/-! PROOFS. Buffers and REFUSE (O25), the ends of link transmissions (O26), replies placed or kept (O39), a PIN's waiting blocks (O41). -/

namespace Sys2Proof.Machine

open Sys2Proof.Safety

/-! ## Buffers (O25) -/

/-- The buffer that a released reference leaves. -/
theorem dropRef_same (b : BufId) (s : State) :
    (dropRef b s).pool[b] = if s.pool[b].refs ≤ 1 then ⟨none, 0⟩ else ⟨s.pool[b].frame, s.pool[b].refs - 1⟩ := by
  show (vmod (vmod s.pool b _) b _)[b] = _
  rw [vmod_same, vmod_same]
  by_cases h : s.pool[b].refs ≤ 1
  · rw [if_pos h, if_pos (Nat.sub_eq_zero_of_le h)]
  · rw [if_neg h, if_neg (Nat.sub_ne_zero_of_lt (Nat.not_le.1 h))]

theorem dropRef_other {b c : BufId} (h : c ≠ b) (s : State) : (dropRef b s).pool[c] = s.pool[c] := by
  show (vmod (vmod s.pool b _) b _)[c] = _
  rw [vmod_other _ h, vmod_other _ h]

theorem refuse_none {r : RefuseReason} {f : Frame} {s : State} (h : freeBufs s = []) : refuse r f s = s := by
  unfold refuse
  rw [alloc_none h]

/-- The buffer written for a REFUSE that finds no room is free again: every frame of the pool stands. -/
theorem reclaim_fresh_frame {f : Frame} {b c : BufId} {s : State} (hb : s.pool[b].frame = none) :
    (reclaim b { s with pool := s.pool.set b ⟨some f, 0⟩ }).pool[c].frame = s.pool[c].frame := by
  show (vmod (s.pool.set b _) b _)[c].frame = _
  by_cases hc : c = b
  · subst hc
    rw [vmod_same, set_same, hb]
    rfl
  · rw [vmod_other _ hc, set_other _ hc]

/-- Settles O25: a release by its count, a REFUSE by pool and queue. -/
theorem buffersReferenced : Obligations.BuffersReferenced := by
  unfold Obligations.BuffersReferenced
  refine ⟨fun s b => ⟨rfl, fun h => ?last, fun h => ?more, fun c hc => dropRef_other hc s⟩, fun s r f => ⟨refuse_none, fun hf hl => ?placed,
    fun hf hl => ?overrun⟩⟩
  case last => rw [dropRef_same, if_pos h]
  case more => rw [dropRef_same, if_neg (Nat.not_le.2 h)]
  case placed =>
    obtain ⟨b, hb, he⟩ := refuse_placed r f hf hl
    refine ⟨b, hb, he.trans ?_⟩
    unfold addRef
    dsimp only
    rw [vmod_set]
    rfl
  case overrun =>
    obtain ⟨b, hb, ha⟩ := alloc_free (f := refuseFrame r f s) hf
    have he : refuse r f s = countOverrun .trunk (reclaim b { s with pool := s.pool.set b ⟨some (refuseFrame r f s), 0⟩ }) := by
      unfold refuse
      rw [ha]
      exact if_neg (Nat.not_lt.2 hl)
    refine ⟨(reclaim b { s with pool := s.pool.set b ⟨some (refuseFrame r f s), 0⟩ }).pool, fun c => reclaim_fresh_frame hb, he⟩

/-! ## The ends of link transmissions (O26) -/

theorem exec_trunkTransmissionEnd {e : TxEntry} {es : List TxEntry} {s : State} (h : s.queues.trunk = e :: es) :
    exec .trunkTransmissionEnd s = .next (finish (sent .trunk e { s with queues := { s.queues with trunk := es } })) := by
  show execTrunkTransmissionEnd s = _
  unfold execTrunkTransmissionEnd
  rw [h]
  rfl

theorem exec_serviceTransmissionEnd {e : TxEntry} {es : List TxEntry} {s : State} (h : s.queues.service = e :: es) :
    exec .serviceTransmissionEnd s = .next (finish (sent .service e { s with queues := { s.queues with service := es } })) := by
  show execServiceTransmissionEnd s = _
  unfold execServiceTransmissionEnd
  rw [h]
  rfl

theorem sent_plain {e : TxEntry} (h : e.resets = false) (p : Port) (s : State) : sent p e s = countSent p (dropRef e.buf s) := by
  unfold sent
  rw [h]
  rfl

/-- The full reset after its reply is that of the state before: it reads neither pool, queues nor counters. -/
theorem sent_resets {e : TxEntry} (h : e.resets = true) (p : Port) (q : Queues) (s : State) :
    sent p e { s with queues := q } = fullReset s := by
  unfold sent
  rw [h]
  cases p <;> rfl

/-- Settles O26: the head entry by its reset mark. -/
theorem linkTransmissionEnds : Obligations.LinkTransmissionEnds := by
  unfold Obligations.LinkTransmissionEnds
  refine fun s e es => ⟨fun h hr => ?_, fun h hr => ?_, fun h hr => ?_, fun h hr => ?_⟩
  · rw [exec_trunkTransmissionEnd h, sent_plain hr]
    rfl
  · rw [exec_serviceTransmissionEnd h, sent_plain hr]
    rfl
  · rw [exec_trunkTransmissionEnd h, sent_resets hr]
    rfl
  · rw [exec_serviceTransmissionEnd h, sent_resets hr]
    rfl

/-! ## Replies (O39) -/

/-- The reply built for the request of an origin. -/
def builtFor (o : Origin) (q : Request) (st : Status) (data : List Byte) (x : Bool) (s : State) : BuiltReply :=
  ⟨o, false, x, replyFrame q st false data s⟩

theorem finalReply_request {o : Origin} {q : Request} {s : State} (h : (s.ma.origin o).req = some q) (st : Status) (data : List Byte)
    (x : Bool) : finalReply o st data x s = queueReply (builtFor o q st data x s) (updOrigin o (fun r => { r with state := .replying }) s) := by
  unfold finalReply
  rw [h]
  rfl

theorem updOrigin_queues (o : Origin) (g : OriginRec → OriginRec) (s : State) :
    (updOrigin o g s).queues = s.queues ∧ (updOrigin o g s).pool = s.pool ∧ (updOrigin o g s).ma.replies = s.ma.replies := by
  cases o <;> exact ⟨rfl, rfl, rfl⟩

/-- A final reply with no other waiting, room in its queue and a free buffer is placed. -/
theorem finalReply_placed {o : Origin} {q : Request} {s : State} (h : (s.ma.origin o).req = some q) (hn : s.ma.replies = [])
    (hf : freeBufs s ≠ []) (hr : HasRoom o s) (st : Status) (data : List Byte) (x : Bool) : ∃ b : BufId, s.pool[b].frame = none ∧
      finalReply o st data x s = { s with
        pool := s.pool.set b ⟨some (replyFrame q st false data s), 1⟩, queues := atTail o b x s.queues, ma := atRest o s.ma } := by
  obtain ⟨hq, hp, hw⟩ := updOrigin_queues o (fun r => { r with state := .replying }) s
  obtain ⟨b, hb, he⟩ := queueReply_placed (r := builtFor o q st data x s) (s := updOrigin o (fun r => { r with state := .replying }) s)
    (by rwa [freeBufs_congr hp]) (fun y hy => by rw [hw, hn] at hy; cases hy) ((HasRoom.congr hq).2 hr)
  refine ⟨b, hp ▸ hb, (finalReply_request h st data x).trans (he.trans ?_)⟩
  cases o <;> rfl

/-- Settles O39: a reply by its request, and kept or placed by the rule of the reply queue. -/
theorem repliesPlaced : Obligations.RepliesPlaced := by
  unfold Obligations.RepliesPlaced
  refine ⟨fun s st data x q hn hf => ⟨fun hq hl => ?trunk, fun hq hl => ?service⟩, fun s t o st data x q r hq hr ht => ?final,
    fun s r => ⟨queueReply_kept, queueReply_placed, queueReply_older⟩, fun s => ⟨rfl, placeOne_none, fun older newer r a h ho hr hf ha => ?one⟩⟩
  case trunk => exact finalReply_placed (o := .trunk) hq hn hf (.inl ⟨rfl, hl⟩) st data x
  case service => exact finalReply_placed (o := .service) hq hn hf (.inr ⟨rfl, hl⟩) st data x
  case final =>
    have ht' : t = updOrigin o (fun r => { r with state := .replying }) s := by
      rw [ht]
      cases o <;> rfl
    have he : finalReply o st data x s = queueReply r t := by
      rw [hr, ht']
      exact finalReply_request hq st data x
    obtain ⟨hqq, hpp, hww⟩ := updOrigin_queues o (fun r => { r with state := .replying }) s
    rw [← ht'] at hqq hpp hww
    refine ⟨he, fun hk => he.trans ?_⟩
    have hro : r.origin = o := by rw [hr]
    rw [queueReply_kept, hww]
    rw [freeBufs_congr hpp, hww, hro]
    exact hk.imp_right fun ⟨h1, h2⟩ => ⟨fun y hy hy' => h1 y hy ((HasRoom.congr hqq).1 hy'), fun ho => h2 ((HasRoom.congr hqq).1 ho)⟩
  case one =>
    subst ha
    exact placeOne_some h ho hr hf

/-! ## A PIN's waiting list (O41) -/

theorem pinDone_running {s : State} (h : s.bc.reservation ≠ 0) : pinDone s = s := if_neg fun hx => h hx.2

theorem pinImage_pin {s : State} {o : Origin} {i : ImageId} {w : List Nat} (h : s.ma.long = some ⟨o, .pin i w⟩) : pinImage s = some i := by
  unfold pinImage
  rw [h]

theorem pinDone_spent {s : State} {o : Origin} {i : ImageId} {w : List Nat} (h : s.ma.long = some ⟨o, .pin i w⟩) (hr : s.bc.reservation = 0) :
    pinDone s = finalReply o .ok [] false { s with ma := { s.ma with long := none } } := by
  unfold pinDone
  rw [if_pos ⟨by rw [pinImage_pin h]; rfl, hr⟩]
  unfold endLong
  rw [h]
  rfl

/-- The blocks after the first are those of a PIN that waits for them alone. -/
theorem placeWaiting_rest {s : State} {o : Origin} {i : ImageId} {b : Nat} {bs : List Nat} (h : s.ma.long = some ⟨o, .pin i (b :: bs)⟩)
    (hl : s.bc.fills.length < 16) (hb : bs ≠ []) : placeWaiting s =
      placeWaiting { request .pin i b s with ma := { s.ma with long := some ⟨o, .pin i bs⟩ } } := by
  obtain ⟨c, cs, rfl⟩ := List.exists_cons_of_ne_nil hb
  have hm : (request .pin i b s).ma = s.ma := request_ma ..
  have hlong : (request .pin i b s).ma.long = some ⟨o, .pin i (b :: c :: cs)⟩ := by rw [hm, h]
  rw [placeWaiting_cons h, if_neg (Nat.not_le.2 hl), placeWaiting_cons (o := o) (i := i) (b := c) (bs := cs) rfl, ← hm]
  generalize request .pin i b s = u at hlong ⊢
  congr 1
  show (if fillsFull u then setWaiting (c :: cs) u else takeWaiting i cs (request .pin i c u)) = _
  by_cases hf : 16 ≤ u.bc.fills.length
  · rw [if_pos (fillsFull_iff.2 hf), if_pos hf, setWaiting_pin hlong]
  · have hlc : (request .pin i c u).ma.long = some ⟨o, .pin i (b :: c :: cs)⟩ := by rw [request_ma, hlong]
    have hlist := takeWaiting_list hlc cs (c :: cs)
    rw [request_ma] at hlist
    rw [if_neg fun hx => hf (fillsFull_iff.1 hx), if_neg hf, request_withMa .pin i c { u.ma with long := some ⟨o, .pin i (c :: cs)⟩ } u]
    exact hlist.symm

theorem placeWaiting_last {s : State} {o : Origin} {i : ImageId} {b : Nat} (h : s.ma.long = some ⟨o, .pin i [b]⟩)
    (hl : s.bc.fills.length < 16) :
    placeWaiting s = pinDone { request .pin i b s with ma := { s.ma with long := some ⟨o, .pin i []⟩ } } := by
  have hm : (request .pin i b s).ma = s.ma := request_ma ..
  have hlong : (request .pin i b s).ma.long = some ⟨o, .pin i [b]⟩ := by rw [hm, h]
  rw [placeWaiting_cons h, if_neg (Nat.not_le.2 hl), ← hm]
  exact congrArg pinDone (setWaiting_pin hlong [])

/-- With 15 entries queued and a head that needs room, the head is entered and the rest waits. -/
theorem placeWaiting_fills {s : State} {o : Origin} {i : ImageId} {b : Nat} {bs : List Nat} (h : s.ma.long = some ⟨o, .pin i (b :: bs)⟩)
    (hr : s.bc.reservation ≠ 0) (hl : s.bc.fills.length = 15) (hb : bs ≠ []) (hn : needsRoom i b s = true) : placeWaiting s = { s with
      bc := { s.bc with fills := s.bc.fills ++ [⟨i, b, [], true, false, 8, markedLine i b s⟩] }
      ma := { s.ma with long := some ⟨o, .pin i bs⟩ } } := by
  obtain ⟨hv, hf, hq⟩ := needsRoom_iff.1 hn
  obtain ⟨c, cs, rfl⟩ := List.exists_cons_of_ne_nil hb
  rw [placeWaiting_rest h (by omega) hb, request_new hv hf hq (by omega), placeWaiting_cons (o := o) (i := i) (b := c) (bs := cs) rfl,
    if_pos (by simp [hl])]
  exact pinDone_running hr

/-- Settles O41: the waiting list by its head and the room, each request by its place. -/
theorem waitingPinPlaced : Obligations.WaitingPinPlaced := by
  unfold Obligations.WaitingPinPlaced
  refine ⟨fun s => ⟨rfl, placeWaiting_idle⟩, fun s u o i b bs h => ⟨fun hl hr => ?full, fun hl hu => ⟨fun hb => ?rest, fun hb hr => ?last,
    fun hb hr => ?done⟩, fun hr hl hb hn => ?fills⟩, fun s i b => ⟨fun l p d hl hm => request_pin_valid hl hm, fun hv =>
      ⟨fun f hf hr => request_heldFilling hv hf hr .pin, fun hf => ⟨fun hq => request_queued hv hf hq .pin,
        fun hq hl => request_new hv hf hq hl .pin⟩⟩⟩⟩
  case full => rw [placeWaiting_cons h, if_pos hl, pinDone_running hr]
  case rest => rw [hu, placeWaiting_rest h hl hb]
  case last =>
    subst hb
    rw [placeWaiting_last h hl, ← hu, pinDone_running (by exact hr)]
  case done =>
    subst hb
    rw [placeWaiting_last h hl, ← hu, pinDone_spent (o := o) (i := i) (w := []) rfl (by exact hr)]
  case fills =>
    show Host.Outcome.next (finish (placeWaiting s)) = _
    rw [placeWaiting_fills h hr hl hb hn]

end Sys2Proof.Machine
end

section
/-! PROOFS. What an entry reads as (O42), and the writes of the agent (O43). -/

namespace Sys2Proof.Machine

open Sys2Proof.Safety

/-! ## Bytes of bits, counts and records -/

/-- The bit of a flag. -/
def bit (b : Bool) : Nat := if b then 1 else 0

theorem bitsByte_four (a b c d : Bool) : bitsByte [a, b, c, d] = byte (bit a + 2 * bit b + 4 * bit c + 8 * bit d) := by
  refine congrArg byte ?_
  show bit a + 2 * (bit b + 2 * (bit c + 2 * (bit d + 2 * 0))) = _
  omega

theorem bitsByte_six (a b c d e f : Bool) : bitsByte [a, b, c, d, e, f] =
    byte (bit a + 2 * bit b + 4 * bit c + 8 * bit d + 16 * bit e + 32 * bit f) := by
  refine congrArg byte ?_
  show bit a + 2 * (bit b + 2 * (bit c + 2 * (bit d + 2 * (bit e + 2 * (bit f + 2 * 0))))) = _
  omega

theorem toList_eq_map {α : Type} {n : Nat} (v : Vector α n) : v.toList = (List.finRange n).map (fun i => v[i]) := by
  refine List.ext_getElem (by simp) fun i h1 h2 => ?_
  simp

theorem bitsByte_vector (v : Vector Bool 4) : bitsByte v.toList = byte (bit v[0] + 2 * bit v[1] + 4 * bit v[2] + 8 * bit v[3]) := by
  rw [toList_eq_map]
  exact bitsByte_four ..

theorem byte_add (m n : Nat) : byte m + byte n = byte (m + n) := (BitVec.ofNat_add m n).symm

theorem rebootBits (r : Option RebootReason) : byte (16 * ((r.map RebootReason.code).getD 0).toNat) =
    byte (16 * bit (decide (r = some .clear)) + 32 * bit (decide (r = some .reload))) := by
  cases r with
  | none => rfl
  | some r => cases r <;> rfl

theorem SlotStatus.flags_eq (x : SlotStatus) : x.flags = byte (bit x.stale + 2 * bit x.coldNext + 4 * bit x.reloadExpected +
    8 * bit x.reboot.isSome + 16 * bit (decide (x.reboot = some .clear)) + 32 * bit (decide (x.reboot = some .reload))) := by
  unfold SlotStatus.flags
  rw [bitsByte_four, rebootBits, byte_add, ← Nat.add_assoc]

/-- The mask gathered over a list of fields. -/
theorem getLsbD_fields (r : CtxRecord) (l : List FieldId) (m : BitVec 16) (g : FieldId) :
    (l.foldl (fun m f => if r[f].isSome then m ||| (1#16 <<< f.val) else m) m).getLsbD g =
      (m.getLsbD g || (decide (g ∈ l) && r[g].isSome)) := by
  induction l generalizing m with
  | nil => simp
  | cons f l ih =>
    have hbit : (1#16 <<< f.val).getLsbD g = decide (g = f) := by
      rw [← BitVec.twoPow_eq, BitVec.getLsbD_twoPow]
      simp [Fin.ext_iff, eq_comm]
    rw [List.foldl_cons, ih]
    by_cases hg : g = f
    · subst hg
      by_cases hs : r[g].isSome = true
      · simp only [hs, if_true, BitVec.getLsbD_or, hbit, decide_true, Bool.or_true, Bool.true_or, List.mem_cons, true_or, Bool.and_self]
      · simp only [Bool.not_eq_true] at hs
        simp only [hs, Bool.and_false, Bool.false_eq_true, if_false]
    · have hm : decide (g ∈ f :: l) = decide (g ∈ l) := by simp [hg]
      rw [hm]
      split
      · rw [BitVec.getLsbD_or, hbit, decide_eq_false hg, Bool.or_false]
      · rfl

theorem CtxRecord.getLsbD_mask (r : CtxRecord) (g : FieldId) : r.mask.getLsbD g = r[g].isSome := by
  unfold CtxRecord.mask
  rw [getLsbD_fields]
  simp

theorem CtxRecord.values_eq (r : CtxRecord) : r.values = (List.finRange 16).flatMap (fun f => r[f].getD []) := by
  unfold CtxRecord.values
  rw [toList_eq_map, List.flatMap_map]

theorem SlotState.code_of_table : ∀ p ∈ [(SlotState.vacant, 0), (.absent, 1), (.dark, 2), (.loading, 3), (.starting, 4), (.context, 5),
    (.running, 6), (.backoff, 7), (.failed, 8)], p.1.code = byte p.2 := by decide

theorem LineState.code_of_table : ∀ p ∈ [(LineState.up, 0), (.dip, 1), (.gap, 2), (.settle, 3)], p.1.code = byte p.2 := by decide

/-! ## The tables -/

/-- The tables and how many entries each has (R170). -/
def countTable : List (Nat × Nat) :=
  [(0, 1), (1, 8), (2, 32), (3, 16), (4, 48), (5, 32), (8, 32), (9, 32), (10, 1), (11, 3), (12, 1), (13, 16)]

theorem countTable_sound : ∀ p ∈ countTable, (isConfig p.1 || isReadOnly p.1) = true ∧ tableCount p.1 = p.2 := by decide

theorem tableCount_mem {t i : Nat} (h : i < tableCount t) : (t, tableCount t) ∈ countTable := by
  unfold tableCount at h ⊢
  split at h
  case h_13 => exact absurd h (Nat.not_lt_zero i)
  all_goals decide

theorem inTable_iff {t i : Nat} : inTable t i = true ↔ ∃ n, (t, n) ∈ countTable ∧ i < n := by
  unfold inTable
  rw [Bool.and_eq_true, decide_eq_true_iff]
  constructor
  · exact fun ⟨_, h⟩ => ⟨_, tableCount_mem h, h⟩
  · rintro ⟨n, hn, hi⟩
    obtain ⟨h1, h2⟩ := countTable_sound _ hn
    exact ⟨h1, h2.symm ▸ hi⟩

theorem isReadOnly_iff {t : Nat} : isReadOnly t = true ↔ 8 ≤ t ∧ t ≤ 13 := by
  unfold isReadOnly
  rw [Bool.and_eq_true, decide_eq_true_iff, decide_eq_true_iff]

theorem entryData_bytes (t i : Byte) (s : State) : entryData t.toNat i.toNat s = t :: i :: encodeEntry t.toNat i.toNat s := by
  unfold entryData
  rw [byte_of, byte_of]
  rfl

/-! ## READ-ENTRY and READ-LINK (O42) -/

theorem doReadEntry_eq (o : Origin) (t i : Byte) (s : State) : doReadEntry o [t, i] s =
    if inTable t.toNat i.toNat then replyOk o (t :: i :: encodeEntry t.toNat i.toNat s) s else reply o .badValue s := by
  unfold doReadEntry
  rw [rd8_0, rd8_1, entryData_bytes]

theorem doReadLink_eq (o : Origin) (t i : Byte) (s : State) : doReadLink o [t, i] s =
    if 8 ≤ t.toNat ∧ t.toNat ≤ 13 then reply o .notAllowed s
    else if inTable t.toNat i.toNat then
      replyOk o (t :: i :: encodeEntry t.toNat i.toNat s) (updOrigin o (fun r => { r with link := some ⟨t.toNat, i.toNat⟩ }) s)
    else reply o .badValue s := by
  unfold doReadLink
  rw [rd8_0, rd8_1, entryData_bytes]
  simp only [isReadOnly_iff]

theorem getD_at {α : Type} {n : Nat} (v : Vector α n) (i : Fin n) (g : α → List Byte) : ((v[i.val]?).map g).getD [] = g v[i] := by
  rw [Vector.getElem?_eq_getElem i.2]
  rfl

/-- The slot status entry, item by item (R5, R198). -/
theorem SlotStatus.encode_eq {x : SlotStatus} {n : Nat} (h : x.state.code = byte n) : x.encode =
    [byte n, byte (bit x.cls.isSome + 2 * bit x.expTag.isSome + 4 * bit x.catInUse.isSome + 8 * bit x.lastCause.isSome +
        16 * bit x.session.isSome + 32 * bit (x.session.any (fun y => y.through.isSome))),
      byte ((x.cls.map Fin.val).getD 0)] ++ be32 (x.expTag.getD 0) ++
    [byte ((x.catInUse.map Fin.val).getD 0), byte x.retry, byte x.miss, byte x.holdMissed,
      byte (bit x.stale + 2 * bit x.coldNext + 4 * bit x.reloadExpected + 8 * bit x.reboot.isSome +
        16 * bit (decide (x.reboot = some .clear)) + 32 * bit (decide (x.reboot = some .reload))),
      (x.lastCause.map Cause.code).getD 0] ++
    match x.session with
    | some y => be16 y.cursor ++ be16 (y.through.getD 0) ++ [byte y.inFlight.length] ++ be16 y.resends
    | none => [0, 0, 0, 0, 0, 0, 0] := by
  have hc : ∀ {m : Nat} (o : Option (Fin m)), (o.map (fun c => byte c.val)).getD 0 = byte ((o.map Fin.val).getD 0) := fun o => by
    cases o <;> rfl
  have hv : (x.session.map Session.view).getD (List.replicate 7 0) = match x.session with
      | some y => be16 y.cursor ++ be16 (y.through.getD 0) ++ [byte y.inFlight.length] ++ be16 y.resends
      | none => [0, 0, 0, 0, 0, 0, 0] := by
    cases x.session <;> rfl
  unfold SlotStatus.encode
  rw [h, hv, hc, hc, SlotStatus.flags_eq, SlotStatus.presence, bitsByte_six]

/-- Settles O42: the two reads by their tests, and each table's entry by its encoding. -/
theorem entriesRead : Obligations.EntriesRead := by
  unfold Obligations.EntriesRead
  refine ⟨fun s o t i => ⟨fun h => ?entry, fun h => ?link⟩, fun t i => inTable_iff, fun s => ⟨⟨rfl, fun i => getD_at .., fun i => getD_at ..,
    fun i => getD_at .., fun i => getD_at .., fun i => getD_at ..⟩, fun k x n one hx hone hn => ?slot, fun k v hv => ?record,
    fun n one hone hn => ?line, fun i c hc => ?port, rfl, fun i => ?catalogue⟩⟩
  case entry =>
    split
    next hi => exact exec_answers h ((doReadEntry_eq o t i s).trans (if_pos hi))
    next hi => exact exec_answers h ((doReadEntry_eq o t i s).trans (if_neg hi))
  case link =>
    split
    next hr => exact exec_answers h ((doReadLink_eq o t i s).trans (if_pos hr))
    next hr =>
      split
      next hi => exact exec_answers h ((doReadLink_eq o t i s).trans ((if_neg hr).trans (if_pos hi)))
      next hi => exact exec_answers h ((doReadLink_eq o t i s).trans ((if_neg hr).trans (if_neg hi)))
  case slot =>
    have ho : one = bit := funext hone
    subst ho
    subst hx
    exact (getD_at s.slots k SlotStatus.encode).trans (SlotStatus.encode_eq (SlotState.code_of_table _ hn))
  case record =>
    refine ⟨(s.ctx[k]).mask, fun f => CtxRecord.getLsbD_mask _ f, (getD_at s.ctx k CtxRecord.encode).trans ?_⟩
    unfold CtxRecord.encode
    rw [CtxRecord.values_eq, hv]
  case line =>
    have ho : one = bit := funext hone
    subst ho
    show s.lm.encode = _
    unfold LineMon.encode
    rw [LineState.code_of_table _ hn, bitsByte_vector, bitsByte_vector]
  case port =>
    simp only [List.mem_cons, Prod.mk.injEq, List.not_mem_nil, or_false] at hc
    rcases hc with ⟨rfl, rfl⟩ | ⟨rfl, rfl⟩ | ⟨rfl, rfl⟩ <;> rfl
  case catalogue =>
    show ((finAt 16 i).map (fun j => catalogueStatus j s)).getD [] = _
    rw [finAt_val]
    rfl

/-! ## Writes (O43) -/

theorem writeRefusal_readOnly {t : Nat} (h : 8 ≤ t) (h' : t ≤ 13) (i : Nat) (s : State) : writeRefusal t i s = some .notAllowed :=
  if_pos (isReadOnly_iff.2 ⟨h, h'⟩)

theorem writeRefusal_busy {t : Nat} (h : t ≤ 5) {s : State} (hc : commitRuns s = true) (i : Nat) : writeRefusal t i s = some .busy := by
  have hr : ¬ isReadOnly t = true := fun hr => by
    have := (isReadOnly_iff.1 hr).1
    omega
  have hf : isConfig t = true := decide_eq_true h
  unfold writeRefusal
  rw [if_neg hr, hf, hc]
  rfl

theorem writeRefusal_absent {t i : Nat} (h : t < 8 ∨ 13 < t) {s : State} (hc : commitRuns s = false) (hi : inTable t i = false) :
    writeRefusal t i s = some .badValue := by
  have hr : ¬ isReadOnly t = true := fun hr => by
    have := isReadOnly_iff.1 hr
    omega
  unfold writeRefusal
  rw [if_neg hr, hc, hi, Bool.and_false]
  rfl

theorem writeRefusal_none {t i : Nat} (h : t ≤ 5) {s : State} (hc : commitRuns s = false) (hi : inTable t i = true) :
    writeRefusal t i s = none := by rw [writeRefusal_config h hc, if_pos hi]

theorem doWriteEntry_eq (o : Origin) (t i : Byte) (e : List Byte) (s : State) : doWriteEntry o (t :: i :: e) s =
    match writeRefusal t.toNat i.toNat s with
    | some st => reply o st s
    | none => carryOut o t.toNat i.toNat e s := by
  unfold doWriteEntry
  rw [rd8_0, rd8_1]
  rfl

theorem exec_write_refused {o : Origin} {t i : Byte} {e : List Byte} {s : State} {st : Status} (h : Asked .writeEntry o (t :: i :: e) s)
    (hr : writeRefusal t.toNat i.toNat s = some st) : exec .writeEntry s = .next (finish (answered o st [] s)) :=
  exec_answers h ((doWriteEntry_eq ..).trans (by rw [hr]; rfl))

theorem exec_write_carried {o : Origin} {t i : Byte} {e : List Byte} {s : State} (h : Asked .writeEntry o (t :: i :: e) s)
    (hr : writeRefusal t.toNat i.toNat s = none) :
    exec .writeEntry s = .next (finish (wrote o t.toNat i.toNat (writeConfig t.toNat i.toNat e s))) := by
  refine (exec_asked (c := .writeEntry) h).trans ?_
  show Host.Outcome.next (finish (turnPointer o (doWriteEntry o (t :: i :: e) s))) = _
  rw [doWriteEntry_eq, hr, ← carryOut_wrote]

theorem exec_cond_refused {o : Origin} {t i : Byte} {e : List Byte} {s : State} {st : Status} (h : Asked .writeCond o (t :: i :: e) s)
    (hr : writeRefusal t.toNat i.toNat s = some st) : exec .writeCond s = .next (finish (answered o st [] s)) := by
  refine exec_answers h ?_
  show doWriteCond o (t :: i :: e) s = _
  unfold doWriteCond
  rw [rd8_0, rd8_1, hr]
  rfl

theorem exec_cond_carried {o : Origin} {t i : Byte} {e : List Byte} {s : State} (h : Asked .writeCond o (t :: i :: e) s)
    (hr : writeRefusal t.toNat i.toNat s = none) (hl : (s.ma.origin o).link = some ⟨t.toNat, i.toNat⟩) :
    exec .writeCond s = .next (finish (wrote o t.toNat i.toNat
      (writeConfig t.toNat i.toNat e (updOrigin o (fun r => { r with link := none }) s)))) := by
  refine (exec_asked (c := .writeCond) h).trans ?_
  show Host.Outcome.next (finish (turnPointer o (doWriteCond o (t :: i :: e) s))) = _
  rw [doWriteCond_test o t i e hr, if_pos hl, ← carryOut_wrote]

theorem exec_cond_unlinked {o : Origin} {t i : Byte} {e : List Byte} {s : State} (h : Asked .writeCond o (t :: i :: e) s)
    (hr : writeRefusal t.toNat i.toNat s = none) (hl : (s.ma.origin o).link ≠ some ⟨t.toNat, i.toNat⟩) :
    exec .writeCond s = .next (finish (answered o .linkLost [] (updOrigin o (fun r => { r with link := none }) s))) :=
  exec_answers h ((doWriteCond_test o t i e hr).trans (if_neg hl))

/-! ## The owners, by table -/

theorem writeConfig_fwd {e : List Byte} {x : FwdRule} (h : FwdRule.decode e = some x) (k : Fin 48) (s : State) :
    writeConfig 4 k e s = (.ok, { s with tables := { s.tables with fwd := s.tables.fwd.set k x } }) := by
  simp only [writeConfig, finAt_val, h]

theorem writeConfig_fwd_none {e : List Byte} (h : FwdRule.decode e = none) (k : Fin 48) (s : State) :
    writeConfig 4 k e s = (.badValue, s) := by
  simp only [writeConfig, finAt_val, h]

theorem writeConfig_cap {e : List Byte} {x : CapRule} (h : CapRule.decode e = some x) (k : Fin 32) (s : State) :
    writeConfig 5 k e s = (.ok, { s with tables := { s.tables with cap := s.tables.cap.set k x } }) := by
  simp only [writeConfig, finAt_val, h]

theorem writeConfig_cap_none {e : List Byte} (h : CapRule.decode e = none) (k : Fin 32) (s : State) :
    writeConfig 5 k e s = (.badValue, s) := by
  simp only [writeConfig, finAt_val, h]

theorem inTable_fwd (k : Fin 48) : inTable 4 k = true := inTable_iff.2 ⟨48, by decide, k.2⟩

theorem inTable_cap (k : Fin 32) : inTable 5 k = true := inTable_iff.2 ⟨32, by decide, k.2⟩

/-- A refused write leaves the state. -/
theorem writeConfig_refused {t i : Nat} {e : List Byte} {s n : State} {st : Status} (h : writeConfig t i e s = (st, n)) (hs : st ≠ .ok) :
    n = s := by
  have hk : ∀ {r : Status × State}, (r.1 = .ok ∨ r.2 = s) → r = (st, n) → n = s := by
    rintro r (h1 | h2) rfl
    · exact absurd h1 hs
    · exact h2
  refine hk ?_ h
  unfold writeConfig
  split
  · split
    · exact .inl rfl
    · exact .inr rfl
  · split
    · unfold setClassEntry
      split
      · exact .inr rfl
      · exact .inl rfl
    · exact .inr rfl
  · split
    · unfold setSlotEntry
      split
      · exact .inr rfl
      · split
        · exact .inr rfl
        · exact .inl rfl
    · exact .inr rfl
  · split
    · unfold setCatEntry
      split
      · exact .inr rfl
      · exact .inl rfl
    · exact .inr rfl
  · split
    · exact .inl rfl
    · exact .inr rfl
  · split
    · exact .inl rfl
    · exact .inr rfl
  · exact .inr rfl

/-! ## The links after a service -/

theorem finish_links (s : State) : (finish s).links = s.links := by
  obtain ⟨-, -, -, -, -, -, -, -, -, -, -, hm, -⟩ := finish_frame s
  exact links_of_ma hm

theorem answered_links (o : Origin) (st : Status) (d : List Byte) (s : State) : (answered o st d s).links = s.links := by
  simp [answered]

/-- A write, accepted or refused, leaves an absent link absent. -/
theorem wrote_link_none {o p : Origin} {t i : Nat} {r : Status × State} (h : (r.2.ma.origin p).link = none) :
    ((wrote o t i r).ma.origin p).link = none := by
  obtain ⟨st, n⟩ := r
  have hr : ∀ st, ((answered o st [] n).ma.origin p).link = none := fun st => (link_of (answered_links o st [] n) p).trans h
  have hn : ((noteWrite t i n).ma.origin p).link = none := by
    rw [noteWrite_origin, unlink_link, h]
    rfl
  cases st
  case ok => exact (link_of (answered_links o .ok [] _) p).trans hn
  all_goals exact hr _

/-- Settles O43: both writes by their refusals, the link and the owner. -/
theorem written : Obligations.Written := by
  unfold Obligations.Written
  have h4 : (4 : Byte).toNat = 4 := rfl
  have h5 : (5 : Byte).toNat = 5 := rfl
  refine ⟨fun s o t i e h => ⟨fun h1 h2 => exec_write_refused h (writeRefusal_readOnly h1 h2 _ s),
      fun h1 hc => exec_write_refused h (writeRefusal_busy h1 hc _),
      fun h1 hc hi => exec_write_refused h (writeRefusal_absent h1 hc hi),
      fun h1 hc hi => exec_write_carried h (writeRefusal_none h1 hc hi), fun k r ht hi hc hd => ?fwd, fun k r ht hi hc hd => ?cap,
      fun k ht hi hc hd => ?fwdBad, fun k ht hi hc hd => ?capBad⟩,
    fun s o t i e n h h1 hc hi hn => ⟨fun hl => hn ▸ exec_cond_unlinked h (writeRefusal_none h1 hc hi) hl, fun k r ht hik hl hd => ?condFwd,
      fun hl => hn ▸ exec_cond_carried h (writeRefusal_none h1 hc hi) hl, ?condLink⟩,
    fun s o t i e h => ⟨fun h1 h2 => exec_cond_refused h (writeRefusal_readOnly h1 h2 _ s),
      fun h1 hc => exec_cond_refused h (writeRefusal_busy h1 hc _), fun h1 hc hi => exec_cond_refused h (writeRefusal_absent h1 hc hi)⟩,
    fun s o p st => link_of ((finish_links _).trans (answered_links ..)) p, fun s n t i e st h hs => writeConfig_refused h hs,
    fun s e => ⟨fun h => ?_, fun x h => ?_, fun k => ⟨fun h => ?_, fun x h => ?_⟩, fun k => ⟨fun h => ?_, fun x h => ?_⟩,
      fun k => ⟨fun h => ?_, fun x h => ?_⟩, fun k => ⟨fun h => writeConfig_fwd_none h k s, fun x h => writeConfig_fwd h k s⟩,
      fun k => ⟨fun h => writeConfig_cap_none h k s, fun x h => writeConfig_cap h k s⟩⟩⟩
  case fwd =>
    subst ht
    rw [exec_write_carried h (writeRefusal_none (by rw [h4]; decide) hc (by rw [h4, hi]; exact inTable_fwd k)), h4, hi, writeConfig_fwd hd k s]
    rfl
  case cap =>
    subst ht
    rw [exec_write_carried h (writeRefusal_none (by rw [h5]) hc (by rw [h5, hi]; exact inTable_cap k)), h5, hi, writeConfig_cap hd k s]
    rfl
  case fwdBad =>
    subst ht
    rw [exec_write_carried h (writeRefusal_none (by rw [h4]; decide) hc (by rw [h4, hi]; exact inTable_fwd k)), h4, hi,
      writeConfig_fwd_none hd k s]
    rfl
  case capBad =>
    subst ht
    rw [exec_write_carried h (writeRefusal_none (by rw [h5]) hc (by rw [h5, hi]; exact inTable_cap k)), h5, hi, writeConfig_cap_none hd k s]
    rfl
  case condFwd =>
    subst ht
    rw [exec_cond_carried h (writeRefusal_none h1 hc hi) (by rw [h4, hik]; exact hl), ← hn, h4, hik, writeConfig_fwd hd k n, hn]
    have ht : (updOrigin o (fun r => { r with link := none }) s).tables = s.tables := by
      cases o <;> rfl
    rw [ht]
    rfl
  case condLink =>
    have hnl : (n.ma.origin o).link = none := by
      rw [hn, updOrigin_origin]
    by_cases hl : (s.ma.origin o).link = some ⟨t.toNat, i.toNat⟩
    · refine ⟨_, exec_cond_carried h (writeRefusal_none h1 hc hi) hl, ?_⟩
      rw [link_of (finish_links _) o]
      refine wrote_link_none ?_
      rw [link_of (writeConfig_links ..) o, ← hn, hnl]
    · refine ⟨_, exec_cond_unlinked h (writeRefusal_none h1 hc hi) hl, ?_⟩
      rw [link_of ((finish_links _).trans (answered_links ..)) o, ← hn, hnl]
  all_goals simp only [writeConfig, finAt_val, h]

end Sys2Proof.Machine
end

section
/-! PROOFS. What the owner does with a written entry (O45), and what capture stores (O48). -/

namespace Sys2Proof.Machine

open Sys2Proof.Safety

/-! ## Slot writes (O45) -/

theorem vacant_empty : CtxRecord.empty = Vector.replicate 16 none := rfl

/-- A slot's restoring flag. -/
theorem isRestoring_false {s : State} {k : SlotId} (h : s.slots[k].state.restoring = false) : ¬ isRestoring s k = true := by
  unfold isRestoring
  rw [h]
  decide

theorem addrTaken_iff {k : SlotId} {a : Byte} {s : State} : addrTaken k a s = true ↔
    ∃ j : SlotId, j ≠ k ∧ s.tables.slots[j].enabled = true ∧ s.tables.slots[j].addr = a := by
  unfold addrTaken
  rw [List.any_eq_true]
  simp only [mem_slotIds, true_and, Bool.and_eq_true, decide_eq_true_eq, and_assoc]

theorem voids_iff {old e : SlotEntry} : voids old e = true ↔ old.enabled = true ∧ e.enabled = false ∨ old.addr ≠ e.addr := by
  unfold voids
  rw [Bool.or_eq_true, Bool.and_eq_true, Bool.not_eq_true', decide_eq_true_iff]

/-- The segment scheduler after a write of entry `e` over `old` to slot `k` (R105). -/
def voidedSeg (k : SlotId) (old e : SlotEntry) (g : Segment) : Segment :=
  if (g.port = .window ∨ g.port = .receiving true) ∧ voids old e = true then
    { g with turn := g.turn.map (fun u => if u.slot = k then { u with void := true } else u) }
  else g

theorem void_step (k : SlotId) (old e : SlotEntry) (s : State) :
    (if voids old e then voidTurn k s else s) = { s with seg := voidedSeg k old e s.seg } := by
  unfold voidedSeg voidTurn
  by_cases hv : voids old e = true
  · by_cases hp : s.seg.port = .window ∨ s.seg.port = .receiving true
    · rw [if_pos hv, if_pos hp, if_pos ⟨hp, hv⟩]
      rfl
    · rw [if_pos hv, if_neg hp, if_neg fun h => hp h.1]
  · rw [if_neg hv, if_neg fun h => hv h.2]

theorem voidedSeg_closed {g : Segment} (h : g.port ≠ .window) (h' : g.port ≠ .receiving true) (k : SlotId) (old e : SlotEntry) :
    voidedSeg k old e g = g := if_neg fun hx => hx.1.elim h h'

theorem voidedSeg_same {old e : SlotEntry} (h : voids old e = false) (k : SlotId) (g : Segment) : voidedSeg k old e g = g :=
  if_neg fun hx => absurd hx.2 (by rw [h]; decide)

theorem slotEffects_seg (k : SlotId) (old e : SlotEntry) (s : State) : (slotEffects k old e s).seg = s.seg := by
  obtain ⟨-, -, -, -, -, -, h, -⟩ := of_noEvent (slotEffects_noEvent k old e s)
  exact h

/-- The state with the entry written, before the slot is touched. -/
def withEntry (k : SlotId) (e : SlotEntry) (s : State) : State := { s with tables := { s.tables with slots := s.tables.slots.set k e } }

theorem setSlotEntry_taken {k : SlotId} {e : SlotEntry} {s : State} (he : e.enabled = true)
    (h : ∃ j : SlotId, j ≠ k ∧ s.tables.slots[j].enabled = true ∧ s.tables.slots[j].addr = e.addr) :
    setSlotEntry k e s = (.badValue, s) := by
  unfold setSlotEntry
  rw [if_pos (by rw [he, addrTaken_iff.2 h]; rfl)]

theorem free_address {k : SlotId} {e : SlotEntry} {s : State}
    (h : e.enabled = true → ∀ j : SlotId, j ≠ k → s.tables.slots[j].enabled = true → s.tables.slots[j].addr ≠ e.addr) :
    ¬ (e.enabled && addrTaken k e.addr s) = true := fun hx => by
  rw [Bool.and_eq_true] at hx
  obtain ⟨he, ht⟩ := hx
  obtain ⟨j, hj, hen, ha⟩ := addrTaken_iff.1 ht
  exact h he j hj hen ha

theorem setSlotEntry_inUse {k : SlotId} {e : SlotEntry} {s : State}
    (h : e.enabled = true → ∀ j : SlotId, j ≠ k → s.tables.slots[j].enabled = true → s.tables.slots[j].addr ≠ e.addr)
    (hr : s.slots[k].state.restoring = true) : setSlotEntry k e s = (.inUse, s) := by
  unfold setSlotEntry
  rw [if_neg (free_address h)]
  exact if_pos hr

theorem setSlotEntry_ok {k : SlotId} {e : SlotEntry} {s : State}
    (h : e.enabled = true → ∀ j : SlotId, j ≠ k → s.tables.slots[j].enabled = true → s.tables.slots[j].addr ≠ e.addr)
    (hr : s.slots[k].state.restoring = false) : setSlotEntry k e s = (.ok,
      { slotEffects k s.tables.slots[k] e (withEntry k e s) with seg := voidedSeg k s.tables.slots[k] e s.seg }) := by
  have hv := void_step k s.tables.slots[k] e (slotEffects k s.tables.slots[k] e (withEntry k e s))
  rw [slotEffects_seg] at hv
  unfold setSlotEntry
  rw [if_neg (free_address h), if_neg (isRestoring_false hr)]
  exact congrArg (Prod.mk Status.ok) hv

/-! What the effects are, by the fields that change. -/

theorem slotEffects_fresh {k : SlotId} {old e : SlotEntry} (he : e.enabled = true) (ho : old.enabled = false ∨ old.addr ≠ e.addr)
    (s : State) : slotEffects k old e s = { s with
      slots := s.slots.set k { SlotStatus.vacant with
        state := .absent, cls := some (expectedLookup e.expClass s), holdMissed := s.slots[k].holdMissed }
      ctx := s.ctx.set k (Vector.replicate 16 none) } := by
  have hc : (!old.enabled || decide (old.addr ≠ e.addr)) = true := by
    rcases ho with ho | ho
    · rw [ho]
      rfl
    · rw [decide_eq_true ho, Bool.or_true]
  unfold slotEffects
  rw [if_pos he, if_pos hc]
  rfl

theorem slotEffects_retired {k : SlotId} {old e : SlotEntry} (he : e.enabled = false) (ho : old.enabled = true) (s : State) :
    slotEffects k old e s = { s with
      slots := s.slots.set k { SlotStatus.vacant with holdMissed := s.slots[k].holdMissed }
      ctx := s.ctx.set k (Vector.replicate 16 none) } := by
  unfold slotEffects
  rw [he, if_neg Bool.false_ne_true, if_pos ho]
  rfl

theorem slotEffects_none {k : SlotId} {old e : SlotEntry} (he : e.enabled = false) (ho : old.enabled = false) (s : State) :
    slotEffects k old e s = s := by
  unfold slotEffects
  rw [he, ho, if_neg Bool.false_ne_true]
  rfl

theorem slotEffects_kept {k : SlotId} {old e : SlotEntry} {s : State} (he : e.enabled = true) (ho : old.enabled = true)
    (ha : old.addr = e.addr) (h : old.expClass = e.expClass ∨ s.slots[k].state = .running ∨
      s.slots[k].cls = some (expectedLookup e.expClass s)) : slotEffects k old e s = s := by
  unfold slotEffects
  rw [if_pos he, ho, ha, if_neg (by simp)]
  rcases h with h | h | h
  · rw [h, decide_eq_false fun hx => hx rfl]
    rfl
  · rw [decide_eq_false (p := s.slots[k].state ≠ .running) fun hx => hx h, Bool.and_false]
    rfl
  · split
    · exact if_pos h
    · rfl

theorem slotEffects_class {k : SlotId} {old e : SlotEntry} {s : State} (he : e.enabled = true) (ho : old.enabled = true)
    (ha : old.addr = e.addr) (h1 : old.expClass ≠ e.expClass) (h2 : s.slots[k].state ≠ .running)
    (h3 : s.slots[k].cls ≠ some (expectedLookup e.expClass s)) : slotEffects k old e s = { s with
      slots := s.slots.set k { s.slots[k] with cls := some (expectedLookup e.expClass s), retry := 0 }
      ctx := s.ctx.set k (Vector.replicate 16 none) } := by
  unfold slotEffects
  rw [if_pos he, ho, ha, if_neg (by simp), decide_eq_true h1, decide_eq_true h2]
  exact if_neg h3

/-- The class of the expected class, in the words of R10. -/
theorem expectedLookup_eq {e : Option Byte} {c : ClassId} {s : State} (h : e = none ∧ c = 0 ∨ ∃ x, e = some x ∧
    (x.toNat < s.tables.settings.classCount ∧ c.val = x.toNat ∨ s.tables.settings.classCount ≤ x.toNat ∧ c = 0)) :
    expectedLookup e s = c := by
  rcases h with ⟨rfl, rfl⟩ | ⟨x, rfl, ⟨h1, h2⟩ | ⟨h1, rfl⟩⟩
  · rfl
  · have hc : x.toNat < s.tables.settings.classCount ∧ x.toNat < 8 := ⟨h1, h2 ▸ c.2⟩
    show classLookup x.toNat s = c
    unfold classLookup
    rw [dif_pos hc]
    exact Fin.ext h2.symm
  · show classLookup x.toNat s = 0
    unfold classLookup
    rw [dif_neg fun hx => absurd hx.1 (Nat.not_lt.2 h1)]

/-- A write to the slot's entry, by what the entry was: the general case of the obligation. -/
theorem setSlotEntry_cases {k : SlotId} {e : SlotEntry} {s : State} {c : ClassId} (hc : expectedLookup e.expClass s = c)
    (h : e.enabled = true → ∀ j : SlotId, j ≠ k → s.tables.slots[j].enabled = true → s.tables.slots[j].addr ≠ e.addr)
    (hr : s.slots[k].state.restoring = false) :
    (e.enabled = true → s.tables.slots[k].enabled = false ∨ s.tables.slots[k].addr ≠ e.addr → setSlotEntry k e s = (.ok,
      { withEntry k e s with
        slots := s.slots.set k { SlotStatus.vacant with state := .absent, cls := some c, holdMissed := s.slots[k].holdMissed }
        ctx := s.ctx.set k (Vector.replicate 16 none), seg := voidedSeg k s.tables.slots[k] e s.seg })) ∧
    (e.enabled = false → s.tables.slots[k].enabled = true → setSlotEntry k e s = (.ok, { withEntry k e s with
      slots := s.slots.set k { SlotStatus.vacant with holdMissed := s.slots[k].holdMissed }
      ctx := s.ctx.set k (Vector.replicate 16 none), seg := voidedSeg k s.tables.slots[k] e s.seg })) ∧
    (e.enabled = false → s.tables.slots[k].enabled = false → setSlotEntry k e s = (.ok,
      { withEntry k e s with seg := voidedSeg k s.tables.slots[k] e s.seg })) ∧
    (e.enabled = true → s.tables.slots[k].enabled = true → s.tables.slots[k].addr = e.addr →
      (s.tables.slots[k].expClass = e.expClass ∨ s.slots[k].state = .running ∨ s.slots[k].cls = some c →
        setSlotEntry k e s = (.ok, withEntry k e s)) ∧
      (s.tables.slots[k].expClass ≠ e.expClass → s.slots[k].state ≠ .running → s.slots[k].cls ≠ some c →
        setSlotEntry k e s = (.ok, { withEntry k e s with
          slots := s.slots.set k { s.slots[k] with cls := some c, retry := 0 }
          ctx := s.ctx.set k (Vector.replicate 16 none) }))) := by
  rw [setSlotEntry_ok h hr]
  refine ⟨fun he ho => ?fresh, fun he ho => ?retired, fun he ho => ?none, fun he ho ha => ?_⟩
  case fresh =>
    rw [slotEffects_fresh he ho, ← hc]
    rfl
  case retired => rw [slotEffects_retired he ho]; rfl
  case none => rw [slotEffects_none he ho]
  have hv : voids s.tables.slots[k] e = false := by
    unfold voids
    rw [ho, he, ha, decide_eq_false fun hx => hx rfl]
    rfl
  have hn : expectedLookup e.expClass (withEntry k e s) = c := hc
  rw [voidedSeg_same hv]
  refine ⟨fun hx => ?same, fun h1 h2 h3 => ?newClass⟩
  case same =>
    rw [slotEffects_kept (s := withEntry k e s) he ho ha (by rw [hn]; exact hx)]
    rfl
  case newClass =>
    rw [slotEffects_class (s := withEntry k e s) he ho ha h1 h2 (by rw [hn]; exact h3), hn]
    rfl

/-! ## Settings (O45) -/

theorem filter_slotIds_one {p : SlotId → Bool} {k : SlotId} (h : ∀ j, p j = true ↔ j = k) : slotIds.filter p = [k] := by
  have hp : p = fun j => j == k := funext fun j => Bool.eq_iff_iff.2 ((h j).trans beq_iff_eq.symm)
  rw [hp, List.filter_beq, slotIds, List.count_eq_one_of_mem (List.nodup_finRange 32) (List.mem_finRange k)]
  rfl

/-- Settings with a new hold depth that no queue exceeds. -/
theorem setSettings_short {e : Settings} {s : State} (h : ∀ k : SlotId, s.queues.hold[k].length ≤ e.holdDepth) :
    setSettings e s = { s with tables := { s.tables with settings := e } } := by
  have hn : longHolds e.holdDepth { s with tables := { s.tables with settings := e } } = [] :=
    List.filter_eq_nil_iff.2 fun k _ => by simpa using h k
  unfold setSettings
  simp only [hn]
  rfl

/-- Settings with a new hold depth that one queue exceeds by one entry. -/
theorem setSettings_one {e : Settings} {s : State} {k : SlotId} {keep : List BufId} {b : BufId} (hk : s.queues.hold[k] = keep ++ [b])
    (hl : keep.length = e.holdDepth) (h : ∀ j : SlotId, j ≠ k → s.queues.hold[j].length ≤ e.holdDepth) :
    setSettings e s = trimEntry k b { s with
      tables := { s.tables with settings := e }, queues := { s.queues with hold := s.queues.hold.set k keep } } := by
  have hn : longHolds e.holdDepth { s with tables := { s.tables with settings := e } } = [k] := by
    refine filter_slotIds_one fun j => ?_
    show decide (e.holdDepth < s.queues.hold[j].length) = true ↔ _
    rw [decide_eq_true_iff]
    refine ⟨fun hj => Decidable.byContradiction fun hne => absurd hj (Nat.not_lt.2 (h j hne)), fun hj => ?_⟩
    rw [hj, hk, List.length_append, hl]
    exact Nat.lt_succ_self _
  have hd : (keep ++ [b]).drop e.holdDepth = [b] := by rw [← hl, List.drop_left]
  have ht : (keep ++ [b]).take e.holdDepth = keep := by rw [← hl, List.take_left]
  have hv : vmod s.queues.hold k (List.take e.holdDepth) = s.queues.hold.set k keep := by
    unfold vmod
    rw [hk, ht]
  unfold setSettings
  simp only [hn]
  show trimHold e.holdDepth k { s with tables := { s.tables with settings := e } } = _
  unfold trimHold updQueues
  dsimp only
  rw [hk, hd, hv]
  rfl

/-! ## Classes and the catalogue (O45) -/

theorem mem_slotsOfClass {c : ClassId} {s : State} {k : SlotId} : k ∈ slotsOfClass c s ↔ s.slots[k].cls = some c := by
  simp [slotsOfClass, mem_slotIds]

theorem nodup_filter_slotIds (p : SlotId → Bool) : (slotIds.filter p).Nodup := (List.nodup_finRange 32).filter p

theorem setClassEntry_inUse {c : ClassId} {e : ClassEntry} {s : State}
    (h : ∃ k : SlotId, s.slots[k].cls = some c ∧ s.slots[k].state.restoring = true) : setClassEntry c e s = (.inUse, s) := by
  obtain ⟨k, hk, hr⟩ := h
  exact if_pos (List.any_eq_true.2 ⟨k, mem_slotsOfClass.2 hk, hr⟩)

theorem setClassEntry_ok {c : ClassId} {e : ClassEntry} {s : State}
    (h : ∀ k : SlotId, s.slots[k].cls = some c → s.slots[k].state.restoring = false) : ∃ t, setClassEntry c e s = (.ok, t) ∧
      t = { s with tables := { s.tables with classes := s.tables.classes.set c e }, slots := t.slots, ctx := t.ctx } ∧
      ∀ k : SlotId, t.slots[k] = (if s.slots[k].cls = some c then { s.slots[k] with retry := 0 } else s.slots[k]) ∧
        t.ctx[k] = if s.slots[k].cls = some c ∧ e.layout ≠ (s.tables.classes[c]).layout then Vector.replicate 16 none else s.ctx[k] := by
  have hn : ¬ (slotsOfClass c s).any (isRestoring s) = true := fun hx => by
    obtain ⟨k, hk, hr⟩ := List.any_eq_true.1 hx
    exact isRestoring_false (h k (mem_slotsOfClass.1 hk)) hr
  obtain ⟨u, hu, he, hk⟩ := setClassEntry_slots c e s (slotsOfClass c s)
    { s with tables := { s.tables with classes := s.tables.classes.set c e } } (nodup_filter_slotIds _)
  refine ⟨u, (if_neg hn).trans (congrArg (Prod.mk Status.ok) hu.symm), he, fun k => ?_⟩
  have hk := hk k
  simp only [mem_slotsOfClass] at hk
  exact hk

/-- The sector under a management flash operation, met by an entry (R60). -/
theorem busySector_meets {e : CatEntry} {s : State} : (busySector s).any (fun k => e.meets k) = true ↔
    e.valid = true ∧ ∃ k, ((∃ o st a, s.ma.long = some ⟨o, .erase k st a⟩) ∨
      ∃ o r d st a, s.ma.long = some ⟨o, .program r d st a⟩ ∧ k = r / 31) ∧
      ∃ w : Fin 4, (e.windows[w]).enable = true ∧
        ∃ r, r / 31 = k ∧ (e.windows[w]).base ≤ r ∧ r ≤ (e.windows[w]).base + ((e.windows[w]).last - (e.windows[w]).first) := by
  have hb : ∀ k, busySector s = some k ↔ (∃ o st a, s.ma.long = some ⟨o, .erase k st a⟩) ∨
      ∃ o r d st a, s.ma.long = some ⟨o, .program r d st a⟩ ∧ k = r / 31 := by
    intro k
    unfold busySector
    split
    next o k' st a h => simp [h, eq_comm]
    next o r d st a h => simp [h, eq_comm]
    next h1 h2 =>
      refine iff_of_false (by simp) ?_
      rintro (⟨o, st, a, h⟩ | ⟨o, r, d, st, a, h, -⟩)
      · exact h1 o k st a h
      · exact h2 o r d st a h
  have hm : ∀ k, e.meets k = true ↔ e.valid = true ∧ ∃ w : Fin 4, (e.windows[w]).enable = true ∧
      ∃ r, r / 31 = k ∧ (e.windows[w]).base ≤ r ∧ r ≤ (e.windows[w]).base + ((e.windows[w]).last - (e.windows[w]).first) := by
    intro k
    unfold CatEntry.meets
    rw [Bool.and_eq_true, any_toList_iff]
    simp only [Window.meets_iff]
  rw [Option.any_eq_true]
  constructor
  · rintro ⟨k, hk, hx⟩
    obtain ⟨h1, h2⟩ := (hm k).1 hx
    exact ⟨h1, k, (hb k).1 hk, h2⟩
  · rintro ⟨h1, k, hk, h2⟩
    exact ⟨k, (hb k).2 hk, (hm k).2 ⟨h1, h2⟩⟩

/-- A RUNNING slot runs the image under a tag that the written entry does not have (R62). -/
theorem mem_outdated {i : ImageId} {tag : Word32} {s : State} {k : SlotId} : k ∈ outdated i tag s ↔
    s.slots[k].state = .running ∧ s.slots[k].expTag ≠ some tag ∧ (s.tables.slots[k].override = some i ∨
      s.tables.slots[k].override = none ∧ ∃ c, s.slots[k].cls = some c ∧ (s.tables.classes[c]).selector = some i) := by
  have hi : imageOf k s = some i ↔ s.tables.slots[k].override = some i ∨
      s.tables.slots[k].override = none ∧ ∃ c, s.slots[k].cls = some c ∧ (s.tables.classes[c]).selector = some i := by
    unfold imageOf
    split
    next j hj =>
      rw [hj]
      simp
    next hj =>
      unfold classOf
      rw [hj]
      cases s.slots[k].cls <;> simp
  unfold outdated
  rw [List.mem_filter, Bool.and_eq_true, Bool.and_eq_true, decide_eq_true_iff, decide_eq_true_iff, decide_eq_true_iff, hi]
  constructor
  · exact fun ⟨_, ⟨h1, h2⟩, h3⟩ => ⟨h1, h3, h2⟩
  · exact fun ⟨h1, h3, h2⟩ => ⟨mem_slotIds k, ⟨h1, h2⟩, h3⟩

/-- The slots of a list made STALE, in a free order. -/
theorem forFree_outdate (tag : Word32) {l : List SlotId} (hn : l.Nodup) (u : State) : ∃ v, v = forFree l (outdate tag) u ∧
    v = { u with slots := v.slots, au := v.au, freeTick := v.freeTick } ∧
    (∀ k : SlotId, (k ∈ l → v.slots[k] = { u.slots[k] with expTag := some tag, stale := true }) ∧ (k ∉ l → v.slots[k] = u.slots[k])) ∧
    ((∀ k : SlotId, k ∈ l → u.slots[k].stale = true) → v.au = u.au) ∧
    ∀ k : SlotId, k ∈ l → u.slots[k].stale = false →
      (∃ a ∈ v.au.list, a.cause = .stale ∧ a.subject = .slot k) ∨ v.au.overflow = true := by
  have hp := freeOrder_perm l.length u.freeTick l
  obtain ⟨v, hv⟩ : ∃ v, v = forFree l (outdate tag) u := ⟨_, rfl⟩
  obtain ⟨a1, a2, a3, a4⟩ := outdate_all tag u _ (hp.nodup_iff.2 hn) (freeOrder l.length u.freeTick l).2 v hv
  have hx : v.freeTick = (freeOrder l.length u.freeTick l).2 := by rw [a1]
  rw [← hx] at a1
  exact ⟨v, hv, a1, fun k => ⟨fun h => (a2 k).trans (if_pos (hp.mem_iff.2 h)), fun h => (a2 k).trans (if_neg fun hk => h (hp.mem_iff.1 hk))⟩,
    fun h => a3 fun k hk => h k (hp.mem_iff.1 hk), fun k h => a4 k (hp.mem_iff.2 h)⟩

/-- An accepted catalogue write: the image dropped, the slots that run it under another tag STALE, and its check begun again. -/
theorem setCatEntry_ok {i : ImageId} {e : CatEntry} {s : State} (hu : s.catSt[i].users = 0)
    (hb : ¬ (busySector s).any (fun k => e.meets k) = true) {old : SlotId → Prop}
    (ho : ∀ k : SlotId, old k ↔ e.valid = true ∧ s.slots[k].state = .running ∧ s.slots[k].expTag ≠ some e.tag ∧
      (s.tables.slots[k].override = some i ∨ s.tables.slots[k].override = none ∧
        ∃ c, s.slots[k].cls = some c ∧ (s.tables.classes[c]).selector = some i)) :
    ∃ u v : State, setCatEntry i e s = (.ok, restartCheck i v) ∧
      u = dropImage i { s with tables := { s.tables with cat := s.tables.cat.set i e }, catSt := s.catSt.set i ⟨false, 0⟩ } ∧
      v = { u with slots := v.slots, au := v.au, freeTick := v.freeTick } ∧ u.slots = s.slots ∧ u.au = s.au ∧
      (∀ k : SlotId, (old k → v.slots[k] = { s.slots[k] with expTag := some e.tag, stale := true }) ∧
        (¬ old k → v.slots[k] = s.slots[k])) ∧
      ((∀ k : SlotId, old k → s.slots[k].stale = true) → v.au = s.au) ∧
      ∀ k : SlotId, old k → s.slots[k].stale = false →
        (∃ a ∈ v.au.list, a.cause = .stale ∧ a.subject = .slot k) ∨ v.au.overflow = true := by
  obtain ⟨d1, d2, d3⟩ := dropImage_rest i { s with tables := { s.tables with cat := s.tables.cat.set i e }, catSt := s.catSt.set i ⟨false, 0⟩ }
  have hcat : updCat i (fun c => { c with bad := false }) { s with tables := { s.tables with cat := s.tables.cat.set i e } } =
      { s with tables := { s.tables with cat := s.tables.cat.set i e }, catSt := s.catSt.set i ⟨false, 0⟩ } := by
    unfold updCat vmod
    dsimp only
    rw [hu]
  have hset : setCatEntry i e s = (.ok, restartCheck i (if e.valid then
      forFree (outdated i e.tag (dropImage i { s with tables := { s.tables with cat := s.tables.cat.set i e }, catSt := s.catSt.set i ⟨false, 0⟩ }))
        (outdate e.tag) (dropImage i { s with tables := { s.tables with cat := s.tables.cat.set i e }, catSt := s.catSt.set i ⟨false, 0⟩ })
      else dropImage i { s with tables := { s.tables with cat := s.tables.cat.set i e }, catSt := s.catSt.set i ⟨false, 0⟩ })) := by
    rw [← hcat]
    refine if_neg ?_
    rintro (h | h)
    · exact absurd hu (Nat.pos_iff_ne_zero.1 h)
    · exact hb h
  generalize hug : dropImage i { s with tables := { s.tables with cat := s.tables.cat.set i e }, catSt := s.catSt.set i ⟨false, 0⟩ } = u at d1 d2 d3 hset
  have hmem : ∀ k, e.valid = true → (k ∈ outdated i e.tag u ↔ old k) := by
    intro k hv
    rw [mem_outdated, ho, d1, d2]
    exact (and_iff_right hv).symm
  cases hv : e.valid with
  | false =>
    have hold : ∀ k, ¬ old k := fun k hk => by
      have := ((ho k).1 hk).1
      rw [hv] at this
      cases this
    rw [hv] at hset
    exact ⟨u, u, hset, rfl, rfl, d1, d3, fun k => ⟨fun h => absurd h (hold k), fun _ => by rw [d1]⟩, fun _ => d3,
      fun k h => absurd h (hold k)⟩
  | true =>
    rw [hv] at hset
    obtain ⟨v, hv', a1, a2, a3, a4⟩ := forFree_outdate (l := outdated i e.tag u) e.tag (nodup_filter_slotIds _) u
    simp only [hmem _ hv, d1, d3] at a2 a3 a4
    rw [if_pos rfl, ← hv'] at hset
    exact ⟨u, v, hset, rfl, a1, d1, d3, a2, a3, a4⟩

/-- Settles O45: each owner's write by its lemma. -/
theorem slotWritten : Obligations.SlotWritten := by
  unfold Obligations.SlotWritten
  refine ⟨fun s k e n hn => ⟨fun h he => setSlotEntry_taken he h, fun he hr => setSlotEntry_inUse (fun h => absurd he (by rw [h]; decide)) hr,
      fun ho hs he ha h1 h2 => ?enabled, fun ho hr he h1 h2 => ?disabled, fun old g c ho ha hg hc => ⟨fun hr => setSlotEntry_inUse ha hr,
        fun hr => ?general⟩⟩,
    fun s e => ⟨?tables, (setSettings_queues e s).2, (setSettings_queues e s).1, setSettings_short,
      fun k keep b f u hk hl hj hf hu => ⟨fun hst => ?station, fun hst => ?copy⟩⟩,
    fun s c e => ⟨setClassEntry_inUse, setClassEntry_ok⟩, fun s i e busy hb => ⟨fun h => ?catInUse, fun hu hn old ho => ?cat⟩⟩
  case enabled =>
    obtain ⟨hf, -⟩ := setSlotEntry_cases (c := expectedLookup e.expClass s) rfl (fun _ => ha) (by rw [hs]; rfl)
    rw [hf he (.inl ho), voidedSeg_closed h1 h2, hn]
    rfl
  case disabled =>
    obtain ⟨-, hd, -⟩ := setSlotEntry_cases (c := expectedLookup e.expClass s) rfl (fun h => absurd he (by rw [h]; decide)) hr
    rw [hd he ho, voidedSeg_closed h1 h2, hn]
    rfl
  case general =>
    have hgv : g = voidedSeg k s.tables.slots[k] e s.seg := by
      rw [hg, ho]
      unfold voidedSeg
      simp only [voids_iff]
    have := setSlotEntry_cases (expectedLookup_eq hc) ha hr
    rw [ho, ← (show g = voidedSeg k old e s.seg by rw [hgv, ho])] at this
    rw [hn]
    exact this
  case tables =>
    obtain ⟨-, -, h, -⟩ := of_noEvent (forFree_noEvent (trimHold e.holdDepth) (fun s k => trimHold_noEvent _ k s)
      (longHolds e.holdDepth { s with tables := { s.tables with settings := e } }) { s with tables := { s.tables with settings := e } })
    exact h
  case station =>
    have hpool : u.pool[b].frame = some f := by
      rw [hu]
      exact hf
    rw [setSettings_one hk hl hj, ← hu]
    unfold trimEntry refuseEntry
    rw [hpool]
    simp only [hst, if_true]
  case copy =>
    have hpool : u.pool[b].frame = some f := by
      rw [hu]
      exact hf
    rw [setSettings_one hk hl hj, ← hu]
    unfold trimEntry
    rw [hpool]
    simp only [hst, Bool.false_eq_true, if_false]
    rw [hu]
    rfl
  case catInUse => exact if_pos (h.imp_right fun h => busySector_meets.2 (hb.1 h))
  case cat => exact setCatEntry_ok hu (fun h => hn (hb.2 (busySector_meets.1 h))) ho

end Sys2Proof.Machine
end

section
/-! PROOFS. What capture stores (O48). -/

namespace Sys2Proof.Machine

open Sys2Proof.Safety

/-- The record of slot `k` after a capture of rule `r`. -/
def capturedRecord (r : CapRule) (f : Frame) (k : SlotId) (s : State) (x : CtxRecord) : CtxRecord :=
  if fieldLen k r.field s = 0 ∨ f.payload.length < r.offset + fieldLen k r.field s then x
  else x.store r.field ((f.payload.drop r.offset).take (fieldLen k r.field s))

theorem captureInto_eq (r : CapRule) (f : Frame) (k : SlotId) (s : State) :
    captureInto r f k s = { s with ctx := s.ctx.set k (capturedRecord r f k s s.ctx[k]) } := by
  have hself : s.ctx.set k s.ctx[k] = s.ctx := Vector.set_getElem_self k.2
  unfold captureInto capturedRecord
  by_cases h : fieldLen k r.field s = 0 ∨ f.payload.length < r.offset + fieldLen k r.field s
  · simp only [if_pos h, hself]
  · simp only [if_neg h]
    rfl

theorem fieldLen_withCtx (k : SlotId) (f : FieldId) (v : Vector CtxRecord 32) (s : State) :
    fieldLen k f { s with ctx := v } = fieldLen k f s := rfl

/-- A capture into several slots writes each one's record once. -/
theorem captureInto_list (r : CapRule) (f : Frame) (s : State) : ∀ (l : List SlotId) (v : Vector CtxRecord 32), l.Nodup →
    ∃ w : Vector CtxRecord 32, l.foldl (fun s k => captureInto r f k s) { s with ctx := v } = { s with ctx := w } ∧
      ∀ k : SlotId, w[k] = if k ∈ l then capturedRecord r f k s v[k] else v[k]
  | [], v, _ => ⟨v, rfl, fun k => rfl⟩
  | j :: l, v, hn => by
    obtain ⟨hj, hl⟩ := List.nodup_cons.1 hn
    obtain ⟨w, hw, hk⟩ := captureInto_list r f s l (v.set j (capturedRecord r f j s v[j])) hl
    refine ⟨w, ?_, fun k => (hk k).trans ?_⟩
    · rw [List.foldl_cons, captureInto_eq]
      exact hw
    · by_cases hkj : k = j
      · subst hkj
        rw [if_neg hj, set_same, if_pos List.mem_cons_self]
      · rw [set_other _ hkj]
        simp only [List.mem_cons, hkj, false_or]

theorem fieldLen_class {k : SlotId} {f : FieldId} {s : State} {c : ClassId} (h : s.slots[k].cls = some c) :
    fieldLen k f s = (s.tables.classes[c]).layout[f] := by
  unfold fieldLen classOf
  rw [h]
  rfl

theorem inClassMask_class {k : SlotId} {m : BitVec 8} {s : State} {c : ClassId} (h : s.slots[k].cls = some c) :
    inClassMask m k s = m.getLsbD c.val := by
  unfold inClassMask
  rw [h]
  rfl

theorem CtxRecord.store_eq (f : FieldId) (v : List Byte) (r : CtxRecord) : r.store f v = r.set f (if ∀ b ∈ v, b = 0 then none else some v) := by
  have hz : v.all (· == 0) = true ↔ ∀ b ∈ v, b = 0 := by simp
  unfold CtxRecord.store
  simp only [hz]

theorem captureRule_covered {src : CapSource} {f : Frame} {r : CapRule} (h : r.covers src f = true) (node : Option SlotId) (s : State) :
    captureRule src f node s r =
      ((targets r.mode f node s).filter (fun k => inClassMask r.classMask k s)).foldl (fun s k => captureInto r f k s) s := if_pos h

theorem captureRule_uncovered {src : CapSource} {f : Frame} {r : CapRule} (h : r.covers src f = false) (node : Option SlotId) (s : State) :
    captureRule src f node s r = s := if_neg (by rw [h]; decide)

theorem covers_iff {src : CapSource} {f : Frame} {r : CapRule} : r.covers src f = true ↔ r.enable = true ∧ r.source = src ∧
    (f.payload = [] ∧ r.typeMask = 0 ∨ ∃ b bs, f.payload = b :: bs ∧ b &&& r.typeMask = r.typeValue &&& r.typeMask) := by
  unfold CapRule.covers
  rw [Bool.and_eq_true, Bool.and_eq_true, decide_eq_true_iff, and_assoc]
  refine and_congr_right fun _ => and_congr_right fun _ => ?_
  split
  next h => simp [h]
  next b bs h => simp [h]

/-- An empty payload reaches no field. -/
theorem captureInto_empty {f : Frame} (h : f.payload = []) (r : CapRule) (k : SlotId) (s : State) : captureInto r f k s = s := by
  unfold captureInto
  refine if_pos ?_
  rw [h, List.length_nil]
  omega

theorem captureRule_empty {f : Frame} (h : f.payload = []) (src : CapSource) (node : Option SlotId) (s : State) (r : CapRule) :
    captureRule src f node s r = s := by
  unfold captureRule
  split
  · generalize List.filter _ _ = l
    induction l with
    | nil => rfl
    | cons k l ih => rw [List.foldl_cons, captureInto_empty h, ih]
  · rfl

/-- A rule offered a frame of one slot: that slot's record alone. -/
theorem captureRule_node {src : CapSource} {f : Frame} {r : CapRule} {k : SlotId} {s : State} (h : r.covers src f = true)
    (hm : inClassMask r.classMask k s = true) : captureRule src f (some k) s r = captureInto r f k s := by
  rw [captureRule_covered h]
  show (([k] : List SlotId).filter (fun k => inClassMask r.classMask k s)).foldl _ s = _
  rw [List.filter_singleton, hm]
  rfl

theorem captureRule_node_masked {f : Frame} {r : CapRule} {k : SlotId} {s : State} (hm : inClassMask r.classMask k s = false)
    (src : CapSource) : captureRule src f (some k) s r = s := by
  unfold captureRule
  split
  · show (([k] : List SlotId).filter (fun k => inClassMask r.classMask k s)).foldl _ s = _
    rw [List.filter_singleton, hm]
    rfl
  · rfl

/-! ## The targets of a downstream frame -/

theorem boundSlot_iff {a : Byte} {s : State} {k : SlotId} (h : ∀ j k : SlotId, s.tables.slots[j].enabled = true →
    s.tables.slots[k].enabled = true → s.tables.slots[j].addr = a → s.tables.slots[k].addr = a → j = k) :
    boundSlot a s = some k ↔ s.tables.slots[k].enabled = true ∧ s.tables.slots[k].addr = a := by
  have hp : ∀ j : SlotId, (s.tables.slots[j].enabled && decide (s.tables.slots[j].addr = a)) = true ↔
      s.tables.slots[j].enabled = true ∧ s.tables.slots[j].addr = a := fun j => by
    rw [Bool.and_eq_true, decide_eq_true_iff]
  unfold boundSlot
  constructor
  · exact fun hb => (hp k).1 (by simpa using List.find?_some hb)
  · intro hk
    cases hf : slotIds.find? (fun k => s.tables.slots[k].enabled && decide (s.tables.slots[k].addr = a)) with
    | none => exact absurd ((hp k).2 hk) (List.find?_eq_none.1 hf k (mem_slotIds k))
    | some j =>
      have hj := (hp j).1 (by simpa using List.find?_some hf)
      exact congrArg some (h j k hj.1 hk.1 hj.2 hk.2)

theorem isMember_iff {a : Byte} {k : SlotId} {s : State} : isMember a k s = true ↔ s.tables.slots[k].enabled = true ∧
    (a = 0xFF ∨ 0xF0 ≤ a.toNat ∧ (s.tables.slots[k].groups).getLsbD (a.toNat - 0xF0) = true) := by
  unfold isMember
  rw [Bool.and_eq_true, Bool.or_eq_true, Bool.and_eq_true, decide_eq_true_iff, decide_eq_true_iff]

theorem mem_targets {m : TargetMode} {f : Frame} {s : State} {k : SlotId} (h : ∀ j k : SlotId, s.tables.slots[j].enabled = true →
    s.tables.slots[k].enabled = true → s.tables.slots[j].addr = f.dst → s.tables.slots[k].addr = f.dst → j = k) :
    k ∈ targets m f none s ↔ s.tables.slots[k].enabled = true ∧ (isStation f.dst = true ∧ s.tables.slots[k].addr = f.dst ∨
      isStation f.dst = false ∧ m = .all ∧
        (f.dst = 0xFF ∨ 0xF0 ≤ f.dst.toNat ∧ (s.tables.slots[k].groups).getLsbD (f.dst.toNat - 0xF0) = true)) := by
  show k ∈ (if isStation f.dst then (boundSlot f.dst s).toList else
    match m with
    | .addressed => []
    | .all => slotIds.filter (fun k => isMember f.dst k s)) ↔ _
  cases hs : isStation f.dst with
  | true =>
    rw [if_pos rfl, Option.mem_toList, boundSlot_iff h]
    simp
  | false =>
    rw [if_neg Bool.false_ne_true]
    cases m with
    | addressed => simp
    | all =>
      show k ∈ slotIds.filter (fun k => isMember f.dst k s) ↔ _
      rw [List.mem_filter, isMember_iff]
      simp [mem_slotIds]

theorem nodup_targets (m : TargetMode) (f : Frame) (s : State) : (targets m f none s).Nodup := by
  show (if isStation f.dst then (boundSlot f.dst s).toList else
    match m with
    | .addressed => []
    | .all => slotIds.filter (fun k => isMember f.dst k s)).Nodup
  split
  · cases boundSlot f.dst s <;> simp
  · cases m
    · exact List.nodup_nil
    · exact nodup_filter_slotIds _

/-- Settles O48: a rule by whether it covers the frame, and each target's record by its own class. -/
theorem captureStored : Obligations.CaptureStored := by
  unfold Obligations.CaptureStored
  refine ⟨fun s src f k r c n b bs v hc hn hp hv => ⟨fun h1 h2 h3 h4 h5 h6 => ?stored, fun h => ?kept⟩,
    fun s src f node r => ⟨covers_iff, fun h => captureRule_uncovered h node s, fun h => captureRule_empty h src node s r⟩,
    fun s src f node => rfl, fun s t f r b bs target hp he hs hb ha ht hx => ?_⟩
  case stored =>
    have hl : fieldLen k r.field s = n := (fieldLen_class hc).trans hn.symm
    have hcap : captureInto r f k s = storeField k r.field ((f.payload.drop r.offset).take n) s := by
      unfold captureInto
      rw [hl]
      exact if_neg fun hx => hx.elim h5 (Nat.not_lt.2 h6)
    rw [captureRule_node (covers_iff.2 ⟨h1, h2, .inr ⟨b, bs, hp, h3⟩⟩) ((inClassMask_class hc).trans h4), hcap, ← hv, storeField_eq]
  case kept =>
    cases hcov : r.covers src f with
    | false => exact captureRule_uncovered hcov _ s
    | true =>
      obtain ⟨h1, h2, h3⟩ := covers_iff.1 hcov
      cases hm : inClassMask r.classMask k s with
      | false => exact captureRule_node_masked hm src
      | true =>
        have hl : fieldLen k r.field s = n := (fieldLen_class hc).trans hn.symm
        rw [captureRule_node hcov hm]
        unfold captureInto
        refine if_pos ?_
        rw [hl]
        rcases h with h | h | h | h | h
        · exact absurd h1 (by rw [h]; decide)
        · exact absurd h2 h
        · refine absurd ?_ h
          rcases h3 with ⟨h3, -⟩ | ⟨b', bs', h3, h4⟩
          · exact absurd (hp.symm.trans h3) (by simp)
          · obtain ⟨rfl, -⟩ := List.cons.inj (hp.symm.trans h3)
            exact h4
        · exact absurd (inClassMask_class hc) (by rw [hm, h]; decide)
        · exact h
  have hcov : r.covers .dataDown f = true := covers_iff.2 ⟨he, hs, .inr ⟨b, bs, hp, hb⟩⟩
  obtain ⟨w, hw, hk⟩ := captureInto_list r f s ((targets r.mode f none s).filter (fun k => inClassMask r.classMask k s)) s.ctx
    ((nodup_targets r.mode f s).filter _)
  have htw : t = { s with ctx := w } := hx.trans ((captureRule_covered hcov none s).trans hw)
  have hctx : ∀ k : SlotId, t.ctx[k] = if k ∈ (targets r.mode f none s).filter (fun k => inClassMask r.classMask k s) then
      capturedRecord r f k s s.ctx[k] else s.ctx[k] := by
    rw [htw]
    exact hk
  have hmem : ∀ k : SlotId, k ∈ (targets r.mode f none s).filter (fun k => inClassMask r.classMask k s) ↔
      target k ∧ inClassMask r.classMask k s = true := fun k => by rw [List.mem_filter, mem_targets ha, ht k]
  refine ⟨by rw [htw], fun k c n v htk hc hm hn h0 hl hv => ?_, fun k h => ?_⟩
  · rw [hctx k, if_pos ((hmem k).2 ⟨htk, (inClassMask_class hc).trans hm⟩)]
    have hln : fieldLen k r.field s = n := (fieldLen_class hc).trans hn.symm
    unfold capturedRecord
    rw [hln, if_neg fun hx => hx.elim h0 (Nat.not_lt.2 hl), CtxRecord.store_eq, hv]
  · rw [hctx k]
    split
    next hin =>
      obtain ⟨htk, hm⟩ := (hmem k).1 hin
      obtain ⟨c, hc, hmc⟩ := (Option.any_eq_true _ _).1 hm
      have hln : fieldLen k r.field s = (s.tables.classes[c]).layout[r.field] := fieldLen_class hc
      refine if_pos ?_
      rw [hln]
      rcases h htk c hc with hx | hx | hx
      · exact absurd hmc (by rw [hx]; decide)
      · exact .inl hx
      · exact .inr hx
    next => rfl

end Sys2Proof.Machine
end

section
/-! PROOFS. The PIN request (O52). -/

namespace Sys2Proof.Machine

open Sys2Proof.Safety

/-! ## The range and the blocks that count -/

theorem pinRange_some {a : List Byte} {i : ImageId} {first last : Nat} (h : pinRange a = some (i, first, last)) :
    rd8 a 0 = i.val ∧ rd16 a 1 = first ∧ rd16 a 3 = last := by
  unfold pinRange at h
  split at h
  case isTrue hr =>
    obtain ⟨j, hj, he⟩ := Option.map_eq_some_iff.1 h
    cases he
    exact ⟨(finAt_some hj).symm, rfl, rfl⟩
  case isFalse => cases h

theorem pinRange_none {a : List Byte} (h : 15 < rd8 a 0 ∨ rd16 a 3 < rd16 a 1 ∨ 4095 < rd16 a 3) : pinRange a = none := by
  unfold pinRange
  split
  case isTrue hr =>
    rw [finAt_none (by omega)]
    rfl
  case isFalse => rfl

theorem mem_blockRange {first last b : Nat} : b ∈ blockRange first last ↔ first ≤ b ∧ b ≤ last := by
  unfold blockRange
  rw [List.mem_map]
  constructor
  · rintro ⟨j, hj, rfl⟩
    rw [List.mem_range] at hj
    omega
  · exact fun h => ⟨b - first, List.mem_range.2 (by omega), by omega⟩

theorem blockRange_ascending (first last : Nat) : (blockRange first last).Pairwise (· < ·) :=
  List.pairwise_map.2 (List.pairwise_lt_range.imp fun h => Nat.add_lt_add_left h first)

theorem heldPinned_iff {i : ImageId} {b : Nat} {s : State} : heldPinned i b s = true ↔
    ∃ (l : LineId) (d : List Byte), s.bc.lines[l] = .valid i b true d := by
  unfold heldPinned
  rw [any_toList_iff]
  refine exists_congr fun l => ?_
  rw [Bool.and_eq_true, isBlock_iff]
  constructor
  · rintro ⟨⟨p, d, h⟩, hp⟩
    rw [h] at hp ⊢
    cases show p = true from hp
    exact ⟨d, rfl⟩
  · rintro ⟨d, h⟩
    exact ⟨⟨true, d, h⟩, by rw [h]; rfl⟩

theorem mem_pinCounted {i : ImageId} {first last b : Nat} {s : State} : b ∈ pinCounted i first last s ↔
    first ≤ b ∧ b ≤ last ∧ (∃ r, s.tables.cat[i].supply b = .record r) ∧
      ∀ (l : LineId) (d : List Byte), s.bc.lines[l] ≠ .valid i b true d := by
  have hn : (!heldPinned i b s) = true ↔ ∀ (l : LineId) (d : List Byte), s.bc.lines[l] ≠ .valid i b true d := by
    rw [Bool.not_eq_true', ← Bool.not_eq_true, heldPinned_iff]
    push Not
    rfl
  unfold pinCounted
  rw [List.mem_filter, mem_blockRange, Bool.and_eq_true, isWindowed_iff, hn, and_assoc]

theorem pinCounted_ascending (i : ImageId) (first last : Nat) (s : State) : (pinCounted i first last s).Pairwise (· < ·) :=
  (blockRange_ascending first last).filter _

theorem pinnedCount_lines (s : State) : pinnedCount s = (List.finRange 96).countP (fun l => (s.bc.lines[l]).isPinned) := by
  unfold pinnedCount
  rw [toList_eq_map, List.countP_map]
  rfl

theorem validLine_first {i : ImageId} {b : Nat} {s : State} {l : LineId} (h : validLine i b s = some l) :
    ∀ m : LineId, m < l → ∀ q c, s.bc.lines[m] ≠ .valid i b q c := by
  intro m hm q c hx
  obtain ⟨_, j, hj, hl, hf⟩ := List.find?_eq_some_iff_getElem.1 h
  rw [List.getElem_finRange] at hl
  have hm' := hf m.val (by rw [← hl] at hm; exact hm)
  rw [List.getElem_finRange] at hm'
  have hx' : s.bc.lines[m].isBlock i b = true := isBlock_iff.2 ⟨q, c, hx⟩
  rw [show Fin.cast (List.length_finRange) ⟨m.val, _⟩ = m from rfl, hx'] at hm'
  cases hm'

/-! ## The blocks of a PIN taken in turn -/

theorem pinBlocks_single {i : ImageId} {b : Nat} {s : State} (h : needsRoom i b s = false) :
    pinBlocks i [b] s = setWaiting [] (request .pin i b s) := if_neg (by rw [h]; exact Bool.false_ne_true)

/-- A new entry for one block leaves the place of another block as it is. -/
theorem needsRoom_append {i : ImageId} {b : Nat} {s : State} {e : FillEntry} (he : e.blk ≠ b) (h : needsRoom i b s = true) :
    needsRoom i b { s with bc := { s.bc with fills := s.bc.fills ++ [e] } } = true := by
  obtain ⟨hv, hf, hq⟩ := needsRoom_iff.1 h
  refine needsRoom_iff.2 ⟨hv, hf, ?_⟩
  rintro ⟨x, hx, hi, hb⟩
  rcases List.mem_append.1 hx with hm | hm
  · exact hq ⟨x, hm, hi, hb⟩
  · rw [List.mem_singleton.1 hm] at hb
    exact he hb

/-- Blocks that are nowhere yet are queued while there is room, and the rest waits. -/
theorem pinBlocks_new (i : ImageId) : ∀ (bs : List Nat) (s : State), bs.Nodup → (∀ b ∈ bs, needsRoom i b s = true) →
    pinBlocks i bs s = setWaiting (bs.drop (16 - s.bc.fills.length)) { s with bc := { s.bc with
      fills := s.bc.fills ++ (bs.take (16 - s.bc.fills.length)).map (fun b => ⟨i, b, [], true, false, 8, markedLine i b s⟩) } }
  | [], s, _, _ => by simp [pinBlocks]
  | b :: bs, s, hn, hr => by
    obtain ⟨hb, hbs⟩ := List.nodup_cons.1 hn
    have hroom := hr b List.mem_cons_self
    unfold pinBlocks
    by_cases hl : 16 ≤ s.bc.fills.length
    · have h0 : 16 - s.bc.fills.length = 0 := by omega
      rw [if_pos (by rw [hroom, fillsFull_iff.2 hl]; rfl), h0]
      simp
    · obtain ⟨m, hm⟩ : ∃ m, 16 - s.bc.fills.length = m + 1 := ⟨15 - s.bc.fills.length, by omega⟩
      obtain ⟨hv, hf, hq⟩ := needsRoom_iff.1 hroom
      rw [if_neg (by rw [Bool.and_eq_true, fillsFull_iff]; exact fun h => hl h.2), request_new hv hf hq (by omega),
        pinBlocks_new i bs _ hbs fun c hc => needsRoom_append (e := newEntry .pin i b s) (fun h => hb (show b ∈ bs from (show b = c from h) ▸ hc)) (hr c (List.mem_cons_of_mem b hc)), hm]
      have hm' : 16 - (s.bc.fills ++ [newEntry .pin i b s]).length = m := by
        rw [List.length_append, List.length_singleton]
        omega
      simp only [hm', List.drop_succ_cons, List.take_succ_cons, List.map_cons, List.append_assoc]
      rfl

/-! ## The request -/

/-- A PIN that runs, before its blocks are taken. -/
def pinBegun (o : Origin) (i : ImageId) (n : Nat) (s : State) : State :=
  { s with bc := { s.bc with reservation := n }, ma := (accept o (.pin i []) s).ma }

theorem accept_long (o : Origin) (j : LongJob) (s : State) : (accept o j s).ma.long = some ⟨o, j⟩ := by
  cases o <;> rfl

theorem exec_pin_none {o : Origin} {a : List Byte} {s : State} (ha : Asked .pin o a s) (h : pinRange a = none) :
    exec .pin s = .next (finish (answered o .badValue [] s)) := by
  refine exec_answers ha ?_
  show doPin o a s = _
  unfold doPin
  rw [h]
  rfl

section
variable {o : Origin} {a : List Byte} {i : ImageId} {first last : Nat} {s : State}

theorem workOf_pin (hr : pinRange a = some (i, first, last)) : workOf .pin o a s = startPin o i first last s := by
  show doPin o a s = _
  unfold doPin
  rw [hr]

theorem startPin_bad (h : s.tables.cat[i].valid = false ∨ s.catSt[i].bad = true) :
    startPin o i first last s = reply o .imageBad s := by
  unfold startPin
  refine if_pos ?_
  rcases h with h | h <;> rw [h] <;> simp

theorem startPin_good (hv : s.tables.cat[i].valid = true) (hb : s.catSt[i].bad = false) : startPin o i first last s =
    if 64 < pinnedCount s + s.bc.reservation + (pinCounted i first last s).length then reply o .noRoom s
    else pinDone (pinBlocks i (pinCounted i first last s) (pinBegun o i (pinCounted i first last s).length s)) := by
  unfold startPin
  refine (if_neg ?_).trans ?_
  · rw [hv, hb]
    exact Bool.false_ne_true
  · cases o <;> rfl

theorem exec_pin_starts (ha : Asked .pin o a s) (hr : pinRange a = some (i, first, last)) (hv : s.tables.cat[i].valid = true)
    (hb : s.catSt[i].bad = false) {bs : List Nat} (hc : pinCounted i first last s = bs)
    (hl : pinnedCount s + s.bc.reservation + bs.length ≤ 64) :
    exec .pin s = .next (finish (turnPointer o (pinDone (pinBlocks i bs (pinBegun o i bs.length s))))) := by
  rw [show exec .pin s = exec (rowOf .pin) s from rfl, exec_asked ha, workOf_pin hr, startPin_good hv hb, hc, if_neg (by omega)]

theorem asked_request {c : ReqCode} (ha : Asked c o a s) : ∃ q, (s.ma.origin o).req = some q := by
  obtain ⟨q, _, hn, _⟩ := ha
  unfold nextRequest at hn
  split at hn
  case h_1 p _ =>
    obtain ⟨x, hx, he⟩ := Option.map_eq_some_iff.1 hn
    cases he
    exact ⟨q, hx⟩
  case h_2 => cases hn

theorem asked_idle {c : ReqCode} (ha : Asked c o a s) (hc : c.isLong = true) : s.ma.long = none := by
  obtain ⟨_, _, _, _, _, _, h⟩ := ha
  exact h hc

/-- A final reply in the event that accepted the request is one in which it never ran. -/
theorem finalReply_accepted {q : Request} {s : State} (hq : (s.ma.origin o).req = some q) (hl : s.ma.long = none) (j : LongJob)
    (st : Status) (d : List Byte) :
    finalReply o st d false { s with ma := { (accept o j s).ma with long := none } } = finalReply o st d false s := by
  refine Eq.trans (finalReply_request (q := q) ?_ st d false) (Eq.trans ?_ (finalReply_request hq st d false).symm)
  · cases o <;> exact hq
  · unfold queueReply
    congr 1
    · cases o <;> rfl
    · cases o <;> rw [← hl] <;> rfl

theorem setWaiting_accepted (u : State) (w : List Nat) :
    setWaiting w { u with ma := (accept o (.pin i []) u).ma } = accept o (.pin i w) u := by
  refine (setWaiting_pin (accept_long o (.pin i []) u) w).trans ?_
  cases o <;> rfl

/-- A PIN whose taking has come to `u`. -/
theorem turn_taken {q : Request} {u : State} (hq : (u.ma.origin o).req = some q) (hl : u.ma.long = none) (w : List Nat) :
    turnPointer o (pinDone (setWaiting w { u with ma := (accept o (.pin i []) u).ma })) =
      if u.bc.reservation = 0 then answered o .ok [] u else taken o (.pin i w) u := by
  rw [setWaiting_accepted]
  split
  case isTrue h =>
    refine congrArg (turnPointer o) ((pinDone_spent (accept_long o (.pin i w) u) (by cases o <;> exact h)).trans ?_)
    refine Eq.trans ?_ (finalReply_accepted hq hl (.pin i w) .ok [])
    cases o <;> rfl
  case isFalse h => exact congrArg (turnPointer o) (pinDone_running (by cases o <;> exact h))

/-- The same, for a PIN whose blocks come to `u` with `w` waiting. -/
theorem exec_pin_taken (ha : Asked .pin o a s) (hr : pinRange a = some (i, first, last)) (hv : s.tables.cat[i].valid = true)
    (hb : s.catSt[i].bad = false) {bs : List Nat} (hc : pinCounted i first last s = bs)
    (hl : pinnedCount s + s.bc.reservation + bs.length ≤ 64) {u : State} {w : List Nat} (hm : u.ma = s.ma)
    (hu : pinBlocks i bs (pinBegun o i bs.length s) = setWaiting w { u with ma := (accept o (.pin i []) s).ma }) :
    exec .pin s = .next (finish (if u.bc.reservation = 0 then answered o .ok [] u else taken o (.pin i w) u)) := by
  obtain ⟨q, hq⟩ := asked_request ha
  have hA : (accept o (.pin i []) s).ma = (accept o (.pin i []) u).ma := by
    cases o <;> simp [accept, updOrigin, updMa, setLong, hm]
  rw [exec_pin_starts ha hr hv hb hc hl, hu, hA, turn_taken (q := q) (by rw [hm, hq]) (by rw [hm, asked_idle ha rfl])]

end

/-- Requests keep the management state, so a chain of them does. -/
theorem chain_ma {i : ImageId} {now : List Nat} {u : Nat → State}
    (h : ∀ n b, now[n]? = some b → u (n + 1) = request .pin i b (u n)) : ∀ n, n ≤ now.length → (u n).ma = (u 0).ma
  | 0, _ => rfl
  | n + 1, hn => by
    rw [h n now[n] (List.getElem?_eq_getElem (by omega)), request_ma]
    exact chain_ma h n (by omega)

/-- Settles O52: the range, the count, and the taking of the blocks by `pinBlocks_takes`. -/
theorem pinRequested : Obligations.PinRequested := by
  unfold Obligations.PinRequested
  refine ⟨fun s o a ha h => exec_pin_none ha (pinRange_none h),
    fun s i first last => ⟨pinCounted_ascending i first last s, fun b => mem_pinCounted, pinnedCount_lines s⟩,
    fun s o a i first last ha hr => ⟨pinRange_some hr, fun h => ?bad, fun hv hb h => ?noRoom, fun hv hb hc h => ?nothing,
      fun b l d hv hb hc h hl hd _ => ?held, fun bs hv hb hc hne hl => ⟨fun hn => ?new, fun b hbs hvl hfl hq => ?queued,
        fun b f hbs hvl hfl hf => ?filling⟩, fun bs hv hb hc hl => ?chain⟩⟩
  case bad => exact exec_answers ha ((workOf_pin hr).trans (startPin_bad h))
  case noRoom => exact exec_answers ha ((workOf_pin hr).trans ((startPin_good hv hb).trans (if_pos h)))
  case nothing =>
    exact exec_pin_taken ha hr hv hb hc (by simpa using h) (u := { s with bc := { s.bc with reservation := 0 } }) (w := []) rfl rfl
  case held =>
    have hd' : (pinBegun o i 1 s).bc.lines[l] = .valid i b false d := hd
    have hroom : needsRoom i b (pinBegun o i 1 s) = false := by
      rw [← Bool.not_eq_true, needsRoom_iff]
      exact fun hx => hx.1 ⟨l, false, d, hd⟩
    have hw : setWaiting [] (request .pin i b (pinBegun o i 1 s)) = accept o (.pin i [])
        { s with bc := { s.bc with lines := s.bc.lines.set l (.valid i b true d), reservation := 0 } } := by
      rw [request_pin_valid hd' (validLine_first hl), ← setWaiting_accepted]
      cases o <;> rfl
    rw [exec_pin_starts ha hr hv hb hc (by simpa using h), List.length_singleton, pinBlocks_single hroom, hw,
      pinDone_spent (accept_long ..) (by cases o <;> rfl)]
    cases o <;> rfl
  case new =>
    have hd : bs.Nodup := hc ▸ (pinCounted_ascending i first last s).imp Nat.ne_of_lt
    have hx := exec_pin_taken ha hr hv hb hc hl
      (u := { s with bc := { s.bc with
        reservation := bs.length
        fills := s.bc.fills ++ (bs.take (16 - s.bc.fills.length)).map (fun b => ⟨i, b, [], true, false, 8, markedLine i b s⟩) } })
      (w := bs.drop (16 - s.bc.fills.length)) rfl (pinBlocks_new i bs (pinBegun o i bs.length s) hd hn)
    rw [hx, if_neg fun h0 => hne (List.length_eq_zero_iff.1 h0)]
  case queued =>
    subst hbs
    have hroom : needsRoom i b (pinBegun o i 1 s) = false := by
      rw [← Bool.not_eq_true, needsRoom_iff]
      exact fun hx => hx.2.2 (isQueued_iff.1 hq)
    have hv' : ¬ HeldValid i b (pinBegun o i 1 s) := validLine_none_iff.1 hvl
    have hf' : ¬ HeldFilling i b (pinBegun o i 1 s) := fun hx => Bool.false_ne_true (hfl.symm.trans (fillingHolds_iff.2 hx))
    have hq' : InQueue i b (pinBegun o i 1 s) := isQueued_iff.1 hq
    have hx := exec_pin_taken ha hr hv hb hc hl (w := [])
      (u := { s with bc := { s.bc with
        reservation := 1
        fills := s.bc.fills.map (fun e => if e.img = i ∧ e.blk = b then { e with pin := true } else e) } }) rfl
      ((pinBlocks_single hroom).trans (congrArg (setWaiting []) (request_queued hv' hf' hq' .pin)))
    rw [hx, if_neg Nat.one_ne_zero]
  case filling =>
    subst hbs
    have hroom : needsRoom i b (pinBegun o i 1 s) = false := by
      rw [← Bool.not_eq_true, needsRoom_iff]
      exact fun hx => hx.2.1 (fillingHolds_iff.1 hfl)
    have hv' : ¬ HeldValid i b (pinBegun o i 1 s) := validLine_none_iff.1 hvl
    have hf' : HeldFilling i b (pinBegun o i 1 s) := fillingHolds_iff.1 hfl
    have hx := exec_pin_taken ha hr hv hb hc hl (w := [])
      (u := { s with bc := { s.bc with reservation := 1 }, reader := .fill { f with pin := true } }) rfl
      ((pinBlocks_single hroom).trans (congrArg (setWaiting []) (request_heldFilling hv' hf' (f := f) hf .pin)))
    rw [hx, if_neg Nat.one_ne_zero]
  case chain =>
    obtain ⟨now, later, u, hbs, h0, hu, hh, he⟩ := pinBlocks_takes i (accept o (.pin i []) s).ma bs
      { s with bc := { s.bc with reservation := bs.length } }
    refine ⟨now, later, u, hbs, h0, hu, hh, exec_pin_taken ha hr hv hb hc hl ?_ he⟩
    rw [chain_ma (fun n b h => (hu n b h).1) _ le_rfl, h0]

end Sys2Proof.Machine
end

section
/-! PROOFS. UNPIN and PREFETCH (O53). -/

namespace Sys2Proof.Machine

open Sys2Proof.Safety

/-! ## UNPIN -/

/-- The reader after an UNPIN of a range. -/
def Reader.unpin (i : ImageId) (first last : Nat) : Reader → Reader
  | .fill f => .fill (if f.img = i ∧ within first last f.blk = true then { f with pin := false } else f)
  | .idle => .idle
  | .erase e => .erase e
  | .program p q => .program p q
  | .commit => .commit
  | .scan d => .scan d

theorem Reader.unpin_other {r : Reader} (h : ∀ f, r ≠ .fill f) (i : ImageId) (first last : Nat) : r.unpin i first last = r := by
  cases r with
  | fill f => exact absurd rfl (h f)
  | _ => rfl

theorem Fill.unpin_eq (i : ImageId) (first last : Nat) (f : Fill) :
    (if f.pin && decide (f.img = i) && within first last f.blk then { f with pin := false } else f) =
      if f.img = i ∧ within first last f.blk = true then { f with pin := false } else f := by
  cases hp : f.pin
  · rw [if_neg (by simp)]
    split
    · rw [← hp]
    · rfl
  · simp

theorem inFlight_unpin (i : ImageId) (first last : Nat) (s : State) :
    (if inFlightPinned i first last s then updFill (fun f => { f with pin := false }) s else s) =
      { s with reader := s.reader.unpin i first last } := by
  unfold inFlightPinned updFill Reader.unpin
  cases hr : s.reader with
  | fill f =>
    refine Eq.trans ?_ (congrArg (fun x => { s with reader := .fill x }) (Fill.unpin_eq i first last f))
    by_cases h : (f.pin && decide (f.img = i) && within first last f.blk) = true
    · exact (if_pos h).trans (by rw [if_pos h])
    · exact (if_neg h).trans (by rw [if_neg h, ← hr])
  | _ =>
    rw [if_neg Bool.false_ne_true]
    exact congrArg (fun r => { s with reader := r }) hr

theorem FillEntry.unpin_eq (i : ImageId) (first last : Nat) (e : FillEntry) :
    (if e.pinned i first last then { e with pin := false } else e) =
      if e.img = i ∧ within first last e.blk = true then { e with pin := false } else e := by
  unfold FillEntry.pinned
  cases hp : e.pin
  · rw [if_neg (by simp)]
    split
    · rw [← hp]
    · rfl
  · simp

theorem takeBack_eq {s : State} {p : Origin} {i : ImageId} {w : List Nat} (h : s.ma.long = some ⟨p, .pin i w⟩) (first last : Nat) :
    takeBack i first last s = pinDone { s with
      reader := s.reader.unpin i first last
      bc := { s.bc with
        reservation := s.bc.reservation - takenBack i first last s
        fills := s.bc.fills.map (fun e => if e.img = i ∧ within first last e.blk = true then { e with pin := false } else e) }
      ma := { s.ma with long := some ⟨p, .pin i (w.filter (fun b => !within first last b))⟩ } } := by
  have hw : pinWaiting s = w := by
    unfold pinWaiting
    rw [h]
  unfold takeBack
  simp only [inFlight_unpin, FillEntry.unpin_eq]
  rw [show pinWaiting { s with reader := s.reader.unpin i first last } = w from hw]
  refine congrArg pinDone ?_
  exact setWaiting_pin (s := updBc _ { s with reader := s.reader.unpin i first last }) h _

/-- The state after an UNPIN takes `n` blocks back from the PIN of `p`. -/
def takenFrom (p : Origin) (i : ImageId) (first last n : Nat) (w : List Nat) (s : State) : State :=
  { s with
    reader := s.reader.unpin i first last
    bc := { s.bc with
      lines := vmap (Line.unpin i first last) s.bc.lines
      reservation := s.bc.reservation - n
      fills := s.bc.fills.map (fun e => if e.img = i ∧ within first last e.blk = true then { e with pin := false } else e) }
    ma := { s.ma with long := some ⟨p, .pin i (w.filter (fun b => !within first last b))⟩ } }

theorem unpin_running {s : State} {p : Origin} {i : ImageId} {w : List Nat} (h : s.ma.long = some ⟨p, .pin i w⟩) (first last : Nat) :
    unpin i first last s = pinDone (takenFrom p i first last (takenBack i first last s) w s) := by
  unfold unpin
  refine (if_pos (pinImage_pin (by exact h))).trans ?_
  exact takeBack_eq (s := updBc (fun c => { c with lines := vmap (Line.unpin i first last) c.lines }) s) h first last

theorem unpin_quiet {s : State} {i : ImageId} (h : pinImage s ≠ some i) (first last : Nat) :
    unpin i first last s = { s with bc := { s.bc with lines := vmap (Line.unpin i first last) s.bc.lines } } := if_neg h

theorem inFlightPinned_iff {i : ImageId} {first last : Nat} {s : State} {f : Fill} (h : s.reader = .fill f) :
    inFlightPinned i first last s = true ↔ f.pin = true ∧ f.img = i ∧ within first last f.blk = true := by
  unfold inFlightPinned
  rw [h]
  simp only [Bool.and_eq_true, decide_eq_true_eq, and_assoc]

theorem inFlightPinned_other {i : ImageId} {first last : Nat} {s : State} (h : ∀ f, s.reader ≠ .fill f) :
    inFlightPinned i first last s = false := by
  unfold inFlightPinned
  split
  case h_1 f hf => exact absurd hf (h f)
  all_goals rfl

/-! ## PREFETCH -/

theorem prefetch_off {i : ImageId} {s : State} (h : s.tables.cat[i].valid = false ∨ s.catSt[i].bad = true) (first last : Nat) :
    prefetch i first last s = s := by
  unfold prefetch
  refine if_neg ?_
  rcases h with h | h <;> rw [h] <;> simp

theorem prefetch_on {i : ImageId} {s : State} (hv : s.tables.cat[i].valid = true) (hb : s.catSt[i].bad = false) (first last : Nat) :
    prefetch i first last s =
      ((blockRange first last).filter (fun b => isWindowed i b s)).foldl (fun t b => request .prefetch i b t) s := by
  unfold prefetch
  refine if_pos ?_
  rw [hv, hb]
  rfl

theorem prefetch_empty {i : ImageId} {first last : Nat} (h : last < first) (s : State) : prefetch i first last s = s := by
  have he : blockRange first last = [] := by
    rw [List.eq_nil_iff_forall_not_mem]
    intro b hb
    obtain ⟨h1, h2⟩ := mem_blockRange.1 hb
    omega
  unfold prefetch
  rw [he]
  exact ite_self s

theorem blockRange_one (b : Nat) : blockRange b b = [b] := by
  unfold blockRange
  rw [Nat.add_sub_cancel_left]
  rfl

theorem exec_prefetch {o : Origin} {a : List Byte} {s : State} (ha : Asked .prefetch o a s) {i : ImageId} (hi : rd8 a 0 = i.val) :
    exec .prefetch s = .next (finish (answered o .ok [] (prefetch i (rd16 a 1) (rd16 a 3) s))) := by
  refine exec_answers ha ?_
  show doPrefetch o a s = _
  unfold doPrefetch
  rw [hi, finAt_val]
  rfl

theorem exec_prefetch_beyond {o : Origin} {a : List Byte} {s : State} (ha : Asked .prefetch o a s) (hi : 15 < rd8 a 0) :
    exec .prefetch s = .next (finish (answered o .ok [] s)) := by
  refine exec_answers ha ?_
  show doPrefetch o a s = _
  unfold doPrefetch
  rw [finAt_none (by omega)]
  rfl

/-- Settles O53: UNPIN by the running PIN, PREFETCH by its range, each request by its place. -/
theorem unpinAndPrefetch : Obligations.UnpinAndPrefetch := by
  unfold Obligations.UnpinAndPrefetch
  refine fun s o a => ⟨fun i first last ha hr hp => ?quiet, fun i first last n flight p w inRange r t ha hr hl hin hfill hother hn ht =>
    ?running, fun ha hr => ?range, fun i ha hi h => ?off, fun ha h => ?empty, fun i first last windowed ha hi hf hl hv hb hw => ?each,
    fun i b => ⟨fun hv => request_heldValid hv (by decide), fun hv => ⟨fun f hf hr => request_heldFilling hv hf hr .prefetch,
      fun hf => ⟨fun hq => request_queued hv hf hq .prefetch, fun hq h16 => request_full hv hf hq h16 .prefetch,
        fun hq h16 => request_new hv hf hq h16 .prefetch⟩⟩⟩, fun i b ha hi hf hl hv hb hw hn h16 => ?one⟩
  case quiet =>
    refine exec_answers ha ?_
    show doUnpin o a s = _
    unfold doUnpin
    rw [hr, ← unpin_quiet hp first last]
    rfl
  case running =>
    obtain rfl : inRange = within first last := funext hin
    have hflight : flight = if inFlightPinned i first last s then 1 else 0 := by
      by_cases hx : ∃ f, s.reader = .fill f
      · obtain ⟨f, hf⟩ := hx
        simp only [(hfill f hf).1, inFlightPinned_iff hf]
      · have hx' : ∀ f, s.reader ≠ .fill f := fun f hf => hx ⟨f, hf⟩
        rw [inFlightPinned_other hx', (hother hx').1]
        rfl
    have hreader : r = s.reader.unpin i first last := by
      by_cases hx : ∃ f, s.reader = .fill f
      · obtain ⟨f, hf⟩ := hx
        rw [(hfill f hf).2, hf]
        rfl
      · have hx' : ∀ f, s.reader ≠ .fill f := fun f hf => hx ⟨f, hf⟩
        rw [(hother hx').2, Reader.unpin_other hx']
    have hcount : n = takenBack i first last s := by
      rw [hn, hflight]
      unfold takenBack pinWaiting
      rw [hl]
      rfl
    have hx : exec .unpin s = .next (finish (answered o .ok [] (pinDone t))) := by
      refine exec_answers ha ?_
      show doUnpin o a s = _
      unfold doUnpin
      rw [hr, ht, hreader, hcount]
      exact congrArg (reply o .ok) (unpin_running hl first last)
    refine ⟨fun h => ?_, fun h => ?_⟩
    · rw [hx, pinDone_running]
      rw [ht]
      exact Nat.sub_ne_zero_of_lt h
    · rw [hx, pinDone_spent (s := t) (o := p) (i := i) (w := w.filter (fun b => !within first last b)) (by rw [ht])
        (by rw [ht]; exact Nat.sub_eq_zero_of_le h)]
      rw [ht]
  case range =>
    refine exec_answers ha ?_
    show doUnpin o a s = _
    unfold doUnpin
    rw [hr]
    rfl
  case off => rw [exec_prefetch ha hi, prefetch_off h]
  case empty =>
    by_cases hi : 15 < rd8 a 0
    · exact exec_prefetch_beyond ha hi
    · rw [exec_prefetch ha (i := ⟨rd8 a 0, by omega⟩) rfl, prefetch_empty (h.resolve_left hi)]
  case each =>
    have hx : windowed = fun b => isWindowed i b s := funext fun b => Bool.eq_iff_iff.2 ((hw b).trans isWindowed_iff.symm)
    rw [exec_prefetch ha hi, prefetch_on hv hb, hf, hl, hx]
    rfl
  case one =>
    obtain ⟨hv', hf', hq'⟩ := needsRoom_iff.1 hn
    rw [exec_prefetch ha hi, prefetch_on hv hb, hf, hl, blockRange_one,
      show [b].filter (fun b => isWindowed i b s) = [b] from List.filter_cons_of_pos hw, List.foldl_cons, List.foldl_nil,
      request_new hv' hf' hq' h16]
    rfl

end Sys2Proof.Machine
end

section
/-! PROOFS. INVALIDATE (O54). -/

namespace Sys2Proof.Machine

open Sys2Proof.Safety

/-- The cache after every VALID line and every queued entry of the index is gone. -/
def withdrawn (i : ImageId) (s : State) : State :=
  { s with bc := { s.bc with
    lines := vmap (fun x => if x.isOf i then .empty else x) s.bc.lines
    recency := s.bc.recency.filter (fun l => !(s.bc.lines[l].isOf i))
    fills := s.bc.fills.filter (fun e => decide (e.img ≠ i)) } }

theorem dropImage_eq (i : ImageId) (s : State) :
    dropImage i s = afterWithdraw (hasFills i s) (endPinOn i (discardFill i (withdrawn i s))) := rfl

theorem hasFills_iff {i : ImageId} {s : State} : hasFills i s = true ↔ ∃ e ∈ s.bc.fills, e.img = i := by
  unfold hasFills
  simp

theorem hasFills_none {i : ImageId} {s : State} (h : ∀ e ∈ s.bc.fills, e.img ≠ i) : hasFills i s = false := by
  rw [← Bool.not_eq_true, hasFills_iff]
  exact fun ⟨e, he, hi⟩ => h e he hi

theorem withdrawn_line (i : ImageId) (s : State) (l : LineId) :
    (withdrawn i s).bc.lines[l] = if s.bc.lines[l].isOf i then .empty else s.bc.lines[l] :=
  vmap_get (fun x : Line => if x.isOf i then Line.empty else x) s.bc.lines l

theorem withdrawn_noFills {i : ImageId} {s : State} (h : ∀ e ∈ s.bc.fills, e.img ≠ i) :
    withdrawn i s = { s with bc := { s.bc with
      lines := vmap (fun x => if x.isOf i then .empty else x) s.bc.lines
      recency := s.bc.recency.filter (fun l => !(s.bc.lines[l].isOf i)) } } := by
  have hf : s.bc.fills.filter (fun e => decide (e.img ≠ i)) = s.bc.fills := List.filter_eq_self.2 fun e he => decide_eq_true (h e he)
  unfold withdrawn
  rw [hf]

theorem withdrawn_clear (i : ImageId) (s : State) : Clear i (withdrawn i s) := by
  refine ⟨fun e he => of_decide_eq_true (List.mem_filter.1 he).2, fun l => ?_⟩
  rw [withdrawn_line]
  split
  case isTrue => rfl
  case isFalse h => exact Bool.eq_false_iff.2 h

/-- The fill in flight for the index, marked for discard. -/
theorem discardFill_of {i : ImageId} {s : State} {f : Fill} (hr : s.reader = .fill f) (hi : f.img = i) :
    discardFill i s = { s with
      reader := .fill { f with reqs := [], pin := false, pre := false }
      bc := { s.bc with lines := s.bc.lines.set f.line (.filling i f.blk true) } } := by
  unfold discardFill updFill setLine updBc
  rw [hr]
  simp only [hi, if_true]

theorem discardFill_clear {i : ImageId} {s : State} (h : Clear i s) : Clear i (discardFill i s) := by
  unfold discardFill
  split
  case h_1 f _ =>
    split
    · exact (h.updFill _).setLine rfl
    · exact h
  all_goals exact h

/-- What `discardFill` may change. -/
theorem discardFill_shape (i : ImageId) (s : State) : discardFill i s =
    { s with reader := (discardFill i s).reader, bc := { s.bc with lines := (discardFill i s).bc.lines } } := by
  by_cases h : ∃ f, s.reader = .fill f ∧ f.img = i
  · obtain ⟨f, hr, hi⟩ := h
    rw [discardFill_of hr hi]
  · rw [discardFill_same fun f hf hi => h ⟨f, hf, hi⟩]

theorem endPinOn_other {i : ImageId} {s : State} (h : pinImage s ≠ some i) : endPinOn i s = s := if_neg h

theorem endPinOn_of {i : ImageId} {s : State} {p : Origin} {w : List Nat} (h : s.ma.long = some ⟨p, .pin i w⟩) :
    endPinOn i s = finalReply p .imageBad [] false { clearPinMarks s with ma := { s.ma with long := none } } := by
  have hma : (clearPinMarks s).ma = s.ma := by
    show (clearPinMarks s).noCache.ma = s.noCache.ma
    rw [clearPinMarks_noCache]
  unfold endPinOn
  rw [if_pos (pinImage_pin h)]
  unfold endPin
  rw [pinImage_pin h]
  show endLong .imageBad [] (clearPinMarks s) = _
  unfold endLong
  rw [hma, h, ← hma]
  rfl

theorem clearPinMarks_eq (s : State) : ∃ r, clearPinMarks s = { s with
      reader := r
      bc := { s.bc with reservation := 0, fills := s.bc.fills.map (fun e => { e with pin := false }) } } ∧
    (∀ f, s.reader = .fill f → r = .fill { f with pin := false }) ∧ ((∀ f, s.reader ≠ .fill f) → r = s.reader) := by
  unfold clearPinMarks updFill updBc
  split
  case h_1 f hf =>
    refine ⟨.fill { f with pin := false }, rfl, fun g hg => ?_, fun h => absurd hf (h f)⟩
    cases (show Reader.fill f = .fill g from hf.symm.trans hg)
    rfl
  all_goals
    rename_i hr
    exact ⟨s.reader, rfl, fun f hf => Reader.noConfusion (hr.symm.trans hf), fun _ => rfl⟩

theorem clearPinMarks_clear {i : ImageId} {s : State} (h : Clear i s) : Clear i (clearPinMarks s) := by
  obtain ⟨r, he, _⟩ := clearPinMarks_eq s
  rw [he]
  refine ⟨fun e hm => ?_, h.2⟩
  obtain ⟨x, hx, rfl⟩ := List.mem_map.1 hm
  exact h.1 x hx

theorem endPinOn_clear {i : ImageId} {s : State} (h : Clear i s) : Clear i (endPinOn i s) ∧ pinImage (endPinOn i s) ≠ some i := by
  by_cases hp : pinImage s = some i
  · have hx : ∃ p w, s.ma.long = some ⟨p, .pin i w⟩ := by
      rw [pinImage_pinOf, Option.map_eq_some_iff] at hp
      obtain ⟨⟨j, w⟩, hj, rfl⟩ := hp
      obtain ⟨p, hl⟩ := pinOf_some.1 hj
      exact ⟨p, w, hl⟩
    obtain ⟨p, w, hl⟩ := hx
    rw [endPinOn_of hl]
    refine ⟨((clearPinMarks_clear h).congr rfl).of_noReply (finalReply_noReply ..), ?_⟩
    unfold pinImage
    rw [finalReply_long]
    exact fun hx => by cases hx
  · rw [endPinOn_other hp]
    exact ⟨h, hp⟩

theorem exec_invalidate {o : Origin} {a : Byte} {s : State} (ha : Asked .invalidate o [a] s) {i : ImageId} (hi : a.toNat = i.val) :
    exec .invalidate s = .next (finish (if 0 < s.catSt[i].users then answered o .inUse [] s else answered o .ok [] (dropImage i s))) := by
  have hw : workOf .invalidate o [a] s = if 0 < s.catSt[i].users then reply o .inUse s else reply o .ok (dropImage i s) := by
    show doInvalidate o [a] s = _
    unfold doInvalidate
    rw [rd8_0, hi, finAt_val]
  rw [show exec .invalidate s = exec (rowOf .invalidate) s from rfl, exec_asked ha, hw, apply_ite (turnPointer o)]
  rfl

/-- Settles O54: the withdrawal, the discard, the end of a PIN and the requests after it, in this order. -/
theorem imageInvalidated : Obligations.ImageInvalidated := by
  unfold Obligations.ImageInvalidated
  refine fun s o a ha => ⟨fun h => ?range, fun i hi hu => ?inUse, fun i hi hu hr hl hf => ?plain, fun i hi hu => ?whole⟩
  case range =>
    refine exec_answers ha ?_
    show doInvalidate o [a] s = _
    unfold doInvalidate
    rw [rd8_0, finAt_none (by omega)]
    rfl
  case inUse => rw [exec_invalidate ha hi, if_pos hu]
  case plain =>
    have hd : discardFill i (withdrawn i s) = withdrawn i s :=
      discardFill_same fun f hx => by cases (show s.reader = .idle from hr).symm.trans hx
    have hp : pinImage (withdrawn i s) ≠ some i := by
      show pinImage s ≠ some i
      unfold pinImage
      rw [hl]
      exact fun h => by cases h
    rw [exec_invalidate ha hi, if_neg (by omega), dropImage_eq, hasFills_none hf, hd, endPinOn_other hp, withdrawn_noFills hf]
    rfl
  case whole =>
    have hma : (discardFill i (withdrawn i s)).ma = s.ma := (discardFill_bc i (withdrawn i s)).2.2.2
    refine ⟨discardFill i (withdrawn i s), endPinOn i (discardFill i (withdrawn i s)), dropImage i s, ?_, discardFill_shape i (withdrawn i s),
      fun h => ?other, fun f hr hf => ?flight, fun hp => ?noPin, fun p w hl => ?pin, fun h => ?quiet, fun h => ?again, fun h => ?clear⟩
    · rw [exec_invalidate ha hi, if_neg (by omega)]
    case other =>
      rw [discardFill_same (s := withdrawn i s) h]
      exact ⟨rfl, withdrawn_line i s⟩
    case flight =>
      rw [discardFill_of (s := withdrawn i s) hr hf]
      refine ⟨rfl, set_same .., fun l hl => ?_⟩
      rw [set_other _ hl, withdrawn_line]
    case noPin =>
      refine endPinOn_other ?_
      unfold pinImage
      rw [hma]
      exact hp
    case pin =>
      obtain ⟨r, he, hr, hr'⟩ := clearPinMarks_eq (discardFill i (withdrawn i s))
      refine ⟨r, ?_, hr, hr'⟩
      rw [endPinOn_of (p := p) (w := w) (by rw [hma, hl]), he, hma]
    case quiet =>
      rw [dropImage_eq, hasFills_none h]
      rfl
    case again =>
      rw [dropImage_eq, hasFills_iff.2 h]
      rfl
    case clear =>
      have hu : Unused i (dropImage i s) := by
        intro k x hx
        rw [(dropImage_rest i s).1] at hx
        exact h k x hx
      obtain ⟨hc, hp⟩ := endPinOn_clear (discardFill_clear (withdrawn_clear i s))
      rw [dropImage_eq] at hu ⊢
      unfold afterWithdraw at hu ⊢
      split
      case isTrue hx =>
        rw [if_pos hx] at hu
        refine (hc.placeWaiting hp).requestAll fun k x hk => hu k x ?_
        show (requestAll (placeWaiting (endPinOn i (discardFill i (withdrawn i s))))).noCache.slots[k].session = some x
        rw [requestAll_noCache]
        exact hk
      case isFalse => exact hc

end Sys2Proof.Machine
end

section
/-! PROOFS. The flash operations and the start-up load (O8, O36, O37). -/

namespace Sys2Proof.Machine

open Sys2Proof.Safety

/-! ## What an operation leaves in the flash -/

section
variable {m : Memory}

/-- Inside the run that was written. -/
theorem Memory.writeRun_inside (h : Memory.wf m) (a : Nat) (bs : List Byte) {j : Nat} (hj : j < bs.length) :
    (m.writeRun a bs).read (a + j) = bs.getD j 0 := by
  rw [Memory.read_writeRun h, if_pos (by omega), Nat.add_sub_cancel_left]

theorem Memory.writeRun_outside (h : Memory.wf m) (a : Nat) (bs : List Byte) {x : Nat} (hx : x < a ∨ a + bs.length ≤ x) :
    (m.writeRun a bs).read x = m.read x := by
  rw [Memory.read_writeRun h, if_neg (by omega)]

/-- The flash after an erase of sector `k` in which the bits of `kept` keep their value. -/
def erasedAt (kept : Disturb) (k : Nat) (m : Memory) : Memory :=
  m.writeRun (imageSectorAddr k) (erased kept (m.readRun (imageSectorAddr k) sectorBytes))

theorem erasedAt_wf (h : Memory.wf m) (kept : Disturb) (k : Nat) : Memory.wf (erasedAt kept k m) := Memory.writeRun_wf h _ _

theorem erasedAt_outside (h : Memory.wf m) (kept : Disturb) (k : Nat) {a : Nat} (ha : a < 4096 * (256 + k) ∨ 4096 * (257 + k) ≤ a) :
    (erasedAt kept k m).read a = m.read a := by
  refine Memory.writeRun_outside h _ _ ?_
  rw [erased_length, Memory.readRun_length]
  unfold imageSectorAddr sectorBytes
  omega

theorem erasedAt_inside (h : Memory.wf m) (kept : Disturb) (k : Nat) {j : Nat} (hj : j < 4096) :
    (erasedAt kept k m).read (4096 * (256 + k) + j) =
      if j < kept.length then m.read (4096 * (256 + k) + j) ||| ~~~(kept.getD j 0) else 0xFF := by
  have hr : j < (m.readRun (imageSectorAddr k) sectorBytes).length := by rwa [Memory.readRun_length]
  have hl : j < (erased kept (m.readRun (imageSectorAddr k) sectorBytes)).length := by rwa [erased_length]
  refine (Memory.writeRun_inside h (imageSectorAddr k) _ hl).trans ?_
  rw [erased_getD hr, Memory.readRun_getD (n := sectorBytes) hj]
  rfl

/-- The flash after the programming of record `r` with `d`. -/
def programmedAt (prog : Disturb) (r : Nat) (d : List Byte) (m : Memory) : Memory :=
  m.writeRun (recordAddr r) (disturb prog (recordImage d))

theorem recordImage_length {d : List Byte} (h : d.length = 128) : (recordImage d).length = 130 := by
  unfold recordImage be16
  rw [List.length_append, h]
  rfl

theorem programmedAt_wf (h : Memory.wf m) (prog : Disturb) (r : Nat) (d : List Byte) : Memory.wf (programmedAt prog r d m) :=
  Memory.writeRun_wf h _ _

theorem programmedAt_outside (h : Memory.wf m) (prog : Disturb) (r : Nat) {d : List Byte} (hd : d.length = 128) {a : Nat}
    (ha : a < recordAddr r ∨ recordAddr r + 130 ≤ a) : (programmedAt prog r d m).read a = m.read a := by
  refine Memory.writeRun_outside h _ _ ?_
  rwa [disturb_length, recordImage_length hd]

theorem programmedAt_inside (h : Memory.wf m) (prog : Disturb) (r : Nat) {d : List Byte} (hd : d.length = 128) {j : Nat} (hj : j < 130) :
    (programmedAt prog r d m).read (recordAddr r + j) = (recordImage d).getD j 0 ^^^ prog.getD j 0 := by
  have hl : j < (recordImage d).length := by rwa [recordImage_length hd]
  refine (Memory.writeRun_inside h (recordAddr r) _ (by rwa [disturb_length])).trans (disturb_getD hl)

/-- The flash after the programming of sector 0 with a store. -/
def storedAt (prog : Disturb) (store : List Byte) (m : Memory) : Memory := m.writeRun 0 (disturb prog (sectorImage store))

theorem sectorImage_length {store : List Byte} (h : store.length ≤ 4096) : (sectorImage store).length = 4096 := by
  unfold sectorImage sectorBytes
  rw [List.length_append, List.length_replicate]
  omega

theorem sectorImage_getD {store : List Byte} {j : Nat} (hj : j < 4096) : (sectorImage store).getD j 0 = store.getD j 0xFF := by
  unfold sectorImage sectorBytes
  by_cases h : j < store.length
  · rw [List.getD_append _ _ _ _ h, List.getD_eq_getElem _ _ h, List.getD_eq_getElem _ _ h]
  · rw [List.getD_append_right _ _ _ _ (by omega), List.getD_eq_default store _ (by omega),
      List.getD_eq_getElem _ _ (by rw [List.length_replicate]; omega), List.getElem_replicate]

theorem storedAt_wf (h : Memory.wf m) (prog : Disturb) (store : List Byte) : Memory.wf (storedAt prog store m) := Memory.writeRun_wf h _ _

theorem storedAt_outside (h : Memory.wf m) (prog : Disturb) {store : List Byte} (hs : store.length ≤ 4096) {a : Nat} (ha : 4096 ≤ a) :
    (storedAt prog store m).read a = m.read a := by
  refine Memory.writeRun_outside h _ _ (.inr ?_)
  rw [disturb_length, sectorImage_length hs]
  omega

theorem storedAt_inside (h : Memory.wf m) (prog : Disturb) {store : List Byte} (hs : store.length ≤ 4096) {j : Nat} (hj : j < 4096) :
    (storedAt prog store m).read j = store.getD j 0xFF ^^^ prog.getD j 0 := by
  have hl : j < (sectorImage store).length := by rwa [sectorImage_length hs]
  have hx := Memory.writeRun_inside h 0 (disturb prog (sectorImage store)) (j := j) (by rwa [disturb_length])
  rw [Nat.zero_add] at hx
  exact hx.trans ((disturb_getD hl).trans (by rw [sectorImage_getD hj]))

/-- A run that reads as erased, byte by byte. -/
theorem allErased_run (read : Disturb) (m : Memory) (a n : Nat) : allErased (disturb read (m.readRun a n)) = true ↔
    ∀ j, j < n → m.read (a + j) ^^^ read.getD j 0 = 0xFF := by
  rw [allErased_iff, disturb_length, Memory.readRun_length]
  refine forall₂_congr fun j hj => ?_
  rw [disturb_getD (by rwa [Memory.readRun_length]), Memory.readRun_getD hj]

theorem allErased_all (read : Disturb) (m : Memory) (a n : Nat) : allErased (disturb read (m.readRun a n)) =
    (List.range n).all (fun j => decide (m.read (a + j) ^^^ read.getD j 0 = 0xFF)) := by
  rw [Bool.eq_iff_iff, allErased_run, List.all_eq_true]
  simp only [List.mem_range, decide_eq_true_eq]

end

/-! ## The end of an operation -/

theorem endLong_eq {s : State} {o : Origin} {j : LongJob} (h : s.ma.long = some ⟨o, j⟩) (st : Status) (d : List Byte) :
    endLong st d s = finalReply o st d false { s with ma := { s.ma with long := none } } := by
  unfold endLong
  rw [h]
  rfl

theorem flashDone_eq {s : State} {o : Origin} {j : LongJob} (h : s.ma.long = some ⟨o, j⟩) (ok : Bool) (m : Memory) :
    flashDone ok m s = finalReply o (flashStatus ok s) [] false
      { s with reader := .idle, flash := m, ma := { s.ma with long := none } } :=
  endLong_eq (s := { idleReader s with flash := m }) h _ _

theorem flashStatus_erase {s : State} {o : Origin} {k : Nat} {aborted : Bool} (h : s.ma.long = some ⟨o, .erase k true aborted⟩) (ok : Bool) :
    flashStatus ok s = if aborted then .aborted else if ok then .ok else .writeFailed := by
  unfold flashStatus
  rw [h]
  cases aborted <;> rfl

theorem flashStatus_program {s : State} {o : Origin} {r : Nat} {d : List Byte} {aborted : Bool}
    (h : s.ma.long = some ⟨o, .program r d true aborted⟩) (ok : Bool) :
    flashStatus ok s = if aborted then .aborted else if ok then .ok else .writeFailed := by
  unfold flashStatus
  rw [h]
  cases aborted <;> rfl

theorem flashStatus_commit {s : State} {o : Origin} (h : s.ma.long = some ⟨o, .commit true⟩) (ok : Bool) :
    flashStatus ok s = if ok then .ok else .writeFailed := by
  unfold flashStatus
  rw [h]

theorem eraseSector_eq (kept read : Disturb) (k : Nat) (m : Memory) : eraseSector kept read k m =
    (allErased (disturb read ((erasedAt kept k m).readRun (imageSectorAddr k) sectorRecordBytes)), erasedAt kept k m) := rfl

theorem exec_eraseSectorDone {s : State} {k : Nat} (h : s.reader = .erase k) (kept read : Disturb) :
    exec (.eraseSectorDone kept read) s = .next (finish
      (flashDone (eraseSector kept read k s.flash).1 (eraseSector kept read k s.flash).2 s)) := by
  show execEraseSectorDone kept read s = _
  unfold execEraseSectorDone
  rw [h]

/-- Settles O36, by the bytes an erase leaves. -/
theorem eraseEnds : Obligations.EraseEnds := by
  unfold Obligations.EraseEnds
  intro s k kept read o aborted hw hr hl
  refine ⟨erasedAt kept k s.flash, erasedAt_wf hw kept k, fun a ha => erasedAt_outside hw kept k ha,
    fun j hj => erasedAt_inside hw kept k hj, ?_⟩
  have hok : allErased (disturb read ((erasedAt kept k s.flash).readRun (imageSectorAddr k) sectorRecordBytes)) =
      (List.range 4030).all (fun j => decide ((erasedAt kept k s.flash).read (4096 * (256 + k) + j) ^^^ read.getD j 0 = 0xFF)) :=
    allErased_all read _ (imageSectorAddr k) sectorRecordBytes
  rw [exec_eraseSectorDone hr, eraseSector_eq, flashDone_eq hl, flashStatus_erase hl, hok]

theorem exec_writeRecordDone {s : State} {r : Nat} {d : List Byte} (h : s.reader = .program r d) (blank prog back : Disturb) :
    exec (.writeRecordDone blank prog back) s = .next (finish
      (flashDone (programRecord blank prog back r d s.flash).1 (programRecord blank prog back r d s.flash).2 s)) := by
  show execWriteRecordDone blank prog back s = _
  unfold execWriteRecordDone
  rw [h]

/-- Settles O37, by the bytes that a programmed record and a programmed store leave. -/
theorem flashWritesEnd : Obligations.FlashWritesEnd := by
  unfold Obligations.FlashWritesEnd
  refine ⟨fun s r d o blank prog back aborted hw hd hr hl => ⟨fun hb => ?blank, fun hb => ?used⟩,
    fun s o prog back hw hr hl => ?commit, fun r => rfl⟩
  case blank =>
    have hp : programRecord blank prog back r d s.flash =
        (decide (disturb back ((programmedAt prog r d s.flash).readRun (recordAddr r) recordBytes) = recordImage d),
          programmedAt prog r d s.flash) := if_pos ((allErased_run blank s.flash (recordAddr r) 130).2 hb)
    have hok := readBack_iff back (programmedAt prog r d s.flash) (recordAddr r) (recordImage d)
    rw [recordImage_length hd] at hok
    refine ⟨programmedAt prog r d s.flash, programmedAt_wf hw prog r d, fun a ha => programmedAt_outside hw prog r hd ha,
      fun j hj => programmedAt_inside hw prog r hd hj, ?_⟩
    rw [exec_writeRecordDone hr, flashDone_eq hl, flashStatus_program hl, hp]
    exact congrArg (fun ok : Bool => Host.Outcome.next (finish (finalReply o
      (if aborted then .aborted else if ok then .ok else .writeFailed) [] false
      { s with reader := .idle, flash := programmedAt prog r d s.flash, ma := { s.ma with long := none } }))) hok
  case used =>
    have hp : programRecord blank prog back r d s.flash = (false, s.flash) := by
      refine if_neg fun h => ?_
      obtain ⟨j, hj, hx⟩ := hb
      exact hx ((allErased_run blank s.flash (recordAddr r) 130).1 h j hj)
    rw [exec_writeRecordDone hr, flashDone_eq hl, flashStatus_program hl, hp]
    rfl
  case commit =>
    have hs : s.tables.store.length ≤ 4096 := by rw [Tables.store_length]; omega
    have hx : exec (.commitDone prog back) s = .next (finish (flashDone
        (decide (disturb back ((storedAt prog s.tables.store s.flash).readRun 0 s.tables.store.length) = s.tables.store))
        (storedAt prog s.tables.store s.flash) s)) := by
      show execCommitDone prog back s = _
      unfold execCommitDone
      rw [hr]
      rfl
    have hok := readBack_iff back (storedAt prog s.tables.store s.flash) 0 s.tables.store
    rw [Tables.store_length] at hok
    simp only [Nat.zero_add] at hok
    refine ⟨storedAt prog s.tables.store s.flash, storedAt_wf hw prog _, fun a ha => storedAt_outside hw prog hs ha,
      fun j hj => storedAt_inside hw prog hs hj, ?_⟩
    rw [hx, flashDone_eq hl, flashStatus_commit hl, Tables.store_length, hok]

/-! ## The start-up load -/

theorem finishCut_erase {s : State} {k : Nat} (h : s.cut = some (.erase k)) (left : Disturb) :
    finishCut left s = erasedAt left k s.flash := by
  unfold finishCut
  rw [h]
  rfl

theorem finishCut_program {s : State} {r : Nat} {d : List Byte} (h : s.cut = some (.program r d)) (left : Disturb) :
    finishCut left s =
      if allErased (s.flash.readRun (recordAddr r) recordBytes) then programmedAt left r d s.flash else s.flash := by
  unfold finishCut
  rw [h]
  rfl

theorem finishCut_commit {s : State} {store : List Byte} (h : s.cut = some (.commit store)) (left : Disturb) :
    finishCut left s = storedAt left store s.flash := by
  unfold finishCut
  rw [h]
  rfl

theorem exec_startUpLoadDone {s : State} (h : s.phase = .starting) (left read : Disturb) :
    exec (.startUpLoadDone left read) s = .next (finish (startLine { loadTables
      (readStore (disturb read ((finishCut left s).readRun 0 storeBytes))) { s with flash := finishCut left s, cut := none }
        with phase := .running })) := by
  show execStartUpLoadDone left read s = _
  unfold execStartUpLoadDone
  rw [h]

theorem settleOutputs_same (s : State) : (settleOutputs s).bc = s.bc ∧ (settleOutputs s).seg = s.seg := ⟨rfl, rfl⟩

theorem install_slot (t : Tables) (s : State) (k : SlotId) : (install t s).slots[k] = bootSlot t k := by
  show (⟨⟨slotIds.map (bootSlot t)⟩, by simp [slotIds]⟩ : Vector SlotStatus 32)[k] = _
  simp [slotIds]


/-- The settings code of the settle timer and its duration. -/
theorem settleMs_table {c ms : Nat} (h : (c, ms) ∈ [(0, 50), (1, 100), (2, 200), (3, 400), (4, 800)]) : settleMs c = ms := by
  fin_cases h <;> rfl

/-- The load with nothing left to finish. -/
def loadedFrom (stored : Option Tables) (s : State) : State :=
  settleOutputs (startLine { loadTables stored s with phase := .running })

theorem exec_load {s : State} (hp : s.phase = .starting) (hc : s.cut = none) (hs : s.seg.port = .silent) (left read : Disturb) :
    exec (.startUpLoadDone left read) s =
      .next (loadedFrom (readStore (disturb read (s.flash.readRun 0 storeBytes))) s) := by
  have hf : finishCut left s = s.flash := by
    unfold finishCut
    rw [hc]
  have hk : ({ s with flash := s.flash, cut := none } : State) = s := by rw [← hc]
  rw [exec_startUpLoadDone hp, hf, hk]
  generalize readStore (disturb read (s.flash.readRun 0 storeBytes)) = stored
  refine congrArg Host.Outcome.next (finish_busy ?_)
  have hseg : (startLine { loadTables stored s with phase := .running }).seg.port = s.seg.port := by
    cases stored <;> rfl
  rw [hseg, hs]
  decide

theorem loadedFrom_rest (stored : Option Tables) (s : State) : (loadedFrom stored s).ctx = s.ctx ∧ (loadedFrom stored s).flash = s.flash ∧
    (loadedFrom stored s).queues = s.queues ∧ (loadedFrom stored s).pool = s.pool ∧ (loadedFrom stored s).ports = s.ports ∧
    (loadedFrom stored s).ma = s.ma ∧ (loadedFrom stored s).bc = s.bc ∧ (loadedFrom stored s).seg = s.seg ∧
    (loadedFrom stored s).catSt = s.catSt ∧ (loadedFrom stored s).reader = s.reader := by
  cases stored <;> exact ⟨rfl, rfl, rfl, rfl, rfl, rfl, rfl, rfl, rfl, rfl⟩

theorem loadedFrom_tables (stored : Option Tables) (s : State) : (loadedFrom stored s).tables = stored.getD .factory := by
  cases stored <;> rfl

theorem loadedFrom_attention (stored : Option Tables) (s : State) : (loadedFrom stored s).au.list =
    if stored.isSome then s.au.list else (s.au.report .configBad .none none).list := by
  cases stored <;> rfl

theorem loadedFrom_slot (stored : Option Tables) (s : State) (k : SlotId) :
    (loadedFrom stored s).slots[k] = bootSlot (loadedFrom stored s).tables k := by
  cases stored with
  | none => exact install_slot .factory s k
  | some t => exact install_slot t s k

theorem loadedFrom_line (stored : Option Tables) (s : State) : (loadedFrom stored s).lm.line = (if s.lineHigh then .settle else .gap) ∧
    (loadedFrom stored s).lm.settle =
      if s.lineHigh then some (settleMs (loadedFrom stored s).tables.settings.settleCode) else none := by
  have hl : (loadedFrom stored s).lineHigh = s.lineHigh := by cases stored <;> rfl
  have hx : (loadedFrom stored s).lm.line = (if (loadedFrom stored s).lineHigh then .settle else .gap) ∧
      (loadedFrom stored s).lm.settle = if (loadedFrom stored s).lineHigh then
        some (settleMs (loadedFrom stored s).tables.settings.settleCode) else none := by
    unfold loadedFrom
    generalize ({ loadTables stored s with phase := .running } : State) = t
    show (startLine t).lm.line = (if t.lineHigh then .settle else .gap) ∧
      (startLine t).lm.settle = if t.lineHigh then some (settleMs t.tables.settings.settleCode) else none
    cases hh : t.lineHigh <;> simp [startLine, updLm, hh]
  rwa [hl] at hx

/-- The device's finishing of the operation that the reset cut. -/
theorem exec_load_cut {s : State} (hp : s.phase = .starting) (left read : Disturb) : exec (.startUpLoadDone left read) s =
    exec (.startUpLoadDone [] read) { s with flash := finishCut left s, cut := none } := by
  rw [exec_startUpLoadDone hp, exec_startUpLoadDone (s := { s with flash := finishCut left s, cut := none }) hp]
  rfl

/-- Settles O8: the load by what sector 0 gives, and the finishing of a cut operation by its bytes. -/
theorem startUpLoad : Obligations.StartUpLoad := by
  unfold Obligations.StartUpLoad
  refine ⟨fun left read s stored hp hc hs hst => ?load, fun left read s x hp hc hw => ?cut⟩
  case load =>
    obtain ⟨hline, hsettle⟩ := loadedFrom_line stored s
    refine ⟨loadedFrom stored s, ?_, by cases stored <;> rfl, loadedFrom_tables stored s, loadedFrom_attention stored s, fun k hk => ?_,
      fun k hk => ?_, fun h => ?_, fun h => ?_, loadedFrom_rest stored s⟩
    · rw [exec_load hp hc hs, hst]
      rfl
    · rw [loadedFrom_slot]
      exact if_neg (by rw [hk]; exact Bool.false_ne_true)
    · rw [loadedFrom_slot]
      exact if_pos hk
    · rw [hline, hsettle, h]
      exact ⟨rfl, rfl⟩
    · rw [hline, hsettle, h]
      refine ⟨rfl, fun c ms hm hcode => ?_⟩
      rw [hcode]
      exact congrArg some (settleMs_table hm)
  case cut =>
    refine ⟨finishCut left s, finishCut_wf hw left, exec_load_cut hp left read, fun k hx => ?_, fun r d hx hd => ?_, fun store hx hl => ?_⟩
    · rw [finishCut_erase (hc.trans (congrArg some hx))]
      exact ⟨fun a ha => erasedAt_outside hw left k ha, fun j hj => erasedAt_inside hw left k hj⟩
    · have hrun := allErased_run [] s.flash (recordAddr r) recordBytes
      rw [disturb_nil] at hrun
      have hzero : ∀ x : Byte, x ^^^ 0 = x := fun x => BitVec.xor_zero
      simp only [List.getD_nil, hzero] at hrun
      rw [finishCut_program (hc.trans (congrArg some hx))]
      refine ⟨fun hb => if_neg fun he => ?_, fun hb => ?_⟩
      · obtain ⟨j, hj, hne⟩ := hb
        exact hne (hrun.1 he j hj)
      · rw [if_pos (hrun.2 hb)]
        exact ⟨fun a ha => programmedAt_outside hw left r hd ha, fun j hj => programmedAt_inside hw left r hd hj⟩
    · rw [finishCut_commit (hc.trans (congrArg some hx))]
      exact ⟨fun a ha => storedAt_outside hw left hl ha, fun j hj => storedAt_inside hw left hl hj⟩

end Sys2Proof.Machine
end

section
/-! PROOFS. SELF-CHECK (O38). -/

namespace Sys2Proof.Machine

open Sys2Proof.Safety

/-! ## The CRC-32 -/

theorem crc32Step_append (r : Word32) (xs ys : List Byte) : crc32Step r (xs ++ ys) = crc32Step (crc32Step r xs) ys := by
  induction xs generalizing r with
  | nil => rfl
  | cons x xs ih => exact ih _

/-- One bit of the CRC-32. -/
def crc32Bit (r : Word32) : Word32 := if r.getLsbD 0 then (r >>> 1) ^^^ 0xEDB88320 else r >>> 1

theorem crc32Shift_foldl (n : Nat) (r : Word32) : crc32Shift r n = (List.range n).foldl (fun r _ => crc32Bit r) r := by
  have hi : ∀ (n : Nat) (r : Word32), crc32Shift r n = crc32Bit^[n] r := fun n => by
    induction n with
    | zero => exact fun r => rfl
    | succ n ih => exact fun r => ih _
  have hl : ∀ (l : List Nat) (r : Word32), l.foldl (fun r _ => crc32Bit r) r = crc32Bit^[l.length] r := fun l => by
    induction l with
    | nil => exact fun r => rfl
    | cons x l ih => exact fun r => ih _
  rw [hi, hl, List.length_range]

/-! ## One check after another -/

theorem setJob_eq {s : State} {o : Origin} {j : LongJob} (h : s.ma.long = some ⟨o, j⟩) (k : LongJob) :
    setJob k s = { s with ma := { s.ma with long := some ⟨o, k⟩ } } := by
  exact congrArg (fun l : Option LongOp =>
    ({ s with ma := { s.ma with long := l.map (fun l => ⟨l.origin, k⟩) } } : State)) h

theorem SelfCheck.image_of {c : SelfCheck} {i : ImageId} (h : c.check = 3 + i.val) : c.image = i := by
  unfold SelfCheck.image
  rw [h, Nat.add_sub_cancel_left]
  exact Fin.ext (Nat.mod_eq_of_lt i.2)

theorem SelfCheck.left_of {c : SelfCheck} {i : ImageId} (h : c.check = 3 + i.val) : c.left = 16 - i.val := by
  unfold SelfCheck.left
  rw [h]
  omega

theorem supply_inside {e : CatEntry} {b : Nat} (h : e.supply b ≠ .outside) : b < e.length := by
  unfold CatEntry.supply at h
  by_contra hx
  rw [if_pos (by omega)] at h
  exact h rfl

theorem skipFills_record {e : CatEntry} {c : SelfCheck} {r : Nat} (h : e.supply c.pos = .record r) (n : Nat) : skipFills e n c = c := by
  cases n with
  | zero => rfl
  | succ n => exact if_neg (by rw [h]; exact fun hx => by cases hx)

theorem skipFills_fill {e : CatEntry} {c : SelfCheck} (h : e.supply c.pos = .fill) (n : Nat) :
    skipFills e (n + 1) c = skipFills e n { c with pos := c.pos + 1, crc := crc32Step c.crc (List.replicate 128 0) } := if_pos h

section
variable {s : State} {c : SelfCheck} {i : ImageId} {n : Nat} {e : CatEntry} (hc : c.check = 3 + i.val) (he : s.tables.cat[i] = e)
include hc he

theorem runChecks_step : runChecks (n + 1) c s =
    if e.valid then
      let d := skipFills e (e.length - c.pos) c
      if d.pos < e.length then setJob (.selfCheck d) s
      else if ~~~d.crc = e.check then runChecks n d.next s
      else runChecks n d.fail.next (mismatch d.image s)
    else runChecks n c.next s := by
  have hi : s.tables.cat[c.image] = e := by
    simp only [SelfCheck.image_of hc]
    exact he
  rw [runChecks]
  simp only [hi]

theorem runChecks_invalid (hv : e.valid = false) : runChecks (n + 1) c s = runChecks n c.next s := by
  rw [runChecks_step hc he, hv]
  rfl

theorem runChecks_reads {r : Nat} (hv : e.valid = true) (hr : e.supply c.pos = .record r) :
    runChecks (n + 1) c s = setJob (.selfCheck c) s := by
  rw [runChecks_step hc he, if_pos hv]
  simp only [skipFills_record hr]
  exact if_pos (supply_inside (by rw [hr]; exact fun hx => by cases hx))

theorem runChecks_fill (hv : e.valid = true) (hf : e.supply c.pos = .fill) : runChecks (n + 1) c s =
    runChecks (n + 1) { c with pos := c.pos + 1, crc := crc32Step c.crc (List.replicate 128 0) } s := by
  have hl : c.pos < e.length := supply_inside (by rw [hf]; exact fun hx => by cases hx)
  obtain ⟨m, hm⟩ : ∃ m, e.length - c.pos = m + 1 := ⟨e.length - c.pos - 1, by omega⟩
  have hm' : e.length - (c.pos + 1) = m := by omega
  rw [runChecks_step hc he, runChecks_step (c := { c with pos := c.pos + 1, crc := crc32Step c.crc (List.replicate 128 0) }) hc he, hm,
    skipFills_fill hf, hm', if_pos hv, if_pos hv]

theorem runChecks_ends (hv : e.valid = true) (hl : e.length ≤ c.pos) : runChecks (n + 1) c s =
    if ~~~c.crc = e.check then runChecks n c.next s else runChecks n c.fail.next (mismatch i s) := by
  have h0 : e.length - c.pos = 0 := by omega
  rw [runChecks_step hc he, if_pos hv, h0]
  refine (if_neg (by exact Nat.not_lt.2 hl)).trans ?_
  show (if ~~~c.crc = e.check then _ else runChecks n c.fail.next (mismatch c.image s)) = _
  rw [SelfCheck.image_of hc]
  rfl

end

/-! ## A scan read -/

theorem exec_scanReadEnd {s : State} {o : Origin} {c : SelfCheck} (h : s.reader = .scan true) (hl : s.ma.long = some ⟨o, .selfCheck c⟩)
    (read : Disturb) : exec (.scanReadEnd read) s = .next (finish (scanned read c (idleReader s))) := by
  show execScanReadEnd read s = _
  unfold execScanReadEnd
  rw [h]
  show Host.Outcome.next (finish (match true, s.ma.long with
      | true, some ⟨_, .selfCheck c⟩ => scanned read c (idleReader s)
      | _, _ => idleReader s)) = _
  rw [hl]

theorem exec_scanReadEnd_dropped {s : State} (h : s.reader = .scan false) (read : Disturb) :
    exec (.scanReadEnd read) s = .next (finish { s with reader := .idle }) := by
  show execScanReadEnd read s = _
  unfold execScanReadEnd
  rw [h]
  rfl

theorem scanned_identity {c : SelfCheck} (h : c.check = 1) (read : Disturb) (s : State) : scanned read c s = scanIdentity read c s := by
  unfold scanned
  rw [h]
  rfl

theorem scanned_store {c : SelfCheck} (h : c.check = 2) (read : Disturb) (s : State) : scanned read c s = scanStore read c s := by
  unfold scanned
  rw [h]
  rfl

theorem scanned_block {c : SelfCheck} {i : ImageId} (h : c.check = 3 + i.val) (read : Disturb) (s : State) :
    scanned read c s = scanBlock read c s := by
  unfold scanned
  split
  case h_1 hx => omega
  case h_2 hx => omega
  case h_3 => rfl

theorem endSelfCheck_eq {s : State} {o : Origin} {j : LongJob} (h : s.ma.long = some ⟨o, j⟩) (c : SelfCheck) : endSelfCheck c s =
    finalReply o .ok [BitVec.ofNat 8 (c.lowest.getD 0)] false { s with ma := { s.ma with long := none } } := endLong_eq h _ _

theorem scanStore_eq (read : Disturb) {c : SelfCheck} {s : State} {n : Nat} {data : List Byte} {crc : Word32} {ok : Bool}
    (hn : n = min 130 (2117 - c.pos)) (hd : data = disturb read (s.flash.readRun c.pos n))
    (hcrc : crc = crc32Step c.crc (data.take (2113 - c.pos)))
    (hok : ok = (if c.pos = 0 then decide (rd32 data 0 = 0x43524232) else c.idOk)) : scanStore read c s =
      if c.pos + n < 2117 then setJob (.selfCheck { c with pos := c.pos + n, crc := crc, idOk := ok }) s
      else runChecks (c.left - 1) (if ok && decide (rd32 data (2113 - c.pos) = ~~~crc) then c.next else c.fail.next) s := by
  subst hok hcrc hd hn
  rfl

theorem dropScan_eq (s : State) : ∃ x, dropScan s = { s with reader := x } ∧ (∀ l, s.reader = .scan l → x = .scan false) ∧
    ((∀ l, s.reader ≠ .scan l) → x = s.reader) := by
  unfold dropScan
  split
  case h_1 l hl => exact ⟨.scan false, rfl, fun _ _ => rfl, fun h => absurd hl (h l)⟩
  all_goals
    rename_i hr
    exact ⟨s.reader, rfl, fun l hx => Reader.noConfusion (hr.symm.trans hx), fun _ => rfl⟩

/-- Settles O38: each read by the check that runs, each image check by its position. -/
theorem scanIdentityJudged : Obligations.ScanIdentity := by
  unfold Obligations.ScanIdentity
  refine ⟨fun s o c hr hl hc hlow => ⟨?identity, fun d ds hd => ?wrong⟩,
    fun s o c read n data crc ok hr hl hc hn hd hcrc hok => ⟨fun h => ?more, fun h => ?stored⟩, fun s o c i read r hr hl hc hs => ?block,
    fun s c i n e hc he => ⟨fun hv => runChecks_invalid hc he hv, fun r o j hv hs hl => ?reads, fun hv hf => runChecks_fill hc he hv hf,
      fun hv hl hx => ?passes, fun hv hl hx => ?fails⟩,
    fun s o c j hl => endSelfCheck_eq hl c, fun s read hr => exec_scanReadEnd_dropped hr read,
    fun s o c i hl => ⟨fun hc => ?other, fun hc => ?restart, fun r bs b => ⟨rfl, ?crc⟩⟩⟩
  case identity =>
    rw [exec_scanReadEnd hr hl, scanned_identity hc]
    unfold scanIdentity
    rw [disturb_nil, if_pos rfl, setJob_eq (s := idleReader s) hl]
    unfold SelfCheck.next
    rw [hc, hlow]
    rfl
  case wrong =>
    have hne : disturb (d :: ds) [Config.capacityCode] ≠ [Config.capacityCode] := by
      simp only [disturb]
      intro hx
      have hz : Config.capacityCode ^^^ d = Config.capacityCode ^^^ 0 := by simpa using hx
      exact hd ((BitVec.xor_right_inj Config.capacityCode).1 hz)
    rw [exec_scanReadEnd hr hl, scanned_identity hc]
    unfold scanIdentity
    rw [if_neg hne, endSelfCheck_eq (s := idleReader s) hl]
    unfold SelfCheck.fail
    rw [hc, hlow]
    rfl
  case more =>
    rw [exec_scanReadEnd hr hl, scanned_store hc, scanStore_eq read (s := idleReader s) hn hd hcrc hok, if_pos h,
      setJob_eq (s := idleReader s) hl, hc]
    rfl
  case stored =>
    have hleft : c.left - 1 = 16 := by
      unfold SelfCheck.left
      omega
    rw [exec_scanReadEnd hr hl, scanned_store hc, scanStore_eq read (s := idleReader s) hn hd hcrc hok, if_neg (by omega), hleft]
    unfold SelfCheck.fail SelfCheck.next
    by_cases hx : ok = true ∧ rd32 data (2113 - c.pos) = ~~~crc
    · rw [if_pos (by simpa using hx), if_pos hx, hc]
      rfl
    · rw [if_neg (by simpa using hx), if_neg hx, hc]
      rfl
  case block =>
    rw [exec_scanReadEnd hr hl, scanned_block hc]
    unfold scanBlock recordOf
    rw [SelfCheck.image_of hc, SelfCheck.left_of hc]
    show Host.Outcome.next (finish (runChecks _ { c with
      pos := c.pos + 1
      crc := crc32Step c.crc ((disturb read (s.flash.readRun (recordAddr (match s.tables.cat[i].supply c.pos with
        | .record r => r
        | .outside | .fill => 0)) recordBytes)).take 128) } (idleReader s))) = _
    rw [hs]
    rfl
  case reads => rw [runChecks_reads hc he hv hs, setJob_eq hl]
  case passes =>
    rw [runChecks_ends hc he hv hl, if_pos hx]
    rfl
  case fails =>
    rw [runChecks_ends hc he hv hl, if_neg hx]
    unfold mismatch
    simp only [hasFills_iff]
    rfl
  case other =>
    unfold restartCheck
    rw [hl]
    exact if_neg hc
  case restart =>
    obtain ⟨x, hx, h1, h2⟩ := dropScan_eq s
    refine ⟨x, ?_, h1, h2⟩
    unfold restartCheck
    rw [hl]
    refine (if_pos hc).trans ?_
    rw [SelfCheck.left_of hc, hx]
    rfl
  case crc =>
    rw [crc32Step_append]
    refine Eq.trans (b := crc32Shift (crc32Step r bs ^^^ b.setWidth 32) 8) rfl ?_
    rw [crc32Shift_foldl]
    rfl

end Sys2Proof.Machine
end

section
/-! PROOFS. What the idle reader starts (O33). -/

namespace Sys2Proof.Machine

open Sys2Proof.Safety

/-! ## The entry, its line and its record -/

theorem nextFill_best {e : FillEntry} {younger : List FillEntry} (hy : ∀ f ∈ younger, e.rank ≤ f.rank) :
    ∀ {older : List FillEntry}, (∀ f ∈ older, e.rank < f.rank) → nextFill (older ++ e :: younger) = some e
  | [], _ => by
    rw [List.nil_append, nextFill]
    split
    case h_1 f hf => exact if_neg (Nat.not_lt.2 (hy f (nextFill_mem hf)))
    case h_2 => rfl
  | f :: older, ho => by
    rw [List.cons_append, nextFill, nextFill_best hy fun g hg => ho g (List.mem_cons_of_mem f hg)]
    exact if_pos (ho f List.mem_cons_self)

/-- The first index that passes a test. -/
theorem find_finRange {n : Nat} {p : Fin n → Bool} {i : Fin n} (hi : p i = true) (hlt : ∀ j, j < i → p j = false) :
    (List.finRange n).find? p = some i := by
  refine List.find?_eq_some_iff_getElem.2 ⟨hi, i.val, by rw [List.length_finRange]; exact i.2, ?_, fun j hj => ?_⟩
  · rw [List.getElem_finRange]
    rfl
  · rw [List.getElem_finRange, Bool.not_eq_true']
    exact hlt _ hj

theorem mayFill_iff {avoid : Option LineId} {m : LineId} {s : State} :
    (s.bc.lines[m].isValid && !s.bc.lines[m].isPinned && decide (avoid ≠ some m)) = true ↔
      (∃ i b d, s.bc.lines[m] = .valid i b false d) ∧ avoid ≠ some m := by
  rw [Bool.and_eq_true, decide_eq_true_eq]
  refine and_congr_left fun _ => ?_
  generalize s.bc.lines[m] = x
  cases x with
  | valid i b p d => cases p <;> simp [Line.isValid, Line.isPinned]
  | empty => simp [Line.isValid]
  | filling i b x => simp [Line.isValid]

theorem victim_empty {avoid : Option LineId} {l : LineId} {s : State} (he : s.bc.lines[l] = .empty) (ha : avoid ≠ some l)
    (hlow : ∀ m : LineId, m < l → s.bc.lines[m] ≠ .empty ∨ avoid = some m) : victim avoid s = some l := by
  unfold victim
  rw [find_finRange (i := l)]
  · rw [Bool.and_eq_true, decide_eq_true_eq, decide_eq_true_eq]
    exact ⟨he, ha⟩
  · intro m hm
    rw [← Bool.not_eq_true, Bool.and_eq_true, decide_eq_true_eq, decide_eq_true_eq]
    rintro ⟨h1, h2⟩
    exact (hlow m hm).elim (· h1) h2

theorem victim_valid {avoid : Option LineId} {l : LineId} {s : State} (hv : ∃ i b d, s.bc.lines[l] = .valid i b false d)
    (ha : avoid ≠ some l) (hno : ∀ m : LineId, s.bc.lines[m] ≠ .empty ∨ avoid = some m) {before after : List LineId}
    (hr : s.bc.recency = before ++ l :: after) (hb : ∀ m ∈ before, (∀ i b d, s.bc.lines[m] ≠ .valid i b false d) ∨ avoid = some m) :
    victim avoid s = some l := by
  have hnone : (List.finRange 96).find? (fun m => decide (s.bc.lines[m] = .empty) && decide (avoid ≠ some m)) = none := by
    rw [List.find?_eq_none]
    intro m _
    rw [Bool.and_eq_true, decide_eq_true_eq, decide_eq_true_eq]
    rintro ⟨h1, h2⟩
    exact (hno m).elim (· h1) h2
  unfold victim
  rw [hnone, hr]
  refine List.find?_eq_some_iff_append.2 ⟨mayFill_iff.2 ⟨hv, ha⟩, before, after, rfl, fun m hm => ?_⟩
  rw [Bool.not_eq_true', ← Bool.not_eq_true, mayFill_iff]
  rintro ⟨⟨i, b, d, hx⟩, h2⟩
  exact (hb m hm).elim (fun h => h i b d hx) h2

/-! ## The windows of a catalogue entry -/

theorem windowCovers_iff {b : Nat} {w : Window} : w.covers b = true ↔ w.enable = true ∧ w.first ≤ b ∧ b ≤ w.last := by
  unfold Window.covers
  rw [Bool.and_eq_true, Bool.and_eq_true, decide_eq_true_eq, decide_eq_true_eq, and_assoc]

theorem windowCovers_false {b : Nat} {w : Window} (h : w.enable = true → b < w.first ∨ w.last < b) : w.covers b = false := by
  rw [← Bool.not_eq_true, windowCovers_iff]
  rintro ⟨he, h1, h2⟩
  have := h he
  omega

theorem supply_fill {e : CatEntry} {b : Nat} (hb : b < e.length)
    (h : ∀ j : Fin 4, (e.windows[j]).enable = true → b < (e.windows[j]).first ∨ (e.windows[j]).last < b) : e.supply b = .fill := by
  have hn : e.windows.toList.find? (Window.covers b) = none := by
    rw [toList_eq_map, List.find?_map, Option.map_eq_none_iff, List.find?_eq_none]
    intro j _
    exact Bool.eq_false_iff.1 (windowCovers_false (h j))
  unfold CatEntry.supply
  rw [if_neg (by omega), hn]

theorem supply_record {e : CatEntry} {b : Nat} {j : Fin 4} (hb : b < e.length) (he : (e.windows[j]).enable = true)
    (h1 : (e.windows[j]).first ≤ b) (h2 : b ≤ (e.windows[j]).last)
    (hlow : ∀ m : Fin 4, m < j → (e.windows[m]).enable = true → b < (e.windows[m]).first ∨ (e.windows[m]).last < b) :
    e.supply b = .record ((e.windows[j]).base + (b - (e.windows[j]).first)) := by
  have hf : e.windows.toList.find? (Window.covers b) = some e.windows[j] := by
    rw [toList_eq_map, List.find?_map, find_finRange (p := Window.covers b ∘ fun i => e.windows[i]) (i := j)
      (windowCovers_iff.2 ⟨he, h1, h2⟩) fun m hm => windowCovers_false (hlow m hm)]
    rfl
  unfold CatEntry.supply
  rw [if_neg (by omega), hf]

/-! ## The start -/

theorem exec_flashReaderStart {s : State} (h : s.reader = .idle) : exec .flashReaderStart s = .next (finish (startWork s)) := by
  show execFlashReaderStart s = _
  unfold execFlashReaderStart
  rw [h]

/-- The head of the waiting list takes the one place that is free. -/
theorem placeWaiting_enters {s : State} {o : Origin} {i : ImageId} {b : Nat} {bs : List Nat}
    (h : s.ma.long = some ⟨o, .pin i (b :: bs)⟩) (hr : s.bc.reservation ≠ 0) (hl : s.bc.fills.length = 15)
    (hn : needsRoom i b s = true) : placeWaiting s = { s with
      bc := { s.bc with fills := s.bc.fills ++ [⟨i, b, [], true, false, 8, markedLine i b s⟩] }
      ma := { s.ma with long := some ⟨o, .pin i bs⟩ } } := by
  by_cases hb : bs = []
  · subst hb
    obtain ⟨hv, hf, hq⟩ := needsRoom_iff.1 hn
    rw [placeWaiting_last h (by omega), request_new hv hf hq (by omega)]
    exact pinDone_running hr
  · exact placeWaiting_fills h hr hl hb hn

theorem markedLine_running {i : ImageId} {b : Nat} {s : State} {f : Fill} (h : s.reader = .fill f)
    (hl : s.bc.lines[f.line] ≠ .filling i b true) : markedLine i b s = none := by
  rw [Option.eq_none_iff_forall_ne_some]
  intro l hx
  obtain ⟨g, hg, rfl, hd⟩ := markedLine_iff.1 hx
  cases h.symm.trans hg
  exact hl hd

/-- Settles O33: the start by the entry and the line chosen, else by the operation that waits. -/
theorem readerStarts : Obligations.ReaderStarts := by
  unfold Obligations.ReaderStarts
  refine ⟨fun s older younger e l r hr hf ho hy ha hl hs t ht => ⟨?starts, fun hw => ?none, fun o i b bs hp hres hlen hv hfl hq => ?enters⟩,
    fun e b => ⟨fun h => if_pos h, supply_fill, fun j => supply_record⟩, fun s o hr hf => ?long⟩
  case starts =>
    have hvic : victim e.avoid s = some l := by
      rcases hl with ⟨he, hlow⟩ | ⟨hv, hno, before, after, hrec, hb⟩
      · exact victim_empty he ha hlow
      · exact victim_valid hv ha hno hrec hb
    have herase : s.bc.fills.erase e = older ++ younger := by
      rw [hf, List.erase_append_right _ fun hm => (ho e hm).false, List.erase_cons_head]
    have hrecord : recordOf e.img e.blk s = r := by
      unfold recordOf
      rw [hs]
    rw [exec_flashReaderStart hr]
    unfold startWork
    rw [show nextFill s.bc.fills = some e by rw [hf]; exact nextFill_best hy ho]
    simp only [hvic]
    unfold startFill
    rw [hrecord, ht, ← herase]
    rfl
  case none =>
    refine placeWaiting_idle fun o i b bs hx => ?_
    have hx' : s.ma.long = some ⟨o, .pin i (b :: bs)⟩ := by rw [← hx, ht]
    unfold pinWaiting at hw
    rw [hx'] at hw
    cases hw
  case enters =>
    have hlen' : (older ++ younger).length = 15 := by
      rw [hf] at hlen
      simp only [List.length_append, List.length_cons] at hlen ⊢
      omega
    have hm : markedLine i b t = none := by
      refine markedLine_running (f := ⟨l, e.img, e.blk, r, e.reqs, e.pin, e.pre, false, false⟩) (by rw [ht]) fun hx => ?_
      rw [ht] at hx
      have hx' := (set_same s.bc.lines l (.filling e.img e.blk false)).symm.trans hx
      cases hx'
    have hx := placeWaiting_enters (s := t) (o := o) (i := i) (b := b) (bs := bs) (by rw [ht]; exact hp) (by rw [ht]; exact hres)
      (by rw [ht]; exact hlen') (needsRoom_iff.2 ⟨hv, hfl, hq⟩)
    rwa [hm] at hx
  case long =>
    have hx : exec .flashReaderStart s = .next (finish (startLong s)) := by
      rw [exec_flashReaderStart hr]
      unfold startWork
      rw [hf]
      rfl
    refine ⟨fun h => ?_, fun k a h => ?_, fun r d a h => ?_, fun c h => ?_⟩
    all_goals
      rw [hx]
      simp only [startLong, h, setJob_eq h]

end Sys2Proof.Machine
end

section
/-! PROOFS. The end of a fill's read (O34). -/

namespace Sys2Proof.Machine

open Sys2Proof.Safety

theorem recordGood_iff {data check : List Byte} (h : data.length = 128) :
    recordGood (data ++ check) = true ↔ check = be16 (crc16 data).toNat := by
  unfold recordGood
  rw [List.drop_append_of_le_length h.ge, List.take_append_of_le_length h.ge, List.drop_of_length_le h.le, List.take_of_length_le h.le,
    List.nil_append, decide_eq_true_eq]

/-- The state in which the fill of `f` is over and its line empty. -/
def fillGone (f : Fill) (s : State) : State :=
  { s with
    reader := .idle
    bc := { s.bc with lines := s.bc.lines.set f.line .empty, recency := s.bc.recency.erase f.line } }

theorem fillEmpty_eq (f : Fill) (s : State) : fillEmpty f s = requestAll (fillGone f s) := rfl

theorem landing_unwanted {f : Fill} (hp : f.pin = false) (r : List LineId) :
    landing f r = if f.reqs = [] ∧ f.pre = false then f.line :: r.erase f.line else r.erase f.line ++ [f.line] := by
  unfold landing
  rw [hp]
  cases f.pre <;> cases f.reqs <;> rfl

theorem landing_pinned {f : Fill} (hp : f.pin = true) (r : List LineId) : landing f r = r.erase f.line ++ [f.line] := by
  unfold landing
  rw [hp]
  simp

/-- The line VALID with the data, before a pin. -/
def fillLanded (f : Fill) (data : List Byte) (s : State) : State :=
  { s with
    reader := .idle
    bc := { s.bc with lines := s.bc.lines.set f.line (.valid f.img f.blk false data), recency := landing f s.bc.recency } }

theorem fillValid_plain {f : Fill} (hp : f.pin = false) (data : List Byte) (s : State) :
    fillValid f data s = requestAll (fillLanded f data s) := by
  unfold fillValid
  rw [hp]
  rfl

theorem fillValid_pin {f : Fill} (hp : f.pin = true) (data : List Byte) (s : State) :
    fillValid f data s = requestAll (pinDone { s with
      reader := .idle
      bc := { s.bc with
        lines := s.bc.lines.set f.line (.valid f.img f.blk true data)
        recency := s.bc.recency.erase f.line ++ [f.line], reservation := s.bc.reservation - 1 } }) := by
  have hl : pinLine f.line (fillLanded f data s) = { s with
      reader := .idle
      bc := { s.bc with
        lines := s.bc.lines.set f.line (.valid f.img f.blk true data)
        recency := s.bc.recency.erase f.line ++ [f.line], reservation := s.bc.reservation - 1 } } := by
    have hx : (fillLanded f data s).bc.lines[f.line] = .valid f.img f.blk false data := set_same ..
    unfold pinLine
    rw [hx, ← landing_pinned hp]
    unfold spendPin setLine updBc fillLanded
    simp only [Vector.set_set]
  unfold fillValid
  rw [hp, ← hl]
  rfl

section
variable {s : State} {f : Fill} {bs : List Byte}

theorem judgeFill_discarded (h : s.bc.lines[f.line] = .filling f.img f.blk true) : judgeFill f bs s = fillEmpty f s := by
  unfold judgeFill isDiscarded
  rw [if_pos (decide_eq_true h)]

theorem judgeFill_kept (h : s.bc.lines[f.line] = .filling f.img f.blk false) : judgeFill f bs s =
    if recordGood bs then
      if s.catSt[f.img].bad then fillEmpty f s else fillValid f (bs.take 128) s
    else if f.orphan then leftoverFailed f s
    else if f.reread then fillBad f s
    else { s with reader := .fill { f with reread := true } } := by
  unfold judgeFill isDiscarded
  refine if_neg fun hx => ?_
  have hx' := h.symm.trans (of_decide_eq_true hx)
  cases hx'

theorem exec_fillReadEnd {read : Disturb} (h : s.reader = .fill f) (hb : bs = disturb read (s.flash.readRun (recordAddr f.record) 130)) :
    exec (.fillReadEnd read) s = .next (finish (judgeFill f bs s)) := by
  show execFillReadEnd read s = _
  unfold execFillReadEnd
  rw [h, hb]
  rfl

theorem leftoverFailed_plain (hp : f.pin = false) : leftoverFailed f s = requestAll (fillGone f s) := by
  unfold leftoverFailed returnPin
  rw [hp]
  rfl

theorem leftoverFailed_pin (hp : f.pin = true) {o : Origin} {i : ImageId} {w : List Nat} (hl : s.ma.long = some ⟨o, .pin i w⟩) :
    leftoverFailed f s = requestAll (placeWaiting { fillGone f s with ma := { s.ma with long := some ⟨o, .pin i
      (w.filter (fun b => decide (b < f.blk)) ++ f.blk :: w.filter (fun b => decide (f.blk < b)))⟩ } }) := by
  have hw : pinWaiting (fillGone f s) = w := by
    unfold pinWaiting
    rw [show (fillGone f s).ma.long = some ⟨o, .pin i w⟩ from hl]
  have hx := setWaiting_pin (s := fillGone f s) hl
    (w.filter (fun b => decide (b < f.blk)) ++ f.blk :: w.filter (fun b => decide (f.blk < b)))
  unfold leftoverFailed returnPin
  rw [hp]
  refine congrArg (fun t => requestAll (placeWaiting t)) ?_
  refine Eq.trans ?_ hx
  rw [← hw]
  rfl

end

/-- Settles O34: each outcome of the read by `judgeFill_kept` and `judgeFill_discarded`. -/
theorem fillReadEnds : Obligations.FillReadEnds := by
  unfold Obligations.FillReadEnds
  refine ⟨fun data check h => recordGood_iff h, fun s f read bs hr hb => ⟨fun hl hg hbad hp => ?valid, fun hl hg hre ho => ?again,
    fun hl => ?discarded, fun c hl hg hbad hp hc => ?pinned, fun t ht hl => ⟨fun hg hbad => ?marked, fun hg ho hre => ?bad,
      fun hg ho hp => ?left, fun o i w hg ho hp hlong => ?returned⟩⟩⟩
  case valid =>
    rw [exec_fillReadEnd hr hb, judgeFill_kept hl, if_pos hg, if_neg (by rw [hbad]; decide), fillValid_plain hp, ← landing_unwanted hp]
    rfl
  case again =>
    rw [exec_fillReadEnd hr hb, judgeFill_kept hl, hg, ho, hre]
    rfl
  case discarded =>
    rw [exec_fillReadEnd hr hb, judgeFill_discarded hl]
    rfl
  case pinned =>
    have hx : exec (.fillReadEnd read) s = .next (finish (requestAll (pinDone { s with reader := .idle, bc := c }))) := by
      rw [exec_fillReadEnd hr hb, judgeFill_kept hl, if_pos hg, if_neg (by rw [hbad]; decide), fillValid_pin hp, hc]
    refine ⟨fun h => ?_, fun o i w hlong hres => ?_⟩
    · rw [hx]
      unfold pinDone
      rw [if_neg]
      rintro ⟨hi, h0⟩
      rw [hc] at h0
      rcases h with hn | hn
      · rw [show pinImage { s with reader := .idle, bc := c } = none from hn] at hi
        cases hi
      · exact absurd h0 (by show s.bc.reservation - 1 ≠ 0; omega)
    · rw [hx, pinDone_spent (s := { s with reader := .idle, bc := c }) hlong (by rw [hc]; exact Nat.sub_eq_zero_of_le hres)]
  case marked =>
    rw [exec_fillReadEnd hr hb, judgeFill_kept hl, if_pos hg, if_pos hbad, fillEmpty_eq, ht]
    rfl
  case bad =>
    rw [exec_fillReadEnd hr hb, judgeFill_kept hl, hg, ho, hre, ht]
    rfl
  case left =>
    rw [exec_fillReadEnd hr hb, judgeFill_kept hl, hg, ho, ht]
    exact congrArg (fun u => Host.Outcome.next (finish u)) (leftoverFailed_plain hp)
  case returned =>
    rw [exec_fillReadEnd hr hb, judgeFill_kept hl, hg, ho, ht]
    exact congrArg (fun u => Host.Outcome.next (finish u)) (leftoverFailed_pin hp hlong)

end Sys2Proof.Machine
end

section
/-! PROOFS. The marking of an entry as BAD (O35). -/

namespace Sys2Proof.Machine

open Sys2Proof.Safety

/-! ## What the waiting list does while it takes room -/

/-- A property that pin requests and replies keep is kept where the waiting list takes room. -/
theorem placeWaiting_induct {P : State → Prop} {s : State} (hq : ∀ t j b, pinImage s = some j → P t → P (request .pin j b t))
    (hr : ∀ t t' : State, t'.noReply = t.noReply → P t → P t') (hs : P s) : P (placeWaiting s) := by
  have hw : ∀ (w : List Nat) t, P t → P (setWaiting w t) := by
    intro w t ht
    unfold setWaiting
    split
    · exact hr t _ rfl ht
    · exact ht
  have ht : ∀ (j : ImageId), pinImage s = some j → ∀ (bs : List Nat) t, P t → P (takeWaiting j bs t) := by
    intro j hj bs
    induction bs with
    | nil => exact fun t ht => hw [] t ht
    | cons b bs ih =>
      intro t ht
      unfold takeWaiting
      split
      · exact hw _ t ht
      · exact ih _ (hq t j b hj ht)
  unfold placeWaiting
  split
  case h_1 j hj =>
    split
    · exact hs
    · exact hr _ _ (pinDone_noReply _) (ht j hj _ s hs)
  case h_2 => exact hs

/-- The fill in flight may gain pin-on-complete. -/
def PinJoined (r r' : Reader) : Prop := r' = r ∨ ∃ f, r = .fill f ∧ r' = .fill { f with pin := true }

theorem PinJoined.trans {a b c : Reader} (h : PinJoined a b) (g : PinJoined b c) : PinJoined a c := by
  rcases h with rfl | ⟨f, rfl, rfl⟩
  · exact g
  · rcases g with rfl | ⟨f', hf, rfl⟩
    · exact .inr ⟨f, rfl, rfl⟩
    · cases hf
      exact .inr ⟨f, rfl, rfl⟩

theorem pinLine_reader (l : LineId) (s : State) : (pinLine l s).reader = s.reader ∧ (pinLine l s).bc.fills = s.bc.fills := by
  unfold pinLine
  split <;> exact ⟨rfl, rfl⟩

theorem updFill_join (s : State) : PinJoined s.reader (updFill (Fill.join .pin) s).reader := by
  unfold updFill
  split
  case h_1 f hf => exact .inr ⟨f, hf, rfl⟩
  all_goals exact .inl rfl

theorem request_pin_reader (i : ImageId) (b : Nat) (s : State) : PinJoined s.reader (request .pin i b s).reader := by
  unfold request
  split
  · exact .inl (pinLine_reader _ s).1
  · split
    · exact updFill_join s
    · split
      · exact .inl rfl
      · split <;> exact .inl rfl

/-- No queued entry is of index `i`. -/
def NoFills (i : ImageId) (s : State) : Prop := ∀ e ∈ s.bc.fills, e.img ≠ i

theorem request_pin_noFills {i j : ImageId} {s : State} (hj : j ≠ i) (h : NoFills i s) (b : Nat) : NoFills i (request .pin j b s) := by
  unfold request
  split
  · rw [if_pos rfl]
    unfold NoFills
    rw [(pinLine_reader _ s).2]
    exact h
  · split
    · unfold NoFills
      rw [updFill_bc]
      exact h
    · split
      · intro e he
        obtain ⟨x, hx, rfl⟩ := List.mem_map.1 he
        split
        · exact h x hx
        · exact h x hx
      · split
        · exact h
        · intro e he
          rcases List.mem_append.1 he with hm | hm
          · exact h e hm
          · rw [List.mem_singleton.1 hm]
            exact hj

theorem placeWaiting_reader (s : State) : PinJoined s.reader (placeWaiting s).reader := by
  refine placeWaiting_induct (P := fun t => PinJoined s.reader t.reader) (fun t j b _ h => h.trans (request_pin_reader j b t))
    (fun t t' h ht => ?_) (.inl rfl)
  obtain ⟨-, -, -, -, -, -, -, -, hr, -⟩ := of_noReply h
  rw [hr]
  exact ht

theorem placeWaiting_noFills {i : ImageId} {s : State} (hp : pinImage s ≠ some i) (h : NoFills i s) : NoFills i (placeWaiting s) := by
  refine placeWaiting_induct (P := NoFills i) (fun t j b hj ht => request_pin_noFills (fun e => hp (by rw [hj, e])) ht b) (fun t t' ht' ht => ?_) h
  obtain ⟨-, -, -, -, -, -, -, hb, -⟩ := of_noReply ht'
  unfold NoFills
  rw [hb]
  exact ht

/-! ## The fill in flight that is disowned -/

theorem disownFill_shape (i : ImageId) (s : State) : disownFill i s = { s with reader := (disownFill i s).reader } := by
  unfold disownFill updFill
  split <;> rfl

theorem disownFill_of {i : ImageId} {s : State} {f : Fill} (hr : s.reader = .fill f) (hi : f.img = i) :
    (disownFill i s).reader = .fill { f with reqs := [], pin := false } := by
  unfold disownFill updFill
  rw [hr]
  simp only [hi, if_true]

theorem disownFill_other {i : ImageId} {s : State} (h : ∀ f, s.reader = .fill f → f.img ≠ i) : (disownFill i s).reader = s.reader := by
  unfold disownFill updFill
  split
  case h_1 f hf =>
    rw [hf]
    exact congrArg Reader.fill (if_neg (h f hf))
  all_goals rfl

/-! ## The sessions that fail -/

theorem failSlot_session (k : SlotId) (c : Cause) (s : State) : (failSlot k c s).slots[k].session = none := by
  show (match classOf k (failBase k c s) with
    | some e => applyPolicy k c e (failBase k c s)
    | none => failBase k c s).slots[k].session = none
  split
  · rw [applyPolicy_slot, failBase_slot]
    unfold policySlot
    split
    · split <;> rfl
    all_goals rfl
  · rw [failBase_slot]

theorem failSlot_frame (k : SlotId) (c : Cause) (s : State) : (failSlot k c s).tables = s.tables ∧ (failSlot k c s).ctx = s.ctx ∧
    (failSlot k c s).queues.out = s.queues.out ∧ (failSlot k c s).catSt = (endSession k s).catSt ∧
    (failSlot k c s).bc = (endSession k s).bc := by
  obtain ⟨f1, -, -, -, -, -⟩ := endSession_frame k s
  obtain ⟨r1, -, r3, -, -⟩ := endSession_rest k s
  obtain ⟨-, -, n3, -, n5, n6, -⟩ := of_noLinks (flushHold_noLinks k (endSession k s))
  have hq : (flushHold k (endSession k s)).queues.out = s.queues.out := by rw [flushHold_queues, r3]
  rw [failSlot_only]
  exact ⟨n3.trans f1, n5.trans r1, hq, n6, (flushHold_cache k _).1⟩

theorem endSession_clear {i : ImageId} {s : State} (h : Clear i s) (k : SlotId) : Clear i (endSession k s) := by
  by_cases hs : s.slots[k].session.isSome = true
  · obtain ⟨hb, -, -⟩ := endSession_withdrawn hs
    refine ⟨fun e he => ?_, fun l => ?_⟩
    · rw [hb] at he
      obtain ⟨x, hx, rfl⟩ := List.mem_map.1 he
      exact h.1 x hx
    · rw [hb]
      exact h.2 l
  · have he : endSession k s = s := by
      unfold endSession
      rw [Option.not_isSome_iff_eq_none.1 hs]
    rwa [he]

/-- The slots of a list fail one after the other. -/
def failAll (c : Cause) (l : List SlotId) (s : State) : State := l.foldl (fun t k => failSlot k c t) s

theorem failAll_frame (c : Cause) (l : List SlotId) (s : State) :
    (failAll c l s).tables = s.tables ∧ (failAll c l s).ctx = s.ctx ∧ (failAll c l s).queues.out = s.queues.out := by
  have h := foldl_keeps (fun t : State => (t.tables, t.ctx, t.queues.out)) (fun t k => failSlot k c t)
    (fun t k => by obtain ⟨h1, h2, h3, -⟩ := failSlot_frame k c t; rw [h1, h2, h3]) l s
  simp only [Prod.mk.injEq] at h
  exact h

theorem failAll_clear {i : ImageId} (c : Cause) (l : List SlotId) : ∀ {s : State}, Clear i s → Clear i (failAll c l s) := by
  induction l with
  | nil => exact id
  | cons k l ih => exact fun h => ih ((endSession_clear h k).congr (failSlot_frame k c _).2.2.2.2)

theorem failAll_slots (c : Cause) : ∀ (l : List SlotId) (s : State), l.Nodup →
    (∀ k ∈ l, (failAll c l s).slots[k] = (failSlot k c s).slots[k]) ∧ ∀ k : SlotId, k ∉ l → (failAll c l s).slots[k] = s.slots[k]
  | [], s, _ => ⟨fun k hk => absurd hk List.not_mem_nil, fun k _ => rfl⟩
  | j :: l, s, hn => by
    obtain ⟨hj, hl⟩ := List.nodup_cons.1 hn
    obtain ⟨h1, h2⟩ := failAll_slots c l (failSlot j c s) hl
    refine ⟨fun k hk => ?_, fun k hk => ?_⟩
    · rcases List.mem_cons.1 hk with rfl | hk
      · exact h2 k hj
      · have hkj : k ≠ j := fun e => hj (e ▸ hk)
        exact (h1 k hk).trans (failSlot_same (failSlot_other hkj c s) (failSlot_frame j c s).1 c)
    · obtain ⟨hkj, hkl⟩ := not_or.1 fun h => hk (List.mem_cons.2 h)
      exact (h2 k hkl).trans (failSlot_other hkj c s)

/-- Each session on the image that fails leaves one user less. -/
theorem failAll_users {i : ImageId} (c : Cause) : ∀ (l : List SlotId) (s : State), l.Nodup →
    (∀ k ∈ l, s.slots[k].session.any (fun x => decide (x.img = i)) = true) →
    (∀ j : ImageId, j ≠ i → (failAll c l s).catSt[j] = s.catSt[j]) ∧
      (failAll c l s).catSt[i] = ⟨s.catSt[i].bad, s.catSt[i].users - l.length⟩
  | [], s, _, _ => ⟨fun j _ => rfl, rfl⟩
  | k :: l, s, hn, hi => by
    obtain ⟨hk, hl⟩ := List.nodup_cons.1 hn
    have hnext : ∀ j ∈ l, (failSlot k c s).slots[j].session.any (fun x => decide (x.img = i)) = true := fun j hj => by
      rw [failSlot_other (show j ≠ k from fun e => hk (e ▸ hj))]
      exact hi j (List.mem_cons_of_mem k hj)
    obtain ⟨h1, h2⟩ := failAll_users c l (failSlot k c s) hl hnext
    have hc : ∀ j : ImageId, (failSlot k c s).catSt[j] = (endSession k s).catSt[j] := fun j => by rw [(failSlot_frame k c s).2.2.2.1]
    have hki := hi k List.mem_cons_self
    refine ⟨fun j hj => ?_, ?_⟩
    · refine (h1 j hj).trans ((hc j).trans ((endSession_catSt k j s).trans ?_))
      have hno : ¬ s.slots[k].session.any (fun x => decide (x.img = j)) = true := by
        cases hs : s.slots[k].session with
        | none => simp
        | some x =>
          rw [hs] at hki
          have hx : x.img = i := of_decide_eq_true hki
          simp [hx, hj.symm]
      rw [if_neg hno]
      rfl
    · refine h2.trans ?_
      rw [hc, endSession_catSt, if_pos hki, List.length_cons]
      simp only [Nat.sub_sub, Nat.add_comm]

theorem freeOrder_short {α : Type} {n t : Nat} {xs : List α} (h : xs.length ≤ 1) : (freeOrder n t xs).2 = t := by
  cases n with
  | zero => rfl
  | succ n =>
    match xs, h with
    | [], _ => rfl
    | [x], _ => rfl

/-! ## The marking -/

/-- The entry BAD and its queued entries withdrawn. -/
def badBegun (i : ImageId) (s : State) : State :=
  { s with
    catSt := s.catSt.set i ⟨true, s.catSt[i].users⟩
    bc := { s.bc with fills := s.bc.fills.filter (fun e => decide (e.img ≠ i)) } }

/-- The same, and the waiting blocks of another image's PIN in the room. -/
def badPlaced (i : ImageId) (s : State) : State :=
  if hasFills i s && decide (pinImage s ≠ some i) then placeWaiting (badBegun i s) else badBegun i s

/-- The same, with the lines empty and the fill in flight disowned. -/
def badDropped (i : ImageId) (s : State) : State := disownFill i (dropLines i (badPlaced i s))

theorem markBad_eq (i : ImageId) (s : State) :
    markBad i s = raise .imageBad (.image i) none (failUsers i (endPinOn i (badDropped i s))) := rfl

theorem badPlaced_quiet (i : ImageId) (s : State) : (badPlaced i s).quiet = (badBegun i s).quiet := by
  unfold badPlaced
  split
  · exact placeWaiting_quiets _
  · rfl

theorem badDropped_quiet (i : ImageId) (s : State) : (badDropped i s).quiet = (badBegun i s).quiet := by
  refine Eq.trans (quiet_of_noCache ?_) (badPlaced_quiet i s)
  unfold badDropped
  rw [disownFill_noCache, dropLines_noCache]

theorem badDropped_clear (i : ImageId) (s : State) : Clear i (badDropped i s) := by
  have hf : NoFills i (badPlaced i s) := by
    have hb : NoFills i (badBegun i s) := fun e he => of_decide_eq_true (List.mem_filter.1 he).2
    unfold badPlaced
    split
    case isTrue h =>
      rw [Bool.and_eq_true, decide_eq_true_eq] at h
      exact placeWaiting_noFills h.2 hb
    case isFalse => exact hb
  refine Clear.updFill (s := dropLines i (badPlaced i s)) ⟨hf, fun l => ?_⟩ _
  have hl : (dropLines i (badPlaced i s)).bc.lines[l] =
      if (badPlaced i s).bc.lines[l].isOf i then .empty else (badPlaced i s).bc.lines[l] :=
    vmap_get (fun x : Line => if x.isOf i then Line.empty else x) _ l
  rw [hl]
  split
  case isTrue => rfl
  case isFalse h => exact Bool.eq_false_iff.2 h

theorem badPlaced_pinImage (i : ImageId) (s : State) : pinImage (badPlaced i s) = pinImage s ∨ pinImage (badPlaced i s) = none := by
  unfold badPlaced
  split
  · exact placeWaiting_pinImage (badBegun i s)
  · exact .inl rfl

theorem badPlaced_reader (i : ImageId) (s : State) : PinJoined s.reader (badPlaced i s).reader := by
  unfold badPlaced
  split
  · exact placeWaiting_reader (badBegun i s)
  · exact .inl rfl

theorem badDropped_shape (i : ImageId) (s : State) : badDropped i s = { badPlaced i s with
    reader := (badDropped i s).reader
    bc := { (badPlaced i s).bc with
      lines := vmap (fun l => if l.isOf i then .empty else l) (badPlaced i s).bc.lines
      recency := (badPlaced i s).bc.recency.filter (fun l => !((badPlaced i s).bc.lines[l].isOf i)) } } :=
  disownFill_shape i (dropLines i (badPlaced i s))

theorem badDropped_disowned {i : ImageId} {s : State} {f : Fill} (hr : s.reader = .fill f) (hi : f.img = i) :
    (badDropped i s).reader = .fill { f with reqs := [], pin := false } := by
  rcases badPlaced_reader i s with h | ⟨g, hg, h⟩
  · exact disownFill_of (s := dropLines i (badPlaced i s)) (h.trans hr) hi
  · cases hr.symm.trans hg
    exact disownFill_of (s := dropLines i (badPlaced i s)) (f := { f with pin := true }) h hi

theorem badDropped_kept {i : ImageId} {s : State} (h : ∀ f, s.reader = .fill f → f.img ≠ i) :
    (badDropped i s).reader = (badPlaced i s).reader := by
  refine disownFill_other (s := dropLines i (badPlaced i s)) fun f hf => ?_
  have hf' : (badPlaced i s).reader = .fill f := hf
  rcases badPlaced_reader i s with hj | ⟨g, hg, hj⟩
  · exact h f (hj.symm.trans hf')
  · cases hj.symm.trans hf'
    exact h g hg

/-- Settles O35: the steps in their order, and the sessions that fail by `failAll`. -/
theorem badMarking : Obligations.BadMarking := by
  unfold Obligations.BadMarking
  intro s i
  obtain ⟨z, hz⟩ : ∃ z, z = endPinOn i (badDropped i s) := ⟨_, rfl⟩
  have hquiet : z.quiet = (badBegun i s).quiet := by rw [hz, endPinOn_quiets, badDropped_quiet]
  have zslots : z.slots = s.slots := congrArg (·.1) hquiet
  have zctx : z.ctx = s.ctx := congrArg (·.2.1) hquiet
  have zcat : z.catSt = s.catSt.set i ⟨true, s.catSt[i].users⟩ := congrArg (·.2.2.1) hquiet
  have zout : z.queues.out = s.queues.out := congrArg (·.2.2.2.1) hquiet
  have ztick : z.freeTick = s.freeTick := congrArg (·.2.2.2.2.2.2.2) hquiet
  have ztables : z.tables = s.tables := by
    obtain ⟨-, -, h, -⟩ := of_noEvent (show z.noEvent = s.noEvent from by
      rw [hz, endPinOn_noEvent]
      refine (event_of_cache (t := badDropped i s) (s := badPlaced i s) ?_).trans ?_
      · unfold badDropped
        rw [disownFill_noCache, dropLines_noCache]
      · unfold badPlaced
        split
        · exact (placeWaiting_noEvent _).trans rfl
        · rfl)
    exact h
  obtain ⟨-, -, etables, elm, eflash, -, eseg, -⟩ := of_noEvent (markBad_noEvent i s)
  have hclear := (endPinOn_clear (badDropped_clear i s)).1
  rw [← hz] at hclear
  have husers : usersOf i z = slotIds.filter (fun k => s.slots[k].session.any (fun q => decide (q.img = i))) := by
    unfold usersOf
    rw [zslots]
  obtain ⟨order, horder⟩ : ∃ l, l = (freeOrder (usersOf i z).length z.freeTick (usersOf i z)).1 := ⟨_, rfl⟩
  obtain ⟨n, hn⟩ : ∃ n, n = (freeOrder (usersOf i z).length z.freeTick (usersOf i z)).2 := ⟨_, rfl⟩
  have hperm : order.Perm (usersOf i z) := horder ▸ freeOrder_perm ..
  have hnodup : order.Nodup := hperm.nodup_iff.2 (husers ▸ nodup_filter_slotIds _)
  have hmem : ∀ k, k ∈ order ↔ s.slots[k].session.any (fun q => decide (q.img = i)) = true := fun k => by
    rw [hperm.mem_iff, husers, List.mem_filter]
    exact and_iff_right (mem_slotIds k)
  obtain ⟨u, hu⟩ : ∃ u, u = ({ z with freeTick := n } : State) := ⟨_, rfl⟩
  have uslots : u.slots = s.slots := by rw [hu, ← zslots]
  have utables : u.tables = s.tables := by rw [hu, ← ztables]
  have hbad : markBad i s = { failAll .imageBad order u with au := (failAll .imageBad order u).au.report .imageBad (.image i) none } := by
    rw [markBad_eq, ← hz, hu, horder, hn]
    rfl
  obtain ⟨fin, fout⟩ := failAll_slots .imageBad order u hnodup
  obtain ⟨ftables, fctx, fqueues⟩ := failAll_frame .imageBad order u
  obtain ⟨fcat, fusers⟩ := failAll_users (i := i) .imageBad order u hnodup fun k hk => by
    rw [uslots]
    exact (hmem k).1 hk
  have fclear : Clear i (failAll .imageBad order u) := failAll_clear .imageBad order (hclear.congr (by rw [hu]))
  have ucat : u.catSt[i] = ⟨true, s.catSt[i].users⟩ := by
    rw [hu]
    show z.catSt[i] = _
    rw [zcat, set_same]
  have hin : ∀ k ∈ order, (markBad i s).slots[k] = (failSlot k .imageBad s).slots[k] := fun k hk => by
    rw [hbad]
    exact (fin k hk).trans (failSlot_same (by rw [uslots]) utables .imageBad)
  have hout : ∀ k : SlotId, k ∉ order → (markBad i s).slots[k] = s.slots[k] := fun k hk => by
    rw [hbad]
    exact (fout k hk).trans (by rw [uslots])
  refine ⟨?bad, ?fills, ?lines, fun k x hx => ?sessions, ?attention, badBegun i s, badPlaced i s, badDropped i s, z,
    failAll .imageBad order u, order, n, rfl, fun hf hp => ?placed, fun h => ?notPlaced, badDropped_shape i s,
    fun f hr hi => badDropped_disowned hr hi, badDropped_kept, fun hp => ?noPin, fun p ws hl => ?pin, husers ▸ hperm, fun hl => ?tick,
    by rw [hu]; rfl, hbad, hin, hout, fun j hj => ?otherCat, ?users, etables, ?ctx, elm, eseg, eflash, ?out⟩
  case bad =>
    rw [hbad]
    show (failAll .imageBad order u).catSt[i].bad = true
    rw [fusers, ucat]
  case fills =>
    rw [hbad]
    exact fclear.1
  case lines =>
    rw [hbad]
    exact fclear.2
  case sessions =>
    by_cases hk : k ∈ order
    · rw [hin k hk, failSlot_session] at hx
      cases hx
    · rw [hout k hk] at hx
      intro hi
      refine hk ((hmem k).2 ?_)
      rw [hx]
      exact decide_eq_true hi
  case attention =>
    rw [hbad]
    exact report_there ..
  case placed => exact if_pos (by rw [hasFills_iff.2 hf, decide_eq_true hp]; rfl)
  case notPlaced =>
    refine if_neg ?_
    rw [Bool.and_eq_true, decide_eq_true_eq, hasFills_iff]
    rintro ⟨⟨e, he, hi⟩, hp⟩
    exact h.elim (fun h => h e he hi) hp
  case noPin =>
    rw [hz]
    refine endPinOn_other fun h => ?_
    have h' : pinImage (badPlaced i s) = some i := by
      rw [badDropped_shape] at h
      exact h
    rcases badPlaced_pinImage i s with hq | hq
    · exact hp (hq.symm.trans h')
    · cases hq.symm.trans h'
  case pin =>
    have hplaced : badPlaced i s = badBegun i s := if_neg (by
      rw [Bool.and_eq_true, decide_eq_true_eq]
      exact fun h => h.2 (pinImage_pin hl))
    have hma : (badDropped i s).ma = s.ma := by rw [badDropped_shape, hplaced]; rfl
    obtain ⟨r, he, hr, hr'⟩ := clearPinMarks_eq (badDropped i s)
    refine ⟨r, ?_, hr, hr'⟩
    rw [hz, endPinOn_of (p := p) (w := ws) (by rw [hma, hl]), he, hma]
  case tick =>
    rw [hn, ← ztick]
    exact freeOrder_short (hperm.length_eq ▸ hl)
  case otherCat =>
    rw [hbad]
    refine (fcat j hj).trans ?_
    rw [hu]
    show z.catSt[j] = _
    rw [zcat, set_other _ hj]
  case users =>
    rw [hbad]
    show (failAll .imageBad order u).catSt[i].users = _
    rw [fusers, ucat]
  case ctx =>
    rw [hbad]
    exact fctx.trans (by rw [hu]; exact zctx)
  case out =>
    rw [hbad]
    exact fqueues.trans (by rw [hu]; exact zout)

end Sys2Proof.Machine
end

section
/-! PROOFS. The confirmed gap (O18). -/

namespace Sys2Proof.Machine

open Sys2Proof.Safety

/-! ## REFUSE frames of several entries -/

theorem refusalsOf_perm (r : RefuseReason) {xs ys : List BufId} (h : xs.Perm ys) (s : State) :
    (refusalsOf r xs s).Perm (refusalsOf r ys s) := ((h.filterMap _).filter _).map _

theorem refusalsOf_sublist (r : RefuseReason) {xs ys : List BufId} (h : xs.Sublist ys) (s : State) :
    (refusalsOf r xs s).Sublist (refusalsOf r ys s) := ((h.filterMap _).filter _).map _

/-! ## The flush -/

/-- The order of the flushes at a gap. -/
def gapOrder (s : State) : List BufId :=
  (freeMerge ((s.queues.hold.toList ++ [outFlushed s]).map List.length).sum s.freeTick (s.queues.hold.toList ++ [outFlushed s])).1

theorem gapOrder_spec (s : State) : (gapOrder s).Perm (s.queues.hold.toList.flatten ++ outFlushed s) ∧
    (outFlushed s).Sublist (gapOrder s) ∧ ∀ k : SlotId, s.queues.hold[k].Sublist (gapOrder s) := by
  obtain ⟨h1, h2⟩ := freeMerge_spec _ s.freeTick (s.queues.hold.toList ++ [outFlushed s]) le_rfl
  rw [List.flatten_append, List.flatten_singleton] at h1
  refine ⟨h1, h2 _ (by simp), fun k => h2 _ (List.mem_append_left _ ?_)⟩
  exact Vector.mem_toList_iff.2 (Vector.getElem_mem k.2)

/-- The state in which the flushed entries are out of their queues. -/
def gapTaken (s : State) : State :=
  { s with
    freeTick := (freeMerge ((s.queues.hold.toList ++ [outFlushed s]).map List.length).sum s.freeTick
      (s.queues.hold.toList ++ [outFlushed s])).2
    queues := { s.queues with hold := Vector.replicate 32 [], out := outKept s } }

theorem flushGap_eq (s : State) : flushGap s = refuseAll .notReady (gapOrder s) (gapTaken s) := rfl

theorem flushGap_queues (s : State) : (flushGap s).queues.hold = Vector.replicate 32 [] ∧ (flushGap s).queues.out = outKept s ∧
    (flushGap s).queues.service = s.queues.service := refuseAll_queues .notReady (gapOrder s) (gapTaken s)

theorem flushGap_room {s : State} (hp : PoolLaw s) (hl : s.queues.trunk.length + (gapOrder s).length ≤ 48)
    (hf : (gapOrder s).length ≤ (freeBufs s).length) : (flushGap s).ports = s.ports ∧ (flushGap s).au = s.au ∧
      ∃ new : List TxEntry, (flushGap s).queues.trunk = s.queues.trunk ++ new ∧ (∀ e ∈ new, e.resets = false) ∧
        new.map (fun e => (flushGap s).pool[e.buf].frame) = (refusalsOf .notReady (gapOrder s) s).map some := by
  have hm := (freeMerge_spec _ s.freeTick (s.queues.hold.toList ++ [outFlushed s]) le_rfl).1
  have ho : Owes (gapOrder s ++ []) [] (gapTaken s) :=
    ((owes_nil.2 hp).taken fun b => LinkLaw.references_gap b s (gapOrder s) hm).congr rfl rfl
  obtain ⟨h1, h2, -, new, h4, h5, h6⟩ := refuseAll_room .notReady (gapOrder s) (gapTaken s) ho hl hf
  exact ⟨h1, h2, new, congrArg Queues.trunk h4, h5, h6⟩

/-! ## The gap -/

/-- The line monitor at a confirmed gap. -/
def gapLine (s : State) : State := updLm (fun l => { l with line := .gap, deglitch := none, gaps := satAdd 65535 l.gaps }) s

theorem confirmGap_eq (s : State) : confirmGap s = clearRequests (silence (flushGap (darkenAll (gapLine s)))) := rfl

/-- The segment when the turn under way is closed. -/
def Segment.closed (g : Segment) : Segment :=
  match g.port with
  | .sending _ | .receiving _ => { g with turn := g.turn.map (fun t => { t with closed := true }) }
  | .window | .free => g.left
  | .silent => g

theorem Segment.closed_sending {g : Segment} {x : SegTx} (h : g.port = .sending x) :
    g.closed = { g with turn := g.turn.map (fun t => { t with closed := true }) } := by
  unfold Segment.closed
  simp only [h]

theorem Segment.closed_receiving {g : Segment} {w : Bool} (h : g.port = .receiving w) :
    g.closed = { g with turn := g.turn.map (fun t => { t with closed := true }) } := by
  unfold Segment.closed
  simp only [h]

theorem Segment.closed_idle {g : Segment} (h : g.port = .free ∨ g.port = .window) : g.closed = g.left := by
  unfold Segment.closed
  rcases h with h | h <;> simp only [h]

theorem Segment.closed_silent {g : Segment} (h : g.port = .silent) : g.closed = g := by
  unfold Segment.closed
  simp only [h]

theorem closeTurn_seg (s : State) : closeTurn s = { s with seg := s.seg.closed } := by
  unfold closeTurn
  split
  case h_1 x h => rw [Segment.closed_sending h]; rfl
  case h_2 w h => rw [Segment.closed_receiving h]; rfl
  case h_3 h => rw [Segment.closed_idle (.inr h)]; rfl
  case h_4 h => rw [Segment.closed_idle (.inl h)]; rfl
  case h_5 h => rw [Segment.closed_silent h]

/-- The segment at a confirmed gap. -/
def Segment.gone (g : Segment) : Segment := Segment.closed { g with silent := true }

theorem gone_rest (g : Segment) : g.gone.silent = true ∧ g.gone.port ≠ .free ∧ g.gone.debt = g.debt ∧
    g.gone.ringCursor = g.ringCursor ∧ g.gone.urgentCursor = g.urgentCursor ∧ g.gone.lastTurn = g.lastTurn := by
  obtain ⟨port, silent, debt, ring, urgent, last, turn, timer⟩ := g
  cases port <;> exact ⟨rfl, fun h => (by cases h), rfl, rfl, rfl, rfl⟩

theorem gone_idle {g : Segment} (h : g.port = .free ∨ g.port = .window) : g.gone.port = .silent ∧ g.gone.turn = none := by
  unfold Segment.gone
  rw [Segment.closed_idle (g := { g with silent := true }) h]
  exact ⟨rfl, rfl⟩

theorem gone_sending {g : Segment} {x : SegTx} (h : g.port = .sending x) :
    g.gone.port = .sending x ∧ g.gone.turn = g.turn.map (fun u => { u with closed := true }) := by
  unfold Segment.gone
  rw [Segment.closed_sending (g := { g with silent := true }) h]
  exact ⟨h, rfl⟩

theorem gone_receiving {g : Segment} {w : Bool} (h : g.port = .receiving w) :
    g.gone.port = .receiving w ∧ g.gone.turn = g.turn.map (fun u => { u with closed := true }) := by
  unfold Segment.gone
  rw [Segment.closed_receiving (g := { g with silent := true }) h]
  exact ⟨h, rfl⟩

theorem silence_eq (s : State) : silence s = { s with seg := s.seg.gone } := closeTurn_seg _

/-- What a confirmed gap keeps but for the slots, the cache, the users, the queues and the segment. -/
theorem darkenAll_rest (s : State) : { darkenAll s with slots := s.slots, bc := s.bc, reader := s.reader, catSt := s.catSt } = s :=
  (darkenAll_dimmed s).rest

theorem exec_deglitchTimerExpiry {s : State} (h : s.lm.line = .dip) : exec .deglitchTimerExpiry s = .next (finish (confirmGap s)) := by
  show execDeglitchTimerExpiry s = _
  unfold execDeglitchTimerExpiry
  rw [h]

theorem settleOutputs_permit (s : State) (g : GroupId) : (settleOutputs s).lm.permits[g] = permitHolds g s := by
  show (⟨⟨(List.finRange 4).map (fun g => permitHolds g s)⟩, by simp⟩ : Vector Bool 4)[g] = _
  simp

/-- The state after a confirmed gap, from that after the flush. -/
theorem exec_gap {s : State} (h : s.lm.line = .dip) : exec .deglitchTimerExpiry s =
    .next (settleOutputs (clearRequests { flushGap (darkenAll (gapLine s)) with seg := s.seg.gone })) := by
  have hseg : (flushGap (darkenAll (gapLine s))).seg = s.seg := by
    obtain ⟨-, -, -, -, -, -, hg, -⟩ := of_noEvent ((flushGap_noEvent (darkenAll (gapLine s))).trans (darkenAll_noEvent (gapLine s)))
    exact hg
  have hgap : confirmGap s = clearRequests { flushGap (darkenAll (gapLine s)) with seg := s.seg.gone } := by
    rw [confirmGap_eq, silence_eq, hseg]
  rw [exec_deglitchTimerExpiry h, hgap]
  exact congrArg Host.Outcome.next (finish_busy (gone_rest s.seg).2.1)

/-- Settles O18: the slots by `Dimmed`, the flush by `flushGap_room`, the segment by `Segment.gone`. -/
theorem gapConfirmed : Obligations.GapConfirmed := by
  unfold Obligations.GapConfirmed
  intro s gone hline hgone
  have hd := darkenAll_dimmed (gapLine s)
  have hgoneIn : goneIn slotIds (gapLine s) = gone := by
    funext k
    have hk : slotIds.contains k = true := List.contains_iff_mem.2 (mem_slotIds k)
    rw [hgone]
    unfold goneIn
    rw [hk, Bool.true_and]
    rfl
  obtain ⟨d, hdef⟩ : ∃ d, d = darkenAll (gapLine s) := ⟨_, rfl⟩
  rw [← hdef] at hd
  obtain ⟨hslot, hcache, hfill, hreader, husers, hrest⟩ := hd
  have drest : d = { gapLine s with slots := d.slots, bc := d.bc, reader := d.reader, catSt := d.catSt } := by
    rw [← hrest]
  obtain ⟨f, hf⟩ : ∃ f, f = flushGap d := ⟨_, rfl⟩
  have dqueues : d.queues = s.queues := by rw [drest]; rfl
  have dpool : d.pool = s.pool := by rw [drest]; rfl
  have dseg : d.seg = s.seg := by rw [drest]; rfl
  have fnl : f.noLinks = (gapTaken d).noLinks := by rw [hf, flushGap_eq, refuseAll_noLinks]
  obtain ⟨n1, n2, n3, n4, n5, n6, n7, n8, n9, n10, n11, n12, n13, n14, n15⟩ := of_noLinks fnl
  have dkept : outFlushed d = (if s.seg.port = .sending .outbound then s.queues.out.drop 1 else s.queues.out) ∧
      outKept d = if s.seg.port = .sending .outbound then s.queues.out.take 1 else [] := by
    unfold outFlushed outKept
    rw [dseg, dqueues]
    exact ⟨rfl, rfl⟩
  obtain ⟨q1, q2, q3⟩ := flushGap_queues d
  rw [← hf] at q1 q2 q3
  refine ⟨settleOutputs (clearRequests { f with seg := s.seg.gone }), by rw [exec_gap hline, ← hdef, ← hf], ?_⟩
  obtain ⟨g1, -, g3, g4, g5, g6⟩ := gone_rest s.seg
  have flm : f.lm = (gapLine s).lm := n7.trans (by rw [show (gapTaken d).lm = d.lm from rfl, drest])
  have fcat : f.catSt = d.catSt := n6
  have fslots : f.slots = d.slots := n4
  have hdips := congrArg LineMon.dips flm
  have hsettle := congrArg LineMon.settle flm
  refine ⟨congrArg LineMon.line flm, congrArg LineMon.deglitch flm, congrArg LineMon.gaps flm, hdips, hsettle, fun g => ⟨?request, ?permit⟩, g1, gone_idle, fun x => gone_sending, fun w => gone_receiving, g3, g4, g5,
    g6, fun k => ?hold, q2.trans dkept.2, q3.trans (congrArg Queues.service dqueues), fun k hk => ?kept, fun k hv hfl => ?dark,
    ?cache, fun x hx => ?fill, fun hx => ?reader, fun i => ?users, ?tables, ?ctx, ?flash, ?ma, ?phase, ?high, ?cut, ?pending,
    fun out fl hout hfl hpool hlen hfree => ?room⟩
  case request =>
    show (Vector.replicate 4 false)[g] = false
    simp
  case permit =>
    rw [settleOutputs_permit, ← Bool.not_eq_true, permitHolds_iff]
    rintro ⟨hreq, -⟩
    have hz : (Vector.replicate 4 false)[g] = true := hreq
    simp at hz
  case hold =>
    show f.queues.hold[k] = []
    rw [q1]
    simp
  case kept =>
    show f.slots[k] = _
    rw [fslots, hslot, if_neg (fun h => hk.elim h.2.1 h.2.2)]
    rfl
  case dark =>
    show f.slots[k] = _
    rw [fslots, hslot, if_pos ⟨mem_slotIds k, hv, hfl⟩]
    rfl
  case cache =>
    show f.bc = _
    rw [show f.bc = d.bc from n8, hcache, hgoneIn]
    rfl
  case fill =>
    show f.reader = _
    rw [show f.reader = d.reader from n9, hfill x hx, hgoneIn]
  case reader =>
    show f.reader = _
    exact (show f.reader = d.reader from n9).trans (hreader hx)
  case users =>
    show f.catSt[i] = _
    rw [fcat, husers, hgoneIn]
    rfl
  case tables => exact n3.trans (by rw [show (gapTaken d).tables = d.tables from rfl, drest]; rfl)
  case ctx => exact n5.trans (by rw [show (gapTaken d).ctx = d.ctx from rfl, drest]; rfl)
  case flash => exact n10.trans (by rw [show (gapTaken d).flash = d.flash from rfl, drest]; rfl)
  case ma => exact n13.trans (by rw [show (gapTaken d).ma = d.ma from rfl, drest]; rfl)
  case phase => exact n1.trans (by rw [show (gapTaken d).phase = d.phase from rfl, drest]; rfl)
  case high => exact n2.trans (by rw [show (gapTaken d).lineHigh = d.lineHigh from rfl, drest]; rfl)
  case cut => exact n11.trans (by rw [show (gapTaken d).cut = d.cut from rfl, drest]; rfl)
  case pending => exact n15.trans (by rw [show (gapTaken d).pending = d.pending from rfl, drest]; rfl)
  case room =>
    obtain ⟨hperm, hsubOut, hsubHold⟩ := gapOrder_spec d
    rw [dkept.1, ← hout, dqueues, ← hfl] at hperm
    rw [dkept.1, ← hout] at hsubOut
    have hpl : PoolLaw d := poolLaw_congr hpool dpool dqueues
    obtain ⟨r1, r2, new, r3, r4, r5⟩ := flushGap_room hpl (by rw [dqueues, hperm.length_eq]; exact hlen)
      (by rw [hperm.length_eq, freeBufs_congr dpool]; exact hfree)
    have hau : f.au = s.au := by rw [hf, r2, drest]; rfl
    have hlist := congrArg Attention.list hau
    have hover := congrArg Attention.overflow hau
    have hrefuse : ∀ bs, refusalsOf .notReady bs d = refusalsOf .notReady bs s := fun bs =>
      refusalsOf_congr _ bs (by rw [drest]; rfl) fun b _ => by rw [dpool]
    rw [hrefuse] at r5
    refine ⟨?_, hlist, hover, new, ?_, r4, ?_, ?_, fun k => ?_⟩
    · show f.ports = s.ports
      rw [hf, r1, drest]
      rfl
    · show f.queues.trunk = _
      rw [hf, r3, dqueues]
    · show (List.map (fun e => f.pool[e.buf].frame) new).Perm _
      rw [hf, r5]
      exact (refusalsOf_perm .notReady hperm s).map some
    · show List.Sublist _ (List.map (fun e => f.pool[e.buf].frame) new)
      rw [hf, r5]
      exact (refusalsOf_sublist .notReady hsubOut s).map some
    · show List.Sublist _ (List.map (fun e => f.pool[e.buf].frame) new)
      rw [hf, r5]
      exact (refusalsOf_sublist .notReady (dqueues ▸ hsubHold k) s).map some

end Sys2Proof.Machine
end

section
/-! PROOFS. The choice of the next transmission (O4). -/

namespace Sys2Proof.Machine

open Sys2Proof.Safety

theorem finish_free {s : State} (h : s.seg.port = .free) :
    (finish s).seg = (choose s).seg ∧ (finish s).slots = (choose s).slots ∧ (finish s).bc = (choose s).bc := by
  unfold finish
  rw [if_pos h]
  exact ⟨rfl, rfl, rfl⟩

theorem mayPass_iff {s : State} : mayPass s = true ↔
    s.seg.debt < s.tables.settings.debtLimit ∨ ∀ k : SlotId, s.slots[k].state = .vacant := by
  have he : (!(slotIds.any (eligible s))) = true ↔ ∀ k : SlotId, s.slots[k].state = .vacant := by
    rw [Bool.not_eq_true', ← Bool.not_eq_true, List.any_eq_true]
    constructor
    · intro h k
      by_contra hk
      exact h ⟨k, mem_slotIds k, decide_eq_true hk⟩
    · rintro h ⟨k, -, hk⟩
      exact of_decide_eq_true hk (h k)
  unfold mayPass
  rw [Bool.or_eq_true, decide_eq_true_eq, he]

theorem searchFrom_none {c : SlotId} {p : SlotId → Bool} (h : ∀ k, p k = false) : searchFrom c p = none := by
  unfold searchFrom
  rw [List.find?_eq_none]
  exact fun k _ => Bool.eq_false_iff.1 (h k)

/-! ## The three outcomes -/

theorem choose_grant {s : State} {k : SlotId} (hp : mayPass s = true) (hk : firstReady s = some k) : choose s = grant k (addDebt s) := by
  unfold choose
  rw [if_pos hp, hk]

theorem choose_outbound {s : State} (hp : mayPass s = true) (hr : ∀ k, inReady s k = false) (hq : s.queues.out ≠ []) :
    choose s = startTx .outbound (addDebt s) := by
  unfold choose
  rw [if_pos hp, firstReady_none hr]
  exact if_pos ⟨hp, hq⟩

theorem choose_turn {s : State} (h : mayPass s = false ∨ (∀ k, inReady s k = false) ∧ s.queues.out = []) : choose s = chooseTurn s := by
  unfold choose
  rcases h with h | ⟨hr, hq⟩
  · rw [h]
    rfl
  · rw [firstReady_none hr, ite_self]
    exact if_neg fun hx => hx.2 hq

theorem chooseTurn_urgent {s : State} {k : SlotId} (h : s.seg.lastTurn = .ring)
    (hk : searchFrom s.seg.urgentCursor (isRestoring s) = some k) :
    chooseTurn s = updSeg (fun g => { g with urgentCursor := k + 1, lastTurn := .urgent }) (giveTurn k s) := by
  unfold chooseTurn
  rw [if_pos h, hk]

theorem chooseTurn_ring {s : State} {k : SlotId} (h : s.seg.lastTurn = .urgent ∨ ∀ j, isRestoring s j = false)
    (hk : searchFrom s.seg.ringCursor (eligible s) = some k) :
    chooseTurn s = updSeg (fun g => { g with ringCursor := k + 1, lastTurn := .ring }) (giveTurn k s) := by
  have hn : (if s.seg.lastTurn = .ring then searchFrom s.seg.urgentCursor (isRestoring s) else none) = none := by
    rcases h with h | h
    · exact if_neg (by rw [h]; decide)
    · rw [searchFrom_none h, ite_self]
  unfold chooseTurn
  rw [hn, hk]

theorem chooseTurn_none {s : State} (h : ∀ k : SlotId, s.slots[k].state = .vacant) : chooseTurn s = s := by
  have hr : ∀ k, isRestoring s k = false := fun k => by
    unfold isRestoring
    rw [h k]
    rfl
  have he : ∀ k, eligible s k = false := fun k => decide_eq_false (not_not.2 (h k))
  unfold chooseTurn
  rw [searchFrom_none hr, ite_self, searchFrom_none he]

/-- A turn is given wherever some slot is in service. -/
theorem chooseTurn_given {s : State} {j : SlotId} (hj : s.slots[j].state ≠ .vacant) : ∃ k : SlotId, s.slots[k].state ≠ .vacant ∧
    (chooseTurn s).seg.port = .sending (.turn ⟨s.tables.slots[k].addr, s.tables.settings.mgmtAddr, .turn, 0, []⟩) ∧
    (chooseTurn s).seg.turn = some ⟨k, s.tables.slots[k].addr, false, false⟩ ∧ (chooseTurn s).seg.debt = 0 := by
  by_cases hu : s.seg.lastTurn = .ring ∧ ∃ i, isRestoring s i = true
  · obtain ⟨hl, i, hi⟩ := hu
    obtain ⟨k, hk, hp⟩ := searchFrom_some (c := s.seg.urgentCursor) hi
    rw [chooseTurn_urgent hl hk]
    refine ⟨k, fun hv => ?_, rfl, rfl, rfl⟩
    unfold isRestoring at hp
    rw [hv] at hp
    cases hp
  · obtain ⟨k, hk, hp⟩ := searchFrom_some (c := s.seg.ringCursor) (p := eligible s) (k := j) (decide_eq_true hj)
    have hr : s.seg.lastTurn = .urgent ∨ ∀ i, isRestoring s i = false := by
      cases hl : s.seg.lastTurn with
      | urgent => exact .inl rfl
      | ring => exact .inr fun i => Bool.eq_false_iff.2 fun hi => hu ⟨hl, i, hi⟩
    rw [chooseTurn_ring hr hk]
    exact ⟨k, of_decide_eq_true hp, rfl, rfl, rfl⟩

/-! ## What is ready -/

theorem available_iff {i : ImageId} {b : Nat} {s : State} : available i b s = true ↔
    s.tables.cat[i].supply b = .fill ∨ HeldValid i b s := by
  unfold available
  rw [Bool.or_eq_true, isFillBlock_iff, validLine_isSome_iff]

theorem inReady_iff {s : State} {k : SlotId} : inReady s k = true ↔
    (∃ x, s.slots[k].session = some x ∧
      (s.slots[k].state = .loading ∧ x.inFlight.length < x.window ∧ x.cursor < x.length ∧
          (s.tables.cat[x.img].supply x.cursor = .fill ∨ HeldValid x.img x.cursor s) ∨
        (s.slots[k].state = .starting ∨ s.slots[k].state = .context) ∧ x.sent = false)) ∨
    s.slots[k].session = none ∧ s.slots[k].reboot ≠ none ∧ s.lm.line = .up := by
  unfold inReady
  cases hs : s.slots[k].session with
  | none =>
    simp only [Bool.and_eq_true, decide_eq_true_eq, Option.isSome_iff_ne_none]
    simp
  | some x =>
    cases hst : s.slots[k].state
    case loading =>
      simp only [Bool.and_eq_true, decide_eq_true_eq, available_iff]
      simp [and_assoc]
    all_goals simp

/-- Settles O4: the choice by the debt, the ready set and the outbound queue. -/
theorem nextSent : Obligations.NextSent := by
  unfold Obligations.NextSent
  refine ⟨fun s hp hd hk => ?turn, fun s hp hr hq hd => ?outbound, fun s k g hp hd hg => ?kind, fun s hp hr hq hv => ?nothing,
    fun s k => inReady_iff⟩
  case turn =>
    obtain ⟨j, hj⟩ := hk
    obtain ⟨f1, f2, f3⟩ := finish_free hp
    have hc : choose s = chooseTurn s := choose_turn (.inl (Bool.eq_false_iff.2 fun h =>
      (mayPass_iff.1 h).elim (Nat.not_lt.2 hd) fun hv => hj (hv j)))
    rw [f1, f2, f3, hc]
    obtain ⟨k, h1, h2, h3, h4⟩ := chooseTurn_given hj
    exact ⟨k, h1, h2, h3, h4, chooseTurn_slots s, chooseTurn_bc s⟩
  case outbound =>
    obtain ⟨f1, f2, f3⟩ := finish_free hp
    rw [f1, f2, f3, choose_outbound (mayPass_iff.2 hd) hr hq]
    exact ⟨rfl, rfl, rfl⟩
  case kind =>
    obtain ⟨f1, f2, f3⟩ := finish_free hp
    have hturn : s.slots[k].state ≠ .vacant → choose s = chooseTurn s := fun hv => choose_turn (hd.imp_left fun hd =>
      Bool.eq_false_iff.2 fun h => (mayPass_iff.1 h).elim (Nat.not_lt.2 hd) fun hx => hv (hx k))
    refine ⟨fun hl hk hmin => ?_, fun hl hk hmin => ?_⟩
    · have hv : s.slots[k].state ≠ .vacant := fun hv => by
        rw [hv] at hk
        cases hk
      rw [f1, f2, f3, hturn hv, chooseTurn_urgent hl (searchFrom_first (p := isRestoring s) hk hmin), hg]
      exact ⟨rfl, rfl, rfl⟩
    · rw [f1, f2, f3, hturn hk, chooseTurn_ring hl (searchFrom_first (p := eligible s) (decide_eq_true hk)
        fun j hj => hmin j (of_decide_eq_true hj)), hg]
      exact ⟨rfl, rfl, rfl⟩
  case nothing =>
    obtain ⟨f1, f2, f3⟩ := finish_free hp
    rw [f1, f2, f3, choose_turn (.inr ⟨hr, hq⟩), chooseTurn_none hv]
    exact ⟨rfl, rfl, rfl⟩

end Sys2Proof.Machine
end

section
/-! PROOFS. The grants (O5). -/

namespace Sys2Proof.Machine

open Sys2Proof.Safety

/-! ## The first ready slot -/

theorem firstReady_best {s : State} {k : SlotId} (hk : inReady s k = true) (h8 : slotRank k s ≤ 8)
    (hmin : ∀ j : SlotId, inReady s j = true → slotRank k s < slotRank j s ∨ slotRank k s = slotRank j s ∧ k ≤ j) :
    firstReady s = some k := by
  have hmem := mem_slotsByRank h8
  obtain ⟨j, hj⟩ : ∃ j, (slotsByRank s).find? (inReady s) = some j :=
    Option.isSome_iff_exists.1 (List.find?_isSome.2 ⟨k, hmem, hk⟩)
  obtain ⟨hpj, before, after, hl, hno⟩ := List.find?_eq_some_iff_append.1 hj
  have hjk : k = j := by
    rw [hl] at hmem
    rcases List.mem_append.1 hmem with hm | hm
    · have := hno k hm
      rw [hk] at this
      cases this
    · rcases List.mem_cons.1 hm with h | hm
      · exact h
      · have hs := slotsByRank_sorted s
        rw [hl] at hs
        have hjk := (List.pairwise_cons.1 (List.pairwise_append.1 hs).2.1).1 k hm
        rcases hjk with h | ⟨h, hlt⟩
        · rcases hmin j hpj with g | ⟨g, -⟩ <;> omega
        · rcases hmin j hpj with g | ⟨-, g⟩
          · omega
          · exact absurd hlt (not_lt.2 g)
  unfold firstReady
  rw [hj, hjk]

/-! ## The data of a block -/

theorem validLine_of {i : ImageId} {b : Nat} {s : State} {l : LineId} {p : Bool} {d : List Byte} (h : s.bc.lines[l] = .valid i b p d)
    (hm : ∀ m : LineId, m < l → ∀ q c, s.bc.lines[m] ≠ .valid i b q c) : validLine i b s = some l := validLine_lowest h hm

theorem isFillBlock_other {i : ImageId} {b : Nat} {s : State} (h : s.tables.cat[i].supply b ≠ .fill) : isFillBlock i b s = false :=
  Bool.eq_false_iff.2 fun hx => h (isFillBlock_iff.1 hx)

theorem blockData_fill {i : ImageId} {b : Nat} {s : State} (h : s.tables.cat[i].supply b = .fill) :
    blockData i b s = List.replicate 128 0 := if_pos (isFillBlock_iff.2 h)

theorem blockData_line {i : ImageId} {b : Nat} {s : State} {l : LineId} {p : Bool} {d : List Byte} (hf : s.tables.cat[i].supply b ≠ .fill)
    (h : s.bc.lines[l] = .valid i b p d) (hm : ∀ m : LineId, m < l → ∀ q c, s.bc.lines[m] ≠ .valid i b q c) : blockData i b s = d := by
  unfold blockData lineData
  rw [isFillBlock_other hf, validLine_lowest h hm]
  simp only [h]
  rfl

theorem hitBlock_fill {i : ImageId} {b : Nat} {s : State} (h : s.tables.cat[i].supply b = .fill) : hitBlock i b s = s :=
  if_pos (isFillBlock_iff.2 h)

theorem hitBlock_line {i : ImageId} {b : Nat} {s : State} {l : LineId} {p : Bool} {d : List Byte} (hf : s.tables.cat[i].supply b ≠ .fill)
    (h : s.bc.lines[l] = .valid i b p d) (hm : ∀ m : LineId, m < l → ∀ q c, s.bc.lines[m] ≠ .valid i b q c) :
    hitBlock i b s = { s with bc := { s.bc with recency := s.bc.recency.erase l ++ [l] } } := by
  unfold hitBlock
  rw [isFillBlock_other hf, validLine_lowest h hm]
  rfl

theorem hitBlock_rest (i : ImageId) (b : Nat) (s : State) : hitBlock i b s = { s with bc := (hitBlock i b s).bc } := by
  unfold hitBlock
  split
  · rfl
  · split <;> rfl

/-! ## One grant -/

/-- The segment while a grant's frame is sent. -/
def grantSeg (tx : SegTx) (g : Segment) : Segment := { g with port := .sending tx, debt := satAdd 8 g.debt }

/-- The BLOCK frame of a session. -/
def blockFrame (k : SlotId) (x : Session) (s : State) : Frame :=
  segFrame k .block (be16 x.cursor ++ blockData x.img x.cursor s) s

/-- A BLOCK grant before its requests. -/
def blockSent (k : SlotId) (x : Session) (s : State) : State :=
  { s with
    seg := grantSeg (.restore (blockFrame k x s)) s.seg
    slots := vmod s.slots k (fun y => { y with session := y.session.map Session.blockSent })
    bc := (hitBlock x.img x.cursor s).bc }

theorem hitBlock_congr {i : ImageId} {b : Nat} {s t : State} (hb : t.bc = s.bc) (ht : t.tables = s.tables) :
    (hitBlock i b t).bc = (hitBlock i b s).bc := by
  have hf : isFillBlock i b t = isFillBlock i b s := by
    unfold isFillBlock
    rw [ht]
  have hv : validLine i b t = validLine i b s := by
    unfold validLine
    rw [hb]
  unfold hitBlock
  rw [hf, hv]
  split
  · exact hb
  · split
    · unfold hit updBc
      rw [hb]
    · exact hb

theorem grant_block {s : State} {k : SlotId} {x : Session} (hx : s.slots[k].session = some x) (hs : s.slots[k].state = .loading) :
    grant k (addDebt s) = requestBlocks k (blockSent k x s) := by
  have hx' : (addDebt s).slots[k].session = some x := hx
  have hs' : (addDebt s).slots[k].state = .loading := hs
  unfold grant
  simp only [hx', hs']
  refine congrArg (requestBlocks k) ?_
  rw [hitBlock_rest, hitBlock_congr (s := s) (by rfl) (by rfl)]
  rfl

theorem blockSent_slot {s : State} {k : SlotId} {x : Session} (hx : s.slots[k].session = some x) :
    (blockSent k x s).slots[k] = { s.slots[k] with session := some { x with
      inFlight := x.inFlight ++ [x.cursor], cursor := x.cursor + 1, timer := some x.stageTimeout } } := by
  refine (vmod_same ..).trans ?_
  simp only [hx]
  rfl

/-- A grant that is no BLOCK: the frame goes out and the session changes by `g`. -/
def sentBy (tx : SegTx) (k : SlotId) (g : Session → Session) (s : State) : State :=
  { s with
    seg := grantSeg tx s.seg
    slots := vmod s.slots k (fun y => { y with session := y.session.map g }) }

theorem sentBy_slot {s : State} {k : SlotId} {x : Session} (hx : s.slots[k].session = some x) (tx : SegTx) (g : Session → Session) :
    (sentBy tx k g s).slots[k] = { s.slots[k] with session := some (g x) } := by
  refine (vmod_same ..).trans ?_
  simp only [hx]
  rfl

theorem grant_start {s : State} {k : SlotId} {x : Session} (hx : s.slots[k].session = some x) (hs : s.slots[k].state = .starting) :
    grant k (addDebt s) = sentBy (.restore (segFrame k .startimg
      (be32 x.tag ++ be16 x.length ++ be32 x.check ++ be32 x.entryWord ++ [flagByte x.warm]) s)) k
      (fun x => { x with timer := some x.stageTimeout, sent := true }) s := by
  have hx' : (addDebt s).slots[k].session = some x := hx
  have hs' : (addDebt s).slots[k].state = .starting := hs
  unfold grant
  simp only [hx', hs']
  rfl

theorem grant_context {s : State} {k : SlotId} {x : Session} (hx : s.slots[k].session = some x) (hs : s.slots[k].state = .context) :
    grant k (addDebt s) = sentBy (.restore (segFrame k .ctxload s.ctx[k].payload s)) k
      (fun x => { x with timer := some x.stageTimeout, sent := true, sentMask := some s.ctx[k].mask }) s := by
  have hx' : (addDebt s).slots[k].session = some x := hx
  have hs' : (addDebt s).slots[k].state = .context := hs
  unfold grant
  simp only [hx', hs']
  rfl

theorem grant_reboot {s : State} {k : SlotId} {r : RebootReason} (hx : s.slots[k].session = none) (hr : s.slots[k].reboot = some r) :
    grant k (addDebt s) = { s with seg := grantSeg (.reboot (segFrame k .reboot [r.code] s) k) s.seg } := by
  have hx' : (addDebt s).slots[k].session = none := hx
  have hr' : (addDebt s).slots[k].reboot = some r := hr
  unfold grant grantReboot
  simp only [hx', hr']
  rfl

/-- The grant to a ready slot by its kind. -/
theorem grant_cases {s : State} {k : SlotId} (hk : inReady s k = true) :
    (∃ x, s.slots[k].session = some x ∧ s.slots[k].state = .loading ∧ grant k (addDebt s) = requestBlocks k (blockSent k x s)) ∨
    (∃ tx g, grant k (addDebt s) = sentBy tx k g s) ∨ ∃ tx, grant k (addDebt s) = { s with seg := grantSeg tx s.seg } := by
  rcases inReady_iff.1 hk with ⟨x, hx, ⟨hs, -⟩ | ⟨hs | hs, -⟩⟩ | ⟨hx, hr, -⟩
  · exact .inl ⟨x, hx, hs, grant_block hx hs⟩
  · exact .inr (.inl ⟨_, _, grant_start hx hs⟩)
  · exact .inr (.inl ⟨_, _, grant_context hx hs⟩)
  · obtain ⟨r, hr⟩ := Option.ne_none_iff_exists'.1 hr
    exact .inr (.inr ⟨_, grant_reboot hx hr⟩)

/-- Settles O5: the grant to the first ready slot, by its kind. -/
theorem grantsMade : Obligations.GrantsMade := by
  unfold Obligations.GrantsMade
  refine ⟨fun s i b => ⟨blockData_fill, fun l p d hf h hm => blockData_line hf h hm⟩, fun s k a m hp hd hk h8 hmin ha hm => ?_⟩
  obtain ⟨f1, f2, f3⟩ := finish_free hp
  have hc : choose s = grant k (addDebt s) := choose_grant (mayPass_iff.2 hd) (firstReady_best hk h8 hmin)
  rw [hc] at f1 f2 f3
  subst ha hm
  have hblock : ∀ x : Session, s.slots[k].session = some x → s.slots[k].state = .loading →
      (finish s).seg = (blockSent k x s).seg ∧ (finish s).slots = (blockSent k x s).slots ∧
        (finish s).bc = (requestBlocks k (blockSent k x s)).bc := fun x hx hs => by
    obtain ⟨r1, -, -, -, r5⟩ := requestBlocks_rest k (blockSent k x s)
    rw [grant_block hx hs] at f1 f2 f3
    exact ⟨f1.trans r5, f2.trans r1, f3⟩
  refine ⟨fun x hx hs => ?block, fun x hx hs => ?start, fun x hx hs => ?context, fun r hx hr => ?reboot, fun h => ?cache, ?debt,
    fun j hj => ?other⟩
  case block =>
    obtain ⟨b1, b2, b3⟩ := hblock x hx hs
    refine ⟨by rw [b1]; rfl, by rw [b2]; exact blockSent_slot hx, fun t order ht => ⟨fun hf ho => ?_, fun l p d hf hl hlow ho => ?_⟩⟩
    · have ht' : t = blockSent k x s := by
        rw [ht, b1, b2, ho]
        unfold blockSent
        rw [hitBlock_fill hf]
      rw [b3, ht']
    · have ht' : t = blockSent k x s := by
        rw [ht, b1, b2, ho]
        unfold blockSent
        rw [hitBlock_line hf hl hlow]
      rw [b3, ht']
  case start =>
    rw [grant_start hx hs] at f1 f2
    exact ⟨by rw [f1]; rfl, by rw [f2]; exact sentBy_slot hx ..⟩
  case context =>
    rw [grant_context hx hs] at f1 f2
    exact ⟨by rw [f1]; rfl, by rw [f2]; exact sentBy_slot hx ..⟩
  case reboot =>
    rw [grant_reboot hx hr] at f1 f2
    exact ⟨by rw [f1]; rfl, by rw [f2]⟩
  case cache =>
    rw [f3]
    rcases grant_cases hk with ⟨x, hx, hs, -⟩ | ⟨tx, g, he⟩ | ⟨tx, he⟩
    · rcases h with h | h
      · cases h.symm.trans hx
      · exact absurd hs h
    · rw [he]
      rfl
    · rw [he]
  case debt =>
    rcases grant_cases hk with ⟨x, hx, hs, -⟩ | ⟨tx, g, he⟩ | ⟨tx, he⟩
    · rw [(hblock x hx hs).1]
      rfl
    · rw [f1, he]
      rfl
    · rw [f1, he]
      rfl
  case other =>
    rcases grant_cases hk with ⟨x, hx, hs, -⟩ | ⟨tx, g, he⟩ | ⟨tx, he⟩
    · rw [(hblock x hx hs).2.1]
      exact vmod_other _ hj _
    · rw [f2, he]
      exact vmod_other _ hj _
    · rw [f2, he]

end Sys2Proof.Machine
end

section
/-! PROOFS. Ends of transmission and of reception (O24, O27). -/

namespace Sys2Proof.Machine

open Sys2Proof.Safety

/-! ## The end of a transmission on the segment (O24) -/

/-- One frame more sent on the segment. -/
def segmentSent (s : State) : Ports := { s.ports with segment := { s.ports.segment with
  transmitted := if s.ports.segment.transmitted < 65535 then s.ports.segment.transmitted + 1 else s.ports.segment.transmitted } }

theorem countSent_segment (s : State) : countSent .segment s = { s with ports := segmentSent s } := rfl

theorem dropRef_ports (b : BufId) (q : Ports) (s : State) : dropRef b { s with ports := q } = { dropRef b s with ports := q } := rfl

theorem exec_segmentTransmissionEnd {s : State} {tx : SegTx} (h : s.seg.port = .sending tx) :
    exec .segmentTransmissionEnd s = .next (finish (txEnded tx { s with ports := segmentSent s })) := by
  show execSegmentTransmissionEnd s = _
  unfold execSegmentTransmissionEnd
  rw [h]
  cases tx <;> rfl

theorem turnSent_opens {s : State} {u : Turn} (ht : s.seg.turn = some u) (hc : u.closed = false) (hs : s.seg.silent = false) :
    turnSent s = openWindow s := by
  unfold turnSent
  rw [hs, ht]
  refine if_neg ?_
  simp [hc]

theorem turnSent_silent {s : State} (hs : s.seg.silent = true) : turnSent s = leavePort s := by
  unfold turnSent
  rw [hs]
  rfl

theorem turnSent_closed {s : State} {u : Turn} (ht : s.seg.turn = some u) (hc : u.closed = true) : turnSent s = leavePort s := by
  unfold turnSent
  rw [ht]
  refine if_pos ?_
  simp [hc]

/-- Settles O24, by what was under transmission. -/
theorem segmentTransmissionEnds : Obligations.SegmentTransmissionEnds := by
  unfold Obligations.SegmentTransmissionEnds
  intro s p g hp hg
  subst hp hg
  refine ⟨fun f u hx ht hc hs => ?_, fun f hx hs => ?_, fun f u hx ht hc => ?_, fun f hx => ?_, fun f k hx => ?_, fun b bs hx hq => ?_⟩
  all_goals rw [exec_segmentTransmissionEnd hx]
  · exact congrArg (fun t => Host.Outcome.next (finish t)) (turnSent_opens (s := { s with ports := segmentSent s }) ht hc hs)
  · exact congrArg (fun t => Host.Outcome.next (finish t)) (turnSent_silent (s := { s with ports := segmentSent s }) hs)
  · exact congrArg (fun t => Host.Outcome.next (finish t)) (turnSent_closed (s := { s with ports := segmentSent s }) ht hc)
  · rfl
  · rfl
  · have hpop : popOut { s with ports := segmentSent s } =
        { dropRef b { s with queues := { s.queues with out := bs } } with ports := segmentSent s } := by
      rw [← dropRef_ports]
      unfold popOut
      simp only [hq]
      rfl
    show Host.Outcome.next (finish (leavePort (popOut { s with ports := segmentSent s }))) = _
    rw [hpop]
    rfl

/-! ## Frames that a full-duplex link does not take (O27) -/

theorem exec_trunkFrame {s : State} (h : s.phase = .running) (bytes : List Byte) : exec (.receiveFrame .trunk bytes) s =
    .next (finish (stage .trunk [] (receiveOn .trunk bytes (stage .trunk bytes s)))) := if_pos h

theorem exec_serviceFrame {s : State} (h : s.phase = .running) (bytes : List Byte) : exec (.receiveFrame .service bytes) s =
    .next (finish (stage .service [] (receiveOn .service bytes (stage .service bytes s)))) := if_pos h

theorem exec_frame_starting {s : State} (h : s.phase = .starting) (a : Arrival) (bytes : List Byte) :
    exec (.receiveFrame a bytes) s = .next s := by
  have hn : s.phase ≠ .running := by rw [h]; decide
  cases a with
  | trunk => exact if_neg hn
  | service => exact if_neg hn
  | early l => rfl

section
variable {l : Link} {bytes : List Byte} {s : State}

theorem receiveOn_noFrame (h : parseFrame bytes = none) : receiveOn l bytes s = countBad (Link.origin l).port s := by
  unfold receiveOn
  rw [h]

theorem receiveOn_refused {f : Frame} (h : parseFrame bytes = some f) (ha : linkAccepts l f s = false) :
    receiveOn l bytes s = countBad (Link.origin l).port s := by
  unfold receiveOn
  rw [h]
  exact if_neg (by rw [ha]; decide)

theorem takeIn_short {p : Port} {f : Frame} (h : (freeBufs s).length ≤ 8) : takeIn p f s = (none, countOverrun p s) :=
  if_neg (Nat.not_lt.2 h)

theorem receiveOn_overrun {f : Frame} (h : parseFrame bytes = some f) (ha : linkAccepts l f s = true) (hb : (freeBufs s).length ≤ 8) :
    receiveOn l bytes s = countOverrun (Link.origin l).port s := by
  unfold receiveOn
  rw [h]
  refine (if_pos ha).trans ?_
  rw [takeIn_short hb]

theorem receiveOn_handedOver {f : Frame} {b : BufId} {t : State} (h : parseFrame bytes = some f) (ha : linkAccepts l f s = true)
    (ht : takeIn (Link.origin l).port f s = (some b, t)) : receiveOn l bytes s = handOver l b f t := by
  unfold receiveOn
  rw [h]
  refine (if_pos ha).trans ?_
  rw [ht]

end

theorem linkAccepts_trunk_data {f : Frame} (h : f.kind = .data) (s : State) : linkAccepts .trunk f s = true := by
  show trunkAccepts f s = true
  unfold trunkAccepts
  rw [h]

theorem linkAccepts_trunk_request {f : Frame} {s : State} (h : f.kind = .mgmtReq) :
    linkAccepts .trunk f s = decide (f.dst = s.tables.settings.mgmtAddr) := by
  show trunkAccepts f s = _
  unfold trunkAccepts
  rw [h]

theorem linkAccepts_trunk_other {f : Frame} {s : State} (hd : f.kind ≠ .data) (h : f.kind ≠ .mgmtReq ∨ f.dst ≠ s.tables.settings.mgmtAddr) :
    linkAccepts .trunk f s = false := by
  by_cases hm : f.kind = .mgmtReq
  · rw [linkAccepts_trunk_request hm]
    exact decide_eq_false (h.resolve_left (· hm))
  · show trunkAccepts f s = false
    unfold trunkAccepts
    split
    case h_1 hk => exact absurd hk hd
    case h_2 hk => exact absurd hk hm
    case h_3 => rfl

/-! ## What is a frame -/

/-- The codes of the kinds. -/
def kindTable : List (Nat × Kind) :=
  [(0x01, .data), (0x02, .status), (0x03, .refuse), (0x10, .turn), (0x11, .empty), (0x20, .bootcall),
    (0x21, .block), (0x22, .loadack), (0x23, .startimg), (0x24, .started), (0x25, .ctxload), (0x26, .ready), (0x27, .reboot),
    (0x30, .mgmtReq), (0x31, .mgmtReply)]

theorem kindOfCode_iff {c : Nat} {k : Kind} : Kind.ofCode c = some k ↔ (c, k) ∈ kindTable := by
  constructor
  · intro h
    unfold Kind.ofCode at h
    split at h
    all_goals cases h
    all_goals decide
  · intro h
    fin_cases h <;> rfl

theorem parseFrame_iff {bytes : List Byte} {f : Frame} : parseFrame bytes = some f ↔
    rd8 bytes 4 ≤ 240 ∧ bytes.length = rd8 bytes 4 + 7 ∧
      rd16 bytes (rd8 bytes 4 + 5) = (crc16 (bytes.take (rd8 bytes 4 + 5))).toNat ∧ rd8 bytes 0 ≠ 0 ∧ (rd8 bytes 2, f.kind) ∈ kindTable ∧
      f.dst = bytes.getD 0 0 ∧ f.src = bytes.getD 1 0 ∧ f.seq = bytes.getD 3 0 ∧ f.payload = (bytes.drop 5).take (rd8 bytes 4) := by
  unfold parseFrame
  dsimp only
  split
  case isTrue h =>
    obtain ⟨h1, h2, h3, h4⟩ := h
    rw [← kindOfCode_iff]
    cases hk : Kind.ofCode (rd8 bytes 2) with
    | none => simp
    | some k =>
      obtain ⟨dst, src, kind, seq, payload⟩ := f
      simp only [Option.some.injEq, Frame.mk.injEq]
      constructor
      · rintro ⟨rfl, rfl, rfl, rfl, rfl⟩
        exact ⟨h1, h2, h3, h4, rfl, rfl, rfl, rfl, rfl⟩
      · rintro ⟨-, -, -, -, hkind, hdst, hsrc, hseq, hpay⟩
        exact ⟨hdst.symm, hsrc.symm, hkind, hseq.symm, hpay.symm⟩
  case isFalse h =>
    refine iff_of_false (fun hx => by cases hx) fun ⟨h1, h2, h3, h4, _⟩ => h ⟨h1, h2, h3, h4⟩

/-! ## The CRC-16 -/

theorem crc16Step_append (r : BitVec 16) (xs ys : List Byte) : crc16Step r (xs ++ ys) = crc16Step (crc16Step r xs) ys := by
  induction xs generalizing r with
  | nil => rfl
  | cons x xs ih => exact ih _

/-- One bit of the CRC-16. -/
def crc16Bit (c : BitVec 16) : BitVec 16 := if c.getLsbD 15 then (c <<< 1) ^^^ 0x1021 else c <<< 1

theorem crc16Shift_foldl (n : Nat) (c : BitVec 16) : crc16Shift c n = (List.range n).foldl (fun c _ => crc16Bit c) c := by
  have hi : ∀ (n : Nat) (c : BitVec 16), crc16Shift c n = crc16Bit^[n] c := fun n => by
    induction n with
    | zero => exact fun c => rfl
    | succ n ih => exact fun c => ih _
  have hl : ∀ (l : List Nat) (c : BitVec 16), l.foldl (fun c _ => crc16Bit c) c = crc16Bit^[l.length] c := fun l => by
    induction l with
    | nil => exact fun c => rfl
    | cons x l ih => exact fun c => ih _
  rw [hi, hl, List.length_range]

theorem highByte_eq (b : Byte) : b.setWidth 16 <<< 8 = b ++ (0 : Byte) := by
  refine BitVec.eq_of_toNat_eq ?_
  have hb := b.isLt
  rw [BitVec.toNat_shiftLeft, BitVec.toNat_setWidth, BitVec.toNat_append, Nat.shiftLeft_eq, Nat.shiftLeft_eq,
    Nat.mod_eq_of_lt (by omega), Nat.mod_eq_of_lt (by omega)]
  exact (Nat.or_zero _).symm

theorem crc16_append (bs : List Byte) (b : Byte) : crc16 (bs ++ [b]) =
    (List.range 8).foldl (fun c _ => crc16Bit c) (crc16 bs ^^^ (b ++ (0 : Byte))) := by
  unfold crc16
  rw [crc16Step_append, ← crc16Shift_foldl, ← highByte_eq]
  rfl

/-- Settles O27: refusal by form and kind, overrun by the free buffers, the form by `parseFrame_iff`. -/
theorem frameNotTaken : Obligations.FrameNotTaken := by
  unfold Obligations.FrameNotTaken
  refine ⟨fun s bytes hp h => ⟨?badTrunk, ?badService⟩, fun s bytes f hp h hk hb => ?dataOverrun,
    fun s bytes f hp h => ⟨fun hd hk => ?otherTrunk, fun hk => ?otherService, fun hk hd hb => ?trunkOverrun, fun hk hb => ?serviceOverrun⟩,
    fun s l bytes => rfl, fun s a bytes hp => exec_frame_starting hp a bytes, fun bytes f n len hn hl => ?form, rfl,
    fun bs b => crc16_append bs b⟩
  case badTrunk =>
    rw [exec_trunkFrame hp, receiveOn_noFrame h]
    rfl
  case badService =>
    rw [exec_serviceFrame hp, receiveOn_noFrame h]
    rfl
  case dataOverrun =>
    rw [exec_trunkFrame hp, receiveOn_overrun (s := stage .trunk bytes s) h (linkAccepts_trunk_data hk _) hb]
    rfl
  case otherTrunk =>
    rw [exec_trunkFrame hp, receiveOn_refused h (linkAccepts_trunk_other (s := stage .trunk bytes s) hd hk)]
    rfl
  case otherService =>
    rw [exec_serviceFrame hp, receiveOn_refused (l := .service) (s := stage .service bytes s) h (decide_eq_false hk)]
    rfl
  case trunkOverrun =>
    rw [exec_trunkFrame hp, receiveOn_overrun (s := stage .trunk bytes s) h ((linkAccepts_trunk_request hk).trans (decide_eq_true hd)) hb]
    rfl
  case serviceOverrun =>
    rw [exec_serviceFrame hp, receiveOn_overrun (l := .service) (s := stage .service bytes s) h (decide_eq_true hk) hb]
    rfl
  case form =>
    subst hl
    rw [parseFrame_iff]
    simp only [hn]
    exact Iff.rfl

end Sys2Proof.Machine
end

section
/-! PROOFS. The end of a frame on the segment (O23). -/

namespace Sys2Proof.Machine

open Sys2Proof.Safety

/-! ## Capture reads tables, classes and records alone -/

/-- Two states with the same tables and the same resolved classes. -/
def SameClasses (s t : State) : Prop := t.tables = s.tables ∧ ∀ k : SlotId, t.slots[k].cls = s.slots[k].cls

section
variable {s t : State} (h : SameClasses s t)
include h

theorem fieldLen_same (k : SlotId) (f : FieldId) : fieldLen k f t = fieldLen k f s := by
  obtain ⟨ht, hc⟩ := h
  unfold fieldLen classOf
  rw [hc, ht]

theorem inClassMask_same (m : BitVec 8) (k : SlotId) : inClassMask m k t = inClassMask m k s := by
  unfold inClassMask
  rw [h.2]

theorem targets_same (m : TargetMode) (f : Frame) (node : Option SlotId) : targets m f node t = targets m f node s := by
  have hb : boundSlot f.dst t = boundSlot f.dst s := by
    unfold boundSlot
    rw [h.1]
  have hm : ∀ k, isMember f.dst k t = isMember f.dst k s := fun k => by
    unfold isMember
    rw [h.1]
  cases node with
  | some k => rfl
  | none =>
    show (if isStation f.dst then (boundSlot f.dst t).toList else
      match m with
      | .addressed => []
      | .all => slotIds.filter (fun k => isMember f.dst k t)) = _
    simp only [hb, hm]
    rfl

theorem captureInto_same (r : CapRule) (f : Frame) (k : SlotId) (c : Vector CtxRecord 32) :
    captureInto r f k { t with ctx := c } = { t with ctx := (captureInto r f k { s with ctx := c }).ctx } := by
  have hf : ∀ x, fieldLen k x { t with ctx := c } = fieldLen k x { s with ctx := c } :=
    fun x => fieldLen_same (s := { s with ctx := c }) (t := { t with ctx := c }) h k x
  have hr : capturedRecord r f k { t with ctx := c } = capturedRecord r f k { s with ctx := c } := by
    funext x
    unfold capturedRecord
    rw [hf]
  rw [captureInto_eq, captureInto_eq, hr]

theorem captureRule_same (src : CapSource) (f : Frame) (node : Option SlotId) (r : CapRule) (c : Vector CtxRecord 32) :
    captureRule src f node { t with ctx := c } r = { t with ctx := (captureRule src f node { s with ctx := c } r).ctx } := by
  have hl : ((targets r.mode f node { t with ctx := c }).filter (fun k => inClassMask r.classMask k { t with ctx := c })) =
      (targets r.mode f node { s with ctx := c }).filter (fun k => inClassMask r.classMask k { s with ctx := c }) := by
    rw [targets_same (s := { s with ctx := c }) (t := { t with ctx := c }) h]
    exact List.filter_congr fun k _ => inClassMask_same (s := { s with ctx := c }) (t := { t with ctx := c }) h r.classMask k
  unfold captureRule
  split
  · rw [hl]
    clear hl
    generalize List.filter _ _ = l
    induction l generalizing c with
    | nil => rfl
    | cons k l ih =>
      rw [List.foldl_cons, List.foldl_cons, captureInto_same h]
      have hk : captureInto r f k { s with ctx := c } = { s with ctx := (captureInto r f k { s with ctx := c }).ctx } := by
        rw [captureInto_eq]
      rw [hk]
      exact ih _
  · rfl

theorem capture_same (src : CapSource) (f : Frame) (node : Option SlotId) (hx : t.ctx = s.ctx) :
    capture src f node t = { t with ctx := (capture src f node s).ctx } := by
  have hl : ∀ (l : List CapRule) (c : Vector CtxRecord 32), l.foldl (captureRule src f node) { t with ctx := c } =
      { t with ctx := (l.foldl (captureRule src f node) { s with ctx := c }).ctx } := fun l => by
    induction l with
    | nil => exact fun c => rfl
    | cons r l ih =>
      intro c
      rw [List.foldl_cons, List.foldl_cons, captureRule_same h, ih]
      have hr := captureRule_same (s := s) (t := s) ⟨rfl, fun k => rfl⟩ src f node r c
      rw [← hr]
  have hs : ({ s with ctx := t.ctx } : State) = s := by rw [hx]
  have hlist := hl s.tables.cap.toList t.ctx
  rw [hs] at hlist
  unfold capture
  rw [show t.tables.cap = s.tables.cap by rw [h.1]]
  exact hlist

end

theorem capture_shape (src : CapSource) (f : Frame) (node : Option SlotId) (s : State) :
    capture src f node s = { s with ctx := (capture src f node s).ctx } := capture_same ⟨rfl, fun _ => rfl⟩ src f node rfl

/-! ## The end of the reception -/

theorem exec_segmentFrameEnd {s : State} {w : Bool} (h : s.seg.port = .receiving w) (bytes : List Byte) :
    exec (.segmentFrameEnd bytes) s = .next (finish (leavePort (stage .segment [] (segmentJudged w (stage .segment bytes s))))) := by
  show execSegmentFrameEnd bytes s = _
  unfold execSegmentFrameEnd
  rw [h]
  rfl

/-- The end of a frame in a window. -/
theorem exec_windowFrame {s : State} {u : Turn} (h : s.seg.port = .receiving true) (ht : s.seg.turn = some u) (bytes : List Byte) :
    exec (.segmentFrameEnd bytes) s = .next (finish (leavePort (stage .segment [] (judgeAnswer u bytes (stage .segment bytes s))))) := by
  have hj : segmentJudged true (stage .segment bytes s) = judgeAnswer u bytes (stage .segment bytes s) := by
    unfold segmentJudged
    rw [show (stage .segment bytes s).seg.turn = some u from ht]
    rfl
  rw [exec_segmentFrameEnd h, hj]

theorem segmentKind_list {k : Kind} (h : k ∈ [Kind.refuse, .turn, .block, .startimg, .ctxload, .reboot, .mgmtReq, .mgmtReply]) :
    segmentKind k = false := by
  fin_cases h <;> rfl

theorem segmentKind_good {k : Kind} (h : k ∈ [Kind.empty, .data, .status, .bootcall, .loadack, .started, .ready]) :
    segmentKind k = true := by
  fin_cases h <;> rfl

section
variable {s : State} {u : Turn} {bytes : List Byte}

/-- A frame that is no answer is bad, and a miss where the turn is neither void nor closed. -/
theorem judgeAnswer_bad (h : ∀ f, parseFrame bytes = some f → f.src ≠ u.addr ∨ f.kind ∈ [Kind.refuse, .turn, .block, .startimg, .ctxload,
      .reboot, .mgmtReq, .mgmtReply]) : judgeAnswer u bytes s =
    if u.void || u.closed then countBad .segment s else missTurn u.slot (countBad .segment s) := by
  cases hf : parseFrame bytes with
  | none =>
    unfold judgeAnswer
    rw [hf]
  | some f =>
    unfold judgeAnswer
    rw [hf]
    refine if_neg ?_
    rw [Bool.and_eq_true, decide_eq_true_eq]
    rintro ⟨hk, hs⟩
    rcases h f hf with h | h
    · exact h hs
    · rw [segmentKind_list h] at hk
      cases hk

theorem judgeAnswer_good {f : Frame} (h : parseFrame bytes = some f) (hs : f.src = u.addr)
    (hk : f.kind ∈ [Kind.empty, .data, .status, .bootcall, .loadack, .started, .ready]) : judgeAnswer u bytes s = takeAnswer u f s := by
  unfold judgeAnswer
  rw [h]
  refine if_pos ?_
  rw [segmentKind_good hk, decide_eq_true hs]
  rfl

theorem missTurn_below {k : SlotId} (h : s.slots[k].miss + 1 < s.tables.settings.presenceLimit) :
    missTurn k s = updSlot k (fun x => { x with miss := x.miss + 1 }) s := if_neg (Nat.not_le.2 h)

theorem missTurn_reached {k : SlotId} (h : s.tables.settings.presenceLimit ≤ s.slots[k].miss + 1) :
    missTurn k s = presenceLost k (updSlot k (fun x => { x with miss := 0 }) s) := if_pos h

end

/-! ## A good answer -/

/-- The slots once an answer's turn has no miss. -/
def answeredSlots (u : Turn) (s : State) : Vector SlotStatus 32 :=
  if u.void then s.slots else s.slots.set u.slot { s.slots[u.slot] with miss := 0 }

/-- The counters after one good frame on the segment. -/
def segmentGood (s : State) : Ports := { s.ports with segment := { s.ports.segment with
  staged := [], good := if s.ports.segment.good < 65535 then s.ports.segment.good + 1 else s.ports.segment.good } }

/-- The state in which an answer stands in buffer `b`. -/
def answerIn (b : BufId) (bytes : List Byte) (f : Frame) (u : Turn) (s : State) : State :=
  { s with
    slots := answeredSlots u s, pool := s.pool.set b ⟨some f, 0⟩
    ports := { segmentGood s with segment := { (segmentGood s).segment with staged := bytes } } }

section
variable {s : State} {u : Turn} {bytes : List Byte} {f : Frame}

theorem takeAnswer_start (u : Turn) (s : State) : (if u.void then s else updSlot u.slot (fun x => { x with miss := 0 }) s) =
    { s with slots := answeredSlots u s } := by
  unfold answeredSlots
  split <;> rfl

theorem takeAnswer_overrun (h : (freeBufs s).length ≤ 8) :
    takeAnswer u f s = countOverrun .segment { s with slots := answeredSlots u s } := by
  unfold takeAnswer
  rw [takeAnswer_start]
  simp only [takeIn_short (s := { s with slots := answeredSlots u s }) h]

theorem takeAnswer_taken (h : 8 < (freeBufs s).length) : ∃ b : BufId, s.pool[b].frame = none ∧
    takeAnswer u f (stage .segment bytes s) =
      reclaim b (if u.void then answerIn b bytes f u s else dispatch u.slot b f (answerIn b bytes f u s)) := by
  have hne : freeBufs s ≠ [] := fun h0 => by
    rw [h0] at h
    cases h
  obtain ⟨b, hb, ha⟩ := alloc_free (f := f) (s := { stage .segment bytes s with slots := answeredSlots u (stage .segment bytes s) }) hne
  refine ⟨b, hb, ?_⟩
  have ht : takeIn .segment f { stage .segment bytes s with slots := answeredSlots u (stage .segment bytes s) } =
      (some b, answerIn b bytes f u s) := by
    unfold takeIn
    rw [if_pos (by exact h), ha]
    rfl
  unfold takeAnswer
  rw [takeAnswer_start]
  simp only [ht]

theorem stagedNone {p : Ports} (hp : p.segment.staged = []) : { p with segment := { p.segment with staged := [] } } = p := by
  rw [← hp]

/-- What stands once an answer's buffer is released and the port has left the window. -/
theorem left_sameBut {b : BufId} {w : State} {sl : Vector SlotStatus 32} {p : Ports} {q : List Byte} (hb : s.pool[b].frame = none)
    (hw : w = { s with slots := sl, pool := s.pool.set b ⟨some f, 0⟩, ports := { p with segment := { p.segment with staged := q } } })
    (hp : p.segment.staged = []) : SameBut sl p s.seg.left s (leavePort (stage .segment [] (reclaim b w))) := by
  subst hw
  refine ⟨(reclaim b { s with pool := s.pool.set b ⟨some f, 0⟩ }).pool, fun c => reclaim_fresh_frame hb, ?_⟩
  exact congrArg (fun r => ({ s with
    slots := sl, ports := r, seg := s.seg.left, pool := (reclaim b { s with pool := s.pool.set b ⟨some f, 0⟩ }).pool } : State))
    (stagedNone hp)

/-- The same, where the answer's buffer is the tail of the trunk queue. -/
theorem left_pushed {b : BufId} {w : State} {sl : Vector SlotStatus 32} {p : Ports} {q : List Byte}
    (hw : w = { s with slots := sl, pool := s.pool.set b ⟨some f, 0⟩, ports := { p with segment := { p.segment with staged := q } } })
    (hp : p.segment.staged = []) : leavePort (stage .segment [] (reclaim b (pushTrunk ⟨b, false⟩ w))) = { s with
      slots := sl, seg := s.seg.left, ports := p, pool := s.pool.set b ⟨some f, 1⟩
      queues := { s.queues with trunk := s.queues.trunk ++ [⟨b, false⟩] } } := by
  have hpool : vmod (vmod (s.pool.set b ⟨some f, 0⟩) b (fun x => { x with refs := x.refs + 1 })) b
      (fun x => if x.refs = 0 then ⟨none, 0⟩ else x) = s.pool.set b ⟨some f, 1⟩ := by
    rw [vmod_set, vmod_set]
    rfl
  subst hw
  rw [← hpool]
  exact congrArg (fun r => ({ s with
    slots := sl, ports := r, seg := s.seg.left
    pool := vmod (vmod (s.pool.set b ⟨some f, 0⟩) b (fun x => { x with refs := x.refs + 1 })) b
      (fun x => if x.refs = 0 then ⟨none, 0⟩ else x)
    queues := { s.queues with trunk := s.queues.trunk ++ [⟨b, false⟩] } } : State)) (stagedNone hp)

/-- The same, where the trunk queue is full. -/
theorem left_overrun {b : BufId} {w : State} {sl : Vector SlotStatus 32} {p : Ports} {q : List Byte} (hb : s.pool[b].frame = none)
    (hw : w = { s with slots := sl, pool := s.pool.set b ⟨some f, 0⟩, ports := { p with segment := { p.segment with staged := q } } })
    (hp : p.segment.staged = []) : SameBut sl { p with trunk := { p.trunk with
        overrun := if p.trunk.overrun < 65535 then p.trunk.overrun + 1 else p.trunk.overrun } } s.seg.left
      { s with au := s.au.report .overrun (.port .trunk) none } (leavePort (stage .segment [] (reclaim b (countOverrun .trunk w)))) := by
  refine left_sameBut (f := f) (s := { s with au := s.au.report .overrun (.port .trunk) none }) (q := q) hb ?_ hp
  rw [hw]
  rfl

/-! ## Owners that take nothing -/

theorem lookup_tables {t : State} (h : t.tables = s.tables) (d : Direction) (k : RuleKind) (f : Frame) : lookup d k f t = lookup d k f s := by
  unfold lookup
  rw [h]

theorem line_notGood (h : s.lm.line = .gap ∨ s.lm.line = .settle) : s.lm.line.good = false := by
  rcases h with h | h <;> rw [h] <;> rfl

theorem bootCallAnswer_dark (h : s.lm.line = .gap ∨ s.lm.line = .settle) (k : SlotId) (p : List Byte) : bootCallAnswer k p s = s := by
  unfold bootCallAnswer
  split
  · rw [line_notGood h]
    rfl
  · rfl

theorem statusAnswer_dark (h : s.lm.line = .gap ∨ s.lm.line = .settle) (k : SlotId) (p : List Byte) : statusAnswer k p s = s := by
  refine if_neg ?_
  rw [line_notGood h]
  exact fun hx => Bool.false_ne_true hx.2

theorem restoreAnswer_none {k : SlotId} (h : s.slots[k].session = none) (kind : Kind) (p : List Byte) : restoreAnswer k kind p s = s := by
  unfold restoreAnswer
  rw [h]

theorem answeredSlots_keep (u : Turn) (s : State) (k : SlotId) : (answeredSlots u s)[k] = { s.slots[k] with
    miss := (answeredSlots u s)[k].miss } := by
  unfold answeredSlots
  split
  · rfl
  · by_cases hk : k = u.slot
    · subst hk
      rw [set_same]
    · rw [set_other _ hk]

theorem answerIn_classes (b : BufId) (bytes : List Byte) (f : Frame) (u : Turn) (s : State) : SameClasses s (answerIn b bytes f u s) := by
  refine ⟨rfl, fun k => ?_⟩
  show (answeredSlots u s)[k].cls = _
  rw [answeredSlots_keep]

theorem answerIn_capture (b : BufId) (src : CapSource) (node : Option SlotId) :
    capture src f node (answerIn b bytes f u s) = { answerIn b bytes f u s with ctx := (capture src f node s).ctx } :=
  capture_same (answerIn_classes b bytes f u s) src f node rfl

/-- The answer's own slot stays RUNNING or not. -/
theorem answerIn_state (b : BufId) (k : SlotId) : (answerIn b bytes f u s).slots[k].state = s.slots[k].state := by
  show (answeredSlots u s)[k].state = _
  rw [answeredSlots_keep]

theorem answerIn_session (b : BufId) (k : SlotId) : (answerIn b bytes f u s).slots[k].session = s.slots[k].session := by
  show (answeredSlots u s)[k].session = _
  rw [answeredSlots_keep]

/-- An answer on its way: its record `w` after capture, and what is done with it by its action. -/
theorem left_forwarded {a : FwdAction} {b : BufId} {w : State} {sl : Vector SlotStatus 32} {p : Ports} {q : List Byte} (hb : s.pool[b].frame = none)
    (hw : w = { s with slots := sl, pool := s.pool.set b ⟨some f, 0⟩, ports := { p with segment := { p.segment with staged := q } } })
    (hp : p.segment.staged = []) {r : State} (hr : r = leavePort (stage .segment [] (reclaim b (if a = .drop then w else toTrunk b w)))) :
    (a = .drop → SameBut sl p s.seg.left s r) ∧
    (a ≠ .drop → s.queues.trunk.length < 48 → r = { s with
      slots := sl, seg := s.seg.left, ports := p, pool := s.pool.set b ⟨some f, 1⟩
      queues := { s.queues with trunk := s.queues.trunk ++ [⟨b, false⟩] } }) ∧
    (a ≠ .drop → 48 ≤ s.queues.trunk.length → SameBut sl { p with trunk := { p.trunk with
        overrun := if p.trunk.overrun < 65535 then p.trunk.overrun + 1 else p.trunk.overrun } } s.seg.left
      { s with au := s.au.report .overrun (.port .trunk) none } r) := by
  have hq : w.queues = s.queues := by rw [hw]
  have hroom : s.queues.trunk.length < 48 → toTrunk b w = pushTrunk ⟨b, false⟩ w := fun hl => if_pos (by rw [hq]; exact hl)
  have hfull : 48 ≤ s.queues.trunk.length → toTrunk b w = countOverrun .trunk w := fun hl =>
    if_neg (by rw [hq]; exact Nat.not_lt.2 hl)
  refine ⟨fun ha => ?_, fun ha hl => ?_, fun ha hl => ?_⟩
  · rw [hr, if_pos ha]
    exact left_sameBut hb hw hp
  · rw [hr, if_neg ha, hroom hl]
    exact left_pushed hw hp
  · rw [hr, if_neg ha, hfull hl]
    exact left_overrun hb hw hp

theorem upstreamStatus_eq (b : BufId) (f : Frame) (s : State) :
    upstreamStatus b f s = if (lookup .up .status f s).1 = .drop then s else toTrunk b s := by
  unfold upstreamStatus
  cases (lookup .up .status f s).1 <;> rfl

theorem upstreamData_running {k : SlotId} (h : s.slots[k].state = .running) (b : BufId) (f : Frame) : upstreamData k b f s =
    if (lookup .up .data f s).1 = .drop then (if (lookup .up .data f s).2 then capture .dataUp f (some k) s else s)
    else toTrunk b (if (lookup .up .data f s).2 then capture .dataUp f (some k) s else s) := by
  unfold upstreamData
  rw [if_pos h]
  generalize lookup .up .data f s = r
  obtain ⟨a, c⟩ := r
  cases a <;> rfl

end

/-- Settles O23: bad frames by `judgeAnswer_bad`, answers by `takeAnswer_taken` and their owner. -/
theorem segmentFrameJudged : Obligations.SegmentFrameJudged := by
  unfold Obligations.SegmentFrameJudged
  refine ⟨fun s bytes hp => ?outside, fun s bytes u hp ht hv hc hsrc hm => ?missed, fun s bytes u f hp ht hv hf hk hs hb => ?empty,
    fun s bytes u c g hp ht hc hg => ⟨fun hbad v hv => ⟨fun hx => ?quiet, fun hv0 hc0 hm => ?below, fun hv0 hc0 hm => ?lost⟩,
      fun f p sl hf hs hk hsl hpp => ⟨fun hb => ?overrun, fun hb hv => ?void, fun hb hv => ?answer⟩⟩⟩
  case outside =>
    rw [exec_segmentFrameEnd hp]
    rfl
  case missed =>
    rw [exec_windowFrame hp ht, judgeAnswer_bad fun f hf => .inl (hsrc f hf), hv, hc]
    exact congrArg (fun x => Host.Outcome.next (finish (leavePort (stage .segment [] x))))
      (missTurn_below (s := countBad .segment (stage .segment bytes s)) hm)
  case empty =>
    obtain ⟨b, hfree, htake⟩ := takeAnswer_taken (u := u) (bytes := bytes) (f := f) hb
    have hd : dispatch u.slot b f (answerIn b bytes f u s) = answerIn b bytes f u s := by
      unfold dispatch
      rw [hk]
    have hsl : answeredSlots u s = s.slots.set u.slot { s.slots[u.slot] with miss := 0 } := by
      unfold answeredSlots
      rw [hv]
      rfl
    obtain ⟨pl, hpl, hx⟩ := left_sameBut (w := answerIn b bytes f u s) (p := segmentGood s) hfree rfl rfl
    refine ⟨leavePort (stage .segment [] (reclaim b (answerIn b bytes f u s))), ?_, ?_⟩
    · rw [exec_windowFrame hp ht, judgeAnswer_good hf hs (by rw [hk]; decide), htake, hv, hd]
      rfl
    · rw [hx]
      exact ⟨hsl, rfl, rfl, rfl, hpl, rfl, rfl, rfl, rfl, rfl, rfl, rfl, rfl, rfl⟩
  case quiet =>
    have hx' : (u.void || u.closed) = true := by simpa using hx
    rw [exec_windowFrame hp ht, judgeAnswer_bad hbad, hx', hv, hg, hc]
    rfl
  case below =>
    rw [exec_windowFrame hp ht, judgeAnswer_bad hbad, hv0, hc0, hv, hg, hc]
    exact congrArg (fun x => Host.Outcome.next (finish (leavePort (stage .segment [] x))))
      (missTurn_below (s := countBad .segment (stage .segment bytes s)) hm)
  case lost =>
    rw [exec_windowFrame hp ht, judgeAnswer_bad hbad, hv0, hc0, hc]
    exact congrArg (fun x => Host.Outcome.next (finish (leavePort (stage .segment [] x))))
      (missTurn_reached (s := countBad .segment (stage .segment bytes s)) hm)
  case overrun =>
    have hx := takeAnswer_overrun (u := u) (f := f) (s := stage .segment bytes s) hb
    rw [exec_windowFrame hp ht, judgeAnswer_good hf hs hk, hx, hsl, hg, hc]
    rfl
  case void =>
    obtain ⟨b, hfree, htake⟩ := takeAnswer_taken (u := u) (bytes := bytes) (f := f) hb
    refine ⟨leavePort (stage .segment [] (reclaim b (answerIn b bytes f u s))), ?_, ?_⟩
    · rw [exec_windowFrame hp ht, judgeAnswer_good hf hs hk, htake, hv]
      rfl
    · rw [hpp, hg, hc]
      have hsl' : answeredSlots u s = s.slots := by
        unfold answeredSlots
        rw [hv]
        rfl
      rw [← hsl']
      exact left_sameBut (w := answerIn b bytes f u s) hfree rfl rfl
  case answer =>
    obtain ⟨b, hfree, htake⟩ := takeAnswer_taken (u := u) (bytes := bytes) (f := f) hb
    have hsl' : answeredSlots u s = sl := hsl.symm
    have hgood : segmentGood s = p := by
      rw [hpp, hc]
      rfl
    have hleft : s.seg.left = g := hg.symm
    have hx : exec (.segmentFrameEnd bytes) s =
        .next (finish (leavePort (stage .segment [] (reclaim b (dispatch u.slot b f (answerIn b bytes f u s)))))) := by
      rw [exec_windowFrame hp ht, judgeAnswer_good hf hs hk, htake, hv]
      rfl
    have hv' : answerIn b bytes f u s = { s with
        slots := sl, pool := s.pool.set b ⟨some f, 0⟩, ports := { p with segment := { p.segment with staged := bytes } } } := by
      rw [← hsl', ← hgood]
      rfl
    have hst : p.segment.staged = [] := by
      rw [← hgood]
      rfl
    refine ⟨⟨b, hfree, fun v w hvdef hw => ?owner⟩, fun h => ?alone, fun hkd hrun => ?orphan, fun a cap w hw => ?forwarded⟩
    case owner =>
      rw [← hv'] at hvdef
      have hdw : dispatch u.slot b f v = w := by
        unfold dispatch
        rcases hw with ⟨hk, rfl⟩ | ⟨hk, rfl⟩ | ⟨hk, rfl⟩ | ⟨hk, rfl⟩ | ⟨hk, rfl⟩
        · rw [hk]
        · rw [hk]
        · simp only [List.mem_cons, List.not_mem_nil, or_false] at hk
          rcases hk with hk | hk | hk <;> rw [hk]
        · rw [hk]
        · rw [hk]
      rw [hx, ← hvdef, hdw]
    case alone =>
      have hd : dispatch u.slot b f (answerIn b bytes f u s) = answerIn b bytes f u s := by
        unfold dispatch
        rcases h with ⟨hk, hl⟩ | ⟨hk, hn⟩
        · rw [hk]
          exact bootCallAnswer_dark (s := answerIn b bytes f u s) hl ..
        · have hn' := (answerIn_session (bytes := bytes) (f := f) (u := u) (s := s) b u.slot).trans hn
          simp only [List.mem_cons, List.not_mem_nil, or_false] at hk
          rcases hk with hk | hk | hk <;> rw [hk] <;> exact restoreAnswer_none hn' ..
      rw [hx, hd, ← hleft]
      exact ⟨_, rfl, left_sameBut hfree hv' hst⟩
    case orphan =>
      have hd : dispatch u.slot b f (answerIn b bytes f u s) = countOrphan (answerIn b bytes f u s) := by
        unfold dispatch
        rw [hkd]
        refine if_neg ?_
        rw [answerIn_state]
        exact hrun
      rw [hx, hd, ← hleft]
      refine ⟨_, rfl, left_sameBut (q := bytes) (f := f) hfree ?_ ?_⟩
      · rw [hv']
        rfl
      · exact hst
    case forwarded =>
      have hwx : w = { s with ctx := w.ctx } := by
        rcases hw with ⟨-, -, -, rfl⟩ | ⟨-, -, -, rfl⟩
        · split
          · exact capture_shape ..
          · rfl
        · exact capture_shape ..
      have hd : dispatch u.slot b f (answerIn b bytes f u s) =
          if a = .drop then { answerIn b bytes f u s with ctx := w.ctx } else toTrunk b { answerIn b bytes f u s with ctx := w.ctx } := by
        unfold dispatch
        rcases hw with ⟨hkd, hrun, hlook, rfl⟩ | ⟨hkd, hline, hlook, rfl⟩
        · have hlook' : lookup .up .data f (answerIn b bytes f u s) = (a, cap) := (lookup_tables rfl ..).trans hlook
          have hcap : (if cap then capture .dataUp f (some u.slot) (answerIn b bytes f u s) else answerIn b bytes f u s) =
              { answerIn b bytes f u s with ctx := (if cap then capture .dataUp f (some u.slot) s else s).ctx } := by
            split
            · exact answerIn_capture ..
            · rfl
          rw [hkd]
          refine (upstreamData_running ((answerIn_state b u.slot).trans hrun) b f).trans ?_
          rw [hlook', hcap]
        · have hst := statusAnswer_dark (s := answerIn b bytes f u s) hline u.slot f.payload
          rw [hkd]
          show upstreamStatus b f (capture .status f (some u.slot) (statusAnswer u.slot f.payload (answerIn b bytes f u s))) = _
          have hlook' : (lookup .up .status f ({ answerIn b bytes f u s with ctx := (capture .status f (some u.slot) s).ctx } : State)).1 = a :=
            (congrArg Prod.fst (lookup_tables (s := s) rfl ..)).trans hlook
          rw [hst, answerIn_capture, upstreamStatus_eq, hlook']
      rw [hd] at hx
      have hwv : ({ answerIn b bytes f u s with ctx := w.ctx } : State) = { w with
          slots := sl, pool := w.pool.set b ⟨some f, 0⟩, ports := { p with segment := { p.segment with staged := bytes } } } := by
        rw [hv', hwx]
      obtain ⟨h1, h2, h3⟩ := left_forwarded (s := w) (f := f) (b := b) (a := a) (by rw [hwx]; exact hfree) hwv hst rfl
      have hwl : w.seg.left = g := by rw [hwx]; exact hleft
      have hwq : w.queues = s.queues := by rw [hwx]
      have hwp : w.pool = s.pool := by rw [hwx]
      have hwa : w.au = s.au := by rw [hwx]
      rw [hwl, hwq] at h2
      rw [hwl, hwa] at h3
      rw [hwl] at h1
      rw [hwp] at h2
      refine ⟨hwx, fun ha => ⟨_, hx, h1 ha⟩, fun ha hl => ⟨b, hfree, ?_⟩, fun ha hl => ⟨_, hx, h3 ha (by rw [hwq]; exact hl)⟩⟩
      rw [hx, h2 ha hl]

end Sys2Proof.Machine
end

section
/-! PROOFS. A request taken from a link (O29). -/

namespace Sys2Proof.Machine

open Sys2Proof.Safety

/-! ## A frame taken from a full-duplex link -/

/-- How a frame of a link arrives. -/
def linkArrival : Link → Arrival
  | .trunk => .trunk
  | .service => .service

/-- The counters while a link's bytes are held for their frame. -/
def stagedPorts (l : Link) (bytes : List Byte) (p : Ports) : Ports :=
  match l with
  | .trunk => { p with trunk := { p.trunk with staged := bytes } }
  | .service => { p with service := { p.service with staged := bytes } }

/-- The counters after one good frame of a link. -/
def linkGood (l : Link) (p : Ports) : Ports :=
  match l with
  | .trunk => { p with trunk := { p.trunk with
      staged := [], good := if p.trunk.good < 65535 then p.trunk.good + 1 else p.trunk.good } }
  | .service => { p with service := { p.service with
      staged := [], good := if p.service.good < 65535 then p.service.good + 1 else p.service.good } }

/-- The state in which a link's frame stands in buffer `b`. -/
def linkFrameIn (l : Link) (b : BufId) (bytes : List Byte) (f : Frame) (s : State) : State :=
  { s with pool := s.pool.set b ⟨some f, 0⟩, ports := stagedPorts l bytes (linkGood l s.ports) }

theorem stage_link (l : Link) (bytes : List Byte) (s : State) :
    stage (Link.origin l).port bytes s = { s with ports := stagedPorts l bytes s.ports } := by
  cases l <;> rfl

theorem stagedPorts_taken (l : Link) (bytes : List Byte) (p : Ports) :
    stagedPorts l [] (stagedPorts l bytes (linkGood l p)) = linkGood l p := by
  cases l <;> rfl

theorem stage_taken (l : Link) (bytes : List Byte) {s : State} {p : Ports} (h : s.ports = stagedPorts l bytes (linkGood l p)) :
    stage (Link.origin l).port [] s = { s with ports := linkGood l p } := by
  rw [stage_link, h, stagedPorts_taken]

theorem exec_linkFrame (l : Link) {s : State} (h : s.phase = .running) (bytes : List Byte) : exec (.receiveFrame (linkArrival l) bytes) s =
    .next (finish (stage (Link.origin l).port [] (receiveOn l bytes (stage (Link.origin l).port bytes s)))) := by
  cases l with
  | trunk => exact exec_trunkFrame h bytes
  | service => exact exec_serviceFrame h bytes

/-- A frame that its link accepts, where more buffers than those held back are free. -/
theorem receiveOn_taken {l : Link} {bytes : List Byte} {f : Frame} {s : State} (h : parseFrame bytes = some f)
    (ha : linkAccepts l f s = true) (hb : 8 < (freeBufs s).length) : ∃ b : BufId, s.pool[b].frame = none ∧
    receiveOn l bytes (stage (Link.origin l).port bytes s) = handOver l b f (linkFrameIn l b bytes f s) := by
  have hne : freeBufs s ≠ [] := fun h0 => by
    rw [h0] at hb
    cases hb
  obtain ⟨b, hfree, halloc⟩ := alloc_free (f := f) (s := { s with ports := stagedPorts l bytes s.ports }) hne
  refine ⟨b, hfree, ?_⟩
  have ht : takeIn (Link.origin l).port f { s with ports := stagedPorts l bytes s.ports } = (some b, linkFrameIn l b bytes f s) := by
    unfold takeIn
    rw [if_pos (by exact hb), halloc]
    cases l <;> rfl
  have ha' : linkAccepts l f { s with ports := stagedPorts l bytes s.ports } = true := by
    cases l <;> exact ha
  rw [stage_link]
  exact receiveOn_handedOver h ha' ht

theorem freeBufs_frames {s t : State} (h : ∀ b : BufId, t.pool[b].frame = s.pool[b].frame) : freeBufs t = freeBufs s := by
  unfold freeBufs
  exact List.filter_congr fun b _ => by rw [h]

theorem queueReply_staged (r : BuiltReply) (l : Link) (bytes : List Byte) (p : Ports) (s : State) :
    stage (Link.origin l).port [] (queueReply r { s with ports := stagedPorts l bytes (linkGood l p) }) =
      queueReply r { s with ports := linkGood l p } := by
  have h1 := queueReply_withPorts r (stagedPorts l bytes (linkGood l p)) s
  have h2 := queueReply_withPorts r (linkGood l p) s
  rw [h2, h1, stage_taken l bytes rfl]

/-! ## The request (R117, R118) -/

section
variable {o : Origin} {f : Frame} {s : State}

theorem takeRequest_idle (h : (s.ma.origin o).state = .idle) :
    takeRequest o f s = updOrigin o (fun r => { r with state := .waiting, req := some ⟨f.payload, f.src, f.seq⟩ }) s := if_pos h

theorem busyWaits_iff : (s.ma.replies.any fun r => decide (r.origin = o) && r.busy) = true ↔ ∃ r ∈ s.ma.replies, r.origin = o ∧ r.busy = true := by
  simp only [List.any_eq_true, Bool.and_eq_true, decide_eq_true_eq]

theorem takeRequest_discarded (h : (s.ma.origin o).state ≠ .idle) (hb : ∃ r ∈ s.ma.replies, r.origin = o ∧ r.busy = true) :
    takeRequest o f s = s := (if_neg h).trans (if_pos (busyWaits_iff.2 hb))

theorem takeRequest_busy (h : (s.ma.origin o).state ≠ .idle) (hb : ∀ r ∈ s.ma.replies, r.origin = o → r.busy = false) :
    takeRequest o f s = queueReply ⟨o, true, false,
      ⟨f.src, s.tables.settings.mgmtAddr, .mgmtReply, f.seq, [f.payload.getD 0 0, 1, 0]⟩⟩ s := by
  refine (if_neg h).trans (if_neg fun hx => ?_)
  obtain ⟨r, hr, ho, hbusy⟩ := busyWaits_iff.1 hx
  exact Bool.false_ne_true ((hb r hr ho).symm.trans hbusy)

end

/-- The request that a link hands over, with the link's counters as they then stand. -/
theorem exec_request {l : Link} {bytes : List Byte} {f : Frame} {s : State} (hp : s.phase = .running) (h : parseFrame bytes = some f)
    (hk : f.kind = .mgmtReq) (ha : linkAccepts l f s = true) (hb : 8 < (freeBufs s).length) :
    ∃ t, SameBut s.slots (linkGood l s.ports) s.seg s t ∧ exec (.receiveFrame (linkArrival l) bytes) s =
      .next (finish (stage (Link.origin l).port [] (takeRequest (Link.origin l) f
        { t with ports := stagedPorts l bytes (linkGood l s.ports) }))) := by
  obtain ⟨b, hfree, hx⟩ := receiveOn_taken (l := l) h ha hb
  have hd : handOver l b f (linkFrameIn l b bytes f s) = takeRequest (Link.origin l) f (reclaim b (linkFrameIn l b bytes f s)) :=
    if_neg (by rw [hk]; decide)
  refine ⟨_, ⟨(reclaim b { s with pool := s.pool.set b ⟨some f, 0⟩ }).pool, fun c => reclaim_fresh_frame hfree, rfl⟩, ?_⟩
  rw [exec_linkFrame l hp, hx, hd]
  rfl

/-- Settles O29, by the state of the request's origin. -/
theorem requestTaken : Obligations.RequestTaken := by
  unfold Obligations.RequestTaken
  intro s bytes f g o a p hp hf hk hb hlink hg
  obtain ⟨l, ho, harr, hacc, hports⟩ : ∃ l : Link, o = Link.origin l ∧ a = linkArrival l ∧ linkAccepts l f s = true ∧ p = linkGood l s.ports := by
    rcases hlink with ⟨ho, ha, hdst, hp⟩ | ⟨ho, ha, hp⟩
    · exact ⟨.trunk, ho, ha, (linkAccepts_trunk_request hk).trans (decide_eq_true hdst), hp⟩
    · exact ⟨.service, ho, ha, decide_eq_true hk, hp⟩
  subst harr hports
  obtain ⟨t, ht, hx⟩ := exec_request (l := l) hp hf hk hacc hb
  obtain ⟨pl, hpl, rfl⟩ := ht
  subst ho
  refine ⟨fun hidle => ?idle, fun hbusy => ⟨fun hw => ?discarded, fun hn => ⟨?queued, fun hr ho => ?placed, fun hr ho => ?kept⟩⟩⟩
  case idle =>
    rw [hx, takeRequest_idle (s := { s with pool := pl, ports := _ }) hidle]
    cases l
    · exact ⟨_, rfl, pl, hpl, rfl⟩
    · exact ⟨_, rfl, pl, hpl, rfl⟩
  case discarded =>
    rw [hx, takeRequest_discarded (s := { s with pool := pl, ports := _ }) hbusy hw, stage_taken l bytes rfl]
    exact ⟨_, rfl, pl, hpl, rfl⟩
  all_goals
    have hq : exec (.receiveFrame (linkArrival l) bytes) s = .next (finish (queueReply ⟨Link.origin l, true, false, g⟩
        { s with pool := pl, ports := linkGood l s.ports })) := by
      rw [hx, takeRequest_busy (s := { s with pool := pl, ports := _ }) hbusy hn, hg]
      exact congrArg (fun x => Host.Outcome.next (finish x)) (queueReply_staged _ l bytes s.ports { s with pool := pl })
    have hne : freeBufs { s with pool := pl, ports := linkGood l s.ports } ≠ [] := fun h0 => by
      rw [freeBufs_frames (s := s) hpl] at h0
      rw [h0] at hb
      cases hb
  case queued => exact ⟨_, hq, pl, hpl, rfl⟩
  case placed =>
    obtain ⟨b, hfree, hy⟩ := queueReply_placed (r := ⟨Link.origin l, true, false, g⟩)
      (s := { s with pool := pl, ports := linkGood l s.ports }) hne hr ho
    refine ⟨b, pl.set b ⟨some g, 1⟩, (hpl b).symm.trans hfree, set_same .., fun c hc => ?_, ?_⟩
    · rw [set_other _ hc, hpl]
    · rw [hq, hy]
      rfl
  case kept =>
    refine ⟨_, hq, ?_⟩
    rw [queueReply_kept (s := { s with pool := pl, ports := linkGood l s.ports }) (.inr ⟨hr, ho⟩)]
    exact ⟨pl, hpl, rfl⟩

end Sys2Proof.Machine
end

section
/-! PROOFS. A DATA frame of the trunk on its way to the segment (O28). -/

namespace Sys2Proof.Machine

open Sys2Proof.Safety

/-! ## The lookup (R120) -/

theorem FwdRule.covers_iff {d : Direction} {kind : RuleKind} {f : Frame} {r : FwdRule} : FwdRule.covers d kind f r = true ↔
    r.enable = true ∧ r.dir = d ∧ r.kind = kind ∧ r.dstLow.toNat ≤ f.dst.toNat ∧ f.dst.toNat ≤ r.dstHigh.toNat ∧
      r.srcLow.toNat ≤ f.src.toNat ∧ f.src.toNat ≤ r.srcHigh.toNat ∧
      (f.payload = [] ∧ r.typeMask = 0 ∨ ∃ b bs, f.payload = b :: bs ∧ b &&& r.typeMask = r.typeValue &&& r.typeMask) := by
  unfold FwdRule.covers
  cases f.payload with
  | nil => simp [and_assoc]
  | cons b bs => simp [and_assoc]

section
variable {d : Direction} {kind : RuleKind} {f : Frame} {s : State}

theorem lookup_first {n : Fin 48} (h : FwdRule.covers d kind f s.tables.fwd[n] = true)
    (hlow : ∀ m : Fin 48, m < n → FwdRule.covers d kind f s.tables.fwd[m] = false) :
    lookup d kind f s = ((s.tables.fwd[n]).action, (s.tables.fwd[n]).capture) := by
  have hf : s.tables.fwd.toList.find? (FwdRule.covers d kind f) = some s.tables.fwd[n] := by
    rw [toList_eq_map, List.find?_map, find_finRange (p := FwdRule.covers d kind f ∘ fun i => s.tables.fwd[i]) (i := n) h hlow]
    rfl
  unfold lookup
  rw [hf]

theorem lookup_default (h : ∀ n : Fin 48, FwdRule.covers d kind f s.tables.fwd[n] = false) :
    (d = .down → lookup d kind f s = (s.tables.settings.downDefault.action, false)) ∧
    (d = .up → lookup d kind f s = (s.tables.settings.upDefault.action, false)) := by
  have hn : s.tables.fwd.toList.find? (FwdRule.covers d kind f) = none := by
    rw [toList_eq_map, List.find?_map, Option.map_eq_none_iff, List.find?_eq_none]
    exact fun j _ => Bool.eq_false_iff.1 (h j)
  unfold lookup
  rw [hn]
  refine ⟨?_, ?_⟩ <;> rintro rfl <;> rfl

end

theorem DefaultAction.action_eq (x : DefaultAction) : x.action = if x = .forward then .forward else .drop := by
  cases x <;> rfl

theorem isStation_iff {a : Byte} : isStation a = true ↔ 1 ≤ a.toNat ∧ a.toNat ≤ 0xEF := by
  unfold isStation
  rw [Bool.and_eq_true, decide_eq_true_iff, decide_eq_true_iff]

/-! ## The frame in its buffer -/

section
variable {l : Link} {b : BufId} {bytes : List Byte} {f : Frame} {w : State}

/-- A frame that nothing keeps. -/
theorem taken_dropped (hb : w.pool[b].frame = none) : SameBut w.slots (linkGood l w.ports) w.seg w
    (stage (Link.origin l).port [] (reclaim b (linkFrameIn l b bytes f w))) := by
  rw [stage_taken l bytes (p := w.ports) rfl]
  exact ⟨(reclaim b { w with pool := w.pool.set b ⟨some f, 0⟩ }).pool, fun c => reclaim_fresh_frame hb, rfl⟩

theorem pool_kept : vmod (vmod (w.pool.set b ⟨some f, 0⟩) b (fun x => { x with refs := x.refs + 1 })) b
    (fun x => if x.refs = 0 then ⟨none, 0⟩ else x) = w.pool.set b ⟨some f, 1⟩ := by
  rw [vmod_set, vmod_set]
  rfl

/-- A frame whose buffer one queue entry keeps. -/
theorem taken_queued {q : Queues} {v : State} (h : v = addRef b { linkFrameIn l b bytes f w with queues := q }) :
    stage (Link.origin l).port [] (reclaim b v) = { w with
      pool := w.pool.set b ⟨some f, 1⟩, queues := q, ports := linkGood l w.ports } := by
  rw [h, stage_taken l bytes (p := w.ports) rfl, ← pool_kept]
  rfl

/-- Another buffer than the frame's own is free too. -/
theorem freeBufs_taken (h : 1 < (freeBufs w).length) : freeBufs (linkFrameIn l b bytes f w) ≠ [] := by
  intro h0
  have hsub : freeBufs w ⊆ [b] := fun c hc => by
    rw [List.mem_singleton]
    by_contra hne
    have hc' : c ∈ freeBufs (linkFrameIn l b bytes f w) := by
      unfold freeBufs at hc ⊢
      rw [List.mem_filter] at hc ⊢
      refine ⟨hc.1, ?_⟩
      show ((w.pool.set b ⟨some f, 0⟩)[c]).frame.isNone = true
      rw [set_other _ hne]
      exact hc.2
    rw [h0] at hc'
    cases hc'
  have hn : (freeBufs w).Nodup := (List.nodup_finRange 64).filter _
  have hle := (List.subperm_of_subset hn hsub).length_le
  rw [List.length_singleton] at hle
  omega

/-- A frame that is refused: its REFUSE in a buffer of its own. -/
theorem taken_refused {r : RefuseReason} (hb : w.pool[b].frame = none) (hf : 8 < (freeBufs w).length) (ht : w.queues.trunk.length < 48) :
    Refused r f (linkGood l w.ports) w (stage (Link.origin l).port [] (reclaim b (refuse r f (linkFrameIn l b bytes f w)))) := by
  obtain ⟨c, hc, he⟩ := refuse_placed r f (s := linkFrameIn l b bytes f w) (freeBufs_taken (by omega)) ht
  have hcb : c ≠ b := by
    rintro rfl
    have h2 : ((w.pool.set c ⟨some f, 0⟩)[c]).frame = none := hc
    rw [set_same] at h2
    cases h2
  have hc' : w.pool[c].frame = none := by
    rw [← set_other w.pool hcb ⟨some f, 0⟩]
    exact hc
  refine ⟨c, (stage (Link.origin l).port [] (reclaim b (refuse r f (linkFrameIn l b bytes f w)))).pool, hc', ?_, fun d hd => ?_, ?_⟩
  all_goals rw [he, stage_taken l bytes (p := w.ports) rfl]
  · show (vmod (vmod ((w.pool.set b ⟨some f, 0⟩).set c _) c _) b _)[c] = _
    rw [vmod_other _ hcb, vmod_set, set_same]
    rfl
  · show ((vmod (vmod ((w.pool.set b ⟨some f, 0⟩).set c _) c _) b (fun x => if x.refs = 0 then ⟨none, 0⟩ else x))[d]).frame = _
    rw [vmod_set]
    by_cases hdb : d = b
    · subst hdb
      rw [vmod_same, set_other _ hd, set_same, hb]
      rfl
    · rw [vmod_other _ hdb, set_other _ hd, set_other _ hdb]
  · rfl

end

/-! ## The gate of a station (R122) -/

section
variable {a : FwdAction} {b : BufId} {f : Frame} {s : State}

theorem line_isGood (h : s.lm.line = .up ∨ s.lm.line = .dip) : s.lm.line.good = true := by
  rcases h with h | h <;> rw [h] <;> rfl

theorem gateStation_dark (h : s.lm.line = .gap ∨ s.lm.line = .settle) : gateStation a b f s = refuse .notReady f s := by
  unfold gateStation
  rw [line_notGood h]
  rfl

theorem gateStation_running (h : s.lm.line = .up ∨ s.lm.line = .dip)
    (hr : ∀ k : SlotId, s.tables.slots[k].enabled = true → s.tables.slots[k].addr = f.dst → s.slots[k].state = .running) :
    gateStation a b f s = toOutbound b f s := by
  unfold gateStation
  rw [line_isGood h]
  refine (if_neg Bool.false_ne_true).trans ?_
  cases hk : boundSlot f.dst s with
  | none => rfl
  | some k =>
    have hp := List.find?_some hk
    rw [Bool.and_eq_true, decide_eq_true_iff] at hp
    exact if_pos (hr k hp.1 hp.2)

/-- The slot that alone is bound to the destination decides. -/
theorem gateStation_bound {k : SlotId} (h : s.lm.line = .up ∨ s.lm.line = .dip) (he : s.tables.slots[k].enabled = true)
    (ha : s.tables.slots[k].addr = f.dst) (hu : ∀ j : SlotId, s.tables.slots[j].enabled = true → s.tables.slots[j].addr = f.dst → j = k)
    (hn : s.slots[k].state ≠ .running) : gateStation a b f s =
      if holds a k s then if holdRoom k s then pushHold k b s else refuse .holdFull f s else refuse .notReady f s := by
  have hk : boundSlot f.dst s = some k :=
    (boundSlot_iff fun i j hi hj hia hja => (hu i hi hia).trans (hu j hj hja).symm).2 ⟨he, ha⟩
  unfold gateStation
  rw [line_isGood h, hk]
  exact (if_neg Bool.false_ne_true).trans (if_neg hn)

section
variable {k : SlotId} (h : s.lm.line = .up ∨ s.lm.line = .dip) (he : s.tables.slots[k].enabled = true)
  (ha : s.tables.slots[k].addr = f.dst) (hu : ∀ j : SlotId, s.tables.slots[j].enabled = true → s.tables.slots[j].addr = f.dst → j = k)
  (hn : s.slots[k].state ≠ .running)
include h he ha hu hn

theorem gateStation_held (hh : holds a k s = true) (hr : holdRoom k s = true) : gateStation a b f s = pushHold k b s := by
  rw [gateStation_bound h he ha hu hn, if_pos hh, if_pos hr]

theorem gateStation_full (hh : holds a k s = true) (hr : ¬ holdRoom k s = true) : gateStation a b f s = refuse .holdFull f s := by
  rw [gateStation_bound h he ha hu hn, if_pos hh, if_neg hr]

theorem gateStation_unheld (hh : ¬ holds a k s = true) : gateStation a b f s = refuse .notReady f s := by
  rw [gateStation_bound h he ha hu hn, if_neg hh]

end

theorem holds_iff {k : SlotId} : holds a k s = true ↔ a = .forward ∧ s.slots[k].state.restoring = true ∧
    ∃ c, s.slots[k].cls = some c ∧ (s.tables.classes[c]).holdEnable = true := by
  unfold holds classOf
  rw [Bool.and_eq_true, Bool.and_eq_true, decide_eq_true_iff]
  cases s.slots[k].cls with
  | none => simp
  | some c =>
    simp only [Option.map_some, Option.any_some, Option.some.injEq, exists_eq_left']
    exact and_comm

theorem holdRoom_iff {k : SlotId} : holdRoom k s = true ↔ s.queues.hold[k].length < s.tables.settings.holdDepth := decide_eq_true_iff

theorem restoring_notRunning {x : SlotState} (h : x.restoring = true) : x ≠ .running := by
  rintro rfl
  cases h

theorem restoring_not {x : SlotState} (h : x = .dark ∨ x = .absent ∨ x = .backoff ∨ x = .failed) : x ≠ .running ∧ x.restoring = false := by
  rcases h with rfl | rfl | rfl | rfl <;> exact ⟨by decide, rfl⟩

theorem outFull_iff : outFull s = true ↔ 32 ≤ s.queues.out.length := decide_eq_true_iff

end

/-! ## The copies of a group's frame (R116, R123) -/

/-- What the copies for the slots `l` make of `s`: one hold entry each, or one more missed frame where its hold queue is full. -/
structure Copied (b : BufId) (l : List SlotId) (s t : State) : Prop where
  rest : t = { s with slots := t.slots, queues := { s.queues with hold := t.queues.hold }, pool := t.pool }
  hold : ∀ k : SlotId, t.queues.hold[k] = if k ∈ l ∧ holdRoom k s = true then s.queues.hold[k] ++ [b] else s.queues.hold[k]
  slots : ∀ k : SlotId, t.slots[k] = if k ∈ l ∧ holdRoom k s = false then { s.slots[k] with
    holdMissed := if s.slots[k].holdMissed < 255 then s.slots[k].holdMissed + 1 else s.slots[k].holdMissed } else s.slots[k]
  own : t.pool[b] = ⟨s.pool[b].frame, s.pool[b].refs + l.countP (fun k => holdRoom k s)⟩
  other : ∀ c : BufId, c ≠ b → t.pool[c] = s.pool[c]

theorem Copied.none (b : BufId) (s : State) : Copied b [] s s where
  rest := rfl
  hold _ := (if_neg fun h => absurd h.1 List.not_mem_nil).symm
  slots _ := (if_neg fun h => absurd h.1 List.not_mem_nil).symm
  own := rfl
  other _ _ := rfl

theorem Copied.one (b : BufId) (k : SlotId) (s : State) : Copied b [k] s (holdCopy b k s) := by
  unfold holdCopy
  cases hr : holdRoom k s with
  | true =>
    rw [if_pos rfl]
    refine ⟨rfl, fun j => ?_, fun j => ?_, ?_, fun c hc => vmod_other _ hc _⟩
    · show (vmod s.queues.hold k _)[j] = _
      by_cases hj : j = k
      · subst hj
        rw [vmod_same, if_pos ⟨List.mem_singleton_self _, hr⟩]
      · rw [vmod_other _ hj, if_neg fun h => hj (List.mem_singleton.1 h.1)]
    · refine (if_neg ?_).symm
      rintro ⟨hj, hf⟩
      rw [List.mem_singleton.1 hj, hr] at hf
      cases hf
    · show (vmod s.pool b _)[b] = _
      rw [vmod_same, List.countP_cons_of_pos (p := fun k => holdRoom k s) hr]
      rfl
  | false =>
    rw [if_neg Bool.false_ne_true]
    refine ⟨rfl, fun j => ?_, fun j => ?_, ?_, fun c hc => rfl⟩
    · refine (if_neg ?_).symm
      rintro ⟨hj, hf⟩
      rw [List.mem_singleton.1 hj, hr] at hf
      cases hf
    · show (vmod s.slots k _)[j] = _
      by_cases hj : j = k
      · subst hj
        rw [vmod_same, if_pos ⟨List.mem_singleton_self _, hr⟩]
        rfl
      · rw [vmod_other _ hj, if_neg fun h => hj (List.mem_singleton.1 h.1)]
    · rw [List.countP_cons_of_neg (p := fun k => holdRoom k s) (by rw [hr]; decide)]
      rfl

theorem Copied.cons {b : BufId} {k : SlotId} {l : List SlotId} {s t u : State} (h1 : Copied b [k] s t) (h2 : Copied b l t u) (hk : k ∉ l) :
    Copied b (k :: l) s u := by
  have hroom : ∀ j ∈ l, holdRoom j t = holdRoom j s := fun j hj => by
    have hjk : j ≠ k := fun e => hk (e ▸ hj)
    unfold holdRoom
    rw [h1.hold, if_neg fun h => hjk (List.mem_singleton.1 h.1), h1.rest]
  refine ⟨?_, fun j => ?_, fun j => ?_, ?_, fun c hc => (h2.other c hc).trans (h1.other c hc)⟩
  · have h := h2.rest
    rw [h1.rest] at h
    exact h
  · rw [h2.hold, h1.hold]
    by_cases hj : j ∈ l
    · have hjk : j ≠ k := fun e => hk (e ▸ hj)
      simp [hj, hjk, hroom j hj]
    · simp [hj]
  · rw [h2.slots, h1.slots]
    by_cases hj : j ∈ l
    · have hjk : j ≠ k := fun e => hk (e ▸ hj)
      simp [hj, hjk, hroom j hj]
    · simp [hj]
  · have hc : l.countP (fun k => holdRoom k t) = l.countP (fun k => holdRoom k s) := List.countP_congr fun j hj => by rw [hroom j hj]
    rw [h2.own, h1.own, hc, List.countP_cons (l := l), List.countP_cons, List.countP_nil]
    exact congrArg (Buffer.mk _) (by dsimp only; omega)

theorem holdCopies_copied (b : BufId) : ∀ (l : List SlotId) (s : State), l.Nodup → Copied b l s (l.foldl (fun s k => holdCopy b k s) s)
  | [], s, _ => Copied.none b s
  | k :: l, s, h => (Copied.one b k s).cons (holdCopies_copied b l _ (List.nodup_cons.1 h).2) (List.nodup_cons.1 h).1


/-- The state from which the copies are made: the outbound entry, or the segment's overrun. -/
def groupSent (b : BufId) (s : State) : State := if outFull s then countOverrun .segment s else pushOut b s

theorem gateGroup_dark {a : FwdAction} {b : BufId} {f : Frame} {s : State} (h : s.lm.line = .gap ∨ s.lm.line = .settle) :
    gateGroup a b f s = s := by
  unfold gateGroup
  rw [line_notGood h]
  rfl

theorem gateGroup_copied {a : FwdAction} {b : BufId} {f : Frame} {s : State} {copies : SlotId → Bool} (h : s.lm.line = .up ∨ s.lm.line = .dip)
    (hc : ∀ k : SlotId, copies k = (isMember f.dst k s && holds a k s)) :
    Copied b (slotIds.filter copies) (groupSent b s) (gateGroup a b f s) := by
  have he : gateGroup a b f s = (slotIds.filter copies).foldl (fun s k => holdCopy b k s) (groupSent b s) := by
    unfold gateGroup
    rw [line_isGood h]
    refine (if_neg Bool.false_ne_true).trans ?_
    rw [show copies = fun k => isMember f.dst k s && holds a k s from funext hc]
    rfl
  rw [he]
  exact holdCopies_copied b _ _ ((List.nodup_finRange 32).filter _)

theorem groupSent_room {b : BufId} {s : State} (h : s.queues.out.length < 32) : groupSent b s = pushOut b s :=
  if_neg fun hx => absurd (outFull_iff.1 hx) (Nat.not_le.2 h)

theorem groupSent_full {b : BufId} {s : State} (h : 32 ≤ s.queues.out.length) : groupSent b s = countOverrun .segment s :=
  if_pos (outFull_iff.2 h)

section
variable {b : BufId} {bytes : List Byte} {f : Frame} {w : State}

theorem groupSent_holdRoom (k : SlotId) : holdRoom k (groupSent b (linkFrameIn .trunk b bytes f w)) = holdRoom k w := by
  unfold groupSent
  split <;> rfl

theorem groupSent_hold (k : SlotId) : (groupSent b (linkFrameIn .trunk b bytes f w)).queues.hold[k] = w.queues.hold[k] := by
  unfold groupSent
  split <;> rfl

theorem groupSent_slots (k : SlotId) : (groupSent b (linkFrameIn .trunk b bytes f w)).slots[k] = w.slots[k] := by
  unfold groupSent
  split <;> rfl

theorem groupSent_own : (groupSent b (linkFrameIn .trunk b bytes f w)).pool[b] = ⟨some f, if w.queues.out.length < 32 then 1 else 0⟩ := by
  by_cases h : w.queues.out.length < 32
  · rw [groupSent_room (s := linkFrameIn .trunk b bytes f w) h, if_pos h]
    show (vmod (w.pool.set b _) b _)[b] = _
    rw [vmod_same, set_same]
  · rw [groupSent_full (s := linkFrameIn .trunk b bytes f w) (Nat.not_lt.1 h), if_neg h]
    exact set_same ..

theorem groupSent_other {c : BufId} (hc : c ≠ b) : (groupSent b (linkFrameIn .trunk b bytes f w)).pool[c] = w.pool[c] := by
  by_cases h : w.queues.out.length < 32
  · rw [groupSent_room (s := linkFrameIn .trunk b bytes f w) h]
    show (vmod (w.pool.set b _) b _)[c] = _
    rw [vmod_other _ hc, set_other _ hc]
  · rw [groupSent_full (s := linkFrameIn .trunk b bytes f w) (Nat.not_lt.1 h)]
    exact set_other _ hc _

/-- The buffer of a frame, once its reception is over. -/
theorem reclaim_own (b : BufId) (s : State) : (reclaim b s).pool[b] = if s.pool[b].refs = 0 then ⟨none, 0⟩ else s.pool[b] := vmod_same ..

end

theorem reclaim_counted {b : BufId} {f : Frame} {n : Nat} {s : State} (h : s.pool[b] = ⟨some f, n⟩) :
    (reclaim b s).pool[b].refs = n ∧ (reclaim b s).pool[b].frame = if (reclaim b s).pool[b].refs = 0 then none else some f := by
  rw [reclaim_own, h]
  cases n <;> exact ⟨rfl, rfl⟩

/-- What stands once a group's frame is sent and copied. -/
theorem group_taken {b : BufId} {bytes : List Byte} {f : Frame} {w G : State} {copies : SlotId → Bool}
    (hG : Copied b (slotIds.filter copies) (groupSent b (linkFrameIn .trunk b bytes f w)) G) {t : State}
    (ht : t = stage (Link.origin .trunk).port [] (reclaim b G) := by rfl) :
    t = { w with slots := t.slots, queues := t.queues, pool := t.pool, ports := t.ports, au := t.au } ∧
    t.queues.trunk = w.queues.trunk ∧ t.queues.service = w.queues.service ∧
    (w.queues.out.length < 32 → t.queues.out = w.queues.out ++ [b] ∧ t.ports = linkGood .trunk w.ports ∧ t.au = w.au) ∧
    (32 ≤ w.queues.out.length → t.queues.out = w.queues.out ∧ t.au = w.au.report .overrun (.port .segment) none ∧
      t.ports = { linkGood .trunk w.ports with segment := { w.ports.segment with
        overrun := if w.ports.segment.overrun < 65535 then w.ports.segment.overrun + 1 else w.ports.segment.overrun } }) ∧
    (∀ k : SlotId, copies k = true → w.queues.hold[k].length < w.tables.settings.holdDepth →
      t.queues.hold[k] = w.queues.hold[k] ++ [b] ∧ t.slots[k] = w.slots[k]) ∧
    (∀ k : SlotId, copies k = true → w.tables.settings.holdDepth ≤ w.queues.hold[k].length →
      t.queues.hold[k] = w.queues.hold[k] ∧ t.slots[k] = { w.slots[k] with
        holdMissed := if w.slots[k].holdMissed < 255 then w.slots[k].holdMissed + 1 else w.slots[k].holdMissed }) ∧
    (∀ k : SlotId, copies k = false → t.queues.hold[k] = w.queues.hold[k] ∧ t.slots[k] = w.slots[k]) ∧
    t.pool[b].refs = (if w.queues.out.length < 32 then 1 else 0) +
      slotIds.countP (fun k => copies k && decide (w.queues.hold[k].length < w.tables.settings.holdDepth)) ∧
    t.pool[b].frame = (if t.pool[b].refs = 0 then none else some f) ∧ ∀ c : BufId, c ≠ b → t.pool[c] = w.pool[c] := by
  have hmem : ∀ k : SlotId, k ∈ slotIds.filter copies ↔ copies k = true := fun k => by
    rw [List.mem_filter]
    exact and_iff_right (mem_slotIds k)
  have hown := hG.own
  have hcount : ((slotIds.filter copies).countP fun k => holdRoom k (groupSent b (linkFrameIn .trunk b bytes f w))) =
      slotIds.countP fun k => copies k && decide (w.queues.hold[k].length < w.tables.settings.holdDepth) := by
    rw [List.countP_filter]
    refine List.countP_congr fun k _ => ?_
    rw [groupSent_holdRoom, Bool.and_comm]
    exact Iff.rfl
  rw [groupSent_own, hcount] at hown
  have hkept : ∀ k : SlotId, (k ∈ slotIds.filter copies ∧ holdRoom k w = true ∨ ¬ (k ∈ slotIds.filter copies ∧ holdRoom k w = false)) →
      t.slots[k] = w.slots[k] := fun k hk => by
    rw [ht]
    refine (hG.slots k).trans ((if_neg ?_).trans (groupSent_slots k))
    rw [groupSent_holdRoom]
    rintro ⟨h1, h2⟩
    rcases hk with hk | hk
    · rw [hk.2] at h2
      cases h2
    · exact hk ⟨h1, h2⟩
  have hstay : ∀ k : SlotId, ¬ (k ∈ slotIds.filter copies ∧ holdRoom k w = true) → t.queues.hold[k] = w.queues.hold[k] := fun k hk => by
    rw [ht]
    refine (hG.hold k).trans ((if_neg ?_).trans (groupSent_hold k))
    rwa [groupSent_holdRoom]
  have hsent : w.queues.out.length < 32 → G = { pushOut b (linkFrameIn .trunk b bytes f w) with
      slots := G.slots, queues := { (pushOut b (linkFrameIn .trunk b bytes f w)).queues with hold := G.queues.hold }, pool := G.pool } :=
    fun h => by
      rw [← groupSent_room (s := linkFrameIn .trunk b bytes f w) h]
      exact hG.rest
  have hover : 32 ≤ w.queues.out.length → G = { countOverrun .segment (linkFrameIn .trunk b bytes f w) with
      slots := G.slots, queues := { w.queues with hold := G.queues.hold }, pool := G.pool } := fun h => by
    have hr := hG.rest
    rw [groupSent_full (s := linkFrameIn .trunk b bytes f w) h] at hr
    exact hr
  refine ⟨?rest, ?trunk, ?service, fun hlen => ?sent, fun hlen => ?full, fun k hk hroom => ⟨?held, ?heldSlot⟩,
    fun k hk hroom => ⟨?missed, ?missedSlot⟩, fun k hk => ⟨?others, ?otherSlots⟩, ?refs, ?frame, fun d hd => ?pool⟩
  case rest =>
    rw [ht]
    rcases lt_or_ge w.queues.out.length 32 with hlen | hlen
    · rw [hsent hlen]
      rfl
    · rw [hover hlen]
      rfl
  case trunk =>
    rw [ht]
    rcases lt_or_ge w.queues.out.length 32 with hlen | hlen
    · rw [hsent hlen]
      rfl
    · rw [hover hlen]
      rfl
  case service =>
    rw [ht]
    rcases lt_or_ge w.queues.out.length 32 with hlen | hlen
    · rw [hsent hlen]
      rfl
    · rw [hover hlen]
      rfl
  case sent =>
    rw [ht, hsent hlen]
    exact ⟨rfl, rfl, rfl⟩
  case full =>
    rw [ht, hover hlen]
    exact ⟨rfl, rfl, rfl⟩
  case held =>
    rw [ht]
    refine (hG.hold k).trans ((if_pos ?_).trans (congrArg (· ++ [b]) (groupSent_hold k)))
    rw [groupSent_holdRoom]
    exact ⟨(hmem k).2 hk, decide_eq_true hroom⟩
  case heldSlot => exact hkept k (.inl ⟨(hmem k).2 hk, decide_eq_true hroom⟩)
  case missed => exact hstay k fun h => absurd (holdRoom_iff.1 h.2) (Nat.not_lt.2 hroom)
  case missedSlot =>
    rw [ht]
    refine (hG.slots k).trans ((if_pos ?_).trans ?_)
    · rw [groupSent_holdRoom]
      exact ⟨(hmem k).2 hk, decide_eq_false (Nat.not_lt.2 hroom)⟩
    · rw [groupSent_slots]
  case others => exact hstay k fun h => Bool.false_ne_true (hk.symm.trans ((hmem k).1 h.1))
  case otherSlots => exact hkept k (.inr fun h => Bool.false_ne_true (hk.symm.trans ((hmem k).1 h.1)))
  case refs =>
    rw [ht]
    exact (reclaim_counted hown).1
  case frame =>
    rw [ht]
    exact (reclaim_counted hown).2
  case pool =>
    rw [ht]
    exact (vmod_other _ hd _).trans ((hG.other d hd).trans (groupSent_other hd))

/-! ## The whole frame -/

/-- What the gate makes of a DATA frame by its action. -/
def gated (a : FwdAction) (b : BufId) (f : Frame) (s : State) : State :=
  if a = .drop then s else if isStation f.dst then gateStation a b f s else gateGroup a b f s

theorem downstream_gated {a : FwdAction} {cap : Bool} {b : BufId} {bytes : List Byte} {f : Frame} {s : State} {c : Vector CtxRecord 32}
    (hl : lookup .down .data f s = (a, cap)) (hc : ({ s with ctx := c } : State) = if cap then capture .dataDown f none s else s) :
    downstream b f (linkFrameIn .trunk b bytes f s) = gated a b f (linkFrameIn .trunk b bytes f { s with ctx := c }) := by
  have hl' : lookup .down .data f (linkFrameIn .trunk b bytes f s) = (a, cap) := (lookup_tables rfl ..).trans hl
  have hcap : (if cap then capture .dataDown f none (linkFrameIn .trunk b bytes f s) else linkFrameIn .trunk b bytes f s) =
      linkFrameIn .trunk b bytes f { s with ctx := c } := by
    have hctx : c = (if cap then capture .dataDown f none s else s).ctx := congrArg State.ctx hc
    rw [hctx]
    cases cap with
    | true => exact capture_same (s := s) (t := linkFrameIn .trunk b bytes f s) ⟨rfl, fun _ => rfl⟩ .dataDown f none rfl
    | false => rfl
  unfold downstream
  rw [hl']
  dsimp only
  rw [hcap]
  cases a <;> rfl

theorem exec_data {s : State} {bytes : List Byte} {f : Frame} {a : FwdAction} {cap : Bool} {c : Vector CtxRecord 32} (hp : s.phase = .running)
    (h : parseFrame bytes = some f) (hk : f.kind = .data) (hl : lookup .down .data f s = (a, cap))
    (hc : ({ s with ctx := c } : State) = if cap then capture .dataDown f none s else s) (hb : 8 < (freeBufs s).length) :
    ∃ b : BufId, s.pool[b].frame = none ∧ exec (.receiveFrame .trunk bytes) s = .next (finish (stage (Link.origin .trunk).port []
      (reclaim b (gated a b f (linkFrameIn .trunk b bytes f { s with ctx := c }))))) := by
  obtain ⟨b, hfree, hx⟩ := receiveOn_taken (l := .trunk) h (linkAccepts_trunk_data hk s) hb
  refine ⟨b, hfree, ?_⟩
  have hd : handOver .trunk b f (linkFrameIn .trunk b bytes f s) =
      reclaim b (gated a b f (linkFrameIn .trunk b bytes f { s with ctx := c })) :=
    (if_pos hk).trans (congrArg (reclaim b) (downstream_gated hl hc))
  exact (exec_linkFrame .trunk hp bytes).trans (congrArg (fun x => Host.Outcome.next (finish (stage (Link.origin .trunk).port [] x)))
    (hx.trans hd))

theorem gated_station {a : FwdAction} {b : BufId} {f : Frame} {s : State} (ha : a ≠ .drop) (hs : isStation f.dst = true) :
    gated a b f s = gateStation a b f s := (if_neg ha).trans (if_pos hs)

theorem gated_group {a : FwdAction} {b : BufId} {f : Frame} {s : State} (ha : a ≠ .drop) (hs : isStation f.dst = false) :
    gated a b f s = gateGroup a b f s := (if_neg ha).trans (if_neg (by rw [hs]; decide))

theorem captured_ctx {cap : Bool} {f : Frame} {s w : State} (h : w = if cap then capture .dataDown f none s else s) :
    w = { s with ctx := w.ctx } := by
  rw [h]
  cases cap with
  | true => exact capture_shape ..
  | false => rfl

/-- Settles O28: the gate by line, binding and room, copies by `holdCopies_copied`, the lookup by its lowest rule. -/
theorem stationFrameForwarded : Obligations.StationFrameForwarded := by
  unfold Obligations.StationFrameForwarded
  refine ⟨fun s w bytes f p a cap hrun hf hk hs hl ha hline hw hb hp => ?accepted,
    fun s w bytes f p a cap hrun hf hk hl hw hb hp => ⟨captured_ctx hw, ?judged⟩,
    fun s d kind f covers hcov => ⟨fun n hn hlow => ?lowest, fun hn => ?default⟩,
    fun s b f k a ha => ⟨fun cap hst hl => ?upData, fun hl => ?upStatus⟩, fun a => isStation_iff⟩
  case accepted =>
    obtain ⟨c, rfl⟩ : ∃ c, w = { s with ctx := c } := ⟨_, captured_ctx hw⟩
    subst hp
    obtain ⟨b, hfree, hx⟩ := exec_data hrun hf hk hl hw hb
    rw [gated_station ha hs] at hx
    refine ⟨fun hr hlen => ⟨b, hfree, ?_⟩, fun k c' hfw he hadr hu hre hcls hh hlen => ⟨b, hfree, ?_⟩⟩
    · rw [hx, gateStation_running (s := linkFrameIn .trunk b bytes f { s with ctx := c }) hline hr]
      refine congrArg (fun x => Host.Outcome.next (finish x)) (taken_queued (l := .trunk) (bytes := bytes) (w := { s with ctx := c }) ?_)
      exact if_neg fun h => absurd (outFull_iff.1 h) (Nat.not_le.2 hlen)
    · rw [hx, gateStation_held (s := linkFrameIn .trunk b bytes f { s with ctx := c }) hline he hadr hu (restoring_notRunning hre)
        (holds_iff.2 ⟨hfw, hre, c', hcls, hh⟩) (holdRoom_iff.2 hlen)]
      exact congrArg (fun x => Host.Outcome.next (finish x)) (taken_queued (l := .trunk) (w := { s with ctx := c }) rfl)
  case judged =>
    obtain ⟨c, rfl⟩ : ∃ c, w = { s with ctx := c } := ⟨_, captured_ctx hw⟩
    subst hp
    obtain ⟨b, hfree, hx⟩ := exec_data hrun hf hk hl hw hb
    refine ⟨fun ha => ⟨_, hx, ?_⟩, fun ha hs htr => ?station, fun ha hs => ?group⟩
    · rw [ha]
      exact taken_dropped (l := .trunk) (w := { s with ctx := c }) hfree
    case station =>
      rw [gated_station ha hs] at hx
      have href : ∀ r, gateStation a b f (linkFrameIn .trunk b bytes f { s with ctx := c }) =
          refuse r f (linkFrameIn .trunk b bytes f { s with ctx := c }) →
          ∃ t, exec (.receiveFrame .trunk bytes) s = .next (finish t) ∧
            Refused r f (linkGood .trunk s.ports) { s with ctx := c } t := fun r hr =>
        ⟨_, hx, hr ▸ taken_refused (l := .trunk) (w := { s with ctx := c }) hfree hb htr⟩
      refine ⟨fun h => href _ (gateStation_dark (s := linkFrameIn .trunk b bytes f { s with ctx := c }) h), fun h hfull hr => href _ ?_, fun k h he hadr hu => ⟨fun hst => href _ ?_,
        fun c' hre hcls => ⟨fun hno => href _ ?_, fun hfw hh hfull => href _ ?_⟩⟩⟩
      · rw [gateStation_running (s := linkFrameIn .trunk b bytes f { s with ctx := c }) h hr]
        exact if_pos (outFull_iff.2 hfull)
      · refine gateStation_unheld (s := linkFrameIn .trunk b bytes f { s with ctx := c }) h he hadr hu (restoring_not hst).1 fun hx => ?_
        have hre := (holds_iff.1 hx).2.1
        rw [show (linkFrameIn .trunk b bytes f { s with ctx := c }).slots = s.slots from rfl, (restoring_not hst).2] at hre
        cases hre
      · refine gateStation_unheld (s := linkFrameIn .trunk b bytes f { s with ctx := c }) h he hadr hu (restoring_notRunning hre) fun hx => ?_
        obtain ⟨hfw, -, c'', hc'', hh⟩ := holds_iff.1 hx
        obtain rfl : c' = c'' := Option.some.inj (hcls.symm.trans hc'')
        rcases hno with hno | hno
        · rw [hno] at hfw
          cases hfw
        · exact Bool.false_ne_true (hno.symm.trans hh)
      · exact gateStation_full (s := linkFrameIn .trunk b bytes f { s with ctx := c }) h he hadr hu (restoring_notRunning hre)
          (holds_iff.2 ⟨hfw, hre, c', hcls, hh⟩) fun hx => absurd (holdRoom_iff.1 hx) (Nat.not_lt.2 hfull)
    case group =>
      rw [gated_group ha hs] at hx
      refine ⟨fun h => ⟨_, hx, ?_⟩, fun copies h hcop => ?_⟩
      · rw [gateGroup_dark (s := linkFrameIn .trunk b bytes f { s with ctx := c }) h]
        exact taken_dropped (l := .trunk) (w := { s with ctx := c }) hfree
      have hsel : ∀ k : SlotId, copies k = (isMember f.dst k (linkFrameIn .trunk b bytes f { s with ctx := c }) &&
          holds a k (linkFrameIn .trunk b bytes f { s with ctx := c })) := fun k => by
        rw [Bool.eq_iff_iff, hcop, Bool.and_eq_true, isMember_iff, holds_iff]
        exact ⟨fun ⟨hfw, hre, he, hd, hc⟩ => ⟨⟨he, hd⟩, hfw, hre, hc⟩, fun ⟨⟨he, hd⟩, hfw, hre, hc⟩ => ⟨hfw, hre, he, hd, hc⟩⟩
      exact ⟨b, _, hfree, hx, group_taken (w := { s with ctx := c })
        (gateGroup_copied (b := b) (f := f) (s := linkFrameIn .trunk b bytes f { s with ctx := c }) h hsel)⟩
  case lowest =>
    refine lookup_first (FwdRule.covers_iff.2 ((hcov _).1 hn)) fun m hm => Bool.eq_false_iff.2 fun hx => hlow m hm ?_
    exact (hcov _).2 (FwdRule.covers_iff.1 hx)
  case default =>
    obtain ⟨hdown, hup⟩ := lookup_default (d := d) (kind := kind) (f := f) (s := s) fun m =>
      Bool.eq_false_iff.2 fun hx => hn m ((hcov _).2 (FwdRule.covers_iff.1 hx))
    refine ⟨fun hd => ?_, fun hd => ?_⟩
    · rw [hdown hd, ← DefaultAction.action_eq]
    · rw [hup hd, ← DefaultAction.action_eq]
  case upData =>
    rw [upstreamData_running hst, hl]
    refine if_neg fun hd => ?_
    rcases ha with rfl | rfl <;> cases hd
  case upStatus =>
    rw [upstreamStatus_eq]
    refine if_neg fun hd => ?_
    rcases ha with ha | ha <;> cases (ha.symm.trans hl.symm).trans hd

end Sys2Proof.Machine
end

section
/-! PROOFS. A STATUS (O32). -/

namespace Sys2Proof.Machine

open Sys2Proof.Safety

/-! ## The class and the image of a slot (R10, R13) -/

section
variable {k : SlotId} {s : State}

theorem classLookup_eq {code : Nat} {c : ClassId}
    (h : code < s.tables.settings.classCount ∧ c.val = code ∨ s.tables.settings.classCount ≤ code ∧ c = 0) : classLookup code s = c := by
  unfold classLookup
  rcases h with ⟨hlt, hc⟩ | ⟨hle, hc⟩
  · rw [dif_pos ⟨hlt, hc ▸ c.2⟩]
    exact Fin.ext hc.symm
  · rw [dif_neg fun hx => absurd hx.1 (Nat.not_lt.2 hle), hc]

theorem classMismatch_iff {code : Byte} : classMismatch k code s = true ↔ ∃ x, s.tables.slots[k].expClass = some x ∧ x ≠ code := by
  unfold classMismatch
  cases s.tables.slots[k].expClass with
  | none => simp
  | some x => simp

theorem classMismatch_not {code : Byte} (h : ∀ x, s.tables.slots[k].expClass = some x → x = code) : ¬ classMismatch k code s = true := by
  rw [classMismatch_iff]
  rintro ⟨x, hx, hne⟩
  exact hne (h x hx)

theorem setClass_kept {c : ClassId} (h : s.slots[k].cls = some c) : setClass k c s = s := if_pos h

theorem setClass_changed {c : ClassId} (h : s.slots[k].cls ≠ some c) : setClass k c s = { s with
    slots := s.slots.set k { s.slots[k] with cls := some c, retry := 0 }, ctx := s.ctx.set k (Vector.replicate 16 none) } := if_neg h

theorem setClass_cls (k : SlotId) (c : ClassId) (s : State) : (setClass k c s).slots[k].cls = some c := by
  by_cases h : s.slots[k].cls = some c
  · rw [setClass_kept h, h]
  · rw [setClass_changed h]
    exact congrArg SlotStatus.cls (set_same ..)

theorem imageOf_none {c : ClassId} (hc : s.slots[k].cls = some c) (ho : s.tables.slots[k].override = none)
    (hs : (s.tables.classes[c]).selector = none) : imageOf k s = none := by
  unfold imageOf classOf
  rw [ho, hc]
  exact hs

theorem imageOf_some {c : ClassId} {i : ImageId} (hc : s.slots[k].cls = some c) (h : s.tables.slots[k].override = some i ∨
    s.tables.slots[k].override = none ∧ (s.tables.classes[c]).selector = some i) : imageOf k s = some i := by
  unfold imageOf classOf
  rcases h with ho | ⟨ho, hs⟩
  · rw [ho]
  · rw [ho, hc]
    exact hs

/-! ## STALE (R15) -/

theorem judgeStale_expected {tag : Word32} (h : s.slots[k].expTag = some tag) :
    judgeStale k tag s = { s with slots := s.slots.set k { s.slots[k] with stale := false } } := if_pos h

theorem judgeStale_newly {tag : Word32} (h : s.slots[k].expTag ≠ some tag) (hs : s.slots[k].stale = false) : judgeStale k tag s = { s with
    slots := s.slots.set k { s.slots[k] with stale := true }, au := s.au.report .stale (.slot k) none } :=
  (if_neg h).trans (if_neg (by rw [hs]; decide))

theorem judgeStale_still {tag : Word32} (h : s.slots[k].expTag ≠ some tag) (hs : s.slots[k].stale = true) : judgeStale k tag s = s :=
  (if_neg h).trans (if_pos hs)

theorem judgeStale_eq {tag e : Word32} (h : s.slots[k].expTag = some e) : judgeStale k tag s = { s with
    slots := s.slots.set k { s.slots[k] with stale := decide (tag ≠ e) }
    au := if tag ≠ e ∧ s.slots[k].stale = false then s.au.report .stale (.slot k) none else s.au } := by
  by_cases ht : tag = e
  · subst ht
    rw [judgeStale_expected h, if_neg fun hx => hx.1 rfl, decide_eq_false fun hx => hx rfl]
  · have hn : s.slots[k].expTag ≠ some tag := fun hx => ht (Option.some.inj (hx.symm.trans h))
    rw [decide_eq_true ht]
    cases hs : s.slots[k].stale with
    | false => rw [judgeStale_newly hn hs, if_pos ⟨ht, rfl⟩]
    | true =>
      have hslot : ({ s.slots[k] with stale := true } : SlotStatus) = s.slots[k] := by rw [← hs]
      have hself : s.slots.set k s.slots[k] = s.slots := Vector.set_getElem_self k.2
      rw [judgeStale_still hn hs, if_neg fun hx => Bool.noConfusion hx.2, hslot, hself]

/-! ## The survivor return (R16) -/

theorem survive_noImage {tag : Word32} (h : imageOf k s = none) : survive k tag s = failSlot k .noImage s := by
  unfold survive
  rw [h]

theorem survive_invalid {tag : Word32} {i : ImageId} (h : imageOf k s = some i) (hv : s.tables.cat[i].valid = false) :
    survive k tag s = failSlot k .noImage s := by
  unfold survive
  rw [h]
  exact if_pos (by rw [hv]; rfl)

theorem survive_running {tag : Word32} {i : ImageId} (h : imageOf k s = some i) (hv : s.tables.cat[i].valid = true) :
    survive k tag s = { s with
      slots := s.slots.set k { s.slots[k] with
        state := .running, expTag := some s.tables.cat[i].tag, retry := 0, coldNext := false, reloadExpected := false
        reboot := s.slots[k].reboot, stale := decide (tag ≠ s.tables.cat[i].tag) }
      au := if tag ≠ s.tables.cat[i].tag ∧ s.slots[k].stale = false then s.au.report .stale (.slot k) none else s.au } := by
  have hj := judgeStale_eq (k := k) (tag := tag) (e := s.tables.cat[i].tag) (s := { s with slots := s.slots.set k { s.slots[k] with
    state := .running, expTag := some s.tables.cat[i].tag, retry := 0, coldNext := false, reloadExpected := false } })
    (congrArg SlotStatus.expTag (set_same ..))
  rw [set_same, set_set] at hj
  unfold survive
  rw [h]
  exact (if_neg (by rw [hv]; decide)).trans hj

end

/-! ## The answer -/

theorem restoring_cases {x : SlotState} (h : x.restoring = true) : x = .loading ∨ x = .starting ∨ x = .context := by
  revert h
  cases x <;> decide

section
variable {k : SlotId} {p : List Byte} {s : State}

theorem statusAnswer_alone (h : p.length < 6 ∨ s.lm.line = .gap ∨ s.lm.line = .settle) : statusAnswer k p s = s := by
  rcases h with h | h
  · exact if_neg fun hx => absurd hx.1 (Nat.not_le.2 h)
  · exact statusAnswer_dark h k p

variable (hl : 6 ≤ p.length) (hline : s.lm.line = .up ∨ s.lm.line = .dip)
include hl hline

theorem statusAnswer_taken : statusAnswer k p s = takeStatus k (p.getD 0 0) (rd32 p 1) s := if_pos ⟨hl, line_isGood hline⟩

theorem statusAnswer_running (h : s.slots[k].state = .running) : statusAnswer k p s = judgeStale k (rd32 p 1) s := by
  rw [statusAnswer_taken hl hline]
  unfold takeStatus
  rw [h]

theorem statusAnswer_restoring (h : s.slots[k].state.restoring = true) : statusAnswer k p s = failSlot k .protocol s := by
  rw [statusAnswer_taken hl hline]
  unfold takeStatus
  rcases restoring_cases h with h | h | h <;> rw [h]

theorem statusAnswer_ignored (h : s.slots[k].state = .backoff ∨ s.slots[k].state = .failed) : statusAnswer k p s = s := by
  rw [statusAnswer_taken hl hline]
  unfold takeStatus
  rcases h with h | h <;> rw [h]

theorem statusAnswer_away (h : s.slots[k].state = .dark ∨ s.slots[k].state = .absent) :
    statusAnswer k p s = survivorReturn k (p.getD 0 0) (rd32 p 1) s := by
  rw [statusAnswer_taken hl hline]
  unfold takeStatus
  rcases h with h | h <;> rw [h]

variable (h : s.slots[k].state = .dark ∨ s.slots[k].state = .absent)
include h

theorem statusAnswer_mismatch (hx : ∃ x, s.tables.slots[k].expClass = some x ∧ x ≠ p.getD 0 0) :
    statusAnswer k p s = failSlot k .class { s with slots := s.slots.set k { s.slots[k] with reboot := none } } := by
  rw [statusAnswer_away hl hline h]
  exact if_pos (classMismatch_iff (s := { s with slots := s.slots.set k { s.slots[k] with reboot := none } }).2 hx)

/-- A survivor return whose class code the slot allows: the slot with its class resolved is judged by its image. -/
theorem statusAnswer_survives (hx : ∀ x, s.tables.slots[k].expClass = some x → x = p.getD 0 0) {c : ClassId}
    (hc : classLookup (rd8 p 0) s = c) {v : State}
    (hv : v = if s.slots[k].cls = some c then { s with slots := s.slots.set k { s.slots[k] with reboot := none } }
      else { s with
        slots := s.slots.set k { s.slots[k] with cls := some c, retry := 0, reboot := none }
        ctx := s.ctx.set k (Vector.replicate 16 none) }) :
    statusAnswer k p s = survive k (rd32 p 1) v ∧ v.slots[k].cls = some c ∧ v.tables = s.tables ∧ v.au = s.au ∧
      v.slots[k].stale = s.slots[k].stale ∧ v.slots[k].reboot = none := by
  have hset : setClass k c { s with slots := s.slots.set k { s.slots[k] with reboot := none } } = v := by
    have hcls : ({ s with slots := s.slots.set k { s.slots[k] with reboot := none } } : State).slots[k] =
      { s.slots[k] with reboot := none } := set_same ..
    rw [hv]
    split
    case isTrue h =>
      exact setClass_kept (by rw [hcls]; exact h)
    case isFalse h =>
      rw [setClass_changed (by rw [hcls]; exact h), hcls]
      exact congrArg (fun x => ({ s with slots := x, ctx := s.ctx.set k (Vector.replicate 16 none) } : State)) (set_set ..)
  refine ⟨?_, by rw [← hset]; exact setClass_cls .., ?_⟩
  · rw [statusAnswer_away hl hline h]
    have hlook : classLookup (rd8 p 0) { s with slots := s.slots.set k { s.slots[k] with reboot := none } } = c := hc
    refine (if_neg (classMismatch_not (s := { s with slots := s.slots.set k { s.slots[k] with reboot := none } }) hx)).trans ?_
    rw [← hset, ← hlook]
    rfl
  · rw [hv]
    split
    all_goals
      refine ⟨rfl, rfl, ?_, congrArg SlotStatus.reboot (set_same ..)⟩
      show ((s.slots.set k _)[k]).stale = _
      rw [set_same]

end

/-- Settles O32, by the slot's state; a survivor return by its class and image. -/
theorem statusJudged : Obligations.StatusJudged := by
  unfold Obligations.StatusJudged
  refine ⟨fun s k p hl hline => ⟨fun hr => ?running, fun i ha hexp hcls hov hval htag => ?same, statusAnswer_restoring hl hline,
    statusAnswer_ignored hl hline, statusAnswer_mismatch hl hline, fun c v ha hexp hc hv => ?survivor⟩, fun s k p => statusAnswer_alone⟩
  case running =>
    rw [statusAnswer_running hl hline hr]
    exact ⟨judgeStale_expected, judgeStale_newly, judgeStale_still⟩
  case same =>
    have hx : ∀ x, s.tables.slots[k].expClass = some x → x = p.getD 0 0 := fun x hx => by
      rcases hexp with he | he
      · rw [he] at hx
        cases hx
      · exact Option.some.inj (hx.symm.trans he)
    obtain ⟨hs, hvc, hvt, hva, -, hreb⟩ := statusAnswer_survives hl hline ha hx rfl (if_pos hcls).symm
    rw [hs, survive_running (imageOf_some hvc (.inl hov)) hval, hreb, set_same, set_set, htag]
    rw [if_neg fun h => h.1 rfl, decide_eq_false fun h => h rfl]
  case survivor =>
    obtain ⟨hs, hvc, hvt, hva, hstale, hreb⟩ := statusAnswer_survives hl hline ha hexp (classLookup_eq hc) hv
    refine ⟨fun ho hsel => ?_, fun i hi => ⟨fun hval => ?_, fun hval => ?_⟩⟩
    · rw [hs, survive_noImage (imageOf_none hvc (by rw [hvt]; exact ho) (by rw [hvt]; exact hsel))]
    · rw [hs, survive_invalid (imageOf_some hvc (by rw [hvt]; exact hi)) (by rw [hvt]; exact hval)]
    · rw [hs, survive_running (imageOf_some hvc (by rw [hvt]; exact hi)) (by rw [hvt]; exact hval), hvt, hva, hstale, hreb]

end Sys2Proof.Machine
end

section
/-! PROOFS. A BOOTCALL and the requests of a session (O30). -/

namespace Sys2Proof.Machine

open Sys2Proof.Safety

/-! ## The requests of a session (R32, R76, R77) -/

section
variable {k : SlotId} {i : ImageId} {b : Nat} {s : State}

theorem isRequester_iff : isRequester k i b s = true ↔ ∃ e ∈ s.bc.fills, e.img = i ∧ e.blk = b ∧ k ∈ e.reqs := by
  simp only [isRequester, List.any_eq_true, Bool.and_eq_true, isBlock_entry, List.contains_iff_mem, and_assoc]

theorem requestBlock_none (h : s.tables.cat[i].supply b = .fill ∨ HeldValid i b s ∨ HeldFilling i b s ∨
    ∃ e ∈ s.bc.fills, e.img = i ∧ e.blk = b ∧ k ∈ e.reqs) : requestBlock k i b s = s := by
  refine if_pos ?_
  rw [Bool.or_eq_true, Bool.or_eq_true, Bool.or_eq_true, isFillBlock_iff, validLine_isSome_iff, fillingHolds_iff, isRequester_iff, or_assoc,
    or_assoc]
  exact h

theorem requestBlock_made (hs : s.tables.cat[i].supply b ≠ .fill) (hv : ¬ HeldValid i b s) (hf : ¬ HeldFilling i b s)
    (hr : ∀ e ∈ s.bc.fills, e.img = i → e.blk = b → k ∉ e.reqs) : requestBlock k i b s = request (.session k) i b s := by
  refine if_neg ?_
  rw [Bool.or_eq_true, Bool.or_eq_true, Bool.or_eq_true, isFillBlock_iff, validLine_isSome_iff, fillingHolds_iff, isRequester_iff]
  rintro (((h | h) | h) | ⟨e, he, hi, hb, hk⟩)
  · exact hs h
  · exact hv h
  · exact hf h
  · exact hr e he hi hb hk

/-- A session's request touches the fill queue alone. -/
theorem requestBlock_fills (k : SlotId) (i : ImageId) (b : Nat) (s : State) :
    ∃ fills, requestBlock k i b s = { s with bc := { s.bc with fills := fills } } := by
  by_cases h : s.tables.cat[i].supply b = .fill ∨ HeldValid i b s ∨ HeldFilling i b s ∨
    ∃ e ∈ s.bc.fills, e.img = i ∧ e.blk = b ∧ k ∈ e.reqs
  · exact ⟨s.bc.fills, requestBlock_none h⟩
  obtain ⟨hs, hv, hf, hr⟩ := by simpa only [not_or] using h
  have hr' : ∀ e ∈ s.bc.fills, e.img = i → e.blk = b → k ∉ e.reqs := fun e he hi hb hk => hr ⟨e, he, hi, hb, hk⟩
  rw [requestBlock_made hs hv hf hr']
  by_cases hq : InQueue i b s
  · exact ⟨_, request_queued hv hf hq _⟩
  rcases Nat.lt_or_ge s.bc.fills.length 16 with hl | hl
  · exact ⟨_, request_new hv hf hq hl _⟩
  · exact ⟨s.bc.fills, request_full hv hf hq hl _⟩

theorem requestBlocks_none (h : s.slots[k].session = none ∨ s.slots[k].state ≠ .loading) : requestBlocks k s = s := by
  unfold requestBlocks
  cases hs : s.slots[k].session with
  | none => rfl
  | some x => exact if_neg (h.resolve_left (by rw [hs]; exact fun hx => by cases hx))

theorem requestBlocks_range {x : Session} (hx : s.slots[k].session = some x) (h : s.slots[k].state = .loading) : requestBlocks k s =
    (List.range (min (x.cursor + x.window) x.length - x.cursor)).foldl (fun t j => requestBlock k x.img (x.cursor + j) t) s := by
  unfold requestBlocks
  rw [hx]
  refine (if_pos h).trans ?_
  unfold Session.range
  rw [List.foldl_map]

theorem requestBlocks_fills (k : SlotId) (s : State) : ∃ fills, requestBlocks k s = { s with bc := { s.bc with fills := fills } } := by
  cases hx : s.slots[k].session with
  | none => exact ⟨s.bc.fills, requestBlocks_none (.inl hx)⟩
  | some x =>
    by_cases h : s.slots[k].state = .loading
    · rw [requestBlocks_range hx h]
      generalize List.range _ = l
      induction l generalizing s with
      | nil => exact ⟨s.bc.fills, rfl⟩
      | cons j l ih =>
        obtain ⟨fs, hf⟩ := requestBlock_fills k x.img (x.cursor + j) s
        rw [List.foldl_cons, hf]
        exact ih { s with bc := { s.bc with fills := fs } } hx h
    · exact ⟨s.bc.fills, requestBlocks_none (.inr h)⟩

end

/-! ## Ranks -/

theorem foldl_min_le (f : SlotId → Nat) : ∀ (l : List SlotId) (n : Nat), l.foldl (fun r k => min r (f k)) n ≤ n ∧
    (∀ k ∈ l, l.foldl (fun r k => min r (f k)) n ≤ f k) ∧
    (l.foldl (fun r k => min r (f k)) n = n ∨ ∃ k ∈ l, l.foldl (fun r k => min r (f k)) n = f k)
  | [], n => ⟨Nat.le_refl _, fun k hk => absurd hk List.not_mem_nil, .inl rfl⟩
  | j :: l, n => by
    obtain ⟨h1, h2, h3⟩ := foldl_min_le f l (min n (f j))
    refine ⟨h1.trans (Nat.min_le_left ..), fun k hk => ?_, ?_⟩
    · rcases List.mem_cons.1 hk with rfl | hk
      · exact h1.trans (Nat.min_le_right ..)
      · exact h2 k hk
    · rw [List.foldl_cons]
      rcases h3 with h3 | ⟨k, hk, h3⟩
      · rw [h3]
        rcases Nat.le_total n (f j) with h | h
        · exact .inl (Nat.min_eq_left h)
        · exact .inr ⟨j, List.mem_cons_self .., Nat.min_eq_right h⟩
      · exact .inr ⟨k, List.mem_cons_of_mem _ hk, h3⟩

theorem slotRank_of {k : SlotId} {c : ClassId} {s : State} (h : s.slots[k].cls = some c) : slotRank k s = (s.tables.classes[c]).rank := by
  unfold slotRank
  rw [h]

theorem rankOf_one {k : SlotId} {s : State} (h : slotRank k s ≤ 8) : rankOf [k] s = slotRank k s := Nat.min_eq_right h

/-! ## Image resolution (R13, R14) -/

/-- The slot whose session opens on entry `i`. -/
def opened (k : SlotId) (i : ImageId) (warm : Bool) (v : State) : State :=
  { v with
    slots := v.slots.set k { v.slots[k] with
      state := if warm then .starting else .loading, expTag := some v.tables.cat[i].tag, catInUse := some i, reboot := none
      session := some ⟨i, v.tables.cat[i].tag, v.tables.cat[i].length, v.tables.cat[i].check, v.tables.cat[i].entryWord, warm,
        v.tables.settings.window, v.tables.settings.stageTimeout, v.tables.settings.resendLimit, 0, none, [], 0, false, none,
        some v.tables.settings.stageTimeout⟩ }
    catSt := v.catSt.set i ⟨v.catSt[i].bad, v.catSt[i].users + 1⟩ }

section
variable {k : SlotId} {b : BootCall} {i : ImageId} {v : State}

theorem openSession_opened (k : SlotId) (i : ImageId) (warm : Bool) (v : State) :
    openSession k i warm (updSlot k (fun x => { x with expTag := some v.tables.cat[i].tag, reboot := none }) v) =
      requestBlocks k (opened k i warm v) := by
  refine congrArg (requestBlocks k) ?_
  unfold opened
  refine congrArg (fun x => ({ v with slots := x, catSt := v.catSt.set i ⟨v.catSt[i].bad, v.catSt[i].users + 1⟩ } : State)) ?_
  unfold updSlot vmod
  dsimp only
  rw [set_same, set_set]
  rfl

theorem requestBlocks_warm (k : SlotId) (i : ImageId) (v : State) : requestBlocks k (opened k i true v) = opened k i true v := by
  refine requestBlocks_none (.inr ?_)
  show ((v.slots.set k _)[k]).state ≠ _
  rw [set_same]
  show SlotState.starting ≠ .loading
  decide

theorem resolveImage_noImage (h : imageOf k v = none) : resolveImage k b v = failSlot k .noImage v := by
  unfold resolveImage
  rw [h]

variable (h : imageOf k v = some i)
include h

theorem resolveImage_invalid (hv : v.tables.cat[i].valid = false) : resolveImage k b v = failSlot k .noImage v := by
  unfold resolveImage
  rw [h]
  exact if_pos (by rw [hv]; rfl)

theorem resolveImage_bad (hv : v.tables.cat[i].valid = true) (hb : v.catSt[i].bad = true) : resolveImage k b v = failSlot k .imageBad v := by
  unfold resolveImage
  rw [h]
  exact (if_neg (by rw [hv]; decide)).trans (if_pos hb)

theorem resolveImage_incompatible (hv : v.tables.cat[i].valid = true) (hb : v.catSt[i].bad = false)
    (hx : b.hw < v.tables.cat[i].minHw ∨ b.boot < v.tables.cat[i].minBoot ∨ b.capacity < v.tables.cat[i].length) :
    resolveImage k b v = failSlot k .incompatible v := by
  unfold resolveImage
  rw [h]
  exact (if_neg (by rw [hv]; decide)).trans ((if_neg (by rw [hb]; decide)).trans (if_pos hx))

theorem resolveImage_opens {c : ClassId} {warm : Bool} (hc : v.slots[k].cls = some c) (hv : v.tables.cat[i].valid = true)
    (hb : v.catSt[i].bad = false)
    (hx : ¬ (b.hw < v.tables.cat[i].minHw ∨ b.boot < v.tables.cat[i].minBoot ∨ b.capacity < v.tables.cat[i].length))
    (hw : warm = true ↔ (v.tables.classes[c]).warmAllowed = true ∧ v.slots[k].coldNext = false ∧ b.held = some v.tables.cat[i].tag) :
    resolveImage k b v = requestBlocks k (opened k i warm v) := by
  have hwarm : ((classOf k v).any ClassEntry.warmAllowed && !v.slots[k].coldNext && decide (b.held = some v.tables.cat[i].tag)) = warm := by
    unfold classOf
    rw [hc, Bool.eq_iff_iff, hw]
    simp [and_assoc]
  unfold resolveImage
  rw [h]
  refine (if_neg (by rw [hv]; decide)).trans ((if_neg (by rw [hb]; decide)).trans ((if_neg hx).trans ?_))
  dsimp only
  rw [hwarm]
  exact openSession_opened k i warm v

end

section
variable {k : SlotId} {b : BootCall} {s : State}

theorem resolve_mismatch (h : ∃ x, s.tables.slots[k].expClass = some x ∧ x ≠ b.cls) : resolve k b s = failSlot k .class s :=
  if_pos (classMismatch_iff.2 h)

theorem resolve_allowed (h : ∀ x, s.tables.slots[k].expClass = some x → x = b.cls) :
    resolve k b s = resolveImage k b (setClass k (classLookup b.cls.toNat s) s) := if_neg (classMismatch_not h)

/-- The slot with its class resolved; nothing that resolution reads of it differs but the class. -/
theorem resolve_classed {c : ClassId} {v : State} (h : ∀ x, s.tables.slots[k].expClass = some x → x = b.cls)
    (hc : classLookup b.cls.toNat s = c) (hv : v = if s.slots[k].cls = some c then s
      else { s with
        slots := s.slots.set k { s.slots[k] with cls := some c, retry := 0 }, ctx := s.ctx.set k (Vector.replicate 16 none) }) :
    resolve k b s = resolveImage k b v ∧ v.slots[k].cls = some c ∧ v.tables = s.tables ∧ v.catSt = s.catSt ∧ v.bc = s.bc ∧
      v.reader = s.reader ∧ v.slots[k].coldNext = s.slots[k].coldNext := by
  have hset : setClass k c s = v := hv.symm
  refine ⟨by rw [resolve_allowed h, hc, hset], by rw [← hset]; exact setClass_cls .., ?_⟩
  rw [hv]
  split
  · exact ⟨rfl, rfl, rfl, rfl, rfl⟩
  · refine ⟨rfl, rfl, rfl, rfl, ?_⟩
    show ((s.slots.set k _)[k]).coldNext = _
    rw [set_same]

/-! ## The slot's state (R12) -/

theorem takeBootCall_away (h : s.slots[k].state = .absent ∨ s.slots[k].state = .dark) : takeBootCall k b s = resolve k b s := by
  unfold takeBootCall
  rcases h with h | h <;> rw [h]

theorem takeBootCall_running (h : s.slots[k].state = .running) : takeBootCall k b s = resolve k b
    (if s.slots[k].reloadExpected then updSlot k (fun x => { x with reloadExpected := false }) s else raise .restarted (.slot k) none s) := by
  unfold takeBootCall
  rw [h]

theorem takeBootCall_restoring (h : s.slots[k].state.restoring = true) :
    takeBootCall k b s = resolve k b (raise .restarted (.slot k) none (endSession k s)) := by
  unfold takeBootCall
  rcases restoring_cases h with h | h | h <;> rw [h]

theorem takeBootCall_ignored (h : s.slots[k].state = .backoff ∨ s.slots[k].state = .failed ∨ s.slots[k].state = .vacant) :
    takeBootCall k b s = s := by
  unfold takeBootCall
  rcases h with h | h | h <;> rw [h]

theorem withdrawSlot_shape (k : SlotId) (s : State) :
    withdrawSlot k s = { s with bc := (withdrawSlot k s).bc, reader := (withdrawSlot k s).reader } := by
  unfold withdrawSlot updFill
  split <;> rfl

/-- The end of a session outside of the cache. -/
theorem endSession_shape {x : Session} (h : s.slots[k].session = some x) : endSession k s = { s with
    slots := s.slots.set k { s.slots[k] with session := none, catInUse := none }
    catSt := s.catSt.set x.img ⟨s.catSt[x.img].bad, s.catSt[x.img].users - 1⟩
    bc := (endSession k s).bc, reader := (endSession k s).reader } := by
  unfold endSession
  rw [h]
  dsimp only
  rw [withdrawSlot_shape]
  rfl

/-! ## The operand (R8) -/

theorem bootCallAnswer_length {p : List Byte} (h : p.length ≠ 11) : bootCallAnswer k p s = s := by
  unfold bootCallAnswer parseBootCall
  rw [if_neg h]

end

theorem bootCallAnswer_taken {k : SlotId} {s : State} (h : s.lm.line = .up ∨ s.lm.line = .dip) (b0 b1 b2 b3 b4 b5 b6 b7 b8 b9 b10 : Byte) :
    bootCallAnswer k [b0, b1, b2, b3, b4, b5, b6, b7, b8, b9, b10] s = takeBootCall k ⟨b0, b1.toNat, 256 * b2.toNat + b3.toNat,
      256 * b4.toNat + b5.toNat, if b6.getLsbD 0 then some (b7 ++ b8 ++ b9 ++ b10) else none⟩ s := if_pos (line_isGood h)

/-- Settles O30: a BOOTCALL by the slot's state, resolution by its first failing check, requests by the place of their block. -/
theorem coldSessionOpens : Obligations.ColdSessionOpens := by
  unfold Obligations.ColdSessionOpens
  refine ⟨fun s k b i e c ha hexp hc hcls hov he hval hbad hhw hboot hcap hheld => ?cold, fun s k p h => ?alone,
    fun s k b0 b1 b2 b3 b4 b5 b6 b7 b8 b9 b10 h => bootCallAnswer_taken h ..,
    fun s k b => ⟨takeBootCall_away, fun hr => ?running, fun x hr hx => ?restoring, takeBootCall_ignored⟩,
    fun s v k b c => ⟨resolve_mismatch, fun hexp hc hv => ?resolution⟩,
    fun s k => ⟨requestBlocks_fills k s, requestBlocks_none, fun x hx h => requestBlocks_range hx h⟩, fun s => ?all,
    fun s k i b => ⟨requestBlock_none, fun hs hv hf hr => ?made⟩, fun s ks => ?ranks⟩
  case alone =>
    rcases h with h | h
    · exact bootCallAnswer_length h
    · exact bootCallAnswer_dark h k p
  case running =>
    rw [takeBootCall_running hr]
    exact ⟨fun h => by rw [h]; rfl, fun h => by rw [h]; rfl⟩
  case restoring =>
    have hsome : s.slots[k].session.isSome = true := by rw [hx]; rfl
    obtain ⟨hq, hf⟩ := endSession_fills k s hsome
    obtain ⟨-, -, -, hau, -⟩ := endSession_rest k s
    refine ⟨endSession k s, (takeBootCall_restoring hr).trans ?_, endSession_shape hx, endSession_withdrawn hsome, hq, hf⟩
    unfold raise
    rw [hau]
  case all =>
    show (slotsByRank s).foldl (fun s k => requestBlocks k s) s = _
    unfold slotsByRank
    rw [List.foldl_flatMap]
  case made =>
    refine ⟨fun hq => ?_, fun hq hl => ?_, fun hq hl => ?_⟩
    · rw [requestBlock_made hs hv hf hr, request_queued hv hf hq]
      rfl
    · rw [requestBlock_made hs hv hf hr, request_full hv hf hq hl]
    · rw [requestBlock_made hs hv hf hr, request_new hv hf hq hl]
      rfl
  case ranks =>
    obtain ⟨h1, h2, h3⟩ := foldl_min_le (fun k => slotRank k s) ks 8
    exact ⟨fun k c h => slotRank_of h, rfl, fun k h => rankOf_one h, h1, h2, h3, fun i b l => markedLine_iff⟩
  case resolution =>
    obtain ⟨hx, hvc, hvt, hvs, hvb, hvr, hcold⟩ := resolve_classed hexp (classLookup_eq hc) hv
    rw [hx]
    refine ⟨fun ho hs => resolveImage_noImage (imageOf_none hvc (by rw [hvt]; exact ho) (by rw [hvt]; exact hs)),
      fun i e warm hi he hw => ?_⟩
    have himg := imageOf_some hvc (i := i) (by rw [hvt]; exact hi)
    rw [← hvt] at he
    subst he
    refine ⟨fun h => resolveImage_invalid himg h, fun h hb => resolveImage_bad himg h (by rw [hvs]; exact hb),
      fun h hb hno => resolveImage_incompatible himg h (by rw [hvs]; exact hb) hno, fun h hb h1 h2 h3 u hu => ?_⟩
    have hue : u = opened k i warm v := by
      rw [hu]
      unfold opened
      rw [hvs, hvt, hb]
    refine ⟨?_, by rw [hu]; exact hvb, by rw [hu]; exact hvr⟩
    rw [resolveImage_opens himg hvc h (by rw [hvs]; exact hb) (by omega) (by rw [hvt, hcold]; rw [hvt] at hw; exact hw), ← hue]
    cases warm with
    | true => rw [hue, requestBlocks_warm, if_pos rfl]
    | false => exact (if_neg Bool.false_ne_true).symm
  case cold =>
    subst he
    have hx : takeBootCall k b s = requestBlocks k (opened k i false s) := by
      obtain ⟨hr, -⟩ := resolve_classed (b := b) (fun x hx => by rw [hexp] at hx; cases hx) hc.symm (if_pos hcls).symm
      rw [takeBootCall_away (.inl ha), hr]
      refine resolveImage_opens (imageOf_some hcls (.inl hov)) hcls hval hbad (by omega) (iff_of_false Bool.false_ne_true fun h => ?_)
      rw [hheld] at h
      cases h.2.2
    obtain ⟨hslots, hctx, hcat, hau, -⟩ := requestBlocks_rest k (opened k i false s)
    rw [hx]
    refine ⟨?_, ?_, hau, fun j hj => ?_, hctx⟩
    · rw [hslots]
      exact set_same ..
    · rw [hcat]
      exact (set_same ..).trans (by rw [hbad])
    · rw [hslots]
      exact set_other _ hj _

end Sys2Proof.Machine
end

section
/-! PROOFS. The restore answers (O31). -/

namespace Sys2Proof.Machine

open Sys2Proof.Safety

/-! ## Withdrawal of a requester -/

theorem withdrawn_noReqs {k : SlotId} {s t : State} (h : Withdrawn k s t) :
    (∀ e ∈ t.bc.fills, k ∉ e.reqs) ∧ ∀ f, t.reader = .fill f → k ∉ f.reqs := by
  obtain ⟨hb, hf, hn⟩ := h
  have hout : ∀ l : List SlotId, k ∉ l.filter (fun j => decide (j ≠ k)) := fun l hk =>
    of_decide_eq_true (List.mem_filter.1 hk).2 rfl
  refine ⟨fun e he => ?_, fun f hr => ?_⟩
  · rw [hb] at he
    obtain ⟨e', -, rfl⟩ := List.mem_map.1 he
    exact hout _
  · by_cases hx : ∃ g, s.reader = .fill g
    · obtain ⟨g, hg⟩ := hx
      obtain rfl := Reader.fill.inj ((hf g hg).symm.trans hr)
      exact hout _
    · exact absurd ⟨f, (hn fun g hg => hx ⟨g, hg⟩).symm.trans hr⟩ hx

/-- A withdrawal looks at the cache, the reader and the slots' classes alone. -/
theorem withdrawSlot_classes {k : SlotId} {s u : State} (h : SameClasses s u) (hb : u.bc = s.bc) (hr : u.reader = s.reader) :
    Withdrawn k s { s with bc := (withdrawSlot k u).bc, reader := (withdrawSlot k u).reader } := by
  obtain ⟨h1, h2, h3⟩ := withdrawSlot_withdrawn k u
  have hrank : ∀ l, rankOf l u = rankOf l s := fun l => rankOf_congr l h.1 h.2
  simp only [hrank, hb] at h1
  rw [hr] at h2 h3
  exact ⟨h1, h2, h3⟩

/-! ## The operands of a LOADACK (R36) -/

theorem ackValue_any (n : Nat) (p : Nat → Bool) : (ackValue n).any p = true ↔ n ≠ 0xFFFF ∧ p n = true := by
  unfold ackValue
  by_cases h : n = 0xFFFF
  · rw [if_pos h]
    exact iff_of_false Bool.false_ne_true fun hx => hx.1 h
  · rw [if_neg h]
    exact (and_iff_right h).symm

theorem ackRefused_iff {x : Session} {t m : Nat} : ackRefused x (ackValue t) (ackValue m) = true ↔
    (t ≠ 0xFFFF ∧ x.cursor ≤ t) ∨ (m ≠ 0xFFFF ∧ x.cursor < m) ∨ (m ≠ 0xFFFF ∧ ∃ a, x.through = some a ∧ m ≤ a) ∨
      m ≠ 0xFFFF ∧ t ≠ 0xFFFF ∧ m ≤ t := by
  unfold ackRefused
  rw [Bool.or_eq_true, Bool.or_eq_true, Bool.or_eq_true, ackValue_any, ackValue_any, ackValue_any, ackValue_any, ackValue_any,
    decide_eq_true_iff, decide_eq_true_iff, decide_eq_true_iff, Option.any_eq_true, or_assoc, or_assoc]
  simp only [decide_eq_true_iff]

/-- The slot `k` with `z` as its session. -/
def sessionAt (k : SlotId) (z : Session) (s : State) : State := { s with slots := s.slots.set k { s.slots[k] with session := some z } }

section
variable {k : SlotId} {x : Session} {s : State}

theorem updSession_at (h : s.slots[k].session = some x) (g : Session → Session) : updSession k g s = sessionAt k (g x) s := by
  unfold updSession updSlot vmod sessionAt
  dsimp only
  rw [h]
  rfl

theorem sessionAt_session (k : SlotId) (x : Session) (s : State) : (sessionAt k x s).slots[k].session = some x :=
  congrArg SlotStatus.session (set_same ..)

theorem sessionAt_state (k : SlotId) (x : Session) (s : State) : (sessionAt k x s).slots[k].state = s.slots[k].state := by
  show ((s.slots.set k _)[k]).state = _
  rw [set_same]

theorem sessionAt_twice (k : SlotId) (x y : Session) (s : State) : sessionAt k y (sessionAt k x s) = sessionAt k y s := by
  unfold sessionAt
  rw [set_same, set_set]

theorem sessionAt_classes (k : SlotId) (x : Session) (s : State) : SameClasses s (sessionAt k x s) := by
  refine ⟨rfl, fun j => ?_⟩
  show ((s.slots.set k _)[j]).cls = _
  by_cases hj : j = k
  · subst hj
    rw [set_same]
  · rw [set_other _ hj]

theorem ackThrough_eq (x : Session) (t : Nat) : x.ackThrough (ackValue t) = if t ≠ 0xFFFF ∧ ∀ a ∈ x.through, a < t then
    { x with through := some t, inFlight := x.inFlight.filter (fun b => decide (t < b)), timer := some x.stageTimeout } else x := by
  unfold Session.ackThrough ackValue
  by_cases h : t = 0xFFFF
  · rw [if_pos h, if_neg fun hx => hx.1 h]
  · rw [if_neg h]
    have hall : x.through.all (fun a => decide (a < t)) = true ↔ ∀ a ∈ x.through, a < t := by
      cases x.through <;> simp
    by_cases ha : ∀ a ∈ x.through, a < t
    · rw [if_pos ⟨h, ha⟩]
      exact if_pos (hall.2 ha)
    · rw [if_neg fun hx => ha hx.2]
      exact if_neg fun hx => ha (hall.1 hx)

/-! ## The end of the loading (R39) -/

theorem checkLoaded_more {z : Session} (h : s.slots[k].session = some z) (ht : z.through ≠ some (z.length - 1)) : checkLoaded k s = s := by
  unfold checkLoaded
  rw [h]
  exact if_neg ht

/-- The slot `k` in a new stage of its session `z`. -/
def staged (k : SlotId) (st : SlotState) (z : Session) (s : State) : State := { s with slots := s.slots.set k { s.slots[k] with
  state := st, session := some { z with sent := false, timer := some z.stageTimeout } } }

theorem enterStage_at (h : s.slots[k].session = some x) (st : SlotState) : enterStage k st s = staged k st x s := by
  unfold enterStage updSession updSlot vmod staged
  dsimp only
  rw [set_same, set_set, h]
  rfl

theorem staged_sessionAt (k : SlotId) (st : SlotState) (z : Session) (s : State) : staged k st z (sessionAt k z s) = staged k st z s := by
  unfold staged sessionAt
  rw [set_same, set_set]

theorem staged_classes (k : SlotId) (st : SlotState) (z : Session) (s : State) : SameClasses s (staged k st z s) := by
  refine ⟨rfl, fun j => ?_⟩
  show ((s.slots.set k _)[j]).cls = _
  by_cases hj : j = k
  · subst hj
    rw [set_same]
  · rw [set_other _ hj]

theorem checkLoaded_last {z : Session} (ht : z.through = some (z.length - 1)) :
    checkLoaded k (sessionAt k z s) = withdrawSlot k (staged k .starting z s) := by
  unfold checkLoaded
  rw [sessionAt_session]
  exact (if_pos ht).trans (by rw [enterStage_at (sessionAt_session ..), staged_sessionAt])

end

/-! ## A LOADACK (R36 to R39) -/

section
variable {k : SlotId} {x : Session} {s : State}

theorem restoreAnswer_loadack (hx : s.slots[k].session = some x) (h : s.slots[k].state = .loading) (p : List Byte) :
    restoreAnswer k .loadack p s = takeLoadAck k x p s := by
  unfold restoreAnswer
  rw [hx, h]

theorem takeLoadAck_length {p : List Byte} (h : p.length ≠ 4) : takeLoadAck k x p s = failSlot k .protocol s := if_pos (.inl h)

theorem takeLoadAck_refused {p : List Byte} {t m : Nat} (ht : rd16 p 0 = t) (hm : rd16 p 2 = m) (h : (t ≠ 0xFFFF ∧ x.cursor ≤ t) ∨
    (m ≠ 0xFFFF ∧ x.cursor < m) ∨ (m ≠ 0xFFFF ∧ ∃ a, x.through = some a ∧ m ≤ a) ∨ m ≠ 0xFFFF ∧ t ≠ 0xFFFF ∧ m ≤ t) :
    takeLoadAck k x p s = failSlot k .protocol s := if_pos (.inr (by rw [ht, hm]; exact ackRefused_iff.2 h))

theorem takeLoadAck_accepted {p : List Byte} {t m : Nat} (hx : s.slots[k].session = some x) (hl : p.length = 4) (ht : rd16 p 0 = t)
    (hm : rd16 p 2 = m) (h1 : t = 0xFFFF ∨ t < x.cursor)
    (h2 : m = 0xFFFF ∨ m ≤ x.cursor ∧ (∀ a, x.through = some a → a < m) ∧ (t = 0xFFFF ∨ t < m)) :
    takeLoadAck k x p s = applyResend k x (ackValue m) (sessionAt k (x.ackThrough (ackValue t)) s) := by
  refine (if_neg ?_).trans ?_
  · rw [ht, hm, ackRefused_iff]
    rintro (h | ⟨h, hc⟩ | ⟨h, hc⟩ | ⟨h, ⟨a, ha, hma⟩⟩ | ⟨h, hn, hmt⟩)
    · exact h hl
    · omega
    · obtain ⟨h3, -⟩ := h2.resolve_left h
      omega
    · obtain ⟨-, h3, -⟩ := h2.resolve_left h
      exact absurd (h3 a ha) (Nat.not_lt.2 hma)
    · obtain ⟨-, -, h3⟩ := h2.resolve_left h
      omega
  · rw [ht, hm, updSession_at hx]

theorem applyResend_none : applyResend k x (ackValue 0xFFFF) s = checkLoaded k s := rfl

theorem ackValue_some {m : Nat} (h : m ≠ 0xFFFF) : ackValue m = some m := if_neg h

theorem applyResend_limit {m : Nat} (h : m ≠ 0xFFFF) (hr : x.resends = x.resendLimit) :
    applyResend k x (ackValue m) s = failSlot k .resends s := by
  rw [ackValue_some h]
  exact if_pos hr

theorem applyResend_some {m : Nat} {y : Session} (h : m ≠ 0xFFFF) (hr : x.resends ≠ x.resendLimit) (hy : s.slots[k].session = some y) :
    applyResend k x (ackValue m) s = checkLoaded k (requestBlocks k (sessionAt k (y.resendFrom m) s)) := by
  rw [ackValue_some h]
  exact (if_neg hr).trans (by rw [updSession_at hy])

/-- Nothing is left to ask for. -/
theorem requestBlocks_end {z : Session} (hz : s.slots[k].session = some z) (h : s.slots[k].state = .loading) (he : z.length ≤ z.cursor) :
    requestBlocks k s = s := by
  rw [requestBlocks_range hz h, show min (z.cursor + z.window) z.length - z.cursor = 0 by omega]
  rfl

/-- What stands of slot and requests once a LOADACK is accepted. -/
def AckTaken (k : SlotId) (x z : Session) (again : Bool) (s t : State) : Prop :=
  ∃ cache reader, t = { s with
      slots := s.slots.set k (if z.through = some (x.length - 1) then
          { s.slots[k] with state := .starting, session := some { z with sent := false, timer := some x.stageTimeout } }
        else { s.slots[k] with session := some z })
      bc := cache, reader := reader } ∧
    (z.through = some (x.length - 1) → Withdrawn k s { s with bc := cache, reader := reader } ∧
      (∀ e ∈ cache.fills, k ∉ e.reqs) ∧ ∀ f, reader = .fill f → k ∉ f.reqs) ∧
    (z.through ≠ some (x.length - 1) →
      { s with slots := s.slots.set k { s.slots[k] with session := some z }, bc := cache, reader := reader } =
        if again = false then { s with slots := s.slots.set k { s.slots[k] with session := some z } }
        else requestBlocks k { s with slots := s.slots.set k { s.slots[k] with session := some z } })

/-- The last block is acknowledged. -/
theorem ackTaken_last {z : Session} (hl : z.length = x.length) (hs : z.stageTimeout = x.stageTimeout)
    (ht : z.through = some (x.length - 1)) (again : Bool) : AckTaken k x z again s (checkLoaded k (sessionAt k z s)) := by
  have hw := withdrawSlot_classes (staged_classes k .starting z s) rfl rfl (k := k)
  obtain ⟨h1, h2⟩ := withdrawn_noReqs hw
  refine ⟨_, _, ?_, fun _ => ⟨hw, h1, h2⟩, fun h => absurd ht h⟩
  rw [checkLoaded_last (ht.trans (by rw [hl])), withdrawSlot_shape, if_pos ht, ← hs]
  rfl

/-- Blocks are still to be acknowledged, and the requests are made again or not. -/
theorem ackTaken_more {z : Session} (hl : z.length = x.length) (ht : z.through ≠ some (x.length - 1)) {again : Bool} {t : State}
    (h : t = checkLoaded k (if again = false then sessionAt k z s else requestBlocks k (sessionAt k z s))) : AckTaken k x z again s t := by
  obtain ⟨fills, hf⟩ := requestBlocks_fills k (sessionAt k z s)
  have hu : (if again = false then sessionAt k z s else requestBlocks k (sessionAt k z s)) = { sessionAt k z s with
      bc := { s.bc with fills := if again = false then s.bc.fills else fills } } := by
    cases again with
    | false => rfl
    | true => exact hf
  have hses : ({ sessionAt k z s with bc := { s.bc with fills := if again = false then s.bc.fills else fills } } : State).slots[k].session =
      some z := sessionAt_session k z s
  refine ⟨{ s.bc with fills := if again = false then s.bc.fills else fills }, s.reader, ?_, fun hx => absurd hx ht, fun _ => hu.symm⟩
  rw [h, hu, checkLoaded_more hses (by rw [hl]; exact ht), if_neg ht]
  rfl

end

section
variable {k : SlotId} {x : Session} {s : State}

/-- An accepted LOADACK by its two values. -/
theorem takeLoadAck_taken {p : List Byte} {t m : Nat} {y z : Session} (hx : s.slots[k].session = some x) (hst : s.slots[k].state = .loading)
    (hl : p.length = 4) (ht : rd16 p 0 = t) (hm : rd16 p 2 = m) (h1 : t = 0xFFFF ∨ t < x.cursor)
    (h2 : m = 0xFFFF ∨ m ≤ x.cursor ∧ (∀ a, x.through = some a → a < m) ∧ (t = 0xFFFF ∨ t < m))
    (hy : y = if t ≠ 0xFFFF ∧ ∀ a ∈ x.through, a < t then
      { x with through := some t, inFlight := x.inFlight.filter (fun b => decide (t < b)), timer := some x.stageTimeout } else x)
    (hz : z = if m = 0xFFFF then y
      else { y with resends := x.resends + 1, inFlight := y.inFlight.filter (fun b => decide (b < m)), cursor := m }) :
    (m ≠ 0xFFFF → x.resends = x.resendLimit → takeLoadAck k x p s = failSlot k .resends (sessionAt k y s)) ∧
    (m = 0xFFFF ∨ x.resends ≠ x.resendLimit → AckTaken k x z (decide (m ≠ 0xFFFF)) s (takeLoadAck k x p s)) := by
  have hack : takeLoadAck k x p s = applyResend k x (ackValue m) (sessionAt k y s) := by
    rw [takeLoadAck_accepted hx hl ht hm h1 h2, ackThrough_eq, ← hy]
  have hyx : y.length = x.length ∧ y.stageTimeout = x.stageTimeout ∧ y.resends = x.resends := by
    rw [hy]
    split <;> exact ⟨rfl, rfl, rfl⟩
  obtain ⟨hyl, hys, hyr⟩ := hyx
  refine ⟨fun hne hr => by rw [hack, applyResend_limit hne hr], fun hok => ?_⟩
  rw [hack]
  by_cases hne : m = 0xFFFF
  · rw [if_pos hne] at hz
    subst hz
    rw [hne, applyResend_none]
    by_cases hlast : z.through = some (x.length - 1)
    · exact ackTaken_last hyl hys hlast _
    · exact ackTaken_more hyl hlast rfl
  · rw [if_neg hne] at hz
    have hzr : z = y.resendFrom m := by
      rw [hz, ← hyr]
      rfl
    have hzl : z.length = x.length := by rw [hz]; exact hyl
    have hzs : z.stageTimeout = x.stageTimeout := by rw [hz]; exact hys
    rw [applyResend_some hne (hok.resolve_left hne) (sessionAt_session k y s), sessionAt_twice, ← hzr, decide_eq_true hne]
    by_cases hlast : z.through = some (x.length - 1)
    · have hcur : z.length ≤ z.cursor := by
        obtain ⟨-, hthr, htm⟩ := h2.resolve_left hne
        have hthr' : y.through = some (x.length - 1) := by
          rw [hz] at hlast
          exact hlast
        have hlt : x.length - 1 < m := by
          rw [hy] at hthr'
          split at hthr'
          case isTrue h =>
            have := Option.some.inj hthr'
            have := htm.resolve_left h.1
            omega
          case isFalse => exact hthr _ hthr'
        rw [hzl, hz]
        show x.length ≤ m
        omega
      rw [requestBlocks_end (sessionAt_session k z s) ((sessionAt_state k z s).trans hst) hcur]
      exact ackTaken_last hzl hzs hlast _
    · exact ackTaken_more hzl hlast rfl

/-! ## A STARTED (R42) and a READY (R44) -/

theorem restoreAnswer_started (hx : s.slots[k].session = some x) (h : s.slots[k].state = .starting) (hs : x.sent = true) (p : List Byte) :
    restoreAnswer k .started p s = takeStarted k x p s := by
  unfold restoreAnswer
  rw [hx, h]
  exact if_pos hs

theorem restoreAnswer_ready (hx : s.slots[k].session = some x) (h : s.slots[k].state = .context) (hs : x.sent = true) (p : List Byte) :
    restoreAnswer k .ready p s = takeReady k x p s := by
  unfold restoreAnswer
  rw [hx, h]
  exact if_pos hs

theorem takeStarted_length {p : List Byte} (h : p.length ≠ 5) : takeStarted k x p s = failSlot k .protocol s := if_pos h

theorem takeStarted_good {p : List Byte} (hx : s.slots[k].session = some x) (h : p.length = 5) (hg : rd8 p 0 = 0 ∧ rd32 p 1 = x.check) :
    takeStarted k x p s = staged k .context x s :=
  (if_neg fun hn => hn h).trans ((if_pos hg).trans (enterStage_at hx _))

theorem takeStarted_bad {p : List Byte} (h : p.length = 5) (hg : ¬ (rd8 p 0 = 0 ∧ rd32 p 1 = x.check)) : takeStarted k x p s =
    failSlot k .verify (if x.warm then { s with slots := s.slots.set k { s.slots[k] with coldNext := true } } else s) :=
  (if_neg fun hn => hn h).trans (if_neg hg)

theorem takeReady_length {p : List Byte} (h : p.length ≠ 6) : takeReady k x p s = failSlot k .protocol s := if_pos h

theorem takeReady_tag {p : List Byte} (h : p.length = 6) (ht : rd32 p 0 ≠ x.tag) : takeReady k x p s = failSlot k .tag s :=
  (if_neg fun hn => hn h).trans (if_pos ht)

theorem takeReady_context {p : List Byte} (h : p.length = 6) (ht : rd32 p 0 = x.tag)
    (hm : x.sentMask ≠ some (BitVec.ofNat 16 (rd16 p 4))) : takeReady k x p s = failSlot k .context s :=
  (if_neg fun hn => hn h).trans ((if_neg fun hn => hn ht).trans (if_pos hm.symm))

theorem takeReady_accepted {p : List Byte} (h : p.length = 6) (ht : rd32 p 0 = x.tag)
    (hm : x.sentMask = some (BitVec.ofNat 16 (rd16 p 4))) : takeReady k x p s = succeed k s :=
  (if_neg fun hn => hn h).trans ((if_neg fun hn => hn ht).trans (if_neg fun hn => hn hm.symm))

/-! ## The end of the session by success (R19, R125) -/

/-- The slot once its session has succeeded. -/
def runningAgain (y : SlotStatus) : SlotStatus := { y with
  state := .running, retry := 0, coldNext := false, reloadExpected := false, stale := false, reboot := none, catInUse := none
  session := none }

/-- The state whose held entries beyond the outbound queue's room are to be answered. -/
def released (k : SlotId) (s : State) : State := { endSession k s with
  slots := s.slots.set k (runningAgain s.slots[k])
  queues := { s.queues with
    out := s.queues.out ++ s.queues.hold[k].take (32 - s.queues.out.length), hold := s.queues.hold.set k [] } }

theorem succeed_eq (hx : s.slots[k].session = some x) :
    succeed k s = refuseAll .partBusy (s.queues.hold[k].drop (32 - s.queues.out.length)) (released k s) := by
  obtain ⟨-, -, hq, -, -⟩ := endSession_rest k s
  have hs : (endSession k s).slots = s.slots.set k { s.slots[k] with session := none, catInUse := none } := by
    rw [endSession_shape hx]
  have hv : ∀ f, vmod (endSession k s).slots k f = s.slots.set k (f { s.slots[k] with session := none, catInUse := none }) := fun f => by
    rw [hs, vmod_set]
  unfold succeed updSlot
  rw [hv, releaseHold_spec]
  dsimp only
  rw [hq]
  rfl

theorem refuseAll_noLinks_frame (r : RefuseReason) (bs : List BufId) (s : State) : (refuseAll r bs s).slots = s.slots ∧
    (refuseAll r bs s).ctx = s.ctx ∧ (refuseAll r bs s).catSt = s.catSt := by
  obtain ⟨-, -, -, h1, h2, h3, -⟩ := of_noLinks (refuseAll_noLinks r bs s)
  exact ⟨h1, h2, h3⟩

theorem restoreAnswer_unawaited {kind : Kind} {p : List Byte} (h : s.slots[k].session = none ∨ (s.slots[k].state = .loading → kind ≠ .loadack) ∧
      (s.slots[k].state = .starting → kind = .started → ∀ x, s.slots[k].session = some x → x.sent = false) ∧
      (s.slots[k].state = .context → kind = .ready → ∀ x, s.slots[k].session = some x → x.sent = false)) :
    restoreAnswer k kind p s = s := by
  unfold restoreAnswer
  split
  next => rfl
  next x hx =>
    obtain ⟨h1, h2, h3⟩ := h.resolve_left (by rw [hx]; exact fun hn => by cases hn)
    split
    next hs => exact absurd rfl (h1 hs)
    next hs => exact if_neg (by rw [h2 hs rfl x hx]; decide)
    next hs => exact if_neg (by rw [h3 hs rfl x hx]; decide)
    next => rfl

end

/-- Settles O31: a LOADACK by `takeLoadAck_taken`, a READY by `succeed_eq`. -/
theorem restoreAnswersJudged : Obligations.RestoreAnswersJudged := by
  unfold Obligations.RestoreAnswersJudged
  refine ⟨fun s k x hi lo hi' lo' t m hx hst ht hm hbad => ?beyond, fun s k x p hx hst hs hl ht hm => ?ready,
    fun s k x p hx hst hl => ?length, fun s k x y z hi lo hi' lo' t m hx hst ht hm => ⟨fun hne hbad => ?again, fun h1 h2 hy hz => ?taken⟩,
    fun s k x p hx hs => ⟨fun hst => ?started, fun hst => ?badReady⟩, fun s k kind p h => restoreAnswer_unawaited h,
    fun s t k x p room rest hx hst hs hl htag hm ht hroom hrest => ?held⟩
  case beyond =>
    rw [restoreAnswer_loadack hx hst]
    exact takeLoadAck_refused ht.symm hm.symm (hbad.imp_right .inl)
  case length => rw [restoreAnswer_loadack hx hst, takeLoadAck_length hl]
  case again =>
    rw [restoreAnswer_loadack hx hst]
    refine takeLoadAck_refused ht.symm hm.symm (.inr (.inr ?_))
    exact hbad.imp (fun h => ⟨hne, h⟩) fun h => ⟨hne, h⟩
  case taken =>
    obtain ⟨hlim, htake⟩ := takeLoadAck_taken hx hst (p := [hi, lo, hi', lo']) rfl ht.symm hm.symm h1 h2 hy hz
    rw [restoreAnswer_loadack hx hst]
    refine ⟨hlim, fun hok => ?_⟩
    obtain ⟨cache, reader, ha, hb, hc⟩ := htake hok
    refine ⟨cache, reader, ha, hb, fun hne => (hc hne).trans ?_⟩
    by_cases h : m = 0xFFFF
    · rw [if_pos h, if_pos (decide_eq_false fun hx => hx h)]
    · rw [if_neg h, decide_eq_true h]
      exact if_neg (by decide)
  case started =>
    rw [restoreAnswer_started hx hst hs]
    exact ⟨takeStarted_length, takeStarted_good hx, takeStarted_bad⟩
  case badReady =>
    rw [restoreAnswer_ready hx hst hs]
    exact ⟨takeReady_length, takeReady_tag, takeReady_context⟩
  case ready =>
    rw [restoreAnswer_ready hx hst hs, takeReady_accepted hl ht hm, succeed_eq hx]
    obtain ⟨h1, h2, h3⟩ := refuseAll_noLinks_frame .partBusy (s.queues.hold[k].drop (32 - s.queues.out.length)) (released k s)
    obtain ⟨hctx, -⟩ := endSession_rest k s
    refine ⟨?_, ?_, ?_, fun j hj => ?_, ?_⟩
    · rw [h1]
      exact set_same ..
    · rw [(refuseAll_queues ..).1]
      exact set_same ..
    · rw [h3]
      show (endSession k s).catSt[x.img].users = _
      rw [endSession_shape hx]
      exact congrArg CatStatus.users (set_same ..)
    · rw [h1]
      exact set_other _ hj _
    · rw [h2]
      exact hctx
  case held =>
    rw [restoreAnswer_ready hx hst hs, takeReady_accepted hl htag hm, succeed_eq hx, ← hrest] at ht
    obtain ⟨hh, ho, hv⟩ := refuseAll_queues .partBusy rest (released k s)
    obtain ⟨-, -, -, hau, hpool⟩ := endSession_rest k s
    obtain ⟨htab, -, -, -, hports, -⟩ := endSession_frame k s
    refine ⟨?_, ?_, ?_, fun hnil => ?_, fun hlaw hlen hfree => ?_⟩
    · rw [ht, ho, hroom]
      rfl
    · rw [ht, hh]
      rfl
    · rw [ht, hv]
      rfl
    · rw [ht, hnil]
      exact ⟨rfl, hpool, hports, hau⟩
    · have howes : Owes (rest ++ []) [] (released k s) := by
        have h0 : Owes [] [] s := owes_nil.2 hlaw
        have h1 := h0.taken (q := (released k s).queues) (l := rest) fun b => by
          rw [hrest]
          exact LinkLaw.references_release b k _ s.queues
        exact h1.congr hpool rfl
      have hfb : freeBufs (released k s) = freeBufs s := freeBufs_congr hpool
      obtain ⟨h1, h2, -, new, h4, h5, h6⟩ := refuseAll_room .partBusy rest (released k s) howes hlen (by rw [hfb]; exact hfree)
      rw [ht]
      refine ⟨h1.trans hports, h2.trans hau, new, congrArg Queues.trunk h4, h5, h6.trans ?_⟩
      rw [refusalsOf_congr (s := s) (t := released k s) _ _ htab fun b _ => by
        show ((endSession k s).pool[b]).frame = _
        rw [hpool]]

end Sys2Proof.Machine
end

section
/-! PROOFS. The frames of a READ-RANGE (O40). -/

namespace Sys2Proof.Machine

open Sys2Proof.Safety

/-! ## The size of a frame (R197) -/

theorem perFrame_of {t size : Nat} (h : entrySize t = some size) : perFrame t = min 8 (236 / (1 + size)) := by
  unfold perFrame
  rw [h]
  rfl

theorem perFrame_fits (size : Nat) : 1 + min 8 (236 / (1 + size)) * (1 + size) ≤ 237 := by
  have h1 : min 8 (236 / (1 + size)) * (1 + size) ≤ 236 / (1 + size) * (1 + size) := Nat.mul_le_mul_right _ (Nat.min_le_right ..)
  have h2 := Nat.div_mul_le_self 236 (1 + size)
  omega

theorem perFrame_most {size n : Nat} (h8 : n ≤ 8) (h : 1 + n * (1 + size) ≤ 237) : n ≤ min 8 (236 / (1 + size)) :=
  Nat.le_min.2 ⟨h8, (Nat.le_div_iff_mul_le (by omega)).2 (by omega)⟩

/-! ## The frame (R175, R176) -/

section
variable {s : State} {t a b : Nat}

theorem rangeFrame_restart (h : s.ma.restartMark = true) : rangeFrame t a b s = (.restart, false, []) := if_pos h

theorem rangeFrame_last (h : s.ma.restartMark = false) (hl : b < a + perFrame t) :
    rangeFrame t a b s = (.ok, false, rangeData t a (b + 1 - a) s) := by
  have hn : min (perFrame t) (b + 1 - a) = b + 1 - a := by omega
  refine (if_neg (by rw [h]; decide)).trans ?_
  dsimp only
  rw [hn, decide_eq_false (by omega)]

theorem rangeFrame_full (h : s.ma.restartMark = false) (hl : a + perFrame t ≤ b) :
    rangeFrame t a b s = (.ok, true, rangeData t a (perFrame t) s) := by
  have hn : min (perFrame t) (b + 1 - a) = perFrame t := by omega
  refine (if_neg (by rw [h]; decide)).trans ?_
  dsimp only
  rw [hn, decide_eq_true hl]

/-- A frame of a read with nothing in its way. -/
theorem exec_rangeFrame {o : Origin} {q : Request} (hl : s.ma.long = some ⟨o, .readRange t a b⟩) (hq : (s.ma.origin o).req = some q)
    (hn : s.ma.replies = []) (hr : HasRoom o s) (hf : freeBufs s ≠ []) {st : Status} {more : Bool} {data : List Byte}
    (hx : rangeFrame t a b s = (st, more, data)) : ∃ c : BufId, s.pool[c].frame = none ∧ exec .readRangeFrame s =
      .next (finish (afterFrame o t a b more { s with
        pool := s.pool.set c ⟨some (replyFrame q st more data s), 1⟩, queues := atTail o c false s.queues })) := by
  obtain ⟨c, hc, ha⟩ := alloc_free (f := replyFrame q st more data s) hf
  refine ⟨c, hc, ?_⟩
  have hpush : ∀ f : Frame, pushTx o ⟨c, false⟩ { s with pool := s.pool.set c ⟨some f, 0⟩ } =
      { s with pool := s.pool.set c ⟨some f, 1⟩, queues := atTail o c false s.queues } := fun f => by
    have hp : vmod (s.pool.set c ⟨some f, 0⟩) c (fun x => { x with refs := x.refs + 1 }) = s.pool.set c ⟨some f, 1⟩ := vmod_set ..
    rw [← hp]
    cases o <;> rfl
  have hs : sendRange o t a b s = afterFrame o t a b more { s with
      pool := s.pool.set c ⟨some (replyFrame q st more data s), 1⟩, queues := atTail o c false s.queues } := by
    unfold sendRange
    rw [hn, txRoom_iff.2 hr, hq, ← hpush]
    refine (if_pos rfl).trans ?_
    dsimp only
    rw [hx]
    dsimp only
    rw [ha]
  show execReadRangeFrame s = _
  unfold execReadRangeFrame
  rw [hl]
  exact congrArg (fun x => Host.Outcome.next (finish x)) hs

/-- The agent once a read has ended. -/
def readEnded (o : Origin) (a : Agent) : Agent := { atRest o a with long := none, restartMark := false }

theorem afterFrame_ended (o : Origin) (t a b : Nat) (s : State) : afterFrame o t a b false s = { s with ma := readEnded o s.ma } := by
  cases o <;> rfl

theorem afterFrame_goesOn {o : Origin} (hl : s.ma.long = some ⟨o, .readRange t a b⟩) :
    afterFrame o t a b true s = { s with ma := { s.ma with long := some ⟨o, .readRange t (a + perFrame t) b⟩ } } := setJob_eq hl _

section
variable {o : Origin} {q : Request} (hl : s.ma.long = some ⟨o, .readRange t a b⟩) (hq : (s.ma.origin o).req = some q)
  (hn : s.ma.replies = []) (hr : HasRoom o s) (hf : freeBufs s ≠ [])
include hl hq hn hr hf

theorem rangeSent_last (h : s.ma.restartMark = false) (hb : b < a + perFrame t) : ∃ c : BufId, s.pool[c].frame = none ∧
    exec .readRangeFrame s = .next (finish { s with
      pool := s.pool.set c ⟨some ⟨q.src, s.tables.settings.mgmtAddr, .mgmtReply, q.seq,
        q.payload.getD 0 0 :: 0 :: 0 :: byte t ::
          (List.range (b + 1 - a)).flatMap (fun j => byte (a + j) :: encodeEntry t (a + j) s)⟩, 1⟩
      queues := atTail o c false s.queues, ma := readEnded o s.ma }) := by
  obtain ⟨c, hc, hx⟩ := exec_rangeFrame hl hq hn hr hf (rangeFrame_last h hb)
  exact ⟨c, hc, hx.trans (congrArg (fun x => Host.Outcome.next (finish x)) (afterFrame_ended ..))⟩

theorem rangeSent_full (h : s.ma.restartMark = false) (hb : a + perFrame t ≤ b) : ∃ c : BufId, s.pool[c].frame = none ∧
    exec .readRangeFrame s = .next (finish { s with
      pool := s.pool.set c ⟨some ⟨q.src, s.tables.settings.mgmtAddr, .mgmtReply, q.seq,
        q.payload.getD 0 0 :: 0 :: 1 :: byte t ::
          (List.range (perFrame t)).flatMap (fun j => byte (a + j) :: encodeEntry t (a + j) s)⟩, 1⟩
      queues := atTail o c false s.queues, ma := { s.ma with long := some ⟨o, .readRange t (a + perFrame t) b⟩ } }) := by
  obtain ⟨c, hc, hx⟩ := exec_rangeFrame hl hq hn hr hf (rangeFrame_full h hb)
  exact ⟨c, hc, hx.trans (congrArg (fun x => Host.Outcome.next (finish x)) (afterFrame_goesOn hl))⟩

theorem rangeSent_restart (h : s.ma.restartMark = true) : ∃ c : BufId, s.pool[c].frame = none ∧
    exec .readRangeFrame s = .next (finish { s with
      pool := s.pool.set c ⟨some ⟨q.src, s.tables.settings.mgmtAddr, .mgmtReply, q.seq, [q.payload.getD 0 0, 0x0A, 0]⟩, 1⟩
      queues := atTail o c false s.queues, ma := readEnded o s.ma }) := by
  obtain ⟨c, hc, hx⟩ := exec_rangeFrame hl hq hn hr hf (rangeFrame_restart h)
  exact ⟨c, hc, hx.trans (congrArg (fun x => Host.Outcome.next (finish x)) (afterFrame_ended ..))⟩

end

end

theorem entrySize_table : ∀ p ∈ [(0, 13), (1, 24), (2, 8), (3, 54), (4, 11), (5, 8), (8, 20), (9, 66), (10, 7), (11, 10), (12, 4), (13, 3)],
    entrySize p.1 = some p.2 := by decide

/-- Settles O40: the frame by the restart mark and what remains, for both origins alike. -/
theorem rangeFrameSent : Obligations.RangeFrameSent := by
  unfold Obligations.RangeFrameSent
  refine ⟨fun s t a b q n hl hq hn hr hf hp => ?_, fun s t a b q n hl hq hn hr hf hp => ?_, fun t size h => ?_⟩
  · subst hp
    exact ⟨fun h hb => rangeSent_last (o := .trunk) hl hq hn (.inl ⟨rfl, hr⟩) hf h hb,
      fun h hb => rangeSent_full (o := .trunk) hl hq hn (.inl ⟨rfl, hr⟩) hf h hb,
      fun h => rangeSent_restart (o := .trunk) hl hq hn (.inl ⟨rfl, hr⟩) hf h⟩
  · subst hp
    exact ⟨fun h hb => rangeSent_last (o := .service) hl hq hn (.inr ⟨rfl, hr⟩) hf h hb,
      fun h hb => rangeSent_full (o := .service) hl hq hn (.inr ⟨rfl, hr⟩) hf h hb,
      fun h => rangeSent_restart (o := .service) hl hq hn (.inr ⟨rfl, hr⟩) hf h⟩
  · rw [perFrame_of (entrySize_table _ h)]
    exact ⟨Nat.min_le_left .., perFrame_fits size, fun n => perFrame_most⟩

end Sys2Proof.Machine
end

section
/-! PROOFS. The engine reset (O58). -/

namespace Sys2Proof.Machine

open Sys2Proof.Safety

/-! ## What the reset leaves, but for the long operation -/

/-- The reader at the engine reset (R93). -/
def resetReader : Reader → Reader
  | .fill f => .fill { f with reqs := [], pin := false, pre := false, orphan := true }
  | .scan _ => .scan false
  | r => r

/-- The scheduler's choices at the engine reset (R113). -/
def Segment.fresh (g : Segment) : Segment := { g with debt := 0, ringCursor := 0, urgentCursor := 0, lastTurn := .urgent }

/-- The state after an engine reset, with pin reservation `v` and long operation `l`. -/
def resetTo (v : Nat) (l : Option LongOp) (s : State) : State :=
  { s with
    slots := (resetSlots s).slots, catSt := (resetSlots s).catSt, bc := { s.bc with fills := [], reservation := v }
    reader := resetReader s.reader, lm := { s.lm with requests := Vector.replicate 4 false }
    seg := s.seg.fresh.closed
    queues := { s.queues with hold := Vector.replicate 32 [], out := outKept s, trunk := trunkKept s }
    pool := (resetQueues (resetSlots s)).pool
    ma := { s.ma with
      trunk := { s.ma.trunk with link := none }, service := { s.ma.service with link := none }, long := l } }

theorem releaseAll_shape (bs : List BufId) (s : State) : releaseAll bs s = { s with pool := (releaseAll bs s).pool } := by
  unfold releaseAll
  induction bs generalizing s with
  | nil => rfl
  | cons b bs ih =>
    rw [List.foldl_cons]
    exact (ih (dropRef b s)).trans rfl

theorem resetCache_eq (s : State) : resetCache s = { s with bc := { s.bc with fills := [] }, reader := resetReader s.reader } := by
  unfold resetCache
  dsimp only [updBc]
  cases s.reader <;> rfl

theorem engineReset_eq (s : State) : engineReset s = abortLong (resetTo s.bc.reservation s.ma.long s) := by
  have hq : resetQueues (resetSlots s) = { resetSlots s with
      queues := { s.queues with hold := Vector.replicate 32 [], out := outKept s, trunk := trunkKept s }
      pool := (resetQueues (resetSlots s)).pool } := releaseAll_shape ..
  unfold engineReset
  rw [resetCache_eq, hq]
  unfold resetSegment
  rw [closeTurn_seg]
  rfl

theorem resetReader_other {r : Reader} (hf : ∀ f, r ≠ .fill f) (hb : ∀ b, r ≠ .scan b) : resetReader r = r := by
  cases r with
  | fill f => exact absurd rfl (hf f)
  | scan b => exact absurd rfl (hb b)
  | _ => rfl

theorem closed_rest (g : Segment) : g.closed.silent = g.silent ∧ g.closed.debt = g.debt ∧ g.closed.ringCursor = g.ringCursor ∧
    g.closed.urgentCursor = g.urgentCursor ∧ g.closed.lastTurn = g.lastTurn := by
  obtain ⟨port, silent, debt, ring, urgent, last, turn, timer⟩ := g
  cases port <;> exact ⟨rfl, rfl, rfl, rfl, rfl⟩

/-! ## The long operation at the reset (R180) -/

theorem clearPinMarks_reset (v : Nat) (l : Option LongOp) (s : State) : clearPinMarks (resetTo v l s) = resetTo 0 l s := by
  obtain ⟨r, he, hf, hn⟩ := clearPinMarks_eq (resetTo v l s)
  have hr : r = resetReader s.reader := by
    cases hs : s.reader with
    | fill f => exact hf _ (congrArg resetReader hs)
    | _ => exact (hn fun f hx => by rw [show (resetTo v l s).reader = resetReader s.reader from rfl, hs] at hx; cases hx).trans (congrArg resetReader hs)
  rw [he, hr]
  rfl

/-- The long operation `l` that is left of `s`, and how the reset's end `t` stands to `u`, which holds it. -/
def LongReset (s t u : State) (l : Option LongOp) : Prop :=
  (s.ma.long = none → l = none ∧ t = u) ∧
  (∀ p k x, s.ma.long = some ⟨p, .erase k true x⟩ → l = some ⟨p, .erase k true true⟩ ∧ t = u) ∧
  (∀ p r d x, s.ma.long = some ⟨p, .program r d true x⟩ → l = some ⟨p, .program r d true true⟩ ∧ t = u) ∧
  (∀ p j, s.ma.long = some ⟨p, j⟩ → (∀ k x, j ≠ .erase k true x) → (∀ r d x, j ≠ .program r d true x) →
    l = none ∧ t = finalReply p .aborted [] false u)

section
variable {s t u : State}

theorem LongReset.idle (h : s.ma.long = none) (ht : t = u) : LongReset s t u none := by
  refine ⟨fun _ => ⟨rfl, ht⟩, fun p k x hx => ?_, fun p r d x hx => ?_, fun p j hx => ?_⟩ <;> rw [h] at hx <;> cases hx

theorem LongReset.ended {p : Origin} {j : LongJob} (h : s.ma.long = some ⟨p, j⟩) (he : ∀ k x, j ≠ .erase k true x)
    (hp : ∀ r d x, j ≠ .program r d true x) (ht : t = finalReply p .aborted [] false u) : LongReset s t u none := by
  refine ⟨fun hx => ?_, fun q k x hx => ?_, fun q r d x hx => ?_, fun q i hx _ _ => ?_⟩ <;> rw [h] at hx <;> cases hx
  · exact absurd rfl (he k x)
  · exact absurd rfl (hp r d x)
  · exact ⟨rfl, ht⟩

theorem LongReset.erasing {p : Origin} {k : Nat} {x : Bool} (h : s.ma.long = some ⟨p, .erase k true x⟩) (ht : t = u) :
    LongReset s t u (some ⟨p, .erase k true true⟩) := by
  refine ⟨fun hx => ?_, fun q k' x' hx => ?_, fun q r d x' hx => ?_, fun q i hx hn => ?_⟩ <;> rw [h] at hx <;> cases hx
  · exact ⟨rfl, ht⟩
  · exact absurd rfl (hn k x)

theorem LongReset.programming {p : Origin} {r : Nat} {d : List Byte} {x : Bool} (h : s.ma.long = some ⟨p, .program r d true x⟩)
    (ht : t = u) : LongReset s t u (some ⟨p, .program r d true true⟩) := by
  refine ⟨fun hx => ?_, fun q k' x' hx => ?_, fun q r d x' hx => ?_, fun q i hx _ hn => ?_⟩ <;> rw [h] at hx <;> cases hx
  · exact ⟨rfl, ht⟩
  · exact absurd rfl (hn r d x)

end

theorem pinImage_other {s : State} (h : ∀ p i w, s.ma.long ≠ some ⟨p, .pin i w⟩) : pinImage s = none := by
  unfold pinImage
  split
  next hl => exact absurd hl (h _ _ _)
  next => rfl

section
variable {s : State} {p : Origin}

theorem abortLong_ends {j : LongJob} (v : Nat) (h : (∃ t a b, j = .readRange t a b) ∨ (∃ c, j = .selfCheck c) ∨ (∃ k x, j = .erase k false x) ∨
    ∃ r d x, j = .program r d false x) :
    abortLong (resetTo v (some ⟨p, j⟩) s) = finalReply p .aborted [] false (resetTo v none s) := by
  have he : endLong .aborted [] (resetTo v (some ⟨p, j⟩) s) = finalReply p .aborted [] false (resetTo v none s) := endLong_eq rfl ..
  rw [← he]
  rcases h with ⟨_, _, _, rfl⟩ | ⟨_, rfl⟩ | ⟨_, _, rfl⟩ | ⟨_, _, _, rfl⟩ <;> rfl

theorem abortLong_pin {i : ImageId} {w : List Nat} (v : Nat) :
    abortLong (resetTo v (some ⟨p, .pin i w⟩) s) = finalReply p .aborted [] false (resetTo 0 none s) := by
  show endLong .aborted [] (clearPinMarks (resetTo v (some ⟨p, .pin i w⟩) s)) = _
  rw [clearPinMarks_reset]
  exact endLong_eq rfl ..

/-- How the reset deals with each long operation but a COMMIT. -/
theorem engineReset_long (hc : commitRuns s = false) : ∃ v l, v = (if pinImage s ≠ none then 0 else s.bc.reservation) ∧
    LongReset s (engineReset s) (resetTo v l s) l := by
  have hres : (∀ p i w, s.ma.long ≠ some ⟨p, .pin i w⟩) → s.bc.reservation = if pinImage s ≠ none then 0 else s.bc.reservation :=
    fun h => (if_neg fun hx => hx (pinImage_other h)).symm
  rw [engineReset_eq]
  rcases hl : s.ma.long with _ | ⟨p, j⟩
  · exact ⟨_, none, hres fun p i w hx => by (rw [hl] at hx; cases hx), .idle hl rfl⟩
  by_cases hpin : ∃ i w, j = .pin i w
  · obtain ⟨i, w, rfl⟩ := hpin
    refine ⟨0, none, (if_pos (by rw [pinImage_pin hl]; exact fun hx => by cases hx)).symm, .ended hl ?_ ?_ (abortLong_pin _)⟩
    · exact fun k x hx => by cases hx
    · exact fun r d x hx => by cases hx
  refine ⟨s.bc.reservation, ?_⟩
  have hv := hres fun q i w hx => by
    rw [hl] at hx
    cases hx
    exact hpin ⟨i, w, rfl⟩
  cases j with
  | pin i w => exact absurd ⟨i, w, rfl⟩ hpin
  | commit b =>
    unfold commitRuns at hc
    rw [hl] at hc
    cases hc
  | readRange t a b => exact ⟨none, hv, .ended hl (fun k x hx => by cases hx) (fun r d x hx => by cases hx) (abortLong_ends _ (.inl ⟨t, a, b, rfl⟩))⟩
  | selfCheck c => exact ⟨none, hv, .ended hl (fun k x hx => by cases hx) (fun r d x hx => by cases hx) (abortLong_ends _ (.inr (.inl ⟨c, rfl⟩)))⟩
  | erase k st x =>
    cases st with
    | true => exact ⟨_, hv, .erasing hl (setJob_eq rfl _)⟩
    | false =>
      exact ⟨none, hv, .ended hl (fun k x hx => by cases hx) (fun r d x hx => by cases hx)
        (abortLong_ends _ (.inr (.inr (.inl ⟨k, x, rfl⟩))))⟩
  | program r d st x =>
    cases st with
    | true => exact ⟨_, hv, .programming hl (setJob_eq rfl _)⟩
    | false =>
      exact ⟨none, hv, .ended hl (fun k x hx => by cases hx) (fun r d x hx => by cases hx)
        (abortLong_ends _ (.inr (.inr (.inr ⟨r, d, x, rfl⟩))))⟩

end

/-- The reset's end but for replies. -/
theorem LongReset.quiet {s t u : State} {l : Option LongOp} (h : LongReset s t u l) :
    t.noReply = u.noReply ∧ t.links = u.links ∧ t.queues.hold = u.queues.hold ∧ t.queues.out = u.queues.out ∧
      t.ma.pointer = u.ma.pointer := by
  obtain ⟨hn, he, hp, hj⟩ := h
  have hor : t = u ∨ ∃ p, t = finalReply p .aborted [] false u := by
    rcases hl : s.ma.long with _ | ⟨p, j⟩
    · exact .inl (hn hl).2
    by_cases h1 : ∃ k x, j = .erase k true x
    · obtain ⟨k, x, rfl⟩ := h1
      exact .inl (he p k x hl).2
    by_cases h2 : ∃ r d x, j = .program r d true x
    · obtain ⟨r, d, x, rfl⟩ := h2
      exact .inl (hp p r d x hl).2
    · exact .inr ⟨p, (hj p j hl (fun k x hx => h1 ⟨k, x, hx⟩) fun r d x hx => h2 ⟨r, d, x, hx⟩).2⟩
  rcases hor with rfl | ⟨p, rfl⟩
  · exact ⟨rfl, rfl, rfl, rfl, rfl⟩
  · obtain ⟨h1, h2, h3⟩ := finalReply_quiet p .aborted [] false u
    exact ⟨finalReply_noReply .., finalReply_links .., h1, h2, h3⟩

/-! ## The queues at the reset (R133) -/

theorem isReply_iff {s : State} {e : TxEntry} : isReply s e = true ↔ ∃ f, s.pool[e.buf].frame = some f ∧ f.kind = .mgmtReply := by
  unfold isReply
  cases s.pool[e.buf].frame with
  | none => simp
  | some f => simp

theorem trunkKept_nil {s : State} (h : s.queues.trunk = []) : trunkKept s = [] := by
  unfold trunkKept
  rw [h]

theorem trunkKept_cons {s : State} {e : TxEntry} {es : List TxEntry} (h : s.queues.trunk = e :: es) :
    trunkKept s = e :: es.filter (isReply s) := by
  unfold trunkKept
  rw [h]

/-- With no hold entry, a buffer is referenced where an entry of the other queues holds it. -/
theorem references_noHold {b : BufId} {q : Queues} (h : q.hold = Vector.replicate 32 []) :
    0 < references b q ↔ b ∈ q.out ++ (q.trunk ++ q.service).map TxEntry.buf := by
  have hz : (q.hold.toList.flatten).count b = 0 := by
    rw [h]
    rfl
  unfold references
  rw [hz, ← List.count_pos_iff, List.map_append, List.count_append, List.count_append]
  omega

/-- Settles O58: the reset by `engineReset_long` and `resetTo`, its queues by the laws of `resetQueues`. -/
theorem engineResetDone : Obligations.EngineResetDone := by
  unfold Obligations.EngineResetDone
  intro s o h
  have hx : exec .engineReset s = .next (finish (turnPointer o (doEngineReset o [] s))) :=
    congrArg (fun x => Host.Outcome.next (finish x)) (serveRow_asked h doEngineReset)
  refine ⟨fun hc => ?_, fun hc => ?_⟩
  · rw [hx]
    exact congrArg (fun x => Host.Outcome.next (finish (turnPointer o x))) (if_pos hc)
  obtain ⟨v, l, hv, hlong⟩ := engineReset_long hc
  obtain ⟨hr, hlinks, hhold, hout, hptr⟩ := hlong.quiet
  obtain ⟨-, -, htab, hsl, hctx, hcat, hlm, hbc, hrd, hfl, -, hseg, hports, hau, -, -⟩ := of_noReply hr
  refine ⟨engineReset s, resetTo v l s, l, ?served, htab, hctx, (congrArg Cache.lines hbc).trans rfl, (congrArg Cache.recency hbc).trans rfl, hfl, hports, hau, hlm,
    (congrArg Cache.fills hbc).trans rfl, fun k => ⟨?slots, ?hold⟩, fun i => ?cat, hout, ?debt, ?ring, ?urgent, ?last, ?quiet, congrArg Prod.fst hlinks,
    congrArg Prod.snd hlinks, hptr, fun x hx => ?sending,
    fun x hx => ?receiving, fun hx => ?idle, fun hx => ?silent, fun f hf => ?fill, fun b hb => ?scan, fun hf hb => ?other, ?res, rfl,
    trunkKept_nil, fun e es he => ?trunk, ?queues, fun hlaw => ⟨?law, fun b => ⟨fun hb => ?kept, fun hb => ?freed⟩⟩, rfl, hlong⟩
  case served =>
    rw [hx]
    exact congrArg (fun x => Host.Outcome.next (finish (turnPointer o x))) (if_neg (by rw [hc]; decide))
  case slots =>
    rw [hsl]
    show (Vector.mk _ _ : Vector SlotStatus 32)[k] = _
    simp [slotIds, SlotStatus.engineReset]
  case hold =>
    rw [hhold]
    simp [resetTo]
  case cat =>
    rw [hcat]
    show (vmap _ s.catSt)[i] = _
    simp [vmap]
  case debt => exact (congrArg Segment.debt hseg).trans (closed_rest _).2.1
  case ring => exact (congrArg Segment.ringCursor hseg).trans (closed_rest _).2.2.1
  case urgent => exact (congrArg Segment.urgentCursor hseg).trans (closed_rest _).2.2.2.1
  case last => exact (congrArg Segment.lastTurn hseg).trans (closed_rest _).2.2.2.2
  case quiet => exact (congrArg Segment.silent hseg).trans (closed_rest _).1
  case sending =>
    rw [hseg]
    show (Segment.closed _).port = _ ∧ (Segment.closed _).turn = _
    rw [Segment.closed_sending (x := x) (g := s.seg.fresh) hx]
    exact ⟨hx, rfl⟩
  case receiving =>
    rw [hseg]
    show (Segment.closed _).port = _ ∧ (Segment.closed _).turn = _
    rw [Segment.closed_receiving (w := x) (g := s.seg.fresh) hx]
    exact ⟨hx, rfl⟩
  case idle =>
    rw [hseg]
    show (Segment.closed _).port = _ ∧ (Segment.closed _).turn = _ ∧ (Segment.closed _).answerTimer = _
    rw [Segment.closed_idle (g := s.seg.fresh) hx.symm]
    exact ⟨rfl, rfl, rfl⟩
  case silent =>
    rw [hseg]
    show (Segment.closed _).port = _ ∧ (Segment.closed _).turn = _
    rw [Segment.closed_silent (g := s.seg.fresh) hx]
    exact ⟨hx, rfl⟩
  case fill => exact hrd.trans (congrArg resetReader hf)
  case scan => exact hrd.trans (congrArg resetReader hb)
  case other => exact hrd.trans (resetReader_other hf hb)
  case res => exact (congrArg Cache.reservation hbc).trans hv
  case trunk =>
    refine ⟨es.filter (isReply s), trunkKept_cons he, List.filter_sublist, fun x hx => ?_⟩
    rw [List.mem_filter, isReply_iff]
    exact and_iff_right hx
  case queues =>
    dsimp only
    rw [hhold, hout]
  case law =>
    exact poolLaw_congr (resetQueues_pool (s := resetSlots s) (poolLaw_congr hlaw rfl rfl)) rfl (resetQueues_queues (resetSlots s)).symm
  case kept =>
    rw [← references_noHold rfl] at hb
    refine (resetQueues_frames (s := resetSlots s) (poolLaw_congr hlaw rfl rfl) b).1 ?_
    rw [resetQueues_queues]
    exact hb
  case freed =>
    rw [← references_noHold rfl] at hb
    refine (resetQueues_frames (s := resetSlots s) (poolLaw_congr hlaw rfl rfl) b).2 ?_
    rw [resetQueues_queues]
    exact Nat.eq_zero_of_not_pos hb

end Sys2Proof.Machine
end

section
/-! PROOFS. The table entries as bytes (O10). -/

namespace Sys2Proof.Machine

open Sys2Proof.Safety

/-! ## Items read from bytes (R198) -/

theorem rng_iff {lo hi n x : Nat} : rng lo hi n = some x ↔ (lo ≤ n ∧ n ≤ hi) ∧ x = n := by
  unfold rng
  split
  case isTrue h => simp [h, eq_comm]
  case isFalse h => simp [h]

theorem rdFlag_iff {b : List Byte} {j : Nat} {x : Bool} : rdFlag b j = some x ↔ rd8 b j ≤ 1 ∧ x = decide (rd8 b j = 1) := by
  unfold rdFlag
  split
  case h_1 h => simp [h, eq_comm]
  case h_2 h => simp [h, eq_comm]
  case h_3 h0 h1 =>
    refine iff_of_false (fun hx => by cases hx) fun hx => ?_
    rcases Nat.le_one_iff_eq_zero_or_eq_one.1 hx.1 with h | h
    · exact h0 h
    · exact h1 h

theorem finAt_iff {k n : Nat} {x : Fin k} : finAt k n = some x ↔ x.val = n := by
  refine ⟨finAt_some, ?_⟩
  rintro rfl
  exact finAt_val x

theorem finAt_isSome {k n : Nat} : (∃ x, finAt k n = some x) ↔ n < k :=
  ⟨fun ⟨x, hx⟩ => finAt_some hx ▸ x.2, fun h => ⟨⟨n, h⟩, finAt_iff.2 rfl⟩⟩

theorem optFin_isSome {k n : Nat} : (∃ o, optFin k n = some o) ↔ n < k ∨ n = 0xFF := by
  unfold optFin
  split
  case isTrue h => exact iff_of_true ⟨_, rfl⟩ (.inr h)
  case isFalse h =>
    rw [or_iff_left h, ← finAt_isSome]
    simp

theorem codeAt_isSome {α : Type} {codes : List α} {n : Nat} : (∃ x, codeAt codes n = some x) ↔ n < codes.length := by
  simp [codeAt, List.getElem?_eq_some_iff]

/-- A code and its item, as they stand in a layout's table. -/
theorem codeAt_table {α : Type} {codes : List α} {n : Nat} {x : α} (h : codeAt codes n = some x) :
    (n, x) ∈ codes.zipIdx.map Prod.swap := List.mem_map.2 ⟨_, codeAt_some h, rfl⟩

/-! ## Items written as bytes -/

theorem byte_rd8 (b : List Byte) (j : Nat) : byte (rd8 b j) = b.getD j 0 := byte_of _

theorem rd8_lt (b : List Byte) (j : Nat) : rd8 b j < 256 := (b.getD j 0).isLt

theorem code_rd8 {α : Type} {codes : List α} {code : α → Byte} {b : List Byte} {j : Nat} {x : α} (h : codeAt codes (rd8 b j) = some x)
    (ht : ∀ p ∈ codes.zipIdx, code p.1 = byte p.2) : code x = b.getD j 0 := (ht _ (codeAt_some h)).trans (byte_rd8 b j)

theorem flagByte_rd8 {b : List Byte} {j : Nat} (h : rd8 b j ≤ 1) : flagByte (decide (rd8 b j = 1)) = b.getD j 0 := by
  rw [← byte_rd8]
  generalize rd8 b j = n at h
  interval_cases n <;> rfl

theorem optByte_rd8 {k : Nat} {b : List Byte} {j : Nat} {o : Option (Fin k)} (h : optFin k (rd8 b j) = some o) : optByte o = b.getD j 0 := by
  have hn := optFin_some h
  rw [← byte_rd8, ← hn]
  cases o <;> rfl

theorem be16_rd16 (b : List Byte) (j : Nat) : be16 (rd16 b j) = [b.getD j 0, b.getD (j + 1) 0] := by
  have h0 := rd8_lt b j
  have h1 := rd8_lt b (j + 1)
  have hd : rd16 b j / 256 = rd8 b j := by
    unfold rd16
    omega
  have hm : BitVec.ofNat 8 (rd16 b j) = byte (rd8 b (j + 1)) := by
    refine BitVec.eq_of_toNat_eq ?_
    unfold rd16 byte
    rw [BitVec.toNat_ofNat, BitVec.toNat_ofNat]
    omega
  show [byte (rd16 b j / 256), BitVec.ofNat 8 (rd16 b j)] = _
  rw [hd, hm, byte_rd8, byte_rd8]

theorem be32_bytes (w x y z : Byte) : be32 (w ++ x ++ y ++ z) = [w, x, y, z] := by
  have hx := x.isLt
  have hy := y.isLt
  have hz := z.isLt
  have hn : (w ++ x ++ y ++ z).toNat = 256 * (256 * (256 * w.toNat + x.toNat) + y.toNat) + z.toNat := by
    rw [append_byte_toNat, append_byte_toNat, append_byte_toNat]
  have he : ∀ (k : Nat) (v : Byte), (w ++ x ++ y ++ z).toNat / 2 ^ k % 256 = v.toNat → (w ++ x ++ y ++ z).extractLsb' k 8 = v :=
    fun k v h => BitVec.eq_of_toNat_eq (by rw [BitVec.extractLsb'_toNat, Nat.shiftRight_eq_div_pow]; exact h)
  have hw := w.isLt
  unfold be32
  rw [he 24 w (by rw [hn]; omega), he 16 x (by rw [hn]; omega), he 8 y (by rw [hn]; omega), he 0 z (by rw [hn]; omega)]

theorem be32_rd32 (b : List Byte) (j : Nat) : be32 (rd32 b j) = [b.getD j 0, b.getD (j + 1) 0, b.getD (j + 2) 0, b.getD (j + 3) 0] :=
  be32_bytes ..

theorem be32n_rd32 (b : List Byte) (j : Nat) : be32n (rd32 b j).toNat = [b.getD j 0, b.getD (j + 1) 0, b.getD (j + 2) 0, b.getD (j + 3) 0] := by
  unfold be32n
  rw [BitVec.ofNat_toNat, BitVec.setWidth_eq]
  exact be32_rd32 b j

/-- A list of known length, byte by byte. -/
theorem list_getD {n : Nat} {b : List Byte} (h : b.length = n) : (List.range n).map (fun j => b.getD j 0) = b := by
  refine List.ext_getElem (by simp [h]) fun j h1 h2 => ?_
  rw [List.getElem_map, List.getElem_range, List.getD_eq_getElem b 0 h2]

/-! ## Table 0, settings -/

theorem Settings.decode_iff {b : List Byte} {e : Settings} : Settings.decode b = some e ↔
    ((1 ≤ rd8 b 0 ∧ rd8 b 0 ≤ 0xEF) ∧ (1 ≤ rd8 b 1 ∧ rd8 b 1 ≤ 8) ∧ (0 ≤ rd8 b 4 ∧ rd8 b 4 ≤ 8) ∧ (1 ≤ rd8 b 5 ∧ rd8 b 5 ≤ 8) ∧
      (5 ≤ rd8 b 6 ∧ rd8 b 6 ≤ 255) ∧ (1 ≤ rd8 b 7 ∧ rd8 b 7 ≤ 16) ∧ (2 ≤ rd8 b 8 ∧ rd8 b 8 ≤ 15) ∧ (1 ≤ rd8 b 9 ∧ rd8 b 9 ≤ 8) ∧
      (0 ≤ rd8 b 10 ∧ rd8 b 10 ≤ 5) ∧ (0 ≤ rd8 b 11 ∧ rd8 b 11 ≤ 4) ∧ 1 ≤ rd8 b 12 ∧ rd8 b 12 ≤ 63) ∧
    ∃ down up, codeAt [DefaultAction.forward, .drop] (rd8 b 2) = some down ∧ codeAt [DefaultAction.forward, .drop] (rd8 b 3) = some up ∧
      e = ⟨byte (rd8 b 0), rd8 b 1, down, up, rd8 b 4, rd8 b 5, rd8 b 6, rd8 b 7, rd8 b 8, rd8 b 9, rd8 b 10, rd8 b 11, rd8 b 12⟩ := by
  constructor
  · intro h
    obtain ⟨_, h0, h⟩ := decode_step h
    obtain ⟨_, h1, h⟩ := decode_step h
    obtain ⟨down, h2, h⟩ := decode_step h
    obtain ⟨up, h3, h⟩ := decode_step h
    obtain ⟨_, h4, h⟩ := decode_step h
    obtain ⟨_, h5, h⟩ := decode_step h
    obtain ⟨_, h6, h⟩ := decode_step h
    obtain ⟨_, h7, h⟩ := decode_step h
    obtain ⟨_, h8, h⟩ := decode_step h
    obtain ⟨_, h9, h⟩ := decode_step h
    obtain ⟨_, h10, h⟩ := decode_step h
    obtain ⟨_, h11, h⟩ := decode_step h
    obtain ⟨_, h12, h⟩ := decode_step h
    rw [rng_iff] at h0 h1 h4 h5 h6 h7 h8 h9 h10 h11 h12
    refine ⟨⟨h0.1, h1.1, h4.1, h5.1, h6.1, h7.1, h8.1, h9.1, h10.1, h11.1, h12.1⟩, down, up, h2, h3, ?_⟩
    rw [← h0.2, ← h1.2, ← h4.2, ← h5.2, ← h6.2, ← h7.2, ← h8.2, ← h9.2, ← h10.2, ← h11.2, ← h12.2]
    exact (Option.some.inj h).symm
  · rintro ⟨⟨h0, h1, h4, h5, h6, h7, h8, h9, h10, h11, h12⟩, down, up, h2, h3, rfl⟩
    unfold Settings.decode
    rw [rng_iff.2 ⟨h0, rfl⟩, rng_iff.2 ⟨h1, rfl⟩, h2, h3, rng_iff.2 ⟨h4, rfl⟩, rng_iff.2 ⟨h5, rfl⟩, rng_iff.2 ⟨h6, rfl⟩,
      rng_iff.2 ⟨h7, rfl⟩, rng_iff.2 ⟨h8, rfl⟩, rng_iff.2 ⟨h9, rfl⟩, rng_iff.2 ⟨h10, rfl⟩, rng_iff.2 ⟨h11, rfl⟩, rng_iff.2 ⟨h12, rfl⟩]
    rfl

theorem DefaultAction.code_table : ∀ p ∈ [DefaultAction.forward, .drop].zipIdx, p.1.code = byte p.2 := by decide

theorem Settings.encode_decode {b : List Byte} {e : Settings} (hb : b.length = 13) (h : Settings.decode b = some e) : e.encode = b := by
  obtain ⟨-, down, up, hd, hu, rfl⟩ := Settings.decode_iff.1 h
  refine Eq.trans ?_ (list_getD hb)
  unfold Settings.encode
  rw [code_rd8 hd DefaultAction.code_table, code_rd8 hu DefaultAction.code_table]
  simp only [byte_rd8]
  rfl

end Sys2Proof.Machine
end

section
/-! PROOFS. The entries of the tables 1, 2, 4 and 5 as bytes (O10). -/

namespace Sys2Proof.Machine

open Sys2Proof.Safety

/-! ## Table 1, classes -/

/-- The field lengths at their places. -/
def layoutAt (b : List Byte) : Vector Nat 16 := ⟨⟨(List.range 16).map (fun f => rd8 b (8 + f))⟩, by simp⟩

theorem layoutAt_get (b : List Byte) (f : FieldId) : (layoutAt b)[f] = rd8 b (8 + f) := by
  unfold layoutAt
  simp

theorem decodeLayout_iff {b : List Byte} {v : Vector Nat 16} : decodeLayout b = some v ↔
    ((∀ f, f < 16 → rd8 b (8 + f) ≤ 8) ∧ ((List.range 16).map (fun f => rd8 b (8 + f))).sum ≤ 64) ∧ v = layoutAt b := by
  have hall : ((layoutAt b).toList.all (fun n => decide (n ≤ 8)) && decide ((layoutAt b).toList.sum ≤ 64)) = true ↔
      (∀ f, f < 16 → rd8 b (8 + f) ≤ 8) ∧ ((List.range 16).map (fun f => rd8 b (8 + f))).sum ≤ 64 := by
    have hl : (layoutAt b).toList = (List.range 16).map (fun f => rd8 b (8 + f)) := rfl
    rw [Bool.and_eq_true, hl, List.all_map, List.all_eq_true, decide_eq_true_iff]
    simp
  show (if ((layoutAt b).toList.all (fun n => decide (n ≤ 8)) && decide ((layoutAt b).toList.sum ≤ 64)) = true then some (layoutAt b)
    else none) = some v ↔ _
  split
  case isTrue h =>
    rw [Option.some.injEq, and_iff_right (hall.1 h)]
    exact eq_comm
  case isFalse h => exact iff_of_false (fun hx => by cases hx) fun hx => h (hall.2 hx.1)

theorem ClassEntry.decode_iff {b : List Byte} {e : ClassEntry} : ClassEntry.decode b = some e ↔
    ((0 ≤ rd8 b 0 ∧ rd8 b 0 ≤ 7) ∧ (0 ≤ rd8 b 3 ∧ rd8 b 3 ≤ 3) ∧ (1 ≤ rd8 b 4 ∧ rd8 b 4 ≤ 15) ∧ rd8 b 6 ≤ 1 ∧ rd8 b 7 ≤ 1 ∧
      (∀ f, f < 16 → rd8 b (8 + f) ≤ 8) ∧ ((List.range 16).map (fun f => rd8 b (8 + f))).sum ≤ 64) ∧
    ∃ selector policy loss, optFin 16 (rd8 b 1) = some selector ∧
      codeAt [FailPolicy.retry, .latch, .report, .ignore] (rd8 b 2) = some policy ∧
      codeAt [LossPolicy.keep, .clear] (rd8 b 5) = some loss ∧
      e = ⟨rd8 b 0, selector, policy, rd8 b 3, rd8 b 4, loss, decide (rd8 b 6 = 1), decide (rd8 b 7 = 1), layoutAt b⟩ := by
  constructor
  · intro h
    obtain ⟨_, h0, h⟩ := decode_step h
    obtain ⟨selector, h1, h⟩ := decode_step h
    obtain ⟨policy, h2, h⟩ := decode_step h
    obtain ⟨_, h3, h⟩ := decode_step h
    obtain ⟨_, h4, h⟩ := decode_step h
    obtain ⟨loss, h5, h⟩ := decode_step h
    obtain ⟨_, h6, h⟩ := decode_step h
    obtain ⟨_, h7, h⟩ := decode_step h
    obtain ⟨_, h8, h⟩ := decode_step h
    rw [rng_iff] at h0 h3 h4
    rw [rdFlag_iff] at h6 h7
    rw [decodeLayout_iff] at h8
    refine ⟨⟨h0.1, h3.1, h4.1, h6.1, h7.1, h8.1⟩, selector, policy, loss, h1, h2, h5, ?_⟩
    rw [← h0.2, ← h3.2, ← h4.2, ← h6.2, ← h7.2, ← h8.2]
    exact (Option.some.inj h).symm
  · rintro ⟨⟨h0, h3, h4, h6, h7, h8⟩, selector, policy, loss, h1, h2, h5, rfl⟩
    unfold ClassEntry.decode
    rw [rng_iff.2 ⟨h0, rfl⟩, h1, h2, rng_iff.2 ⟨h3, rfl⟩, rng_iff.2 ⟨h4, rfl⟩, h5, rdFlag_iff.2 ⟨h6, rfl⟩, rdFlag_iff.2 ⟨h7, rfl⟩,
      decodeLayout_iff.2 ⟨h8, rfl⟩]
    rfl

theorem FailPolicy.code_table : ∀ p ∈ [FailPolicy.retry, .latch, .report, .ignore].zipIdx, p.1.code = byte p.2 := by decide

theorem LossPolicy.code_table : ∀ p ∈ [LossPolicy.keep, .clear].zipIdx, p.1.code = byte p.2 := by decide

theorem layoutAt_bytes (b : List Byte) : (layoutAt b).toList.map byte = (List.range 16).map (fun f => b.getD (8 + f) 0) := by
  have hl : (layoutAt b).toList = (List.range 16).map (fun f => rd8 b (8 + f)) := rfl
  rw [hl, List.map_map]
  exact List.map_congr_left fun f _ => byte_rd8 b (8 + f)

theorem ClassEntry.encode_decode {b : List Byte} {e : ClassEntry} (hb : b.length = 24) (h : ClassEntry.decode b = some e) :
    e.encode = b := by
  obtain ⟨⟨-, -, -, h6, h7, -⟩, selector, policy, loss, hs, hp, hl, rfl⟩ := ClassEntry.decode_iff.1 h
  refine Eq.trans ?_ (list_getD hb)
  unfold ClassEntry.encode
  rw [optByte_rd8 hs, code_rd8 hp FailPolicy.code_table, code_rd8 hl LossPolicy.code_table, flagByte_rd8 h6, flagByte_rd8 h7,
    layoutAt_bytes]
  simp only [byte_rd8]
  rfl

/-! ## Table 2, slots -/

theorem decodeExpClass_iff {n : Nat} {o : Option Byte} : decodeExpClass n = some o ↔ o.elim 0xFFFF BitVec.toNat = n := by
  unfold decodeExpClass
  split
  case isTrue h =>
    subst h
    cases o with
    | none => exact iff_of_true rfl rfl
    | some c =>
      have hc := c.isLt
      refine iff_of_false (fun hx => by cases hx) fun hx => ?_
      change c.toNat = 65535 at hx
      omega
  case isFalse h =>
    cases o with
    | none => exact iff_of_false (by simp) fun hx => h hx.symm
    | some c =>
      have hc := c.isLt
      simp only [Option.map_eq_some_iff, rng_iff, Option.some.injEq]
      show _ ↔ c.toNat = n
      constructor
      · rintro ⟨_, ⟨hr, rfl⟩, rfl⟩
        exact Nat.mod_eq_of_lt (by omega)
      · rintro rfl
        exact ⟨_, ⟨by omega, rfl⟩, byte_of c⟩

theorem decodeExpClass_isSome {n : Nat} : (∃ o, decodeExpClass n = some o) ↔ n ≤ 0xFF ∨ n = 0xFFFF := by
  simp only [decodeExpClass_iff]
  constructor
  · rintro ⟨_ | c, hc⟩
    · exact .inr hc.symm
    · have hlt := c.isLt
      change c.toNat = n at hc
      omega
  · rintro (h | h)
    · exact ⟨some (byte n), Nat.mod_eq_of_lt (by omega)⟩
    · exact ⟨none, h.symm⟩

theorem SlotEntry.decode_iff {b : List Byte} {e : SlotEntry} : SlotEntry.decode b = some e ↔
    (rd8 b 0 ≤ 1 ∧ (1 ≤ rd8 b 1 ∧ rd8 b 1 ≤ 0xEF) ∧ 0 ≤ rd16 b 6 ∧ rd16 b 6 ≤ 0x7FFF) ∧
    ∃ cls override group, decodeExpClass (rd16 b 2) = some cls ∧ optFin 16 (rd8 b 4) = some override ∧ optFin 4 (rd8 b 5) = some group ∧
      e = ⟨decide (rd8 b 0 = 1), byte (rd8 b 1), cls, override, group, BitVec.ofNat 15 (rd16 b 6)⟩ := by
  constructor
  · intro h
    obtain ⟨_, h0, h⟩ := decode_step h
    obtain ⟨_, h1, h⟩ := decode_step h
    obtain ⟨cls, h2, h⟩ := decode_step h
    obtain ⟨override, h4, h⟩ := decode_step h
    obtain ⟨group, h5, h⟩ := decode_step h
    obtain ⟨_, h6, h⟩ := decode_step h
    rw [rng_iff] at h1 h6
    rw [rdFlag_iff] at h0
    refine ⟨⟨h0.1, h1.1, h6.1⟩, cls, override, group, h2, h4, h5, ?_⟩
    rw [← h0.2, ← h1.2, ← h6.2]
    exact (Option.some.inj h).symm
  · rintro ⟨⟨h0, h1, h6⟩, cls, override, group, h2, h4, h5, rfl⟩
    unfold SlotEntry.decode
    rw [rdFlag_iff.2 ⟨h0, rfl⟩, rng_iff.2 ⟨h1, rfl⟩, h2, h4, h5, rng_iff.2 ⟨h6, rfl⟩]
    rfl

/-- The two bytes of an expected class. -/
def expBytes (o : Option Byte) : List Byte := o.elim [0xFF, 0xFF] (fun c => [0, c])

theorem SlotEntry.encode_eq (e : SlotEntry) : e.encode =
    [flagByte e.enabled, e.addr] ++ expBytes e.expClass ++ [optByte e.override, optByte e.group] ++ be16 e.groups.toNat := by
  unfold SlotEntry.encode
  cases e.expClass <;> rfl

theorem expBytes_rd16 {b : List Byte} {j : Nat} {o : Option Byte} (h : decodeExpClass (rd16 b j) = some o) :
    expBytes o = [b.getD j 0, b.getD (j + 1) 0] := by
  have hn := decodeExpClass_iff.1 h
  rw [← be16_rd16, ← hn]
  cases o with
  | none => rfl
  | some c =>
    have hc := c.isLt
    have hd : c.toNat / 256 = 0 := by omega
    show [0, c] = [BitVec.ofNat 8 (c.toNat / 256), BitVec.ofNat 8 c.toNat]
    rw [hd, BitVec.ofNat_toNat, BitVec.setWidth_eq]
    rfl

theorem SlotEntry.encode_decode {b : List Byte} {e : SlotEntry} (hb : b.length = 8) (h : SlotEntry.decode b = some e) : e.encode = b := by
  obtain ⟨⟨h0, -, -, h6⟩, cls, override, group, hc, ho, hg, rfl⟩ := SlotEntry.decode_iff.1 h
  refine Eq.trans ?_ (list_getD hb)
  have hgr : (BitVec.ofNat 15 (rd16 b 6)).toNat = rd16 b 6 := Nat.mod_eq_of_lt (by omega)
  rw [SlotEntry.encode_eq]
  dsimp only
  rw [expBytes_rd16 hc, optByte_rd8 ho, optByte_rd8 hg, flagByte_rd8 h0, hgr, be16_rd16, byte_rd8]
  rfl

/-! ## Table 4, forwarding rules -/

theorem FwdRule.good_iff {r : FwdRule} : r.good = true ↔ ¬ (r.kind = .status ∧ r.dir = .down) ∧ r.dstLow.toNat ≤ r.dstHigh.toNat ∧
    r.srcLow.toNat ≤ r.srcHigh.toNat := by
  unfold FwdRule.good
  simp only [Bool.and_eq_true, Bool.not_eq_true', Bool.and_eq_false_iff, decide_eq_true_iff, decide_eq_false_iff_not, and_assoc, not_and_or]

theorem FwdRule.decode_iff {b : List Byte} {e : FwdRule} : FwdRule.decode b = some e ↔
    (rd8 b 0 ≤ 1 ∧ (1 ≤ rd8 b 3 ∧ rd8 b 3 ≤ 0xFF) ∧ (1 ≤ rd8 b 4 ∧ rd8 b 4 ≤ 0xFF) ∧ rd8 b 10 ≤ 1) ∧
    (∃ dir kind action, codeAt [Direction.down, .up] (rd8 b 1) = some dir ∧ codeAt [RuleKind.data, .status] (rd8 b 2) = some kind ∧
      codeAt [FwdAction.forward, .forwardNoHold, .drop] (rd8 b 9) = some action ∧
      e = ⟨decide (rd8 b 0 = 1), dir, kind, byte (rd8 b 3), byte (rd8 b 4), b.getD 5 0, b.getD 6 0, b.getD 7 0, b.getD 8 0, action,
        decide (rd8 b 10 = 1)⟩) ∧ e.good = true := by
  constructor
  · intro h
    obtain ⟨_, h0, h⟩ := decode_step h
    obtain ⟨dir, h1, h⟩ := decode_step h
    obtain ⟨kind, h2, h⟩ := decode_step h
    obtain ⟨_, h3, h⟩ := decode_step h
    obtain ⟨_, h4, h⟩ := decode_step h
    obtain ⟨action, h9, h⟩ := decode_step h
    obtain ⟨_, h10, h⟩ := decode_step h
    rw [rng_iff] at h3 h4
    rw [rdFlag_iff] at h0 h10
    rw [h0.2, h3.2, h4.2, h10.2] at h
    dsimp only at h
    split at h
    case isTrue hg =>
      obtain rfl := Option.some.inj h
      exact ⟨⟨h0.1, h3.1, h4.1, h10.1⟩, ⟨dir, kind, action, h1, h2, h9, rfl⟩, hg⟩
    case isFalse => cases h
  · rintro ⟨⟨h0, h3, h4, h10⟩, ⟨dir, kind, action, h1, h2, h9, rfl⟩, hg⟩
    unfold FwdRule.decode
    rw [rdFlag_iff.2 ⟨h0, rfl⟩, h1, h2, rng_iff.2 ⟨h3, rfl⟩, rng_iff.2 ⟨h4, rfl⟩, h9, rdFlag_iff.2 ⟨h10, rfl⟩]
    exact if_pos hg

theorem Direction.code_table : ∀ p ∈ [Direction.down, .up].zipIdx, p.1.code = byte p.2 := by decide

theorem RuleKind.code_table : ∀ p ∈ [RuleKind.data, .status].zipIdx, p.1.code = byte p.2 := by decide

theorem FwdAction.code_table : ∀ p ∈ [FwdAction.forward, .forwardNoHold, .drop].zipIdx, p.1.code = byte p.2 := by decide

theorem FwdRule.encode_decode {b : List Byte} {e : FwdRule} (hb : b.length = 11) (h : FwdRule.decode b = some e) : e.encode = b := by
  obtain ⟨⟨h0, -, -, h10⟩, ⟨dir, kind, action, hd, hk, ha, rfl⟩, -⟩ := FwdRule.decode_iff.1 h
  refine Eq.trans ?_ (list_getD hb)
  unfold FwdRule.encode
  rw [flagByte_rd8 h0, code_rd8 hd Direction.code_table, code_rd8 hk RuleKind.code_table, code_rd8 ha FwdAction.code_table,
    flagByte_rd8 h10]
  simp only [byte_rd8]
  rfl

/-! ## Table 5, capture rules -/

theorem CapRule.decode_iff {b : List Byte} {e : CapRule} : CapRule.decode b = some e ↔
    (rd8 b 0 ≤ 1 ∧ 0 ≤ rd8 b 4 ∧ rd8 b 4 ≤ 239) ∧
    ∃ source field mode, codeAt [CapSource.dataDown, .dataUp, .status] (rd8 b 1) = some source ∧ finAt 16 (rd8 b 5) = some field ∧
      codeAt [TargetMode.addressed, .all] (rd8 b 7) = some mode ∧
      e = ⟨decide (rd8 b 0 = 1), source, b.getD 2 0, b.getD 3 0, rd8 b 4, field, b.getD 6 0, mode⟩ := by
  constructor
  · intro h
    obtain ⟨_, h0, h⟩ := decode_step h
    obtain ⟨source, h1, h⟩ := decode_step h
    obtain ⟨_, h4, h⟩ := decode_step h
    obtain ⟨field, h5, h⟩ := decode_step h
    obtain ⟨mode, h7, h⟩ := decode_step h
    rw [rng_iff] at h4
    rw [rdFlag_iff] at h0
    refine ⟨⟨h0.1, h4.1⟩, source, field, mode, h1, h5, h7, ?_⟩
    rw [← h0.2, ← h4.2]
    exact (Option.some.inj h).symm
  · rintro ⟨⟨h0, h4⟩, source, field, mode, h1, h5, h7, rfl⟩
    unfold CapRule.decode
    rw [rdFlag_iff.2 ⟨h0, rfl⟩, h1, rng_iff.2 ⟨h4, rfl⟩, h5, h7]
    rfl

theorem CapSource.code_table : ∀ p ∈ [CapSource.dataDown, .dataUp, .status].zipIdx, p.1.code = byte p.2 := by decide

theorem TargetMode.code_table : ∀ p ∈ [TargetMode.addressed, .all].zipIdx, p.1.code = byte p.2 := by decide

theorem CapRule.encode_decode {b : List Byte} {e : CapRule} (hb : b.length = 8) (h : CapRule.decode b = some e) : e.encode = b := by
  obtain ⟨⟨h0, -⟩, source, field, mode, hs, hf, hm, rfl⟩ := CapRule.decode_iff.1 h
  refine Eq.trans ?_ (list_getD hb)
  unfold CapRule.encode
  rw [flagByte_rd8 h0, code_rd8 hs CapSource.code_table, code_rd8 hm TargetMode.code_table]
  dsimp only
  rw [finAt_some hf]
  simp only [byte_rd8]
  rfl

end Sys2Proof.Machine
end

section
/-! PROOFS. The catalogue entry as bytes, and every entry's fields (O10). -/

namespace Sys2Proof.Machine

open Sys2Proof.Safety

/-! ## Table 3, catalogue -/

/-- The window at offset `k`. -/
def windowAt (b : List Byte) (k : Nat) : Window := ⟨decide (rd8 b k = 1), rd16 b (k + 1), rd16 b (k + 3), (rd32 b (k + 5)).toNat⟩

theorem Window.decode_iff {b : List Byte} {k : Nat} {w : Window} : Window.decode b k = some w ↔ rd8 b k ≤ 1 ∧ w = windowAt b k := by
  unfold Window.decode
  rw [Option.map_eq_some_iff]
  constructor
  · rintro ⟨x, hx, rfl⟩
    obtain ⟨h1, rfl⟩ := rdFlag_iff.1 hx
    exact ⟨h1, rfl⟩
  · rintro ⟨h1, rfl⟩
    exact ⟨_, rdFlag_iff.2 ⟨h1, rfl⟩, rfl⟩

theorem windowAt_good {b : List Byte} {k n : Nat} : (windowAt b k).good n = true ↔ (rd8 b k = 1 → rd16 b (k + 1) ≤ rd16 b (k + 3) ∧
    rd16 b (k + 3) < n ∧ (rd32 b (k + 5)).toNat ≤ 119039 ∧ (rd32 b (k + 5)).toNat + (rd16 b (k + 3) - rd16 b (k + 1)) ≤ 119039) := by
  unfold Window.good windowAt
  by_cases h : rd8 b k = 1
  · dsimp only
    rw [decide_eq_true h, forall_prop_of_true h, Bool.not_true, Bool.false_or, Bool.and_eq_true, Bool.and_eq_true, Bool.and_eq_true,
      decide_eq_true_iff, decide_eq_true_iff, decide_eq_true_iff, decide_eq_true_iff, and_assoc, and_assoc]
    exact Iff.rfl
  · simp [h]

theorem Window.encode_at {b : List Byte} {k : Nat} (h : rd8 b k ≤ 1) :
    (windowAt b k).encode = (List.range 9).map (fun j => b.getD (k + j) 0) := by
  unfold Window.encode windowAt
  dsimp only
  rw [flagByte_rd8 h, be16_rd16, be16_rd16, be32n_rd32]
  rfl

theorem CatEntry.decode_iff {b : List Byte} {e : CatEntry} : CatEntry.decode b = some e ↔
    (rd8 b 0 ≤ 1 ∧ (1 ≤ rd16 b 5 ∧ rd16 b 5 ≤ 4096) ∧ ∀ k ∈ [18, 27, 36, 45], rd8 b k ≤ 1 ∧ (windowAt b k).good (rd16 b 5) = true) ∧
    e = ⟨decide (rd8 b 0 = 1), rd32 b 1, rd16 b 5, rd32 b 7, rd32 b 11, rd8 b 15, rd16 b 16,
      #v[windowAt b 18, windowAt b 27, windowAt b 36, windowAt b 45]⟩ := by
  have hall : (∀ k ∈ [18, 27, 36, 45], rd8 b k ≤ 1 ∧ (windowAt b k).good (rd16 b 5) = true) ↔
      (rd8 b 18 ≤ 1 ∧ rd8 b 27 ≤ 1 ∧ rd8 b 36 ≤ 1 ∧ rd8 b 45 ≤ 1) ∧
      [windowAt b 18, windowAt b 27, windowAt b 36, windowAt b 45].all (Window.good (rd16 b 5)) = true := by
    simp only [List.mem_cons, List.not_mem_nil, or_false, forall_eq_or_imp, forall_eq, List.all_cons, List.all_nil, Bool.and_true,
      Bool.and_eq_true]
    tauto
  rw [hall]
  constructor
  · intro h
    obtain ⟨_, h0, h⟩ := decode_step h
    obtain ⟨_, h5, h⟩ := decode_step h
    obtain ⟨_, w0, h⟩ := decode_step h
    obtain ⟨_, w1, h⟩ := decode_step h
    obtain ⟨_, w2, h⟩ := decode_step h
    obtain ⟨_, w3, h⟩ := decode_step h
    rw [rdFlag_iff] at h0
    rw [rng_iff] at h5
    rw [Window.decode_iff] at w0 w1 w2 w3
    rw [h0.2, h5.2, w0.2, w1.2, w2.2, w3.2] at h
    split at h
    case isTrue hg => exact ⟨⟨h0.1, h5.1, ⟨w0.1, w1.1, w2.1, w3.1⟩, hg⟩, (Option.some.inj h).symm⟩
    case isFalse => cases h
  · rintro ⟨⟨h0, h5, ⟨w0, w1, w2, w3⟩, hg⟩, rfl⟩
    unfold CatEntry.decode
    rw [rdFlag_iff.2 ⟨h0, rfl⟩, rng_iff.2 ⟨h5, rfl⟩, Window.decode_iff.2 ⟨w0, rfl⟩, Window.decode_iff.2 ⟨w1, rfl⟩,
      Window.decode_iff.2 ⟨w2, rfl⟩, Window.decode_iff.2 ⟨w3, rfl⟩]
    exact if_pos hg

theorem CatEntry.encode_decode {b : List Byte} {e : CatEntry} (hb : b.length = 54) (h : CatEntry.decode b = some e) : e.encode = b := by
  obtain ⟨⟨h0, -, hw⟩, rfl⟩ := CatEntry.decode_iff.1 h
  refine Eq.trans ?_ (list_getD hb)
  have h1 := Window.encode_at (hw 18 (by decide)).1
  have h2 := Window.encode_at (hw 27 (by decide)).1
  have h3 := Window.encode_at (hw 36 (by decide)).1
  have h4 := Window.encode_at (hw 45 (by decide)).1
  have hfl : (#v[windowAt b 18, windowAt b 27, windowAt b 36, windowAt b 45] : Vector Window 4).toList.flatMap Window.encode =
      (windowAt b 18).encode ++ ((windowAt b 27).encode ++ ((windowAt b 36).encode ++ ((windowAt b 45).encode ++ []))) := rfl
  unfold CatEntry.encode
  dsimp only
  rw [hfl, h1, h2, h3, h4, flagByte_rd8 h0, be32_rd32, be16_rd16, be32_rd32, be32_rd32, byte_rd8, be16_rd16]
  rfl

/-! ## Which bytes are accepted -/

theorem isSome_decode {α : Type} {o : Option α} : o.isSome = true ↔ ∃ x, o = some x := Option.isSome_iff_exists

section
variable {b : List Byte}

theorem Settings.decode_isSome : (Settings.decode b).isSome = true ↔ 1 ≤ rd8 b 0 ∧ rd8 b 0 ≤ 0xEF ∧ 1 ≤ rd8 b 1 ∧ rd8 b 1 ≤ 8 ∧
    rd8 b 2 ≤ 1 ∧ rd8 b 3 ≤ 1 ∧ rd8 b 4 ≤ 8 ∧ 1 ≤ rd8 b 5 ∧ rd8 b 5 ≤ 8 ∧ 5 ≤ rd8 b 6 ∧ 1 ≤ rd8 b 7 ∧ rd8 b 7 ≤ 16 ∧ 2 ≤ rd8 b 8 ∧
    rd8 b 8 ≤ 15 ∧ 1 ≤ rd8 b 9 ∧ rd8 b 9 ≤ 8 ∧ rd8 b 10 ≤ 5 ∧ rd8 b 11 ≤ 4 ∧ 1 ≤ rd8 b 12 ∧ rd8 b 12 ≤ 63 := by
  have h6 := rd8_lt b 6
  rw [isSome_decode]
  constructor
  · rintro ⟨e, he⟩
    obtain ⟨hr, down, up, hd, hu, -⟩ := Settings.decode_iff.1 he
    have hd' : rd8 b 2 < 2 := codeAt_isSome.1 ⟨_, hd⟩
    have hu' : rd8 b 3 < 2 := codeAt_isSome.1 ⟨_, hu⟩
    omega
  · intro h
    obtain ⟨down, hd⟩ : ∃ x, codeAt [DefaultAction.forward, .drop] (rd8 b 2) = some x := codeAt_isSome.2 (show rd8 b 2 < 2 by omega)
    obtain ⟨up, hu⟩ : ∃ x, codeAt [DefaultAction.forward, .drop] (rd8 b 3) = some x := codeAt_isSome.2 (show rd8 b 3 < 2 by omega)
    exact ⟨_, Settings.decode_iff.2 ⟨by omega, down, up, hd, hu, rfl⟩⟩

theorem ClassEntry.decode_isSome : (ClassEntry.decode b).isSome = true ↔ rd8 b 0 ≤ 7 ∧ (rd8 b 1 ≤ 15 ∨ rd8 b 1 = 0xFF) ∧ rd8 b 2 ≤ 3 ∧
    rd8 b 3 ≤ 3 ∧ 1 ≤ rd8 b 4 ∧ rd8 b 4 ≤ 15 ∧ rd8 b 5 ≤ 1 ∧ rd8 b 6 ≤ 1 ∧ rd8 b 7 ≤ 1 ∧ (∀ f, f < 16 → rd8 b (8 + f) ≤ 8) ∧
    ((List.range 16).map (fun f => rd8 b (8 + f))).sum ≤ 64 := by
  rw [isSome_decode]
  constructor
  · rintro ⟨e, he⟩
    obtain ⟨⟨h0, h3, h4, h6, h7, h8, h9⟩, selector, policy, loss, hs, hp, hl, -⟩ := ClassEntry.decode_iff.1 he
    have hs' := optFin_isSome.1 ⟨_, hs⟩
    have hp' : rd8 b 2 < 4 := codeAt_isSome.1 ⟨_, hp⟩
    have hl' : rd8 b 5 < 2 := codeAt_isSome.1 ⟨_, hl⟩
    exact ⟨h0.2, by omega, by omega, h3.2, h4.1, h4.2, by omega, h6, h7, h8, h9⟩
  · rintro ⟨h0, h1, h2, h3, h4, h4', h5, h6, h7, h8⟩
    obtain ⟨selector, hs⟩ := (optFin_isSome (k := 16) (n := rd8 b 1)).2 (by omega)
    obtain ⟨policy, hp⟩ : ∃ x, codeAt [FailPolicy.retry, .latch, .report, .ignore] (rd8 b 2) = some x :=
      codeAt_isSome.2 (show rd8 b 2 < 4 by omega)
    obtain ⟨loss, hl⟩ : ∃ x, codeAt [LossPolicy.keep, .clear] (rd8 b 5) = some x := codeAt_isSome.2 (show rd8 b 5 < 2 by omega)
    exact ⟨_, ClassEntry.decode_iff.2 ⟨⟨⟨Nat.zero_le _, h0⟩, ⟨Nat.zero_le _, h3⟩, ⟨h4, h4'⟩, h6, h7, h8⟩, selector, policy, loss, hs, hp,
      hl, rfl⟩⟩

theorem SlotEntry.decode_isSome : (SlotEntry.decode b).isSome = true ↔ rd8 b 0 ≤ 1 ∧ 1 ≤ rd8 b 1 ∧ rd8 b 1 ≤ 0xEF ∧
    (rd16 b 2 ≤ 0xFF ∨ rd16 b 2 = 0xFFFF) ∧ (rd8 b 4 ≤ 15 ∨ rd8 b 4 = 0xFF) ∧ (rd8 b 5 ≤ 3 ∨ rd8 b 5 = 0xFF) ∧ rd16 b 6 ≤ 0x7FFF := by
  rw [isSome_decode]
  constructor
  · rintro ⟨e, he⟩
    obtain ⟨⟨h0, h1, h6⟩, cls, override, group, hc, ho, hg, -⟩ := SlotEntry.decode_iff.1 he
    have hc' := decodeExpClass_isSome.1 ⟨_, hc⟩
    have ho' := optFin_isSome.1 ⟨_, ho⟩
    have hg' := optFin_isSome.1 ⟨_, hg⟩
    exact ⟨h0, h1.1, h1.2, hc', by omega, by omega, h6.2⟩
  · rintro ⟨h0, h1, h1', h2, h4, h5, h6⟩
    obtain ⟨cls, hc⟩ := decodeExpClass_isSome.2 h2
    obtain ⟨override, ho⟩ := (optFin_isSome (k := 16) (n := rd8 b 4)).2 (by omega)
    obtain ⟨group, hg⟩ := (optFin_isSome (k := 4) (n := rd8 b 5)).2 (by omega)
    exact ⟨_, SlotEntry.decode_iff.2 ⟨⟨h0, ⟨h1, h1'⟩, Nat.zero_le _, h6⟩, cls, override, group, hc, ho, hg, rfl⟩⟩

theorem CatEntry.decode_isSome : (CatEntry.decode b).isSome = true ↔ rd8 b 0 ≤ 1 ∧ 1 ≤ rd16 b 5 ∧ rd16 b 5 ≤ 4096 ∧
    ∀ k base, k ∈ [18, 27, 36, 45] → base = 65536 * rd16 b (k + 5) + rd16 b (k + 7) → rd8 b k ≤ 1 ∧ (rd8 b k = 1 →
      rd16 b (k + 1) ≤ rd16 b (k + 3) ∧ rd16 b (k + 3) < rd16 b 5 ∧ base ≤ 119039 ∧
      base + (rd16 b (k + 3) - rd16 b (k + 1)) ≤ 119039) := by
  rw [isSome_decode]
  constructor
  · rintro ⟨e, he⟩
    obtain ⟨⟨h0, h5, hw⟩, -⟩ := CatEntry.decode_iff.1 he
    refine ⟨h0, h5.1, h5.2, fun k base hk hbase => ?_⟩
    obtain ⟨h1, hg⟩ := hw k hk
    rw [windowAt_good, rd32_toNat] at hg
    rw [hbase]
    exact ⟨h1, hg⟩
  · rintro ⟨h0, h5, h5', hw⟩
    refine ⟨_, CatEntry.decode_iff.2 ⟨⟨h0, ⟨h5, h5'⟩, fun k hk => ?_⟩, rfl⟩⟩
    obtain ⟨h1, hg⟩ := hw k _ hk rfl
    rw [windowAt_good, rd32_toNat]
    exact ⟨h1, hg⟩

theorem FwdRule.decode_isSome : (FwdRule.decode b).isSome = true ↔ rd8 b 0 ≤ 1 ∧ rd8 b 1 ≤ 1 ∧ rd8 b 2 ≤ 1 ∧
    ¬ (rd8 b 2 = 1 ∧ rd8 b 1 = 0) ∧ 1 ≤ rd8 b 3 ∧ 1 ≤ rd8 b 4 ∧ rd8 b 3 ≤ rd8 b 4 ∧ rd8 b 5 ≤ rd8 b 6 ∧ rd8 b 9 ≤ 2 ∧ rd8 b 10 ≤ 1 := by
  have hgood : ∀ {dir kind action}, codeAt [Direction.down, .up] (rd8 b 1) = some dir →
      codeAt [RuleKind.data, .status] (rd8 b 2) = some kind →
      ((FwdRule.mk (decide (rd8 b 0 = 1)) dir kind (byte (rd8 b 3)) (byte (rd8 b 4)) (b.getD 5 0) (b.getD 6 0) (b.getD 7 0) (b.getD 8 0) action
        (decide (rd8 b 10 = 1))).good = true ↔ ¬ (rd8 b 2 = 1 ∧ rd8 b 1 = 0) ∧ rd8 b 3 ≤ rd8 b 4 ∧ rd8 b 5 ≤ rd8 b 6) := by
    intro dir kind action hd hk
    have hd' := codeAt_table hd
    have hk' := codeAt_table hk
    have hkind : kind = .status ↔ rd8 b 2 = 1 := by
      simp only [List.zipIdx_cons, List.zipIdx_nil, List.map_cons, List.map_nil, Prod.swap_prod_mk, List.mem_cons, Prod.mk.injEq,
        List.not_mem_nil, or_false] at hk'
      rcases hk' with ⟨h1, rfl⟩ | ⟨h1, rfl⟩ <;> simp [h1]
    have hdir : dir = .down ↔ rd8 b 1 = 0 := by
      simp only [List.zipIdx_cons, List.zipIdx_nil, List.map_cons, List.map_nil, Prod.swap_prod_mk, List.mem_cons, Prod.mk.injEq,
        List.not_mem_nil, or_false] at hd'
      rcases hd' with ⟨h1, rfl⟩ | ⟨h1, rfl⟩ <;> simp [h1]
    rw [FwdRule.good_iff]
    dsimp only
    rw [hkind, hdir, byte_rd8, byte_rd8]
    exact Iff.rfl
  rw [isSome_decode]
  constructor
  · rintro ⟨e, he⟩
    obtain ⟨⟨h0, h3, h4, h10⟩, ⟨dir, kind, action, hd, hk, ha, rfl⟩, hg⟩ := FwdRule.decode_iff.1 he
    have hd' : rd8 b 1 < 2 := codeAt_isSome.1 ⟨_, hd⟩
    have hk' : rd8 b 2 < 2 := codeAt_isSome.1 ⟨_, hk⟩
    have ha' : rd8 b 9 < 3 := codeAt_isSome.1 ⟨_, ha⟩
    obtain ⟨g1, g2, g3⟩ := (hgood hd hk).1 hg
    exact ⟨h0, by omega, by omega, g1, h3.1, h4.1, g2, g3, by omega, h10⟩
  · rintro ⟨h0, h1, h2, g1, h3, h4, g2, g3, h9, h10⟩
    have b3 := rd8_lt b 3
    have b4 := rd8_lt b 4
    obtain ⟨dir, hd⟩ : ∃ x, codeAt [Direction.down, .up] (rd8 b 1) = some x := codeAt_isSome.2 (show rd8 b 1 < 2 by omega)
    obtain ⟨kind, hk⟩ : ∃ x, codeAt [RuleKind.data, .status] (rd8 b 2) = some x := codeAt_isSome.2 (show rd8 b 2 < 2 by omega)
    obtain ⟨action, ha⟩ : ∃ x, codeAt [FwdAction.forward, .forwardNoHold, .drop] (rd8 b 9) = some x :=
      codeAt_isSome.2 (show rd8 b 9 < 3 by omega)
    exact ⟨_, FwdRule.decode_iff.2 ⟨⟨h0, ⟨h3, by omega⟩, ⟨h4, by omega⟩, h10⟩, ⟨dir, kind, action, hd, hk, ha, rfl⟩,
      (hgood hd hk).2 ⟨g1, g2, g3⟩⟩⟩

theorem CapRule.decode_isSome : (CapRule.decode b).isSome = true ↔
    rd8 b 0 ≤ 1 ∧ rd8 b 1 ≤ 2 ∧ rd8 b 4 ≤ 239 ∧ rd8 b 5 ≤ 15 ∧ rd8 b 7 ≤ 1 := by
  rw [isSome_decode]
  constructor
  · rintro ⟨e, he⟩
    obtain ⟨⟨h0, h4⟩, source, field, mode, hs, hf, hm, -⟩ := CapRule.decode_iff.1 he
    have hs' : rd8 b 1 < 3 := codeAt_isSome.1 ⟨_, hs⟩
    have hf' := finAt_isSome.1 ⟨_, hf⟩
    have hm' : rd8 b 7 < 2 := codeAt_isSome.1 ⟨_, hm⟩
    omega
  · intro h
    obtain ⟨source, hs⟩ : ∃ x, codeAt [CapSource.dataDown, .dataUp, .status] (rd8 b 1) = some x :=
      codeAt_isSome.2 (show rd8 b 1 < 3 by omega)
    obtain ⟨field, hf⟩ := (finAt_isSome (k := 16) (n := rd8 b 5)).2 (by omega)
    obtain ⟨mode, hm⟩ : ∃ x, codeAt [TargetMode.addressed, .all] (rd8 b 7) = some x := codeAt_isSome.2 (show rd8 b 7 < 2 by omega)
    exact ⟨_, CapRule.decode_iff.2 ⟨⟨h.1, Nat.zero_le _, by omega⟩, source, field, mode, hs, hf, hm, rfl⟩⟩

theorem byte_rd8_toNat (j : Nat) : (byte (rd8 b j)).toNat = rd8 b j := by
  rw [byte_rd8]
  rfl

end

/-- Settles O10: each table by its `decode_iff`. -/
theorem entriesReadBack : Obligations.EntriesReadBack := by
  unfold Obligations.EntriesReadBack
  refine ⟨fun b e => Settings.encode_decode, fun b e => ClassEntry.encode_decode, fun b e => SlotEntry.encode_decode,
    fun b e => CatEntry.encode_decode, fun b e => FwdRule.encode_decode, fun b e => CapRule.encode_decode, fun b n w hn hw => ?accepted,
    fun b n w hn hw => ?fields⟩
  all_goals
    obtain rfl : n = rd8 b := funext hn
    obtain rfl : w = rd16 b := funext hw
  case accepted =>
    exact ⟨Settings.decode_isSome, ClassEntry.decode_isSome, SlotEntry.decode_isSome, CatEntry.decode_isSome, FwdRule.decode_isSome,
      CapRule.decode_isSome⟩
  case fields =>
    refine ⟨fun e h => ?settings, fun e h => ?cls, fun e h => ?slot, fun e h => ?cat, fun e h => ?fwd, fun e h => ?cap⟩
    case settings =>
      obtain ⟨-, down, up, hd, hu, rfl⟩ := Settings.decode_iff.1 h
      exact ⟨byte_rd8_toNat 0, rfl, codeAt_table hd, codeAt_table hu, rfl, rfl, rfl, rfl, rfl, rfl, rfl, rfl, rfl⟩
    case cls =>
      obtain ⟨-, selector, policy, loss, hs, hp, hl, rfl⟩ := ClassEntry.decode_iff.1 h
      exact ⟨rfl, optFin_some hs, codeAt_table hp, rfl, rfl, codeAt_table hl, rfl, rfl, layoutAt_get b⟩
    case slot =>
      obtain ⟨⟨-, -, -, h6⟩, cls, override, group, hc, ho, hg, rfl⟩ := SlotEntry.decode_iff.1 h
      exact ⟨rfl, byte_rd8_toNat 1, decodeExpClass_iff.1 hc, optFin_some ho, optFin_some hg, Nat.mod_eq_of_lt (by omega)⟩
    case cat =>
      obtain ⟨-, rfl⟩ := CatEntry.decode_iff.1 h
      refine ⟨rfl, rd32_toNat b 1, rfl, rd32_toNat b 7, rd32_toNat b 11, rfl, rfl, fun j k hk => ?_⟩
      rw [← rd32_toNat b (k + 5), hk]
      fin_cases j <;> rfl
    case fwd =>
      obtain ⟨-, ⟨dir, kind, action, hd, hk, ha, rfl⟩, -⟩ := FwdRule.decode_iff.1 h
      exact ⟨rfl, codeAt_table hd, codeAt_table hk, byte_rd8_toNat 3, byte_rd8_toNat 4, rfl, rfl, rfl, rfl, codeAt_table ha, rfl⟩
    case cap =>
      obtain ⟨-, source, field, mode, hs, hf, hm, rfl⟩ := CapRule.decode_iff.1 h
      exact ⟨rfl, codeAt_table hs, rfl, rfl, rfl, finAt_some hf, rfl, codeAt_table hm⟩

end Sys2Proof.Machine
end

section
/-! PROOFS. The configuration store (O9). -/

namespace Sys2Proof.Machine

open Sys2Proof.Safety

/-! ## Bytes of a store -/

theorem rd8_take {b : List Byte} {n j : Nat} (h : j < n) : rd8 (b.take n) j = rd8 b j := by
  unfold rd8
  rw [List.getD_eq_getElem?_getD, List.getD_eq_getElem?_getD, List.getElem?_take_of_lt h]

/-- A settings entry is read off its first 13 bytes. -/
theorem Settings.decode_take (b : List Byte) : Settings.decode (b.take 13) = Settings.decode b := by
  refine Option.ext fun e => ?_
  rw [Settings.decode_iff, Settings.decode_iff]
  simp only [rd8_take (b := b) (n := 13) (j := 0) (by decide), rd8_take (b := b) (n := 13) (j := 1) (by decide),
    rd8_take (b := b) (n := 13) (j := 2) (by decide), rd8_take (b := b) (n := 13) (j := 3) (by decide),
    rd8_take (b := b) (n := 13) (j := 4) (by decide), rd8_take (b := b) (n := 13) (j := 5) (by decide),
    rd8_take (b := b) (n := 13) (j := 6) (by decide), rd8_take (b := b) (n := 13) (j := 7) (by decide),
    rd8_take (b := b) (n := 13) (j := 8) (by decide), rd8_take (b := b) (n := 13) (j := 9) (by decide),
    rd8_take (b := b) (n := 13) (j := 10) (by decide), rd8_take (b := b) (n := 13) (j := 11) (by decide),
    rd8_take (b := b) (n := 13) (j := 12) (by decide)]

theorem rd32_be32 (w : Word32) (l : List Byte) : rd32 (be32 w ++ l) 0 = w := by
  show w.extractLsb' 24 8 ++ w.extractLsb' 16 8 ++ w.extractLsb' 8 8 ++ w.extractLsb' 0 8 = w
  refine BitVec.eq_of_toNat_eq ?_
  have hw := w.isLt
  have h : ∀ k, (w.extractLsb' k 8).toNat = w.toNat / 2 ^ k % 256 := fun k => by
    rw [BitVec.extractLsb'_toNat, Nat.shiftRight_eq_div_pow]
  rw [append_byte_toNat, append_byte_toNat, append_byte_toNat, h, h, h, h]
  omega

theorem be32_inj {v w : Word32} (h : be32 v = be32 w) : v = w := by
  rw [← rd32_be32 v [], ← rd32_be32 w [], h]

/-- The four bytes of a number inside a list. -/
theorem take_be32 {b : List Byte} {k : Nat} (h : k + 4 ≤ b.length) : (b.drop k).take 4 = be32 (rd32 b k) := by
  have hl : ((b.drop k).take 4).length = 4 := by
    rw [List.length_take, List.length_drop]
    omega
  have hg : ∀ j, j < 4 → ((b.drop k).take 4).getD j 0 = b.getD (k + j) 0 := fun j hj => by
    rw [List.getD_eq_getElem?_getD, List.getElem?_take_of_lt hj, List.getElem?_drop, List.getD_eq_getElem?_getD]
  rw [be32_rd32, ← list_getD hl]
  show [_, _, _, _] = _
  dsimp only
  rw [hg 0 (by decide), hg 1 (by decide), hg 2 (by decide), hg 3 (by decide)]
  rfl

theorem rd32_iff {b : List Byte} {k : Nat} {w : Word32} (h : k + 4 ≤ b.length) : rd32 b k = w ↔ (b.drop k).take 4 = be32 w := by
  rw [take_be32 h]
  exact ⟨fun hx => by rw [hx], be32_inj⟩

/-! ## The tables of a store (R179) -/

theorem uniqueAddrs_iff {v : Vector SlotEntry 32} : uniqueAddrs v = true ↔
    ∀ j k : SlotId, j ≠ k → v[j].enabled = true → v[k].enabled = true → v[j].addr ≠ v[k].addr := by
  unfold uniqueAddrs
  simp only [List.all_eq_true, mem_slotIds, true_implies, Bool.or_eq_true, decide_eq_true_iff, Bool.not_eq_true']
  refine forall_congr' fun j => forall_congr' fun k => ?_
  by_cases hjk : j = k
  · exact iff_of_true (.inl (.inl (.inl hjk))) fun h => absurd hjk h
  · cases v[j].enabled <;> cases v[k].enabled <;> simp [hjk]

theorem readTables_iff {b : List Byte} {t : Tables} : readTables b = some t ↔
    Settings.decode ((b.drop 4).take 13) = some t.settings ∧
    (∀ i : ClassId, ClassEntry.decode ((b.drop (17 + 24 * i)).take 24) = some t.classes[i]) ∧
    (∀ i : SlotId, SlotEntry.decode ((b.drop (209 + 8 * i)).take 8) = some t.slots[i]) ∧
    (∀ i : ImageId, CatEntry.decode ((b.drop (465 + 54 * i)).take 54) = some t.cat[i]) ∧
    (∀ i : Fin 48, FwdRule.decode ((b.drop (1329 + 11 * i)).take 11) = some t.fwd[i]) ∧
    (∀ i : Fin 32, CapRule.decode ((b.drop (1857 + 8 * i)).take 8) = some t.cap[i]) ∧
    ∀ j k : SlotId, j ≠ k → t.slots[j].enabled = true → t.slots[k].enabled = true → t.slots[j].addr ≠ t.slots[k].addr := by
  rw [Settings.decode_take, ← uniqueAddrs_iff, ← readEntries_some_iff, ← readEntries_some_iff, ← readEntries_some_iff,
    ← readEntries_some_iff, ← readEntries_some_iff]
  constructor
  · intro h
    obtain ⟨settings, h0, h⟩ := decode_step h
    obtain ⟨classes, h1, h⟩ := decode_step h
    obtain ⟨slots, h2, h⟩ := decode_step h
    obtain ⟨cat, h3, h⟩ := decode_step h
    obtain ⟨fwd, h4, h⟩ := decode_step h
    obtain ⟨cap, h5, h⟩ := decode_step h
    split at h
    case isTrue hu =>
      obtain rfl := Option.some.inj h
      exact ⟨h0, h1, h2, h3, h4, h5, hu⟩
    case isFalse => cases h
  · rintro ⟨h0, h1, h2, h3, h4, h5, hu⟩
    unfold readTables
    rw [h0, h1, h2, h3, h4, h5]
    exact if_pos hu

theorem storeId_bytes : be32 Config.storeId = [0x43, 0x52, 0x42, 0x32] := by decide

theorem readStore_iff {b : List Byte} {t : Tables} (h : 2117 ≤ b.length) : readStore b = some t ↔
    b.take 4 = [0x43, 0x52, 0x42, 0x32] ∧ (b.drop 2113).take 4 = be32 (crc32 (b.take 2113)) ∧ readTables b = some t := by
  rw [← storeId_bytes, ← rd32_iff (show 2113 + 4 ≤ b.length from h), ← List.drop_zero (l := b), ← rd32_iff (show 0 + 4 ≤ b.length by omega),
    List.drop_zero, ← and_assoc]
  unfold readStore
  split
  case isTrue hx => exact (and_iff_right hx).symm
  case isFalse hx => exact iff_of_false (fun hn => by cases hn) fun hn => hx hn.1

/-! ## The store of tables (R177) -/

theorem flatMap_slice {α : Type} {f : α → List Byte} {n : Nat} (h : ∀ x, (f x).length = n) (l : List α) (c : List Byte) :
    ∀ i (hi : i < l.length), ((l.flatMap f ++ c).drop (n * i)).take n = f l[i] := by
  induction l with
  | nil => exact fun i hi => absurd hi (Nat.not_lt_zero i)
  | cons x l ih =>
    intro i hi
    rw [List.flatMap_cons, List.append_assoc]
    cases i with
    | zero =>
      rw [Nat.mul_zero, List.drop_zero]
      exact List.take_left' (h x)
    | succ i =>
      rw [Nat.mul_succ, Nat.add_comm, ← List.drop_drop, List.drop_left' (h x)]
      exact ih i _

theorem slice_at {α : Type} {f : α → List Byte} {n off : Nat} (h : ∀ x, (f x).length = n) {a c : List Byte} (ha : a.length = off)
    {m : Nat} (v : Vector α m) (i : Fin m) : ((a ++ (v.toList.flatMap f ++ c)).drop (off + n * i)).take n = f v[i] := by
  rw [← List.drop_drop, List.drop_left' ha, flatMap_slice h _ _ i.val (by simp)]
  simp

section
variable (t : Tables)

theorem store_body : t.store.take 2113 = t.storeBody := List.take_left' t.storeBody_length

theorem store_crc : (t.store.drop 2113).take 4 = be32 (crc32 (t.store.take 2113)) := by
  rw [store_body]
  unfold Tables.store
  rw [List.drop_left' t.storeBody_length]
  rfl

theorem storeBody_identifier : ∃ rest, t.store = be32 Config.storeId ++ rest := by
  unfold Tables.store Tables.storeBody
  simp only [List.append_assoc]
  exact ⟨_, rfl⟩

theorem store_settings : (t.store.drop 4).take 13 = t.settings.encode := by
  have h : t.store = be32 Config.storeId ++ (t.settings.encode ++ (t.classes.toList.flatMap ClassEntry.encode ++
      (t.slots.toList.flatMap SlotEntry.encode ++ (t.cat.toList.flatMap CatEntry.encode ++ (t.fwd.toList.flatMap FwdRule.encode ++
      (t.cap.toList.flatMap CapRule.encode ++ be32 (crc32 t.storeBody))))))) := by
    simp only [Tables.store, Tables.storeBody, List.append_assoc]
  rw [h, List.drop_left' (show (be32 Config.storeId).length = 4 from rfl)]
  exact List.take_left' (Settings.encode_length _)

theorem store_classes (i : ClassId) : (t.store.drop (17 + 24 * i)).take 24 = (t.classes[i]).encode := by
  have h : t.store = (be32 Config.storeId ++ t.settings.encode) ++ (t.classes.toList.flatMap ClassEntry.encode ++
      (t.slots.toList.flatMap SlotEntry.encode ++ (t.cat.toList.flatMap CatEntry.encode ++ (t.fwd.toList.flatMap FwdRule.encode ++
      (t.cap.toList.flatMap CapRule.encode ++ be32 (crc32 t.storeBody)))))) := by
    simp only [Tables.store, Tables.storeBody, List.append_assoc]
  rw [h]
  exact slice_at ClassEntry.encode_length (show (be32 Config.storeId ++ t.settings.encode).length = 17 from rfl) _ i

theorem storeClasses_length : (t.classes.toList.flatMap ClassEntry.encode).length = 192 := by
  rw [flatMap_length _ 24 ClassEntry.encode_length, Vector.length_toList]

theorem storeSlots_length : (t.slots.toList.flatMap SlotEntry.encode).length = 256 := by
  rw [flatMap_length _ 8 SlotEntry.encode_length, Vector.length_toList]

theorem storeCat_length : (t.cat.toList.flatMap CatEntry.encode).length = 864 := by
  rw [flatMap_length _ 54 CatEntry.encode_length, Vector.length_toList]

theorem storeFwd_length : (t.fwd.toList.flatMap FwdRule.encode).length = 528 := by
  rw [flatMap_length _ 11 FwdRule.encode_length, Vector.length_toList]

theorem store_slots (i : SlotId) : (t.store.drop (209 + 8 * i)).take 8 = (t.slots[i]).encode := by
  have h : t.store = (be32 Config.storeId ++ t.settings.encode ++ t.classes.toList.flatMap ClassEntry.encode) ++
      (t.slots.toList.flatMap SlotEntry.encode ++ (t.cat.toList.flatMap CatEntry.encode ++ (t.fwd.toList.flatMap FwdRule.encode ++
      (t.cap.toList.flatMap CapRule.encode ++ be32 (crc32 t.storeBody))))) := by
    simp only [Tables.store, Tables.storeBody, List.append_assoc]
  rw [h]
  refine slice_at SlotEntry.encode_length ?_ _ i
  rw [List.length_append, storeClasses_length]
  rfl

theorem store_cat (i : ImageId) : (t.store.drop (465 + 54 * i)).take 54 = (t.cat[i]).encode := by
  have h : t.store = (be32 Config.storeId ++ t.settings.encode ++ t.classes.toList.flatMap ClassEntry.encode ++
      t.slots.toList.flatMap SlotEntry.encode) ++ (t.cat.toList.flatMap CatEntry.encode ++ (t.fwd.toList.flatMap FwdRule.encode ++
      (t.cap.toList.flatMap CapRule.encode ++ be32 (crc32 t.storeBody)))) := by
    simp only [Tables.store, Tables.storeBody, List.append_assoc]
  rw [h]
  refine slice_at CatEntry.encode_length ?_ _ i
  rw [List.length_append, List.length_append, storeClasses_length, storeSlots_length]
  rfl

theorem store_fwd (i : Fin 48) : (t.store.drop (1329 + 11 * i)).take 11 = (t.fwd[i]).encode := by
  have h : t.store = (be32 Config.storeId ++ t.settings.encode ++ t.classes.toList.flatMap ClassEntry.encode ++
      t.slots.toList.flatMap SlotEntry.encode ++ t.cat.toList.flatMap CatEntry.encode) ++ (t.fwd.toList.flatMap FwdRule.encode ++
      (t.cap.toList.flatMap CapRule.encode ++ be32 (crc32 t.storeBody))) := by
    simp only [Tables.store, Tables.storeBody, List.append_assoc]
  rw [h]
  refine slice_at FwdRule.encode_length ?_ _ i
  rw [List.length_append, List.length_append, List.length_append, storeClasses_length, storeSlots_length, storeCat_length]
  rfl

theorem store_cap (i : Fin 32) : (t.store.drop (1857 + 8 * i)).take 8 = (t.cap[i]).encode := by
  have h : t.store = (be32 Config.storeId ++ t.settings.encode ++ t.classes.toList.flatMap ClassEntry.encode ++
      t.slots.toList.flatMap SlotEntry.encode ++ t.cat.toList.flatMap CatEntry.encode ++ t.fwd.toList.flatMap FwdRule.encode) ++
      (t.cap.toList.flatMap CapRule.encode ++ be32 (crc32 t.storeBody)) := by
    simp only [Tables.store, Tables.storeBody, List.append_assoc]
  rw [h]
  refine slice_at CapRule.encode_length ?_ _ i
  rw [List.length_append, List.length_append, List.length_append, List.length_append, storeClasses_length, storeSlots_length,
    storeCat_length, storeFwd_length]
  rfl

end

/-- An entry that some bytes decode to is what its own bytes decode to. -/
theorem decode_encode {α : Type} {decode : List Byte → Option α} {encode : α → List Byte} {n : Nat} {e : α}
    (hback : ∀ b e, b.length = n → decode b = some e → encode e = b) (h : ∃ b, b.length = n ∧ decode b = some e) :
    decode (encode e) = some e := by
  obtain ⟨b, hb, hd⟩ := h
  rw [hback b e hb hd, hd]

theorem readTables_store {t : Tables} (h : Writable t) : readTables t.store = some t := by
  obtain ⟨h0, h1, h2, h3, h4, h5, hu⟩ := h
  refine readTables_iff.2 ⟨?_, fun i => ?_, fun i => ?_, fun i => ?_, fun i => ?_, fun i => ?_, hu⟩
  · rw [store_settings, decode_encode (fun b e => Settings.encode_decode) h0]
  · rw [store_classes, decode_encode (fun b e => ClassEntry.encode_decode) (h1 i)]
  · rw [store_slots, decode_encode (fun b e => SlotEntry.encode_decode) (h2 i)]
  · rw [store_cat, decode_encode (fun b e => CatEntry.encode_decode) (h3 i)]
  · rw [store_fwd, decode_encode (fun b e => FwdRule.encode_decode) (h4 i)]
  · rw [store_cap, decode_encode (fun b e => CapRule.encode_decode) (h5 i)]

/-- Settles O9: the good store by `readStore_iff`, its entries by their slices. -/
theorem storeReadsBack : Obligations.StoreReadsBack := by
  unfold Obligations.StoreReadsBack
  refine ⟨fun t ht => ?back, fun t body hb => ?layout, fun b t hb => ?good, fun bs => rfl⟩
  case back =>
    refine (readStore_iff (Nat.le_of_eq t.store_length.symm)).2 ⟨?_, store_crc t, readTables_store ht⟩
    obtain ⟨rest, hr⟩ := storeBody_identifier t
    rw [hr, storeId_bytes]
    rfl
  case layout =>
    subst hb
    rw [← storeId_bytes]
    rfl
  case good => rw [readStore_iff hb, readTables_iff]

end Sys2Proof.Machine
end

section
/-! PROOFS. What the laws of sessions and records read (`State.nodes`), and the operations that leave it: buffers, queues but the hold
queues, cache, agent and segment. -/

namespace Sys2Proof.Machine

open Sys2Proof.Safety

/-- What the laws of sessions and records read. -/
def State.nodes (s : State) := (s.phase, s.lm.line, s.tables, s.slots, s.ctx, s.catSt, s.queues.hold)

variable {s t : State}

/-! ## Masks -/

theorem nodes_of_noCache (h : t.noCache = s.noCache) : t.nodes = s.nodes := by
  obtain ⟨h1, -, h2, h3, h4, h5, h6, -, -, -, h7, -⟩ := of_noCache h
  simp only [State.nodes, h1, h2, h3, h4, h5, h6, h7]

theorem nodes_of_noLinks (h : t.noLinks = s.noLinks) (hh : t.queues.hold = s.queues.hold) : t.nodes = s.nodes := by
  obtain ⟨h1, -, h2, h3, h4, h5, h6, -⟩ := of_noLinks h
  simp only [State.nodes, h1, h2, h3, h4, h5, h6, hh]

theorem nodes_of_noReply (h : t.noReply = s.noReply) (hh : t.queues.hold = s.queues.hold) : t.nodes = s.nodes := by
  obtain ⟨h1, -, h2, h3, h4, h5, h6, -⟩ := of_noReply h
  simp only [State.nodes, h1, h2, h3, h4, h5, h6, hh]

theorem nodes_of_quiet (h : t.noEvent = s.noEvent) (hq : t.quiet = s.quiet) : t.nodes = s.nodes := by
  obtain ⟨h1, -, h2, h6, -⟩ := of_noEvent h
  simp only [State.quiet, Prod.mk.injEq] at hq
  obtain ⟨h3, h4, h5, -, h7, -⟩ := hq
  simp only [State.nodes, h1, h2, h3, h4, h5, h6, h7]

/-! ## Buffers, queues and counters -/

@[simp] theorem updPort_nodes (p : Port) (g : PortState → PortState) (s : State) : (updPort p g s).nodes = s.nodes :=
  nodes_of_noLinks (by simp) (by simp)

@[simp] theorem stage_nodes (p : Port) (bs : List Byte) (s : State) : (stage p bs s).nodes = s.nodes := updPort_nodes ..

@[simp] theorem raise_nodes (c : AttnCause) (j : Subject) (d : Option Cause) (s : State) : (raise c j d s).nodes = s.nodes := rfl

@[simp] theorem countOverrun_nodes (p : Port) (s : State) : (countOverrun p s).nodes = s.nodes :=
  (raise_nodes ..).trans (updPort_nodes ..)

@[simp] theorem countGood_nodes (p : Port) (s : State) : (countGood p s).nodes = s.nodes := updPort_nodes ..

@[simp] theorem countBad_nodes (p : Port) (s : State) : (countBad p s).nodes = s.nodes := updPort_nodes ..

@[simp] theorem countSent_nodes (p : Port) (s : State) : (countSent p s).nodes = s.nodes := updPort_nodes ..

@[simp] theorem countOrphan_nodes (s : State) : (countOrphan s).nodes = s.nodes := updPort_nodes ..

theorem alloc_nodes {f : Frame} {b : BufId} (h : alloc f s = some (b, t)) : t.nodes = s.nodes := by
  obtain ⟨-, rfl⟩ := alloc_spec h
  rfl

@[simp] theorem reclaim_nodes (b : BufId) (s : State) : (reclaim b s).nodes = s.nodes := rfl

@[simp] theorem dropRef_nodes (b : BufId) (s : State) : (dropRef b s).nodes = s.nodes := rfl

@[simp] theorem pushTrunk_nodes (e : TxEntry) (s : State) : (pushTrunk e s).nodes = s.nodes := rfl

@[simp] theorem pushOut_nodes (b : BufId) (s : State) : (pushOut b s).nodes = s.nodes := rfl

@[simp] theorem pushTx_nodes (o : Origin) (e : TxEntry) (s : State) : (pushTx o e s).nodes = s.nodes := by cases o <;> rfl

@[simp] theorem takeIn_nodes (p : Port) (f : Frame) (s : State) : (takeIn p f s).2.nodes = s.nodes := by
  unfold takeIn
  split
  · split
    next ha => exact (countGood_nodes ..).trans (alloc_nodes ha)
    next => exact countOverrun_nodes ..
  · exact countOverrun_nodes ..

@[simp] theorem refuse_nodes (r : RefuseReason) (f : Frame) (s : State) : (refuse r f s).nodes = s.nodes :=
  nodes_of_noLinks (refuse_noLinks ..) (refuse_queues ..).1

@[simp] theorem refuseEntry_nodes (r : RefuseReason) (b : BufId) (s : State) : (refuseEntry r b s).nodes = s.nodes :=
  nodes_of_noLinks (refuseEntry_noLinks ..) (refuseEntry_queues ..).1

@[simp] theorem refuseAll_nodes (r : RefuseReason) (bs : List BufId) (s : State) : (refuseAll r bs s).nodes = s.nodes :=
  nodes_of_noLinks (refuseAll_noLinks ..) (refuseAll_queues ..).1

@[simp] theorem releaseAll_nodes (bs : List BufId) (s : State) : (releaseAll bs s).nodes = s.nodes :=
  nodes_of_noLinks (releaseAll_noLinks ..) (congrArg Queues.hold (releaseAll_queues ..))

@[simp] theorem popOut_nodes (s : State) : (popOut s).nodes = s.nodes := by
  unfold popOut
  split <;> rfl

@[simp] theorem toOutbound_nodes (b : BufId) (f : Frame) (s : State) : (toOutbound b f s).nodes = s.nodes := by
  unfold toOutbound
  split
  · exact refuse_nodes ..
  · rfl

@[simp] theorem toTrunk_nodes (b : BufId) (s : State) : (toTrunk b s).nodes = s.nodes := by
  unfold toTrunk
  split
  · rfl
  · exact countOverrun_nodes ..

@[simp] theorem updSeg_nodes (g : Segment → Segment) (s : State) : (updSeg g s).nodes = s.nodes := rfl

@[simp] theorem leavePort_nodes (s : State) : (leavePort s).nodes = s.nodes := rfl

@[simp] theorem closeTurn_nodes (s : State) : (closeTurn s).nodes = s.nodes := by
  unfold closeTurn
  split <;> rfl

/-! ## Agent and replies -/

@[simp] theorem updMa_nodes (g : Agent → Agent) (s : State) : (updMa g s).nodes = s.nodes := rfl

@[simp] theorem updOrigin_nodes (o : Origin) (g : OriginRec → OriginRec) (s : State) : (updOrigin o g s).nodes = s.nodes := rfl

@[simp] theorem setLong_nodes (l : Option LongOp) (s : State) : (setLong l s).nodes = s.nodes := rfl

@[simp] theorem setJob_nodes (j : LongJob) (s : State) : (setJob j s).nodes = s.nodes := rfl

@[simp] theorem accept_nodes (o : Origin) (j : LongJob) (s : State) : (accept o j s).nodes = s.nodes := rfl

@[simp] theorem turnPointer_nodes (o : Origin) (s : State) : (turnPointer o s).nodes = s.nodes := rfl

@[simp] theorem placeOne_nodes (s : State) : (placeOne s).nodes = s.nodes := nodes_of_noReply (placeOne_noReply s) (placeOne_quiet s).1

@[simp] theorem placeReplies_nodes (n : Nat) (s : State) : (placeReplies n s).nodes = s.nodes := by
  induction n generalizing s with
  | zero => rfl
  | succ n ih => exact (ih _).trans (placeOne_nodes s)

@[simp] theorem queueReply_nodes (r : BuiltReply) (s : State) : (queueReply r s).nodes = s.nodes := placeReplies_nodes ..

@[simp] theorem finalReply_nodes (o : Origin) (st : Status) (d : List Byte) (x : Bool) (s : State) :
    (finalReply o st d x s).nodes = s.nodes := nodes_of_quiet (finalReply_noEvent ..) (finalReply_quiets ..)

@[simp] theorem reply_nodes (o : Origin) (st : Status) (s : State) : (reply o st s).nodes = s.nodes := finalReply_nodes ..

@[simp] theorem replyOk_nodes (o : Origin) (d : List Byte) (s : State) : (replyOk o d s).nodes = s.nodes := finalReply_nodes ..

@[simp] theorem endLong_nodes (st : Status) (d : List Byte) (s : State) : (endLong st d s).nodes = s.nodes :=
  nodes_of_quiet (endLong_noEvent ..) (endLong_quiets ..)

@[simp] theorem endSelfCheck_nodes (c : SelfCheck) (s : State) : (endSelfCheck c s).nodes = s.nodes := endLong_nodes ..

@[simp] theorem sendRange_nodes (o : Origin) (u a b : Nat) (s : State) : (sendRange o u a b s).nodes = s.nodes := by
  unfold sendRange
  split
  · split
    · rfl
    · simp only
      split
      · rfl
      next ha =>
        refine Eq.trans ?_ (alloc_nodes ha)
        unfold afterFrame
        split <;> simp
  · rfl

@[simp] theorem takeRequest_nodes (o : Origin) (f : Frame) (s : State) : (takeRequest o f s).nodes = s.nodes := by
  unfold takeRequest
  simp only
  split
  · rfl
  · split
    · rfl
    · exact queueReply_nodes ..

/-! ## Cache and pins -/

@[simp] theorem updBc_nodes (g : Cache → Cache) (s : State) : (updBc g s).nodes = s.nodes := rfl

@[simp] theorem idleReader_nodes (s : State) : (idleReader s).nodes = s.nodes := rfl

@[simp] theorem updFill_nodes (g : Fill → Fill) (s : State) : (updFill g s).nodes = s.nodes := nodes_of_noCache (by simp)

@[simp] theorem pinLine_nodes (l : LineId) (s : State) : (pinLine l s).nodes = s.nodes := nodes_of_noCache (by simp)

@[simp] theorem emptyLine_nodes (l : LineId) (s : State) : (emptyLine l s).nodes = s.nodes := nodes_of_noCache (by simp)

@[simp] theorem dropLines_nodes (i : ImageId) (s : State) : (dropLines i s).nodes = s.nodes := nodes_of_noCache (by simp)

@[simp] theorem dropFills_nodes (i : ImageId) (s : State) : (dropFills i s).nodes = s.nodes := nodes_of_noCache (by simp)

@[simp] theorem discardFill_nodes (i : ImageId) (s : State) : (discardFill i s).nodes = s.nodes := nodes_of_noCache (by simp)

@[simp] theorem disownFill_nodes (i : ImageId) (s : State) : (disownFill i s).nodes = s.nodes := nodes_of_noCache (by simp)

@[simp] theorem clearPinMarks_nodes (s : State) : (clearPinMarks s).nodes = s.nodes := nodes_of_noCache (by simp)

@[simp] theorem withdrawSlot_nodes (k : SlotId) (s : State) : (withdrawSlot k s).nodes = s.nodes := nodes_of_noCache (by simp)

@[simp] theorem request_nodes (r : Source) (i : ImageId) (b : Nat) (s : State) : (request r i b s).nodes = s.nodes :=
  nodes_of_noCache (by simp)

@[simp] theorem requestBlocks_nodes (k : SlotId) (s : State) : (requestBlocks k s).nodes = s.nodes := nodes_of_noCache (by simp)

@[simp] theorem requestAll_nodes (s : State) : (requestAll s).nodes = s.nodes := nodes_of_noCache (by simp)

@[simp] theorem hitBlock_nodes (i : ImageId) (b : Nat) (s : State) : (hitBlock i b s).nodes = s.nodes :=
  nodes_of_noCache (hitBlock_grows i b s).1

@[simp] theorem setWaiting_nodes (w : List Nat) (s : State) : (setWaiting w s).nodes = s.nodes := by
  unfold setWaiting
  split <;> rfl

@[simp] theorem pinDone_nodes (s : State) : (pinDone s).nodes = s.nodes := by
  unfold pinDone
  split
  · exact endLong_nodes ..
  · rfl

@[simp] theorem endPin_nodes (st : Status) (s : State) : (endPin st s).nodes = s.nodes := by
  unfold endPin
  split
  · exact (endLong_nodes ..).trans (clearPinMarks_nodes s)
  · rfl

@[simp] theorem endPinOn_nodes (i : ImageId) (s : State) : (endPinOn i s).nodes = s.nodes :=
  nodes_of_quiet (endPinOn_noEvent ..) (endPinOn_quiets ..)

@[simp] theorem placeWaiting_nodes (s : State) : (placeWaiting s).nodes = s.nodes :=
  nodes_of_quiet (placeWaiting_noEvent s) (placeWaiting_quiets s)

@[simp] theorem afterWithdraw_nodes (b : Bool) (s : State) : (afterWithdraw b s).nodes = s.nodes := by
  unfold afterWithdraw
  split <;> simp

@[simp] theorem withdrawImage_nodes (i : ImageId) (s : State) : (withdrawImage i s).nodes = s.nodes := by
  unfold withdrawImage
  split <;> simp

@[simp] theorem dropImage_nodes (i : ImageId) (s : State) : (dropImage i s).nodes = s.nodes := by
  unfold dropImage
  simp

theorem pinBlocks_nodes (i : ImageId) (bs : List Nat) (s : State) : (pinBlocks i bs s).nodes = s.nodes := by
  induction bs generalizing s with
  | nil => exact setWaiting_nodes ..
  | cons b bs ih =>
    unfold pinBlocks
    split
    · exact setWaiting_nodes ..
    · exact (ih _).trans (request_nodes ..)

@[simp] theorem startPin_nodes (o : Origin) (i : ImageId) (a b : Nat) (s : State) : (startPin o i a b s).nodes = s.nodes := by
  unfold startPin
  simp only
  split
  · exact reply_nodes ..
  · split
    · exact reply_nodes ..
    · exact (pinDone_nodes _).trans ((pinBlocks_nodes ..).trans rfl)

@[simp] theorem unpin_nodes (i : ImageId) (a b : Nat) (s : State) : (unpin i a b s).nodes = s.nodes := by
  unfold unpin takeBack
  simp only
  split
  · refine (pinDone_nodes _).trans ((setWaiting_nodes ..).trans ((updBc_nodes ..).trans ?_))
    split
    · exact updFill_nodes ..
    · rfl
  · rfl

@[simp] theorem prefetch_nodes (i : ImageId) (a b : Nat) (s : State) : (prefetch i a b s).nodes = s.nodes := by
  unfold prefetch
  split
  · exact foldl_keeps State.nodes _ (fun s b => request_nodes ..) _ s
  · rfl

/-! ## The reader -/

@[simp] theorem startWork_nodes (s : State) : (startWork s).nodes = s.nodes := by
  unfold startWork
  split
  · unfold startLong
    split
    · rfl
    · split <;> rfl
  · split
    · exact (placeWaiting_nodes _).trans rfl
    · rfl

@[simp] theorem fillEmpty_nodes (f : Fill) (s : State) : (fillEmpty f s).nodes = s.nodes := by
  unfold fillEmpty
  simp

@[simp] theorem fillValid_nodes (f : Fill) (bs : List Byte) (s : State) : (fillValid f bs s).nodes = s.nodes := by
  unfold fillValid
  simp only [requestAll_nodes]
  split <;> simp

@[simp] theorem leftoverFailed_nodes (f : Fill) (s : State) : (leftoverFailed f s).nodes = s.nodes := by
  unfold leftoverFailed returnPin
  simp only [requestAll_nodes]
  split <;> simp

/-! ## The engine reset -/

@[simp] theorem resetCache_nodes (s : State) : (resetCache s).nodes = s.nodes := by
  unfold resetCache
  simp only
  split <;> rfl

@[simp] theorem abortLong_nodes (s : State) : (abortLong s).nodes = s.nodes := by
  unfold abortLong
  split
  · rfl
  · split
    · exact endLong_nodes ..
    · exact endLong_nodes ..
    · exact endPin_nodes ..
    · split <;> simp
    · split <;> simp
    · rfl

theorem engineReset_nodes (s : State) : (engineReset s).nodes = (resetQueues (resetSlots s)).nodes := by
  refine (abortLong_nodes _).trans ?_
  show (closeTurn _).nodes = _
  rw [closeTurn_nodes, updSeg_nodes, resetCache_nodes]

end Sys2Proof.Machine
end

section
/-! PROOFS. One walk over the operations for the laws of sessions and records: what such a law has to meet (`NodeLaw`), and that every event
but the start-up load then keeps it. -/

namespace Sys2Proof.Machine

open Sys2Proof.Safety

/-! ## What a law of sessions or records has to meet -/

/-- What the laws read of a session. -/
def Session.core (x : Session) := (x.img, x.window, x.length, x.cursor, x.through, x.inFlight)

/-- What the laws read of a slot. -/
def SlotStatus.core (x : SlotStatus) := (x.state, x.cls, x.retryTimer, x.session.map Session.core)

/-- Two states that a law of sessions or records does not tell apart. -/
structure SameNodes (s t : State) : Prop where
  phase : t.phase = s.phase
  line : t.lm.line = s.lm.line
  entries : t.tables.slots = s.tables.slots
  classes : t.tables.classes = s.tables.classes
  depth : t.tables.settings.holdDepth = s.tables.settings.holdDepth
  core : ∀ k : SlotId, t.slots[k].core = s.slots[k].core
  ctx : t.ctx = s.ctx
  users : ∀ i : ImageId, t.catSt[i].users = s.catSt[i].users
  hold : t.queues.hold = s.queues.hold

/-- The bookkeeping of a session: the window, the order of the blocks in flight, and the blocks acknowledged before them (R30, R35). -/
def Session.Sound (x : Session) : Prop :=
  x.inFlight.length ≤ x.window ∧ x.inFlight.Pairwise (· < ·) ∧ (∀ b ∈ x.inFlight, b < x.cursor) ∧
    (∀ a, x.through = some a → a < x.cursor ∧ ∀ b ∈ x.inFlight, a < b) ∧ x.cursor ≤ x.length

/-- A slot state that no session, retry or retirement goes with. -/
def SlotState.plain : SlotState → Bool
  | .absent | .dark | .running | .failed => true
  | .vacant | .loading | .starting | .context | .backoff => false

/-- A class entry of the form that a decoded one has (R134). -/
def ClassEntry.Fits (e : ClassEntry) : Prop := (∀ f : FieldId, e.layout[f] ≤ 8) ∧ e.layout.toList.sum ≤ 64

/-- A law of sessions or records: `P` on every state, `H k` on a state in which the slot `k` is between two states. -/
structure NodeLaw (P : State → Prop) (H : SlotId → State → Prop) : Prop where
  same {s t : State} : P s → SameNodes s t → P t
  sameOpen {k : SlotId} {s t : State} : H k s → SameNodes s t → H k t
  reset (s : State) : P (fullReset s)
  ended {k : SlotId} {s : State} : P s → s.slots[k].state.restoring = true ∨ s.slots[k].session ≠ none → H k (endSession k s)
  closed {k : SlotId} {s : State} : P s → s.slots[k].state.plain = true → H k s
  failed {k : SlotId} {s : State} (c : Cause) : H k s → P (failSlot k c s)
  succeeded {k : SlotId} {s : State} : H k s → s.slots[k].state.restoring = true → P (succeed k s)
  opened {k : SlotId} {s : State} (i : ImageId) (w : Bool) : H k s → s.lm.line.good = true → P (openSession k i w s)
  classed {s : State} (k : SlotId) (c : ClassId) : P s → P (setClass k c s)
  classedOpen {k : SlotId} {s : State} (c : ClassId) : H k s → H k (setClass k c s)
  moved {k : SlotId} {s : State} {st : SlotState} : P s → s.slots[k].state.plain = true → st.plain = true →
    P (updSlot k (fun x => { x with state := st }) s)
  retried {k : SlotId} {s : State} : P s → s.slots[k].retryTimer.isSome = true →
    P (updSlot k (fun x => { x with state := .absent, retryTimer := none }) s)
  staged {k : SlotId} {s : State} {st : SlotState} : P s → s.slots[k].session ≠ none → st.restoring = true →
    P (updSlot k (fun x => { x with state := st }) s)
  worked {k : SlotId} {s : State} {g : Session → Session} : P s →
    (∀ x, s.slots[k].session = some x → (g x).img = x.img ∧ (x.Sound → (g x).Sound)) → P (updSession k g s)
  held {k : SlotId} {s : State} (b : BufId) : P s → s.slots[k].state.restoring = true → holdRoom k s = true → P (pushHold k b s)
  darkened {s : State} : P s → P (flushGap (darkenAll s))
  lined {s : State} (g : LineMon → LineMon) : P s → s.phase = .running ∨ s.lm.line ≠ .gap → P (updLm g s)
  emptied {s : State} (k : SlotId) : P s → P (setCtx k .empty s)
  stored {k : SlotId} {f : FieldId} {v : List Byte} {s : State} : P s → v.length = fieldLen k f s → P (storeField k f v s)
  settled {s : State} (e : Settings) : P s → P (setSettings e s)
  reclassed {s : State} (c : ClassId) {e : ClassEntry} : P s → e.Fits → P (setClassEntry c e s).2
  reentered {k : SlotId} {s : State} (e : SlotEntry) : P s → isRestoring s k = false →
    P (slotEffects k s.tables.slots[k] e { s with tables := { s.tables with slots := s.tables.slots.set k e } })
  unslotted {s : State} : P s → P (resetQueues (resetSlots s))

/-! ## States told apart by no law -/

namespace SameNodes

variable {s t : State}

theorem of_nodes (h : t.nodes = s.nodes) : SameNodes s t := by
  simp only [State.nodes, Prod.mk.injEq] at h
  obtain ⟨h1, h2, h3, h4, h5, h6, h7⟩ := h
  exact ⟨h1, h2, by rw [h3], by rw [h3], by rw [h3], fun k => by rw [h4], h5, fun i => by rw [h6], h7⟩

theorem updSlot (k : SlotId) {f g : SlotStatus → SlotStatus} (h : ∀ x, (g x).core = (f x).core) (s : State) :
    SameNodes (updSlot k f s) (updSlot k g s) := by
  refine ⟨rfl, rfl, rfl, rfl, rfl, fun j => ?_, rfl, fun _ => rfl, rfl⟩
  by_cases hj : j = k
  · subst hj
    rw [updSlot_same, updSlot_same]
    exact h _
  · rw [updSlot_other hj, updSlot_other hj]

theorem slot (k : SlotId) {g : SlotStatus → SlotStatus} (h : ∀ x, (g x).core = x.core) (s : State) : SameNodes s (Machine.updSlot k g s) := by
  refine ⟨rfl, rfl, rfl, rfl, rfl, fun j => ?_, rfl, fun _ => rfl, rfl⟩
  by_cases hj : j = k
  · subst hj
    rw [updSlot_same]
    exact h _
  · rw [updSlot_other hj]

theorem trans {u : State} (h : SameNodes s t) (g : SameNodes t u) : SameNodes s u :=
  ⟨g.phase.trans h.phase, g.line.trans h.line, g.entries.trans h.entries, g.classes.trans h.classes, g.depth.trans h.depth,
    fun k => (g.core k).trans (h.core k), g.ctx.trans h.ctx, fun i => (g.users i).trans (h.users i), g.hold.trans h.hold⟩

theorem bad (i : ImageId) {g : CatStatus → CatStatus} (h : ∀ c, (g c).users = c.users) (s : State) : SameNodes s (updCat i g s) := by
  refine ⟨rfl, rfl, rfl, rfl, rfl, fun _ => rfl, rfl, fun j => ?_, rfl⟩
  show (vmod s.catSt i g)[j].users = _
  by_cases hj : j = i
  · subst hj
    rw [vmod_same]
    exact h _
  · rw [vmod_other _ hj]

end SameNodes

/-! ## Sessions and slots -/

section

variable {k : SlotId} {s : State}

theorem endSession_none (h : s.slots[k].session = none) : endSession k s = s := by
  unfold endSession
  rw [h]

theorem endSession_session (k : SlotId) (s : State) : (endSession k s).slots[k].session = none := by
  rw [endSession_slots]
  split
  next => rfl
  next h => exact Option.not_isSome_iff_eq_none.1 fun hx => h ⟨rfl, hx⟩

theorem failSlot_ended (k : SlotId) (c : Cause) (s : State) : failSlot k c (endSession k s) = failSlot k c s := by
  unfold failSlot
  rw [endSession_none (endSession_session k s)]

theorem succeed_ended (k : SlotId) (s : State) : succeed k (endSession k s) = succeed k s := by
  unfold succeed
  rw [endSession_none (endSession_session k s)]

theorem endSession_state (k : SlotId) (s : State) : (endSession k s).slots[k].state = s.slots[k].state := by
  rw [endSession_slots]
  split <;> rfl

theorem setClass_state (k : SlotId) (c : ClassId) (s : State) : (setClass k c s).slots[k].state = s.slots[k].state := by
  unfold setClass
  split
  · rfl
  · show (updSlot k (fun x => { x with cls := some c, retry := 0 }) s).slots[k].state = _
    rw [updSlot_same]

theorem ackThrough_sound {x : Session} {t : Option Nat} (ht : t.any (fun t => decide (x.cursor ≤ t)) = false) (hx : x.Sound) :
    (x.ackThrough t).Sound := by
  obtain ⟨h1, h2, h3, h4, h5⟩ := hx
  unfold Session.ackThrough
  split
  next => exact ⟨h1, h2, h3, h4, h5⟩
  next t =>
    have htc : t < x.cursor := by simpa using ht
    split
    next =>
      refine ⟨(List.length_filter_le ..).trans h1, h2.filter _, fun b hb => h3 b (List.mem_filter.1 hb).1, fun a ha => ?_, h5⟩
      obtain rfl := Option.some.inj ha
      exact ⟨htc, fun b hb => of_decide_eq_true (List.mem_filter.1 hb).2⟩
    next => exact ⟨h1, h2, h3, h4, h5⟩

theorem resendFrom_sound {x : Session} {m : Nat} (hm : m ≤ x.cursor) (ha : ∀ a, x.through = some a → a < m) (hx : x.Sound) :
    (x.resendFrom m).Sound := by
  obtain ⟨h1, h2, h3, h4, h5⟩ := hx
  refine ⟨(List.length_filter_le ..).trans h1, h2.filter _, fun b hb => of_decide_eq_true (List.mem_filter.1 hb).2, fun a ht => ?_,
    hm.trans h5⟩
  exact ⟨ha a ht, fun b hb => (h4 a ht).2 b (List.mem_filter.1 hb).1⟩

theorem holds_restoring {a : FwdAction} (h : holds a k s = true) : s.slots[k].state.restoring = true := by
  unfold holds at h
  simp only [Bool.and_eq_true] at h
  obtain ⟨⟨hr, -⟩, -⟩ := h
  exact hr

theorem holdCopy_state (b : BufId) (k j : SlotId) (s : State) : (holdCopy b k s).slots[j].state = s.slots[j].state := by
  unfold holdCopy
  split
  · rfl
  · by_cases hj : j = k
    · subst hj
      rw [updSlot_same]
    · rw [updSlot_other hj]

end

section Walk

variable {P : State → Prop} {H : SlotId → State → Prop} {k : SlotId} {s t : State}

namespace NodeLaw

theorem keep (L : NodeLaw P H) (hs : P s) (h : t.nodes = s.nodes) : P t := L.same hs (.of_nodes h)

theorem slot (L : NodeLaw P H) (hs : P s) (k : SlotId) {g : SlotStatus → SlotStatus}
    (h : ∀ x, (g x).core = x.core := by intro; rfl) : P (updSlot k g s) :=
  L.same hs (.slot k h s)

theorem slotOpen (L : NodeLaw P H) (hs : H k s) {g : SlotStatus → SlotStatus} (h : ∀ x, (g x).core = x.core := by intro; rfl) : H k (updSlot k g s) :=
  L.sameOpen hs (.slot k h s)

/-- A move with whatever else of the slot no law reads. -/
theorem move (L : NodeLaw P H) (hs : P s) {st : SlotState} (hf : s.slots[k].state.plain = true) (ht : st.plain = true)
    {g : SlotStatus → SlotStatus} (h : ∀ x, (g x).core = ({ x with state := st } : SlotStatus).core := by intro; rfl) :
    P (updSlot k g s) :=
  L.same (L.moved hs hf ht) (.updSlot k h s)

theorem foldl {α : Type} {f : State → α → State} (hf : ∀ s a, P s → P (f s a)) (l : List α) (hs : P s) : P (l.foldl f s) := by
  induction l generalizing s with
  | nil => exact hs
  | cons a l ih => exact ih (hf _ a hs)

/-! ## Failures -/

theorem fail (L : NodeLaw P H) (hs : P s) (c : Cause) (h : s.slots[k].state.restoring = true ∨ s.slots[k].session ≠ none) :
    P (failSlot k c s) := failSlot_ended k c s ▸ L.failed c (L.ended hs h)

theorem fail_restoring (L : NodeLaw P H) (hs : P s) (c : Cause) (h : s.slots[k].state.restoring = true) : P (failSlot k c s) :=
  L.fail hs c (.inl h)

theorem failAll (L : NodeLaw P H) (c : Cause) (l : List SlotId) (hn : l.Nodup) (hl : ∀ k ∈ l, s.slots[k].session ≠ none) (hs : P s) :
    P (failAll c l s) := by
  induction l generalizing s with
  | nil => exact hs
  | cons k l ih =>
    obtain ⟨hk, hn⟩ := List.nodup_cons.1 hn
    refine ih hn (fun j hj => ?_) (L.fail hs c (.inr (hl k List.mem_cons_self)))
    rw [failSlot_other (show j ≠ k from fun e => hk (e ▸ hj))]
    exact hl j (List.mem_cons_of_mem k hj)

theorem failUsers (L : NodeLaw P H) (i : ImageId) (hs : P s) : P (Machine.failUsers i s) := by
  have hp := freeOrder_perm (usersOf i s).length s.freeTick (usersOf i s)
  refine L.failAll .imageBad (s := { s with freeTick := _ }) _ (hp.nodup_iff.2 (nodup_filter_slotIds _)) (fun k hk => ?_) (L.keep hs rfl)
  have := (List.mem_filter.1 (hp.mem_iff.1 hk)).2
  intro hx
  rw [show s.slots[k].session = none from hx] at this
  cases this

theorem markBad (L : NodeLaw P H) (i : ImageId) (hs : P s) : P (Machine.markBad i s) := by
  have hb : (endPinOn i (disownFill i (dropLines i (withdrawImage i (updCat i (fun c => { c with bad := true }) s))))).nodes =
      (updCat i (fun c => { c with bad := true }) s).nodes := by
    rw [endPinOn_nodes, disownFill_nodes, dropLines_nodes, withdrawImage_nodes]
  exact L.keep (L.failUsers i (L.keep (L.same hs (.bad i (g := fun c => { c with bad := true }) (fun _ => rfl) s)) hb)) (raise_nodes ..)

/-! ## The reader, SELF-CHECK and the cache -/

theorem judgeFill (L : NodeLaw P H) (hs : P s) (f : Fill) (bs : List Byte) : P (Machine.judgeFill f bs s) := by
  unfold Machine.judgeFill
  split
  · exact L.keep hs (fillEmpty_nodes ..)
  · split
    · split
      · exact L.keep hs (fillEmpty_nodes ..)
      · exact L.keep hs (fillValid_nodes ..)
    · split
      · exact L.keep hs (leftoverFailed_nodes ..)
      · split
        · exact L.keep (L.markBad f.img (s := emptyLine f.line (idleReader s)) (L.keep hs (by simp))) (requestAll_nodes _)
        · exact L.keep hs rfl

theorem mismatch (L : NodeLaw P H) (hs : P s) (i : ImageId) : P (Machine.mismatch i s) := by
  unfold Machine.mismatch
  split
  · exact L.keep (L.markBad i hs) (requestAll_nodes _)
  · exact L.markBad i hs

theorem runChecks (L : NodeLaw P H) (n : Nat) (c : SelfCheck) (hs : P s) : P (Machine.runChecks n c s) := by
  induction n generalizing c s with
  | zero => exact L.keep hs (endSelfCheck_nodes ..)
  | succ n ih =>
    unfold Machine.runChecks
    simp only
    split
    · split
      · exact L.keep hs (setJob_nodes ..)
      · split
        · exact ih _ hs
        · exact ih _ (L.mismatch hs _)
    · exact ih _ hs

theorem scanTaken (L : NodeLaw P H) (hs : P s) (live : Bool) (read : Disturb) : P (Machine.scanTaken live read s) := by
  unfold Machine.scanTaken
  split
  · unfold scanned
    split
    · unfold scanIdentity
      split
      · exact L.keep hs (setJob_nodes ..)
      · exact L.keep hs (endSelfCheck_nodes ..)
    · unfold scanStore
      simp only
      split
      · exact L.keep hs (setJob_nodes ..)
      · exact L.runChecks _ _ hs
    · exact L.runChecks _ _ hs
  · exact hs

theorem restartCheck (L : NodeLaw P H) (hs : P s) (i : ImageId) : P (Machine.restartCheck i s) := by
  unfold Machine.restartCheck
  split
  · split
    · refine L.runChecks _ _ (L.keep hs ?_)
      unfold dropScan
      split <;> rfl
    · exact hs
  · exact hs

/-! ## BOOTCALL and STATUS -/

theorem resolveImage (L : NodeLaw P H) (hs : H k s) (b : BootCall) (hl : s.lm.line.good = true) : P (Machine.resolveImage k b s) := by
  unfold Machine.resolveImage
  split
  · exact L.failed _ hs
  · simp only
    split
    · exact L.failed _ hs
    · split
      · exact L.failed _ hs
      · split
        · exact L.failed _ hs
        · exact L.opened _ _ (L.slotOpen hs) hl

theorem resolve (L : NodeLaw P H) (hs : H k s) (b : BootCall) (hl : s.lm.line.good = true) : P (Machine.resolve k b s) := by
  unfold Machine.resolve
  split
  · exact L.failed _ hs
  · refine L.resolveImage (L.classedOpen _ hs) b ?_
    have hm := (of_noEvent (setClass_noEvent k (classLookup b.cls.toNat s) s)).2.2.2.1
    rw [hm]
    exact hl

theorem takeBootCall (L : NodeLaw P H) (hs : P s) (k : SlotId) (b : BootCall) (hl : s.lm.line.good = true) :
    P (Machine.takeBootCall k b s) := by
  have hopen : s.slots[k].state.restoring = true → H k (raise .restarted (.slot k) none (endSession k s)) := fun hr =>
    L.sameOpen (L.ended hs (.inl hr)) (.of_nodes (raise_nodes ..))
  have hline : (raise .restarted (.slot k) none (endSession k s)).lm.line.good = true := by
    show (endSession k s).lm.line.good = true
    rw [(endSession_frame k s).2.1]
    exact hl
  unfold Machine.takeBootCall
  cases hst : s.slots[k].state
  case absent => exact L.resolve (L.closed hs (by rw [hst]; rfl)) b hl
  case dark => exact L.resolve (L.closed hs (by rw [hst]; rfl)) b hl
  case running =>
    have hc : H k s := L.closed hs (by rw [hst]; rfl)
    dsimp only
    split
    · exact L.resolve (L.slotOpen hc) b hl
    · exact L.resolve (L.sameOpen hc (.of_nodes (raise_nodes ..))) b hl
  case loading => exact L.resolve (hopen (by rw [hst]; rfl)) b hline
  case starting => exact L.resolve (hopen (by rw [hst]; rfl)) b hline
  case context => exact L.resolve (hopen (by rw [hst]; rfl)) b hline
  case backoff => exact hs
  case failed => exact hs
  case vacant => exact hs

theorem bootCallAnswer (L : NodeLaw P H) (hs : P s) (k : SlotId) (p : List Byte) : P (Machine.bootCallAnswer k p s) := by
  unfold Machine.bootCallAnswer
  split
  · split
    next hl => exact L.takeBootCall hs k _ hl
    next => exact hs
  · exact hs

theorem judgeStale (L : NodeLaw P H) (hs : P s) (k : SlotId) (tag : Word32) : P (Machine.judgeStale k tag s) := by
  unfold Machine.judgeStale
  split
  · exact L.slot hs k
  · split
    · exact hs
    · exact L.keep (L.slot hs k) (raise_nodes ..)

theorem fail_plain (L : NodeLaw P H) (hs : P s) (c : Cause) (h : s.slots[k].state.plain = true) : P (failSlot k c s) :=
  L.failed c (L.closed hs h)

theorem survive (L : NodeLaw P H) (hs : P s) (h : s.slots[k].state.plain = true) (tag : Word32) : P (Machine.survive k tag s) := by
  unfold Machine.survive
  split
  · exact L.fail_plain hs _ h
  · split
    · exact L.fail_plain hs _ h
    · exact L.judgeStale (L.move hs (st := .running) h rfl) k tag

theorem survivorReturn (L : NodeLaw P H) (hs : P s) (h : s.slots[k].state.plain = true) (c : Byte) (tag : Word32) :
    P (Machine.survivorReturn k c tag s) := by
  have hb : P (updSlot k (fun x => { x with reboot := none }) s) := L.slot hs k
  have hp : (updSlot k (fun x => { x with reboot := none }) s).slots[k].state.plain = true := by
    rw [updSlot_same]
    exact h
  unfold Machine.survivorReturn
  simp only
  split
  · exact L.fail_plain hb _ hp
  · exact L.survive (L.classed _ _ hb) (by rw [setClass_state]; exact hp) tag

theorem statusAnswer (L : NodeLaw P H) (hs : P s) (k : SlotId) (p : List Byte) : P (Machine.statusAnswer k p s) := by
  unfold Machine.statusAnswer
  split
  · unfold takeStatus
    cases hst : s.slots[k].state
    case running => exact L.judgeStale hs ..
    case dark => exact L.survivorReturn hs (by rw [hst]; rfl) ..
    case absent => exact L.survivorReturn hs (by rw [hst]; rfl) ..
    case loading => exact L.fail_restoring hs _ (by rw [hst]; rfl)
    case starting => exact L.fail_restoring hs _ (by rw [hst]; rfl)
    case context => exact L.fail_restoring hs _ (by rw [hst]; rfl)
    case backoff => exact hs
    case failed => exact hs
    case vacant => exact hs
  · exact hs

/-! ## Missed turns -/

theorem presenceLost (L : NodeLaw P H) (hs : P s) (k : SlotId) : P (Machine.presenceLost k s) := by
  unfold Machine.presenceLost
  cases hst : s.slots[k].state
  case running =>
    have hb : P (raise .lost (.slot k) none (updSlot k (fun x => { x with state := .absent }) s)) :=
      L.keep (L.move hs (st := .absent) (by rw [hst]; rfl) rfl) (raise_nodes ..)
    dsimp only
    split
    · exact L.emptied k hb
    · exact hb
  case dark => exact L.keep (L.move hs (st := .absent) (by rw [hst]; rfl) rfl) (raise_nodes ..)
  case loading => exact L.fail_restoring hs _ (by rw [hst]; rfl)
  case starting => exact L.fail_restoring hs _ (by rw [hst]; rfl)
  case context => exact L.fail_restoring hs _ (by rw [hst]; rfl)
  case absent => exact hs
  case backoff => exact hs
  case failed => exact hs
  case vacant => exact hs

theorem missTurn (L : NodeLaw P H) (hs : P s) (k : SlotId) : P (Machine.missTurn k s) := by
  unfold Machine.missTurn
  split
  · exact L.presenceLost (L.slot hs k) k
  · exact L.slot hs k

/-! ## Restore answers -/

theorem succeed (L : NodeLaw P H) (hs : P s) (hr : s.slots[k].state.restoring = true) : P (Machine.succeed k s) := by
  rw [← succeed_ended]
  exact L.succeeded (L.ended hs (.inl hr)) (by rw [endSession_state]; exact hr)

theorem enterStage (L : NodeLaw P H) (hs : P s) {st : SlotState} (hx : s.slots[k].session ≠ none) (hst : st.restoring = true) :
    P (Machine.enterStage k st s) := L.worked (L.staged hs hx hst) fun _ _ => ⟨rfl, id⟩

theorem checkLoaded (L : NodeLaw P H) (hs : P s) (k : SlotId) : P (Machine.checkLoaded k s) := by
  unfold Machine.checkLoaded
  split
  next x hx =>
    split
    · exact L.keep (L.enterStage hs (by rw [hx]; simp) rfl) (withdrawSlot_nodes ..)
    · exact hs
  next => exact hs

theorem takeLoadAck (L : NodeLaw P H) (hs : P s) {x : Session} (hx : s.slots[k].session = some x) (hl : s.slots[k].state = .loading)
    (p : List Byte) : P (Machine.takeLoadAck k x p s) := by
  have hr : s.slots[k].state.restoring = true := by rw [hl]; rfl
  unfold Machine.takeLoadAck
  simp only
  split
  · exact L.fail_restoring hs _ hr
  next hok =>
    have href : ackRefused x (ackValue (rd16 p 0)) (ackValue (rd16 p 2)) = false :=
      Bool.eq_false_iff.2 fun h => hok (.inr h)
    generalize ackValue (rd16 p 0) = t at href ⊢
    generalize ackValue (rd16 p 2) = m at href ⊢
    unfold ackRefused at href
    simp only [Bool.or_eq_false_iff] at href
    obtain ⟨⟨⟨ht, hmc⟩, hma⟩, hmt⟩ := href
    have hb : P (updSession k (Session.ackThrough t) s) := L.worked hs fun y hy => by
      obtain rfl := Option.some.inj (hx.symm.trans hy)
      refine ⟨?_, ackThrough_sound ht⟩
      unfold Session.ackThrough
      split
      · rfl
      · split <;> rfl
    have hbx : (updSession k (Session.ackThrough t) s).slots[k].session = some (x.ackThrough t) := by
      rw [updSession_at hx, sessionAt_session]
    have hbs : (updSession k (Session.ackThrough t) s).slots[k].state = s.slots[k].state := by
      rw [updSession_at hx, sessionAt_state]
    unfold applyResend
    split
    next => exact L.checkLoaded hb k
    next m =>
      split
      · exact L.fail_restoring hb _ (hbs ▸ hr)
      · refine L.checkLoaded (L.keep (L.worked hb fun y hy => ?_) (requestBlocks_nodes ..)) k
        obtain rfl := Option.some.inj (hbx.symm.trans hy)
        have hmc' : m ≤ x.cursor := by simpa using hmc
        have hth : ∀ a, (x.ackThrough t).through = some a → a < m := by
          intro a ha
          unfold Session.ackThrough at ha
          split at ha
          next => simpa [ha] using hma
          next t =>
            split at ha
            next =>
              obtain rfl := Option.some.inj ha
              simpa using hmt
            next => simpa [ha] using hma
        have hcur : (x.ackThrough t).cursor = x.cursor := by
          unfold Session.ackThrough
          split
          · rfl
          · split <;> rfl
        exact ⟨rfl, resendFrom_sound (by rw [hcur]; exact hmc') hth⟩

theorem restoreAnswer (L : NodeLaw P H) (hs : P s) (k : SlotId) (d : Kind) (p : List Byte) : P (Machine.restoreAnswer k d p s) := by
  unfold Machine.restoreAnswer
  split
  next => exact hs
  next x hx =>
    split
    next hst => exact L.takeLoadAck hs hx hst p
    next hst =>
      have hr : s.slots[k].state.restoring = true := by rw [hst]; rfl
      split
      · unfold takeStarted
        split
        · exact L.fail_restoring hs _ hr
        · split
          · exact L.enterStage hs (by rw [hx]; simp) rfl
          · split
            · exact L.fail_restoring (L.slot hs k) _ (by rw [updSlot_same]; exact hr)
            · exact L.fail_restoring hs _ hr
      · exact hs
    next hst =>
      have hr : s.slots[k].state.restoring = true := by rw [hst]; rfl
      split
      · unfold takeReady
        split
        · exact L.fail_restoring hs _ hr
        · split
          · exact L.fail_restoring hs _ hr
          · split
            · exact L.fail_restoring hs _ hr
            · exact L.succeed hs hr
      · exact hs
    next => exact hs

/-! ## Capture and the hold queues -/

theorem captureInto (L : NodeLaw P H) (hs : P s) (r : CapRule) (f : Frame) (k : SlotId) : P (Machine.captureInto r f k s) := by
  unfold Machine.captureInto
  simp only
  split
  · exact hs
  next hn =>
    refine L.stored hs ?_
    rw [List.length_take, List.length_drop]
    omega

theorem capture (L : NodeLaw P H) (hs : P s) (c : CapSource) (f : Frame) (n : Option SlotId) : P (Machine.capture c f n s) := by
  refine foldl (fun s r hs => ?_) _ hs
  unfold captureRule
  split
  · exact foldl (P := P) (f := fun s k => Machine.captureInto r f k s) (fun s k hs => L.captureInto hs r f k) _ hs
  · exact hs

theorem gateStation (L : NodeLaw P H) (hs : P s) (a : FwdAction) (b : BufId) (f : Frame) : P (Machine.gateStation a b f s) := by
  unfold Machine.gateStation
  split
  · exact L.keep hs (refuse_nodes ..)
  · split
    · exact L.keep hs (toOutbound_nodes ..)
    · split
      · exact L.keep hs (toOutbound_nodes ..)
      · split
        next hh =>
          split
          next hr => exact L.held b hs (holds_restoring hh) hr
          next => exact L.keep hs (refuse_nodes ..)
        next => exact L.keep hs (refuse_nodes ..)

theorem holdCopy (L : NodeLaw P H) (hs : P s) (hr : s.slots[k].state.restoring = true) (b : BufId) : P (Machine.holdCopy b k s) := by
  unfold Machine.holdCopy
  split
  next hroom => exact L.held b hs hr hroom
  next => exact L.slot hs k

theorem holdCopies (L : NodeLaw P H) (b : BufId) (l : List SlotId) (hl : ∀ k ∈ l, s.slots[k].state.restoring = true) (hs : P s) :
    P (l.foldl (fun s k => Machine.holdCopy b k s) s) := by
  induction l generalizing s with
  | nil => exact hs
  | cons k l ih =>
    refine ih (fun j hj => ?_) (L.holdCopy hs (hl k List.mem_cons_self) b)
    rw [holdCopy_state]
    exact hl j (List.mem_cons_of_mem k hj)

theorem gateGroup (L : NodeLaw P H) (hs : P s) (a : FwdAction) (b : BufId) (f : Frame) : P (Machine.gateGroup a b f s) := by
  unfold Machine.gateGroup
  split
  · exact hs
  · have hn : (if outFull s then countOverrun .segment s else pushOut b s).nodes = s.nodes := by
      split <;> simp
    refine L.holdCopies b _ (fun k hk => ?_) (L.keep hs hn)
    have hh := (Bool.and_eq_true_iff.1 (List.mem_filter.1 hk).2).2
    have hslots : (if outFull s then countOverrun .segment s else pushOut b s).slots = s.slots := congrArg (fun n => n.2.2.2.1) hn
    rw [hslots]
    exact holds_restoring hh

/-! ## Frames received -/

theorem downstream (L : NodeLaw P H) (hs : P s) (b : BufId) (f : Frame) : P (Machine.downstream b f s) := by
  have hc : P (if (lookup .down .data f s).2 then Machine.capture .dataDown f none s else s) := by
    split
    · exact L.capture hs ..
    · exact hs
  unfold Machine.downstream
  simp only
  split
  · exact hc
  all_goals
    split
    · exact L.gateStation hc ..
    · exact L.gateGroup hc ..

theorem receiveOn (L : NodeLaw P H) (hs : P s) (l : Link) (bytes : List Byte) : P (Machine.receiveOn l bytes s) := by
  unfold Machine.receiveOn
  split
  · exact L.keep hs (countBad_nodes ..)
  next f _ =>
    split
    · have hin : ∀ {r : Option BufId × State}, Machine.takeIn (Link.origin l).port f s = r → P r.2 := fun h =>
        L.keep hs (h ▸ takeIn_nodes ..)
      split
      next ht => exact hin ht
      next b t ht =>
        unfold handOver
        split
        · exact L.keep (L.downstream (hin ht) b f) (reclaim_nodes ..)
        · exact L.keep (L.keep (hin ht) (reclaim_nodes b _)) (takeRequest_nodes ..)
    · exact L.keep hs (countBad_nodes ..)

theorem dispatch (L : NodeLaw P H) (hs : P s) (k : SlotId) (b : BufId) (f : Frame) : P (Machine.dispatch k b f s) := by
  unfold Machine.dispatch
  split
  · exact L.bootCallAnswer hs ..
  · exact L.restoreAnswer hs ..
  · exact L.restoreAnswer hs ..
  · exact L.restoreAnswer hs ..
  · have hb := L.capture (L.statusAnswer hs k f.payload) .status f (some k)
    unfold upstreamStatus
    split
    · exact hb
    · exact L.keep hb (toTrunk_nodes ..)
    · exact L.keep hb (toTrunk_nodes ..)
  · unfold upstreamData
    split
    · have hc : P (if (lookup .up .data f s).2 then Machine.capture .dataUp f (some k) s else s) := by
        split
        · exact L.capture hs ..
        · exact hs
      simp only
      split
      · exact hc
      · exact L.keep hc (toTrunk_nodes ..)
      · exact L.keep hc (toTrunk_nodes ..)
    · exact L.keep hs (countOrphan_nodes s)
  all_goals exact hs

theorem takeAnswer (L : NodeLaw P H) (hs : P s) (u : Turn) (f : Frame) : P (Machine.takeAnswer u f s) := by
  unfold Machine.takeAnswer
  simp only
  have hb : P (if u.void then s else updSlot u.slot (fun x => { x with miss := 0 }) s) := by
    split
    · exact hs
    · exact L.slot hs _
  have hin := fun {r : Option BufId × State} (h : Machine.takeIn .segment f _ = r) => L.keep hb (h ▸ takeIn_nodes ..)
  split
  next ht => exact hin ht
  next b t ht =>
    refine L.keep ?_ (reclaim_nodes ..)
    split
    · exact hin ht
    · exact L.dispatch (hin ht) ..

theorem segmentJudged (L : NodeLaw P H) (hs : P s) (w : Bool) : P (Machine.segmentJudged w s) := by
  unfold Machine.segmentJudged
  split
  next t _ =>
    have hm : ∀ v, P v → P (if t.void || t.closed then v else Machine.missTurn t.slot v) := by
      intro v hv
      split
      · exact hv
      · exact L.missTurn hv _
    unfold judgeAnswer
    simp only
    split
    · exact hm _ (L.keep hs (countBad_nodes ..))
    · split
      · exact L.takeAnswer hs ..
      · exact hm _ (L.keep hs (countBad_nodes ..))
  · exact L.keep hs (countBad_nodes ..)

theorem windowMissed (L : NodeLaw P H) (hs : P s) : P (Machine.windowMissed s) := by
  unfold Machine.windowMissed
  split
  · split
    · exact hs
    · exact L.missTurn hs _
  · exact hs

theorem txEnded (L : NodeLaw P H) (hs : P s) (tx : SegTx) : P (Machine.txEnded tx s) := by
  cases tx with
  | turn f =>
    show P (turnSent s)
    unfold turnSent
    split <;> exact L.keep hs rfl
  | restore f => exact L.keep hs rfl
  | reboot f k => exact L.keep (L.slot hs k (g := fun x => { x with reboot := none })) (leavePort_nodes _)
  | outbound => exact L.keep (L.keep hs (popOut_nodes s)) (leavePort_nodes _)

theorem sent (L : NodeLaw P H) (hs : P s) (p : Port) (e : TxEntry) : P (Machine.sent p e s) := by
  unfold Machine.sent
  simp only
  split
  · exact L.reset _
  · exact L.keep hs ((countSent_nodes ..).trans (dropRef_nodes ..))

end NodeLaw
end Walk
end Sys2Proof.Machine
end

section
/-! PROOFS. The walk over tables, requests, LINE and choice for the laws of sessions and records, and every step. -/

namespace Sys2Proof.Machine

open Sys2Proof.Safety

theorem ClassEntry.fits_of_decode {b : List Byte} {e : ClassEntry} (h : ClassEntry.decode b = some e) : e.Fits := by
  obtain ⟨⟨-, -, -, -, -, hle, hsum⟩, _, _, _, -, -, -, rfl⟩ := ClassEntry.decode_iff.1 h
  refine ⟨fun f => ?_, hsum⟩
  show (layoutAt b)[f] ≤ 8
  rw [layoutAt_get]
  exact hle f f.2

theorem lineUp_sameNodes (s : State) : SameNodes s (lineUp s) := by
  refine ⟨rfl, rfl, rfl, rfl, rfl, fun k => ?_, rfl, fun _ => rfl, rfl⟩
  show (vmap (fun x : SlotStatus => { x with miss := 0 }) s.slots)[k].core = _
  rw [vmap_get]
  rfl

theorem blockSent_sound {x : Session} (hw : x.inFlight.length < x.window) (hc : x.cursor < x.length) (hx : x.Sound) : x.blockSent.Sound := by
  obtain ⟨-, h2, h3, h4, -⟩ := hx
  have hin : ∀ b ∈ x.inFlight ++ [x.cursor], b ∈ x.inFlight ∨ b = x.cursor := fun b hb =>
    (List.mem_append.1 hb).imp id List.mem_singleton.1
  refine ⟨?_, List.pairwise_append.2 ⟨h2, List.pairwise_singleton .., fun a ha b hb => List.mem_singleton.1 hb ▸ h3 a ha⟩, fun b hb => ?_,
    fun a ha => ⟨Nat.lt_succ_of_lt (h4 a ha).1, fun b hb => ?_⟩, hc⟩
  · show (x.inFlight ++ [x.cursor]).length ≤ x.window
    rw [List.length_append, List.length_singleton]
    exact hw
  · show b < x.cursor + 1
    rcases hin b hb with hb | rfl
    · exact Nat.lt_succ_of_lt (h3 b hb)
    · exact Nat.lt_succ_self _
  · rcases hin b hb with hb | rfl
    · exact (h4 a ha).2 b hb
    · exact (h4 a ha).1

section Walk

variable {P : State → Prop} {H : SlotId → State → Prop} {k : SlotId} {s t : State}

namespace NodeLaw

/-! ## Tables -/

theorem forFree (L : NodeLaw P H) {α : Type} {f : α → State → State} (hf : ∀ s a, P s → P (f a s)) (l : List α) (hs : P s) :
    P (Machine.forFree l f s) := foldl (P := P) (fun s a => hf s a) _ (L.keep hs rfl)

theorem outdate (L : NodeLaw P H) (hs : P s) (tag : Word32) (k : SlotId) : P (Machine.outdate tag k s) := by
  have hb : P (updSlot k (fun x => { x with expTag := some tag, stale := true }) s) := L.slot hs k
  unfold Machine.outdate
  simp only
  split
  · exact hb
  · exact L.keep hb (raise_nodes ..)

theorem setCatEntry (L : NodeLaw P H) (hs : P s) (i : ImageId) (e : CatEntry) : P (Machine.setCatEntry i e s).2 := by
  unfold Machine.setCatEntry
  split
  · exact hs
  · have hw : P { s with tables := { s.tables with cat := s.tables.cat.set i e } } :=
      L.same hs ⟨rfl, rfl, rfl, rfl, rfl, fun _ => rfl, rfl, fun _ => rfl, rfl⟩
    have hd : P (dropImage i (updCat i (fun c => { c with bad := false })
        { s with tables := { s.tables with cat := s.tables.cat.set i e } })) :=
      L.keep (L.same hw (.bad i (g := fun c => { c with bad := false }) (fun _ => rfl) _)) (dropImage_nodes ..)
    simp only
    refine L.restartCheck ?_ i
    split
    · exact L.forFree (fun t k ht => L.outdate ht e.tag k) _ hd
    · exact hd

theorem setSlotEntry (L : NodeLaw P H) (hs : P s) (k : SlotId) (e : SlotEntry) : P (Machine.setSlotEntry k e s).2 := by
  unfold Machine.setSlotEntry
  split
  · exact hs
  · split
    · exact hs
    next hr =>
      have hn := L.reentered e hs (Bool.eq_false_iff.2 hr)
      simp only
      split
      · unfold voidTurn
        split
        · exact L.keep hn (updSeg_nodes ..)
        · exact hn
      · exact hn

theorem writeConfig (L : NodeLaw P H) (hs : P s) (t i : Nat) (b : List Byte) : P (Machine.writeConfig t i b s).2 := by
  have hsame : ∀ {u : State}, SameNodes s u → P u := L.same hs
  unfold Machine.writeConfig
  split
  · split
    · exact L.settled _ hs
    · exact hs
  · split
    next he => exact L.reclassed _ hs (ClassEntry.fits_of_decode he)
    next => exact hs
  · split
    · exact L.setSlotEntry hs ..
    · exact hs
  · split
    · exact L.setCatEntry hs ..
    · exact hs
  · split
    · exact hsame ⟨rfl, rfl, rfl, rfl, rfl, fun _ => rfl, rfl, fun _ => rfl, rfl⟩
    · exact hs
  · split
    · exact hsame ⟨rfl, rfl, rfl, rfl, rfl, fun _ => rfl, rfl, fun _ => rfl, rfl⟩
    · exact hs
  · exact hs

theorem carryOut (L : NodeLaw P H) (hs : P s) (o : Origin) (t i : Nat) (e : List Byte) : P (Machine.carryOut o t i e s) := by
  have hw := L.writeConfig hs t i e
  unfold Machine.carryOut
  split
  next he =>
    rw [he] at hw
    exact L.keep (t := reply o .ok (noteWrite t i _)) hw (reply_nodes ..)
  next he =>
    rw [he] at hw
    exact L.keep hw (reply_nodes ..)

/-! ## Requests -/

theorem engineReset (L : NodeLaw P H) (hs : P s) : P (Machine.engineReset s) := L.keep (L.unslotted hs) (engineReset_nodes s)

theorem workOf (L : NodeLaw P H) (hs : P s) (c : ReqCode) (o : Origin) (a : List Byte) : P (Machine.workOf c o a s) := by
  have hr : ∀ st t, P t → P (reply o st t) := fun st t ht => L.keep ht (reply_nodes ..)
  have hk : ∀ d t, P t → P (replyOk o d t) := fun d t ht => L.keep ht (replyOk_nodes ..)
  have hslot : ∀ f : Origin → SlotId → State → State, (∀ k, P (f o k s)) → P (onSlot f o a s) := by
    intro f hf
    unfold onSlot
    split
    · exact hf _
    · exact hr _ _ hs
  cases c
  case readEntry =>
    show P (doReadEntry o a s)
    unfold doReadEntry
    split
    · exact hk _ _ hs
    · exact hr _ _ hs
  case readLink =>
    show P (doReadLink o a s)
    unfold doReadLink
    split
    · exact hr _ _ hs
    · split
      · exact hk _ _ (L.keep hs (updOrigin_nodes ..))
      · exact hr _ _ hs
  case writeEntry =>
    show P (doWriteEntry o a s)
    unfold doWriteEntry
    split
    · exact hr _ _ hs
    · exact L.carryOut hs ..
  case writeCond =>
    show P (doWriteCond o a s)
    unfold doWriteCond
    split
    · exact hr _ _ hs
    · simp only
      split
      · exact L.carryOut (L.keep hs (updOrigin_nodes ..)) ..
      · exact hr _ _ (L.keep hs (updOrigin_nodes ..))
  case readRange =>
    show P (doReadRange o a s)
    unfold doReadRange
    split
    · exact L.keep hs rfl
    · exact hr _ _ hs
  case setContext =>
    show P (doSetContext o a s)
    unfold doSetContext
    split
    · unfold setContext
      split
      · exact hr _ _ hs
      · split
        · exact hr _ _ hs
        next hn => exact hr _ _ (L.stored hs (not_not.1 fun hl => hn (.inr hl)))
    · exact hr _ _ hs
  case clearContext => exact hslot _ fun k => hr _ _ (L.emptied k hs)
  case permit =>
    show P (doPermit o a s)
    unfold doPermit
    split
    · exact hr _ _ (L.keep hs rfl)
    · exact hr _ _ hs
  case reload =>
    refine hslot _ fun k => ?_
    unfold reload
    split
    iterate 3 exact hr _ _ (L.slot hs k)
    all_goals exact hr _ _ hs
  case clear =>
    refine hslot _ fun k => ?_
    unfold clearSlot
    split
    next hst => exact hr _ _ (L.move hs (st := .absent) (by rw [hst]; rfl) rfl)
    all_goals exact hr _ _ hs
  case clearRetries => exact hslot _ fun k => hr _ _ (L.slot hs k)
  case pin =>
    show P (doPin o a s)
    unfold doPin
    split
    · exact L.keep hs (startPin_nodes ..)
    · exact hr _ _ hs
  case unpin =>
    show P (doUnpin o a s)
    unfold doUnpin
    split
    · exact hr _ _ (L.keep hs (unpin_nodes ..))
    · exact hr _ _ hs
  case prefetch =>
    show P (doPrefetch o a s)
    unfold doPrefetch
    split
    · exact hr _ _ (L.keep hs (prefetch_nodes ..))
    · exact hr _ _ hs
  case invalidate =>
    show P (doInvalidate o a s)
    unfold doInvalidate
    split
    · split
      · exact hr _ _ hs
      · exact hr _ _ (L.keep hs (dropImage_nodes ..))
    · exact hr _ _ hs
  case eraseSector =>
    show P (doEraseSector o a s)
    unfold doEraseSector
    split
    · exact hr _ _ hs
    · split
      · exact hr _ _ hs
      · exact L.keep hs (accept_nodes ..)
  case writeRecord =>
    show P (doWriteRecord o a s)
    unfold doWriteRecord
    simp only
    split
    · exact hr _ _ hs
    · split
      · exact hr _ _ hs
      · exact L.keep hs (accept_nodes ..)
  case readAttn =>
    show P (doReadAttn o a s)
    unfold doReadAttn
    split
    · exact L.keep hs (finalReply_nodes ..)
    next e es he =>
      exact hk _ _ (L.keep hs rfl)
  case clearAttn => exact hr _ _ (L.keep hs rfl)
  case commit => exact L.keep hs (accept_nodes ..)
  case selfCheck => exact L.keep hs (accept_nodes ..)
  case engineReset =>
    show P (doEngineReset o a s)
    unfold doEngineReset
    split
    · exact hr _ _ hs
    · exact hr _ _ (L.engineReset hs)
  case fullReset =>
    show P (doFullReset o a s)
    unfold doFullReset
    split
    · exact hr _ _ hs
    · exact L.keep (L.keep hs rfl) (finalReply_nodes ..)

theorem serveRow (L : NodeLaw P H) (hs : P s) (c : ReqCode) : P (Machine.serveRow c (Machine.workOf c) s) := by
  unfold Machine.serveRow
  split
  · split
    · unfold serve
      refine L.keep ?_ (turnPointer_nodes ..)
      split
      · exact L.keep hs (reply_nodes ..)
      · split
        · exact L.keep hs (reply_nodes ..)
        · exact L.workOf hs ..
    · exact hs
  · exact hs

theorem refuseRequest (L : NodeLaw P H) (hs : P s) : P (Machine.refuseRequest s) := by
  unfold Machine.refuseRequest
  split
  · split
    · exact L.keep hs ((turnPointer_nodes ..).trans (reply_nodes ..))
    · exact hs
  · exact hs

/-! ## LINE -/

theorem lineFell (L : NodeLaw P H) (hs : P s) (hr : s.phase = .running) : P (Machine.lineFell s) := by
  unfold Machine.lineFell
  split
  · exact L.lined _ hs (.inl hr)
  · exact L.lined _ hs (.inl hr)
  · exact hs
  · exact hs

theorem lineRose (L : NodeLaw P H) (hs : P s) (hr : s.phase = .running) : P (Machine.lineRose s) := by
  unfold Machine.lineRose
  split
  · exact L.lined _ hs (.inl hr)
  · exact L.lined _ hs (.inl hr)
  · exact hs
  · exact hs

theorem confirmGap (L : NodeLaw P H) (hs : P s) (hl : s.lm.line = .dip) : P (Machine.confirmGap s) := by
  have hb : P (updLm (fun l => { l with line := .gap, deglitch := none, gaps := satAdd 65535 l.gaps }) s) :=
    L.lined _ hs (.inr (by rw [hl]; decide))
  have hd := L.darkened hb
  unfold Machine.confirmGap silence
  generalize flushGap _ = v at hd ⊢
  refine L.keep hd ?_
  show (closeTurn _).nodes = _
  rw [closeTurn_nodes, updSeg_nodes]

/-! ## Every event -/

/-- Every event keeps the law where the start-up load does. -/
theorem event (L : NodeLaw P H) (hs : P s) (hu : Event s t)
    (hload : ∀ left read, s.phase = .starting → P (startLine { loadTables (readStore (disturb read ((finishCut left s).readRun 0 storeBytes)))
        { s with flash := finishCut left s, cut := none } with phase := .running })) : P t := by
  cases hu with
  | frame l bytes _ => exact L.keep (L.receiveOn (L.keep hs (stage_nodes ..)) l _) (stage_nodes ..)
  | answerBegins _ _ => exact L.keep hs (updSeg_nodes ..)
  | strayBegins _ _ => exact L.keep hs (updSeg_nodes ..)
  | segmentFrame w bytes _ =>
    exact L.keep (L.segmentJudged (L.keep hs (stage_nodes ..)) w) ((leavePort_nodes _).trans (stage_nodes ..))
  | windowExpires _ => exact L.keep (L.windowMissed hs) (leavePort_nodes _)
  | segmentSent tx _ => exact L.txEnded (L.keep hs (countSent_nodes ..)) tx
  | trunkSent e es he => exact L.sent (s := updQueues (fun q => { q with trunk := es }) s) (L.keep hs rfl) ..
  | serviceSent e es he => exact L.sent (s := updQueues (fun q => { q with service := es }) s) (L.keep hs rfl) ..
  | lineFalls hr => exact L.lineFell (s := setLinePin false s) (L.keep hs rfl) hr
  | lineRises hr => exact L.lineRose (s := setLinePin true s) (L.keep hs rfl) hr
  | gap hl => exact L.confirmGap hs hl
  | lineUp hl => exact L.same (L.lined _ hs (.inr (by rw [hl]; decide))) (lineUp_sameNodes _)
  | retry k hk => exact L.same (L.retried hs hk) (.updSlot k (by intro; rfl) s)
  | stalled k hk =>
    refine L.fail hs _ (.inr fun hx => ?_)
    rw [hx] at hk
    cases hk
  | reset => exact L.reset s
  | loaded left read h => exact hload left read h
  | readerStarts _ => exact L.keep hs (startWork_nodes s)
  | fillRead f bs _ => exact L.judgeFill hs f bs
  | erased | programmed | committed =>
    refine L.keep hs ?_
    exact (endLong_nodes ..).trans rfl
  | scanRead live read _ => exact L.scanTaken (s := idleReader s) (L.keep hs (idleReader_nodes s)) ..
  | replyPlaced => exact L.keep hs (placeOne_nodes s)
  | rangeFrame l t a b _ _ => exact L.keep hs (sendRange_nodes ..)
  | pinPlaced => exact L.keep hs (placeWaiting_nodes s)
  | row c => exact L.serveRow hs c
  | noCode => exact L.refuseRequest hs

/-! ## The end of a step -/

theorem grant (L : NodeLaw P H) (hs : P s) (hk : inReady s k = true) : P (Machine.grant k (addDebt s)) := by
  have hd : P (addDebt s) := L.keep hs rfl
  unfold Machine.grant
  split
  next x hx =>
    have hwork : ∀ tx g, (∀ y, s.slots[k].session = some y → (g y).img = y.img ∧ (y.Sound → (g y).Sound)) →
        P (updSession k g (startTx tx (addDebt s))) := fun tx g hg => L.worked (L.keep hd rfl) hg
    split
    next hst =>
      have hx' : s.slots[k].session = some x := hx
      have hst' : s.slots[k].state = .loading := hst
      unfold inReady at hk
      simp only [hx', hst', Bool.and_eq_true, decide_eq_true_eq] at hk
      obtain ⟨⟨hw, hc⟩, -⟩ := hk
      unfold grantBlock
      refine L.keep (L.worked (L.keep (t := hitBlock x.img x.cursor (startTx _ (addDebt s))) hd (hitBlock_nodes ..)) fun y hy => ?_)
        (requestBlocks_nodes ..)
      have hslots : ∀ u, (hitBlock x.img x.cursor u).slots = u.slots := fun u => congrArg (fun n => n.2.2.2.1) (hitBlock_nodes x.img x.cursor u)
      rw [hslots] at hy
      obtain rfl := Option.some.inj (hx'.symm.trans hy)
      exact ⟨rfl, blockSent_sound hw hc⟩
    next => exact hwork _ _ fun _ _ => ⟨rfl, id⟩
    next => exact hwork _ _ fun _ _ => ⟨rfl, id⟩
    all_goals exact hd
  next =>
    unfold grantReboot
    split
    · exact L.keep hd rfl
    · exact hd

theorem choose (L : NodeLaw P H) (hs : P s) : P (Machine.choose s) := by
  unfold Machine.choose
  split
  next k hk =>
    refine L.grant hs ?_
    split at hk
    · exact List.find?_some hk
    · cases hk
  next =>
    split
    · exact L.keep hs rfl
    · unfold chooseTurn
      split
      · exact L.keep hs rfl
      · split
        · exact L.keep hs rfl
        · exact hs

theorem finish (L : NodeLaw P H) (hs : P s) : P (Machine.finish s) := by
  unfold Machine.finish
  split
  · exact L.keep (L.choose hs) rfl
  · exact L.keep hs rfl

end NodeLaw
end Walk
end Sys2Proof.Machine
end

section
/-! PROOFS. The law of sessions and hold queues as a law of nodes: what it says of one slot, with the slot open or closed (O16). -/

namespace Sys2Proof.Machine

open Sys2Proof.Safety

/-! ## One slot -/

/-- What the law of sessions says of one slot, with the buffers it holds. -/
structure SlotStatus.Sound (enabled : Bool) (depth : Nat) (held : List BufId) (x : SlotStatus) : Prop where
  opened : x.session.isSome = true ↔ x.state.restoring = true
  classed : x.state ≠ .vacant ∨ enabled = true → x.cls ≠ none
  timed : x.retryTimer ≠ none → x.state = .backoff
  room : held.length ≤ depth
  holding : held ≠ [] → x.state.restoring = true
  work : ∀ y, x.session = some y → y.Sound

/-- A slot between two states: its session ended, what it holds not yet flushed or released. -/
structure SlotStatus.Open (depth : Nat) (held : List BufId) (x : SlotStatus) : Prop where
  ended : x.session = none
  classed : x.cls ≠ none
  untimed : x.retryTimer = none
  room : held.length ≤ depth

/-- The slot has a session on the image. -/
def SlotStatus.onImage (i : ImageId) (x : SlotStatus) : Bool := x.session.any (fun y => decide (y.img = i))

def State.slotSound (s : State) (k : SlotId) : Prop :=
  s.slots[k].Sound s.tables.slots[k].enabled s.tables.settings.holdDepth s.queues.hold[k]

/-- A catalogue entry's users are its sessions. -/
def State.usersExact (s : State) : Prop :=
  ∀ i : ImageId, s.catSt[i].users = slotIds.countP (fun k => s.slots[k].onImage i)

/-- During the start-up load LINE is in a gap and no session is open. -/
def State.startsIdle (s : State) : Prop := s.phase = .starting → s.lm.line = .gap ∧ ∀ k : SlotId, s.slots[k].session = none

/-- The law with the slot `k` between two states. -/
def RestoreOpen (k : SlotId) (s : State) : Prop :=
  (∀ j : SlotId, j ≠ k → s.slotSound j) ∧ s.slots[k].Open s.tables.settings.holdDepth s.queues.hold[k] ∧ s.usersExact ∧ s.startsIdle

theorem restoreLaw_iff {s : State} : RestoreLaw s ↔ (∀ k, s.slotSound k) ∧ s.usersExact ∧ s.startsIdle := by
  constructor
  · rintro ⟨hslot, hwork, husers, hstart⟩
    refine ⟨fun k => ?_, husers, hstart⟩
    obtain ⟨h1, h2, h3, h4, h5⟩ := hslot k
    exact ⟨h1, h2, h3, h4, h5, hwork k⟩
  · rintro ⟨hslot, husers, hstart⟩
    exact ⟨fun k => ⟨(hslot k).opened, (hslot k).classed, (hslot k).timed, (hslot k).room, (hslot k).holding⟩,
      fun k => (hslot k).work, husers, hstart⟩

/-! ## What no law tells apart -/

theorem core_session {x y : SlotStatus} (h : y.core = x.core) : y.session.map Session.core = x.session.map Session.core :=
  congrArg (fun c => c.2.2.2) h

theorem isSome_of_core {x y : SlotStatus} (h : y.core = x.core) : y.session.isSome = x.session.isSome := by
  have := congrArg Option.isSome (core_session h)
  rwa [Option.isSome_map, Option.isSome_map] at this

theorem onImage_of_core {x y : SlotStatus} (h : y.core = x.core) (i : ImageId) : y.onImage i = x.onImage i := by
  have hm : ∀ z : SlotStatus, z.onImage i = (z.session.map Session.core).any (fun c => decide (c.1 = i)) := fun z => by
    unfold SlotStatus.onImage
    cases z.session <;> rfl
  rw [hm, hm, core_session h]

theorem Session.Sound.of_core {x y : Session} (h : y.core = x.core) (hx : x.Sound) : y.Sound := by
  simp only [Session.core, Prod.mk.injEq] at h
  obtain ⟨-, h1, h2, h3, h4, h5⟩ := h
  unfold Session.Sound
  rw [h1, h2, h3, h4, h5]
  exact hx

theorem SlotStatus.Sound.of_core {e : Bool} {d : Nat} {l : List BufId} {x y : SlotStatus} (h : y.core = x.core) (hx : x.Sound e d l) :
    y.Sound e d l := by
  have hc := h
  simp only [SlotStatus.core, Prod.mk.injEq] at hc
  obtain ⟨h1, h2, h3, h4⟩ := hc
  obtain ⟨o1, o2, o3, o4, o5, o6⟩ := hx
  refine ⟨by rw [isSome_of_core h, h1]; exact o1, by rw [h1, h2]; exact o2, by rw [h1, h3]; exact o3, o4, by rw [h1]; exact o5,
    fun z hz => ?_⟩
  rw [hz] at h4
  cases hxs : x.session with
  | none => rw [hxs] at h4; cases h4
  | some w =>
    rw [hxs] at h4
    exact (o6 w hxs).of_core (Option.some.inj h4)

theorem countP_onImage {s t : State} (i : ImageId) (h : ∀ k : SlotId, t.slots[k].core = s.slots[k].core) :
    slotIds.countP (fun k => t.slots[k].onImage i) = slotIds.countP (fun k => s.slots[k].onImage i) :=
  List.countP_congr fun k _ => by rw [onImage_of_core (h k)]

theorem usersExact_same {s t : State} (h : SameNodes s t) (hs : s.usersExact) : t.usersExact := fun i => by
  rw [h.users, hs i, countP_onImage i h.core]

theorem session_none_of_core {x y : SlotStatus} (h : y.core = x.core) (hx : x.session = none) : y.session = none := by
  have := isSome_of_core h
  rw [hx] at this
  exact Option.isSome_eq_false_iff.1 this |> Option.isNone_iff_eq_none.1

theorem startsIdle_same {s t : State} (h : SameNodes s t) (hs : s.startsIdle) : t.startsIdle := fun hp => by
  obtain ⟨h1, h2⟩ := hs (h.phase ▸ hp)
  exact ⟨h.line.trans h1, fun k => session_none_of_core (h.core k) (h2 k)⟩

theorem slotSound_same {s t : State} (h : SameNodes s t) {k : SlotId} (hs : s.slotSound k) : t.slotSound k := by
  unfold State.slotSound
  rw [h.entries, h.depth, h.hold]
  exact SlotStatus.Sound.of_core (h.core k) hs

theorem restoreLaw_same {s t : State} (hs : RestoreLaw s) (h : SameNodes s t) : RestoreLaw t := by
  obtain ⟨h1, h2, h3⟩ := restoreLaw_iff.1 hs
  exact restoreLaw_iff.2 ⟨fun k => slotSound_same h (h1 k), usersExact_same h h2, startsIdle_same h h3⟩

theorem restoreOpen_same {k : SlotId} {s t : State} (hs : RestoreOpen k s) (h : SameNodes s t) : RestoreOpen k t := by
  obtain ⟨h1, ⟨o1, o2, o3, o4⟩, h2, h3⟩ := hs
  refine ⟨fun j hj => slotSound_same h (h1 j hj), ?_, usersExact_same h h2, startsIdle_same h h3⟩
  have hc := h.core k
  simp only [SlotStatus.core, Prod.mk.injEq] at hc
  obtain ⟨-, hcls, htimer, -⟩ := hc
  refine ⟨session_none_of_core (h.core k) o1, by rw [hcls]; exact o2, by rw [htimer]; exact o3, ?_⟩
  rw [h.depth, h.hold]
  exact o4

/-! ## Opening and closing a slot -/

theorem countP_slot (k : SlotId) (p : SlotId → Bool) :
    slotIds.countP p = slotIds.countP (fun j => p j && decide (j ≠ k)) + if p k = true then 1 else 0 := by
  have hl : ∀ l : List SlotId, l.Nodup → l.countP p = l.countP (fun j => p j && decide (j ≠ k)) + if k ∈ l ∧ p k = true then 1 else 0 := by
    intro l hn
    induction l with
    | nil => simp
    | cons j l ih =>
      obtain ⟨hj, hn⟩ := List.nodup_cons.1 hn
      rw [List.countP_cons, List.countP_cons, ih hn]
      by_cases hjk : j = k
      · subst hjk
        simp [hj]
      · simp only [List.mem_cons, Ne.symm hjk, hjk, false_or, ne_eq, not_false_eq_true, decide_true, Bool.and_true]
        omega
  rw [hl slotIds (List.nodup_finRange 32)]
  simp [mem_slotIds]

/-- The sessions on the image but that of the slot. -/
def othersOn (i : ImageId) (k : SlotId) (s : State) : Nat := slotIds.countP (fun j => s.slots[j].onImage i && decide (j ≠ k))

theorem usersExact_at {s : State} (k : SlotId) :
    s.usersExact ↔ ∀ i : ImageId, s.catSt[i].users = othersOn i k s + if s.slots[k].onImage i = true then 1 else 0 := by
  unfold State.usersExact othersOn
  exact forall_congr' fun i => by rw [countP_slot k]

theorem othersOn_congr {s t : State} {k : SlotId} (h : ∀ j : SlotId, j ≠ k → t.slots[j] = s.slots[j]) (i : ImageId) :
    othersOn i k t = othersOn i k s := by
  refine List.countP_congr fun j _ => ?_
  by_cases hj : j = k
  · simp [hj]
  · rw [h j hj]

theorem onImage_none {x : SlotStatus} (h : x.session = none) (i : ImageId) : x.onImage i = false := by
  unfold SlotStatus.onImage
  rw [h]
  rfl

/-- A change of one slot, its hold queue and the users: what is left to show of that slot. -/
structure SlotChange (k : SlotId) (s t : State) : Prop where
  frame : t.noEvent = s.noEvent
  slots : ∀ j : SlotId, j ≠ k → t.slots[j] = s.slots[j]
  hold : ∀ j : SlotId, j ≠ k → t.queues.hold[j] = s.queues.hold[j]

namespace SlotChange

variable {k : SlotId} {s t : State}

theorem sound (c : SlotChange k s t) {j : SlotId} (hj : j ≠ k) (h : s.slotSound j) : t.slotSound j := by
  obtain ⟨-, -, ht, -⟩ := of_noEvent c.frame
  unfold State.slotSound
  rw [ht, c.slots j hj, c.hold j hj]
  exact h

theorem startsIdle (c : SlotChange k s t) (h : s.startsIdle) (hk : s.phase = .starting → t.slots[k].session = none) : t.startsIdle := by
  obtain ⟨hp, -, -, hl, -⟩ := of_noEvent c.frame
  intro hx
  rw [hp] at hx
  obtain ⟨h1, h2⟩ := h hx
  refine ⟨by rw [hl]; exact h1, fun j => ?_⟩
  by_cases hj : j = k
  · exact hj ▸ hk hx
  · rw [c.slots j hj]
    exact h2 j

/-- The law once the slot has its new state. -/
theorem restoreLaw (c : SlotChange k s t) (h : RestoreOpen k s) (hk : t.slotSound k)
    (hu : ∀ i : ImageId, t.catSt[i].users = s.catSt[i].users + if t.slots[k].onImage i = true then 1 else 0)
    (hp : s.phase = .starting → t.slots[k].session = none) : RestoreLaw t := by
  obtain ⟨h1, ⟨hn, -⟩, h2, h3⟩ := h
  refine restoreLaw_iff.2 ⟨fun j => ?_, (usersExact_at k).2 fun i => ?_, c.startsIdle h3 hp⟩
  · by_cases hj : j = k
    · exact hj ▸ hk
    · exact c.sound hj (h1 j hj)
  · rw [hu, (usersExact_at k).1 h2 i, onImage_none hn, othersOn_congr c.slots]
    rfl

/-- The law where the slot's session stands or stays away. -/
theorem restoreLaw_kept (c : SlotChange k s t) (h : RestoreLaw s) (hk : t.slotSound k) (hu : t.catSt = s.catSt)
    (hi : ∀ i, t.slots[k].onImage i = s.slots[k].onImage i) (hp : s.phase = .starting → t.slots[k].session = none) : RestoreLaw t := by
  obtain ⟨h1, h2, h3⟩ := restoreLaw_iff.1 h
  refine restoreLaw_iff.2 ⟨fun j => ?_, (usersExact_at k).2 fun i => ?_, c.startsIdle h3 hp⟩
  · by_cases hj : j = k
    · exact hj ▸ hk
    · exact c.sound hj (h1 j)
  · rw [hu, (usersExact_at k).1 h2 i, hi, othersOn_congr c.slots]

end SlotChange

theorem updSlot_change (k : SlotId) (g : SlotStatus → SlotStatus) (s : State) : SlotChange k s (updSlot k g s) :=
  ⟨updSlot_noEvent .., fun _ hj => updSlot_other hj .., fun _ _ => rfl⟩

end Sys2Proof.Machine
end

section
/-! PROOFS. The law of sessions and hold queues is a law of nodes: each change of one slot, and the changes of all slots at once (O16). -/

namespace Sys2Proof.Machine

open Sys2Proof.Safety

variable {k : SlotId} {s t : State}

/-! ## The end of a session -/

theorem endSession_change (k : SlotId) (s : State) : SlotChange k s (endSession k s) := by
  refine ⟨endSession_noEvent k s, fun j hj => ?_, fun j _ => ?_⟩
  · rw [endSession_slots, if_neg fun h => hj h.1]
  · rw [(endSession_rest k s).2.2.1]

theorem vacant_of_plain {x : SlotStatus} (h : x.state.plain = true) :
    x.state ≠ .vacant ∧ x.state ≠ .backoff ∧ x.state.restoring ≠ true := by
  cases hx : x.state <;> rw [hx] at h <;> simp_all [SlotState.plain, SlotState.restoring]

theorem vacant_of_restoring {x : SlotStatus} (h : x.state.restoring = true) : x.state ≠ .vacant ∧ x.state ≠ .backoff := by
  cases hx : x.state <;> rw [hx] at h <;> simp_all [SlotState.restoring]

theorem SlotStatus.Sound.session_none {e : Bool} {d : Nat} {l : List BufId} {x : SlotStatus} (h : x.Sound e d l)
    (hr : x.state.restoring ≠ true) : x.session = none :=
  Option.not_isSome_iff_eq_none.1 fun hx => hr (h.opened.1 hx)

theorem SlotStatus.Sound.hold_nil {e : Bool} {d : Nat} {l : List BufId} {x : SlotStatus} (h : x.Sound e d l)
    (hr : x.state.restoring ≠ true) : l = [] := by
  by_contra hl
  exact hr (h.holding hl)

theorem SlotStatus.Sound.untimed {e : Bool} {d : Nat} {l : List BufId} {x : SlotStatus} (h : x.Sound e d l)
    (hb : x.state ≠ .backoff) : x.retryTimer = none := by
  by_contra ht
  exact hb (h.timed ht)

theorem restore_ended (hs : RestoreLaw s) (h : s.slots[k].state.restoring = true ∨ s.slots[k].session ≠ none) :
    RestoreOpen k (endSession k s) := by
  obtain ⟨h1, h2, h3⟩ := restoreLaw_iff.1 hs
  have hk := h1 k
  have hsome : s.slots[k].session.isSome = true := h.elim hk.opened.2 Option.isSome_iff_ne_none.2
  obtain ⟨hv, hb⟩ := vacant_of_restoring (hk.opened.1 hsome)
  have hc := endSession_change k s
  have hx : (endSession k s).slots[k] = { s.slots[k] with session := none, catInUse := none } := by
    rw [endSession_slots, if_pos ⟨rfl, hsome⟩]
  refine ⟨fun j hj => hc.sound hj (h1 j), ?_, (usersExact_at k).2 fun i => ?_, hc.startsIdle h3 fun _ => by rw [hx]⟩
  · rw [hx, (endSession_frame k s).1, (endSession_rest k s).2.2.1]
    exact ⟨rfl, hk.classed (.inl hv), hk.untimed hb, hk.room⟩
  · rw [endSession_catSt, othersOn_congr hc.slots, onImage_none (by rw [hx])]
    show s.catSt[i].users - (if s.slots[k].onImage i = true then 1 else 0) = _
    rw [(usersExact_at k).1 h2 i]
    exact Nat.add_sub_cancel ..

theorem restore_closed (hs : RestoreLaw s) (h : s.slots[k].state.plain = true) : RestoreOpen k s := by
  obtain ⟨h1, h2, h3⟩ := restoreLaw_iff.1 hs
  obtain ⟨hv, hb, hr⟩ := vacant_of_plain h
  have hk := h1 k
  exact ⟨fun j _ => h1 j, ⟨hk.session_none hr, hk.classed (.inl hv), hk.untimed hb, hk.room⟩, h2, h3⟩

/-! ## Failure and success -/

/-- A slot at rest, in a state that no session goes with. -/
theorem atRest_sound {b : Bool} {d : Nat} {x : SlotStatus} (hs : x.session = none) (hr : x.state.restoring = false)
    (hc : x.state ≠ .vacant ∨ b = true → x.cls ≠ none) (ht : x.retryTimer = none) : x.Sound b d [] :=
  ⟨by simp [hs, hr], hc, fun h => absurd ht h, Nat.zero_le _, fun h => absurd rfl h, by simp [hs]⟩

theorem failSlot_change (k : SlotId) (c : Cause) (s : State) : SlotChange k s (failSlot k c s) := by
  refine ⟨failSlot_noEvent .., fun j hj => failSlot_other hj c s, fun j hj => ?_⟩
  have hq : (failSlot k c s).queues = (flushHold k (endSession k s)).queues := by rw [failSlot_only]
  rw [hq, flushHold_hold, set_other _ hj, (endSession_rest k s).2.2.1]

theorem failSlot_hold (k : SlotId) (c : Cause) (s : State) : (failSlot k c s).queues.hold[k] = [] := by
  have hq : (failSlot k c s).queues = (flushHold k (endSession k s)).queues := by rw [failSlot_only]
  rw [hq, flushHold_hold, set_same]

theorem failSlot_slot {c : ClassId} (h : s.slots[k].cls = some c) (cause : Cause) : (failSlot k cause s).slots[k] =
    policySlot s.tables.classes[c] { s.slots[k] with session := none, lastCause := some cause, catInUse := none } := by
  rw [failSlot_policy h, applyPolicy_slot, failBase_slot]

/-- The policy leaves a slot without session in service, in a retry or at rest. -/
theorem policySlot_sound {e : ClassEntry} {b : Bool} {d : Nat} {x : SlotStatus} (hs : x.session = none) (hc : x.cls ≠ none)
    (ht : x.retryTimer = none) : (policySlot e x).Sound b d [] := by
  unfold policySlot
  split
  · split
    · exact ⟨by simp [hs, SlotState.restoring], fun _ => hc, fun _ => rfl, Nat.zero_le _, fun h => absurd rfl h, by simp [hs]⟩
    · exact atRest_sound hs rfl (fun _ => hc) ht
  all_goals exact atRest_sound hs rfl (fun _ => hc) ht

theorem restore_failed (c : Cause) (hs : RestoreOpen k s) : RestoreLaw (failSlot k c s) := by
  have ⟨_, ⟨hn, hcls, ht, _⟩, _, _⟩ := hs
  obtain ⟨c', hc'⟩ := Option.ne_none_iff_exists'.1 hcls
  have hk := failSlot_slot hc' c
  have hend : (failSlot k c s).slots[k].session = none := failSlot_session k c s
  refine (failSlot_change k c s).restoreLaw hs ?_ (fun i => ?_) fun _ => hend
  · unfold State.slotSound
    rw [failSlot_hold, hk]
    exact policySlot_sound rfl hcls ht
  · rw [onImage_none hend, (failSlot_frame k c s).2.2.2.1, endSession_none hn]
    rfl

theorem succeed_open (h : s.slots[k].session = none) : ∃ g : SlotStatus → SlotStatus, (succeed k s) = releaseHold k (updSlot k g s) ∧
    ∀ x, (g x).core = (SlotState.running, x.cls, x.retryTimer, x.session.map Session.core) := by
  refine ⟨fun x => { x with
    state := .running, retry := 0, coldNext := false, reloadExpected := false, stale := false, reboot := none, catInUse := none },
    ?_, fun x => rfl⟩
  unfold succeed
  rw [endSession_none h]

theorem restore_succeeded (hs : RestoreOpen k s) : RestoreLaw (succeed k s) := by
  have ⟨_, ⟨hn, hcls, ht, _⟩, _, _⟩ := hs
  have hlinks := fun u => of_noLinks (releaseHold_noLinks k u)
  have hhold : ∀ u, (releaseHold k u).queues.hold = u.queues.hold.set k [] := fun u => by
    rw [releaseHold_spec, (refuseAll_queues ..).1]
  obtain ⟨g, hg, hcore⟩ := succeed_open hn
  rw [hg]
  obtain ⟨-, -, htab, hslots, -, hcat, -⟩ := hlinks (updSlot k g s)
  have hk : (releaseHold k (updSlot k g s)).slots[k] = g s.slots[k] := by rw [hslots, updSlot_same]
  have hgc := hcore s.slots[k]
  simp only [SlotStatus.core, Prod.mk.injEq] at hgc
  obtain ⟨hst, hgcls, hgt, hgs⟩ := hgc
  have hgn : (g s.slots[k]).session = none := by rw [hn] at hgs; exact Option.map_eq_none_iff.1 hgs
  have hc : SlotChange k s (releaseHold k (updSlot k g s)) := by
    refine ⟨(releaseHold_noEvent ..).trans (updSlot_noEvent ..), fun j hj => ?_, fun j hj => ?_⟩
    · rw [hslots, updSlot_other hj]
    · rw [hhold, set_other _ hj]
      rfl
  refine hc.restoreLaw hs ?_ (fun i => ?_) fun _ => by rw [hk, hgn]
  · unfold State.slotSound
    rw [hk, hhold, set_same]
    exact atRest_sound hgn (by rw [hst]; rfl) (fun _ => by rw [hgcls]; exact hcls) (hgt.trans ht)
  · rw [hk, onImage_none hgn, hcat]
    rfl

/-! ## A session opened, worked on and staged -/

theorem newSession_sound (i : ImageId) (w : Bool) (s : State) : (newSession i w s).Sound :=
  ⟨Nat.zero_le _, .nil, fun _ h => absurd h List.not_mem_nil, fun _ h => (nomatch h), Nat.zero_le _⟩

theorem vmod_users (i j : ImageId) (s : State) : (updCat i (fun c => { c with users := c.users + 1 }) s).catSt[j].users =
    s.catSt[j].users + if i = j then 1 else 0 := by
  show (vmod s.catSt i _)[j].users = _
  by_cases h : j = i
  · subst h
    rw [vmod_same, if_pos rfl]
  · rw [vmod_other _ h, if_neg (Ne.symm h)]
    rfl

theorem restore_opened (i : ImageId) (w : Bool) (hs : RestoreOpen k s) (hl : s.lm.line.good = true) : RestoreLaw (openSession k i w s) := by
  have hs' := hs
  obtain ⟨-, ⟨hn, hcls, ht, hroom⟩, -, hstart⟩ := hs'
  have hrun : s.phase ≠ .starting := fun hp => by
    rw [(hstart hp).1] at hl
    cases hl
  refine restoreLaw_same ?_ (.of_nodes (requestBlocks_nodes ..))
  generalize hg : (fun x : SlotStatus => { x with
    state := if w then SlotState.starting else .loading, catInUse := some i, session := some (newSession i w s) }) = g
  have hk : (updCat i (fun c => { c with users := c.users + 1 }) (updSlot k g s)).slots[k] = g s.slots[k] := updSlot_same ..
  have hc : SlotChange k s (updCat i (fun c => { c with users := c.users + 1 }) (updSlot k g s)) :=
    ⟨rfl, fun j hj => updSlot_other hj g s, fun _ _ => rfl⟩
  refine hc.restoreLaw hs ?_ (fun j => ?_) fun hp => absurd hp hrun
  · unfold State.slotSound
    rw [hk, ← hg]
    refine ⟨?_, fun _ => hcls, fun h => absurd ht h, hroom, fun _ => ?_, fun y hy => ?_⟩
    · cases w <;> simp [SlotState.restoring]
    · cases w <;> rfl
    · obtain rfl := Option.some.inj hy
      exact newSession_sound ..
  · rw [hk, vmod_users, ← hg]
    simp [SlotStatus.onImage, newSession]

theorem updSession_change (k : SlotId) (g : Session → Session) (s : State) : SlotChange k s (updSession k g s) := updSlot_change ..

theorem restore_worked {g : Session → Session} (hs : RestoreLaw s)
    (hg : ∀ x, s.slots[k].session = some x → (g x).img = x.img ∧ (x.Sound → (g x).Sound)) : RestoreLaw (updSession k g s) := by
  obtain ⟨h1, -, h3⟩ := restoreLaw_iff.1 hs
  obtain ⟨o1, o2, o3, o4, o5, o6⟩ := h1 k
  have hk : (updSession k g s).slots[k] = { s.slots[k] with session := s.slots[k].session.map g } := updSlot_same ..
  refine (updSession_change k g s).restoreLaw_kept hs ?_ rfl (fun i => ?_) fun hp => by rw [hk, (h3 hp).2 k]; rfl
  · unfold State.slotSound
    rw [hk]
    refine ⟨by rw [Option.isSome_map]; exact o1, o2, o3, o4, o5, fun y hy => ?_⟩
    obtain ⟨x, hx, rfl⟩ := Option.map_eq_some_iff.1 hy
    exact (hg x hx).2 (o6 x hx)
  · rw [hk]
    unfold SlotStatus.onImage
    cases hx : s.slots[k].session with
    | none => rfl
    | some x => simp [(hg x hx).1]

theorem restore_staged {st : SlotState} (hs : RestoreLaw s) (hx : s.slots[k].session ≠ none) (hst : st.restoring = true) :
    RestoreLaw (updSlot k (fun x => { x with state := st }) s) := by
  obtain ⟨h1, -, h3⟩ := restoreLaw_iff.1 hs
  have hk := h1 k
  have hsome := Option.isSome_iff_ne_none.2 hx
  obtain ⟨hv, hb⟩ := vacant_of_restoring (hk.opened.1 hsome)
  have hu : (updSlot k (fun x => { x with state := st }) s).slots[k] = { s.slots[k] with state := st } := updSlot_same ..
  refine (updSlot_change ..).restoreLaw_kept hs ?_ rfl (fun i => by rw [hu]; rfl) fun hp => absurd ((h3 hp).2 k) hx
  unfold State.slotSound
  rw [hu]
  exact ⟨⟨fun _ => hst, fun _ => hsome⟩, fun _ => hk.classed (.inl hv), fun ht => absurd (hk.untimed hb) ht, hk.room, fun _ => hst, hk.work⟩

/-! ## Classes, moves and retries -/

theorem setClass_change (k : SlotId) (c : ClassId) (s : State) : SlotChange k s (setClass k c s) := by
  refine ⟨setClass_noEvent .., fun j hj => ?_, fun j _ => ?_⟩
  · unfold setClass
    split
    · rfl
    · exact updSlot_other hj ..
  · unfold setClass
    split <;> rfl

/-- A slot's class, once set, is there; what else the laws read stands. -/
theorem setClass_slot (k : SlotId) (c : ClassId) (s : State) : (setClass k c s).slots[k].core =
    (s.slots[k].state, some c, s.slots[k].retryTimer, s.slots[k].session.map Session.core) := by
  unfold setClass
  split
  next h => exact congrArg (fun x => (s.slots[k].state, x, s.slots[k].retryTimer, s.slots[k].session.map Session.core)) h
  next =>
    show (updSlot k _ s).slots[k].core = _
    rw [updSlot_same]
    rfl

theorem setClass_rest (k : SlotId) (c : ClassId) (s : State) :
    (setClass k c s).queues = s.queues ∧ (setClass k c s).catSt = s.catSt ∧ (setClass k c s).tables = s.tables := by
  unfold setClass
  split <;> exact ⟨rfl, rfl, rfl⟩

theorem restore_classed (k : SlotId) (c : ClassId) (hs : RestoreLaw s) : RestoreLaw (setClass k c s) := by
  obtain ⟨h1, -, h3⟩ := restoreLaw_iff.1 hs
  obtain ⟨o1, -, o3, o4, o5, o6⟩ := h1 k
  obtain ⟨hq, hcat, ht⟩ := setClass_rest k c s
  have hcore : (setClass k c s).slots[k].core = ({ s.slots[k] with cls := some c } : SlotStatus).core := setClass_slot k c s
  refine (setClass_change k c s).restoreLaw_kept hs ?_ hcat (fun i => onImage_of_core hcore i)
    fun hp => session_none_of_core hcore ((h3 hp).2 k)
  unfold State.slotSound
  rw [hq, ht]
  exact SlotStatus.Sound.of_core hcore ⟨o1, fun _ => by simp, o3, o4, o5, o6⟩

theorem restore_classedOpen (c : ClassId) (hs : RestoreOpen k s) : RestoreOpen k (setClass k c s) := by
  obtain ⟨h1, ⟨o1, -, o3, o4⟩, h2, h3⟩ := hs
  obtain ⟨hq, hcat, ht⟩ := setClass_rest k c s
  have hcore : (setClass k c s).slots[k].core = ({ s.slots[k] with cls := some c } : SlotStatus).core := setClass_slot k c s
  have hc := setClass_change k c s
  have hn : (setClass k c s).slots[k].session = none := session_none_of_core hcore o1
  refine ⟨fun j hj => hc.sound hj (h1 j hj), ?_, (usersExact_at k).2 fun i => ?_, hc.startsIdle h3 fun _ => hn⟩
  · have hx := hcore
    simp only [SlotStatus.core, Prod.mk.injEq] at hx
    obtain ⟨-, hcls, htimer, -⟩ := hx
    exact ⟨hn, by rw [hcls]; simp, by rw [htimer]; exact o3, by rw [hq, ht]; exact o4⟩
  · rw [hcat, othersOn_congr hc.slots, onImage_of_core hcore]
    exact (usersExact_at k).1 h2 i

theorem restore_moved {st : SlotState} (hs : RestoreLaw s) (hf : s.slots[k].state.plain = true) (ht : st.plain = true) :
    RestoreLaw (updSlot k (fun x => { x with state := st }) s) := by
  obtain ⟨h1, -, -⟩ := restoreLaw_iff.1 hs
  obtain ⟨hv, hb, hr⟩ := vacant_of_plain hf
  have hk := h1 k
  have hu : (updSlot k (fun x => { x with state := st }) s).slots[k] = { s.slots[k] with state := st } := updSlot_same ..
  refine (updSlot_change ..).restoreLaw_kept hs ?_ rfl (fun i => by rw [hu]; rfl) fun _ => by rw [hu]; exact hk.session_none hr
  unfold State.slotSound
  rw [hu, show (updSlot k _ s).queues.hold[k] = [] from hk.hold_nil hr]
  obtain ⟨-, -, hst⟩ := vacant_of_plain (x := { s.slots[k] with state := st }) ht
  exact atRest_sound (hk.session_none hr) (Bool.eq_false_iff.2 hst) (fun _ => hk.classed (.inl hv)) (hk.untimed hb)

theorem restore_retried (hs : RestoreLaw s) (h : s.slots[k].retryTimer.isSome = true) :
    RestoreLaw (updSlot k (fun x => { x with state := .absent, retryTimer := none }) s) := by
  obtain ⟨h1, -, -⟩ := restoreLaw_iff.1 hs
  have hk := h1 k
  have hb := hk.timed (Option.isSome_iff_ne_none.1 h)
  have hr : s.slots[k].state.restoring ≠ true := by rw [hb]; decide
  have hu : (updSlot k (fun x => { x with state := .absent, retryTimer := none }) s).slots[k] =
      { s.slots[k] with state := .absent, retryTimer := none } := updSlot_same ..
  refine (updSlot_change ..).restoreLaw_kept hs ?_ rfl (fun i => by rw [hu]; rfl) fun _ => by rw [hu]; exact hk.session_none hr
  unfold State.slotSound
  rw [hu, show (updSlot k _ s).queues.hold[k] = [] from hk.hold_nil hr]
  exact atRest_sound (hk.session_none hr) rfl (fun _ => hk.classed (.inl (by rw [hb]; decide))) rfl

/-! ## Hold queues -/

theorem restore_held (b : BufId) (hs : RestoreLaw s) (hr : s.slots[k].state.restoring = true) (hroom : holdRoom k s = true) :
    RestoreLaw (pushHold k b s) := by
  obtain ⟨h1, -, h3⟩ := restoreLaw_iff.1 hs
  obtain ⟨o1, o2, o3, -, -, o6⟩ := h1 k
  have hh : (pushHold k b s).queues.hold[k] = s.queues.hold[k] ++ [b] := vmod_same ..
  refine SlotChange.restoreLaw_kept (k := k) ⟨pushHold_noEvent .., fun _ _ => rfl, fun j hj => vmod_other _ hj _⟩ hs ?_ rfl (fun _ => rfl)
    fun hp => (h3 hp).2 k
  unfold State.slotSound
  rw [hh]
  refine ⟨o1, o2, o3, ?_, fun _ => hr, o6⟩
  rw [List.length_append, List.length_singleton]
  exact of_decide_eq_true hroom

end Sys2Proof.Machine
end

section
/-! PROOFS. The law of sessions and hold queues where all slots change at once, and with that at every step (O16). -/

namespace Sys2Proof.Machine

open Sys2Proof.Safety

variable {k : SlotId} {s t : State}

/-! ## A confirmed gap -/

theorem restoring_of_onImage (hs : RestoreLaw s) {i : ImageId} (h : s.slots[k].onImage i = true) : goneIn slotIds s k = true := by
  obtain ⟨h1, -, -⟩ := restoreLaw_iff.1 hs
  have hsome : s.slots[k].session.isSome = true := by
    unfold SlotStatus.onImage at h
    obtain ⟨y, hy, -⟩ := (Option.any_eq_true ..).1 h
    rw [hy]
    rfl
  have hr := (h1 k).opened.1 hsome
  have hst : s.slots[k].state ≠ .vacant ∧ s.slots[k].state ≠ .failed := by
    cases hx : s.slots[k].state <;> rw [hx] at hr <;> simp_all [SlotState.restoring]
  unfold goneIn
  rw [hsome, decide_eq_true hst]
  simp [mem_slotIds]

theorem darkened_slot (hs : RestoreLaw s) (k : SlotId) (d : Nat) :
    (darkenAll s).slots[k].session = none ∧ (darkenAll s).slots[k].Sound s.tables.slots[k].enabled d [] := by
  obtain ⟨h1, -, -⟩ := restoreLaw_iff.1 hs
  have hk := h1 k
  rw [(darkenAll_dimmed s).slot k]
  split
  next h =>
    obtain ⟨-, hv, -⟩ := h
    exact ⟨rfl, atRest_sound rfl rfl (fun _ => hk.classed (.inl hv)) rfl⟩
  next h =>
    have hst : s.slots[k].state = .vacant ∨ s.slots[k].state = .failed := by
      by_contra hn
      exact h ⟨mem_slotIds k, not_or.1 hn⟩
    have hr : s.slots[k].state.restoring = false := by rcases hst with h | h <;> rw [h] <;> rfl
    have hback : s.slots[k].state ≠ .backoff := by rcases hst with h | h <;> rw [h] <;> decide
    have hn := hk.session_none (Bool.eq_false_iff.1 hr)
    exact ⟨hn, atRest_sound hn hr hk.classed (hk.untimed hback)⟩

theorem darkened_users (hs : RestoreLaw s) (i : ImageId) : (darkenAll s).catSt[i].users = 0 := by
  obtain ⟨-, h2, -⟩ := restoreLaw_iff.1 hs
  rw [(darkenAll_dimmed s).users i]
  show s.catSt[i].users - _ = 0
  rw [h2 i, List.countP_congr (q := fun k => goneIn slotIds s k && s.slots[k].onImage i) fun k _ => ?_]
  · exact Nat.sub_self _
  · rw [Bool.and_eq_true]
    exact ⟨fun h => ⟨restoring_of_onImage hs h, h⟩, And.right⟩

theorem flushGap_rest (s : State) : (flushGap s).slots = s.slots ∧ (flushGap s).catSt = s.catSt ∧
    (flushGap s).queues.hold = Vector.replicate 32 [] ∧ (flushGap s).ctx = s.ctx := by
  obtain ⟨-, -, -, h1, h3, h2, -⟩ := of_noLinks (refuseAll_noLinks .notReady (freeMerge ((s.queues.hold.toList ++ [outFlushed s]).map
    List.length).sum s.freeTick (s.queues.hold.toList ++ [outFlushed s])).1 { s with
      freeTick := (freeMerge ((s.queues.hold.toList ++ [outFlushed s]).map List.length).sum s.freeTick
        (s.queues.hold.toList ++ [outFlushed s])).2
      queues := { s.queues with hold := Vector.replicate 32 [], out := outKept s } })
  exact ⟨h1, h2, (refuseAll_queues ..).1, h3⟩

/-- With every slot at rest the law needs no users and nothing held. -/
theorem restoreLaw_atRest (hk : ∀ k : SlotId, t.slots[k].Sound t.tables.slots[k].enabled t.tables.settings.holdDepth [])
    (hh : ∀ k : SlotId, t.queues.hold[k] = []) (hu : ∀ i : ImageId, t.catSt[i].users = 0) (hn : ∀ k : SlotId, t.slots[k].session = none)
    (hp : t.phase = .starting → t.lm.line = .gap) : RestoreLaw t := by
  refine restoreLaw_iff.2 ⟨fun k => ?_, fun i => ?_, fun h => ⟨hp h, hn⟩⟩
  · unfold State.slotSound
    rw [hh k]
    exact hk k
  · rw [hu i]
    exact (List.countP_eq_zero.2 fun k _ => Bool.eq_false_iff.1 (onImage_none (hn k) i)).symm

theorem restore_darkened (hs : RestoreLaw s) : RestoreLaw (flushGap (darkenAll s)) := by
  obtain ⟨h1, h2, h3, -⟩ := flushGap_rest (darkenAll s)
  obtain ⟨hp, -, ht, hl, -⟩ := of_noEvent ((flushGap_noEvent _).trans (darkenAll_noEvent s))
  have hslot : ∀ k : SlotId, (flushGap (darkenAll s)).slots[k].Sound (flushGap (darkenAll s)).tables.slots[k].enabled
      (flushGap (darkenAll s)).tables.settings.holdDepth [] := fun k => by
    rw [h1, ht]
    exact (darkened_slot hs k _).2
  refine restoreLaw_atRest hslot (fun k => ?_) (fun i => ?_) (fun k => ?_) fun h => ?_
  · rw [h3]
    simp
  · rw [h2]
    exact darkened_users hs i
  · rw [h1]
    exact (darkened_slot hs k 0).1
  · rw [hl]
    exact ((restoreLaw_iff.1 hs).2.2 (hp ▸ h)).1

/-! ## LINE, records and tables -/

theorem restore_lined (g : LineMon → LineMon) (hs : RestoreLaw s) (h : s.phase = .running ∨ s.lm.line ≠ .gap) :
    RestoreLaw (updLm g s) := by
  obtain ⟨h1, h2, h3⟩ := restoreLaw_iff.1 hs
  refine restoreLaw_iff.2 ⟨h1, h2, fun hp => ?_⟩
  have hp' : s.phase = .starting := hp
  rcases h with h | h
  · rw [hp'] at h
    cases h
  · exact absurd (h3 hp').1 h

/-- What a trim of hold queues leaves. -/
def State.trimmed (s : State) := ((fun k : SlotId => s.slots[k].core), s.catSt, s.ctx)

theorem trimEntry_trimmed (k : SlotId) (b : BufId) (s : State) : (trimEntry k b s).trimmed = s.trimmed := by
  have hl : ∀ {u v : State}, v.noLinks = u.noLinks → v.trimmed = u.trimmed := fun h => by
    obtain ⟨-, -, -, h1, h3, h2, -⟩ := of_noLinks h
    simp only [State.trimmed, h1, h2, h3]
  unfold trimEntry
  split
  · split
    · exact hl (refuseEntry_noLinks ..)
    · refine (hl (dropRef_noLinks ..)).trans ?_
      exact congrArg (fun c => (c, s.catSt, s.ctx)) (funext fun j => (SameNodes.slot k (by intro; rfl) s).core j)
  · exact hl (dropRef_noLinks ..)

theorem setSettings_trimmed (e : Settings) (s : State) : (setSettings e s).trimmed = s.trimmed ∧
    (setSettings e s).noEvent = { s with tables := { s.tables with settings := e } }.noEvent := by
  have h1 : ∀ (u : State) k, (trimHold e.holdDepth k u).trimmed = u.trimmed := fun u k =>
    foldl_keeps State.trimmed (fun s b => trimEntry k b s) (fun s b => trimEntry_trimmed k b s) _ _
  have h2 : ∀ (u : State) k, (trimHold e.holdDepth k u).noEvent = u.noEvent := fun u k => trimHold_noEvent ..
  exact ⟨foldl_keeps State.trimmed (fun s k => trimHold e.holdDepth k s) h1 _ _,
    foldl_keeps State.noEvent (fun s k => trimHold e.holdDepth k s) h2 _ _⟩

theorem restore_settled (e : Settings) (hs : RestoreLaw s) : RestoreLaw (setSettings e s) := by
  obtain ⟨h1, h2, h3⟩ := restoreLaw_iff.1 hs
  obtain ⟨hk, hn⟩ := setSettings_trimmed e s
  obtain ⟨hp, -, ht, hl, -⟩ := of_noEvent hn
  simp only [State.trimmed, Prod.mk.injEq] at hk
  obtain ⟨hcore, hcat, -⟩ := hk
  have hcore : ∀ k : SlotId, (setSettings e s).slots[k].core = s.slots[k].core := congrFun hcore
  have hp : (setSettings e s).phase = s.phase := hp
  have hl : (setSettings e s).lm = s.lm := hl
  have ht : (setSettings e s).tables = { s.tables with settings := e } := ht
  refine restoreLaw_iff.2 ⟨fun k => ?_, fun i => ?_, fun h => ?_⟩
  · have ho := h1 k
    unfold State.slotSound
    rw [ht, (setSettings_queues e s).1 k]
    refine SlotStatus.Sound.of_core (hcore k) ⟨ho.opened, ho.classed, ho.timed, List.length_take_le .., fun hne => ho.holding fun hx => ?_,
      ho.work⟩
    rw [hx] at hne
    exact hne List.take_nil
  · rw [hcat, countP_onImage i hcore]
    exact h2 i
  · obtain ⟨ha, hb⟩ := h3 (hp ▸ h)
    exact ⟨hl ▸ ha, fun k => session_none_of_core (hcore k) (hb k)⟩

theorem restore_reclassed (c : ClassId) (e : ClassEntry) (hs : RestoreLaw s) : RestoreLaw (setClassEntry c e s).2 := by
  by_cases h : ∃ k : SlotId, s.slots[k].cls = some c ∧ s.slots[k].state.restoring = true
  · rw [setClassEntry_inUse h]
    exact hs
  · obtain ⟨t, ht, he, hk⟩ := setClassEntry_ok (c := c) (e := e) (s := s) fun k hc => Bool.eq_false_iff.2 fun hr => h ⟨k, hc, hr⟩
    rw [ht]
    show RestoreLaw t
    have hcore : ∀ k : SlotId, t.slots[k].core = s.slots[k].core := fun k => by
      rw [(hk k).1]
      split <;> rfl
    rw [he]
    exact restoreLaw_same (t := { s with slots := t.slots }) hs ⟨rfl, rfl, rfl, rfl, rfl, hcore, rfl, fun _ => rfl, rfl⟩

/-- A slot out of restore, in its new state and with its new entry. -/
theorem restore_entry (e : SlotEntry) (x : SlotStatus) (c : Vector CtxRecord 32) (hs : RestoreLaw s) (hr : isRestoring s k = false)
    (hn : x.session = none) (hx : x.state.restoring = false) (hc : x.state ≠ .vacant ∨ e.enabled = true → x.cls ≠ none)
    (ht : x.retryTimer ≠ none → x.state = .backoff) :
    RestoreLaw { s with tables := { s.tables with slots := s.tables.slots.set k e }, slots := s.slots.set k x, ctx := c } := by
  obtain ⟨h1, h2, h3⟩ := restoreLaw_iff.1 hs
  have hold := (h1 k).hold_nil (Bool.eq_false_iff.1 hr)
  have hnone := (h1 k).session_none (Bool.eq_false_iff.1 hr)
  refine restoreLaw_iff.2 ⟨fun j => ?_, fun i => ?_, fun hp => ⟨(h3 hp).1, fun j => ?_⟩⟩
  · by_cases hj : j = k
    · subst hj
      show (s.slots.set j x)[j].Sound (s.tables.slots.set j e)[j].enabled s.tables.settings.holdDepth s.queues.hold[j]
      rw [set_same, set_same, hold]
      exact ⟨by simp [hn, hx], hc, ht, Nat.zero_le _, fun h => absurd rfl h, by simp [hn]⟩
    · show (s.slots.set k x)[j].Sound (s.tables.slots.set k e)[j].enabled s.tables.settings.holdDepth s.queues.hold[j]
      rw [set_other _ hj, set_other _ hj]
      exact h1 j
  · refine (h2 i).trans (List.countP_congr fun j _ => ?_)
    show _ ↔ (s.slots.set k x)[j].onImage i = true
    by_cases hj : j = k
    · subst hj
      rw [set_same, onImage_none hn, onImage_none hnone]
    · rw [set_other _ hj]
  · show (s.slots.set k x)[j].session = none
    by_cases hj : j = k
    · subst hj
      rw [set_same]
      exact hn
    · rw [set_other _ hj]
      exact (h3 hp).2 j

theorem set_self (v : Vector SlotStatus 32) (k : SlotId) : v.set k v[k] = v := Vector.set_getElem_self k.2

theorem restore_reentered (e : SlotEntry) (hs : RestoreLaw s) (hr : isRestoring s k = false) : RestoreLaw
    (slotEffects k s.tables.slots[k] e { s with tables := { s.tables with slots := s.tables.slots.set k e } }) := by
  obtain ⟨h1, -, -⟩ := restoreLaw_iff.1 hs
  have hk := h1 k
  have hn := hk.session_none (Bool.eq_false_iff.1 hr)
  have hkeep : (s.slots[k].state ≠ .vacant ∨ e.enabled = true → s.slots[k].cls ≠ none) →
      RestoreLaw { s with tables := { s.tables with slots := s.tables.slots.set k e } } := fun hc => by
    have := restore_entry e s.slots[k] s.ctx hs hr hn hr hc hk.timed
    rwa [set_self] at this
  cases he : e.enabled with
  | false =>
    cases ho : s.tables.slots[k].enabled with
    | false =>
      rw [slotEffects_none he ho]
      refine hkeep fun h => hk.classed (h.imp id fun h => ?_)
      rw [he] at h
      cases h
    | true =>
      rw [slotEffects_retired he ho]
      exact restore_entry e _ _ hs hr rfl rfl (fun h => h.elim (absurd rfl) fun h => by rw [he] at h; cases h) (absurd rfl)
  | true =>
    by_cases hf : s.tables.slots[k].enabled = false ∨ s.tables.slots[k].addr ≠ e.addr
    · rw [slotEffects_fresh he hf]
      exact restore_entry e _ _ hs hr rfl rfl (fun _ => by simp) (absurd rfl)
    · obtain ⟨ho, ha⟩ := not_or.1 hf
      have ho : s.tables.slots[k].enabled = true := Bool.not_eq_false _ |>.mp ho
      have ha := not_not.1 ha
      by_cases h : s.tables.slots[k].expClass = e.expClass ∨ s.slots[k].state = .running ∨
          s.slots[k].cls = some (expectedLookup e.expClass { s with tables := { s.tables with slots := s.tables.slots.set k e } })
      · rw [slotEffects_kept (s := { s with tables := { s.tables with slots := s.tables.slots.set k e } }) he ho ha h]
        exact hkeep fun _ => hk.classed (.inr ho)
      · obtain ⟨hx, h⟩ := not_or.1 h
        obtain ⟨hst, hcls⟩ := not_or.1 h
        rw [slotEffects_class (s := { s with tables := { s.tables with slots := s.tables.slots.set k e } }) he ho ha hx hst hcls]
        exact restore_entry e _ _ hs hr hn hr (fun _ => by simp) hk.timed

/-! ## Resets and the start-up load -/

theorem resetSlots_slot (k : SlotId) (s : State) : (resetSlots s).slots[k] = s.slots[k].engineReset s.tables.slots[k].enabled := by
  show (⟨⟨slotIds.map (fun k => s.slots[k].engineReset s.tables.slots[k].enabled)⟩, by simp [slotIds]⟩ : Vector SlotStatus 32)[k] = _
  simp [slotIds]

theorem unslotted_rest (s : State) : (resetQueues (resetSlots s)).slots = (resetSlots s).slots ∧
    (resetQueues (resetSlots s)).catSt = vmap (fun c => { c with users := 0 }) s.catSt ∧
    (resetQueues (resetSlots s)).queues.hold = Vector.replicate 32 [] := by
  refine ⟨?_, ?_, congrArg Queues.hold (resetQueues_queues _)⟩
  · unfold resetQueues
    rw [releaseAll_shape]
    rfl
  · unfold resetQueues
    rw [releaseAll_shape]
    rfl

theorem restore_unslotted (hs : RestoreLaw s) : RestoreLaw (resetQueues (resetSlots s)) := by
  obtain ⟨h1, -, h3⟩ := restoreLaw_iff.1 hs
  obtain ⟨hslots, hcat, hhold⟩ := unslotted_rest s
  obtain ⟨hp, -, ht, hl, -⟩ := of_noEvent ((resetQueues_noEvent _).trans (resetSlots_noEvent s))
  refine restoreLaw_atRest (fun k => ?_) (fun k => ?_) (fun i => ?_) (fun k => ?_) fun h => ?_
  · rw [hslots, resetSlots_slot, ht]
    refine atRest_sound rfl ?_ (fun h => (h1 k).classed (.inr ?_)) rfl
    · unfold SlotStatus.engineReset
      dsimp only
      split <;> rfl
    · unfold SlotStatus.engineReset at h
      cases he : s.tables.slots[k].enabled with
      | true => rfl
      | false =>
        rw [he] at h
        exact h.elim (absurd rfl) fun h => nomatch h
  · rw [hhold]
    simp
  · rw [hcat, vmap_get]
  · rw [hslots, resetSlots_slot]
    rfl
  · rw [hl]
    exact (h3 (hp ▸ h)).1

theorem restore_reset (s : State) : RestoreLaw (fullReset s) := by
  have hx : ∀ k : SlotId, (fullReset s).slots[k] = .vacant := fun k => by
    show (Vector.replicate 32 SlotStatus.vacant)[k] = _
    simp
  have hen : ∀ k : SlotId, (fullReset s).tables.slots[k].enabled = false := fun k => by
    show (Tables.factory.slots[k]).enabled = false
    simp [Tables.factory, SlotEntry.factory]
  refine restoreLaw_atRest (fun k => ?_) (fun k => ?_) (fun i => ?_) (fun k => by rw [hx]; rfl) fun _ => rfl
  · rw [hx, hen]
    exact atRest_sound rfl rfl (fun h => h.elim (absurd rfl) fun h => nomatch h) rfl
  · show (Vector.replicate 32 ([] : List BufId))[k] = []
    simp
  · show (Vector.replicate 16 (⟨false, 0⟩ : CatStatus))[i].users = 0
    simp

theorem bootSlot_sound (t : Tables) (k : SlotId) (d : Nat) : (bootSlot t k).session = none ∧ (bootSlot t k).Sound t.slots[k].enabled d [] := by
  unfold bootSlot
  split
  next h => exact ⟨rfl, atRest_sound rfl rfl (fun _ => by simp) rfl⟩
  next h => exact ⟨rfl, atRest_sound rfl rfl (fun hx => hx.elim (absurd rfl) fun hx => absurd hx h) rfl⟩

/-- The law once tables are installed and the load has ended. -/
theorem restore_installed (t : Tables) (hs : RestoreLaw s) (hp : s.phase = .starting) {u : State} (hn : u.phase = .running)
    (htab : u.tables = t) (hslots : ∀ k : SlotId, u.slots[k] = bootSlot t k) (hcat : u.catSt = s.catSt)
    (hhold : u.queues.hold = s.queues.hold) : RestoreLaw u := by
  obtain ⟨h1, h2, h3⟩ := restoreLaw_iff.1 hs
  obtain ⟨-, hnone⟩ := h3 hp
  refine restoreLaw_atRest (fun k => ?_) (fun k => ?_) (fun i => ?_) (fun k => ?_) fun h => ?_
  · rw [hslots, htab]
    exact (bootSlot_sound t k _).2
  · rw [hhold]
    refine (h1 k).hold_nil fun hr => ?_
    have := (h1 k).opened.2 hr
    rw [hnone k] at this
    cases this
  · rw [hcat, h2 i]
    exact List.countP_eq_zero.2 fun k _ => Bool.eq_false_iff.1 (onImage_none (hnone k) i)
  · rw [hslots]
    exact (bootSlot_sound t k 0).1
  · rw [hn] at h
    cases h

theorem restore_loaded (stored : Option Tables) (m : Memory) (c : Option CutOp) (hs : RestoreLaw s) (hp : s.phase = .starting) :
    RestoreLaw (startLine { loadTables stored { s with flash := m, cut := c } with phase := .running }) := by
  cases stored with
  | some t => exact restore_installed t hs hp rfl rfl (fun k => install_slot t s k) rfl rfl
  | none => exact restore_installed .factory hs hp rfl rfl (fun k => install_slot .factory s k) rfl rfl

/-! ## The law at every step -/

theorem restore_nodeLaw : NodeLaw RestoreLaw RestoreOpen where
  same := restoreLaw_same
  sameOpen := restoreOpen_same
  reset := restore_reset
  ended := restore_ended
  closed := restore_closed
  failed c := restore_failed c
  succeeded hs _ := restore_succeeded hs
  opened i w := restore_opened i w
  classed k c := restore_classed k c
  classedOpen c := restore_classedOpen c
  moved := restore_moved
  retried := restore_retried
  staged := restore_staged
  worked := restore_worked
  held b := restore_held b
  darkened := restore_darkened
  lined g := restore_lined g
  emptied _ hs := hs
  stored hs _ := hs
  settled e := restore_settled e
  reclassed c e hs _ := restore_reclassed c e hs
  reentered e := restore_reentered e
  unslotted := restore_unslotted

/-- Every step keeps the law of sessions and hold queues. -/
theorem restoreLaw_step (s t : State) (hs : RestoreLaw s) (ht : step s = .next t) : RestoreLaw t :=
  law_of_events (fun _ _ h => h) (fun _ _ h => h) (fun _ _ h hu => restore_nodeLaw.event h hu fun _ _ hp => restore_loaded _ _ _ h hp)
    (fun _ h => restore_nodeLaw.finish h) s t hs ht

end Sys2Proof.Machine
end

section
/-! PROOFS. The law of context records as a law of nodes: lengths, values and layouts (O16). -/

namespace Sys2Proof.Machine

open Sys2Proof.Safety

variable {k : SlotId} {s t : State}

/-! ## One record -/

/-- What the law says of one record: every value has the length of its field and is not zero. -/
def State.recordSound (s : State) (k : SlotId) : Prop :=
  ∀ (f : FieldId) (v : List Byte), (s.ctx[k])[f] = some v → v.length = fieldLen k f s ∧ ∃ b ∈ v, b ≠ 0

/-- The records and the layouts that they follow. -/
def Records (s : State) : Prop := (∀ k, s.recordSound k) ∧ ∀ c : ClassId, (s.tables.classes[c]).Fits

theorem fieldLen_congr (f : FieldId) (h : classOf k t = classOf k s) : fieldLen k f t = fieldLen k f s := by
  unfold fieldLen
  rw [h]

theorem classOf_congr (hc : t.tables.classes = s.tables.classes) (hx : t.slots[k].cls = s.slots[k].cls) : classOf k t = classOf k s := by
  unfold classOf
  rw [hc, hx]

theorem recordSound_kept (h : s.recordSound k) (hc : t.tables.classes = s.tables.classes) (hx : t.slots[k].cls = s.slots[k].cls)
    (hr : t.ctx[k] = s.ctx[k]) : t.recordSound k := by
  intro f v hv
  rw [hr] at hv
  rw [fieldLen_congr f (classOf_congr hc hx)]
  exact h f v hv

theorem empty_get (f : FieldId) : CtxRecord.empty[f] = none := by simp [CtxRecord.empty]

theorem recordSound_empty (hr : t.ctx[k] = CtxRecord.empty) : t.recordSound k := by
  intro f v hv
  rw [hr, empty_get] at hv
  cases hv

theorem records_kept (h : Records s) (hc : t.tables.classes = s.tables.classes) (hx : ∀ k : SlotId, t.slots[k].cls = s.slots[k].cls)
    (hr : t.ctx = s.ctx) : Records t := by
  obtain ⟨h1, h2⟩ := h
  exact ⟨fun k => recordSound_kept (h1 k) hc (hx k) (by rw [hr]), by rw [hc]; exact h2⟩

/-- A change of one slot whose record is empty afterwards. -/
theorem records_emptied (h : Records s) (hc : t.tables.classes = s.tables.classes)
    (hx : ∀ j : SlotId, j ≠ k → t.slots[j].cls = s.slots[j].cls) (hr : t.ctx = s.ctx.set k CtxRecord.empty) : Records t := by
  obtain ⟨h1, h2⟩ := h
  refine ⟨fun j => ?_, by rw [hc]; exact h2⟩
  by_cases hj : j = k
  · subst hj
    exact recordSound_empty (by rw [hr, set_same])
  · exact recordSound_kept (h1 j) hc (hx j hj) (by rw [hr, set_other _ hj])

theorem cls_of_core {x y : SlotStatus} (h : y.core = x.core) : y.cls = x.cls := congrArg (fun c => c.2.1) h

theorem records_same (hs : Records s) (h : SameNodes s t) : Records t :=
  records_kept hs h.classes (fun k => cls_of_core (h.core k)) h.ctx

theorem cls_updSlot {g : SlotStatus → SlotStatus} (h : ∀ x, (g x).cls = x.cls) (j : SlotId) :
    (updSlot k g s).slots[j].cls = s.slots[j].cls := by
  by_cases hj : j = k
  · subst hj
    rw [updSlot_same]
    exact h _
  · rw [updSlot_other hj]

/-! ## Sessions, failures and classes -/

theorem endSession_cls (k j : SlotId) (s : State) : (endSession k s).slots[j].cls = s.slots[j].cls := by
  rw [endSession_slots]
  split
  next h => rw [h.1]
  next => rfl

theorem policySlot_cls (e : ClassEntry) (x : SlotStatus) : (policySlot e x).cls = x.cls := by
  unfold policySlot
  split
  · split <;> rfl
  all_goals rfl

theorem failSlot_cls (k j : SlotId) (c : Cause) (s : State) : (failSlot k c s).slots[j].cls = s.slots[j].cls := by
  by_cases hj : j = k
  · subst hj
    cases hc : s.slots[j].cls with
    | some c' => rw [failSlot_slot hc, policySlot_cls, hc]
    | none =>
      have hb : classOf j (failBase j c s) = none := by
        unfold classOf
        rw [failBase_slot, hc]
        rfl
      show (match classOf j (failBase j c s) with
        | some e => applyPolicy j c e (failBase j c s)
        | none => failBase j c s).slots[j].cls = none
      rw [hb]
      show (failBase j c s).slots[j].cls = none
      rw [failBase_slot, hc]
  · rw [failSlot_other hj]

theorem succeed_records (k : SlotId) (s : State) : (succeed k s).tables = s.tables ∧ (succeed k s).ctx = s.ctx ∧
    ∀ j : SlotId, (succeed k s).slots[j].cls = s.slots[j].cls := by
  unfold succeed
  obtain ⟨-, -, h1, h2, h3, -⟩ := of_noLinks (releaseHold_noLinks k (updSlot k (fun x => { x with
    state := .running, retry := 0, coldNext := false, reloadExpected := false, stale := false, reboot := none
    catInUse := none }) (endSession k s)))
  refine ⟨h1.trans (endSession_frame k s).1, h3.trans (endSession_rest k s).1, fun j => ?_⟩
  rw [h2]
  exact (cls_updSlot (by intro; rfl) j).trans (endSession_cls k j s)

theorem openSession_records (k : SlotId) (i : ImageId) (w : Bool) (s : State) : (openSession k i w s).tables = s.tables ∧
    (openSession k i w s).ctx = s.ctx ∧ ∀ j : SlotId, (openSession k i w s).slots[j].cls = s.slots[j].cls := by
  unfold openSession
  obtain ⟨-, -, h1, h2, h3, -⟩ := of_noCache (requestBlocks_noCache k (updCat i (fun c => { c with users := c.users + 1 })
    (updSlot k (fun x => { x with
      state := if w then .starting else .loading
      catInUse := some i
      session := some (newSession i w s) }) s)))
  refine ⟨h1, h3, fun j => ?_⟩
  rw [h2]
  exact cls_updSlot (by intro; rfl) j

theorem setClass_records (k : SlotId) (c : ClassId) (hs : Records s) : Records (setClass k c s) := by
  by_cases h : s.slots[k].cls = some c
  · rw [setClass_kept h]
    exact hs
  · refine records_emptied (k := k) hs (congrArg Tables.classes (setClass_rest k c s).2.2) (fun j hj => ?_) ?_
    · rw [(setClass_change k c s).slots j hj]
    · rw [setClass_changed h]
      rfl

theorem store_get (f g : FieldId) (v w : List Byte) (r : CtxRecord) (h : (r.store f v)[g] = some w) :
    g = f ∧ w = v ∧ (∃ b ∈ v, b ≠ 0) ∨ r[g] = some w := by
  unfold CtxRecord.store at h
  by_cases hg : g = f
  · subst hg
    rw [set_same] at h
    split at h
    · cases h
    next hv =>
      obtain rfl := Option.some.inj h
      refine .inl ⟨rfl, rfl, ?_⟩
      by_contra hn
      exact hv (List.all_eq_true.2 fun b hb => beq_iff_eq.2 (by by_contra hb'; exact hn ⟨b, hb, hb'⟩))
  · rw [set_other _ hg] at h
    exact .inr h

theorem storeField_records {f : FieldId} {v : List Byte} (hs : Records s) (hl : v.length = fieldLen k f s) : Records (storeField k f v s) := by
  obtain ⟨h1, h2⟩ := hs
  refine ⟨fun j g w hw => ?_, h2⟩
  show w.length = fieldLen j g s ∧ _
  have hw : (s.ctx.set k (s.ctx[k].store f v))[j][g] = some w := hw
  by_cases hj : j = k
  · subst hj
    rw [set_same] at hw
    rcases store_get f g v w _ hw with ⟨rfl, rfl, hb⟩ | hw
    · exact ⟨hl, hb⟩
    · exact h1 j g w hw
  · rw [set_other _ hj] at hw
    exact h1 j g w hw

/-! ## A gap and tables -/

theorem darkened_records (hs : Records s) : Records (flushGap (darkenAll s)) := by
  obtain ⟨h1, -, -, h4⟩ := flushGap_rest (darkenAll s)
  obtain ⟨-, -, ht, -⟩ := of_noEvent ((flushGap_noEvent _).trans (darkenAll_noEvent s))
  have hd := darkenAll_dimmed s
  have hc : (darkenAll s).ctx = s.ctx := by
    conv_rhs => rw [← hd.rest]
  refine records_kept hs (congrArg Tables.classes ht) (fun k => ?_) (h4.trans hc)
  rw [h1, hd.slot k]
  split <;> rfl

theorem setSettings_records (e : Settings) (hs : Records s) : Records (setSettings e s) := by
  obtain ⟨hk, hn⟩ := setSettings_trimmed e s
  obtain ⟨-, -, ht, -⟩ := of_noEvent hn
  simp only [State.trimmed, Prod.mk.injEq] at hk
  obtain ⟨hcore, -, hctx⟩ := hk
  exact records_kept hs ((congrArg Tables.classes ht).trans rfl) (fun k => cls_of_core (congrFun hcore k)) hctx

theorem setClassEntry_records (c : ClassId) {e : ClassEntry} (hs : Records s) (he : e.Fits) : Records (setClassEntry c e s).2 := by
  by_cases h : ∃ k : SlotId, s.slots[k].cls = some c ∧ s.slots[k].state.restoring = true
  · rw [setClassEntry_inUse h]
    exact hs
  · obtain ⟨h1, h2⟩ := hs
    obtain ⟨t, ht, hx, hk⟩ := setClassEntry_ok (c := c) (e := e) (s := s) fun k hc => Bool.eq_false_iff.2 fun hr => h ⟨k, hc, hr⟩
    rw [ht]
    show Records t
    have hcls : ∀ k : SlotId, t.slots[k].cls = s.slots[k].cls := fun k => by
      rw [(hk k).1]
      split <;> rfl
    have htab : t.tables.classes = s.tables.classes.set c e := by rw [hx]
    refine ⟨fun k => ?_, fun d => ?_⟩
    · have hctx := (hk k).2
      by_cases hc : s.slots[k].cls = some c
      · by_cases hl : e.layout ≠ (s.tables.classes[c]).layout
        · exact recordSound_empty (by rw [hctx, if_pos ⟨hc, hl⟩]; rfl)
        · rw [if_neg fun hx => hl hx.2] at hctx
          intro f v hv
          rw [hctx] at hv
          obtain ⟨ha, hb⟩ := h1 k f v hv
          refine ⟨ha.trans ?_, hb⟩
          have hlay : e.layout = (s.tables.classes[c]).layout := not_not.1 hl
          simp only [fieldLen, classOf, hcls, hc, Option.map_some, htab, set_same, hlay]
      · rw [if_neg fun hx => hc hx.1] at hctx
        intro f v hv
        rw [hctx] at hv
        obtain ⟨ha, hb⟩ := h1 k f v hv
        refine ⟨ha.trans ?_, hb⟩
        refine (fieldLen_congr f ?_).symm
        unfold classOf
        rw [hcls, htab]
        cases hd : s.slots[k].cls with
        | none => rfl
        | some d =>
          have hdc : d ≠ c := fun hx => hc (hx ▸ hd)
          exact congrArg some (set_other _ hdc _)
    · rw [htab]
      by_cases hd : d = c
      · subst hd
        rw [set_same]
        exact he
      · rw [set_other _ hd]
        exact h2 d

theorem slotEffects_records (e : SlotEntry) (hs : Records s) : Records
    (slotEffects k s.tables.slots[k] e { s with tables := { s.tables with slots := s.tables.slots.set k e } }) := by
  have hu : Records { s with tables := { s.tables with slots := s.tables.slots.set k e } } := records_kept hs rfl (fun _ => rfl) rfl
  unfold slotEffects
  split
  · split
    · exact records_emptied (k := k) hu rfl (fun j hj => by rw [show (freshSlot k e _).slots[j] = _ from updSlot_other hj ..]) rfl
    · split
      · exact setClass_records k _ hu
      · exact hu
  · split
    · exact records_emptied (k := k) hu rfl (fun j hj => by rw [show (retireSlot k _).slots[j] = _ from updSlot_other hj ..]) rfl
    · exact hu

theorem unslotted_records (hs : Records s) : Records (resetQueues (resetSlots s)) := by
  obtain ⟨hslots, -, -⟩ := unslotted_rest s
  obtain ⟨-, -, ht, -⟩ := of_noEvent ((resetQueues_noEvent _).trans (resetSlots_noEvent s))
  have hctx : (resetQueues (resetSlots s)).ctx = s.ctx := by
    unfold resetQueues
    rw [releaseAll_shape]
    rfl
  refine records_kept hs (congrArg Tables.classes ht) (fun k => ?_) hctx
  rw [hslots, resetSlots_slot]
  rfl

theorem factory_fits : ClassEntry.factory.Fits := ⟨fun f => by simp [ClassEntry.factory], by simp [ClassEntry.factory]⟩

theorem reset_records (s : State) : Records (fullReset s) := by
  refine ⟨fun k => recordSound_empty ?_, fun c => ?_⟩
  · show (Vector.replicate 32 CtxRecord.empty)[k] = _
    simp
  · show ((Vector.replicate 8 ClassEntry.factory)[c]).Fits
    rw [show (Vector.replicate 8 ClassEntry.factory)[c] = ClassEntry.factory by simp]
    exact factory_fits

theorem records_nodeLaw : NodeLaw Records (fun _ => Records) where
  same := records_same
  sameOpen := records_same
  reset := reset_records
  ended {k s} hs _ := records_kept hs (congrArg Tables.classes (endSession_frame k s).1) (fun j => endSession_cls k j s)
    (endSession_rest k s).1
  closed hs _ := hs
  failed {k s} c hs := records_kept hs (congrArg Tables.classes (failSlot_frame k c s).1) (fun j => failSlot_cls k j c s)
    (failSlot_frame k c s).2.1
  succeeded {k s} hs _ := by
    obtain ⟨h1, h2, h3⟩ := succeed_records k s
    exact records_kept hs (congrArg Tables.classes h1) h3 h2
  opened {k s} i w hs _ := by
    obtain ⟨h1, h2, h3⟩ := openSession_records k i w s
    exact records_kept hs (congrArg Tables.classes h1) h3 h2
  classed k c := setClass_records k c
  classedOpen {k _} c := setClass_records k c
  moved hs _ _ := records_kept hs rfl (cls_updSlot (by intro; rfl)) rfl
  retried hs _ := records_kept hs rfl (cls_updSlot (by intro; rfl)) rfl
  staged hs _ _ := records_kept hs rfl (cls_updSlot (by intro; rfl)) rfl
  worked hs _ := records_kept hs rfl (cls_updSlot (by intro; rfl)) rfl
  held _ hs _ _ := records_kept hs rfl (fun _ => rfl) rfl
  darkened := darkened_records
  lined _ hs _ := records_kept hs rfl (fun _ => rfl) rfl
  emptied k hs := records_emptied (k := k) hs rfl (fun _ _ => rfl) rfl
  stored := storeField_records
  settled e := setSettings_records e
  reclassed c _ := setClassEntry_records c
  reentered e hs _ := slotEffects_records e hs
  unslotted := unslotted_records

/-! ## The start-up load -/

theorem readStore_fits {b : List Byte} {u : Tables} (h : readStore b = some u) (c : ClassId) : (u.classes[c]).Fits := by
  unfold readStore at h
  split at h
  · exact ClassEntry.fits_of_decode ((readTables_iff.1 h).2.1 c)
  · cases h

theorem loaded_records (b : List Byte) (m : Memory) (x : Option CutOp) (hctx : ∀ (k : SlotId) (f : FieldId), (s.ctx[k])[f] = none) :
    Records (startLine { loadTables (readStore b) { s with flash := m, cut := x } with phase := .running }) := by
  have hsound : ∀ {u : State}, u.ctx = s.ctx → ∀ k, u.recordSound k := fun hu k f v hv => by
    rw [hu, hctx k f] at hv
    cases hv
  cases hb : readStore b with
  | some u => exact ⟨hsound rfl, readStore_fits hb⟩
  | none => exact ⟨hsound rfl, (reset_records s).2⟩

end Sys2Proof.Machine
end

section
/-! PROOFS. The law of context records during a start-up load, and with that at every step (O16). -/

namespace Sys2Proof.Machine

open Sys2Proof.Safety

/-! ## No request comes to wait but where a frame is received -/

/-- The records are `c` and no request waits. -/
def Still (c : Vector CtxRecord 32) (s : State) : Prop := s.ctx = c ∧ s.ma.trunk.state ≠ .waiting ∧ s.ma.service.state ≠ .waiting

section

variable {c : Vector CtxRecord 32} {s t : State}

theorem Still.of_ma (h : Still c s) (hc : t.ctx = s.ctx) (hm : t.ma = s.ma) : Still c t := by
  unfold Still
  rw [hc, hm]
  exact h

theorem Still.of_noCache (h : Still c s) (hn : t.noCache = s.noCache) : Still c t := by
  obtain ⟨-, -, -, -, hc, -, -, -, -, -, -, -, -, hm, -⟩ := Machine.of_noCache hn
  exact h.of_ma hc hm

theorem Still.of_noLinks (h : Still c s) (hn : t.noLinks = s.noLinks) : Still c t := by
  obtain ⟨-, -, -, -, hc, -, -, -, -, -, -, -, hm, -⟩ := Machine.of_noLinks hn
  exact h.of_ma hc hm

theorem Still.updOrigin (h : Still c s) (o : Origin) {g : OriginRec → OriginRec} (hg : ∀ r, (g r).state ≠ .waiting) :
    Still c (Machine.updOrigin o g s) := by
  obtain ⟨h1, h2, h3⟩ := h
  cases o
  · exact ⟨h1, hg _, h3⟩
  · exact ⟨h1, h2, hg _⟩

theorem Still.pushTx (h : Still c s) (o : Origin) (e : TxEntry) : Still c (Machine.pushTx o e s) := by
  cases o
  · exact h.of_ma rfl rfl
  · exact h.of_ma rfl rfl

theorem Still.alloc {f : Frame} {b : BufId} (h : Still c s) (ha : Machine.alloc f s = some (b, t)) : Still c t := by
  obtain ⟨-, rfl⟩ := alloc_spec ha
  exact h

theorem Still.done (h : Still c s) (o : Origin) : Still c (Machine.updOrigin o OriginRec.done s) :=
  h.updOrigin o fun _ => by simp [OriginRec.done]

theorem Still.placeOne (h : Still c s) : Still c (Machine.placeOne s) := by
  unfold Machine.placeOne
  split
  · exact h
  next r _ =>
    split
    · exact h
    next b t ha =>
      have ht : Still c t := h.alloc ha
      have hm : Still c (updMa (fun a => { a with replies := a.replies.erase r }) t) := ht
      unfold placed
      simp only
      split
      · exact hm.pushTx ..
      · exact (hm.pushTx ..).done _

theorem Still.finalReply (h : Still c s) (o : Origin) (st : Status) (d : List Byte) (x : Bool) : Still c (Machine.finalReply o st d x s) := by
  have hr : ∀ n u, Still c u → Still c (placeReplies n u) := by
    intro n
    induction n with
    | zero => exact fun _ hu => hu
    | succ n ih => exact fun u hu => ih _ hu.placeOne
  unfold Machine.finalReply
  split
  · exact h
  · exact hr _ _ (h.updOrigin o fun _ => by simp)

theorem Still.endLong (h : Still c s) (st : Status) (d : List Byte) : Still c (Machine.endLong st d s) := by
  unfold Machine.endLong
  split
  · exact h
  · exact Still.finalReply (s := setLong none s) h ..

theorem Still.setWaiting (h : Still c s) (w : List Nat) : Still c (Machine.setWaiting w s) := by
  unfold Machine.setWaiting
  split <;> exact h

theorem Still.pinDone (h : Still c s) : Still c (Machine.pinDone s) := by
  unfold Machine.pinDone
  split
  · exact h.endLong ..
  · exact h

theorem Still.placeWaiting (h : Still c s) : Still c (Machine.placeWaiting s) := by
  have ht : ∀ i bs u, Still c u → Still c (takeWaiting i bs u) := by
    intro i bs
    induction bs with
    | nil => exact fun u hu => hu.setWaiting _
    | cons b bs ih =>
      intro u hu
      unfold takeWaiting
      split
      · exact hu.setWaiting _
      · exact ih _ (hu.of_noCache (request_noCache ..))
  unfold Machine.placeWaiting
  split
  · split
    · exact h
    · exact (ht _ _ _ h).pinDone
  · exact h

theorem Still.requestAll (h : Still c s) : Still c (Machine.requestAll s) := h.of_noCache (requestAll_noCache s)

theorem Still.failSlot (h : Still c s) (k : SlotId) (e : Cause) : Still c (Machine.failSlot k e s) := by
  refine h.of_ma (failSlot_frame k e s).2.1 ?_
  have hm : (Machine.failSlot k e s).ma = (flushHold k (endSession k s)).ma := by rw [failSlot_only]
  rw [hm, (flushHold_rest ..).2.2, (endSession_rest k s).2.1]

theorem Still.endPinOn (h : Still c s) (i : ImageId) : Still c (Machine.endPinOn i s) := by
  unfold Machine.endPinOn endPin
  split
  · split
    · exact Still.endLong (h.of_noCache (clearPinMarks_noCache s)) ..
    · exact h
  · exact h

theorem Still.markBad (h : Still c s) (i : ImageId) : Still c (Machine.markBad i s) := by
  have hw : ∀ u, Still c u → Still c (withdrawImage i u) := by
    intro u hu
    unfold withdrawImage
    split
    · exact (hu.of_noCache (dropFills_noCache i u)).placeWaiting
    · exact hu.of_noCache (dropFills_noCache i u)
  have hb : Still c (Machine.endPinOn i (disownFill i (dropLines i (withdrawImage i (updCat i (fun c => { c with bad := true }) s))))) :=
    (((hw (updCat i (fun c => { c with bad := true }) s) (h.of_ma rfl rfl)).of_noCache (dropLines_noCache i _)).of_noCache (disownFill_noCache i _)).endPinOn i
  have hf : ∀ (l : List SlotId) u, Still c u → Still c (l.foldl (fun s k => Machine.failSlot k .imageBad s) u) := by
    intro l
    induction l with
    | nil => exact fun _ hu => hu
    | cons k l ih => exact fun u hu => ih _ (hu.failSlot k _)
  exact hf _ _ (hb.of_ma rfl rfl)

theorem Still.mismatch (h : Still c s) (i : ImageId) : Still c (Machine.mismatch i s) := by
  unfold Machine.mismatch
  split
  · exact (h.markBad i).requestAll
  · exact h.markBad i

theorem Still.runChecks (n : Nat) (d : SelfCheck) (h : Still c s) : Still c (Machine.runChecks n d s) := by
  induction n generalizing d s with
  | zero => exact h.endLong ..
  | succ n ih =>
    unfold Machine.runChecks
    simp only
    split
    · split
      · exact h
      · split
        · exact ih _ h
        · exact ih _ (h.mismatch _)
    · exact ih _ h

theorem Still.scanTaken (h : Still c s) (live : Bool) (read : Disturb) : Still c (Machine.scanTaken live read s) := by
  unfold Machine.scanTaken
  split
  · unfold scanned
    split
    · unfold scanIdentity
      split
      · exact h
      · exact h.endLong ..
    · unfold scanStore
      simp only
      split
      · exact h
      · exact .runChecks _ _ h
    · exact .runChecks _ _ h
  · exact h

theorem Still.judgeFill (h : Still c s) (f : Fill) (bs : List Byte) : Still c (Machine.judgeFill f bs s) := by
  have he : Still c (emptyLine f.line (idleReader s)) := Still.of_noCache (s := idleReader s) h (emptyLine_noCache ..)
  unfold Machine.judgeFill
  split
  · exact he.requestAll
  · split
    · split
      · exact he.requestAll
      · unfold fillValid
        refine Still.requestAll ?_
        split
        · refine Still.pinDone (Still.of_noCache ?_ (pinLine_noCache ..))
          exact h
        · exact h
    · split
      · unfold leftoverFailed returnPin
        refine Still.requestAll ?_
        split
        · exact (he.setWaiting _).placeWaiting
        · exact he
      · split
        · exact (he.markBad _).requestAll
        · exact h

theorem Still.startWork (h : Still c s) : Still c (Machine.startWork s) := by
  unfold Machine.startWork
  split
  · unfold startLong
    split
    · exact h
    · split <;> exact h
  · split
    · exact Still.placeWaiting h
    · exact h

theorem Still.sendRange (h : Still c s) (o : Origin) (u a b : Nat) : Still c (Machine.sendRange o u a b s) := by
  unfold Machine.sendRange
  split
  · split
    · exact h
    · simp only
      split
      · exact h
      next b u ha =>
        have hp := (h.alloc ha).pushTx o
        unfold afterFrame
        split
        · exact hp _
        · have hq := hp ⟨b, false⟩
          exact Still.done (s := setLong none (updMa (fun a => { a with restartMark := false }) _)) hq o
  · exact h

end

/-! ## The start-up load -/

/-- During the start-up load the segment port is SILENT, LINE is in a gap, no request waits and no record holds a value. -/
def State.startsSilent (s : State) : Prop := s.phase = .starting → s.seg.port = .silent ∧ s.lm.line = .gap ∧
  s.ma.trunk.state ≠ .waiting ∧ s.ma.service.state ≠ .waiting ∧ ∀ (k : SlotId) (f : FieldId), (s.ctx[k])[f] = none

theorem recordLaw_iff {s : State} : RecordLaw s ↔ Records s ∧ s.startsSilent :=
  ⟨fun ⟨h1, h2, h3⟩ => ⟨⟨h1, h2⟩, h3⟩, fun ⟨⟨h1, h2⟩, h3⟩ => ⟨h1, h2, h3⟩⟩

theorem reset_startsSilent (s : State) : (fullReset s).startsSilent := by
  refine fun _ => ⟨rfl, rfl, (nomatch ·), (nomatch ·), fun k f => ?_⟩
  show ((Vector.replicate 32 CtxRecord.empty)[k])[f] = none
  rw [show (Vector.replicate 32 CtxRecord.empty)[k] = CtxRecord.empty by simp]
  exact empty_get f

/-- With no request waiting none is taken. -/
theorem nextRequest_none {s : State} (h1 : s.ma.trunk.state ≠ .waiting) (h2 : s.ma.service.state ≠ .waiting) : nextRequest s = none := by
  have ht : isWaiting .trunk s = false := decide_eq_false h1
  have hv : isWaiting .service s = false := decide_eq_false h2
  unfold nextRequest nextOrigin
  rw [ht, hv]
  cases s.ma.stopped <;> rfl

/-- Phase, segment port and LINE stand, no request comes to wait and the records stand. -/
def StillAt (s u : State) : Prop := u.phase = s.phase ∧ u.seg.port = s.seg.port ∧ u.lm.line = s.lm.line ∧ Still s.ctx u

theorem stillAt_of_noEvent {s u : State} (hn : u.noEvent = s.noEvent) (h : Still s.ctx u) : StillAt s u := by
  obtain ⟨hp, -, -, hl, -, -, hs, -⟩ := of_noEvent hn
  exact ⟨hp, by rw [hs], by rw [hl], h⟩

theorem flashDone_still {s : State} (ok : Bool) (m : Memory) (h : Still s.ctx s) : StillAt s (flashDone ok m s) := by
  obtain ⟨hp, -, -, hl, -, -, hs, -⟩ := of_noEvent (endLong_noEvent (flashStatus ok s) [] { s with flash := m, reader := .idle })
  exact ⟨hp, congrArg Segment.port hs, congrArg LineMon.line hl, Still.endLong (s := { s with flash := m, reader := .idle }) h ..⟩

/-- An event of a start-up load: it ends the load, starts it again, or leaves its items. -/
theorem event_starting {s u : State} (hp : s.phase = .starting) (hport : s.seg.port = .silent) (hline : s.lm.line = .gap)
    (h : Still s.ctx s) (hu : Event s u) : u.phase = .running ∨ (∃ v, u = fullReset v) ∨ StillAt s u := by
  have hrun : ∀ {p : Prop}, s.phase = .running → p := fun hr => by rw [hp] at hr; cases hr
  have hnone := nextRequest_none h.2.1 h.2.2
  have hevent : ∀ {v : State}, v.noEvent = s.noEvent → Still s.ctx v → v.phase = .running ∨ (∃ w, v = fullReset w) ∨ StillAt s v :=
    fun hn hv => .inr (.inr (stillAt_of_noEvent hn hv))
  have hsent : ∀ p e q, u = sent p e { s with queues := q } → u.phase = .running ∨ (∃ v, u = fullReset v) ∨ StillAt s u := by
    rintro p e q rfl
    have hn : (countSent p (dropRef e.buf { s with queues := q })).noLinks = s.noLinks :=
      (countSent_noLinks ..).trans ((dropRef_noLinks ..).trans rfl)
    unfold sent
    simp only
    split
    · exact .inr (.inl ⟨_, rfl⟩)
    · exact hevent (event_of_links hn) (h.of_noLinks hn)
  cases hu with
  | frame l bytes hr => exact hrun hr
  | answerBegins hr _ => exact hrun hr
  | strayBegins hr _ => exact hrun hr
  | segmentFrame w bytes hx => rw [hport] at hx; cases hx
  | windowExpires hx => rw [hport] at hx; cases hx
  | segmentSent tx hx => rw [hport] at hx; cases hx
  | trunkSent e es he => exact hsent .trunk e _ rfl
  | serviceSent e es he => exact hsent .service e _ rfl
  | lineFalls hr => exact hrun hr
  | lineRises hr => exact hrun hr
  | gap hl => rw [hline] at hl; cases hl
  | lineUp hl => rw [hline] at hl; cases hl
  | retry k hk => exact hevent (updSlot_noEvent ..) h
  | stalled k hk => exact hevent (failSlot_noEvent ..) (h.failSlot k _)
  | reset => exact .inr (.inl ⟨s, rfl⟩)
  | loaded left read hx => exact .inl rfl
  | readerStarts hr => exact hevent (startWork_noEvent s) h.startWork
  | fillRead f bs hr => exact hevent (judgeFill_noEvent ..) (h.judgeFill f bs)
  | erased kept read k hr => exact .inr (.inr (flashDone_still _ _ h))
  | programmed blank prog back r d hr => exact .inr (.inr (flashDone_still _ _ h))
  | committed prog back hr => exact .inr (.inr (flashDone_still _ _ h))
  | scanRead live read hr =>
    exact hevent ((scanTaken_noEvent ..).trans (idleReader_noEvent s)) (Still.scanTaken (s := idleReader s) h live read)
  | replyPlaced => exact hevent (placeOne_noEvent s) h.placeOne
  | rangeFrame l t a b _ _ => exact hevent (sendRange_noEvent ..) (h.sendRange ..)
  | pinPlaced => exact hevent (placeWaiting_noEvent s) h.placeWaiting
  | row c =>
    have he : serveRow c (workOf c) s = s := by
      unfold serveRow
      rw [hnone]
    rw [he]
    exact hevent rfl h
  | noCode =>
    have he : refuseRequest s = s := by
      unfold refuseRequest
      rw [hnone]
    rw [he]
    exact hevent rfl h

/-- An event keeps what the law says of the start-up load. -/
theorem startsSilent_event {s u : State} (h : s.startsSilent) (hu : Event s u) : u.startsSilent := by
  intro hp
  by_cases hs : s.phase = .starting
  · obtain ⟨h1, h2, h3, h4, h5⟩ := h hs
    rcases event_starting hs h1 h2 ⟨rfl, h3, h4⟩ hu with hr | ⟨v, rfl⟩ | ⟨-, e1, e2, e3, e4, e5⟩
    · rw [hr] at hp
      cases hp
    · exact reset_startsSilent v hp
    · exact ⟨e1.trans h1, e2.trans h2, e4, e5, fun k f => by rw [e3]; exact h5 k f⟩
  · have hne : ∀ {v : State}, u.outer = v.outer → v.phase = s.phase → u.startsSilent := fun ho hv =>
      absurd (((congrArg Prod.fst ho).trans hv).symm.trans hp) hs
    cases hu.shift with
    | none h | left h | port p _ _ _ h | line l b _ _ h | lineUp _ h | flash m _ h => exact hne h rfl hp
    | gap h =>
      refine hne h ?_ hp
      unfold closeTurn
      split <;> rfl
    | closed h =>
      refine hne h ?_ hp
      unfold closeTurn
      split <;> rfl
    | reset v _ h => exact h ▸ reset_startsSilent v (h ▸ hp)
    | loaded m _ hst => exact absurd hst hs

theorem startsSilent_finish {s : State} (h : s.startsSilent) : (finish s).startsSilent := by
  intro hp
  obtain ⟨hph, -⟩ := finish_frame s
  obtain ⟨h1, h2, h3, h4, h5⟩ := h (hph.symm.trans hp)
  have he : finish s = settleOutputs s := by
    unfold finish
    rw [if_neg (by rw [h1]; decide)]
  rw [he]
  exact ⟨h1, h2, h3, h4, h5⟩

/-- Every step keeps the law of context records. -/
theorem recordLaw_step (s t : State) (hs : RecordLaw s) (ht : step s = .next t) : RecordLaw t := by
  refine recordLaw_iff.2 (law_of_events (P := fun s => Records s ∧ s.startsSilent) (fun _ _ h => h) (fun _ _ h => h) (fun s u h hu => ?_)
    (fun s h => ⟨records_nodeLaw.finish h.1, startsSilent_finish h.2⟩) s t (recordLaw_iff.1 hs) ht)
  obtain ⟨hr, hi⟩ := h
  exact ⟨records_nodeLaw.event hr hu fun _ _ hp => loaded_records _ _ _ (hi hp).2.2.2.2, startsSilent_event hi hu⟩

end Sys2Proof.Machine
end

section
/-! PROOFS. The flash operation that the reader runs and that the long operation has begun (`State.ops`), and the operations that leave
both (R75, R79). -/

namespace Sys2Proof.Machine

open Sys2Proof.Safety

/-- The flash operation that the reader runs. -/
def Reader.doing : Reader → Option LongJob
  | .erase k => some (.erase k true false)
  | .program r d => some (.program r d true false)
  | .commit => some (.commit true)
  | .idle | .fill _ | .scan _ => none

/-- The flash operation that a job has begun, whether it is to be aborted or not. -/
def LongJob.doing : LongJob → Option LongJob
  | .erase k true _ => some (.erase k true false)
  | .program r d true _ => some (.program r d true false)
  | .commit true => some (.commit true)
  | .erase _ false _ | .program _ _ false _ | .commit false | .readRange .. | .pin .. | .selfCheck _ => none

/-- The flash operation that the long operation has begun. -/
def State.longDoing (s : State) : Option LongJob := s.ma.long.bind (fun l => l.job.doing)

/-- The flash operation on both sides. -/
def State.ops (s : State) := (s.reader.doing, s.longDoing)

/-- The reader runs only what the long operation has begun. -/
def OpHolds (s : State) : Prop := ∀ j, s.reader.doing = some j → s.longDoing = some j

variable {s t : State}

theorem OpHolds.congr (h : OpHolds s) (he : t.ops = s.ops) : OpHolds t := by
  simp only [State.ops, Prod.mk.injEq] at he
  unfold OpHolds
  rw [he.1, he.2]
  exact h

/-! ## Where the two come from -/

theorem doing_erase {r : Reader} {k : Nat} : r = .erase k ↔ r.doing = some (.erase k true false) := by
  cases r <;> simp [Reader.doing]

theorem doing_program {r : Reader} {n : Nat} {d : List Byte} : r = .program n d ↔ r.doing = some (.program n d true false) := by
  cases r <;> simp [Reader.doing]

theorem doing_commit {r : Reader} : r = .commit ↔ r.doing = some (.commit true) := by
  cases r <;> simp [Reader.doing]

theorem longDoing_iff {j : LongJob} : s.longDoing = some j ↔ ∃ o i, s.ma.long = some ⟨o, i⟩ ∧ i.doing = some j := by
  unfold State.longDoing
  rw [Option.bind_eq_some_iff]
  exact ⟨fun ⟨⟨o, i⟩, h, g⟩ => ⟨o, i, h, g⟩, fun ⟨o, i, h, g⟩ => ⟨⟨o, i⟩, h, g⟩⟩

theorem begun_erase {i : LongJob} {k : Nat} : i.doing = some (.erase k true false) ↔ ∃ a, i = .erase k true a := by
  cases i with
  | erase k' st a => cases st <;> simp [LongJob.doing]
  | program r d st a => cases st <;> simp [LongJob.doing]
  | commit st => cases st <;> simp [LongJob.doing]
  | _ => simp [LongJob.doing]

theorem begun_program {i : LongJob} {n : Nat} {d : List Byte} :
    i.doing = some (.program n d true false) ↔ ∃ a, i = .program n d true a := by
  cases i with
  | erase k' st a => cases st <;> simp [LongJob.doing]
  | program r d st a => cases st <;> simp [LongJob.doing]
  | commit st => cases st <;> simp [LongJob.doing]
  | _ => simp [LongJob.doing]

theorem begun_commit {i : LongJob} : i.doing = some (.commit true) ↔ i = .commit true := by
  cases i with
  | erase k' st a => cases st <;> simp [LongJob.doing]
  | program r d st a => cases st <;> simp [LongJob.doing]
  | commit st => cases st <;> simp [LongJob.doing]
  | _ => simp [LongJob.doing]

/-- The three clauses of the law of pins on the reader say this. -/
theorem opHolds_iff : OpHolds s ↔ (∀ k, s.reader = .erase k → ∃ o a, s.ma.long = some ⟨o, .erase k true a⟩) ∧
    (∀ r d, s.reader = .program r d → ∃ o a, s.ma.long = some ⟨o, .program r d true a⟩) ∧
    (s.reader = .commit → ∃ o, s.ma.long = some ⟨o, .commit true⟩) := by
  constructor
  · intro h
    refine ⟨fun k hk => ?_, fun r d hk => ?_, fun hk => ?_⟩
    · obtain ⟨o, i, hl, hi⟩ := longDoing_iff.1 (h _ (doing_erase.1 hk))
      obtain ⟨a, rfl⟩ := begun_erase.1 hi
      exact ⟨o, a, hl⟩
    · obtain ⟨o, i, hl, hi⟩ := longDoing_iff.1 (h _ (doing_program.1 hk))
      obtain ⟨a, rfl⟩ := begun_program.1 hi
      exact ⟨o, a, hl⟩
    · obtain ⟨o, i, hl, hi⟩ := longDoing_iff.1 (h _ (doing_commit.1 hk))
      obtain rfl := begun_commit.1 hi
      exact ⟨o, hl⟩
  · rintro ⟨h1, h2, h3⟩ j hj
    cases hr : s.reader with
    | erase k =>
      obtain ⟨o, a, hl⟩ := h1 k hr
      obtain rfl := Option.some.inj ((doing_erase.1 hr).symm.trans hj)
      exact longDoing_iff.2 ⟨o, _, hl, begun_erase.2 ⟨a, rfl⟩⟩
    | program r d =>
      obtain ⟨o, a, hl⟩ := h2 r d hr
      obtain rfl := Option.some.inj ((doing_program.1 hr).symm.trans hj)
      exact longDoing_iff.2 ⟨o, _, hl, begun_program.2 ⟨a, rfl⟩⟩
    | commit =>
      obtain ⟨o, hl⟩ := h3 hr
      obtain rfl := Option.some.inj ((doing_commit.1 hr).symm.trans hj)
      exact longDoing_iff.2 ⟨o, _, hl, rfl⟩
    | idle => rw [hr] at hj; cases hj
    | fill f => rw [hr] at hj; cases hj
    | scan v => rw [hr] at hj; cases hj

/-! ## Masks -/

theorem ops_of_long (hr : t.reader.doing = s.reader.doing) (hl : t.ma.long = s.ma.long) : t.ops = s.ops := by
  unfold State.ops State.longDoing
  rw [hr, hl]

theorem ops_of_noLinks (h : t.noLinks = s.noLinks) : t.ops = s.ops := by
  obtain ⟨-, -, -, -, -, -, -, -, hr, -, -, -, hm, -⟩ := of_noLinks h
  exact ops_of_long (congrArg Reader.doing hr) (congrArg Agent.long hm)

theorem ops_of_noReply (h : t.noReply = s.noReply) (hl : t.ma.long = s.ma.long) : t.ops = s.ops := by
  obtain ⟨-, -, -, -, -, -, -, -, hr, -⟩ := of_noReply h
  exact ops_of_long (congrArg Reader.doing hr) hl

theorem ops_of_noCache (h : t.noCache = s.noCache) (hr : t.reader.doing = s.reader.doing) : t.ops = s.ops := by
  obtain ⟨-, -, -, -, -, -, -, -, -, -, -, -, -, hm, -⟩ := of_noCache h
  exact ops_of_long hr (congrArg Agent.long hm)

/-! ## Cache -/

theorem updFill_doing (g : Fill → Fill) (s : State) : (updFill g s).reader.doing = s.reader.doing := by
  unfold updFill
  split
  next h => rw [h]; rfl
  all_goals rfl

theorem pinLine_doing (l : LineId) (s : State) : (pinLine l s).reader.doing = s.reader.doing := by
  unfold pinLine
  split <;> rfl

@[simp] theorem request_ops (r : Source) (i : ImageId) (b : Nat) (s : State) : (request r i b s).ops = s.ops := by
  refine ops_of_noCache (request_noCache ..) ?_
  unfold request
  split
  · split
    · exact pinLine_doing ..
    · rfl
  · split
    · exact updFill_doing ..
    · split
      · rfl
      · split <;> rfl

@[simp] theorem requestBlocks_ops (k : SlotId) (s : State) : (requestBlocks k s).ops = s.ops := by
  unfold requestBlocks
  split
  · split
    · refine foldl_keeps State.ops _ (fun s b => ?_) _ s
      unfold requestBlock
      split
      · rfl
      · exact request_ops ..
    · rfl
  · rfl

@[simp] theorem requestAll_ops (s : State) : (requestAll s).ops = s.ops := foldl_keeps State.ops _ (fun s k => requestBlocks_ops k s) _ s

@[simp] theorem withdrawSlot_ops (k : SlotId) (s : State) : (withdrawSlot k s).ops = s.ops :=
  ops_of_noCache (withdrawSlot_noCache k s) (updFill_doing ..)

@[simp] theorem hitBlock_ops (i : ImageId) (b : Nat) (s : State) : (hitBlock i b s).ops = s.ops := by
  unfold hitBlock
  split
  · rfl
  · split <;> rfl

@[simp] theorem dropLines_ops (i : ImageId) (s : State) : (dropLines i s).ops = s.ops := rfl

@[simp] theorem dropFills_ops (i : ImageId) (s : State) : (dropFills i s).ops = s.ops := rfl

@[simp] theorem emptyLine_ops (l : LineId) (s : State) : (emptyLine l s).ops = s.ops := rfl

@[simp] theorem disownFill_ops (i : ImageId) (s : State) : (disownFill i s).ops = s.ops :=
  ops_of_noCache (disownFill_noCache i s) (updFill_doing ..)

@[simp] theorem clearPinMarks_ops (s : State) : (clearPinMarks s).ops = s.ops :=
  ops_of_noCache (clearPinMarks_noCache s) (updFill_doing ..)

@[simp] theorem discardFill_ops (i : ImageId) (s : State) : (discardFill i s).ops = s.ops := by
  refine ops_of_noCache (discardFill_noCache i s) ?_
  unfold discardFill
  split
  · split
    · exact updFill_doing ..
    · rfl
  all_goals rfl

/-! ## Replies and pins -/

@[simp] theorem placeOne_ops (s : State) : (placeOne s).ops = s.ops := ops_of_noReply (placeOne_noReply s) (placeReplies_long 1 s)

@[simp] theorem queueReply_ops (r : BuiltReply) (s : State) : (queueReply r s).ops = s.ops :=
  ops_of_noReply (queueReply_noReply r s) (placeReplies_long ..)

@[simp] theorem finalReply_ops (o : Origin) (st : Status) (d : List Byte) (x : Bool) (s : State) : (finalReply o st d x s).ops = s.ops :=
  ops_of_noReply (finalReply_noReply ..) (finalReply_long ..)

/-- The end of a long operation that has begun nothing on the flash. -/
theorem endLong_ops (h : s.longDoing = none) (st : Status) (d : List Byte) : (endLong st d s).ops = s.ops := by
  obtain ⟨-, -, -, -, -, -, -, -, hr, -⟩ := of_noReply (endLong_noReply st d s)
  have hl : (endLong st d s).longDoing = none := by
    unfold State.longDoing
    rw [endLong_long]
    rfl
  unfold State.ops
  rw [hr, hl, h]

theorem longDoing_pin {i : ImageId} (h : pinImage s = some i) : s.longDoing = none := by
  unfold pinImage at h
  split at h
  next hl =>
    unfold State.longDoing
    rw [hl]
    rfl
  next => cases h

@[simp] theorem setWaiting_ops (w : List Nat) (s : State) : (setWaiting w s).ops = s.ops := by
  unfold setWaiting
  split
  next i h =>
    have hd := longDoing_pin h
    have hj : (setJob (.pin i w) s).longDoing = none := by
      unfold State.longDoing
      rw [setJob_long]
      cases s.ma.long <;> rfl
    unfold State.ops
    rw [hd, hj]
    rfl
  next => rfl

@[simp] theorem pinDone_ops (s : State) : (pinDone s).ops = s.ops := by
  unfold pinDone
  split
  next h =>
    obtain ⟨i, hi⟩ := Option.isSome_iff_exists.1 h.1
    exact endLong_ops (longDoing_pin hi) ..
  next => rfl

@[simp] theorem endPin_ops (st : Status) (s : State) : (endPin st s).ops = s.ops := by
  unfold endPin
  split
  next h =>
    have hd : (clearPinMarks s).longDoing = none := (congrArg Prod.snd (clearPinMarks_ops s)).trans (longDoing_pin h)
    exact (endLong_ops hd ..).trans (clearPinMarks_ops s)
  next => rfl

@[simp] theorem endPinOn_ops (i : ImageId) (s : State) : (endPinOn i s).ops = s.ops := by
  unfold endPinOn
  split
  · exact endPin_ops ..
  · rfl

theorem takeWaiting_ops (i : ImageId) (bs : List Nat) (s : State) : (takeWaiting i bs s).ops = s.ops := by
  induction bs generalizing s with
  | nil => exact setWaiting_ops ..
  | cons b bs ih =>
    unfold takeWaiting
    split
    · exact setWaiting_ops ..
    · exact (ih _).trans (request_ops ..)

theorem pinBlocks_ops (i : ImageId) (bs : List Nat) (s : State) : (pinBlocks i bs s).ops = s.ops := by
  induction bs generalizing s with
  | nil => exact setWaiting_ops ..
  | cons b bs ih =>
    unfold pinBlocks
    split
    · exact setWaiting_ops ..
    · exact (ih _).trans (request_ops ..)

@[simp] theorem placeWaiting_ops (s : State) : (placeWaiting s).ops = s.ops := by
  unfold placeWaiting
  split
  · split
    · rfl
    · exact (pinDone_ops _).trans (takeWaiting_ops ..)
  · rfl

@[simp] theorem afterWithdraw_ops (b : Bool) (s : State) : (afterWithdraw b s).ops = s.ops := by
  unfold afterWithdraw
  split <;> simp

@[simp] theorem dropImage_ops (i : ImageId) (s : State) : (dropImage i s).ops = s.ops := by
  unfold dropImage
  simp

theorem startPin_ops (h : s.ma.long = none) (o : Origin) (i : ImageId) (a b : Nat) : (startPin o i a b s).ops = s.ops := by
  have hd : s.longDoing = none := by
    unfold State.longDoing
    rw [h]
    rfl
  unfold startPin
  simp only
  split
  · exact finalReply_ops ..
  · split
    · exact finalReply_ops ..
    · refine (pinDone_ops _).trans ((pinBlocks_ops ..).trans ?_)
      refine Prod.ext rfl (Eq.trans ?_ hd.symm)
      cases o <;> rfl

@[simp] theorem unpin_ops (i : ImageId) (a b : Nat) (s : State) : (unpin i a b s).ops = s.ops := by
  unfold unpin takeBack
  simp only
  split
  · refine (pinDone_ops _).trans ((setWaiting_ops ..).trans ?_)
    show (if _ then _ else _ : State).ops = _
    split
    · exact ops_of_noCache (updFill_noCache ..) (updFill_doing ..)
    · rfl
  · rfl

/-! ## Sessions -/

@[simp] theorem endSession_ops (k : SlotId) (s : State) : (endSession k s).ops = s.ops := by
  unfold endSession
  split
  · rfl
  · exact withdrawSlot_ops k s

@[simp] theorem failSlot_ops (k : SlotId) (c : Cause) (s : State) : (failSlot k c s).ops = s.ops := by
  refine Eq.trans ?_ (endSession_ops k s)
  rw [failSlot_only]
  show (flushHold k (endSession k s)).ops = _
  exact ops_of_noLinks (flushHold_noLinks k (endSession k s))

@[simp] theorem markBad_ops (i : ImageId) (s : State) : (markBad i s).ops = s.ops := by
  have hw : ∀ u, (withdrawImage i u).ops = u.ops := fun u => by
    unfold withdrawImage
    split
    · exact (placeWaiting_ops _).trans (dropFills_ops ..)
    · exact dropFills_ops ..
  refine (foldl_keeps State.ops _ (fun s k => failSlot_ops k .imageBad s) _ _).trans ?_
  exact (endPinOn_ops i _).trans ((disownFill_ops i _).trans ((dropLines_ops i _).trans (hw _)))

@[simp] theorem mismatch_ops (i : ImageId) (s : State) : (mismatch i s).ops = s.ops := by
  unfold mismatch
  split
  · exact (requestAll_ops _).trans (markBad_ops i s)
  · exact markBad_ops i s

end Sys2Proof.Machine
end

section
/-! PROOFS. One walk over the operations for the laws of pins: what such a law has to meet (`PinWalk`), and that every event then keeps
it. -/

namespace Sys2Proof.Machine

open Sys2Proof.Safety

variable {s t : State}

/-! ## Slots and links leave the flash operation -/

@[simp] theorem setClass_ops (k : SlotId) (c : ClassId) (s : State) : (setClass k c s).ops = s.ops := by
  unfold setClass
  split <;> rfl

@[simp] theorem judgeStale_ops (k : SlotId) (tag : Word32) (s : State) : (judgeStale k tag s).ops = s.ops := by
  unfold judgeStale
  split
  · rfl
  · split <;> rfl

@[simp] theorem survivorReturn_ops (k : SlotId) (c : Byte) (tag : Word32) (s : State) : (survivorReturn k c tag s).ops = s.ops := by
  unfold survivorReturn
  simp only
  split
  · exact failSlot_ops ..
  · unfold survive
    split
    · exact (failSlot_ops ..).trans (setClass_ops ..)
    · split
      · exact (failSlot_ops ..).trans (setClass_ops ..)
      · exact (judgeStale_ops ..).trans (setClass_ops ..)

@[simp] theorem statusAnswer_ops (k : SlotId) (p : List Byte) (s : State) : (statusAnswer k p s).ops = s.ops := by
  unfold statusAnswer takeStatus
  split
  · split
    · exact judgeStale_ops ..
    · exact survivorReturn_ops ..
    · exact survivorReturn_ops ..
    · exact failSlot_ops ..
    · exact failSlot_ops ..
    · exact failSlot_ops ..
    all_goals rfl
  · rfl

@[simp] theorem presenceLost_ops (k : SlotId) (s : State) : (presenceLost k s).ops = s.ops := by
  unfold presenceLost
  split
  · simp only
    split <;> rfl
  · exact failSlot_ops ..
  · exact failSlot_ops ..
  · exact failSlot_ops ..
  all_goals rfl

@[simp] theorem missTurn_ops (k : SlotId) (s : State) : (missTurn k s).ops = s.ops := by
  unfold missTurn
  split
  · exact presenceLost_ops k _
  · rfl

@[simp] theorem succeed_ops (k : SlotId) (s : State) : (succeed k s).ops = s.ops :=
  (ops_of_noLinks (releaseHold_noLinks k _)).trans (endSession_ops k s)

@[simp] theorem darkenAll_ops (s : State) : (darkenAll s).ops = s.ops := by
  refine foldl_keeps State.ops _ (fun s k => ?_) _ s
  unfold darken
  split
  · rfl
  · rfl
  all_goals exact endSession_ops k s

@[simp] theorem flushGap_ops (s : State) : (flushGap s).ops = s.ops := (ops_of_noLinks (refuseAll_noLinks ..)).trans rfl

@[simp] theorem checkLoaded_ops (k : SlotId) (s : State) : (checkLoaded k s).ops = s.ops := by
  unfold checkLoaded
  split
  · split
    · exact withdrawSlot_ops k _
    · rfl
  · rfl

@[simp] theorem capture_ops (c : CapSource) (f : Frame) (n : Option SlotId) (s : State) : (capture c f n s).ops = s.ops := by
  rw [capture_only]
  rfl

@[simp] theorem takeIn_ops (p : Port) (f : Frame) (s : State) : (takeIn p f s).2.ops = s.ops := ops_of_noLinks (takeIn_noLinks ..)

@[simp] theorem toTrunk_ops (b : BufId) (s : State) : (toTrunk b s).ops = s.ops := by
  unfold toTrunk
  split
  · rfl
  · exact ops_of_noLinks (countOverrun_noLinks ..)

@[simp] theorem updPort_ops (p : Port) (g : PortState → PortState) (s : State) : (updPort p g s).ops = s.ops :=
  ops_of_noLinks (updPort_noLinks ..)

@[simp] theorem countBad_ops (p : Port) (s : State) : (countBad p s).ops = s.ops := updPort_ops ..

@[simp] theorem toOutbound_ops (b : BufId) (f : Frame) (s : State) : (toOutbound b f s).ops = s.ops := by
  unfold toOutbound
  split
  · exact ops_of_noLinks (refuse_noLinks ..)
  · rfl

@[simp] theorem gateStation_ops (a : FwdAction) (b : BufId) (f : Frame) (s : State) : (gateStation a b f s).ops = s.ops := by
  have hr : ∀ r, (refuse r f s).ops = s.ops := fun r => ops_of_noLinks (refuse_noLinks ..)
  unfold gateStation
  split
  · exact hr _
  · split
    · exact toOutbound_ops ..
    · split
      · exact toOutbound_ops ..
      · split
        · split
          · rfl
          · exact hr _
        · exact hr _

@[simp] theorem gateGroup_ops (a : FwdAction) (b : BufId) (f : Frame) (s : State) : (gateGroup a b f s).ops = s.ops := by
  unfold gateGroup
  split
  · rfl
  · refine (foldl_keeps State.ops _ (fun s k => ?_) _ _).trans ?_
    · unfold holdCopy
      split <;> rfl
    · split
      · exact ops_of_noLinks (countOverrun_noLinks ..)
      · rfl

@[simp] theorem downstream_ops (b : BufId) (f : Frame) (s : State) : (downstream b f s).ops = s.ops := by
  have hc : (if (lookup .down .data f s).2 then capture .dataDown f none s else s).ops = s.ops := by
    split
    · exact capture_ops ..
    · rfl
  unfold downstream
  simp only
  split
  · exact hc
  all_goals
    split
    · exact (gateStation_ops ..).trans hc
    · exact (gateGroup_ops ..).trans hc

@[simp] theorem updOrigin_ops (o : Origin) (g : OriginRec → OriginRec) (s : State) : (updOrigin o g s).ops = s.ops := by
  cases o <;> rfl

@[simp] theorem takeRequest_ops (o : Origin) (f : Frame) (s : State) : (takeRequest o f s).ops = s.ops := by
  unfold takeRequest
  simp only
  split
  · exact updOrigin_ops ..
  · split
    · rfl
    · exact queueReply_ops ..

@[simp] theorem receiveOn_ops (l : Link) (bytes : List Byte) (s : State) : (receiveOn l bytes s).ops = s.ops := by
  have hin : ∀ {p f} {r : Option BufId × State}, takeIn p f s = r → r.2.ops = s.ops := fun h => h ▸ takeIn_ops ..
  unfold receiveOn
  split
  · exact updPort_ops ..
  · split
    · split
      next ht => exact hin ht
      next ht =>
        unfold handOver
        split
        · exact (downstream_ops ..).trans (hin ht)
        · exact (takeRequest_ops ..).trans (hin ht)
    · exact updPort_ops ..

/-! ## What a law of pins has to meet -/

/-- The long operation has no pins and nothing begun on the flash. -/
def LongPlain (s : State) : Prop := s.pinOf = none ∧ s.longDoing = none

/-- A job without pins that has begun nothing on the flash. -/
def LongJob.Plain (j : LongJob) : Prop := (∀ i w, j ≠ .pin i w) ∧ j.doing = none

theorem longPlain_of {l : LongOp} (h : s.ma.long = some l) (hj : l.job.Plain) : LongPlain s := by
  obtain ⟨o, j⟩ := l
  constructor
  · cases hp : s.pinOf with
    | none => rfl
    | some x =>
      obtain ⟨o', ho⟩ := pinOf_some.1 (show s.pinOf = some (x.1, x.2) from hp)
      rw [h] at ho
      cases ho
      exact absurd rfl (hj.1 _ _)
  · unfold State.longDoing
    rw [h]
    exact hj.2

theorem longPlain_none (h : s.ma.long = none) : LongPlain s := by
  constructor
  · unfold State.pinOf
    rw [h]
  · unfold State.longDoing
    rw [h]
    rfl

/-- A law of pins: it reads what pins read and the flash operation, and the operations on pins and fills keep it. -/
structure PinWalk (P : State → Prop) : Prop where
  keep {s t : State} : P s → t.pinKey = s.pinKey → t.ops = s.ops → P t
  reset (s : State) : P (fullReset s)
  request {r : Source} {s : State} (i : ImageId) (b : Nat) : P s → r ≠ .pin → P (request r i b s)
  placeWaiting {s : State} : P s → P (placeWaiting s)
  markBad {s : State} (i : ImageId) : P s → P (markBad i s)
  dropImage {s : State} (i : ImageId) : P s → P (dropImage i s)
  clearBad {s : State} (i : ImageId) : P s → P (updCat i (fun c => { c with bad := false }) s)
  startWork {s : State} : P s → s.reader = .idle → P (startWork s)
  judgeFill {s : State} {f : Fill} (bs : List Byte) : P s → s.reader = .fill f → P (judgeFill f bs s)
  flashDone {s : State} (ok : Bool) (m : Memory) : P s → OpHolds s → s.reader.doing ≠ none → P (flashDone ok m s)
  startPin {s : State} (o : Origin) (i : ImageId) (first last : Nat) : P s → s.ma.long = none → P (startPin o i first last s)
  unpin {s : State} (i : ImageId) (first last : Nat) : P s → P (unpin i first last s)
  engineReset {s : State} : P s → P (engineReset s)

section Walk

variable {P : State → Prop} {k : SlotId}

namespace PinWalk

theorem foldl {α : Type} {f : State → α → State} (hf : ∀ s a, P s → P (f s a)) (l : List α) (hs : P s) : P (l.foldl f s) := by
  induction l generalizing s with
  | nil => exact hs
  | cons a l ih => exact ih (hf _ a hs)

theorem links (L : PinWalk P) (hs : P s) (h : t.noLinks = s.noLinks) : P t := L.keep hs (pinKey_of_noLinks h) (ops_of_noLinks h)

theorem final (L : PinWalk P) (hs : P s) (o : Origin) (st : Status) (d : List Byte) (x : Bool) : P (finalReply o st d x s) :=
  L.keep hs (finalReply_pinKey ..) (finalReply_ops ..)

theorem fail (L : PinWalk P) (hs : P s) (k : SlotId) (c : Cause) : P (failSlot k c s) :=
  L.keep hs (failSlot_pinKey ..) (failSlot_ops ..)

theorem requestBlocks (L : PinWalk P) (hs : P s) (k : SlotId) : P (Machine.requestBlocks k s) := by
  unfold Machine.requestBlocks
  split
  next x _ =>
    split
    · refine foldl (P := P) (f := fun s b => requestBlock k x.img b s) (fun _ b hs => ?_) _ hs
      unfold requestBlock
      split
      · exact hs
      · exact L.request _ _ hs (by simp)
    · exact hs
  next => exact hs

theorem requestAll (L : PinWalk P) (hs : P s) : P (Machine.requestAll s) := foldl (P := P) (fun _ k hs => L.requestBlocks hs k) _ hs

/-! ## Long operations without pins -/

theorem endLong_keep (hp : LongPlain s) (st : Status) (d : List Byte) : (endLong st d s).pinKey = s.pinKey ∧ (endLong st d s).ops = s.ops := by
  obtain ⟨h1, h2⟩ := hp
  exact ⟨Prod.ext (endLong_marks ..) ((endLong_pinOf ..).trans h1.symm), endLong_ops h2 ..⟩

theorem endLong (L : PinWalk P) (hs : P s) (hp : LongPlain s) (st : Status) (d : List Byte) : P (Machine.endLong st d s) :=
  L.keep hs (endLong_keep hp st d).1 (endLong_keep hp st d).2

theorem setJob_long {j : LongJob} (hj : j.Plain) (s : State) : LongPlain (setJob j s) := by
  cases h : s.ma.long with
  | none => exact longPlain_none (by rw [Machine.setJob_long, h]; rfl)
  | some l => exact longPlain_of (l := { l with job := j }) (by rw [Machine.setJob_long, h]; rfl) hj

theorem setJob (L : PinWalk P) (hs : P s) (hp : LongPlain s) {j : LongJob} (hj : j.Plain) : P (Machine.setJob j s) := by
  obtain ⟨h1, h2⟩ := setJob_long hj s
  exact L.keep hs (Prod.ext rfl (h1.trans hp.1.symm)) (Prod.ext rfl (h2.trans hp.2.symm))

theorem accept (L : PinWalk P) (hs : P s) (hl : s.ma.long = none) (o : Origin) {j : LongJob} (hj : j.Plain) : P (Machine.accept o j s) := by
  have h0 := longPlain_none hl
  have h1 : LongPlain (Machine.accept o j s) := longPlain_of (l := ⟨o, j⟩) (by cases o <;> rfl) hj
  refine L.keep hs (Prod.ext ?_ (h1.1.trans h0.1.symm)) (Prod.ext ?_ (h1.2.trans h0.2.symm))
  · cases o <;> rfl
  · cases o <;> rfl

theorem mismatch (L : PinWalk P) (hs : P s) (i : ImageId) : P (Machine.mismatch i s) := by
  unfold Machine.mismatch
  split
  · exact L.requestAll (L.markBad i hs)
  · exact L.markBad i hs

theorem mismatch_plain (hp : LongPlain s) (i : ImageId) : LongPlain (Machine.mismatch i s) :=
  ⟨mismatch_pinOf hp.1 i, (congrArg Prod.snd (mismatch_ops i s)).trans hp.2⟩

theorem selfCheck_plain (c : SelfCheck) : (LongJob.selfCheck c).Plain := ⟨fun _ _ h => (nomatch h), rfl⟩

theorem runChecks (L : PinWalk P) (n : Nat) (c : SelfCheck) (hs : P s) (hp : LongPlain s) : P (Machine.runChecks n c s) := by
  induction n generalizing c s with
  | zero => exact L.endLong hs hp ..
  | succ n ih =>
    unfold Machine.runChecks
    simp only
    split
    · split
      · exact L.setJob hs hp (selfCheck_plain _)
      · split
        · exact ih _ hs hp
        · exact ih _ (L.mismatch hs _) (mismatch_plain hp _)
    · exact ih _ hs hp

theorem scanTaken (L : PinWalk P) (hs : P s) (live : Bool) (read : Disturb) : P (Machine.scanTaken live read s) := by
  unfold Machine.scanTaken
  split
  next hl =>
    have hp : LongPlain s := longPlain_of hl (selfCheck_plain _)
    unfold scanned
    split
    · unfold scanIdentity
      split
      · exact L.setJob hs hp (selfCheck_plain _)
      · exact L.endLong hs hp ..
    · unfold scanStore
      simp only
      split
      · exact L.setJob hs hp (selfCheck_plain _)
      · exact L.runChecks _ _ hs hp
    · exact L.runChecks _ _ hs hp
  next => exact hs

theorem restartCheck (L : PinWalk P) (hs : P s) (i : ImageId) : P (Machine.restartCheck i s) := by
  have hd : (dropScan s).pinKey = s.pinKey ∧ (dropScan s).ops = s.ops ∧ (dropScan s).ma = s.ma := by
    unfold dropScan
    split
    next h => exact ⟨by simp [State.pinKey, State.marks, State.pinOf, h, Reader.mark], Prod.ext (by simp [State.ops, h, Reader.doing]) rfl, rfl⟩
    all_goals exact ⟨rfl, rfl, rfl⟩
  unfold Machine.restartCheck
  split
  next hl =>
    split
    · exact L.runChecks _ _ (L.keep hs hd.1 hd.2.1) (longPlain_of (by rw [hd.2.2]; exact hl) (selfCheck_plain _))
    · exact hs
  next => exact hs

/-! ## Answers -/

theorem openSession (L : PinWalk P) (hs : P s) (k : SlotId) (i : ImageId) (w : Bool) : P (Machine.openSession k i w s) := by
  unfold Machine.openSession
  refine L.requestBlocks ?_ k
  exact L.keep hs ((updCat_pinKey rfl).trans (updSlot_pinKey ..)) rfl

theorem resolve (L : PinWalk P) (hs : P s) (k : SlotId) (b : BootCall) : P (Machine.resolve k b s) := by
  unfold Machine.resolve
  split
  · exact L.fail hs ..
  · have hc : P (setClass k (classLookup b.cls.toNat s) s) := L.keep hs (setClass_pinKey ..) (setClass_ops ..)
    generalize setClass k _ s = u at hc
    unfold resolveImage
    split
    · exact L.fail hc ..
    · simp only
      split
      · exact L.fail hc ..
      · split
        · exact L.fail hc ..
        · split
          · exact L.fail hc ..
          · refine L.openSession (L.keep hc (updSlot_pinKey ..) rfl) ..

theorem bootCallAnswer (L : PinWalk P) (hs : P s) (k : SlotId) (p : List Byte) : P (Machine.bootCallAnswer k p s) := by
  have he : P (raise .restarted (.slot k) none (endSession k s)) :=
    L.keep hs ((raise_pinKey ..).trans (endSession_pinKey k s)) (endSession_ops k s)
  unfold Machine.bootCallAnswer
  split
  · split
    · unfold takeBootCall
      split
      · exact L.resolve hs ..
      · exact L.resolve hs ..
      · refine L.resolve ?_ ..
        split
        · exact L.keep hs (updSlot_pinKey ..) rfl
        · exact L.keep hs (raise_pinKey ..) rfl
      · exact L.resolve he ..
      · exact L.resolve he ..
      · exact L.resolve he ..
      all_goals exact hs
    · exact hs
  · exact hs

theorem takeLoadAck (L : PinWalk P) (hs : P s) (k : SlotId) (x : Session) (p : List Byte) : P (Machine.takeLoadAck k x p s) := by
  have hu : ∀ g {u}, P u → P (updSession k g u) := fun g u hu => L.keep hu (updSession_pinKey ..) rfl
  have hc : ∀ {u}, P u → P (checkLoaded k u) := fun hu => L.keep hu (checkLoaded_pinKey ..) (checkLoaded_ops ..)
  unfold Machine.takeLoadAck
  simp only
  split
  · exact L.fail hs ..
  · unfold applyResend
    split
    · exact hc (hu _ hs)
    · split
      · exact L.fail (hu _ hs) ..
      · exact hc (L.requestBlocks (hu _ (hu _ hs)) k)

theorem restoreAnswer (L : PinWalk P) (hs : P s) (k : SlotId) (d : Kind) (p : List Byte) : P (Machine.restoreAnswer k d p s) := by
  have hslot : ∀ g, P (updSlot k g s) := fun g => L.keep hs (updSlot_pinKey ..) rfl
  unfold Machine.restoreAnswer
  split
  · exact hs
  · split
    · exact L.takeLoadAck hs ..
    · split
      · unfold takeStarted
        split
        · exact L.fail hs ..
        · split
          · exact L.keep (hslot _) (updSession_pinKey ..) rfl
          · refine L.fail ?_ ..
            split
            · exact hslot _
            · exact hs
      · exact hs
    · split
      · unfold takeReady
        split
        · exact L.fail hs ..
        · split
          · exact L.fail hs ..
          · split
            · exact L.fail hs ..
            · exact L.keep hs (succeed_pinKey ..) (succeed_ops ..)
      · exact hs
    · exact hs

theorem capture (L : PinWalk P) (hs : P s) (c : CapSource) (f : Frame) (n : Option SlotId) : P (Machine.capture c f n s) :=
  L.keep hs (capture_pinKey ..) (capture_ops ..)

theorem toTrunk (L : PinWalk P) (hs : P s) (b : BufId) : P (Machine.toTrunk b s) := L.keep hs (toTrunk_pinKey ..) (toTrunk_ops ..)

theorem dispatch (L : PinWalk P) (hs : P s) (k : SlotId) (b : BufId) (f : Frame) : P (Machine.dispatch k b f s) := by
  unfold Machine.dispatch
  split
  · exact L.bootCallAnswer hs ..
  · exact L.restoreAnswer hs ..
  · exact L.restoreAnswer hs ..
  · exact L.restoreAnswer hs ..
  · have hb := L.capture (L.keep hs (statusAnswer_pinKey k f.payload s) (statusAnswer_ops ..)) .status f (some k)
    unfold upstreamStatus
    split
    · exact hb
    · exact L.toTrunk hb _
    · exact L.toTrunk hb _
  · unfold upstreamData
    split
    · have hc : P (if (lookup .up .data f s).2 then Machine.capture .dataUp f (some k) s else s) := by
        split
        · exact L.capture hs ..
        · exact hs
      simp only
      split
      · exact hc
      · exact L.toTrunk hc _
      · exact L.toTrunk hc _
    · exact L.links hs (countOrphan_noLinks s)
  all_goals exact hs

theorem missTurn (L : PinWalk P) (hs : P s) (k : SlotId) : P (Machine.missTurn k s) := L.keep hs (missTurn_pinKey ..) (missTurn_ops ..)

theorem segmentJudged (L : PinWalk P) (hs : P s) (w : Bool) : P (Machine.segmentJudged w s) := by
  have hbad : P (countBad .segment s) := L.links hs (countBad_noLinks ..)
  unfold Machine.segmentJudged
  split
  next u _ =>
    have hm : ∀ v, P v → P (if u.void || u.closed then v else Machine.missTurn u.slot v) := by
      intro v hv
      split
      · exact hv
      · exact L.missTurn hv _
    unfold judgeAnswer
    simp only
    split
    · exact hm _ hbad
    · split
      · unfold takeAnswer
        simp only
        have hb : P (if u.void then s else updSlot u.slot (fun x => { x with miss := 0 }) s) := by
          split
          · exact hs
          · exact L.keep hs (updSlot_pinKey ..) rfl
        have hin := fun {f} {r : Option BufId × State} (h : takeIn .segment f _ = r) => L.links hb (h ▸ takeIn_noLinks ..)
        split
        next ht => exact hin ht
        next ht =>
          refine L.links ?_ (reclaim_noLinks ..)
          split
          · exact hin ht
          · exact L.dispatch (hin ht) ..
      · exact hm _ hbad
  next => exact hbad

/-! ## Tables -/

theorem links_slots (L : PinWalk P) (hs : P s) (k : SlotId) (g : SlotStatus → SlotStatus) : P (updSlot k g s) :=
  L.keep hs (updSlot_pinKey ..) rfl

theorem trimHold (L : PinWalk P) (hs : P s) (n : Nat) (k : SlotId) : P (Machine.trimHold n k s) := by
  refine foldl (P := P) (f := fun s b => trimEntry k b s) (fun s b hs => ?_) _ (L.links hs (updQueues_noLinks ..))
  unfold trimEntry
  split
  · split
    · exact L.links hs (refuseEntry_noLinks ..)
    · exact L.links (L.links_slots hs k _) (dropRef_noLinks ..)
  · exact L.links hs (dropRef_noLinks ..)

theorem forFree (L : PinWalk P) {α : Type} {f : α → State → State} (hf : ∀ s a, P s → P (f a s)) (l : List α) (hs : P s) :
    P (Machine.forFree l f s) := foldl (P := P) (fun s a => hf s a) _ (L.keep hs rfl rfl)

theorem setClassEntry (L : PinWalk P) (hs : P s) (c : ClassId) (e : ClassEntry) : P (Machine.setClassEntry c e s).2 := by
  unfold Machine.setClassEntry
  split
  · exact hs
  · refine foldl (P := P) (fun t k ht => ?_) _ (L.keep hs rfl rfl)
    unfold touchClass
    simp only
    split
    · exact L.keep (L.links_slots ht k _) (setCtx_pinKey ..) rfl
    · exact L.links_slots ht k _

theorem setSlotEntry (L : PinWalk P) (hs : P s) (k : SlotId) (e : SlotEntry) : P (Machine.setSlotEntry k e s).2 := by
  have hw : P { s with tables := { s.tables with slots := s.tables.slots.set k e } } := L.keep hs rfl rfl
  have hn : P (slotEffects k s.tables.slots[k] e { s with tables := { s.tables with slots := s.tables.slots.set k e } }) := by
    unfold slotEffects
    split
    · split
      · exact L.keep hw rfl rfl
      · split
        · exact L.keep hw (setClass_pinKey ..) (setClass_ops ..)
        · exact hw
    · split
      · exact L.keep hw rfl rfl
      · exact hw
  unfold Machine.setSlotEntry
  split
  · exact hs
  · split
    · exact hs
    · simp only
      split
      · unfold voidTurn
        split
        · exact L.keep hn (updSeg_pinKey ..) rfl
        · exact hn
      · exact hn

theorem setCatEntry (L : PinWalk P) (hs : P s) (i : ImageId) (e : CatEntry) : P (Machine.setCatEntry i e s).2 := by
  unfold Machine.setCatEntry
  split
  · exact hs
  · have hw : P { s with tables := { s.tables with cat := s.tables.cat.set i e } } := L.keep hs rfl rfl
    have hd := L.dropImage i (L.clearBad i hw)
    simp only
    refine L.restartCheck ?_ i
    split
    · refine L.forFree (fun t k ht => ?_) _ hd
      have hb := L.links_slots ht k (fun x => { x with expTag := some e.tag, stale := true })
      unfold outdate
      simp only
      split
      · exact hb
      · exact L.keep hb (raise_pinKey ..) rfl
    · exact hd

theorem writeConfig (L : PinWalk P) (hs : P s) (t i : Nat) (b : List Byte) : P (Machine.writeConfig t i b s).2 := by
  unfold Machine.writeConfig
  split
  · split
    · exact L.forFree (fun s k hs => L.trimHold hs _ k) _ (L.keep hs rfl rfl)
    · exact hs
  · split
    · exact L.setClassEntry hs ..
    · exact hs
  · split
    · exact L.setSlotEntry hs ..
    · exact hs
  · split
    · exact L.setCatEntry hs ..
    · exact hs
  · split
    · exact L.keep hs rfl rfl
    · exact hs
  · split
    · exact L.keep hs rfl rfl
    · exact hs
  · exact hs

theorem carryOut (L : PinWalk P) (hs : P s) (o : Origin) (t i : Nat) (e : List Byte) : P (Machine.carryOut o t i e s) := by
  have hw := L.writeConfig hs t i e
  unfold Machine.carryOut
  split
  next he =>
    rw [he] at hw
    exact L.final (s := noteWrite t i _) (L.keep hw rfl rfl) ..
  next he =>
    rw [he] at hw
    exact L.final hw ..

/-! ## Requests -/

theorem prefetch (L : PinWalk P) (hs : P s) (i : ImageId) (first last : Nat) : P (Machine.prefetch i first last s) := by
  unfold Machine.prefetch
  split
  · exact foldl (P := P) (f := fun s b => Machine.request .prefetch i b s) (fun _ b hs => L.request i b hs (by simp)) _ hs
  · exact hs

theorem workOf (L : PinWalk P) (hs : P s) (c : ReqCode) (hl : c.isLong = true → s.ma.long = none) (o : Origin) (a : List Byte) :
    P (Machine.workOf c o a s) := by
  have hr : ∀ st t, P t → P (reply o st t) := fun st t ht => L.final ht ..
  have hk : ∀ d t, P t → P (replyOk o d t) := fun d t ht => L.final ht ..
  have hma : ∀ g, (g s.ma).long = s.ma.long → P (updMa g s) := fun g hg =>
    L.keep hs (pinKey_of rfl rfl rfl hg) (ops_of_long rfl hg)
  have horigin : ∀ g, P (Machine.updOrigin o g s) := fun g => L.keep hs (updOrigin_pinKey ..) (updOrigin_ops ..)
  have hslot : ∀ f : Origin → SlotId → State → State, (∀ k, P (f o k s)) → P (onSlot f o a s) := by
    intro f hf
    unfold onSlot
    split
    · exact hf _
    · exact hr _ _ hs
  cases c
  case readEntry =>
    show P (doReadEntry o a s)
    unfold doReadEntry
    split
    · exact hk _ _ hs
    · exact hr _ _ hs
  case readLink =>
    show P (doReadLink o a s)
    unfold doReadLink
    split
    · exact hr _ _ hs
    · split
      · exact hk _ _ (horigin _)
      · exact hr _ _ hs
  case writeEntry =>
    show P (doWriteEntry o a s)
    unfold doWriteEntry
    split
    · exact hr _ _ hs
    · exact L.carryOut hs ..
  case writeCond =>
    show P (doWriteCond o a s)
    unfold doWriteCond
    split
    · exact hr _ _ hs
    · simp only
      split
      · exact L.carryOut (horigin _) ..
      · exact hr _ _ (horigin _)
  case readRange =>
    show P (doReadRange o a s)
    unfold doReadRange
    split
    · exact L.accept (s := updMa (fun m => { m with restartMark := false }) s) (hma _ rfl) (hl rfl) o ⟨fun _ _ h => (nomatch h), rfl⟩
    · exact hr _ _ hs
  case setContext =>
    show P (doSetContext o a s)
    unfold doSetContext
    split
    · unfold setContext
      split
      · exact hr _ _ hs
      · split
        · exact hr _ _ hs
        · exact hr _ _ (L.keep hs (setCtx_pinKey ..) rfl)
    · exact hr _ _ hs
  case clearContext => exact hslot _ fun k => hr _ _ (L.keep hs (setCtx_pinKey ..) rfl)
  case permit =>
    show P (doPermit o a s)
    unfold doPermit
    split
    · exact hr _ _ (L.keep hs rfl rfl)
    · exact hr _ _ hs
  case reload =>
    refine hslot _ fun k => ?_
    unfold reload
    split
    iterate 3 exact hr _ _ (L.links_slots hs k _)
    all_goals exact hr _ _ hs
  case clear =>
    refine hslot _ fun k => ?_
    unfold clearSlot
    split
    · exact hr _ _ (L.links_slots hs k _)
    all_goals exact hr _ _ hs
  case clearRetries => exact hslot _ fun k => hr _ _ (L.links_slots hs k _)
  case pin =>
    show P (doPin o a s)
    unfold doPin
    split
    · exact L.startPin _ _ _ _ hs (hl rfl)
    · exact hr _ _ hs
  case unpin =>
    show P (doUnpin o a s)
    unfold doUnpin
    split
    · exact hr _ _ (L.unpin _ _ _ hs)
    · exact hr _ _ hs
  case prefetch =>
    show P (doPrefetch o a s)
    unfold doPrefetch
    split
    · exact hr _ _ (L.prefetch hs ..)
    · exact hr _ _ hs
  case invalidate =>
    show P (doInvalidate o a s)
    unfold doInvalidate
    split
    · split
      · exact hr _ _ hs
      · exact hr _ _ (L.dropImage _ hs)
    · exact hr _ _ hs
  case eraseSector =>
    show P (doEraseSector o a s)
    unfold doEraseSector
    split
    · exact hr _ _ hs
    · split
      · exact hr _ _ hs
      · exact L.accept hs (hl rfl) o ⟨fun _ _ h => (nomatch h), rfl⟩
  case writeRecord =>
    show P (doWriteRecord o a s)
    unfold doWriteRecord
    simp only
    split
    · exact hr _ _ hs
    · split
      · exact hr _ _ hs
      · exact L.accept hs (hl rfl) o ⟨fun _ _ h => (nomatch h), rfl⟩
  case readAttn =>
    show P (doReadAttn o a s)
    unfold doReadAttn
    split
    · exact L.final hs ..
    · exact hk _ _ (L.keep hs rfl rfl)
  case clearAttn => exact hr _ _ (L.keep hs rfl rfl)
  case commit => exact L.accept hs (hl rfl) o ⟨fun _ _ h => (nomatch h), rfl⟩
  case selfCheck => exact L.accept hs (hl rfl) o (selfCheck_plain _)
  case engineReset =>
    show P (doEngineReset o a s)
    unfold doEngineReset
    split
    · exact hr _ _ hs
    · exact hr _ _ (L.engineReset hs)
  case fullReset =>
    show P (doFullReset o a s)
    unfold doFullReset
    split
    · exact hr _ _ hs
    · exact L.final (hma _ rfl) ..

theorem serveRow (L : PinWalk P) (hs : P s) (c : ReqCode) : P (Machine.serveRow c (Machine.workOf c) s) := by
  unfold Machine.serveRow
  split
  · split
    · unfold serve
      refine L.keep ?_ (turnPointer_pinKey ..) rfl
      split
      · exact L.final hs ..
      · split
        · exact L.final hs ..
        next hb =>
          refine L.workOf hs c (fun hc => ?_) ..
          rw [hc, Bool.true_and] at hb
          exact Option.not_isSome_iff_eq_none.1 hb
    · exact hs
  · exact hs

theorem refuseRequest (L : PinWalk P) (hs : P s) : P (Machine.refuseRequest s) := by
  unfold Machine.refuseRequest
  split
  · split
    · exact L.keep (L.final hs ..) (turnPointer_pinKey ..) rfl
    · exact hs
  · exact hs

theorem sendRange (L : PinWalk P) (hs : P s) {l : LongOp} (hl : s.ma.long = some l) {u a b : Nat} (hj : l.job = .readRange u a b) (o : Origin) :
    P (Machine.sendRange o u a b s) := by
  have hplain : ∀ u a b, (LongJob.readRange u a b).Plain := fun _ _ _ => ⟨fun _ _ h => (nomatch h), rfl⟩
  unfold Machine.sendRange
  split
  · split
    · exact hs
    · simp only
      split
      · exact hs
      next b' v ha =>
        have hb : P (pushTx o ⟨b', false⟩ v) := L.links hs (by
          cases o
          · exact (pushTrunk_noLinks ..).trans (alloc_noLinks ha)
          · exact (pushService_noLinks ..).trans (alloc_noLinks ha))
        have hlong : (pushTx o ⟨b', false⟩ v).ma.long = some l := by
          obtain ⟨-, rfl⟩ := alloc_spec ha
          cases o <;> exact hl
        have hp := longPlain_of hlong (hj ▸ hplain _ _ _)
        unfold afterFrame
        split
        · exact L.setJob hb hp (hplain _ _ _)
        · refine L.keep ?_ (updOrigin_pinKey ..) (updOrigin_ops ..)
          exact L.keep hb (Prod.ext rfl hp.1.symm) (Prod.ext rfl hp.2.symm)
  · exact hs

/-! ## Every event -/

theorem sent (L : PinWalk P) (hs : P s) (p : Port) (e : TxEntry) : P (Machine.sent p e s) := by
  unfold Machine.sent
  simp only
  split
  · exact L.reset _
  · exact L.links hs ((countSent_noLinks ..).trans (dropRef_noLinks ..))

theorem txEnded (L : PinWalk P) (hs : P s) (tx : SegTx) : P (Machine.txEnded tx s) := by
  cases tx with
  | turn f =>
    show P (turnSent s)
    unfold turnSent
    split <;> exact L.keep hs rfl rfl
  | restore f => exact L.keep hs rfl rfl
  | reboot f k => exact L.keep (L.links_slots hs k (fun x => { x with reboot := none })) rfl rfl
  | outbound =>
    have hp : P (popOut s) := by
      unfold popOut
      split
      · exact hs
      · exact L.links hs ((dropRef_noLinks ..).trans (updQueues_noLinks ..))
    exact L.keep hp rfl rfl

theorem loaded (L : PinWalk P) (hs : P s) (stored : Option Tables) (m : Memory) (c : Option CutOp) :
    P (startLine { loadTables stored { s with flash := m, cut := c } with phase := .running }) := by
  cases stored with
  | some t => exact L.keep hs rfl rfl
  | none => exact L.keep hs rfl rfl

/-- Every event keeps the law, given what the reader runs. -/
theorem event (L : PinWalk P) (hs : P s) (ho : OpHolds s) (hu : Event s t) : P t := by
  have hstage : ∀ p bs {u}, P u → P (stage p bs u) := fun p bs u hu => L.links hu (updPort_noLinks ..)
  cases hu with
  | frame l bytes _ => exact hstage _ _ (L.keep (hstage _ _ hs) (receiveOn_pinKey ..) (receiveOn_ops ..))
  | answerBegins _ _ => exact L.keep hs rfl rfl
  | strayBegins _ _ => exact L.keep hs rfl rfl
  | segmentFrame w bytes _ => exact L.keep (hstage .segment [] (L.segmentJudged (hstage .segment bytes hs) w)) rfl rfl
  | windowExpires _ =>
    refine L.keep (t := leavePort (windowMissed s)) (s := windowMissed s) ?_ rfl rfl
    unfold windowMissed
    split
    · split
      · exact hs
      · exact L.missTurn hs _
    · exact hs
  | segmentSent tx _ => exact L.txEnded (L.links hs (countSent_noLinks ..)) tx
  | trunkSent e es he => exact L.sent (L.links hs (updQueues_noLinks ..)) ..
  | serviceSent e es he => exact L.sent (L.links hs (updQueues_noLinks ..)) ..
  | lineFalls _ =>
    unfold lineFell
    split <;> exact L.keep hs rfl rfl
  | lineRises _ =>
    unfold lineRose
    split <;> exact L.keep hs rfl rfl
  | gap _ =>
    refine L.keep (t := confirmGap s) hs ?_ ?_
    · refine (clearRequests_pinKey _).trans ((silence_pinKey _).trans ((flushGap_pinKey _).trans ((darkenAll_pinKey _).trans rfl)))
    · have hc : ∀ u : State, (closeTurn u).ops = u.ops := fun u => by
        unfold closeTurn
        split <;> rfl
      have hg := (flushGap_ops _).trans (darkenAll_ops (updLm (fun l =>
        { l with line := .gap, deglitch := none, gaps := satAdd 65535 l.gaps }) s))
      unfold confirmGap silence
      generalize flushGap _ = v at hg ⊢
      exact (hc (updSeg (fun g => { g with silent := true }) v)).trans hg
  | lineUp _ => exact L.keep hs rfl rfl
  | retry k _ => exact L.links_slots hs k _
  | stalled k _ => exact L.fail hs ..
  | reset => exact L.reset s
  | loaded left read _ => exact L.loaded hs ..
  | readerStarts hr => exact L.startWork hs hr
  | fillRead f bs hr => exact L.judgeFill bs hs hr
  | erased kept read k hr => exact L.flashDone _ _ hs ho (by rw [hr]; exact fun h => nomatch h)
  | programmed blank prog back r d hr => exact L.flashDone _ _ hs ho (by rw [hr]; exact fun h => nomatch h)
  | committed prog back hr => exact L.flashDone _ _ hs ho (by rw [hr]; exact fun h => nomatch h)
  | scanRead live read hr =>
    refine L.scanTaken (L.keep hs ?_ ?_) ..
    · simp [State.pinKey, State.marks, State.pinOf, idleReader, hr, Reader.mark]
    · exact Prod.ext (by rw [show s.ops.1 = s.reader.doing from rfl, hr]; rfl) rfl
  | replyPlaced => exact L.keep hs (placeOne_pinKey s) (placeOne_ops s)
  | rangeFrame l t a b hl hj => exact L.sendRange hs hl hj _
  | pinPlaced => exact L.placeWaiting hs
  | row c => exact L.serveRow hs c
  | noCode => exact L.refuseRequest hs

/-! ## The end of a step -/

theorem grant (L : PinWalk P) (hs : P s) (k : SlotId) : P (Machine.grant k s) := by
  have hu : ∀ g {u}, P u → P (updSession k g u) := fun g u hu => L.keep hu (updSession_pinKey ..) rfl
  unfold Machine.grant
  split
  · split
    · unfold grantBlock
      refine L.requestBlocks (hu _ (L.keep ?_ (hitBlock_pinKey ..) (hitBlock_ops ..))) k
      exact L.keep hs (updSeg_pinKey ..) rfl
    · exact hu _ (L.keep hs (updSeg_pinKey ..) rfl)
    · exact hu _ (L.keep hs (updSeg_pinKey ..) rfl)
    all_goals exact hs
  · unfold grantReboot
    split
    · exact L.keep hs (updSeg_pinKey ..) rfl
    · exact hs

theorem finish (L : PinWalk P) (hs : P s) : P (Machine.finish s) := by
  have hc : P (choose s) := by
    unfold choose
    split
    · exact L.grant (L.keep hs (updSeg_pinKey ..) rfl) _
    · split
      · exact L.keep hs rfl rfl
      · unfold chooseTurn
        split
        · exact L.keep hs rfl rfl
        · split
          · exact L.keep hs rfl rfl
          · exact hs
  unfold Machine.finish
  split
  · exact L.keep hc (settleOutputs_pinKey _) rfl
  · exact L.keep hs (settleOutputs_pinKey _) rfl

end PinWalk
end Walk
end Sys2Proof.Machine
end

section
/-! PROOFS. The reader runs only what the long operation has begun, and the balance of a running PIN, at every event (O16). -/

namespace Sys2Proof.Machine

open Sys2Proof.Safety

variable {s t : State}

/-! ## The reader and the long operation -/

theorem opHolds_idle (h : s.reader.doing = none) : OpHolds s := fun j hj => by
  rw [h] at hj
  cases hj

theorem opHolds_startWork (h : OpHolds s) : OpHolds (startWork s) := by
  unfold startWork
  split
  · unfold startLong
    split
    next => exact h
    next l hl =>
      have hbegun : ∀ j : LongJob, (setJob j s).longDoing = j.doing := fun j => by
        unfold State.longDoing
        rw [setJob_long, hl]
        rfl
      split
      next => exact fun j hj => (hbegun _).trans hj
      next k a _ => exact fun j hj => (hbegun (.erase k true a)).trans hj
      next r d a _ => exact fun j hj => (hbegun (.program r d true a)).trans hj
      next => exact opHolds_idle rfl
      all_goals exact h
  · split
    · exact (opHolds_idle (s := { updBc _ s with reader := .fill _ }) rfl).congr (placeWaiting_ops _)
    · exact h

theorem judgeFill_ops {f : Fill} (hr : s.reader = .fill f) (bs : List Byte) : (judgeFill f bs s).ops = s.ops := by
  have hi : (idleReader s).ops = s.ops := Prod.ext (by rw [show s.ops.1 = s.reader.doing from rfl, hr]; rfl) rfl
  have he : (emptyLine f.line (idleReader s)).ops = s.ops := hi
  unfold judgeFill
  split
  · exact (requestAll_ops _).trans he
  · split
    · split
      · exact (requestAll_ops _).trans he
      · unfold fillValid
        refine (requestAll_ops _).trans ?_
        split
        · exact (pinDone_ops _).trans ((ops_of_noCache (pinLine_noCache ..) (pinLine_doing ..)).trans hi)
        · exact hi
    · split
      · unfold leftoverFailed returnPin
        refine (requestAll_ops _).trans ?_
        split
        · exact (placeWaiting_ops _).trans ((setWaiting_ops ..).trans he)
        · exact he
      · split
        · exact (requestAll_ops _).trans ((markBad_ops ..).trans he)
        · exact Prod.ext (by rw [show s.ops.1 = s.reader.doing from rfl, hr]; rfl) rfl

theorem resetCache_ops (s : State) : (resetCache s).ops = s.ops := by
  unfold resetCache
  simp only
  split
  next h => exact Prod.ext (congrArg Reader.doing h).symm rfl
  next h => exact Prod.ext (congrArg Reader.doing h).symm rfl
  all_goals rfl

theorem abortLong_ops (s : State) : (abortLong s).ops = s.ops := by
  unfold abortLong
  split
  next => rfl
  next l hl =>
    have hd : ∀ j, l.job = j → s.longDoing = j.doing := fun j hj => by
      unfold State.longDoing
      rw [hl]
      exact congrArg LongJob.doing hj
    have hset : ∀ j : LongJob, (setJob j s).longDoing = j.doing := fun j => by
      unfold State.longDoing
      rw [setJob_long, hl]
      rfl
    split
    next hj => exact endLong_ops (hd _ hj) ..
    next hj => exact endLong_ops (hd _ hj) ..
    next => exact endPin_ops ..
    next hj =>
      split
      next hst => exact Prod.ext rfl ((hset _).trans (by rw [show s.ops.2 = s.longDoing from rfl, hd _ hj, hst]; rfl))
      next hst => exact endLong_ops (by rw [hd _ hj, Bool.eq_false_iff.2 hst]; rfl) ..
    next hj =>
      split
      next hst => exact Prod.ext rfl ((hset _).trans (by rw [show s.ops.2 = s.longDoing from rfl, hd _ hj, hst]; rfl))
      next hst => exact endLong_ops (by rw [hd _ hj, Bool.eq_false_iff.2 hst]; rfl) ..
    next => rfl

theorem engineReset_ops (s : State) : (engineReset s).ops = s.ops := by
  have hc : ∀ u : State, (closeTurn u).ops = u.ops := fun u => by
    unfold closeTurn
    split <;> rfl
  have hq : (resetQueues (resetSlots s)).ops = s.ops := (ops_of_noLinks (releaseAll_noLinks ..)).trans rfl
  have hs : (resetSegment (resetCache (resetQueues (resetSlots s)))).ops = s.ops :=
    (hc _).trans ((resetCache_ops (resetQueues (resetSlots s))).trans hq)
  exact (abortLong_ops _).trans hs

theorem flashDone_idle (ok : Bool) (m : Memory) (s : State) : (flashDone ok m s).reader = .idle := by
  obtain ⟨-, -, -, -, -, -, -, -, hr, -⟩ := of_noReply (endLong_noReply (flashStatus ok s) [] { idleReader s with flash := m })
  exact hr

theorem opHolds_pinWalk : PinWalk OpHolds where
  keep h _ ho := h.congr ho
  reset _ := opHolds_idle rfl
  request _ _ h _ := h.congr (request_ops ..)
  placeWaiting h := h.congr (placeWaiting_ops _)
  markBad i h := h.congr (markBad_ops i _)
  dropImage i h := h.congr (dropImage_ops i _)
  clearBad _ h := h
  startWork h _ := opHolds_startWork h
  judgeFill bs h hr := h.congr (judgeFill_ops hr bs)
  flashDone ok m _ _ _ := opHolds_idle (congrArg Reader.doing (flashDone_idle ok m _))
  startPin o i a b h hl := h.congr (startPin_ops hl o i a b)
  unpin i a b h := h.congr (unpin_ops i a b _)
  engineReset h := h.congr (engineReset_ops _)

/-! ## The balance of a running PIN -/

/-- While the flash is written no PIN runs. -/
theorem pinOf_of_doing (ho : OpHolds s) (hd : s.reader.doing ≠ none) : s.pinOf = none := by
  obtain ⟨j, hj⟩ := Option.ne_none_iff_exists'.1 hd
  obtain ⟨o, i, hl, hi⟩ := longDoing_iff.1 (ho j hj)
  cases hp : s.pinOf with
  | none => rfl
  | some x =>
    obtain ⟨o', ho'⟩ := pinOf_some.1 (show s.pinOf = some (x.1, x.2) from hp)
    rw [hl] at ho'
    cases ho'
    cases hi

theorem not_fill_of_doing (hd : s.reader.doing ≠ none) (f : Fill) : s.reader ≠ .fill f := fun h => hd (by rw [h]; rfl)

theorem held_flashDone (ok : Bool) (m : Memory) (h : Held s) (ho : OpHolds s) (hd : s.reader.doing ≠ none) : Held (flashDone ok m s) := by
  have hp := pinOf_of_doing ho hd
  refine Held.endLong (s := { idleReader s with flash := m }) ?_ hp ..
  exact h.other (not_fill_of_doing hd) (fun _ hx => nomatch hx) rfl rfl rfl

theorem held_pinWalk : PinWalk Held where
  keep h hk _ := h.congr hk
  reset _ := held_reset rfl rfl rfl
  request i b h hr := h.request hr i b
  placeWaiting h := h.placeWaiting
  markBad i h := h.markBad i
  dropImage i h := h.dropImage i
  clearBad i h := h.updCatClear i
  startWork h hr := h.startWork hr
  judgeFill bs h hr := h.judgeFill hr bs
  flashDone := held_flashDone
  startPin o i a b h hl := h.startPin hl o i a b
  unpin i a b h := h.unpin i a b
  engineReset h := h.engineReset

end Sys2Proof.Machine
end

section
/-! PROOFS. The pins that are set, reserved, queued and in flight fit (R75, R86, R87): what each operation on pins and fills makes of the
counts. -/

namespace Sys2Proof.Machine

open Sys2Proof.Safety

variable {s t : State} {n m : Nat}

/-! ## The counts -/

/-- The queued entries with pin-on-complete and the fill in flight with it. -/
def owedPins (s : State) : Nat := s.bc.fills.countP FillEntry.pin + inFlightPins s

/-- The pins fit, with `n` blocks waiting. -/
structure Counts (n : Nat) (s : State) : Prop where
  set : pinnedCount s + s.bc.reservation ≤ 64
  owed : n + owedPins s ≤ s.bc.reservation
  distinct : Distinct s

/-- The clauses of the law of pins on the counts. -/
def PinCounts (s : State) : Prop := Counts (pinWaiting s).length s ∧ (pinImage s = none → s.bc.reservation = 0)

theorem pinLaw_iff : PinLaw s ↔ PinCounts s ∧ OpHolds s := by
  rw [opHolds_iff]
  constructor
  · rintro ⟨h1, h2, h3, h4, h5⟩
    exact ⟨⟨⟨h1, (Nat.add_assoc ..).symm.trans_le h2, h4⟩, h3⟩, h5⟩
  · rintro ⟨⟨⟨h1, h2, h4⟩, h3⟩, h5⟩
    exact ⟨h1, (Nat.add_assoc ..).trans_le h2, h3, h4, h5⟩

/-! ## Changes that lower the counts -/

theorem pinnedCount_le (h : ∀ l : LineId, t.bc.lines[l].isPinned = true → s.bc.lines[l].isPinned = true) : pinnedCount t ≤ pinnedCount s := by
  rw [pinnedCount_lines, pinnedCount_lines]
  exact List.countP_mono_left fun l _ => h l

/-- A line that is written with no pin adds none. -/
theorem pinnedCount_set_free {l : LineId} {x : Line} (h : t.bc.lines = s.bc.lines.set l x) (hx : x.isPinned = false) :
    pinnedCount t ≤ pinnedCount s := by
  refine pinnedCount_le fun m hm => ?_
  by_cases he : m = l
  · subst he
    rw [h, set_same, hx] at hm
    cases hm
  · rw [h, set_other _ he] at hm
    exact hm

theorem pinnedCount_set {l : LineId} {x : Line} (h : t.bc.lines = s.bc.lines.set l x) : pinnedCount t ≤ pinnedCount s + 1 := by
  unfold pinnedCount
  rw [h, Vector.toList_set, List.countP_set (by simp)]
  split <;> split <;> omega

theorem Counts.of_le (h : Counts n s) (hl : pinnedCount t ≤ pinnedCount s) (hr : t.bc.reservation = s.bc.reservation)
    (ho : m + owedPins t ≤ n + owedPins s) (hd : Distinct t) : Counts m t :=
  ⟨hr ▸ (Nat.add_le_add_right hl _).trans h.set, hr ▸ ho.trans h.owed, hd⟩

theorem pinWaiting_of_long (h : t.ma.long = s.ma.long) : pinWaiting t = pinWaiting s := by
  unfold pinWaiting
  rw [h]

theorem pinImage_of_long (h : t.ma.long = s.ma.long) : pinImage t = pinImage s := by
  unfold pinImage
  rw [h]

/-- The counts sink while the long operation stays. -/
theorem PinCounts.of_le (h : PinCounts s) (hm : t.ma.long = s.ma.long) (hl : pinnedCount t ≤ pinnedCount s)
    (hr : t.bc.reservation = s.bc.reservation) (ho : owedPins t ≤ owedPins s) (hd : Distinct t) : PinCounts t := by
  obtain ⟨h1, h2⟩ := h
  refine ⟨?_, fun hx => hr.trans (h2 ((pinImage_of_long hm).symm.trans hx))⟩
  rw [pinWaiting_of_long hm]
  exact h1.of_le hl hr (Nat.add_le_add_left ho _) hd

theorem owedPins_of_marks (h : t.marks = s.marks) : owedPins t = owedPins s := by
  simp only [State.marks, Prod.mk.injEq] at h
  obtain ⟨-, hf, -, hr, -⟩ := h
  have hc : ∀ l : List FillEntry, l.countP FillEntry.pin = (l.map FillEntry.mark).countP (fun x => x.2.2) := fun l => by
    rw [List.countP_map]
    rfl
  unfold owedPins
  rw [inFlightPins_mark, hr, ← inFlightPins_mark, hc, hf, ← hc]

theorem pinnedCount_of_marks (h : t.marks = s.marks) : pinnedCount t = pinnedCount s :=
  congrArg (fun x => x.1.toList.countP Line.isPinned) h

theorem reservation_of_marks (h : t.marks = s.marks) : t.bc.reservation = s.bc.reservation := congrArg (fun x => x.2.2.1) h

theorem Counts.congr (h : Counts n s) (hm : t.marks = s.marks) : Counts n t :=
  h.of_le (pinnedCount_of_marks hm).le (reservation_of_marks hm) (by rw [owedPins_of_marks hm]) (h.distinct.congr hm)

theorem PinCounts.congr (h : PinCounts s) (hk : t.pinKey = s.pinKey) : PinCounts t := by
  have hm : t.marks = s.marks := congrArg Prod.fst hk
  have hp : t.pinOf = s.pinOf := congrArg Prod.snd hk
  obtain ⟨h1, h2⟩ := h
  refine ⟨?_, fun hx => (reservation_of_marks hm).trans (h2 ?_)⟩
  · rw [pinWaiting_pinOf, hp, ← pinWaiting_pinOf]
    exact h1.congr hm
  · rw [pinImage_pinOf, ← hp, ← pinImage_pinOf]
    exact hx

/-! ## Requests -/

theorem owedPins_append (e : FillEntry) (s : State) :
    owedPins { s with bc := { s.bc with fills := s.bc.fills ++ [e] } } = owedPins s + (if e.pin = true then 1 else 0) := by
  show (s.bc.fills ++ [e]).countP FillEntry.pin + inFlightPins s = _
  rw [List.countP_append, List.countP_singleton]
  unfold owedPins
  omega

theorem PinCounts.request {r : Source} (h : PinCounts s) (hr : r ≠ .pin) (i : ImageId) (b : Nat) : PinCounts (Machine.request r i b s) := by
  rcases request_marks hr i b s with hm | ⟨he, hq⟩
  · exact h.congr (Prod.ext hm (request_pinOf r i b s))
  · obtain ⟨hi, hb⟩ := newEntry_block r i b s
    rw [he]
    refine h.of_le rfl le_rfl rfl ?_ (h.1.distinct.append (by rw [hi, hb]; exact hq))
    rw [owedPins_append, newEntry_pin hr]
    exact le_rfl

theorem PinCounts.requestAll (h : PinCounts s) : PinCounts (Machine.requestAll s) := by
  refine PinWalk.foldl (P := PinCounts) (fun s k hs => ?_) _ h
  unfold Machine.requestBlocks
  split
  · split
    · refine PinWalk.foldl (P := PinCounts) (fun s b hs => ?_) _ hs
      unfold requestBlock
      split
      · exact hs
      · exact hs.request (by simp) ..
    · exact hs
  · exact hs

/-- Where no block stands twice, a pin request marks one entry. -/
theorem countP_join_pin {l : List FillEntry} (hd : l.Pairwise (fun e f => ¬ (e.img = f.img ∧ e.blk = f.blk))) (i : ImageId) (b : Nat) (s : State) :
    (l.map (fun e => if e.isBlock i b then e.join .pin s else e)).countP FillEntry.pin ≤ l.countP FillEntry.pin + 1 := by
  induction l with
  | nil => exact Nat.zero_le _
  | cons a l ih =>
    obtain ⟨ha, hl⟩ := List.pairwise_cons.1 hd
    rw [List.map_cons, List.countP_cons, List.countP_cons]
    split
    next hb =>
      obtain ⟨h1, h2⟩ := isBlock_entry.1 hb
      have hrest : l.map (fun e => if e.isBlock i b then e.join .pin s else e) = l := by
        refine (List.map_congr_left fun e he => if_neg fun hx => ?_).trans (List.map_id l)
        obtain ⟨x1, x2⟩ := isBlock_entry.1 hx
        exact ha e he ⟨h1.trans x1.symm, h2.trans x2.symm⟩
      rw [hrest]
      split <;> split <;> omega
    next =>
      have := ih hl
      omega

theorem inFlightPins_le (s : State) : inFlightPins s ≤ 1 := by
  unfold inFlightPins
  split
  · split <;> omega
  all_goals exact Nat.zero_le _

theorem Distinct.map (h : Distinct s) {g : FillEntry → FillEntry} (hg : ∀ e, (g e).img = e.img ∧ (g e).blk = e.blk)
    (ht : t.bc.fills = s.bc.fills.map g) : Distinct t := by
  unfold Distinct
  rw [ht, List.pairwise_map]
  refine List.Pairwise.imp (fun {x y} hxy => ?_) h
  rw [(hg x).1, (hg x).2, (hg y).1, (hg y).2]
  exact hxy

/-- A line that is pinned spends one of the reservation. -/
theorem Counts.pinLine (h : Counts (n + 1) s) (l : LineId) : Counts n (Machine.pinLine l s) := by
  obtain ⟨h1, h2, h3⟩ := h
  unfold Machine.pinLine
  split
  next i b p d _ =>
    have hc : pinnedCount (spendPin (setLine l (.valid i b true d) s)) ≤ pinnedCount s + 1 := pinnedCount_set rfl
    have hr : (spendPin (setLine l (.valid i b true d) s)).bc.reservation = s.bc.reservation - 1 := rfl
    have ho : owedPins (spendPin (setLine l (.valid i b true d) s)) = owedPins s := rfl
    exact ⟨by omega, by omega, h3⟩
  all_goals exact ⟨h1, by omega, h3⟩

/-- A waiting block is taken (R87). -/
theorem Counts.take (h : Counts (n + 1) s) (i : ImageId) (b : Nat) : Counts n (Machine.request .pin i b s) := by
  have hstay : Counts n s := h.of_le le_rfl rfl (by omega) h.distinct
  unfold Machine.request
  split
  · rw [if_pos rfl]
    exact h.pinLine _
  · split
    next =>
      unfold updFill
      split
      next f hf =>
        refine h.of_le le_rfl rfl ?_ h.distinct
        show n + (s.bc.fills.countP FillEntry.pin + 1) ≤ n + 1 + (s.bc.fills.countP FillEntry.pin + inFlightPins s)
        omega
      all_goals exact hstay
    next =>
      split
      next =>
        refine h.of_le le_rfl rfl ?_ (h.distinct.map (fun e => ?_) rfl)
        · have := countP_join_pin h.distinct i b s
          show n + ((s.bc.fills.map _).countP FillEntry.pin + inFlightPins s) ≤ n + 1 + (s.bc.fills.countP FillEntry.pin + inFlightPins s)
          omega
        · split <;> exact ⟨rfl, rfl⟩
      next hq =>
        split
        · exact hstay
        · refine h.of_le le_rfl rfl ?_ (h.distinct.append fun hx => hq (isQueued_iff.2 hx))
          exact (Nat.add_le_add_left (owedPins_append ..).le n).trans (by show n + (owedPins s + 1) ≤ _; omega)

/-! ## The end of a PIN -/

/-- Nothing is reserved and nothing owed. -/
theorem PinCounts.rest (hl : pinnedCount s ≤ 64) (hr : s.bc.reservation = 0) (ho : owedPins s = 0) (hd : Distinct s) (hp : s.pinOf = none) :
    PinCounts s := by
  refine ⟨⟨by rw [hr]; exact hl, ?_, hd⟩, fun _ => hr⟩
  rw [pinWaiting_pinOf, hp, ho, hr]
  exact le_rfl

theorem Counts.endLong (h : Counts n s) (hr : s.bc.reservation = 0) (st : Status) (d : List Byte) : PinCounts (Machine.endLong st d s) := by
  obtain ⟨h1, h2, h3⟩ := h.congr (endLong_marks st d s)
  rw [reservation_of_marks (endLong_marks st d s), hr] at h1 h2
  exact .rest h1 ((reservation_of_marks (endLong_marks ..)).trans hr) (by omega) h3 (endLong_pinOf ..)

theorem Counts.held {i : ImageId} {w : List Nat} (h : Counts w.length s) (hp : s.pinOf = some (i, w)) : PinCounts s := by
  refine ⟨?_, fun hx => ?_⟩
  · rw [pinWaiting_pinOf, hp]
    exact h
  · rw [pinImage_pinOf, hp] at hx
    cases hx

theorem PinCounts.running {i : ImageId} {w : List Nat} (h : PinCounts s) (hp : s.pinOf = some (i, w)) : Counts w.length s := by
  have hw : pinWaiting s = w := by rw [pinWaiting_pinOf, hp]; rfl
  exact hw ▸ h.1

/-- Where no PIN runs nothing is reserved and nothing owed. -/
theorem PinCounts.resting (h : PinCounts s) (hp : s.pinOf = none) : Counts 0 s ∧ s.bc.reservation = 0 ∧ owedPins s = 0 := by
  have hr := h.2 (by rw [pinImage_pinOf, hp]; rfl)
  have hc : Counts 0 s := h.1.of_le le_rfl rfl (Nat.add_le_add_right (Nat.zero_le _) _) h.1.distinct
  exact ⟨hc, hr, by have := hc.owed; omega⟩

theorem Counts.done {i : ImageId} {w : List Nat} (h : Counts w.length s) (hp : s.pinOf = some (i, w)) : PinCounts (pinDone s) := by
  unfold pinDone
  split
  next hx => exact h.endLong hx.2 ..
  next => exact h.held hp

/-- A PIN that ends gives up what it reserved (R88). -/
theorem PinCounts.endPin (h : PinCounts s) (st : Status) : PinCounts (Machine.endPin st s) := by
  unfold Machine.endPin
  split
  · obtain ⟨r, he, hf, hn⟩ := clearPinMarks_eq s
    have hfl : inFlightPins (clearPinMarks s) = 0 := by
      rw [he]
      cases hr : s.reader with
      | fill f =>
        rw [hf f hr]
        rfl
      | _ =>
        rw [hn (by rw [hr]; exact fun f hx => nomatch hx), hr]
        rfl
    have hq : (clearPinMarks s).bc.fills = s.bc.fills.map (fun e => { e with pin := false }) := by rw [he]
    have hz : owedPins (clearPinMarks s) = 0 := by
      unfold owedPins
      rw [hfl, hq, List.countP_map]
      exact List.countP_eq_zero.2 fun e _ => by simp
    have hr : (clearPinMarks s).bc.reservation = 0 := by rw [he]
    have hl : pinnedCount (clearPinMarks s) = pinnedCount s := by rw [he]; rfl
    have hc : Counts 0 (clearPinMarks s) := by
      refine ⟨?_, by omega, h.1.distinct.map (g := fun e => { e with pin := false }) (fun _ => ⟨rfl, rfl⟩) hq⟩
      have := h.1.set
      omega
    exact hc.endLong hr ..
  · exact h

theorem PinCounts.endPinOn (h : PinCounts s) (i : ImageId) : PinCounts (Machine.endPinOn i s) := by
  unfold Machine.endPinOn
  split
  · exact h.endPin _
  · exact h

/-! ## The waiting list -/

theorem Counts.setWaiting {i : ImageId} {w v : List Nat} (h : Counts w.length s) (hp : s.pinOf = some (i, v)) :
    Counts w.length (Machine.setWaiting w s) ∧ (Machine.setWaiting w s).pinOf = some (i, w) :=
  ⟨h.congr (setWaiting_marks w s), setWaiting_pinOf hp w⟩

theorem Counts.takeWaiting {i : ImageId} {bs v : List Nat} (h : Counts bs.length s) (hp : s.pinOf = some (i, v)) :
    ∃ w, Counts w.length (Machine.takeWaiting i bs s) ∧ (Machine.takeWaiting i bs s).pinOf = some (i, w) := by
  induction bs generalizing s with
  | nil => exact ⟨[], h.setWaiting hp⟩
  | cons b bs ih =>
    unfold Machine.takeWaiting
    split
    · exact ⟨_, h.setWaiting hp⟩
    · exact ih (h.take i b) ((request_pinOf ..).trans hp)

theorem Counts.blocks {i : ImageId} {bs v : List Nat} (h : Counts bs.length s) (hp : s.pinOf = some (i, v)) :
    ∃ w, Counts w.length (pinBlocks i bs s) ∧ (pinBlocks i bs s).pinOf = some (i, w) := by
  induction bs generalizing s with
  | nil => exact ⟨[], h.setWaiting hp⟩
  | cons b bs ih =>
    unfold pinBlocks
    split
    · exact ⟨_, h.setWaiting hp⟩
    · exact ih (h.take i b) ((request_pinOf ..).trans hp)

theorem PinCounts.placeWaiting (h : PinCounts s) : PinCounts (Machine.placeWaiting s) := by
  unfold Machine.placeWaiting
  split
  next i hi =>
    rw [pinImage_pinOf] at hi
    obtain ⟨⟨j, w⟩, hp, rfl⟩ := Option.map_eq_some_iff.1 hi
    split
    · exact h
    · obtain ⟨v, hv, hvp⟩ := h.1.takeWaiting hp
      exact hv.done hvp
  next => exact h

end Sys2Proof.Machine
end

section
/-! PROOFS. Every operation on pins and fills keeps the counts of pins (O16). -/

namespace Sys2Proof.Machine

open Sys2Proof.Safety

variable {s t : State} {n : Nat}

/-! ## The fill in flight -/

theorem inFlightPins_fill {f : Fill} (h : s.reader = .fill f) : inFlightPins s = if f.pin = true then 1 else 0 := by
  unfold inFlightPins
  rw [h]

theorem inFlightPins_none (h : ∀ f, s.reader ≠ .fill f) : inFlightPins s = 0 := by
  unfold inFlightPins
  split
  next f hf => exact absurd hf (h f)
  all_goals rfl

/-- A change of the fill in flight that sets no pin-on-complete. -/
theorem inFlightPins_updFill {g : Fill → Fill} (hg : ∀ f, (g f).pin = true → f.pin = true) (s : State) :
    inFlightPins (updFill g s) ≤ inFlightPins s := by
  unfold updFill
  split
  next f hf =>
    rw [inFlightPins_fill hf, inFlightPins_fill (s := { s with reader := .fill (g f) }) rfl]
    split
    next hp => rw [if_pos (hg f hp)]
    next => exact Nat.zero_le _
  all_goals exact le_rfl

/-- The fill in flight has ended. -/
theorem owedPins_ended (hr : t.reader = .idle) (hf : t.bc.fills = s.bc.fills) : owedPins t + inFlightPins s = owedPins s := by
  have h0 : inFlightPins t = 0 := inFlightPins_none (by rw [hr]; exact fun f hx => nomatch hx)
  unfold owedPins
  rw [h0, hf]
  rfl

theorem updFill_keeps (g : Fill → Fill) (s : State) : (updFill g s).bc = s.bc ∧ (updFill g s).ma = s.ma := by
  unfold updFill
  split <;> exact ⟨rfl, rfl⟩

/-! ## What is dropped (R61, R84, R88, R91) -/

theorem PinCounts.dropLines (h : PinCounts s) (i : ImageId) : PinCounts (Machine.dropLines i s) := by
  refine h.of_le rfl (pinnedCount_le fun l hl => ?_) rfl le_rfl h.1.distinct
  have he : (Machine.dropLines i s).bc.lines[l] = if s.bc.lines[l].isOf i then .empty else s.bc.lines[l] := vmap_get ..
  rw [he] at hl
  split at hl
  · cases hl
  · exact hl

theorem PinCounts.dropFills (h : PinCounts s) (i : ImageId) : PinCounts (Machine.dropFills i s) :=
  h.of_le rfl le_rfl rfl (Nat.add_le_add_right (List.filter_sublist.countP_le) _) (h.1.distinct.filter rfl)

theorem PinCounts.disownFill (h : PinCounts s) (i : ImageId) : PinCounts (Machine.disownFill i s) := by
  obtain ⟨hb, -, hm⟩ := disownFill_spec i s
  have hfl : inFlightPins (Machine.disownFill i s) ≤ inFlightPins s := inFlightPins_updFill (fun f hp => by
    split at hp
    · cases hp
    · exact hp) s
  refine h.of_le (by rw [hm]) ?_ (by rw [hb]) ?_ ?_
  · unfold pinnedCount
    rw [hb]
  · unfold owedPins
    rw [hb]
    exact Nat.add_le_add_left hfl _
  · unfold Distinct
    rw [hb]
    exact h.1.distinct

theorem PinCounts.discardFill (h : PinCounts s) (i : ImageId) : PinCounts (Machine.discardFill i s) := by
  obtain ⟨hf, hr, -, hm⟩ := discardFill_bc i s
  have hle : inFlightPins (Machine.discardFill i s) ≤ inFlightPins s ∧ pinnedCount (Machine.discardFill i s) ≤ pinnedCount s := by
    unfold Machine.discardFill
    split
    next f _ =>
      split
      · obtain ⟨hb, -⟩ := updFill_keeps (fun f => { f with reqs := [], pin := false, pre := false }) s
        refine ⟨inFlightPins_updFill (fun f hx => by cases hx) s, pinnedCount_set_free (l := f.line) (x := .filling f.img f.blk true) ?_ rfl⟩
        exact congrArg (fun c : Cache => c.lines.set f.line (.filling f.img f.blk true)) hb
      · exact ⟨le_rfl, le_rfl⟩
    all_goals exact ⟨le_rfl, le_rfl⟩
  refine h.of_le (by rw [hm]) hle.2 hr ?_ ?_
  · unfold owedPins
    rw [hf]
    exact Nat.add_le_add_left hle.1 _
  · unfold Distinct
    rw [hf]
    exact h.1.distinct

theorem PinCounts.dropImage (h : PinCounts s) (i : ImageId) : PinCounts (Machine.dropImage i s) := by
  have hd := (((h.dropLines i).dropFills i).discardFill i).endPinOn i
  unfold Machine.dropImage afterWithdraw
  split
  · exact hd.placeWaiting.requestAll
  · exact hd

theorem PinCounts.markBad (h : PinCounts s) (i : ImageId) : PinCounts (Machine.markBad i s) := by
  have hc : PinCounts (updCat i (fun c => { c with bad := true }) s) := h.of_le rfl le_rfl rfl le_rfl h.1.distinct
  have hw : PinCounts (withdrawImage i (updCat i (fun c => { c with bad := true }) s)) := by
    unfold withdrawImage
    split
    · exact (hc.dropFills i).placeWaiting
    · exact hc.dropFills i
  exact (((hw.dropLines i).disownFill i).endPinOn i).congr ((raise_pinKey ..).trans (failUsers_pinKey ..))

theorem pinOf_of_job {l : LongOp} (hl : s.ma.long = some l) (hj : ∀ i w, l.job ≠ .pin i w) : s.pinOf = none := by
  cases hp : s.pinOf with
  | none => rfl
  | some x =>
    obtain ⟨o, ho⟩ := pinOf_some.1 (show s.pinOf = some (x.1, x.2) from hp)
    rw [hl] at ho
    cases ho
    exact absurd rfl (hj _ _)

/-! ## The reader (R81, R82, R93) -/

theorem PinCounts.startFill (h : PinCounts s) (hr : s.reader = .idle) {e : FillEntry} (he : e ∈ s.bc.fills) (l : LineId) :
    PinCounts (Machine.startFill e l s) := by
  unfold Machine.startFill
  refine PinCounts.placeWaiting (h.of_le rfl (pinnedCount_set_free (l := l) rfl rfl) rfl ?_ (List.Pairwise.sublist List.erase_sublist h.1.distinct))
  have h0 : inFlightPins s = 0 := inFlightPins_none (by rw [hr]; exact fun f hx => nomatch hx)
  have hp := (List.perm_cons_erase he).countP_eq FillEntry.pin
  rw [List.countP_cons] at hp
  unfold owedPins
  rw [h0, hp]
  exact le_rfl

theorem PinCounts.startLong (h : PinCounts s) (hr : s.reader = .idle) : PinCounts (Machine.startLong s) := by
  unfold Machine.startLong
  split
  next => exact h
  next l hl =>
    have hbegin : ∀ (j : LongJob) (r : Reader), (∀ i w, l.job ≠ .pin i w) → (∀ i w, j ≠ .pin i w) → r.mark = none →
        PinCounts { setJob j s with reader := r } := fun j r hi hj hm => by
      refine h.congr (Prod.ext ?_ ((setJob_pinOf hj).trans ?_))
      · show (s.bc.lines, s.bc.fills.map FillEntry.mark, s.bc.reservation, r.mark, _) = s.marks
        rw [hm]
        unfold State.marks
        rw [hr]
        rfl
      · exact (pinOf_of_job hl hi).symm
    split
    next hj => exact hbegin _ _ (by rw [hj]; simp) (by simp) rfl
    next hj => exact hbegin _ _ (by rw [hj]; simp) (by simp) rfl
    next hj => exact hbegin _ _ (by rw [hj]; simp) (by simp) rfl
    next => exact h.congr (Prod.ext (show State.marks _ = s.marks by simp only [State.marks, hr]; rfl) rfl)
    all_goals exact h

theorem PinCounts.startWork (h : PinCounts s) (hr : s.reader = .idle) : PinCounts (Machine.startWork s) := by
  unfold Machine.startWork
  split
  · exact h.startLong hr
  next e he =>
    split
    · exact h.startFill hr (nextFill_mem he) _
    · exact h

section
variable {f : Fill}

/-- The fill in flight ends with its line EMPTY; where it carries pin-on-complete one block more may wait. -/
theorem Counts.emptied (h : Counts n s) (hr : s.reader = .fill f) :
    Counts (n + if f.pin = true then 1 else 0) (emptyLine f.line (idleReader s)) := by
  refine h.of_le (pinnedCount_set_free (l := f.line) rfl rfl) rfl ?_ h.distinct
  rw [← inFlightPins_fill hr, Nat.add_right_comm, Nat.add_assoc,
    owedPins_ended (s := s) (t := emptyLine f.line (idleReader s)) rfl rfl]

theorem PinCounts.emptied (h : PinCounts s) (f : Fill) : PinCounts (emptyLine f.line (idleReader s)) := by
  refine h.of_le rfl (pinnedCount_set_free (l := f.line) rfl rfl) rfl ?_ h.1.distinct
  rw [← owedPins_ended (s := s) (t := emptyLine f.line (idleReader s)) rfl rfl]
  exact Nat.le_add_right ..

theorem PinCounts.fillValid (h : PinCounts s) (hr : s.reader = .fill f) (d : List Byte) : PinCounts (Machine.fillValid f d s) := by
  unfold Machine.fillValid
  refine PinCounts.requestAll ?_
  generalize ht : updBc _ (idleReader s) = t
  have hset : t.bc.lines = s.bc.lines.set f.line (.valid f.img f.blk false d) := by rw [← ht]; rfl
  have hrest : t.bc.fills = s.bc.fills ∧ t.bc.reservation = s.bc.reservation ∧ t.reader = .idle ∧ t.ma = s.ma := by
    rw [← ht]
    exact ⟨rfl, rfl, rfl, rfl⟩
  obtain ⟨hq, hv, hi, hm⟩ := hrest
  have hl : pinnedCount t ≤ pinnedCount s := pinnedCount_set_free hset rfl
  have ho := owedPins_ended (s := s) hi hq
  have hd : Distinct t := by
    unfold Distinct
    rw [hq]
    exact h.1.distinct
  split
  next hp =>
    rw [inFlightPins_fill hr, if_pos hp] at ho
    cases hpin : s.pinOf with
    | none =>
      have := (h.resting hpin).2.2
      omega
    | some x =>
      obtain ⟨i, w⟩ := x
      have hc : Counts (w.length + 1) t := (h.running hpin).of_le hl hv (by omega) hd
      refine Counts.done (hc.pinLine f.line) (i := i) ?_
      unfold State.pinOf at hpin ⊢
      rw [of_noCache (pinLine_noCache f.line t) |>.2.2.2.2.2.2.2.2.2.2.2.2.2.1, hm]
      exact hpin
  next => exact h.of_le (by rw [hm]) hl hv (by omega) hd

/-- The block that a failed leftover fill gives back waits again (R93). -/
theorem PinCounts.leftoverFailed (h : PinCounts s) (hr : s.reader = .fill f) : PinCounts (Machine.leftoverFailed f s) := by
  unfold Machine.leftoverFailed returnPin
  refine PinCounts.requestAll ?_
  split
  next hp =>
    refine PinCounts.placeWaiting ?_
    cases hpin : s.pinOf with
    | none =>
      have h0 := (h.resting hpin).2.2
      have ho := owedPins_ended (s := s) (t := emptyLine f.line (idleReader s)) rfl rfl
      rw [inFlightPins_fill hr, if_pos hp] at ho
      omega
    | some x =>
      obtain ⟨i, w⟩ := x
      have hw : pinWaiting (emptyLine f.line (idleReader s)) = w := by
        rw [pinWaiting_pinOf, show (emptyLine f.line (idleReader s)).pinOf = some (i, w) from hpin]
        rfl
      have hc := (h.running hpin).emptied hr
      rw [if_pos hp] at hc
      have hlen : (w.filter (· < f.blk) ++ f.blk :: w.filter (f.blk < ·)).length ≤ w.length + 1 := by
        have hsplit := countP_split (fun _ => true) (fun b => decide (b < f.blk)) w
        have hlt : (w.filter (f.blk < ·)).length ≤ (w.filter (fun b => !decide (b < f.blk))).length :=
          (List.monotone_filter_right w fun b hb => by simp at hb ⊢; omega).length_le
        simp only [List.countP_true, Bool.true_and] at hsplit
        rw [List.length_append, List.length_cons, ← List.countP_eq_length_filter]
        omega
      rw [hw]
      obtain ⟨h1, h2⟩ := (hc.of_le (m := (w.filter (· < f.blk) ++ f.blk :: w.filter (f.blk < ·)).length) le_rfl rfl
        (Nat.add_le_add_right hlen _) hc.distinct).setWaiting (show (emptyLine f.line (idleReader s)).pinOf = some (i, w) from hpin)
      exact h1.held h2
  next => exact h.emptied f

theorem PinCounts.judgeFill (h : PinCounts s) (hr : s.reader = .fill f) (bs : List Byte) : PinCounts (Machine.judgeFill f bs s) := by
  unfold Machine.judgeFill
  split
  · exact (h.emptied f).requestAll
  · split
    · split
      · exact (h.emptied f).requestAll
      · exact h.fillValid hr _
    · split
      · exact h.leftoverFailed hr
      · split
        · exact ((h.emptied f).markBad _).requestAll
        · exact h.congr (Prod.ext (show State.marks _ = s.marks by simp only [State.marks, hr]; rfl) rfl)

end

/-! ## The long operation -/

/-- The end of a long operation that is no PIN. -/
theorem PinCounts.endLong (h : PinCounts s) (hp : s.pinOf = none) (st : Status) (d : List Byte) : PinCounts (Machine.endLong st d s) :=
  h.congr (Prod.ext (endLong_marks ..) ((endLong_pinOf ..).trans hp.symm))

theorem PinCounts.flashDone (h : PinCounts s) (ho : OpHolds s) (hd : s.reader.doing ≠ none) (ok : Bool) (m : Memory) :
    PinCounts (Machine.flashDone ok m s) := by
  refine PinCounts.endLong (s := { idleReader s with flash := m }) ?_ (show s.pinOf = none from pinOf_of_doing ho hd) ..
  refine h.of_le rfl le_rfl rfl ?_ h.1.distinct
  exact (Nat.le_add_right ..).trans (owedPins_ended (s := s) (t := { idleReader s with flash := m }) rfl rfl).le

theorem PinCounts.startPin (h : PinCounts s) (hl : s.ma.long = none) (o : Origin) (i : ImageId) (first last : Nat) :
    PinCounts (Machine.startPin o i first last s) := by
  obtain ⟨hc, hr, ho⟩ := h.resting (longPlain_none hl).1
  unfold Machine.startPin
  simp only
  split
  · exact h.congr (finalReply_pinKey ..)
  · split
    · exact h.congr (finalReply_pinKey ..)
    next hroom =>
      have ha : (accept o (.pin i []) s).bc = s.bc ∧ (accept o (.pin i []) s).reader = s.reader := by cases o <;> exact ⟨rfl, rfl⟩
      generalize ht : updBc _ _ = t
      have hb : t.bc = { s.bc with reservation := (pinCounted i first last s).length } := by
        rw [← ht, ← ha.1]
        rfl
      have hp : t.pinOf = some (i, []) := by
        rw [← ht]
        cases o <;> rfl
      have howed : owedPins t = owedPins s := by
        unfold owedPins inFlightPins
        rw [show t.reader = s.reader by rw [← ht]; exact ha.2, hb]
      have hpinned : pinnedCount t = pinnedCount s := by
        unfold pinnedCount
        rw [hb]
      have hst : Counts (pinCounted i first last s).length t := by
        refine ⟨?_, ?_, ?_⟩
        · have hmax : Config.pinMax = 64 := rfl
          rw [hb, hpinned]
          show _ + (pinCounted i first last s).length ≤ 64
          omega
        · rw [howed, ho, hb]
          exact le_rfl
        · unfold Distinct
          rw [hb]
          exact hc.distinct
      obtain ⟨w, hw, hwp⟩ := hst.blocks hp
      exact hw.done hwp

/-! ## UNPIN (R89) -/

theorem PinCounts.unpinLines (h : PinCounts s) (i : ImageId) (first last : Nat) :
    PinCounts (updBc (fun c => { c with lines := vmap (Line.unpin i first last) c.lines }) s) := by
  refine h.of_le rfl (pinnedCount_le fun l hl => ?_) rfl le_rfl h.1.distinct
  have he : (updBc (fun c => { c with lines := vmap (Line.unpin i first last) c.lines }) s).bc.lines[l] = Line.unpin i first last s.bc.lines[l] :=
    vmap_get ..
  rw [he] at hl
  generalize s.bc.lines[l] = x at hl ⊢
  cases x with
  | valid j b p d =>
    unfold Line.unpin at hl
    dsimp only at hl
    split at hl
    · cases hl
    · exact hl
  | empty => exact hl
  | filling j b m => exact hl

/-- The fill in flight gives its pin back where it is one of the range. -/
theorem inFlightPins_taken (i : ImageId) (first last : Nat) (s : State) :
    inFlightPins (if inFlightPinned i first last s then updFill (fun f => { f with pin := false }) s else s) +
      (if inFlightPinned i first last s then 1 else 0) = inFlightPins s := by
  split
  next hc =>
    unfold inFlightPinned at hc
    split at hc
    next f hf =>
      simp only [Bool.and_eq_true] at hc
      unfold updFill
      rw [inFlightPins_fill hf, if_pos hc.1.1]
      simp only [hf]
      rfl
    all_goals cases hc
  next => rfl

theorem PinCounts.takeBack (h : PinCounts s) {i : ImageId} (hi : pinImage s = some i) (first last : Nat) :
    PinCounts (Machine.takeBack i first last s) := by
  rw [pinImage_pinOf] at hi
  obtain ⟨⟨j, w⟩, hp, rfl⟩ := Option.map_eq_some_iff.1 hi
  obtain ⟨h1, h2, h3⟩ := h.running hp
  have hw : pinWaiting s = w := by rw [pinWaiting_pinOf, hp]; rfl
  have hfl := inFlightPins_taken j first last s
  have hq := unpinned_count j first last s.bc.fills
  have hwl : (w.filter (fun b => !within first last b)).length + w.countP (within first last) = w.length := by
    simpa using countP_split (fun _ => true) (within first last) w
  unfold Machine.takeBack
  simp only
  generalize hu : (if inFlightPinned j first last s then updFill (fun f => { f with pin := false }) s else s) = u at hfl
  have hub : u.bc = s.bc ∧ u.ma = s.ma := by
    rw [← hu]
    split
    · exact updFill_keeps ..
    · exact ⟨rfl, rfl⟩
  have hup : u.pinOf = some (j, w) := by
    unfold State.pinOf at hp ⊢
    rw [hub.2]
    exact hp
  have huw : pinWaiting u = w := by rw [pinWaiting_pinOf, hup]; rfl
  rw [huw]
  have hn : takenBack j first last s = w.countP (within first last) + s.bc.fills.countP (FillEntry.pinned j first last) +
      (if inFlightPinned j first last s then 1 else 0) := by
    unfold takenBack
    rw [hw]
  unfold owedPins at h2
  generalize hv : updBc _ u = v
  have hvb : v.bc = { s.bc with
      reservation := s.bc.reservation - takenBack j first last s
      fills := s.bc.fills.map (fun e => if e.pinned j first last then { e with pin := false } else e) } := by
    rw [← hv, ← hub.1]
    rfl
  have hvr : inFlightPins v = inFlightPins u := by rw [← hv]; rfl
  have hvp : v.pinOf = some (j, w) := by
    rw [← hv]
    exact hup
  have hvc : Counts (w.filter (fun b => !within first last b)).length v := by
    refine ⟨?_, ?_, h3.map (fun e => ?_) (congrArg Cache.fills hvb)⟩
    · have hl : pinnedCount v = pinnedCount s := by
        unfold pinnedCount
        rw [hvb]
      rw [hl, hvb]
      exact (Nat.add_le_add_left (Nat.sub_le ..) _).trans h1
    · unfold owedPins
      rw [hvr, hvb]
      show _ + ((s.bc.fills.map _).countP FillEntry.pin + _) ≤ s.bc.reservation - takenBack j first last s
      omega
    · split <;> exact ⟨rfl, rfl⟩
  obtain ⟨h4, h5⟩ := hvc.setWaiting hvp
  exact h4.done h5

theorem PinCounts.unpin (h : PinCounts s) (i : ImageId) (first last : Nat) : PinCounts (Machine.unpin i first last s) := by
  have hl := h.unpinLines i first last
  unfold Machine.unpin
  simp only
  split
  next hi => exact hl.takeBack hi first last
  next => exact hl

/-! ## Resets -/

theorem PinCounts.abortLong (h : PinCounts s) : PinCounts (Machine.abortLong s) := by
  unfold Machine.abortLong
  split
  next => exact h
  next l hl =>
    have hplain : (∀ i w, l.job ≠ .pin i w) → s.pinOf = none := pinOf_of_job hl
    have hset : ∀ j : LongJob, (∀ i w, l.job ≠ .pin i w) → (∀ i w, j ≠ .pin i w) → PinCounts (setJob j s) := fun j hi hj =>
      h.congr (Prod.ext rfl ((setJob_pinOf hj).trans (hplain hi).symm))
    split
    next hj => exact h.endLong (hplain (by rw [hj]; simp)) ..
    next hj => exact h.endLong (hplain (by rw [hj]; simp)) ..
    next => exact h.endPin _
    next hj =>
      split
      · exact hset _ (by rw [hj]; simp) (by simp)
      · exact h.endLong (hplain (by rw [hj]; simp)) ..
    next hj =>
      split
      · exact hset _ (by rw [hj]; simp) (by simp)
      · exact h.endLong (hplain (by rw [hj]; simp)) ..
    next => exact h

theorem PinCounts.engineReset (h : PinCounts s) : PinCounts (Machine.engineReset s) := by
  rw [engineReset_eq]
  refine PinCounts.abortLong (h.of_le rfl le_rfl rfl ?_ List.Pairwise.nil)
  have h0 : inFlightPins (resetTo s.bc.reservation s.ma.long s) = 0 := by
    unfold inFlightPins
    cases hr : s.reader <;> simp [resetTo, resetReader, hr]
  show 0 + inFlightPins (resetTo s.bc.reservation s.ma.long s) ≤ _
  rw [h0]
  exact Nat.zero_le _

theorem pinCounts_reset (h1 : s.bc = State.reset.bc) (h2 : s.reader = .idle) (h3 : s.ma.long = none) : PinCounts s := by
  have hl : pinnedCount s ≤ 64 := by
    have h0 : pinnedCount State.reset = 0 := by decide +kernel
    have hs : pinnedCount s = pinnedCount State.reset := congrArg (fun c : Cache => c.lines.toList.countP Line.isPinned) h1
    omega
  refine .rest hl (by rw [h1]; rfl) ?_ ?_ (longPlain_none h3).1
  · unfold owedPins
    rw [inFlightPins_none (by rw [h2]; exact fun f hx => nomatch hx), h1]
    rfl
  · unfold Distinct
    rw [h1]
    exact .nil

theorem pinCounts_pinWalk : PinWalk PinCounts where
  keep h hk _ := h.congr hk
  reset _ := pinCounts_reset rfl rfl rfl
  request i b h hr := h.request hr i b
  placeWaiting h := h.placeWaiting
  markBad i h := h.markBad i
  dropImage i h := h.dropImage i
  clearBad _ h := h.of_le rfl le_rfl rfl le_rfl h.1.distinct
  startWork h hr := h.startWork hr
  judgeFill bs h hr := h.judgeFill hr bs
  flashDone ok m h ho hd := h.flashDone ho hd ok m
  startPin o i a b h hl := h.startPin hl o i a b
  unpin i a b h := h.unpin i a b
  engineReset h := h.engineReset

end Sys2Proof.Machine
end

section
/-! PROOFS. The laws at reset, and those of sessions, pins and records at every step (O16). -/

namespace Sys2Proof.Machine

open Sys2Proof.Safety

variable {s t : State}

/-! ## At reset -/

theorem reset_permits (g : GroupId) : State.reset.lm.permits[g] = false ∧ State.reset.lm.requests[g] = false := by
  show (Vector.replicate 4 false)[g] = false ∧ (Vector.replicate 4 false)[g] = false
  simp

theorem reset_outputsFollow : OutputsFollow State.reset := by
  refine ⟨rfl, fun g => ?_⟩
  obtain ⟨hp, hr⟩ := reset_permits g
  rw [hp, hr]
  simp

theorem reset_segmentSilent : SegmentSilent State.reset :=
  ⟨iff_of_true rfl (.inl rfl), (nomatch ·), fun _ => rfl, fun _ => rfl⟩

theorem reset_flashCanonical : FlashCanonical State.reset := ⟨.nil, fun _ h => (nomatch h)⟩

theorem reset_attentionLaw : AttentionLaw State.reset := attention_linkLaw.reset rfl rfl rfl rfl rfl

theorem reset_bounded : Bounded State.reset := bounded_linkLaw.reset rfl rfl rfl rfl rfl

theorem reset_poolLaw : PoolLaw State.reset := pool_linkLaw.reset rfl rfl rfl rfl rfl

theorem reset_restoreLaw : RestoreLaw State.reset := restore_reset State.reset

theorem reset_recordLaw : RecordLaw State.reset := recordLaw_iff.2 ⟨reset_records State.reset, reset_startsSilent State.reset⟩

theorem reset_pinLaw : PinLaw State.reset := pinLaw_iff.2 ⟨pinCounts_reset rfl rfl rfl, opHolds_idle rfl⟩

theorem reset_pinBalance : PinBalance State.reset := (held_reset (s := State.reset) rfl rfl rfl).pinBalance

/-! ## At every step -/

/-- A law of pins is kept by every step, together with that of the reader. -/
theorem PinWalk.step {P : State → Prop} (L : PinWalk P) (hs : P s) (ho : OpHolds s) (ht : Machine.step s = .next t) : P t ∧ OpHolds t :=
  law_of_events (P := fun s => P s ∧ OpHolds s) (fun _ _ h => ⟨L.keep h.1 rfl rfl, h.2⟩) (fun _ _ h => ⟨L.keep h.1 rfl rfl, h.2⟩)
    (fun _ _ h hu => ⟨L.event h.1 h.2 hu, opHolds_pinWalk.event h.2 h.2 hu⟩) (fun _ h => ⟨L.finish h.1, opHolds_pinWalk.finish h.2⟩)
    s t ⟨hs, ho⟩ ht

/-- Every step keeps the law of pins and the fill queue. -/
theorem pinLaw_step (s t : State) (hs : PinLaw s) (ht : step s = .next t) : PinLaw t := by
  obtain ⟨hc, ho⟩ := pinLaw_iff.1 hs
  exact pinLaw_iff.2 (pinCounts_pinWalk.step hc ho ht)

/-- Every step keeps the balance of a running PIN. -/
theorem pinBalance_step (s t : State) (hs : PinLaw s) (hb : PinBalance s) (ht : step s = .next t) : PinBalance t :=
  (held_pinWalk.step (held_of hs hb) (pinLaw_iff.1 hs).2 ht).1.pinBalance

/-- Settles O16, by the values at reset and one walk over the events for each law. -/
theorem lawsAtReset : Obligations.LawsAtReset := by
  unfold Obligations.LawsAtReset
  exact ⟨reset_outputsFollow, reset_segmentSilent, reset_flashCanonical, reset_attentionLaw, reset_bounded, reset_poolLaw,
    reset_restoreLaw, reset_pinLaw, reset_recordLaw, restoreLaw_step, pinLaw_step, recordLaw_step, reset_pinBalance, pinBalance_step⟩

end Sys2Proof.Machine
end
